-- ==== Sys2Proof/Word.lean ====
section
/-!
DEFINITION. The word types of the AUB-DL960 and the sparse tables every keyed piece of state is held in.
-/
namespace Sys2Proof

abbrev Byte := BitVec 8
abbrev Half := BitVec 16
abbrev W32 := BitVec 32
abbrev W64 := BitVec 64
/-- A lane mask: floes have at most 128 lanes (R20). -/
abbrev Mask := BitVec 128
/-- A 128-byte line (R205, R216). -/
abbrev Line := BitVec 1024

/-- A sparse table: data by key, sorted by key when built by `put`, `set` and `del`. -/
abbrev Tab (α : Type) := List (Nat × α)

namespace Tab

/-- The entry at key `k`. -/
def get? {α : Type} : Tab α → Nat → Option α
  | [], _ => none
  | (a, x) :: t, k => if a = k then some x else get? t k

/-- The entry at key `k`, or `d` where there is none. -/
def getD {α : Type} (t : Tab α) (k : Nat) (d : α) : α := (get? t k).getD d

/-- Write the entry at key `k`, keeping rising keys rising. -/
def put {α : Type} : Tab α → Nat → α → Tab α
  | [], k, v => [(k, v)]
  | (a, x) :: t, k, v =>
    if k < a then (k, v) :: (a, x) :: t
    else if k = a then (k, v) :: t
    else (a, x) :: put t k v

/-- Remove every entry at key `k`. -/
def del {α : Type} : Tab α → Nat → Tab α
  | [], _ => []
  | (a, x) :: t, k => if a = k then del t k else (a, x) :: del t k

/-- Write `v` at key `k` of a table whose unlisted keys read as `d`: writing `d` removes the entry. -/
def set {α : Type} [DecidableEq α] (d : α) (t : Tab α) (k : Nat) (v : α) : Tab α :=
  if v = d then del t k else put t k v

/-- Update the entry at key `k`, unlisted keys reading as `d`. -/
def upd {α : Type} (d : α) (t : Tab α) (k : Nat) (f : α → α) : Tab α := put t k (f (getD t k d))

/-- The canonical form: keys strictly rising and no entry equal to the default. -/
def wf {α : Type} [DecidableEq α] (d : α) : Tab α → Bool
  | [] => true
  | (a, x) :: t => decide (x ≠ d) && t.all (fun e => decide (a < e.1)) && wf d t

/-- The values of a table, by rising key. -/
def vals {α : Type} (t : Tab α) : List α := t.map (fun e => e.2)

/-- The keys of a table. -/
def keys {α : Type} (t : Tab α) : List Nat := t.map (fun e => e.1)

end Tab

/-- Sign extension of the low bits of a word to 64 bits (R96). -/
def sext64 {n : Nat} (x : BitVec n) : W64 := x.signExtend 64
/-- Zero extension to 64 bits (R96). -/
def zext64 {n : Nat} (x : BitVec n) : W64 := x.setWidth 64
/-- The low 32 bits. -/
def lo32 {n : Nat} (x : BitVec n) : W32 := x.setWidth 32
/-- Bits [31:0] and [63:32] joined into one 64-bit value. -/
def pair64 (hi lo : W32) : W64 := hi ++ lo

/-- `count` bits of `x` from bit `lo`, as a natural number (R10 bit selection). -/
def bitsOf (x : Nat) (lo count : Nat) : Nat := (x / 2 ^ lo) % 2 ^ count

/-- The numbers below `n`, rising. -/
def upTo (n : Nat) : List Nat := List.range n

end Sys2Proof
end

