-- ==== Sys2Proof/Config.lean ====
section
/-!
DEFINITION. What an implementation fixes and the values the manual leaves open. An `opaque` constant has no body that a
proof can see: a statement about it holds whatever the value is.
-/
namespace Sys2Proof.Config

/-- A fresh value the manual leaves open (R143 tile contents, R173, R255, R419 ...): the `n`-th draw of the state's
free-value counter (log entry 4). -/
opaque freeWord : Nat → BitVec 64

/-- How many core cycles pass before the `n`-th turn (timing is left out, log entry 5). -/
opaque freeCycles : Nat → BitVec 64

/-- How many nanoseconds of `TIME` pass before the `n`-th turn (log entry 5). -/
opaque freeNs : Nat → BitVec 64

/-- Which of the results inside the bound of R133 an implementation returns: operation, type and source (R369: the
same bits for one type and source on every core). -/
opaque specialPick : Nat → Nat → Nat → Nat

/-- Bytes written under one key slot and read under another (R215): written slot, reading slot, address, byte. -/
opaque keyMismatch : Nat → Nat → Nat → BitVec 8 → BitVec 8

/-- Which of the free backing registers of a loop-carried queue the next entry takes (R419): the depth and the registers of the
entries that stand. -/
opaque queueSlot : Nat → List Nat → Nat

/-- The nominal frequency in MHz of an island other than a compute island (R16, R295). -/
opaque uncoreMHz : Nat → Nat

end Sys2Proof.Config
end

