-- ==== Sys2Proof/Machine/Bits.lean ====
section
/-!
DEFINITION. Lane masks, byte order (R4), bit fields and serial comparison of logical times (R218).
-/
namespace Sys2Proof.Machine

/-- Bit `l` of a lane mask. -/
def Mask.has (m : Mask) (l : Nat) : Bool := m.getLsbD l
/-- The mask of one lane. -/
def Mask.one (l : Nat) : Mask := BitVec.ofNat 128 (2 ^ l)
/-- The mask of the lanes below `w`. -/
def Mask.below (w : Nat) : Mask := BitVec.ofNat 128 (2 ^ w - 1)
/-- The lanes of a mask below `w`, ascending. -/
def Mask.lanes (m : Mask) (w : Nat) : List Nat := (upTo w).filter (fun l => m.getLsbD l)
/-- The mask of a list of lanes. -/
def Mask.ofLanes (ls : List Nat) : Mask := ls.foldl (fun m l => m ||| Mask.one l) 0
/-- The lowest lane of a mask within width `w` (R9); lane 0 where there is none. -/
def Mask.lowest (m : Mask) (w : Nat) : Nat := (Mask.lanes m w).headD 0

/-- The `n` low bytes of a number, lowest first (R4). -/
def toBytes : Nat → Nat → List Byte
  | 0, _ => []
  | n + 1, x => BitVec.ofNat 8 x :: toBytes n (x / 256)
/-- The number of a list of bytes, lowest first (R4). -/
def ofBytes : List Byte → Nat
  | [] => 0
  | b :: t => b.toNat + 256 * ofBytes t

/-- Bits [lo + count - 1 : lo] of a bit vector as a number (R10). -/
def fieldN {n : Nat} (x : BitVec n) (lo count : Nat) : Nat := bitsOf x.toNat lo count
/-- Bit `i` of a bit vector. -/
def bitN {n : Nat} (x : BitVec n) (i : Nat) : Bool := x.getLsbD i
/-- Two's-complement reading of `count` bits from `lo`. -/
def fieldI {n : Nat} (x : BitVec n) (lo count : Nat) : Int :=
  let v := bitsOf x.toNat lo count
  if v < 2 ^ (count - 1) then (v : Int) else (v : Int) - 2 ^ count

/-- `a` is earlier than `b` in 16-bit serial arithmetic (R218). -/
def earlier (a b : BitVec 16) : Bool :=
  let d := (b - a).toNat
  1 ≤ d && d ≤ 2 ^ 15 - 1
/-- The serially later of two times (R218). -/
def laterOf (a b : BitVec 16) : BitVec 16 := if earlier a b then b else a
/-- The serially earlier of two times (R218). -/
def earlierOf (a b : BitVec 16) : BitVec 16 := if earlier b a then b else a

/-- A 32-bit word read as a signed integer. -/
def s32 (x : W32) : Int := x.toInt
/-- A value of 0 or 1. -/
def bit01 (b : Bool) : Nat := if b then 1 else 0
/-- A truth value as a 64-bit word. -/
def w64 (b : Bool) : W64 := if b then 1 else 0

/-- Replace the element at a position of a list; nothing past its end. -/
def setAt {α : Type} : List α → Nat → α → List α
  | [], _, _ => []
  | _ :: t, 0, y => y :: t
  | x :: t, n + 1, y => x :: setAt t n y

/-- Rounding a number up to a multiple of `k` (k > 0). -/
def roundUp (n k : Nat) : Nat := (n + k - 1) / k * k

/-- A list without repeats, keeping first occurrences. -/
def dedupe {α : Type} [DecidableEq α] (l : List α) : List α :=
  (l.foldl (fun acc x => if x ∈ acc then acc else x :: acc) []).reverse

end Sys2Proof.Machine
end

