-- ==== Sys2Proof/Machine/Num.lean ====
section
/-!
DEFINITION. Number formats and arithmetic (R111 to R136): exact values, rounding into every format, IEEE arithmetic,
the special functions within their bounds, Microscaling blocks, and group sums.
-/
namespace Sys2Proof.Machine

/-- An exact value: NaN, an infinity, or (-1)^neg x m x 2^e; `m = 0` is a signed zero. -/
inductive FVal where
  | nan
  | inf (neg : Bool)
  | fin (neg : Bool) (m : Nat) (e : Int)
  deriving DecidableEq, Repr

/-- +0. -/
def FVal.zero : FVal := .fin false 0 0

/-- 2^k for a non-negative exponent, 1 otherwise. -/
def pow2 (k : Int) : Nat := 2 ^ k.toNat

/-! ## IEEE formats and element formats -/

/-- Exponent and fraction widths of a binary floating-point format. -/
structure BinFmt where
  eb : Nat
  mb : Nat
  deriving DecidableEq, Repr

/-- FP32 (R111). -/
def fmt32 : BinFmt := ⟨8, 23⟩
/-- FP64 (R111). -/
def fmt64 : BinFmt := ⟨11, 52⟩
/-- FP16 (R111). -/
def fmt16 : BinFmt := ⟨5, 10⟩
/-- BF16 (R111). -/
def fmtB16 : BinFmt := ⟨8, 7⟩

/-- The bias of a format with the IEEE bias (R111, R113: all but none of the element formats differ). -/
def BinFmt.bias (f : BinFmt) : Int := 2 ^ (f.eb - 1) - 1
/-- The code of +infinity. -/
def BinFmt.infCode (f : BinFmt) : Nat := (2 ^ f.eb - 1) * 2 ^ f.mb
/-- The sign bit's weight. -/
def BinFmt.signBit (f : BinFmt) : Nat := 2 ^ (f.eb + f.mb)
/-- The canonical NaN (R111). -/
def BinFmt.nanCode (f : BinFmt) : Nat := f.infCode + 2 ^ (f.mb - 1)

/-- The finite value of a code's fields (R113). -/
def finOf (f : BinFmt) (c : Nat) : FVal :=
  let neg : Bool := c / f.signBit % 2 = 1
  let x := c / 2 ^ f.mb % 2 ^ f.eb
  let m := c % 2 ^ f.mb
  if x = 0 then .fin neg m (1 - f.bias - f.mb)
  else .fin neg (m + 2 ^ f.mb) (x - f.bias - f.mb)

/-- The value of an IEEE code (R111). -/
def ieeeVal (f : BinFmt) (c : Nat) : FVal :=
  if c / 2 ^ f.mb % 2 ^ f.eb = 2 ^ f.eb - 1 then
    (if c % 2 ^ f.mb = 0 then .inf (c / f.signBit % 2 = 1) else .nan)
  else finOf f c

/-- Whether a magnitude n + rem / 2^sh rounds up (R121): modes nearest-even, toward zero, toward minus infinity,
stochastic with hash `h`. -/
def roundsUp (mode h n rem sh : Nat) (neg : Bool) : Bool :=
  match mode with
  | 0 => 2 ^ sh < 2 * rem || (2 * rem = 2 ^ sh && n % 2 = 1)
  | 1 => false
  | 2 => neg && rem ≠ 0
  | _ => h * 2 ^ sh < rem * 2 ^ 32

/-- A magnitude m x 2^e on the grid of step 2^q: its rounded multiple. -/
def gridRound (mode h : Nat) (neg : Bool) (m : Nat) (e q : Int) : Nat :=
  if q ≤ e then m * pow2 (e - q)
  else
    let sh := (q - e).toNat
    let n := m / 2 ^ sh
    if roundsUp mode h n (m % 2 ^ sh) sh neg then n + 1 else n

/-- The magnitude code of m x 2^e (m > 0) rounded into the fields of a format, as if exponents had no upper limit. -/
def magCode (f : BinFmt) (mode h : Nat) (neg : Bool) (m : Nat) (e : Int) : Nat :=
  let lg : Int := Nat.log2 m + e
  let emin : Int := 1 - f.bias
  if lg < emin then gridRound mode h neg m e (emin - f.mb)
  else gridRound mode h neg m e (lg - f.mb) + (lg + f.bias - 1).toNat * 2 ^ f.mb

/-- Rounding into an IEEE format, with the overflow and special rows of R122. -/
def roundIeee (f : BinFmt) (mode : Nat) (sat : Bool) (h : Nat) : FVal → Nat
  | .nan => f.nanCode
  | .inf neg => (if sat then f.infCode - 1 else f.infCode) + bit01 neg * f.signBit
  | .fin neg m e =>
    let s := bit01 neg * f.signBit
    if m = 0 then s
    else
      let c := magCode f mode h neg m e
      if c < f.infCode then c + s
      else if sat then f.infCode - 1 + s
      else if mode = 1 || (mode = 2 && !neg) then f.infCode - 1 + s
      else f.infCode + s

/-- E4M3, E5M2, E3M2, E2M3, E2M1 by format code 0x2 to 0x6 (R113, R118): the fields, the largest finite code, the NaN code
if any, and whether infinities exist. -/
def elemFmt (f : Nat) : BinFmt × Nat :=
  match f with
  | 2 => (⟨4, 3⟩, 0x7E)
  | 3 => (⟨5, 2⟩, 0x7B)
  | 4 => (⟨3, 2⟩, 0x1F)
  | 5 => (⟨2, 3⟩, 0x1F)
  | _ => (⟨2, 1⟩, 0x7)

/-- The value of an element code of formats 0x2 to 0x6 (R113). -/
def elemVal (f c : Nat) : FVal :=
  let p := elemFmt f
  let w := 1 + p.1.eb + p.1.mb
  let x := c % 2 ^ w
  let mag := x % p.1.signBit
  match f with
  | 2 => if mag = 0x7F then .nan else finOf p.1 x
  | 3 => if mag = 0x7C then .inf (x / p.1.signBit % 2 = 1) else if 0x7C < mag then .nan else finOf p.1 x
  | _ => finOf p.1 x

/-- Rounding into an element format 0x2 to 0x6 (R121, R122). -/
def roundElem (f mode : Nat) (sat : Bool) (h : Nat) : FVal → Nat
  | .nan => if f = 2 then 0x7F else if f = 3 then 0x7E else 0
  | .inf neg =>
    let p := elemFmt f
    (if f = 3 && !sat then 0x7C else p.2) + bit01 neg * p.1.signBit
  | .fin neg m e =>
    let p := elemFmt f
    let s := bit01 neg * p.1.signBit
    if m = 0 then s else Nat.min (magCode p.1 mode h neg m e) p.2 + s

/-! ## Integer formats and D2P8 -/

/-- A two's-complement byte as an integer. -/
def byteInt (c : Nat) : Int := if c % 256 < 128 then (c % 256 : Nat) else (c % 256 : Nat) - 256
/-- An integer as a two's-complement byte. -/
def intByte (i : Int) : Nat := (i % 256).toNat

/-- Rounding onto the integers in units of 2^q, saturating to -128 .. 127 (R121, R122, R117). -/
def roundInt (q : Int) (mode h : Nat) : FVal → Nat
  | .nan => 0
  | .inf neg => if neg then intByte (-128) else 127
  | .fin neg m e =>
    let n := gridRound mode h neg m e q
    if neg then intByte (-(Nat.min n 128 : Nat)) else Nat.min n 127

/-- One term of a D2P8 code, in units of 2^-6 (R115). -/
def d2Term (sign shift : Nat) : Int :=
  if shift = 7 then 0 else if sign = 1 then -(2 ^ (6 - shift) : Nat) else (2 ^ (6 - shift) : Nat)
/-- The value of a D2P8 code in units of 2^-6 (R115). -/
def d2Val (c : Nat) : Int := d2Term (c / 128 % 2) (c / 16 % 8) + d2Term (c / 8 % 2) (c % 8)

/-- The canonical code of a value in units of 2^-6 (R116). -/
def d2Code (v : Int) : Nat :=
  if v = 0 then 0x77 else ((upTo 256).find? (fun c => d2Val c = v)).getD 0x77

/-- The magnitudes of D2P8, in units of 2^-6. -/
def d2Mags : List Nat := (upTo 129).filter (fun v => (upTo 256).any (fun c => d2Val c = (v : Int)))

/-- Rounding into D2P8 (R121, R122): a tie goes to the smaller magnitude. -/
def roundD2 (mode h : Nat) : FVal → Nat
  | .nan => 0x77
  | .inf neg => d2Code (if neg then -128 else 128)
  | .fin neg m e =>
    -- |x| = a / 2^sh in units of 2^-6
    let a := m * pow2 (e + 6)
    let sh := (-(e + 6)).toNat
    let u := 2 ^ sh
    if 128 * u < a then d2Code (if neg then -128 else 128)
    else
      let lo := (d2Mags.filter (fun k => k * u ≤ a)).foldl Nat.max 0
      let hi := (d2Mags.filter (fun k => a ≤ k * u)).foldl Nat.min 128
      let up : Bool :=
        if lo = hi then false
        else match mode with
          | 0 => (hi * u - a) < (a - lo * u)
          | 1 => false
          | 2 => neg
          | _ => h * ((hi - lo) * u) < (a - lo * u) * 2 ^ 32
      let v : Int := if up then (hi : Int) else (lo : Int)
      d2Code (if neg then -v else v)

/-! ## Formats by code (R118) -/

/-- The width in bits of a format code (R94, R113). -/
def fmtWidth (f : Nat) : Nat :=
  match f with
  | 0 => 16 | 1 => 16 | 2 => 8 | 3 => 8 | 4 => 6 | 5 => 6 | 6 => 4 | 0xA => 32 | _ => 8

/-- The value of a code of a format (R111, R113, R115); INT8 is read as an integer. -/
def codeVal (f c : Nat) : FVal :=
  match f with
  | 0 => ieeeVal fmtB16 (c % 2 ^ 16)
  | 1 => ieeeVal fmt16 (c % 2 ^ 16)
  | 7 => .fin (byteInt c < 0) (byteInt c).natAbs (-6)
  | 8 => .fin (d2Val (c % 256) < 0) (d2Val (c % 256)).natAbs (-6)
  | 9 => .fin (byteInt c < 0) (byteInt c).natAbs 0
  | 0xA => ieeeVal fmt32 (c % 2 ^ 32)
  | _ => elemVal f c

/-- The helper `round` (R121, R122, R117). -/
def roundTo (f mode : Nat) (sat : Bool) (h : Nat) (x : FVal) : Nat :=
  match f with
  | 0 => roundIeee fmtB16 mode sat h x
  | 1 => roundIeee fmt16 mode sat h x
  | 7 => roundInt (-6) mode h x
  | 8 => roundD2 mode h x
  | 9 => roundInt 0 mode h x
  | 0xA => roundIeee fmt32 mode sat h x
  | _ => roundElem f mode sat h x

/-- Rounding to FP32, nearest-even. -/
def rn32 (x : FVal) : Nat := roundIeee fmt32 0 false 0 x
/-- The FP32 value of a word. -/
def val32 (c : Nat) : FVal := ieeeVal fmt32 (c % 2 ^ 32)

/-- The stochastic hash (R123). -/
def stochHash (seed c0 c1 : Nat) : Nat :=
  let m := 2 ^ 64
  let z := Nat.xor (seed % m) ((c0 % 2 ^ 32) * 2 ^ 32 + c1 % 2 ^ 32)
  let z := (z + 0x9E3779B97F4A7C15) % m
  let z := (Nat.xor z (z / 2 ^ 30)) * 0xBF58476D1CE9E5B9 % m
  let z := (Nat.xor z (z / 2 ^ 27)) * 0x94D049BB133111EB % m
  let z := Nat.xor z (z / 2 ^ 31)
  z / 2 ^ 32

/-! ## Exact arithmetic on values -/

/-- The integer of a finite value in units of 2^q, q at most its exponent. -/
def scaled (neg : Bool) (m : Nat) (e q : Int) : Int :=
  let v : Int := (m * pow2 (e - q) : Nat)
  if neg then -v else v

/-- The exact sum; an exact zero sum of operands of unlike sign is +0 (nearest-even, R132). -/
def FVal.add : FVal → FVal → FVal
  | .nan, _ => .nan
  | _, .nan => .nan
  | .inf a, .inf b => if a = b then .inf a else .nan
  | .inf a, .fin _ _ _ => .inf a
  | .fin _ _ _, .inf b => .inf b
  | .fin a m e, .fin b n g =>
    if m = 0 && n = 0 then .fin (a && b) 0 0
    else
      let q := min e g
      let s := scaled a m e q + scaled b n g q
      .fin (s < 0) s.natAbs q

/-- Negation. -/
def FVal.neg : FVal → FVal
  | .nan => .nan
  | .inf a => .inf (!a)
  | .fin a m e => .fin (!a) m e

/-- The exact product; 0 x infinity is NaN. -/
def FVal.mul : FVal → FVal → FVal
  | .nan, _ => .nan
  | _, .nan => .nan
  | .inf a, .inf b => .inf (a != b)
  | .inf a, .fin b n _ => if n = 0 then .nan else .inf (a != b)
  | .fin a m _, .inf b => if m = 0 then .nan else .inf (a != b)
  | .fin a m e, .fin b n g => .fin (a != b) (m * n) (e + g)

/-- Scaling by a power of two. -/
def FVal.scale (k : Int) : FVal → FVal
  | .fin a m e => .fin a m (e + k)
  | x => x

/-- The value is a NaN. -/
def FVal.isNan : FVal → Bool
  | .nan => true
  | _ => false
/-- The value is an infinity. -/
def FVal.isInf : FVal → Bool
  | .inf _ => true
  | _ => false
/-- The value is a zero. -/
def FVal.isZero : FVal → Bool
  | .fin _ m _ => m = 0
  | _ => false
/-- The sign. -/
def FVal.isNeg : FVal → Bool
  | .nan => false
  | .inf a => a
  | .fin a _ _ => a
/-- The magnitude. -/
def FVal.abs : FVal → FVal
  | .nan => .nan
  | .inf _ => .inf false
  | .fin _ m e => .fin false m e

/-- `x ≤ y` as reals, neither a NaN. -/
def FVal.le : FVal → FVal → Bool
  | .nan, _ => false
  | _, .nan => false
  | .inf true, _ => true
  | _, .inf false => true
  | .inf false, _ => false
  | _, .inf true => false
  | .fin a m e, .fin b n g =>
    let q := min e g
    scaled a m e q ≤ scaled b n g q
/-- Equality of values: -0 equals +0 (R372). -/
def FVal.eq (x y : FVal) : Bool := x.le y && y.le x

/-! ## Vector arithmetic (R132, R365 to R367) -/

/-- The formats of the FP type field (R132). -/
def typeFmt (t : Nat) : BinFmt :=
  match t with
  | 0 => fmt32
  | 1 => fmt64
  | 2 => fmt16
  | _ => fmtB16

/-- Sum, difference, product and fused multiply-add, rounded once to nearest-even (R366). -/
def fpAdd (f : BinFmt) (x y : Nat) : Nat := roundIeee f 0 false 0 ((ieeeVal f x).add (ieeeVal f y))
def fpSub (f : BinFmt) (x y : Nat) : Nat := roundIeee f 0 false 0 ((ieeeVal f x).add (ieeeVal f y).neg)
def fpMul (f : BinFmt) (x y : Nat) : Nat := roundIeee f 0 false 0 ((ieeeVal f x).mul (ieeeVal f y))
def fpFma (f : BinFmt) (x y z : Nat) : Nat :=
  roundIeee f 0 false 0 (((ieeeVal f x).mul (ieeeVal f y)).add (ieeeVal f z))

/-- A code's place in the order of R367, -0 below +0. -/
def fpKey (f : BinFmt) (x : Nat) : Int :=
  let mag : Nat := x % f.signBit
  if x / f.signBit % 2 = 1 then -(mag : Int) - 1 else (mag : Int)

/-- `FMIN` and `FMAX` (R367): a NaN gives the other operand, two NaNs the canonical NaN. -/
def fpMinMax (f : BinFmt) (wantMax : Bool) (x y : Nat) : Nat :=
  match (ieeeVal f x).isNan, (ieeeVal f y).isNan with
  | true, true => f.nanCode
  | true, false => y
  | false, true => x
  | false, false =>
    if wantMax then (if fpKey f x ≤ fpKey f y then y else x)
    else (if fpKey f x ≤ fpKey f y then x else y)

/-- The conditions of `FCMP` (R371, R372): EQ, NE, LT, LE, GT, GE, ORD, UNO. -/
def fpCond (f : BinFmt) (cond x y : Nat) : Bool :=
  let a := ieeeVal f x
  let b := ieeeVal f y
  let un := a.isNan || b.isNan
  match cond with
  | 0 => !un && a.eq b
  | 1 => un || !(a.eq b)
  | 2 => !un && !(b.le a)
  | 3 => !un && a.le b
  | 4 => !un && !(a.le b)
  | 5 => !un && b.le a
  | 6 => !un
  | _ => un

/-- The class mask of `FCLS` (R135). -/
def fpClass (f : BinFmt) (x : Nat) : Nat :=
  let neg : Bool := x / f.signBit % 2 = 1
  let e := x / 2 ^ f.mb % 2 ^ f.eb
  let m := x % 2 ^ f.mb
  if e = 2 ^ f.eb - 1 then
    (if m = 0 then (if neg then 2 ^ 0 else 2 ^ 7) else if m / 2 ^ (f.mb - 1) = 0 then 2 ^ 8 else 2 ^ 9)
  else if e = 0 then
    (if m = 0 then (if neg then 2 ^ 3 else 2 ^ 4) else if neg then 2 ^ 2 else 2 ^ 5)
  else if neg then 2 ^ 1 else 2 ^ 6

/-! ## Fixed-point series for the special functions

`P`-bit fixed point: a value v stands for v / 2^P. The error of each series is far below the bounds of R133. -/

/-- Sum of x^k / k! for k from `k` on, `n` terms, `t` the current term. -/
def expTerms (P x : Nat) : Nat → Nat → Nat → Nat
  | 0, _, _ => 0
  | n + 1, k, t => t + expTerms P x n (k + 1) (t * x / 2 ^ P / (k + 1))
/-- e^x for x in [0, 1), fixed point. -/
def fixExp (P x : Nat) : Nat := expTerms P x (P / 2 + 8) 0 (2 ^ P)
/-- The odd series t + t^3/3 + t^5/5 ... of atanh, `n` terms; `p` the current odd power. -/
def atanhTerms (P t2 : Nat) : Nat → Nat → Nat → Nat
  | 0, _, _ => 0
  | n + 1, k, p => p / (2 * k + 1) + atanhTerms P t2 n (k + 1) (p * t2 / 2 ^ P)
/-- ln of num / den in [1, 2], fixed point: 2 atanh((num - den) / (num + den)). -/
def fixLn (P num den : Nat) : Nat :=
  let t := (num - den) * 2 ^ P / (num + den)
  2 * atanhTerms P (t * t / 2 ^ P) (P / 3 + 8) 0 t
/-- ln 2, fixed point. -/
def fixLn2 (P : Nat) : Nat := fixLn P 2 1
/-- The alternating series of arctan(1 / d), `n` terms, sign carried by the parity of k. -/
def atanTerms (P d2 : Nat) : Nat → Nat → Nat → Int
  | 0, _, _ => 0
  | n + 1, k, p =>
    (if k % 2 = 0 then ((p / (2 * k + 1) : Nat) : Int) else -((p / (2 * k + 1) : Nat) : Int))
      + atanTerms P d2 n (k + 1) (p / d2)
/-- pi, fixed point, by 16 arctan(1/5) - 4 arctan(1/239). -/
def fixPi (P : Nat) : Nat :=
  (16 * atanTerms P 25 (P / 4 + 8) 0 (2 ^ P / 5) - 4 * atanTerms P 57121 (P / 15 + 8) 0 (2 ^ P / 239)).toNat
/-- The alternating series of sine (from k = 1) or cosine (from k = 0). -/
def trigTerms (P x2 : Nat) : Nat → Nat → Bool → Nat → Int
  | 0, _, _, _ => 0
  | n + 1, k, neg, t =>
    (if neg then -(t : Int) else (t : Int)) + trigTerms P x2 n (k + 2) (!neg) (t * x2 / 2 ^ P / ((k + 1) * (k + 2)))
/-- sin and cos of x in [0, 2), fixed point. -/
def fixSin (P x : Nat) : Int := trigTerms P (x * x / 2 ^ P) (P / 4 + 8) 1 false x
def fixCos (P x : Nat) : Int := trigTerms P (x * x / 2 ^ P) (P / 4 + 8) 0 false (2 ^ P)

/-! ## Special functions (R133, R134, R369) -/

/-- The eight FP-S operations except `FCLS` (R368). -/
inductive SpecialOp where
  | rcp | rsq | sqrt | ex2 | lg2 | sin | cos
  deriving DecidableEq, Repr

/-- Their numbers (R368). -/
def SpecialOp.num : SpecialOp → Nat
  | .rcp => 0 | .rsq => 1 | .sqrt => 2 | .ex2 => 3 | .lg2 => 4 | .sin => 5 | .cos => 6

/-- A true result: exactly (neg, m, e), or inside the step above it (`exact` false: a sticky bit below m). -/
structure Approx where
  neg   : Bool
  m     : Nat
  e     : Int
  exact : Bool
  deriving DecidableEq, Repr

/-- The value with the sticky bit appended below its last bit. -/
def Approx.sticky (a : Approx) : FVal := .fin a.neg (2 * a.m + bit01 (!a.exact)) (a.e - 1)

/-- Working precision, enough for every type (R133). -/
def workP : Nat := 400

/-- 1 / (m x 2^e). -/
def apxRcp (neg : Bool) (m : Nat) (e : Int) : Approx :=
  let k := workP + Nat.log2 m
  ⟨neg, 2 ^ k / m, -(k : Int) - e, 2 ^ k % m = 0⟩
/-- The square root of m x 2^e. -/
def apxSqrt (m : Nat) (e : Int) : Approx :=
  let odd : Bool := e % 2 ≠ 0
  let n := (if odd then 2 * m else m) * 4 ^ workP
  let e' := (if odd then e - 1 else e) / 2 - workP
  let r := Nat.sqrt n
  ⟨false, r, e', r * r = n⟩
/-- 1 / sqrt(m x 2^e). -/
def apxRsq (m : Nat) (e : Int) : Approx :=
  let s := apxSqrt m e
  let r := apxRcp false s.m s.e
  ⟨false, r.m, r.e, s.exact && r.exact⟩
/-- 2^x for x = (-1)^neg m 2^e of at most 2^12 in magnitude; x is taken down to the working precision, so that the true
result lies at or above what is answered. -/
def apxEx2 (neg : Bool) (m : Nat) (e : Int) : Approx :=
  let v : Int := if e < 0 then (m : Int) * (2 ^ workP : Nat) / (pow2 (-e) : Nat) else (m * pow2 e * 2 ^ workP : Nat)
  let isInt : Bool := 0 ≤ e || m % pow2 (-e) = 0
  let whole : Bool := 0 ≤ e || m * 2 ^ workP % pow2 (-e) = 0
  let x : Int := if neg then (if whole then -v else -(v + 1)) else v
  let ip : Int := x / (2 ^ workP : Nat)
  let fp : Nat := (x % (2 ^ workP : Nat)).toNat
  if isInt then ⟨false, 1, ip, true⟩
  else ⟨false, fixExp workP (fp * fixLn2 workP / 2 ^ workP), ip - workP, false⟩
/-- log2 of m x 2^e, m > 0. -/
def apxLg2 (m : Nat) (e : Int) : Approx :=
  let lg := Nat.log2 m
  let ip : Int := lg + e
  if m = 2 ^ lg then ⟨ip < 0, ip.natAbs, 0, true⟩
  else
    -- log2 x = ip + ln(m / 2^lg) / ln 2; near 1 from below the fraction cancels, so keep many bits
    let P := 2 * workP
    let fr : Nat := fixLn P m (2 ^ lg) * 2 ^ P / fixLn2 P
    let v : Int := ip * (2 ^ P : Nat) + (fr : Int)
    ⟨v < 0, v.natAbs, -(P : Int), false⟩
/-- sin or cos of m x 2^e (m > 0), by reduction modulo 2 pi with enough bits of pi. The true magnitude lies just below the computed one: where
that is the source itself or 1, sin x < x and cos x < 1. -/
def apxTrig (isCos neg : Bool) (m : Nat) (e : Int) : Approx :=
  let big := (Nat.log2 m + e).toNat
  let P := workP + (-(Nat.log2 m + e)).toNat + 8
  let Q := P + big + 16
  let x : Nat := if e < 0 then m * 2 ^ Q / pow2 (-e) else m * pow2 e * 2 ^ Q
  let pi := fixPi Q
  let q := x * 2 / pi            -- quarter turns
  let r := (x - q * pi / 2) / 2 ^ (Q - P)
  let v : Int :=
    match (q + bit01 isCos) % 4 with
    | 0 => fixSin P r
    | 1 => fixCos P r
    | 2 => -fixSin P r
    | _ => -fixCos P r
  let w := if isCos then v else if neg then -v else v
  ⟨w < 0, w.natAbs * 2 - 1, -(P : Int) - 1, false⟩

/-- A code from a signed magnitude code. -/
def withSign (f : BinFmt) (neg : Bool) (c : Nat) : Nat := Nat.min c f.infCode + bit01 neg * f.signBit

/-- Any value within 2^-b of a true result: the true value moved by a free amount and rounded towards it, down where it was moved
up and up where it was moved down (R133). -/
def withinAbs (f : BinFmt) (b : Nat) (a : Approx) (pick : Nat) : Nat :=
  let g := 1200
  let d : Int := (pick % (2 * 2 ^ g + 1) : Nat) - (2 ^ g : Nat)
  let q : Int := min a.e (-(b + g : Nat))
  let s := scaled a.neg a.m a.e q + d * (pow2 (-(b + g : Nat) - q) : Nat)
  let neg : Bool := s < 0
  if 0 ≤ d then roundIeee f 2 false 0 (.fin neg s.natAbs q)
  else if neg then roundIeee f 1 false 0 (.fin true s.natAbs q)
  else roundIeee f 2 false 0 (.fin true s.natAbs q) % f.signBit

/-- The results that lie within `n` ULP (1 or 2) of a true result, lower magnitude first (R133); below the least subnormal that and zero alone
(R369). -/
def withinUlp (f : BinFmt) (n : Nat) (a : Approx) : List Nat :=
  match a.sticky with
  | .fin neg m e =>
    let lo := magCode f 1 0 false m e
    let near := if a.exact && magCode f 2 0 true m e = lo then [lo] else [lo, lo + 1]
    let all := if n = 1 || near.length = 1 then near
      else (if lo = 0 then [] else [lo - 1]) ++ near ++
        (if lo ≠ 0 && (lo + 2) / 2 ^ f.mb = lo / 2 ^ f.mb then [lo + 2] else [])
    all.map (withSign f neg)
  | _ => []

/-- The result of a special function for a finite non-zero source inside its domain: correctly rounded, exact, or the
free choice `pick` among the results R133 allows. -/
def specialFin (op : SpecialOp) (t : Nat) (neg : Bool) (m : Nat) (e : Int) (pick : Nat) : Nat :=
  let f := typeFmt t
  let lg : Int := Nat.log2 m + e
  let a : Approx :=
    match op with
    | .rcp => apxRcp neg m e
    | .rsq => apxRsq m e
    | .sqrt => apxSqrt m e
    | .ex2 => apxEx2 neg m e
    | .lg2 => apxLg2 m e
    | .sin => apxTrig false neg m e
    | .cos => apxTrig true neg m e
  let nearest := roundIeee f 0 false 0 a.sticky
  let choose (l : List Nat) : Nat := l.getD (pick % l.length) nearest
  let ovf : Bool := f.infCode ≤ magCode f 2 0 true (2 * a.m + bit01 (!a.exact)) (a.e - 1)
  match op with
  | .sqrt => nearest
  | .rcp =>
    if 2 ≤ t then nearest
    else if ovf then f.infCode + bit01 neg * f.signBit
    else choose (withinUlp f 1 a)
  | .rsq => if 2 ≤ t then nearest else choose (withinUlp f 1 a)
  | .ex2 =>
    if 12 ≤ lg then (if neg then (if 2 ≤ t then 0 else pick % 2) else f.infCode)
    else if 2 ≤ t then nearest
    else if ovf then f.infCode
    else choose (withinUlp f 2 a)
  | .lg2 =>
    if 2 ≤ t || a.exact then nearest
    else if lg = -1 || lg = 0 then withinAbs f (if t = 0 then 22 else 50) a pick
    else choose (withinUlp f 2 a)
  | .sin | .cos =>
    if 2 ≤ t then choose (withinUlp f 1 a)
    else
      let lim : Int := if t = 0 then 20 else 30
      if lg < lim || (lg = lim && m = 2 ^ Nat.log2 m) then choose (withinUlp f 2 a)
      else withinAbs f 20 a pick

/-- A special function on one source code (R134 first, then `specialFin`). -/
def fpSpecial (op : SpecialOp) (t : Nat) (c : Nat) : Nat :=
  let f := typeFmt t
  let one := roundIeee f 0 false 0 (.fin false 1 0)
  match ieeeVal f c, op with
  | .nan, _ => f.nanCode
  | .inf neg, .rcp => bit01 neg * f.signBit
  | .inf neg, .rsq => if neg then f.nanCode else 0
  | .inf neg, .sqrt => if neg then f.nanCode else f.infCode
  | .inf neg, .ex2 => if neg then 0 else f.infCode
  | .inf neg, .lg2 => if neg then f.nanCode else f.infCode
  | .inf _, .sin => f.nanCode
  | .inf _, .cos => f.nanCode
  | .fin neg m e, op =>
    if m = 0 then
      match op with
      | .rcp => f.infCode + bit01 neg * f.signBit
      | .rsq => f.infCode + bit01 neg * f.signBit
      | .sqrt => bit01 neg * f.signBit
      | .ex2 => one
      | .lg2 => f.infCode + f.signBit
      | .sin => bit01 neg * f.signBit
      | .cos => one
    else if neg && (op = .rsq || op = .sqrt || op = .lg2) then f.nanCode
    else specialFin op t neg m e (Config.specialPick op.num t c)

/-! ## Microscaling (R114, R125 to R128) -/

/-- `CVT` of one source code (R125, R360). -/
def cvtOne (dst from_ mode : Nat) (sat : Bool) (h src : Nat) : Nat := roundTo dst mode sat h (codeVal from_ src)

/-- `QNT` of one FP32 word against a scale byte (R126, R421). -/
def qntOne (fmt mode : Nat) (sat : Bool) (h a s : Nat) : Nat :=
  roundTo fmt mode sat h (if s = 0xFF then .nan else (val32 a).scale (127 - (s : Int)))

/-- `DEQ` of one element and its scale byte (R126, R361). -/
def deqOne (fmt e s : Nat) : Nat :=
  if s = 0xFF then fmt32.nanCode else rn32 ((codeVal fmt e).scale ((s : Int) - 127))

/-- The exponent of the largest power of two in each MX format (R128). -/
def emaxOf (f : Nat) : Int :=
  match f with
  | 2 => 8 | 3 => 15 | 4 => 4 | 5 => 2 | 6 => 2 | 7 => 0 | _ => 1

/-- The canonical zero of a format (R116, R117). -/
def zeroCode (f : Nat) : Nat := if f = 8 then 0x77 else 0

/-- floor(log2) of a finite non-zero value. -/
def FVal.floorLog2 : FVal → Int
  | .fin _ m e => Nat.log2 m + e
  | _ => 0

/-- One MX block (R128): scale byte and element codes of a block of FP32 words, with each element's hash. -/
def mxBlock (f mode : Nat) (hash : Nat → Nat) (vs : List Nat) : Nat × List Nat :=
  let xs := vs.map val32
  if xs.any (fun x => x.isNan || x.isInf) then (0xFF, vs.map (fun _ => 0))
  else if xs.all (·.isZero) then (0, vs.map (fun _ => zeroCode f))
  else
    let top : Int := (xs.filter (fun x => !x.isZero)).foldl (fun a x => max a x.floorLog2) (-200)
    let e : Int := max (-127) (min 127 (top - emaxOf f))
    ((e + 127).toNat, (xs.zip (upTo xs.length)).map (fun p => roundTo f mode true (hash p.2) (p.1.scale (-e))))

/-! ## Group sums (R129 to R131) -/

/-- The group sum of products (R130). -/
def groupSum (ps : List FVal) : Nat :=
  if ps.any (·.isNan) then fmt32.nanCode
  else if ps.any (fun p => p.isInf && p.isNeg) && ps.any (fun p => p.isInf && !p.isNeg) then fmt32.nanCode
  else if ps.any (·.isInf) then fmt32.infCode + bit01 (ps.any (fun p => p.isInf && p.isNeg)) * fmt32.signBit
  else if ps.all (·.isZero) then (if ps.all (·.isNeg) then fmt32.signBit else 0)
  else
    let nz := ps.filter (fun p => !p.isZero)
    let top : Int := (nz.tail).foldl (fun a x => max a x.floorLog2) (nz.headD .zero).floorLog2
    let q := top - 47
    let part (p : FVal) : Int × Bool :=
      match p with
      | .fin neg m e =>
        if q ≤ e then (scaled neg m e q, false)
        else
          let n := m / pow2 (q - e)
          (if neg then -(n : Int) else (n : Int), m % pow2 (q - e) ≠ 0)
      | _ => (0, false)
    let t : Int := (nz.map (fun p => (part p).1)).foldl (· + ·) 0
    let sticky : Bool := nz.any (fun p => (part p).2)
    if t = 0 then 0 else rn32 (.fin (t < 0) (4 * t.natAbs + bit01 sticky) (q - 2))

/-- Accumulation of a group sum (R131). -/
def accAdd (acc g : Nat) : Nat := fpAdd fmt32 acc g

/-- The FP32 sum of words in order, each step rounded (R165 "sums marked FP32"). -/
def sum32 (l : List Nat) : Nat := l.foldl (fpAdd fmt32) 0
/-- The exact sum of values. -/
def sumExact (l : List FVal) : FVal := l.foldl FVal.add .zero

/-! ## Activations (R136) -/

/-- tanh of an FP32 value, rounded to FP32. -/
def tanh32 (c : Nat) : Nat :=
  match val32 c with
  | .nan => fmt32.nanCode
  | .inf neg => rn32 (.fin neg 1 0)
  | .fin neg m e =>
    if m = 0 then c
    else if Nat.log2 m + e < -13 then c
    else if 5 ≤ Nat.log2 m + e then rn32 (.fin neg 1 0)
    else
      -- exp(-2|y|) = 2^(-2|y| / ln 2), with more than FP32's precision left after 1 - exp
      let P := workP
      let y2 : Nat := if e < 0 then 2 * m * 2 ^ P / pow2 (-e) else 2 * m * pow2 e * 2 ^ P
      let ln2 := fixLn2 P
      let k := y2 / ln2
      let ex := fixExp P (y2 - k * ln2) * 2 ^ 0       -- e^(2|y|) = 2^k * ex
      let big := ex * 2 ^ k
      rn32 (.fin neg (2 * ((big - 2 ^ P) * 2 ^ P / (big + 2 ^ P)) + 1) (-(P : Int) - 1))

/-- GELU by the steps of R136. -/
def gelu32 (c : Nat) : Nat :=
  let x2 := fpMul fmt32 c c
  let x3 := fpMul fmt32 x2 c
  let u := fpFma fmt32 0x3D372713 x3 c
  let y := fpMul fmt32 0x3F4C422A u
  let t := tanh32 y
  let h := fpAdd fmt32 0x3F800000 t
  let gx := fpMul fmt32 c h
  fpMul fmt32 0x3F000000 gx

/-- The activation codes (R136): none, ReLU, clamp, GELU. -/
def activate (act lo hi c : Nat) : Nat :=
  match act with
  | 0 => c
  | 1 =>
    let x := val32 c
    if x.isNan then fmt32.nanCode else if x.isNeg || x.isZero then 0 else c
  | 2 => fpMinMax fmt32 false (fpMinMax fmt32 true c lo) hi
  | _ => gelu32 c

end Sys2Proof.Machine
end

