-- ==== Sys2Proof/Syntax.lean ====
section
/-!
DEFINITION. The instruction set as syntax: one constructor per row of spec/opcode_table.json. Rows with a word carry the
table's fields, most significant first; the rows without a word are the steps of the package's other agents, and carry
the names of what they act on.
-/
namespace Sys2Proof

/-- The counter classes of R171. -/
inductive OpClass where
  | loads | stores | copies | tile | net
  deriving DecidableEq, Repr

/-- Who calls a service of R304: the management queue, a floe's fragment by `SYSC` (R303), or a host hart by `ecall`. -/
inductive Caller where
  | mgmt
  | floe (f frag : Nat)
  | hart (h : Nat)
  deriving DecidableEq, Repr

/-- The three CSR accesses of RISC-V that R301 lets act on `kuipend`. -/
inductive CsrOp where
  | write | setBits | clearBits
  deriving DecidableEq, Repr

/-- What a host hart's memory access does (R306); the atomics are those of the `ATOM` table's integer rows. -/
inductive HostAcc where
  | load | store | amoAdd | amoSwap | amoAnd | amoOr | amoXor | amoMin | amoMax | amoMinu | amoMaxu
  deriving DecidableEq, Repr

/-- The atomic operations of R339. -/
inductive AtomOp where
  | add | mins | maxs | minu | maxu | and | or | xor | exch | cas | fadd | fmin | fmax
  deriving DecidableEq, Repr

/-- What a peer package asks for (R214): `wide` atomics are of 64 bits. -/
inductive PeerOp where
  | read (count : Nat)
  | write (data : List Byte)
  | atom (op : AtomOp) (wide : Bool) (data cmp : W64)
  deriving DecidableEq, Repr

/-- An access that arrives from a peer package, untranslated, with its ASID (R214). -/
structure PeerReq where
  asid : Nat
  va   : Nat
  op   : PeerOp
  deriving DecidableEq, Repr

/-- One transfer of an NVMe drive (R312): the drive writes these bytes, or reads that many. -/
inductive DriveXfer where
  | write (data : List Byte)
  | read  (count : Nat)
  deriving DecidableEq, Repr

/-- What an external PCIe host does behind an endpoint port (R312). -/
inductive ExtAcc where
  | readMem (pa count : Nat)
  | submit  (page slot : Nat) (desc : List Byte)
  deriving DecidableEq, Repr

/-- The instructions and steps of the AUB-DL960, in the order of spec/opcode_table.json. -/
inductive Instr where
  /-- IADD_R (R385): Integer add of two register operands, wrapping modulo 2^32 per lane or 2^64 in class 2. -/
  | iaddR (c : BitVec 2) (b : BitVec 6) (a : BitVec 6) (d : BitVec 6)
  /-- IADD_I (R385): Integer add of a register and a sign-extended 9-bit immediate. -/
  | iaddI (i : BitVec 9) (u : BitVec 1) (a : BitVec 6) (d : BitVec 6)
  /-- IADD_16 (R81): Two-address 16-bit integer add, rd := rd + rs. -/
  | iadd16 (d : BitVec 6) (s : BitVec 5)
  /-- IADD_16_IMM (R81): Two-address 16-bit integer add of a signed 5-bit immediate. -/
  | iadd16Imm (d : BitVec 6) (i : BitVec 5)
  /-- ISUB_R (R385): Integer subtract, wrapping. -/
  | isubR (c : BitVec 2) (b : BitVec 6) (a : BitVec 6) (d : BitVec 6)
  /-- ISUB_16 (R81): Two-address 16-bit integer subtract. -/
  | isub16 (d : BitVec 6) (s : BitVec 5)
  /-- IMUL_R (R385): Low half of the integer product. -/
  | imulR (c : BitVec 2) (b : BitVec 6) (a : BitVec 6) (d : BitVec 6)
  /-- IMUL_I (R385): Low half of the product of a register and a sign-extended immediate. -/
  | imulI (i : BitVec 9) (u : BitVec 1) (a : BitVec 6) (d : BitVec 6)
  /-- IMUL_16 (R81): Two-address 16-bit integer multiply. -/
  | imul16 (d : BitVec 6) (s : BitVec 5)
  /-- IMULH_S (R385): High half of the signed product. -/
  | imulhS (c : BitVec 2) (b : BitVec 6) (a : BitVec 6) (d : BitVec 6)
  /-- IMULH_U (R385): High half of the unsigned product. -/
  | imulhU (c : BitVec 2) (b : BitVec 6) (a : BitVec 6) (d : BitVec 6)
  /-- IMAD (R385): Integer multiply-add a × b + rd, low half. -/
  | imad (c : BitVec 2) (b : BitVec 6) (a : BitVec 6) (d : BitVec 6)
  /-- IMIN_S_R (R385): Signed minimum of two registers. -/
  | iminSR (c : BitVec 2) (b : BitVec 6) (a : BitVec 6) (d : BitVec 6)
  /-- IMIN_U_R (R385): Unsigned minimum of two registers. -/
  | iminUR (c : BitVec 2) (b : BitVec 6) (a : BitVec 6) (d : BitVec 6)
  /-- IMAX_S_R (R385): Signed maximum of two registers. -/
  | imaxSR (c : BitVec 2) (b : BitVec 6) (a : BitVec 6) (d : BitVec 6)
  /-- IMAX_U_R (R385): Unsigned maximum of two registers. -/
  | imaxUR (c : BitVec 2) (b : BitVec 6) (a : BitVec 6) (d : BitVec 6)
  /-- IMIN_S_I (R385): Signed minimum with a sign-extended immediate. -/
  | iminSI (i : BitVec 9) (u : BitVec 1) (a : BitVec 6) (d : BitVec 6)
  /-- IMAX_S_I (R385): Signed maximum with a sign-extended immediate. -/
  | imaxSI (i : BitVec 9) (u : BitVec 1) (a : BitVec 6) (d : BitVec 6)
  /-- IMIN_U_I (R385): Unsigned minimum with a sign-extended immediate. -/
  | iminUI (i : BitVec 9) (u : BitVec 1) (a : BitVec 6) (d : BitVec 6)
  /-- IMAX_U_I (R385): Unsigned maximum with a sign-extended immediate. -/
  | imaxUI (i : BitVec 9) (u : BitVec 1) (a : BitVec 6) (d : BitVec 6)
  /-- IABS (R385): Integer absolute value, with the most negative value unchanged. -/
  | iabs (c : BitVec 2) (a : BitVec 6) (d : BitVec 6)
  /-- IADDC (R386): Add with carry in and out through p6 of each lane. -/
  | iaddc (c : BitVec 2) (b : BitVec 6) (a : BitVec 6) (d : BitVec 6)
  /-- ISUBB (R386): Subtract with borrow in and out through p6 of each lane. -/
  | isubb (c : BitVec 2) (b : BitVec 6) (a : BitVec 6) (d : BitVec 6)
  /-- LEA (R397): Address arithmetic a + (b << log2 s). -/
  | lea (h : BitVec 2) (c : BitVec 2) (b : BitVec 6) (a : BitVec 6) (d : BitVec 6)
  /-- AND_R (R334): Bitwise AND of two registers. -/
  | andR (c : BitVec 2) (b : BitVec 6) (a : BitVec 6) (d : BitVec 6)
  /-- AND_I (R334): Bitwise AND with a sign-extended immediate. -/
  | andI (i : BitVec 9) (u : BitVec 1) (a : BitVec 6) (d : BitVec 6)
  /-- AND_16 (R81): Two-address 16-bit bitwise AND. -/
  | and16 (d : BitVec 6) (s : BitVec 5)
  /-- OR_R (R411): Bitwise OR of two registers. -/
  | orR (c : BitVec 2) (b : BitVec 6) (a : BitVec 6) (d : BitVec 6)
  /-- OR_I (R411): Bitwise OR with a sign-extended immediate. -/
  | orI (i : BitVec 9) (u : BitVec 1) (a : BitVec 6) (d : BitVec 6)
  /-- OR_16 (R81): Two-address 16-bit bitwise OR. -/
  | or16 (d : BitVec 6) (s : BitVec 5)
  /-- XOR_R (R454): Bitwise exclusive OR of two registers. -/
  | xorR (c : BitVec 2) (b : BitVec 6) (a : BitVec 6) (d : BitVec 6)
  /-- XOR_I (R454): Bitwise exclusive OR with a sign-extended immediate. -/
  | xorI (i : BitVec 9) (u : BitVec 1) (a : BitVec 6) (d : BitVec 6)
  /-- XOR_16 (R81): Two-address 16-bit bitwise exclusive OR. -/
  | xor16 (d : BitVec 6) (s : BitVec 5)
  /-- ANDN (R334): Bitwise a AND NOT b. -/
  | andn (c : BitVec 2) (b : BitVec 6) (a : BitVec 6) (d : BitVec 6)
  /-- SHL_R (R435): Shift left by a register amount. -/
  | shlR (c : BitVec 2) (b : BitVec 6) (a : BitVec 6) (d : BitVec 6)
  /-- SHR_R (R435): Logical shift right by a register amount. -/
  | shrR (c : BitVec 2) (b : BitVec 6) (a : BitVec 6) (d : BitVec 6)
  /-- SAR_R (R435): Arithmetic shift right by a register amount. -/
  | sarR (c : BitVec 2) (b : BitVec 6) (a : BitVec 6) (d : BitVec 6)
  /-- SHL_I (R435): Shift left by an immediate amount. -/
  | shlI (i : BitVec 9) (u : BitVec 1) (a : BitVec 6) (d : BitVec 6)
  /-- SHR_I (R435): Logical shift right by an immediate amount. -/
  | shrI (i : BitVec 9) (u : BitVec 1) (a : BitVec 6) (d : BitVec 6)
  /-- SAR_I (R435): Arithmetic shift right by an immediate amount. -/
  | sarI (i : BitVec 9) (u : BitVec 1) (a : BitVec 6) (d : BitVec 6)
  /-- SHL_16 (R81): Two-address 16-bit shift left. -/
  | shl16 (d : BitVec 6) (s : BitVec 5)
  /-- SHR_16 (R81): Two-address 16-bit logical shift right. -/
  | shr16 (d : BitVec 6) (s : BitVec 5)
  /-- SAR_16 (R81): Two-address 16-bit arithmetic shift right. -/
  | sar16 (d : BitVec 6) (s : BitVec 5)
  /-- FSHL (R377): Funnel shift left of {a,b} by the old destination value. -/
  | fshl (c : BitVec 2) (b : BitVec 6) (a : BitVec 6) (d : BitVec 6)
  /-- FSHR (R377): Funnel shift right of {a,b} by the old destination value. -/
  | fshr (c : BitVec 2) (b : BitVec 6) (a : BitVec 6) (d : BitVec 6)
  /-- POPC (R414): Population count. -/
  | popc (c : BitVec 2) (a : BitVec 6) (d : BitVec 6)
  /-- CLZ (R348): Count of leading zero bits. -/
  | clz (c : BitVec 2) (a : BitVec 6) (d : BitVec 6)
  /-- CTZ (R348): Count of trailing zero bits. -/
  | ctz (c : BitVec 2) (a : BitVec 6) (d : BitVec 6)
  /-- BREV (R348): Bit-order reversal. -/
  | brev (c : BitVec 2) (a : BitVec 6) (d : BitVec 6)
  /-- PRMT (R416): Byte permute under control nibbles. -/
  | prmt (c : BitVec 2) (b : BitVec 6) (a : BitVec 6) (d : BitVec 6)
  /-- BFX (R345): Extract a bit field, optionally sign-extended. -/
  | bfx (s : BitVec 1) (l : BitVec 6) (p : BitVec 6) (a : BitVec 6) (d : BitVec 6)
  /-- BFI (R345): Insert a bit field into the destination. -/
  | bfi (l : BitVec 6) (p : BitVec 6) (a : BitVec 6) (d : BitVec 6)
  /-- ICMP_S (R372): Signed integer compare into a predicate. -/
  | icmpS (c : BitVec 2) (b : BitVec 6) (a : BitVec 6) (n : BitVec 3) (p : BitVec 3)
  /-- ICMP_U (R372): Unsigned integer compare into a predicate. -/
  | icmpU (c : BitVec 2) (b : BitVec 6) (a : BitVec 6) (n : BitVec 3) (p : BitVec 3)
  /-- FCMP_F32 (R372): FP32 compare into a predicate. -/
  | fcmpF32 (c : BitVec 2) (b : BitVec 6) (a : BitVec 6) (n : BitVec 3) (p : BitVec 3)
  /-- FCMP_F64 (R372): FP64 compare into a predicate. -/
  | fcmpF64 (c : BitVec 2) (b : BitVec 6) (a : BitVec 6) (n : BitVec 3) (p : BitVec 3)
  /-- FCMP_F16 (R372): FP16 compare into a predicate. -/
  | fcmpF16 (c : BitVec 2) (b : BitVec 6) (a : BitVec 6) (n : BitVec 3) (p : BitVec 3)
  /-- FCMP_BF16 (R372): BF16 compare into a predicate. -/
  | fcmpBf16 (c : BitVec 2) (b : BitVec 6) (a : BitVec 6) (n : BitVec 3) (p : BitVec 3)
  /-- PLOG (R413): Logical operation on two predicates. -/
  | plog (b : BitVec 3) (a : BitVec 3) (o : BitVec 3) (d : BitVec 3)
  /-- MOV_R (R406): Register move. -/
  | movR (c : BitVec 2) (a : BitVec 6) (d : BitVec 6)
  /-- MOV_16 (R406): 16-bit vector register move. -/
  | mov16 (d : BitVec 6) (s : BitVec 5)
  /-- NOP_16 (R410): 16-bit no-operation, MOV v0, v0. -/
  | nop16
  /-- RDSR (R422): Read a special register. -/
  | rdsr (c : BitVec 2) (n : BitVec 6) (d : BitVec 6)
  /-- WRSR (R423): Write EPC, UEPC, FCAUSE or FADDR from a uniform register. -/
  | wrsr (a : BitVec 6) (n : BitVec 6)
  /-- WRSR_RBASE (R65): Move the register window base for later instructions. -/
  | wrsrRbase (a : BitVec 6)
  /-- WRSR_UIVEC (R423): Write the handler vector and restart the user timer. -/
  | wrsrUivec (a : BitVec 6)
  /-- WRSR_UIPEND (R423): Clear pending interrupt sources for each bit written 1. -/
  | wrsrUipend (a : BitVec 6)
  /-- PACK2 (R412): Pack two 16-bit halves into one word. -/
  | pack2 (c : BitVec 2) (b : BitVec 6) (a : BitVec 6) (d : BitVec 6)
  /-- UNPK (R451): Unpack two 16-bit halves into an even register pair. -/
  | unpk (c : BitVec 2) (a : BitVec 6) (d : BitVec 6)
  /-- SEL (R438): Select a or b by a predicate. -/
  | sel (k : BitVec 3) (c : BitVec 2) (b : BitVec 6) (a : BitVec 6) (d : BitVec 6)
  /-- MOVI (R407): Load a sign-extended 18-bit immediate. -/
  | movi (i : BitVec 18) (u : BitVec 1) (d : BitVec 6)
  /-- MOVH (R407): Shift the register left 18 bits and insert an immediate. -/
  | movh (i : BitVec 18) (u : BitVec 1) (d : BitVec 6)
  /-- FADD (R366): Floating-point add, nearest-even, shadow-checked. -/
  | fadd (t : BitVec 2) (c : BitVec 2) (b : BitVec 6) (a : BitVec 6) (d : BitVec 6)
  /-- FADD_16 (R81): 16-bit two-address FP32 add. -/
  | fadd16 (d : BitVec 6) (s : BitVec 5)
  /-- FSUB (R366): Floating-point subtract. -/
  | fsub (t : BitVec 2) (c : BitVec 2) (b : BitVec 6) (a : BitVec 6) (d : BitVec 6)
  /-- FSUB_16 (R81): 16-bit two-address FP32 subtract. -/
  | fsub16 (d : BitVec 6) (s : BitVec 5)
  /-- FMUL (R366): Floating-point multiply. -/
  | fmul (t : BitVec 2) (c : BitVec 2) (b : BitVec 6) (a : BitVec 6) (d : BitVec 6)
  /-- FMUL_16 (R81): 16-bit two-address FP32 multiply. -/
  | fmul16 (d : BitVec 6) (s : BitVec 5)
  /-- FFMA (R366): Fused multiply-add a × b + rd, rounded once. -/
  | ffma (t : BitVec 2) (c : BitVec 2) (b : BitVec 6) (a : BitVec 6) (d : BitVec 6)
  /-- FMIN (R367): Floating-point minimum with NaN and signed-zero rules. -/
  | fmin (t : BitVec 2) (c : BitVec 2) (b : BitVec 6) (a : BitVec 6) (d : BitVec 6)
  /-- FMIN_16 (R81): 16-bit two-address FP32 minimum. -/
  | fmin16 (d : BitVec 6) (s : BitVec 5)
  /-- FMAX (R367): Floating-point maximum with NaN and signed-zero rules. -/
  | fmax (t : BitVec 2) (c : BitVec 2) (b : BitVec 6) (a : BitVec 6) (d : BitVec 6)
  /-- FMAX_16 (R81): 16-bit two-address FP32 maximum. -/
  | fmax16 (d : BitVec 6) (s : BitVec 5)
  /-- FRCP (R369): Reciprocal special function. -/
  | frcp (t : BitVec 2) (c : BitVec 2) (a : BitVec 6) (d : BitVec 6)
  /-- FRSQ (R369): Reciprocal square root. -/
  | frsq (t : BitVec 2) (c : BitVec 2) (a : BitVec 6) (d : BitVec 6)
  /-- FSQRT (R369): Correctly rounded square root. -/
  | fsqrt (t : BitVec 2) (c : BitVec 2) (a : BitVec 6) (d : BitVec 6)
  /-- FEX2 (R369): Base-2 exponential. -/
  | fex2 (t : BitVec 2) (c : BitVec 2) (a : BitVec 6) (d : BitVec 6)
  /-- FLG2 (R369): Base-2 logarithm. -/
  | flg2 (t : BitVec 2) (c : BitVec 2) (a : BitVec 6) (d : BitVec 6)
  /-- FSIN (R369): Sine. -/
  | fsin (t : BitVec 2) (c : BitVec 2) (a : BitVec 6) (d : BitVec 6)
  /-- FCOS (R369): Cosine. -/
  | fcos (t : BitVec 2) (c : BitVec 2) (a : BitVec 6) (d : BitVec 6)
  /-- FCLS (R370): Write the 10-bit class mask of the source. -/
  | fcls (t : BitVec 2) (c : BitVec 2) (a : BitVec 6) (d : BitVec 6)
  /-- CVT (R360): Convert each lane's value between two format codes. -/
  | cvt (s : BitVec 1) (r : BitVec 2) (f : BitVec 4) (m : BitVec 4) (a : BitVec 6) (d : BitVec 6)
  /-- QNT (R421): Quantise an FP32 value against a supplied E8M0 scale. -/
  | qnt (s : BitVec 1) (r : BitVec 2) (f : BitVec 4) (b : BitVec 6) (a : BitVec 6) (d : BitVec 6)
  /-- DEQ (R361): Dequantise an element with its E8M0 scale to FP32. -/
  | deq (f : BitVec 4) (b : BitVec 6) (a : BitVec 6) (d : BitVec 6)
  /-- SHFL_GET (R430): Read a lane chosen by index modulo width. -/
  | shflGet (c : BitVec 1) (b : BitVec 6) (a : BitVec 6) (d : BitVec 6)
  /-- SHFL_SLIDE (R430): Read the lane a signed distance away, or keep own value. -/
  | shflSlide (c : BitVec 1) (b : BitVec 6) (a : BitVec 6) (d : BitVec 6)
  /-- SHFL_ROT (R430): Read the lane rotated by the given amount. -/
  | shflRot (c : BitVec 1) (b : BitVec 6) (a : BitVec 6) (d : BitVec 6)
  /-- SHFL_XOR (R430): Read the lane whose number is XORed with a mask. -/
  | shflXor (c : BitVec 1) (b : BitVec 6) (a : BitVec 6) (d : BitVec 6)
  /-- LBC (R389): Broadcast one lane's register into a uniform register. -/
  | lbc (b : BitVec 6) (a : BitVec 6) (d : BitVec 6)
  /-- RFA (R433): Read the lowest active lane's register into a uniform register. -/
  | rfa (a : BitVec 6) (d : BitVec 6)
  /-- VOTE_ALL (R430): 1 when the predicate holds in every active lane. -/
  | voteAll (k : BitVec 3) (d : BitVec 6)
  /-- VOTE_ANY (R430): 1 when the predicate holds in some active lane. -/
  | voteAny (k : BitVec 3) (d : BitVec 6)
  /-- VOTE_BALLOT (R430): Mask of active lanes whose predicate holds. -/
  | voteBallot (k : BitVec 3) (d : BitVec 6)
  /-- REDX_ADD (R430): Integer sum over the active lanes. -/
  | redxAdd (a : BitVec 6) (d : BitVec 6)
  /-- REDX_MIN (R430): Signed minimum over the active lanes. -/
  | redxMin (a : BitVec 6) (d : BitVec 6)
  /-- REDX_MAX (R430): Signed maximum over the active lanes. -/
  | redxMax (a : BitVec 6) (d : BitVec 6)
  /-- REDX_FADD (R430): FP32 sum in ascending lane order, rounded each step. -/
  | redxFadd (a : BitVec 6) (d : BitVec 6)
  /-- SCAN_ADD (R430): Inclusive prefix sum over the active lanes. -/
  | scanAdd (a : BitVec 6) (d : BitVec 6)
  /-- SCAN_ADDX (R430): Exclusive prefix sum over the active lanes. -/
  | scanAddx (a : BitVec 6) (d : BitVec 6)
  /-- MATCH (R399): Mask of active lanes equal to the lowest active lane's value. -/
  | matchLanes (a : BitVec 6) (d : BitVec 6)
  /-- SPLIT (R51): Divide a converged floe into narrower child floes after its counters drain. -/
  | split (w : BitVec 2)
  /-- FUSE (R53): Rendezvous with the buddy floe and join into one floe of double width. -/
  | fuse (d : BitVec 6)
  /-- YIELD (R455): Move the issuing fragment to the end of fragment order. -/
  | yield
  /-- BRA (R346): Unconditional relative branch. -/
  | bra (o : BitVec 19)
  /-- CALL_REL (R352): Relative call writing the return address to s63. -/
  | callRel (o : BitVec 19)
  /-- BRC (R347): Conditional branch that may divide the fragment. -/
  | brc (o : BitVec 19) (h : BitVec 1) (n : BitVec 1) (p : BitVec 3)
  /-- BRX (R349): Jump to an address held in a uniform register. -/
  | brx (a : BitVec 6)
  /-- CALL_REG (R352): Register call writing the return address to s63. -/
  | callReg (a : BitVec 6)
  /-- RET (R432): Jump to the address in s63. -/
  | ret
  /-- EXIT (R363): The active lanes of the fragment exit. -/
  | exit
  /-- JSEG (R388): Fenced jump into a landed code-store slot, optionally linking. -/
  | jseg (l : BitVec 1) (o : BitVec 11) (s : BitVec 6)
  /-- CFETCH (R187): Engine command that loads a code segment into a slot. -/
  | cfetch (g : BitVec 4) (t : BitVec 6) (c : BitVec 6) (q : BitVec 6)
  /-- LD (R391): Plain load into vector or uniform registers. -/
  | ld (z : BitVec 3) (u : BitVec 1) (i : BitVec 6) (b : BitVec 6) (d : BitVec 6)
  /-- LD_NA (R392): No-allocate load. -/
  | ldNa (z : BitVec 3) (u : BitVec 1) (i : BitVec 6) (b : BitVec 6) (d : BitVec 6)
  /-- LD_ACQ_BLK (R392): Acquire load at block scope. -/
  | ldAcqBlk (z : BitVec 3) (u : BitVec 1) (i : BitVec 6) (b : BitVec 6) (d : BitVec 6)
  /-- LD_ACQ_DIE (R392): Acquire load at die scope. -/
  | ldAcqDie (z : BitVec 3) (u : BitVec 1) (i : BitVec 6) (b : BitVec 6) (d : BitVec 6)
  /-- LD_ACQ_PKG (R392): Acquire load at package scope, setting the acquire floor. -/
  | ldAcqPkg (z : BitVec 3) (u : BitVec 1) (i : BitVec 6) (b : BitVec 6) (d : BitVec 6)
  /-- LD_ACQ_SYS (R392): Acquire load at system scope, setting the acquire floor. -/
  | ldAcqSys (z : BitVec 3) (u : BitVec 1) (i : BitVec 6) (b : BitVec 6) (d : BitVec 6)
  /-- ST (R441): Plain store. -/
  | st (z : BitVec 3) (u : BitVec 1) (i : BitVec 6) (b : BitVec 6) (d : BitVec 6)
  /-- ST_NA (R441): No-allocate store that drops the writer's L1 copy. -/
  | stNa (z : BitVec 3) (u : BitVec 1) (i : BitVec 6) (b : BitVec 6) (d : BitVec 6)
  /-- ST_REL_BLK (R442): Release store at block scope. -/
  | stRelBlk (z : BitVec 3) (u : BitVec 1) (i : BitVec 6) (b : BitVec 6) (d : BitVec 6)
  /-- ST_REL_DIE (R442): Release store at die scope. -/
  | stRelDie (z : BitVec 3) (u : BitVec 1) (i : BitVec 6) (b : BitVec 6) (d : BitVec 6)
  /-- ST_REL_PKG (R442): Release store at package scope. -/
  | stRelPkg (z : BitVec 3) (u : BitVec 1) (i : BitVec 6) (b : BitVec 6) (d : BitVec 6)
  /-- ST_REL_SYS (R442): Release store at system scope. -/
  | stRelSys (z : BitVec 3) (u : BitVec 1) (i : BitVec 6) (b : BitVec 6) (d : BitVec 6)
  /-- STN (R441): Nibble store performed as a read-modify-write at the bank. -/
  | stn (i : BitVec 6) (b : BitVec 6) (d : BitVec 6)
  /-- LDS (R395): Scratchpad load at an offset. -/
  | lds (z : BitVec 3) (u : BitVec 1) (i : BitVec 6) (b : BitVec 6) (d : BitVec 6)
  /-- STS (R447): Scratchpad store at an offset. -/
  | sts (z : BitVec 3) (u : BitVec 1) (i : BitVec 6) (b : BitVec 6) (d : BitVec 6)
  /-- LDFE_KEEP (R394): Wait for full granules and read them, leaving them full. -/
  | ldfeKeep (z : BitVec 3) (i : BitVec 6) (b : BitVec 6) (d : BitVec 6)
  /-- LDFE_CLR (R394): Wait for full granules, read them and set them empty. -/
  | ldfeClr (z : BitVec 3) (i : BitVec 6) (b : BitVec 6) (d : BitVec 6)
  /-- STFE (R444): Write granules and set them full. -/
  | stfe (z : BitVec 3) (i : BitVec 6) (b : BitVec 6) (d : BitVec 6)
  /-- STFE_WE (R444): Wait for empty granules, write them and set them full. -/
  | stfeWe (z : BitVec 3) (i : BitVec 6) (b : BitVec 6) (d : BitVec 6)
  /-- ATOM_ADD (R340): Atomic wrapping add returning the old value. -/
  | atomAdd (s : BitVec 2) (w : BitVec 1) (i : BitVec 6) (b : BitVec 6) (d : BitVec 6)
  /-- ATOM_MINS (R340): Atomic signed minimum. -/
  | atomMins (s : BitVec 2) (w : BitVec 1) (i : BitVec 6) (b : BitVec 6) (d : BitVec 6)
  /-- ATOM_MAXS (R340): Atomic signed maximum. -/
  | atomMaxs (s : BitVec 2) (w : BitVec 1) (i : BitVec 6) (b : BitVec 6) (d : BitVec 6)
  /-- ATOM_MINU (R340): Atomic unsigned minimum. -/
  | atomMinu (s : BitVec 2) (w : BitVec 1) (i : BitVec 6) (b : BitVec 6) (d : BitVec 6)
  /-- ATOM_MAXU (R340): Atomic unsigned maximum. -/
  | atomMaxu (s : BitVec 2) (w : BitVec 1) (i : BitVec 6) (b : BitVec 6) (d : BitVec 6)
  /-- ATOM_AND (R340): Atomic bitwise AND. -/
  | atomAnd (s : BitVec 2) (w : BitVec 1) (i : BitVec 6) (b : BitVec 6) (d : BitVec 6)
  /-- ATOM_OR (R340): Atomic bitwise OR. -/
  | atomOr (s : BitVec 2) (w : BitVec 1) (i : BitVec 6) (b : BitVec 6) (d : BitVec 6)
  /-- ATOM_XOR (R340): Atomic bitwise XOR. -/
  | atomXor (s : BitVec 2) (w : BitVec 1) (i : BitVec 6) (b : BitVec 6) (d : BitVec 6)
  /-- ATOM_EXCH (R340): Atomic exchange. -/
  | atomExch (s : BitVec 2) (w : BitVec 1) (i : BitVec 6) (b : BitVec 6) (d : BitVec 6)
  /-- ATOM_CAS (R340): Atomic compare-and-swap. -/
  | atomCas (s : BitVec 2) (w : BitVec 1) (i : BitVec 6) (b : BitVec 6) (d : BitVec 6)
  /-- ATOM_FADD (R340): Atomic floating-point add. -/
  | atomFadd (s : BitVec 2) (w : BitVec 1) (i : BitVec 6) (b : BitVec 6) (d : BitVec 6)
  /-- ATOM_FMIN (R340): Atomic floating-point minimum. -/
  | atomFmin (s : BitVec 2) (w : BitVec 1) (i : BitVec 6) (b : BitVec 6) (d : BitVec 6)
  /-- ATOM_FMAX (R340): Atomic floating-point maximum. -/
  | atomFmax (s : BitVec 2) (w : BitVec 1) (i : BitVec 6) (b : BitVec 6) (d : BitVec 6)
  /-- RED_ADD (R427): Reduction add at the bank, no return. -/
  | redAdd (s : BitVec 2) (w : BitVec 1) (i : BitVec 6) (b : BitVec 6) (d : BitVec 6)
  /-- RED_MINS (R427): Reduction signed minimum. -/
  | redMins (s : BitVec 2) (w : BitVec 1) (i : BitVec 6) (b : BitVec 6) (d : BitVec 6)
  /-- RED_MAXS (R427): Reduction signed maximum. -/
  | redMaxs (s : BitVec 2) (w : BitVec 1) (i : BitVec 6) (b : BitVec 6) (d : BitVec 6)
  /-- RED_MINU (R427): Reduction unsigned minimum. -/
  | redMinu (s : BitVec 2) (w : BitVec 1) (i : BitVec 6) (b : BitVec 6) (d : BitVec 6)
  /-- RED_MAXU (R427): Reduction unsigned maximum. -/
  | redMaxu (s : BitVec 2) (w : BitVec 1) (i : BitVec 6) (b : BitVec 6) (d : BitVec 6)
  /-- RED_AND (R427): Reduction bitwise AND. -/
  | redAnd (s : BitVec 2) (w : BitVec 1) (i : BitVec 6) (b : BitVec 6) (d : BitVec 6)
  /-- RED_OR (R427): Reduction bitwise OR. -/
  | redOr (s : BitVec 2) (w : BitVec 1) (i : BitVec 6) (b : BitVec 6) (d : BitVec 6)
  /-- RED_XOR (R427): Reduction bitwise XOR. -/
  | redXor (s : BitVec 2) (w : BitVec 1) (i : BitVec 6) (b : BitVec 6) (d : BitVec 6)
  /-- RED_FADD (R427): Reduction floating-point add. -/
  | redFadd (s : BitVec 2) (w : BitVec 1) (i : BitVec 6) (b : BitVec 6) (d : BitVec 6)
  /-- RED_FMIN (R427): Reduction floating-point minimum. -/
  | redFmin (s : BitVec 2) (w : BitVec 1) (i : BitVec 6) (b : BitVec 6) (d : BitVec 6)
  /-- RED_FMAX (R427): Reduction floating-point maximum. -/
  | redFmax (s : BitVec 2) (w : BitVec 1) (i : BitVec 6) (b : BitVec 6) (d : BitVec 6)
  /-- FENCE_FULL (R375): Full fence at a scope, opening a speculative window. -/
  | fenceFull (s : BitVec 3)
  /-- FENCE_ACQ (R375): Acquire fence at a scope. -/
  | fenceAcq (s : BitVec 3)
  /-- FENCE_REL (R375): Release fence at a scope. -/
  | fenceRel (s : BitVec 3)
  /-- FENCE_COMPLETION (R238): An acquire or full fence completes, advances CTIME and validates or discards its window. -/
  | fenceCompletion (f : Nat)
  /-- PREF (R415): Prefetch the named lines into L1; never faults. -/
  | pref (i : BitVec 6) (b : BitVec 6)
  /-- CACHE_WB (R351): Write an owned line back to home memory. -/
  | cacheWb (i : BitVec 6) (b : BitVec 6)
  /-- CACHE_INV (R351): Drop the L1 and non-owned cache-stack copies of a line. -/
  | cacheInv (i : BitVec 6) (b : BitVec 6)
  /-- CACHE_WBINV (R351): Write back, then drop copies and give up ownership. -/
  | cacheWbinv (i : BitVec 6) (b : BitVec 6)
  /-- LJOIN (R246): Join each lane's operand into the local lattice replica. -/
  | ljoin (z : BitVec 1) (i : BitVec 6) (b : BitVec 6) (d : BitVec 6)
  /-- LJOIN_STRICT (R247): Join that faults on a non-monotone operand or GCOUNT overflow. -/
  | ljoinStrict (z : BitVec 1) (i : BitVec 6) (b : BitVec 6) (d : BitVec 6)
  /-- LLDT (R248): Wait until each lane's cell passes its threshold, then read. -/
  | lldt (z : BitVec 1) (i : BitVec 6) (b : BitVec 6) (d : BitVec 6)
  /-- LLDT_POLL (R249): Read each lane's cell and set p6 by threshold. -/
  | lldtPoll (z : BitVec 1) (i : BitVec 6) (b : BitVec 6) (d : BitVec 6)
  /-- QCFG_LOOP (R418): Bind a queue register loop-carried with a depth. -/
  | qcfgLoop (i : BitVec 6) (a : BitVec 6) (q : BitVec 4)
  /-- QCFG_STRM (R418): Bind a queue register stream-fed. -/
  | qcfgStrm (a : BitVec 6) (q : BitVec 4)
  /-- QCFG_OFF (R418): Switch a queue register off. -/
  | qcfgOff (q : BitVec 4)
  /-- STRM (R445): Start an affine stream feeding a queue register. -/
  | strm (g : BitVec 4) (t : BitVec 6) (c : BitVec 6) (q : BitVec 6)
  /-- CPY (R358): Copy the box a shape record describes. -/
  | cpy (g : BitVec 4) (t : BitVec 6) (c : BitVec 6) (q : BitVec 6)
  /-- GATH (R381): Gather indexed rows into scratchpad. -/
  | gath (g : BitVec 4) (t : BitVec 6) (c : BitVec 6) (q : BitVec 6)
  /-- SCAT (R437): Scatter scratchpad rows to indexed destinations. -/
  | scat (g : BitVec 4) (t : BitVec 6) (c : BitVec 6) (q : BitVec 6)
  /-- CPY_MX (R358): Copy FP32 data quantised into an MX format with scales. -/
  | cpyMx (g : BitVec 4) (t : BitVec 6) (c : BitVec 6) (q : BitVec 6)
  /-- CPY_UNMX (R358): Copy MX data dequantised into FP32. -/
  | cpyUnmx (g : BitVec 4) (t : BitVec 6) (c : BitVec 6) (q : BitVec 6)
  /-- APND (R336): Append a record to a rime log, completing at acceptance. -/
  | apnd (g : BitVec 4) (t : BitVec 6) (c : BitVec 6) (q : BitVec 6)
  /-- APND_DUR (R336): Append that completes when durable. -/
  | apndDur (g : BitVec 4) (t : BitVec 6) (c : BitVec 6) (q : BitVec 6)
  /-- APND_SYNC (R338): Durable append that holds the floe until its copies counter is zero. -/
  | apndSync (g : BitVec 4) (t : BitVec 6) (c : BitVec 6) (q : BitVec 6)
  /-- SEND (R311): Post a network send into a peer's receive window. -/
  | send (g : BitVec 4) (t : BitVec 6) (c : BitVec 6) (q : BitVec 6)
  /-- RECV (R310): Open a receive window and complete when it fills. -/
  | recv (g : BitVec 4) (t : BitVec 6) (c : BitVec 6) (q : BitVec 6)
  /-- WAIT (R174): Wait until the named outstanding counters fall to their values. -/
  | wait (n : BitVec 4) (t : BitVec 4) (p : BitVec 4) (s : BitVec 5) (l : BitVec 5)
  /-- WAITM (R176): Wait until a u64 in memory reaches a threshold. -/
  | waitm (b : BitVec 6) (a : BitVec 6)
  /-- GSET (R382): Resolve a guard slot, releasing or discarding bound commands. -/
  | gset (a : BitVec 6) (g : BitVec 3)
  /-- BAR_ARRIVE (R343): Arrive at a numbered barrier. -/
  | barArrive (n : BitVec 4)
  /-- BAR_WAIT (R343): Wait for the current phase of a barrier the floe has arrived at. -/
  | barWait (n : BitVec 4)
  /-- BAR_SYNC (R343): Arrive at a barrier and wait for its phase. -/
  | barSync (n : BitVec 4)
  /-- CBAR (R353): Arrive and wait at a cohort barrier. -/
  | cbar (a : BitVec 6)
  /-- MFMT (R157): Vote each lane's format word at a barrier phase. -/
  | mfmt (a : BitVec 6) (n : BitVec 4)
  /-- MRUN (R140): Start a block sequencer run on a matrix stream. -/
  | mrun (b : BitVec 6) (a : BitVec 6)
  /-- SEQUENCER_RUN_START (R141): Once the sequencer is free, the table is read, checked, loop counters set and quanta added. -/
  | sequencerRunStart (core : Nat)
  /-- NOP (R410): 32-bit no-operation. -/
  | nop
  /-- SYSC (R303): Send a host service call and wait for the reply. -/
  | sysc (b : BitVec 6) (a : BitVec 6) (d : BitVec 6)
  /-- SYSC_REPLY (R303): The service reply writes the status word and acts as an acquire at system scope. -/
  | syscReply (f : Nat) (frag : Nat)
  /-- TRAP (R449): Always take the emulation trap with reason 11. -/
  | trap (c : BitVec 18)
  /-- UIMASK (R450): Exchange the user interrupt mask with a register. -/
  | uimask (a : BitVec 6) (d : BitVec 6)
  /-- UIRET (R263): Return from a user-level interrupt by popping the call record. -/
  | uiret
  /-- EMRET (R263): Return from a trap handler by popping the call record. -/
  | emret
  /-- MMA (R153): Multiply operand K-blocks into an accumulator tile. -/
  | mma (c : BitVec 1) (k : BitVec 4) (b : BitVec 6) (a : BitVec 6) (t : BitVec 5)
  /-- MZERO (R409): Zero a range of tiles and their checksums. -/
  | mzero (n : BitVec 5) (t : BitVec 5)
  /-- MDRAIN (R161): Drain a tile through the epilogue once staging has room. -/
  | mdrain (r : BitVec 1) (e : BitVec 4) (s : BitVec 6) (o : BitVec 6) (t : BitVec 5)
  /-- MLOOP (R404): Decrement a loop counter and branch, or restore it and fall through. -/
  | mloop (o : BitVec 20) (c : BitVec 2)
  /-- MBAR (R401): Sequencer arrives at a barrier and waits for its phase. -/
  | mbar (n : BitVec 4)
  /-- MBAR_ARRIVE (R401): Sequencer arrives at a barrier without waiting. -/
  | mbarArrive (n : BitVec 4)
  /-- MEND (R142): Sequencer arrives at a barrier and ends the run. -/
  | mend (n : BitVec 4)
  /-- MULTICAST_DELIVERY (R149): The cluster network delivers a fetched operand K-block to every multicast member. -/
  | multicastDelivery (core : Nat) (desc : Nat)
  /-- DRAIN_STAGING (R162): A begun drain places its checked unit in staging and may release the tile. -/
  | drainStaging (core : Nat)
  /-- STAGING_UNIT_WRITE (R163): The store engine writes a staged unit and checks its checksum at the memory write. -/
  | stagingUnitWrite (core : Nat)
  /-- KSUBMIT (R299): Host instruction that appends a 128-byte descriptor to a submission queue. -/
  | ksubmit (b : BitVec 5) (a : BitVec 5) (d : BitVec 5)
  /-- KUIRET (R301): Host return from a user-level completion interrupt. -/
  | kuiret
  /-- KUIPEND_ACCESS (R301): A CSR access to kuipend acts indivisibly on the bound receiver's pending word. -/
  | kuipendAccess (hart : Nat) (d : BitVec 5) (op : CsrOp) (v : BitVec 64)
  /-- REGISTER_WRITE (R301): Write to a register that has no behaviour of its own. -/
  | registerWrite (hart : Nat) (csr : BitVec 12) (v : BitVec 64)
  /-- HOST_UI_ENTRY (R301): A U-mode hart with pending and enabled completion interrupts jumps to kuivec. -/
  | hostUiEntry (hart : Nat)
  /-- LAUNCH_NOW (R459): A kind-0 descriptor is checked, its images read, and the launch accepted or rejected. -/
  | launchNow (q : Nat)
  /-- BIND_TASK (R36): A kind-1 descriptor binds a launch to a mailbox. -/
  | bindTask (q : Nat)
  /-- UNBIND_TASK (R36): A kind-2 descriptor removes a mailbox binding. -/
  | unbindTask (q : Nat)
  /-- BLOCK_PLACEMENT (R168): The distributor places the next block on a chosen core and position. -/
  | blockPlacement
  /-- BLOCK_FINISH (R27): A block whose floes, run, commands and accesses have all completed finishes. -/
  | blockFinish (b : Nat)
  /-- LAUNCH_END (R32): When every block has finished, the launch commits its appends and writes its completion record. -/
  | launchEnd (l : Nat)
  /-- FRAGMENT_WAIT_EXPIRY (R26): A fragment's wait count reaches 64 and it issues at the next ready cycle. -/
  | fragmentWaitExpiry (f : Nat) (frag : Nat)
  /-- ACTIVE_SET_ADMISSION (R170): A free active-set place goes to the longest-ready floe. -/
  | activeSetAdmission (core : Nat) (quad : Nat)
  /-- ADMISSION_TIMEOUT (R170): After 1024 cycles of waiting, the oldest active floe is evicted to admit the waiter. -/
  | admissionTimeout (core : Nat) (quad : Nat)
  /-- CTIME_TICK (R217): A core's logical time advances by one tick every 256 cycles. -/
  | ctimeTick (core : Nat)
  /-- HORIZON_WAIT_RELEASE (R218): An event held beyond the horizon limit proceeds once the horizon advances. -/
  | horizonWaitRelease (core : Nat)
  /-- TIMESTAMP_SWEEP (R219): Cache stack and L1 sweep and clamp stale timestamps each 2^12 ticks of horizon. -/
  | timestampSweep (die : Nat)
  /-- STACK_READ (R221): The cache stack serves a read, extending rts by the lease. -/
  | stackRead (core : Nat) (line : Nat) (lease : Nat)
  /-- STACK_RENEWAL (R221): The cache stack serves a renewal, replying unchanged or with data. -/
  | stackRenewal (core : Nat) (line : Nat) (lease : Nat)
  /-- GRANT_INSTALL (R221): A core installs a grant with gts and raises CTIME to wts. -/
  | grantInstall (core : Nat)
  /-- STACK_WRITE (R222): A core write is performed at the bank with a new wts. -/
  | stackWrite (f : Nat)
  /-- ENGINE_STACK_WRITE (R456): A die unit other than a core writes a line at time ST. -/
  | engineStackWrite (f : Nat) (seq : Nat)
  /-- STACK_FILL (R223): A line filled from its home takes wts := ST + 1. -/
  | stackFill (die : Nat) (line : Nat)
  /-- STACK_EVICTION (R223): The cache stack evicts a line without notifying any L1. -/
  | stackEviction (die : Nat) (line : Nat)
  /-- OWNERSHIP_REQUEST (R227): A home grants ownership after invalidating probes, arbitrating by rotating pointer; the requests of one
  cycle for lines of a 512-byte region, each an agent and the line's place in the region. -/
  | ownershipRequest (region : Nat) (agents : List (Nat × Nat))
  /-- INVALIDATING_PROBE (R226): A probe drops an agent's copy, answered at once from its line filter. -/
  | invalidatingProbe (agent : Nat) (line : Nat)
  /-- MEMORY_OP_COMPLETION (R172): The oldest outstanding operation of a class completes and its counter falls by 1. -/
  | memoryOpCompletion (f : Nat) (cls : OpClass)
  /-- ENGINE_COMMAND_COMPLETION (R172): An engine command completes, is discarded or fails, and reports any cause. -/
  | engineCommandCompletion (f : Nat) (cls : OpClass)
  /-- ENGINE_FRAME_BOUNDARY (R200): An engine translates again at each 64 KiB boundary, pausing for pending invalidations. -/
  | engineFrameBoundary (f : Nat) (seq : Nat)
  /-- STREAM_ENTRY_DELIVERY (R186): The stream engine delivers an entry into a stream-fed queue. -/
  | streamEntryDelivery (b : Nat) (stream : Nat)
  /-- CODE_SLOT_LANDING (R187): The engine writes a landing slot once no fragment executes in it. -/
  | codeSlotLanding (f : Nat) (seq : Nat)
  /-- RECORD_ACCEPTANCE (R210): The rime engine reads a payload and assigns the record's seq. -/
  | recordAcceptance (f : Nat) (seq : Nat)
  /-- RECORD_DURABLE (R210): A record reaches flash and advances the durable tail. -/
  | recordDurable (log : Nat)
  /-- TRAP_HANDLER_ENTRY (R261): A fragment writes a call record and enters the trap handler with a cause. -/
  | trapHandlerEntry (f : Nat) (frag : Nat)
  /-- INTERRUPT_ENTRY (R266): A deliverable user-level interrupt enters the interrupt handler. -/
  | interruptEntry (f : Nat) (frag : Nat)
  /-- UI_TIMER_EXPIRY (R265): The user timer sets UIPEND bit 2 every tper microseconds. -/
  | uiTimerExpiry (f : Nat)
  /-- WAITM_REREAD (R176): A waiting WAITM reads its location again at least every 2 µs or on home report. -/
  | waitmReread (f : Nat) (frag : Nat)
  /-- FAULT_RING_WAIT_RELEASE (R203): A writer waiting for fault-ring room writes its records once the consumer makes room. -/
  | faultRingWaitRelease (asid : Nat)
  /-- FIRN_DATA_ARRIVAL (R206): A firn line held unreachable arrives and the parked floe becomes ready. -/
  | firnDataArrival (line : Nat)
  /-- PEER_ACCESS_REQUEST (R214): A home package translates and performs an untranslated peer access. -/
  | peerAccessRequest (peer : Nat) (req : PeerReq)
  /-- PEER_ACCESS_TIMEOUT (R214): A tier-3 access unacknowledged for 100 ms takes cause 0x10. -/
  | peerAccessTimeout (f : Nat) (seq : Nat)
  /-- NETWORK_PACKET_PLACEMENT (R308): An arriving packet is placed in its window and acknowledged selectively. -/
  | networkPacketPlacement (asid : Nat) (window : Nat) (off : Nat) (idem : Bool) (data : List Byte)
  /-- PACKET_RETRANSMISSION (R308): The network engine retransmits a lost packet. -/
  | packetRetransmission (f : Nat) (seq : Nat)
  /-- PEER_NOT_READY_RETRY (R311): A send answered not ready is retried by the sender. -/
  | peerNotReadyRetry (f : Nat) (seq : Nat)
  /-- SEND_ACK_TIMEOUT (R311): A send without acknowledgement for 100 ms fails with cause 0x10. -/
  | sendAckTimeout (f : Nat) (seq : Nat)
  /-- SERVICE_ECHO (R304): Service 0 replies with status 0. -/
  | serviceEcho (c : Caller)
  /-- INVALIDATION_REQUEST (R199): Service 1 drops cached translations of a range in every agent. -/
  | invalidationRequest (c : Caller)
  /-- INVALIDATION_COMPLETION (R199): Once dropped translations are unused, the counter is incremented with release. -/
  | invalidationCompletion (i : Nat)
  /-- FAULT_RESOLVE (R203): Service 2 retranslates every parked floe's and paused engine's unfinished work. -/
  | faultResolve (c : Caller)
  /-- PREEMPT (R269): Service 3 reserves save space and sends the pre-emption request to the cores. -/
  | preempt (c : Caller)
  /-- CORE_HALT (R269): A core reaches a halt at instruction and word boundaries with the engine idle. -/
  | coreHalt (core : Nat)
  /-- SAVE_IMAGE_WRITE (R270): After draining and recording in-flight work, the core writes block images. -/
  | saveImageWrite (core : Nat)
  /-- RESTORE (R273): Service 4 restores a launch's saved blocks. -/
  | restore (c : Caller)
  /-- RESTORE_PLACEMENT (R274): A waiting restore places blocks once their cores and positions are free. -/
  | restorePlacement (l : Nat)
  /-- OPEN_LOG (R207): Service 5 opens a rime log on a tier-2 extent. -/
  | openLog (c : Caller)
  /-- CLOSE_LOG (R304): Service 6 closes a log. -/
  | closeLog (c : Caller)
  /-- HOST_APPEND (R304): Service 7 appends a durable record with tag 0 and launch 0. -/
  | hostAppend (c : Caller)
  /-- DRIFT_CONTROL (R251): Service 8 changes the drift control word for later launches. -/
  | driftControl (c : Caller)
  /-- OPEN_MAILBOX_WINDOW (R310): Service 9 opens a 64-byte mailbox window. -/
  | openMailboxWindow (c : Caller)
  /-- CLOSE_WINDOW (R304): Service 10 closes a window. -/
  | closeWindow (c : Caller)
  /-- REMAP_DONE (R280): Service 11 reports that the host has remapped a retiring frame. -/
  | remapDone (c : Caller)
  /-- SUBMIT_LAUNCH (R304): Service 12 submits a descriptor as ksubmit does. -/
  | submitLaunch (c : Caller)
  /-- ASID_TEARDOWN (R304): Service 13 unbinds mailboxes, kills launches and closes logs of an ASID. -/
  | asidTeardown (c : Caller)
  /-- BIND_QUEUE (R298): Service 14 binds a submission queue to an ASID with a depth. -/
  | bindQueue (c : Caller)
  /-- EXPERT_POWER_CAP (R304): Expert control 0 sets the package power cap. -/
  | expertPowerCap (c : Caller)
  /-- EXPERT_REPLANNING_PERIOD (R304): Expert control 1 sets the re-planning window period. -/
  | expertReplanningPeriod (c : Caller)
  /-- EXPERT_ESCALATION_THRESHOLD (R304): Expert control 2 scales an escalation threshold. -/
  | expertEscalationThreshold (c : Caller)
  /-- EXPERT_ISLAND_OPERATING_POINT (R304): Expert control 3 fixes an island's voltage offset and stops its re-planning. -/
  | expertIslandOperatingPoint (c : Caller)
  /-- BIND_NVME_QUEUE_PAIR (R312): Service 16 binds an NVMe queue pair to an ASID. -/
  | bindNvmeQueuePair (c : Caller)
  /-- UNBIND_NVME_QUEUE_PAIR (R312): Service 17 removes an NVMe queue pair binding. -/
  | unbindNvmeQueuePair (c : Caller)
  /-- DRIVE_TRANSFER (R312): An NVMe drive transfer is translated and performed as agent 12. -/
  | driveTransfer (port : Nat) (drive : Nat) (qp : Nat) (va : Nat) (xfer : DriveXfer)
  /-- ROLLBACK (R287): Consumption of poison halts a replayable launch, restores its frames and discards its state. -/
  | rollback (l : Nat)
  /-- LAUNCH_REPLAY (R288): A rolled-back launch is placed again from its retained descriptor. -/
  | launchReplay (l : Nat)
  /-- LINK_RETRY_EXHAUSTED (R276): A link retry failing 8 times takes its die out of service. -/
  | linkRetryExhausted (die : Nat)
  /-- SCRUB_PASS (R278): Controllers and cache stacks scrub lines periodically. -/
  | scrubPass (bad : List Nat) (die : Option Nat)
  /-- FRAME_RETIREMENT (R280): Firmware migrates, remaps and lists a failing DRAM frame. -/
  | frameRetirement (src : Nat) (dst : Nat) (reason : Nat)
  /-- MIGRATION_LINE_MOVE (R213): A copy engine moves one 128-byte line and advances the progress pointer. -/
  | migrationLineMove (src : Nat)
  /-- SNAPSHOT_COPY (R284): The first write to an armed frame waits while the frame is copied to the pool. -/
  | snapshotCopy (l : Nat) (frame : Nat)
  /-- CLUSTER_RETIREMENT (R290): Firmware retires a cluster, rolling back or killing launches and rewriting the map. -/
  | clusterRetirement (die : Nat) (cluster : Nat)
  /-- ESCALATION_THRESHOLD (R291): A windowed event count reaches its threshold and firmware acts. -/
  | escalationThreshold (core : Nat) (row : Nat)
  /-- OSCILLATOR_SAMPLE (R292): Ring oscillators are sampled once per second. -/
  | oscillatorSample (island : Nat) (freqs : List Nat)
  /-- REPLANNING_WINDOW (R293): A re-planning window opens, sweeps idle compute islands and re-plans them. -/
  | replanningWindow (island : Nat) (margins : List Nat) (samples : List Nat)
  /-- WINDOW_MISSED (R293): An island busy for 24 h has its window logged as missed. -/
  | windowMissed (island : Nat)
  /-- UNCORE_CANARY_SWEEP (R294): Islands 24 to 31 are swept in service and re-planned. -/
  | uncoreCanarySweep (island : Nat) (margins : List Nat) (samples : List Nat)
  /-- DRIFT_EXCHANGE_STEP (R252): At each period boundary replicas are sent and joined between dies. -/
  | driftExchangeStep (l : Nat)
  /-- GARBAGE_COLLECTION (R307): The storage processor collects and relocates firn blocks, holding lines briefly. -/
  | garbageCollection (stack : Nat) (held : List Nat) (spareUsed : Nat)
  /-- EVENT_RING_DEFERRED_WRITE (R305): Held event records are written as the consumer makes room. -/
  | eventRingDeferredWrite
  /-- POWER_CAP_CONTROL (R316): Firmware lowers or restores compute island frequency by the 1 ms average power. -/
  | powerCapControl (watts : Nat) (island : Nat)
  /-- BOOT (R314): The microcontroller powers islands, checks the boot record and starts the host die. -/
  | boot
  /-- POWER_LOSS (R212): Power is lost and only the firn contents remain. -/
  | powerLoss
  /-- K_BLOCK_END (R151): A K-block of an MMA ends in the matrix engine, the next issued MMA's first K-block begins, and the word finishes after its last K-block. -/
  | kBlockEnd (core : Nat)
  /-- HOST_CORE_ACCESS (R306): A host hart's load, store or atomic to package memory is performed, including the tier-2 store fault, the wait for a snapshot copy and poison consumption. -/
  | hostCoreAccess (hart : Nat) (acc : HostAcc) (pa : Nat) (size : Nat) (d : BitVec 5) (v : BitVec 64)
  /-- EXTERNAL_HOST_ACCESS (R312): An external PCIe host behind an endpoint port reads device memory or accesses the submission and management pages. -/
  | externalHostAccess (port : Nat) (acc : ExtAcc)
  deriving DecidableEq, Repr

end Sys2Proof
end

