-- ==== Sys2Proof/WellFormed.lean ====
section
/-!
DEFINITION. The checks of R90 that an instruction's own fields decide: the operand class (reason 5) and reserved values
and combinations (reason 7). `Instr.wf` is both. A word whose fields fail is not the instruction's word.
-/
namespace Sys2Proof

/-- Format codes that `CVT` accepts (R95). -/
def cvtCode (f : Nat) : Bool := f ≤ 6 || f = 9 || f = 0xA
/-- Format codes that `QNT` and `DEQ` accept (R95). -/
def elemCode (f : Nat) : Bool := 2 ≤ f && f ≤ 9
/-- Guard codes: g0 to g7, or 8 for none (R82). -/
def guardOk (g : BitVec 4) : Bool := g.toNat ≤ 8
/-- A shift immediate: 0 to 31, or 0 to 63 when uniform (R86). -/
def shiftOk (i : BitVec 9) (u : BitVec 1) : Bool := i.toNat < (if u = 1 then 64 else 32)
/-- udata 1 needs vi = 63 (R83, R90). -/
def udataOk (u : BitVec 1) (vi : BitVec 6) : Bool := u = 0 || vi = 63

/-- The operand class is one that R86 accepts for the instruction (reason 5 otherwise). -/
def Instr.classOk : Instr → Bool
  | .iaddc c _ _ _ => c != 2
  | .isubb c _ _ _ => c != 2
  | .movR c _ _ => c != 1
  | .rdsr c _ _ => c != 1 && c != 3
  | .unpk c _ _ => c != 1 && c != 3
  | .sel _ c _ _ _ => c != 2
  | .frcp _ c _ _ => c != 1 && c != 3
  | .frsq _ c _ _ => c != 1 && c != 3
  | .fsqrt _ c _ _ => c != 1 && c != 3
  | .fex2 _ c _ _ => c != 1 && c != 3
  | .flg2 _ c _ _ => c != 1 && c != 3
  | .fsin _ c _ _ => c != 1 && c != 3
  | .fcos _ c _ _ => c != 1 && c != 3
  | .fcls _ c _ _ => c != 1 && c != 3
  | _ => true

/-- No field holds a reserved value or combination (reason 7 otherwise; reason 12 in a matrix stream word). -/
def Instr.fieldsOk : Instr → Bool
  | .iadd16 d s => !(d = 0 && s = 0)
  | .shlI i u _ _ => shiftOk i u
  | .shrI i u _ _ => shiftOk i u
  | .sarI i u _ _ => shiftOk i u
  | .bfx _ l p _ _ => l.toNat ≤ 31 && p.toNat ≤ 31
  | .bfi l p _ _ => l.toNat ≤ 31 && p.toNat ≤ 31
  | .icmpS _ _ _ n _ => n.toNat ≤ 5
  | .icmpU _ _ _ n _ => n.toNat ≤ 5
  | .plog _ _ o _ => o.toNat ≤ 3
  | .mov16 d s => !(d = 0 && s = 0)
  | .rdsr _ n _ => n.toNat < 0x20
  | .wrsr _ n => n.toNat < 0x20 && n != 0x0A && n != 0x18 && n != 0x19
  | .cvt _ _ f m _ _ => cvtCode f.toNat && cvtCode m.toNat
  | .qnt _ _ f _ _ _ => elemCode f.toNat
  | .deq f _ _ _ => elemCode f.toNat
  | .split w => w != 3
  | .cfetch g _ _ _ => guardOk g
  | .ld z u i _ _ => z.toNat ≤ 5 && udataOk u i
  | .ldNa z u i _ _ => z.toNat ≤ 5 && udataOk u i
  | .ldAcqBlk z u i _ _ => z.toNat ≤ 5 && udataOk u i
  | .ldAcqDie z u i _ _ => z.toNat ≤ 5 && udataOk u i
  | .ldAcqPkg z u i _ _ => z.toNat ≤ 5 && udataOk u i
  | .ldAcqSys z u i _ _ => z.toNat ≤ 5 && udataOk u i
  | .st z u i _ _ => z.toNat ≤ 4 && udataOk u i
  | .stNa z u i _ _ => z.toNat ≤ 4 && udataOk u i
  | .stRelBlk z u i _ _ => z.toNat ≤ 4 && udataOk u i
  | .stRelDie z u i _ _ => z.toNat ≤ 4 && udataOk u i
  | .stRelPkg z u i _ _ => z.toNat ≤ 4 && udataOk u i
  | .stRelSys z u i _ _ => z.toNat ≤ 4 && udataOk u i
  | .lds z u i _ _ => z.toNat ≤ 4 && udataOk u i
  | .sts z u i _ _ => z.toNat ≤ 4 && udataOk u i
  | .ldfeKeep z _ _ _ => z.toNat ≤ 4
  | .ldfeClr z _ _ _ => z.toNat ≤ 4
  | .stfe z _ _ _ => z.toNat ≤ 4
  | .stfeWe z _ _ _ => z.toNat ≤ 4
  | .fenceFull s => s.toNat ≤ 4
  | .fenceAcq s => s.toNat ≤ 4
  | .fenceRel s => s.toNat ≤ 4
  | .qcfgLoop i _ _ => 1 ≤ i.toNat && i.toNat ≤ 16
  | .strm g _ _ _ => guardOk g
  | .cpy g _ _ _ => guardOk g
  | .gath g _ _ _ => guardOk g
  | .scat g _ _ _ => guardOk g
  | .cpyMx g _ _ _ => guardOk g
  | .cpyUnmx g _ _ _ => guardOk g
  | .apnd g _ _ _ => guardOk g
  | .apndDur g _ _ _ => guardOk g
  | .apndSync g _ _ _ => g = 8
  | .send g _ _ _ => guardOk g
  | .recv g _ _ _ => guardOk g
  | .mma _ _ _ _ t => t.toNat ≤ 23
  | .mzero n t => t.toNat + n.toNat ≤ 23
  | .mdrain _ _ _ _ t => t.toNat ≤ 23
  | _ => true

/-- A well-formed instruction: the checks of R90 on its own fields pass. -/
def Instr.wf (i : Instr) : Bool := i.classOk && i.fieldsOk

end Sys2Proof
end

