-- ==== Sys2Proof/Decode.lean ====
section
/-!
DEFINITION. The decoder of floe words (R79 to R95), matrix stream words (R89) and host words (R299, R301), total on any
bits and rejecting with the reason of R90; after it the encoder, from the same tables.
-/
namespace Sys2Proof

/-- What a word of one row must meet: its instruction, the classes accepted where the row fixes them (reason 5), the
bits that must be zero (reason 6), and the bits whose other values are reserved, with their value (reason 7). -/
structure Row where
  instr   : Instr
  classes : Option (List Nat)
  zero    : Nat
  fixed   : Nat
  fixedTo : Nat

/-- `WRSR` names its register in a field; the registers with a row of their own are decoded to it (R423). -/
def wrsrOf (n : Nat) (a : BitVec 6) : Instr :=
  if n = 0x0A then .wrsrRbase a
  else if n = 0x18 then .wrsrUivec a
  else if n = 0x19 then .wrsrUipend a
  else .wrsr a (BitVec.ofNat 6 n)

/-- Major 0x1 (R85, R86). -/
def rowIaluR (w : Nat) : Option Row :=
  match w / 0x8000000 % 32 with
  | 0 => some ⟨.iaddR (BitVec.ofNat 2 (w / 0x2000000)) (BitVec.ofNat 6 (w / 0x80000)) (BitVec.ofNat 6 (w / 0x2000)) (BitVec.ofNat 6 (w / 0x80)), none, 0x0, 0x0, 0x0⟩
  | 1 => some ⟨.isubR (BitVec.ofNat 2 (w / 0x2000000)) (BitVec.ofNat 6 (w / 0x80000)) (BitVec.ofNat 6 (w / 0x2000)) (BitVec.ofNat 6 (w / 0x80)), none, 0x0, 0x0, 0x0⟩
  | 2 => some ⟨.imulR (BitVec.ofNat 2 (w / 0x2000000)) (BitVec.ofNat 6 (w / 0x80000)) (BitVec.ofNat 6 (w / 0x2000)) (BitVec.ofNat 6 (w / 0x80)), none, 0x0, 0x0, 0x0⟩
  | 3 => some ⟨.imulhS (BitVec.ofNat 2 (w / 0x2000000)) (BitVec.ofNat 6 (w / 0x80000)) (BitVec.ofNat 6 (w / 0x2000)) (BitVec.ofNat 6 (w / 0x80)), none, 0x0, 0x0, 0x0⟩
  | 4 => some ⟨.imulhU (BitVec.ofNat 2 (w / 0x2000000)) (BitVec.ofNat 6 (w / 0x80000)) (BitVec.ofNat 6 (w / 0x2000)) (BitVec.ofNat 6 (w / 0x80)), none, 0x0, 0x0, 0x0⟩
  | 5 => some ⟨.imad (BitVec.ofNat 2 (w / 0x2000000)) (BitVec.ofNat 6 (w / 0x80000)) (BitVec.ofNat 6 (w / 0x2000)) (BitVec.ofNat 6 (w / 0x80)), none, 0x0, 0x0, 0x0⟩
  | 6 => some ⟨.iminSR (BitVec.ofNat 2 (w / 0x2000000)) (BitVec.ofNat 6 (w / 0x80000)) (BitVec.ofNat 6 (w / 0x2000)) (BitVec.ofNat 6 (w / 0x80)), none, 0x0, 0x0, 0x0⟩
  | 7 => some ⟨.iminUR (BitVec.ofNat 2 (w / 0x2000000)) (BitVec.ofNat 6 (w / 0x80000)) (BitVec.ofNat 6 (w / 0x2000)) (BitVec.ofNat 6 (w / 0x80)), none, 0x0, 0x0, 0x0⟩
  | 8 => some ⟨.imaxSR (BitVec.ofNat 2 (w / 0x2000000)) (BitVec.ofNat 6 (w / 0x80000)) (BitVec.ofNat 6 (w / 0x2000)) (BitVec.ofNat 6 (w / 0x80)), none, 0x0, 0x0, 0x0⟩
  | 9 => some ⟨.imaxUR (BitVec.ofNat 2 (w / 0x2000000)) (BitVec.ofNat 6 (w / 0x80000)) (BitVec.ofNat 6 (w / 0x2000)) (BitVec.ofNat 6 (w / 0x80)), none, 0x0, 0x0, 0x0⟩
  | 10 => some ⟨.iabs (BitVec.ofNat 2 (w / 0x2000000)) (BitVec.ofNat 6 (w / 0x2000)) (BitVec.ofNat 6 (w / 0x80)), none, 0x1f80000, 0x0, 0x0⟩
  | 11 => some ⟨.iaddc (BitVec.ofNat 2 (w / 0x2000000)) (BitVec.ofNat 6 (w / 0x80000)) (BitVec.ofNat 6 (w / 0x2000)) (BitVec.ofNat 6 (w / 0x80)), none, 0x0, 0x0, 0x0⟩
  | 12 => some ⟨.isubb (BitVec.ofNat 2 (w / 0x2000000)) (BitVec.ofNat 6 (w / 0x80000)) (BitVec.ofNat 6 (w / 0x2000)) (BitVec.ofNat 6 (w / 0x80)), none, 0x0, 0x0, 0x0⟩
  | 16 => some ⟨.lea (BitVec.ofNat 2 (w / 0x8000000)) (BitVec.ofNat 2 (w / 0x2000000)) (BitVec.ofNat 6 (w / 0x80000)) (BitVec.ofNat 6 (w / 0x2000)) (BitVec.ofNat 6 (w / 0x80)), none, 0x0, 0x0, 0x0⟩
  | 17 => some ⟨.lea (BitVec.ofNat 2 (w / 0x8000000)) (BitVec.ofNat 2 (w / 0x2000000)) (BitVec.ofNat 6 (w / 0x80000)) (BitVec.ofNat 6 (w / 0x2000)) (BitVec.ofNat 6 (w / 0x80)), none, 0x0, 0x0, 0x0⟩
  | 18 => some ⟨.lea (BitVec.ofNat 2 (w / 0x8000000)) (BitVec.ofNat 2 (w / 0x2000000)) (BitVec.ofNat 6 (w / 0x80000)) (BitVec.ofNat 6 (w / 0x2000)) (BitVec.ofNat 6 (w / 0x80)), none, 0x0, 0x0, 0x0⟩
  | 19 => some ⟨.lea (BitVec.ofNat 2 (w / 0x8000000)) (BitVec.ofNat 2 (w / 0x2000000)) (BitVec.ofNat 6 (w / 0x80000)) (BitVec.ofNat 6 (w / 0x2000)) (BitVec.ofNat 6 (w / 0x80)), none, 0x0, 0x0, 0x0⟩
  | _ => none

/-- Major 0x2 (R85, R86). -/
def rowIaluI (w : Nat) : Option Row :=
  match w / 0x80000 % 8 with
  | 0 => some ⟨.iaddI (BitVec.ofNat 9 (w / 0x800000)) (BitVec.ofNat 1 (w / 0x400000)) (BitVec.ofNat 6 (w / 0x2000)) (BitVec.ofNat 6 (w / 0x80)), none, 0x0, 0x0, 0x0⟩
  | 1 => some ⟨.imulI (BitVec.ofNat 9 (w / 0x800000)) (BitVec.ofNat 1 (w / 0x400000)) (BitVec.ofNat 6 (w / 0x2000)) (BitVec.ofNat 6 (w / 0x80)), none, 0x0, 0x0, 0x0⟩
  | 2 => some ⟨.iminSI (BitVec.ofNat 9 (w / 0x800000)) (BitVec.ofNat 1 (w / 0x400000)) (BitVec.ofNat 6 (w / 0x2000)) (BitVec.ofNat 6 (w / 0x80)), none, 0x0, 0x0, 0x0⟩
  | 3 => some ⟨.imaxSI (BitVec.ofNat 9 (w / 0x800000)) (BitVec.ofNat 1 (w / 0x400000)) (BitVec.ofNat 6 (w / 0x2000)) (BitVec.ofNat 6 (w / 0x80)), none, 0x0, 0x0, 0x0⟩
  | 4 => some ⟨.iminUI (BitVec.ofNat 9 (w / 0x800000)) (BitVec.ofNat 1 (w / 0x400000)) (BitVec.ofNat 6 (w / 0x2000)) (BitVec.ofNat 6 (w / 0x80)), none, 0x0, 0x0, 0x0⟩
  | 5 => some ⟨.imaxUI (BitVec.ofNat 9 (w / 0x800000)) (BitVec.ofNat 1 (w / 0x400000)) (BitVec.ofNat 6 (w / 0x2000)) (BitVec.ofNat 6 (w / 0x80)), none, 0x0, 0x0, 0x0⟩
  | _ => none

/-- Major 0x3 (R85, R86). -/
def rowLogicR (w : Nat) : Option Row :=
  match w / 0x8000000 % 32 with
  | 0 => some ⟨.andR (BitVec.ofNat 2 (w / 0x2000000)) (BitVec.ofNat 6 (w / 0x80000)) (BitVec.ofNat 6 (w / 0x2000)) (BitVec.ofNat 6 (w / 0x80)), none, 0x0, 0x0, 0x0⟩
  | 1 => some ⟨.orR (BitVec.ofNat 2 (w / 0x2000000)) (BitVec.ofNat 6 (w / 0x80000)) (BitVec.ofNat 6 (w / 0x2000)) (BitVec.ofNat 6 (w / 0x80)), none, 0x0, 0x0, 0x0⟩
  | 2 => some ⟨.xorR (BitVec.ofNat 2 (w / 0x2000000)) (BitVec.ofNat 6 (w / 0x80000)) (BitVec.ofNat 6 (w / 0x2000)) (BitVec.ofNat 6 (w / 0x80)), none, 0x0, 0x0, 0x0⟩
  | 3 => some ⟨.andn (BitVec.ofNat 2 (w / 0x2000000)) (BitVec.ofNat 6 (w / 0x80000)) (BitVec.ofNat 6 (w / 0x2000)) (BitVec.ofNat 6 (w / 0x80)), none, 0x0, 0x0, 0x0⟩
  | 4 => some ⟨.shlR (BitVec.ofNat 2 (w / 0x2000000)) (BitVec.ofNat 6 (w / 0x80000)) (BitVec.ofNat 6 (w / 0x2000)) (BitVec.ofNat 6 (w / 0x80)), none, 0x0, 0x0, 0x0⟩
  | 5 => some ⟨.shrR (BitVec.ofNat 2 (w / 0x2000000)) (BitVec.ofNat 6 (w / 0x80000)) (BitVec.ofNat 6 (w / 0x2000)) (BitVec.ofNat 6 (w / 0x80)), none, 0x0, 0x0, 0x0⟩
  | 6 => some ⟨.sarR (BitVec.ofNat 2 (w / 0x2000000)) (BitVec.ofNat 6 (w / 0x80000)) (BitVec.ofNat 6 (w / 0x2000)) (BitVec.ofNat 6 (w / 0x80)), none, 0x0, 0x0, 0x0⟩
  | 7 => some ⟨.fshl (BitVec.ofNat 2 (w / 0x2000000)) (BitVec.ofNat 6 (w / 0x80000)) (BitVec.ofNat 6 (w / 0x2000)) (BitVec.ofNat 6 (w / 0x80)), none, 0x0, 0x0, 0x0⟩
  | 8 => some ⟨.fshr (BitVec.ofNat 2 (w / 0x2000000)) (BitVec.ofNat 6 (w / 0x80000)) (BitVec.ofNat 6 (w / 0x2000)) (BitVec.ofNat 6 (w / 0x80)), none, 0x0, 0x0, 0x0⟩
  | 9 => some ⟨.popc (BitVec.ofNat 2 (w / 0x2000000)) (BitVec.ofNat 6 (w / 0x2000)) (BitVec.ofNat 6 (w / 0x80)), none, 0x1f80000, 0x0, 0x0⟩
  | 10 => some ⟨.clz (BitVec.ofNat 2 (w / 0x2000000)) (BitVec.ofNat 6 (w / 0x2000)) (BitVec.ofNat 6 (w / 0x80)), none, 0x1f80000, 0x0, 0x0⟩
  | 11 => some ⟨.ctz (BitVec.ofNat 2 (w / 0x2000000)) (BitVec.ofNat 6 (w / 0x2000)) (BitVec.ofNat 6 (w / 0x80)), none, 0x1f80000, 0x0, 0x0⟩
  | 12 => some ⟨.brev (BitVec.ofNat 2 (w / 0x2000000)) (BitVec.ofNat 6 (w / 0x2000)) (BitVec.ofNat 6 (w / 0x80)), none, 0x1f80000, 0x0, 0x0⟩
  | 13 => some ⟨.prmt (BitVec.ofNat 2 (w / 0x2000000)) (BitVec.ofNat 6 (w / 0x80000)) (BitVec.ofNat 6 (w / 0x2000)) (BitVec.ofNat 6 (w / 0x80)), none, 0x0, 0x0, 0x0⟩
  | _ => none

/-- Major 0x4 (R85, R86). -/
def rowLogicI (w : Nat) : Option Row :=
  match w / 0x80000 % 8 with
  | 0 => some ⟨.andI (BitVec.ofNat 9 (w / 0x800000)) (BitVec.ofNat 1 (w / 0x400000)) (BitVec.ofNat 6 (w / 0x2000)) (BitVec.ofNat 6 (w / 0x80)), none, 0x0, 0x0, 0x0⟩
  | 1 => some ⟨.orI (BitVec.ofNat 9 (w / 0x800000)) (BitVec.ofNat 1 (w / 0x400000)) (BitVec.ofNat 6 (w / 0x2000)) (BitVec.ofNat 6 (w / 0x80)), none, 0x0, 0x0, 0x0⟩
  | 2 => some ⟨.xorI (BitVec.ofNat 9 (w / 0x800000)) (BitVec.ofNat 1 (w / 0x400000)) (BitVec.ofNat 6 (w / 0x2000)) (BitVec.ofNat 6 (w / 0x80)), none, 0x0, 0x0, 0x0⟩
  | 3 => some ⟨.shlI (BitVec.ofNat 9 (w / 0x800000)) (BitVec.ofNat 1 (w / 0x400000)) (BitVec.ofNat 6 (w / 0x2000)) (BitVec.ofNat 6 (w / 0x80)), none, 0x0, 0x0, 0x0⟩
  | 4 => some ⟨.shrI (BitVec.ofNat 9 (w / 0x800000)) (BitVec.ofNat 1 (w / 0x400000)) (BitVec.ofNat 6 (w / 0x2000)) (BitVec.ofNat 6 (w / 0x80)), none, 0x0, 0x0, 0x0⟩
  | 5 => some ⟨.sarI (BitVec.ofNat 9 (w / 0x800000)) (BitVec.ofNat 1 (w / 0x400000)) (BitVec.ofNat 6 (w / 0x2000)) (BitVec.ofNat 6 (w / 0x80)), none, 0x0, 0x0, 0x0⟩
  | _ => none

/-- Major 0x5 (R85, R86). -/
def rowBfx (w : Nat) : Option Row :=
  some ⟨.bfx (BitVec.ofNat 1 (w / 0x80000000)) (BitVec.ofNat 6 (w / 0x2000000)) (BitVec.ofNat 6 (w / 0x80000)) (BitVec.ofNat 6 (w / 0x2000)) (BitVec.ofNat 6 (w / 0x80)), none, 0x0, 0x0, 0x0⟩

/-- Major 0x6 (R85, R86). -/
def rowBfi (w : Nat) : Option Row :=
  some ⟨.bfi (BitVec.ofNat 6 (w / 0x2000000)) (BitVec.ofNat 6 (w / 0x80000)) (BitVec.ofNat 6 (w / 0x2000)) (BitVec.ofNat 6 (w / 0x80)), none, 0x80000000, 0x0, 0x0⟩

/-- Major 0x7 (R85, R86). -/
def rowCmp (w : Nat) : Option Row :=
  match w / 0x8000000 % 32 with
  | 0 => some ⟨.icmpS (BitVec.ofNat 2 (w / 0x2000000)) (BitVec.ofNat 6 (w / 0x80000)) (BitVec.ofNat 6 (w / 0x2000)) (BitVec.ofNat 3 (w / 0x400)) (BitVec.ofNat 3 (w / 0x80)), none, 0x0, 0x0, 0x0⟩
  | 1 => some ⟨.icmpU (BitVec.ofNat 2 (w / 0x2000000)) (BitVec.ofNat 6 (w / 0x80000)) (BitVec.ofNat 6 (w / 0x2000)) (BitVec.ofNat 3 (w / 0x400)) (BitVec.ofNat 3 (w / 0x80)), none, 0x0, 0x0, 0x0⟩
  | 2 => some ⟨.fcmpF32 (BitVec.ofNat 2 (w / 0x2000000)) (BitVec.ofNat 6 (w / 0x80000)) (BitVec.ofNat 6 (w / 0x2000)) (BitVec.ofNat 3 (w / 0x400)) (BitVec.ofNat 3 (w / 0x80)), none, 0x0, 0x0, 0x0⟩
  | 3 => some ⟨.fcmpF64 (BitVec.ofNat 2 (w / 0x2000000)) (BitVec.ofNat 6 (w / 0x80000)) (BitVec.ofNat 6 (w / 0x2000)) (BitVec.ofNat 3 (w / 0x400)) (BitVec.ofNat 3 (w / 0x80)), none, 0x0, 0x0, 0x0⟩
  | 4 => some ⟨.fcmpF16 (BitVec.ofNat 2 (w / 0x2000000)) (BitVec.ofNat 6 (w / 0x80000)) (BitVec.ofNat 6 (w / 0x2000)) (BitVec.ofNat 3 (w / 0x400)) (BitVec.ofNat 3 (w / 0x80)), none, 0x0, 0x0, 0x0⟩
  | 5 => some ⟨.fcmpBf16 (BitVec.ofNat 2 (w / 0x2000000)) (BitVec.ofNat 6 (w / 0x80000)) (BitVec.ofNat 6 (w / 0x2000)) (BitVec.ofNat 3 (w / 0x400)) (BitVec.ofNat 3 (w / 0x80)), none, 0x0, 0x0, 0x0⟩
  | 8 => some ⟨.plog (BitVec.ofNat 3 (w / 0x80000)) (BitVec.ofNat 3 (w / 0x2000)) (BitVec.ofNat 3 (w / 0x400)) (BitVec.ofNat 3 (w / 0x80)), (some [0]), 0x1c70000, 0x0, 0x0⟩
  | _ => none

/-- Major 0x8 (R85, R86). -/
def rowMove (w : Nat) : Option Row :=
  match w / 0x8000000 % 32 with
  | 0 => some ⟨.movR (BitVec.ofNat 2 (w / 0x2000000)) (BitVec.ofNat 6 (w / 0x2000)) (BitVec.ofNat 6 (w / 0x80)), none, 0x1f80000, 0x0, 0x0⟩
  | 2 => some ⟨.rdsr (BitVec.ofNat 2 (w / 0x2000000)) (BitVec.ofNat 6 (w / 0x2000)) (BitVec.ofNat 6 (w / 0x80)), none, 0x1f80000, 0x0, 0x0⟩
  | 3 =>
    some ⟨wrsrOf (w / 0x80 % 64) (BitVec.ofNat 6 (w / 0x2000)), (some [2]), 0x1f80000, 0x0, 0x0⟩
  | 4 => some ⟨.pack2 (BitVec.ofNat 2 (w / 0x2000000)) (BitVec.ofNat 6 (w / 0x80000)) (BitVec.ofNat 6 (w / 0x2000)) (BitVec.ofNat 6 (w / 0x80)), none, 0x0, 0x0, 0x0⟩
  | 5 => some ⟨.unpk (BitVec.ofNat 2 (w / 0x2000000)) (BitVec.ofNat 6 (w / 0x2000)) (BitVec.ofNat 6 (w / 0x80)), none, 0x1f80000, 0x0, 0x0⟩
  | 8 => some ⟨.sel (BitVec.ofNat 3 (w / 0x8000000)) (BitVec.ofNat 2 (w / 0x2000000)) (BitVec.ofNat 6 (w / 0x80000)) (BitVec.ofNat 6 (w / 0x2000)) (BitVec.ofNat 6 (w / 0x80)), none, 0x0, 0x0, 0x0⟩
  | 9 => some ⟨.sel (BitVec.ofNat 3 (w / 0x8000000)) (BitVec.ofNat 2 (w / 0x2000000)) (BitVec.ofNat 6 (w / 0x80000)) (BitVec.ofNat 6 (w / 0x2000)) (BitVec.ofNat 6 (w / 0x80)), none, 0x0, 0x0, 0x0⟩
  | 10 => some ⟨.sel (BitVec.ofNat 3 (w / 0x8000000)) (BitVec.ofNat 2 (w / 0x2000000)) (BitVec.ofNat 6 (w / 0x80000)) (BitVec.ofNat 6 (w / 0x2000)) (BitVec.ofNat 6 (w / 0x80)), none, 0x0, 0x0, 0x0⟩
  | 11 => some ⟨.sel (BitVec.ofNat 3 (w / 0x8000000)) (BitVec.ofNat 2 (w / 0x2000000)) (BitVec.ofNat 6 (w / 0x80000)) (BitVec.ofNat 6 (w / 0x2000)) (BitVec.ofNat 6 (w / 0x80)), none, 0x0, 0x0, 0x0⟩
  | 12 => some ⟨.sel (BitVec.ofNat 3 (w / 0x8000000)) (BitVec.ofNat 2 (w / 0x2000000)) (BitVec.ofNat 6 (w / 0x80000)) (BitVec.ofNat 6 (w / 0x2000)) (BitVec.ofNat 6 (w / 0x80)), none, 0x0, 0x0, 0x0⟩
  | 13 => some ⟨.sel (BitVec.ofNat 3 (w / 0x8000000)) (BitVec.ofNat 2 (w / 0x2000000)) (BitVec.ofNat 6 (w / 0x80000)) (BitVec.ofNat 6 (w / 0x2000)) (BitVec.ofNat 6 (w / 0x80)), none, 0x0, 0x0, 0x0⟩
  | 14 => some ⟨.sel (BitVec.ofNat 3 (w / 0x8000000)) (BitVec.ofNat 2 (w / 0x2000000)) (BitVec.ofNat 6 (w / 0x80000)) (BitVec.ofNat 6 (w / 0x2000)) (BitVec.ofNat 6 (w / 0x80)), none, 0x0, 0x0, 0x0⟩
  | 15 => some ⟨.sel (BitVec.ofNat 3 (w / 0x8000000)) (BitVec.ofNat 2 (w / 0x2000000)) (BitVec.ofNat 6 (w / 0x80000)) (BitVec.ofNat 6 (w / 0x2000)) (BitVec.ofNat 6 (w / 0x80)), none, 0x0, 0x0, 0x0⟩
  | _ => none

/-- Major 0x9 (R85, R86). -/
def rowMovi (w : Nat) : Option Row :=
  some ⟨.movi (BitVec.ofNat 18 (w / 0x4000)) (BitVec.ofNat 1 (w / 0x2000)) (BitVec.ofNat 6 (w / 0x80)), none, 0x0, 0x0, 0x0⟩

/-- Major 0xa (R85, R86). -/
def rowMovh (w : Nat) : Option Row :=
  some ⟨.movh (BitVec.ofNat 18 (w / 0x4000)) (BitVec.ofNat 1 (w / 0x2000)) (BitVec.ofNat 6 (w / 0x80)), none, 0x0, 0x0, 0x0⟩

/-- Major 0xb (R85, R86). -/
def rowFpR (w : Nat) : Option Row :=
  match w / 0x20000000 % 8 with
  | 0 => some ⟨.fadd (BitVec.ofNat 2 (w / 0x8000000)) (BitVec.ofNat 2 (w / 0x2000000)) (BitVec.ofNat 6 (w / 0x80000)) (BitVec.ofNat 6 (w / 0x2000)) (BitVec.ofNat 6 (w / 0x80)), none, 0x0, 0x0, 0x0⟩
  | 1 => some ⟨.fsub (BitVec.ofNat 2 (w / 0x8000000)) (BitVec.ofNat 2 (w / 0x2000000)) (BitVec.ofNat 6 (w / 0x80000)) (BitVec.ofNat 6 (w / 0x2000)) (BitVec.ofNat 6 (w / 0x80)), none, 0x0, 0x0, 0x0⟩
  | 2 => some ⟨.fmul (BitVec.ofNat 2 (w / 0x8000000)) (BitVec.ofNat 2 (w / 0x2000000)) (BitVec.ofNat 6 (w / 0x80000)) (BitVec.ofNat 6 (w / 0x2000)) (BitVec.ofNat 6 (w / 0x80)), none, 0x0, 0x0, 0x0⟩
  | 3 => some ⟨.ffma (BitVec.ofNat 2 (w / 0x8000000)) (BitVec.ofNat 2 (w / 0x2000000)) (BitVec.ofNat 6 (w / 0x80000)) (BitVec.ofNat 6 (w / 0x2000)) (BitVec.ofNat 6 (w / 0x80)), none, 0x0, 0x0, 0x0⟩
  | 4 => some ⟨.fmin (BitVec.ofNat 2 (w / 0x8000000)) (BitVec.ofNat 2 (w / 0x2000000)) (BitVec.ofNat 6 (w / 0x80000)) (BitVec.ofNat 6 (w / 0x2000)) (BitVec.ofNat 6 (w / 0x80)), none, 0x0, 0x0, 0x0⟩
  | 5 => some ⟨.fmax (BitVec.ofNat 2 (w / 0x8000000)) (BitVec.ofNat 2 (w / 0x2000000)) (BitVec.ofNat 6 (w / 0x80000)) (BitVec.ofNat 6 (w / 0x2000)) (BitVec.ofNat 6 (w / 0x80)), none, 0x0, 0x0, 0x0⟩
  | _ => none

/-- Major 0xc (R85, R86). -/
def rowFpS (w : Nat) : Option Row :=
  match w / 0x8000000 % 8 with
  | 0 => some ⟨.frcp (BitVec.ofNat 2 (w / 0x40000000)) (BitVec.ofNat 2 (w / 0x2000000)) (BitVec.ofNat 6 (w / 0x2000)) (BitVec.ofNat 6 (w / 0x80)), none, 0x1f80000, 0x0, 0x0⟩
  | 1 => some ⟨.frsq (BitVec.ofNat 2 (w / 0x40000000)) (BitVec.ofNat 2 (w / 0x2000000)) (BitVec.ofNat 6 (w / 0x2000)) (BitVec.ofNat 6 (w / 0x80)), none, 0x1f80000, 0x0, 0x0⟩
  | 2 => some ⟨.fsqrt (BitVec.ofNat 2 (w / 0x40000000)) (BitVec.ofNat 2 (w / 0x2000000)) (BitVec.ofNat 6 (w / 0x2000)) (BitVec.ofNat 6 (w / 0x80)), none, 0x1f80000, 0x0, 0x0⟩
  | 3 => some ⟨.fex2 (BitVec.ofNat 2 (w / 0x40000000)) (BitVec.ofNat 2 (w / 0x2000000)) (BitVec.ofNat 6 (w / 0x2000)) (BitVec.ofNat 6 (w / 0x80)), none, 0x1f80000, 0x0, 0x0⟩
  | 4 => some ⟨.flg2 (BitVec.ofNat 2 (w / 0x40000000)) (BitVec.ofNat 2 (w / 0x2000000)) (BitVec.ofNat 6 (w / 0x2000)) (BitVec.ofNat 6 (w / 0x80)), none, 0x1f80000, 0x0, 0x0⟩
  | 5 => some ⟨.fsin (BitVec.ofNat 2 (w / 0x40000000)) (BitVec.ofNat 2 (w / 0x2000000)) (BitVec.ofNat 6 (w / 0x2000)) (BitVec.ofNat 6 (w / 0x80)), none, 0x1f80000, 0x0, 0x0⟩
  | 6 => some ⟨.fcos (BitVec.ofNat 2 (w / 0x40000000)) (BitVec.ofNat 2 (w / 0x2000000)) (BitVec.ofNat 6 (w / 0x2000)) (BitVec.ofNat 6 (w / 0x80)), none, 0x1f80000, 0x0, 0x0⟩
  | 7 => some ⟨.fcls (BitVec.ofNat 2 (w / 0x40000000)) (BitVec.ofNat 2 (w / 0x2000000)) (BitVec.ofNat 6 (w / 0x2000)) (BitVec.ofNat 6 (w / 0x80)), none, 0x1f80000, 0x0, 0x0⟩
  | _ => none

/-- Major 0xd (R85, R86). -/
def rowCvt (w : Nat) : Option Row :=
  some ⟨.cvt (BitVec.ofNat 1 (w / 0x80000000)) (BitVec.ofNat 2 (w / 0x20000000)) (BitVec.ofNat 4 (w / 0x2000000)) (BitVec.ofNat 4 (w / 0x80000)) (BitVec.ofNat 6 (w / 0x2000)) (BitVec.ofNat 6 (w / 0x80)), none, 0x1800000, 0x0, 0x0⟩

/-- Major 0xe (R85, R86). -/
def rowQnt (w : Nat) : Option Row :=
  some ⟨.qnt (BitVec.ofNat 1 (w / 0x80000000)) (BitVec.ofNat 2 (w / 0x20000000)) (BitVec.ofNat 4 (w / 0x2000000)) (BitVec.ofNat 6 (w / 0x80000)) (BitVec.ofNat 6 (w / 0x2000)) (BitVec.ofNat 6 (w / 0x80)), none, 0x0, 0x0, 0x0⟩

/-- Major 0xf (R85, R86). -/
def rowDeq (w : Nat) : Option Row :=
  some ⟨.deq (BitVec.ofNat 4 (w / 0x2000000)) (BitVec.ofNat 6 (w / 0x80000)) (BitVec.ofNat 6 (w / 0x2000)) (BitVec.ofNat 6 (w / 0x80)), none, 0xe0000000, 0x0, 0x0⟩

/-- Major 0x10 (R85, R86). -/
def rowLane (w : Nat) : Option Row :=
  match w / 0x8000000 % 32 with
  | 0 => some ⟨.shflGet (BitVec.ofNat 1 (w / 0x2000000)) (BitVec.ofNat 6 (w / 0x80000)) (BitVec.ofNat 6 (w / 0x2000)) (BitVec.ofNat 6 (w / 0x80)), (some [0, 1]), 0x0, 0x0, 0x0⟩
  | 1 => some ⟨.shflSlide (BitVec.ofNat 1 (w / 0x2000000)) (BitVec.ofNat 6 (w / 0x80000)) (BitVec.ofNat 6 (w / 0x2000)) (BitVec.ofNat 6 (w / 0x80)), (some [0, 1]), 0x0, 0x0, 0x0⟩
  | 2 => some ⟨.shflRot (BitVec.ofNat 1 (w / 0x2000000)) (BitVec.ofNat 6 (w / 0x80000)) (BitVec.ofNat 6 (w / 0x2000)) (BitVec.ofNat 6 (w / 0x80)), (some [0, 1]), 0x0, 0x0, 0x0⟩
  | 3 => some ⟨.shflXor (BitVec.ofNat 1 (w / 0x2000000)) (BitVec.ofNat 6 (w / 0x80000)) (BitVec.ofNat 6 (w / 0x2000)) (BitVec.ofNat 6 (w / 0x80)), (some [0, 1]), 0x0, 0x0, 0x0⟩
  | 4 => some ⟨.lbc (BitVec.ofNat 6 (w / 0x80000)) (BitVec.ofNat 6 (w / 0x2000)) (BitVec.ofNat 6 (w / 0x80)), (some [1]), 0x0, 0x0, 0x0⟩
  | 5 => some ⟨.rfa (BitVec.ofNat 6 (w / 0x2000)) (BitVec.ofNat 6 (w / 0x80)), (some [0]), 0x1f80000, 0x0, 0x0⟩
  | 6 => some ⟨.voteAll (BitVec.ofNat 3 (w / 0x2000)) (BitVec.ofNat 6 (w / 0x80)), (some [0]), 0x1ff0000, 0x0, 0x0⟩
  | 7 => some ⟨.voteAny (BitVec.ofNat 3 (w / 0x2000)) (BitVec.ofNat 6 (w / 0x80)), (some [0]), 0x1ff0000, 0x0, 0x0⟩
  | 8 => some ⟨.voteBallot (BitVec.ofNat 3 (w / 0x2000)) (BitVec.ofNat 6 (w / 0x80)), (some [0]), 0x1ff0000, 0x0, 0x0⟩
  | 9 => some ⟨.redxAdd (BitVec.ofNat 6 (w / 0x2000)) (BitVec.ofNat 6 (w / 0x80)), (some [0]), 0x1f80000, 0x0, 0x0⟩
  | 10 => some ⟨.redxMin (BitVec.ofNat 6 (w / 0x2000)) (BitVec.ofNat 6 (w / 0x80)), (some [0]), 0x1f80000, 0x0, 0x0⟩
  | 11 => some ⟨.redxMax (BitVec.ofNat 6 (w / 0x2000)) (BitVec.ofNat 6 (w / 0x80)), (some [0]), 0x1f80000, 0x0, 0x0⟩
  | 12 => some ⟨.redxFadd (BitVec.ofNat 6 (w / 0x2000)) (BitVec.ofNat 6 (w / 0x80)), (some [0]), 0x1f80000, 0x0, 0x0⟩
  | 13 => some ⟨.scanAdd (BitVec.ofNat 6 (w / 0x2000)) (BitVec.ofNat 6 (w / 0x80)), (some [0]), 0x1f80000, 0x0, 0x0⟩
  | 14 => some ⟨.scanAddx (BitVec.ofNat 6 (w / 0x2000)) (BitVec.ofNat 6 (w / 0x80)), (some [0]), 0x1f80000, 0x0, 0x0⟩
  | 15 => some ⟨.matchLanes (BitVec.ofNat 6 (w / 0x2000)) (BitVec.ofNat 6 (w / 0x80)), (some [0]), 0x1f80000, 0x0, 0x0⟩
  | _ => none

/-- Major 0x11 (R85, R86). -/
def rowFloe (w : Nat) : Option Row :=
  match w / 0x8000000 % 32 with
  | 0 => some ⟨.split (BitVec.ofNat 2 (w / 0x80000)), (some [2]), 0x1e7ff80, 0x0, 0x0⟩
  | 1 => some ⟨.fuse (BitVec.ofNat 6 (w / 0x80)), (some [2]), 0x1ffe000, 0x0, 0x0⟩
  | 2 => some ⟨.yield, (some [2]), 0x1ffff80, 0x0, 0x0⟩
  | _ => none

/-- Major 0x12 (R85, R86). -/
def rowBra (w : Nat) : Option Row :=
  match w / 0x800 % 2 with
  | 0 => some ⟨.bra (BitVec.ofNat 19 (w / 0x2000)), none, 0x0, 0x1780, 0x380⟩
  | 1 => some ⟨.callRel (BitVec.ofNat 19 (w / 0x2000)), none, 0x0, 0x1780, 0x380⟩
  | _ => none

/-- Major 0x13 (R85, R86). -/
def rowBrc (w : Nat) : Option Row :=
  some ⟨.brc (BitVec.ofNat 19 (w / 0x2000)) (BitVec.ofNat 1 (w / 0x1000)) (BitVec.ofNat 1 (w / 0x400)) (BitVec.ofNat 3 (w / 0x80)), none, 0x0, 0x800, 0x0⟩

/-- Major 0x14 (R85, R86). -/
def rowJump (w : Nat) : Option Row :=
  match w / 0x8000000 % 32 with
  | 0 => some ⟨.brx (BitVec.ofNat 6 (w / 0x2000)), (some [2]), 0x1f81f80, 0x0, 0x0⟩
  | 1 => some ⟨.callReg (BitVec.ofNat 6 (w / 0x2000)), (some [2]), 0x1f81f80, 0x0, 0x0⟩
  | 2 => some ⟨.ret, (some [2]), 0x1ffff80, 0x0, 0x0⟩
  | 3 => some ⟨.exit, (some [0]), 0x1ffff80, 0x0, 0x0⟩
  | _ => none

/-- Major 0x15 (R85, R86). -/
def rowJseg (w : Nat) : Option Row :=
  some ⟨.jseg (BitVec.ofNat 1 (w / 0x1000000)) (BitVec.ofNat 11 (w / 0x2000)) (BitVec.ofNat 6 (w / 0x80)), none, 0xfe000000, 0x0, 0x0⟩

/-- Major 0x16 (R85, R86). -/
def rowCfetch (w : Nat) : Option Row :=
  match w / 0x20000000 % 8 with
  | 0 => some ⟨.cfetch (BitVec.ofNat 4 (w / 0x2000000)) (BitVec.ofNat 6 (w / 0x80000)) (BitVec.ofNat 6 (w / 0x2000)) (BitVec.ofNat 6 (w / 0x80)), none, 0x0, 0x0, 0x0⟩
  | _ => none

/-- Major 0x17 (R85, R86). -/
def rowLd (w : Nat) : Option Row :=
  match w / 0x20000000 % 8 with
  | 0 => some ⟨.ld (BitVec.ofNat 3 (w / 0x4000000)) (BitVec.ofNat 1 (w / 0x2000000)) (BitVec.ofNat 6 (w / 0x80000)) (BitVec.ofNat 6 (w / 0x2000)) (BitVec.ofNat 6 (w / 0x80)), none, 0x0, 0x0, 0x0⟩
  | 1 => some ⟨.ldNa (BitVec.ofNat 3 (w / 0x4000000)) (BitVec.ofNat 1 (w / 0x2000000)) (BitVec.ofNat 6 (w / 0x80000)) (BitVec.ofNat 6 (w / 0x2000)) (BitVec.ofNat 6 (w / 0x80)), none, 0x0, 0x0, 0x0⟩
  | 2 => some ⟨.ldAcqBlk (BitVec.ofNat 3 (w / 0x4000000)) (BitVec.ofNat 1 (w / 0x2000000)) (BitVec.ofNat 6 (w / 0x80000)) (BitVec.ofNat 6 (w / 0x2000)) (BitVec.ofNat 6 (w / 0x80)), none, 0x0, 0x0, 0x0⟩
  | 3 => some ⟨.ldAcqDie (BitVec.ofNat 3 (w / 0x4000000)) (BitVec.ofNat 1 (w / 0x2000000)) (BitVec.ofNat 6 (w / 0x80000)) (BitVec.ofNat 6 (w / 0x2000)) (BitVec.ofNat 6 (w / 0x80)), none, 0x0, 0x0, 0x0⟩
  | 4 => some ⟨.ldAcqPkg (BitVec.ofNat 3 (w / 0x4000000)) (BitVec.ofNat 1 (w / 0x2000000)) (BitVec.ofNat 6 (w / 0x80000)) (BitVec.ofNat 6 (w / 0x2000)) (BitVec.ofNat 6 (w / 0x80)), none, 0x0, 0x0, 0x0⟩
  | 5 => some ⟨.ldAcqSys (BitVec.ofNat 3 (w / 0x4000000)) (BitVec.ofNat 1 (w / 0x2000000)) (BitVec.ofNat 6 (w / 0x80000)) (BitVec.ofNat 6 (w / 0x2000)) (BitVec.ofNat 6 (w / 0x80)), none, 0x0, 0x0, 0x0⟩
  | _ => none

/-- Major 0x18 (R85, R86). -/
def rowSt (w : Nat) : Option Row :=
  match w / 0x20000000 % 8 with
  | 0 => some ⟨.st (BitVec.ofNat 3 (w / 0x4000000)) (BitVec.ofNat 1 (w / 0x2000000)) (BitVec.ofNat 6 (w / 0x80000)) (BitVec.ofNat 6 (w / 0x2000)) (BitVec.ofNat 6 (w / 0x80)), none, 0x0, 0x0, 0x0⟩
  | 1 => some ⟨.stNa (BitVec.ofNat 3 (w / 0x4000000)) (BitVec.ofNat 1 (w / 0x2000000)) (BitVec.ofNat 6 (w / 0x80000)) (BitVec.ofNat 6 (w / 0x2000)) (BitVec.ofNat 6 (w / 0x80)), none, 0x0, 0x0, 0x0⟩
  | 2 => some ⟨.stRelBlk (BitVec.ofNat 3 (w / 0x4000000)) (BitVec.ofNat 1 (w / 0x2000000)) (BitVec.ofNat 6 (w / 0x80000)) (BitVec.ofNat 6 (w / 0x2000)) (BitVec.ofNat 6 (w / 0x80)), none, 0x0, 0x0, 0x0⟩
  | 3 => some ⟨.stRelDie (BitVec.ofNat 3 (w / 0x4000000)) (BitVec.ofNat 1 (w / 0x2000000)) (BitVec.ofNat 6 (w / 0x80000)) (BitVec.ofNat 6 (w / 0x2000)) (BitVec.ofNat 6 (w / 0x80)), none, 0x0, 0x0, 0x0⟩
  | 4 => some ⟨.stRelPkg (BitVec.ofNat 3 (w / 0x4000000)) (BitVec.ofNat 1 (w / 0x2000000)) (BitVec.ofNat 6 (w / 0x80000)) (BitVec.ofNat 6 (w / 0x2000)) (BitVec.ofNat 6 (w / 0x80)), none, 0x0, 0x0, 0x0⟩
  | 5 => some ⟨.stRelSys (BitVec.ofNat 3 (w / 0x4000000)) (BitVec.ofNat 1 (w / 0x2000000)) (BitVec.ofNat 6 (w / 0x80000)) (BitVec.ofNat 6 (w / 0x2000)) (BitVec.ofNat 6 (w / 0x80)), none, 0x0, 0x0, 0x0⟩
  | 6 => some ⟨.stn (BitVec.ofNat 6 (w / 0x80000)) (BitVec.ofNat 6 (w / 0x2000)) (BitVec.ofNat 6 (w / 0x80)), none, 0x0, 0x1e000000, 0x14000000⟩
  | _ => none

/-- Major 0x19 (R85, R86). -/
def rowLocal (w : Nat) : Option Row :=
  match w / 0x20000000 % 8 with
  | 0 => some ⟨.lds (BitVec.ofNat 3 (w / 0x4000000)) (BitVec.ofNat 1 (w / 0x2000000)) (BitVec.ofNat 6 (w / 0x80000)) (BitVec.ofNat 6 (w / 0x2000)) (BitVec.ofNat 6 (w / 0x80)), none, 0x0, 0x0, 0x0⟩
  | 1 => some ⟨.sts (BitVec.ofNat 3 (w / 0x4000000)) (BitVec.ofNat 1 (w / 0x2000000)) (BitVec.ofNat 6 (w / 0x80000)) (BitVec.ofNat 6 (w / 0x2000)) (BitVec.ofNat 6 (w / 0x80)), none, 0x0, 0x0, 0x0⟩
  | 2 => some ⟨.ldfeKeep (BitVec.ofNat 3 (w / 0x4000000)) (BitVec.ofNat 6 (w / 0x80000)) (BitVec.ofNat 6 (w / 0x2000)) (BitVec.ofNat 6 (w / 0x80)), none, 0x0, 0x2000000, 0x0⟩
  | 3 => some ⟨.ldfeClr (BitVec.ofNat 3 (w / 0x4000000)) (BitVec.ofNat 6 (w / 0x80000)) (BitVec.ofNat 6 (w / 0x2000)) (BitVec.ofNat 6 (w / 0x80)), none, 0x0, 0x2000000, 0x0⟩
  | 4 => some ⟨.stfe (BitVec.ofNat 3 (w / 0x4000000)) (BitVec.ofNat 6 (w / 0x80000)) (BitVec.ofNat 6 (w / 0x2000)) (BitVec.ofNat 6 (w / 0x80)), none, 0x0, 0x2000000, 0x0⟩
  | 5 => some ⟨.stfeWe (BitVec.ofNat 3 (w / 0x4000000)) (BitVec.ofNat 6 (w / 0x80000)) (BitVec.ofNat 6 (w / 0x2000)) (BitVec.ofNat 6 (w / 0x80)), none, 0x0, 0x2000000, 0x0⟩
  | _ => none

/-- Major 0x1a (R85, R86). -/
def rowAtom (w : Nat) : Option Row :=
  match w / 0x10000000 % 16 with
  | 0 => some ⟨.atomAdd (BitVec.ofNat 2 (w / 0x4000000)) (BitVec.ofNat 1 (w / 0x2000000)) (BitVec.ofNat 6 (w / 0x80000)) (BitVec.ofNat 6 (w / 0x2000)) (BitVec.ofNat 6 (w / 0x80)), none, 0x0, 0x0, 0x0⟩
  | 1 => some ⟨.atomMins (BitVec.ofNat 2 (w / 0x4000000)) (BitVec.ofNat 1 (w / 0x2000000)) (BitVec.ofNat 6 (w / 0x80000)) (BitVec.ofNat 6 (w / 0x2000)) (BitVec.ofNat 6 (w / 0x80)), none, 0x0, 0x0, 0x0⟩
  | 2 => some ⟨.atomMaxs (BitVec.ofNat 2 (w / 0x4000000)) (BitVec.ofNat 1 (w / 0x2000000)) (BitVec.ofNat 6 (w / 0x80000)) (BitVec.ofNat 6 (w / 0x2000)) (BitVec.ofNat 6 (w / 0x80)), none, 0x0, 0x0, 0x0⟩
  | 3 => some ⟨.atomMinu (BitVec.ofNat 2 (w / 0x4000000)) (BitVec.ofNat 1 (w / 0x2000000)) (BitVec.ofNat 6 (w / 0x80000)) (BitVec.ofNat 6 (w / 0x2000)) (BitVec.ofNat 6 (w / 0x80)), none, 0x0, 0x0, 0x0⟩
  | 4 => some ⟨.atomMaxu (BitVec.ofNat 2 (w / 0x4000000)) (BitVec.ofNat 1 (w / 0x2000000)) (BitVec.ofNat 6 (w / 0x80000)) (BitVec.ofNat 6 (w / 0x2000)) (BitVec.ofNat 6 (w / 0x80)), none, 0x0, 0x0, 0x0⟩
  | 5 => some ⟨.atomAnd (BitVec.ofNat 2 (w / 0x4000000)) (BitVec.ofNat 1 (w / 0x2000000)) (BitVec.ofNat 6 (w / 0x80000)) (BitVec.ofNat 6 (w / 0x2000)) (BitVec.ofNat 6 (w / 0x80)), none, 0x0, 0x0, 0x0⟩
  | 6 => some ⟨.atomOr (BitVec.ofNat 2 (w / 0x4000000)) (BitVec.ofNat 1 (w / 0x2000000)) (BitVec.ofNat 6 (w / 0x80000)) (BitVec.ofNat 6 (w / 0x2000)) (BitVec.ofNat 6 (w / 0x80)), none, 0x0, 0x0, 0x0⟩
  | 7 => some ⟨.atomXor (BitVec.ofNat 2 (w / 0x4000000)) (BitVec.ofNat 1 (w / 0x2000000)) (BitVec.ofNat 6 (w / 0x80000)) (BitVec.ofNat 6 (w / 0x2000)) (BitVec.ofNat 6 (w / 0x80)), none, 0x0, 0x0, 0x0⟩
  | 8 => some ⟨.atomExch (BitVec.ofNat 2 (w / 0x4000000)) (BitVec.ofNat 1 (w / 0x2000000)) (BitVec.ofNat 6 (w / 0x80000)) (BitVec.ofNat 6 (w / 0x2000)) (BitVec.ofNat 6 (w / 0x80)), none, 0x0, 0x0, 0x0⟩
  | 9 => some ⟨.atomCas (BitVec.ofNat 2 (w / 0x4000000)) (BitVec.ofNat 1 (w / 0x2000000)) (BitVec.ofNat 6 (w / 0x80000)) (BitVec.ofNat 6 (w / 0x2000)) (BitVec.ofNat 6 (w / 0x80)), none, 0x0, 0x0, 0x0⟩
  | 10 => some ⟨.atomFadd (BitVec.ofNat 2 (w / 0x4000000)) (BitVec.ofNat 1 (w / 0x2000000)) (BitVec.ofNat 6 (w / 0x80000)) (BitVec.ofNat 6 (w / 0x2000)) (BitVec.ofNat 6 (w / 0x80)), none, 0x0, 0x0, 0x0⟩
  | 11 => some ⟨.atomFmin (BitVec.ofNat 2 (w / 0x4000000)) (BitVec.ofNat 1 (w / 0x2000000)) (BitVec.ofNat 6 (w / 0x80000)) (BitVec.ofNat 6 (w / 0x2000)) (BitVec.ofNat 6 (w / 0x80)), none, 0x0, 0x0, 0x0⟩
  | 12 => some ⟨.atomFmax (BitVec.ofNat 2 (w / 0x4000000)) (BitVec.ofNat 1 (w / 0x2000000)) (BitVec.ofNat 6 (w / 0x80000)) (BitVec.ofNat 6 (w / 0x2000)) (BitVec.ofNat 6 (w / 0x80)), none, 0x0, 0x0, 0x0⟩
  | _ => none

/-- Major 0x1b (R85, R86). -/
def rowRed (w : Nat) : Option Row :=
  match w / 0x10000000 % 16 with
  | 0 => some ⟨.redAdd (BitVec.ofNat 2 (w / 0x4000000)) (BitVec.ofNat 1 (w / 0x2000000)) (BitVec.ofNat 6 (w / 0x80000)) (BitVec.ofNat 6 (w / 0x2000)) (BitVec.ofNat 6 (w / 0x80)), none, 0x0, 0x0, 0x0⟩
  | 1 => some ⟨.redMins (BitVec.ofNat 2 (w / 0x4000000)) (BitVec.ofNat 1 (w / 0x2000000)) (BitVec.ofNat 6 (w / 0x80000)) (BitVec.ofNat 6 (w / 0x2000)) (BitVec.ofNat 6 (w / 0x80)), none, 0x0, 0x0, 0x0⟩
  | 2 => some ⟨.redMaxs (BitVec.ofNat 2 (w / 0x4000000)) (BitVec.ofNat 1 (w / 0x2000000)) (BitVec.ofNat 6 (w / 0x80000)) (BitVec.ofNat 6 (w / 0x2000)) (BitVec.ofNat 6 (w / 0x80)), none, 0x0, 0x0, 0x0⟩
  | 3 => some ⟨.redMinu (BitVec.ofNat 2 (w / 0x4000000)) (BitVec.ofNat 1 (w / 0x2000000)) (BitVec.ofNat 6 (w / 0x80000)) (BitVec.ofNat 6 (w / 0x2000)) (BitVec.ofNat 6 (w / 0x80)), none, 0x0, 0x0, 0x0⟩
  | 4 => some ⟨.redMaxu (BitVec.ofNat 2 (w / 0x4000000)) (BitVec.ofNat 1 (w / 0x2000000)) (BitVec.ofNat 6 (w / 0x80000)) (BitVec.ofNat 6 (w / 0x2000)) (BitVec.ofNat 6 (w / 0x80)), none, 0x0, 0x0, 0x0⟩
  | 5 => some ⟨.redAnd (BitVec.ofNat 2 (w / 0x4000000)) (BitVec.ofNat 1 (w / 0x2000000)) (BitVec.ofNat 6 (w / 0x80000)) (BitVec.ofNat 6 (w / 0x2000)) (BitVec.ofNat 6 (w / 0x80)), none, 0x0, 0x0, 0x0⟩
  | 6 => some ⟨.redOr (BitVec.ofNat 2 (w / 0x4000000)) (BitVec.ofNat 1 (w / 0x2000000)) (BitVec.ofNat 6 (w / 0x80000)) (BitVec.ofNat 6 (w / 0x2000)) (BitVec.ofNat 6 (w / 0x80)), none, 0x0, 0x0, 0x0⟩
  | 7 => some ⟨.redXor (BitVec.ofNat 2 (w / 0x4000000)) (BitVec.ofNat 1 (w / 0x2000000)) (BitVec.ofNat 6 (w / 0x80000)) (BitVec.ofNat 6 (w / 0x2000)) (BitVec.ofNat 6 (w / 0x80)), none, 0x0, 0x0, 0x0⟩
  | 10 => some ⟨.redFadd (BitVec.ofNat 2 (w / 0x4000000)) (BitVec.ofNat 1 (w / 0x2000000)) (BitVec.ofNat 6 (w / 0x80000)) (BitVec.ofNat 6 (w / 0x2000)) (BitVec.ofNat 6 (w / 0x80)), none, 0x0, 0x0, 0x0⟩
  | 11 => some ⟨.redFmin (BitVec.ofNat 2 (w / 0x4000000)) (BitVec.ofNat 1 (w / 0x2000000)) (BitVec.ofNat 6 (w / 0x80000)) (BitVec.ofNat 6 (w / 0x2000)) (BitVec.ofNat 6 (w / 0x80)), none, 0x0, 0x0, 0x0⟩
  | 12 => some ⟨.redFmax (BitVec.ofNat 2 (w / 0x4000000)) (BitVec.ofNat 1 (w / 0x2000000)) (BitVec.ofNat 6 (w / 0x80000)) (BitVec.ofNat 6 (w / 0x2000)) (BitVec.ofNat 6 (w / 0x80)), none, 0x0, 0x0, 0x0⟩
  | _ => none

/-- Major 0x1c (R85, R86). -/
def rowOrder (w : Nat) : Option Row :=
  match w / 0x20000000 % 8 with
  | 0 => some ⟨.fenceFull (BitVec.ofNat 3 (w / 0x80)), none, 0x1ffffc00, 0x0, 0x0⟩
  | 1 => some ⟨.fenceAcq (BitVec.ofNat 3 (w / 0x80)), none, 0x1ffffc00, 0x0, 0x0⟩
  | 2 => some ⟨.fenceRel (BitVec.ofNat 3 (w / 0x80)), none, 0x1ffffc00, 0x0, 0x0⟩
  | 3 => some ⟨.pref (BitVec.ofNat 6 (w / 0x80000)) (BitVec.ofNat 6 (w / 0x2000)), none, 0x1e001f80, 0x0, 0x0⟩
  | 4 => some ⟨.cacheWb (BitVec.ofNat 6 (w / 0x80000)) (BitVec.ofNat 6 (w / 0x2000)), none, 0x1e001f80, 0x0, 0x0⟩
  | 5 => some ⟨.cacheInv (BitVec.ofNat 6 (w / 0x80000)) (BitVec.ofNat 6 (w / 0x2000)), none, 0x1e001f80, 0x0, 0x0⟩
  | 6 => some ⟨.cacheWbinv (BitVec.ofNat 6 (w / 0x80000)) (BitVec.ofNat 6 (w / 0x2000)), none, 0x1e001f80, 0x0, 0x0⟩
  | _ => none

/-- Major 0x1d (R85, R86). -/
def rowLattice (w : Nat) : Option Row :=
  match w / 0x20000000 % 8 with
  | 0 => some ⟨.ljoin (BitVec.ofNat 1 (w / 0x4000000)) (BitVec.ofNat 6 (w / 0x80000)) (BitVec.ofNat 6 (w / 0x2000)) (BitVec.ofNat 6 (w / 0x80)), none, 0x0, 0x1a000000, 0x8000000⟩
  | 1 => some ⟨.ljoinStrict (BitVec.ofNat 1 (w / 0x4000000)) (BitVec.ofNat 6 (w / 0x80000)) (BitVec.ofNat 6 (w / 0x2000)) (BitVec.ofNat 6 (w / 0x80)), none, 0x0, 0x1a000000, 0x8000000⟩
  | 2 => some ⟨.lldt (BitVec.ofNat 1 (w / 0x4000000)) (BitVec.ofNat 6 (w / 0x80000)) (BitVec.ofNat 6 (w / 0x2000)) (BitVec.ofNat 6 (w / 0x80)), none, 0x0, 0x1a000000, 0x8000000⟩
  | 3 => some ⟨.lldtPoll (BitVec.ofNat 1 (w / 0x4000000)) (BitVec.ofNat 6 (w / 0x80000)) (BitVec.ofNat 6 (w / 0x2000)) (BitVec.ofNat 6 (w / 0x80)), none, 0x0, 0x1a000000, 0x8000000⟩
  | _ => none

/-- Major 0x1e (R85, R86). -/
def rowQueue (w : Nat) : Option Row :=
  match w / 0x80000 % 8 with
  | 0 => some ⟨.qcfgLoop (BitVec.ofNat 6 (w / 0x800000)) (BitVec.ofNat 6 (w / 0x2000)) (BitVec.ofNat 4 (w / 0x80)), none, 0x401800, 0x0, 0x0⟩
  | 1 => some ⟨.qcfgStrm (BitVec.ofNat 6 (w / 0x2000)) (BitVec.ofNat 4 (w / 0x80)), none, 0x1fc01800, 0x0, 0x0⟩
  | 2 => some ⟨.qcfgOff (BitVec.ofNat 4 (w / 0x80)), none, 0x1fc7f800, 0x0, 0x0⟩
  | _ => none

/-- Major 0x1e in the E layout, bits [31:29] = 1 (R445). -/
def rowStrm (w : Nat) : Option Row :=
  some ⟨.strm (BitVec.ofNat 4 (w / 0x2000000)) (BitVec.ofNat 6 (w / 0x80000)) (BitVec.ofNat 6 (w / 0x2000)) (BitVec.ofNat 6 (w / 0x80)), none, 0x0, 0x0, 0x0⟩

/-- Major 0x1f (R85, R86). -/
def rowCopy (w : Nat) : Option Row :=
  match w / 0x20000000 % 8 with
  | 0 => some ⟨.cpy (BitVec.ofNat 4 (w / 0x2000000)) (BitVec.ofNat 6 (w / 0x80000)) (BitVec.ofNat 6 (w / 0x2000)) (BitVec.ofNat 6 (w / 0x80)), none, 0x0, 0x0, 0x0⟩
  | 1 => some ⟨.gath (BitVec.ofNat 4 (w / 0x2000000)) (BitVec.ofNat 6 (w / 0x80000)) (BitVec.ofNat 6 (w / 0x2000)) (BitVec.ofNat 6 (w / 0x80)), none, 0x0, 0x0, 0x0⟩
  | 2 => some ⟨.scat (BitVec.ofNat 4 (w / 0x2000000)) (BitVec.ofNat 6 (w / 0x80000)) (BitVec.ofNat 6 (w / 0x2000)) (BitVec.ofNat 6 (w / 0x80)), none, 0x0, 0x0, 0x0⟩
  | 3 => some ⟨.cpyMx (BitVec.ofNat 4 (w / 0x2000000)) (BitVec.ofNat 6 (w / 0x80000)) (BitVec.ofNat 6 (w / 0x2000)) (BitVec.ofNat 6 (w / 0x80)), none, 0x0, 0x0, 0x0⟩
  | 4 => some ⟨.cpyUnmx (BitVec.ofNat 4 (w / 0x2000000)) (BitVec.ofNat 6 (w / 0x80000)) (BitVec.ofNat 6 (w / 0x2000)) (BitVec.ofNat 6 (w / 0x80)), none, 0x0, 0x0, 0x0⟩
  | _ => none

/-- Major 0x20 (R85, R86). -/
def rowApnd (w : Nat) : Option Row :=
  match w / 0x20000000 % 8 with
  | 0 => some ⟨.apnd (BitVec.ofNat 4 (w / 0x2000000)) (BitVec.ofNat 6 (w / 0x80000)) (BitVec.ofNat 6 (w / 0x2000)) (BitVec.ofNat 6 (w / 0x80)), none, 0x0, 0x0, 0x0⟩
  | 1 => some ⟨.apndDur (BitVec.ofNat 4 (w / 0x2000000)) (BitVec.ofNat 6 (w / 0x80000)) (BitVec.ofNat 6 (w / 0x2000)) (BitVec.ofNat 6 (w / 0x80)), none, 0x0, 0x0, 0x0⟩
  | 2 => some ⟨.apndSync (BitVec.ofNat 4 (w / 0x2000000)) (BitVec.ofNat 6 (w / 0x80000)) (BitVec.ofNat 6 (w / 0x2000)) (BitVec.ofNat 6 (w / 0x80)), none, 0x0, 0x0, 0x0⟩
  | _ => none

/-- Major 0x21 (R85, R86). -/
def rowNet (w : Nat) : Option Row :=
  match w / 0x20000000 % 8 with
  | 0 => some ⟨.send (BitVec.ofNat 4 (w / 0x2000000)) (BitVec.ofNat 6 (w / 0x80000)) (BitVec.ofNat 6 (w / 0x2000)) (BitVec.ofNat 6 (w / 0x80)), none, 0x0, 0x0, 0x0⟩
  | 2 => some ⟨.recv (BitVec.ofNat 4 (w / 0x2000000)) (BitVec.ofNat 6 (w / 0x80000)) (BitVec.ofNat 6 (w / 0x2000)) (BitVec.ofNat 6 (w / 0x80)), none, 0x0, 0x0, 0x0⟩
  | _ => none

/-- Major 0x22 (R85, R86). -/
def rowWait (w : Nat) : Option Row :=
  some ⟨.wait (BitVec.ofNat 4 (w / 0x2000000)) (BitVec.ofNat 4 (w / 0x200000)) (BitVec.ofNat 4 (w / 0x20000)) (BitVec.ofNat 5 (w / 0x1000)) (BitVec.ofNat 5 (w / 0x80)), none, 0xe0000000, 0x0, 0x0⟩

/-- Major 0x23 (R85, R86). -/
def rowWaitmGset (w : Nat) : Option Row :=
  match w / 0x8000000 % 32 with
  | 0 => some ⟨.waitm (BitVec.ofNat 6 (w / 0x80000)) (BitVec.ofNat 6 (w / 0x2000)), (some [2]), 0x1f80, 0x0, 0x0⟩
  | 1 => some ⟨.gset (BitVec.ofNat 6 (w / 0x2000)) (BitVec.ofNat 3 (w / 0x80)), (some [2]), 0x1f81c00, 0x0, 0x0⟩
  | _ => none

/-- Major 0x24 (R85, R86). -/
def rowSync (w : Nat) : Option Row :=
  match w / 0x8000000 % 32 with
  | 0 => some ⟨.barArrive (BitVec.ofNat 4 (w / 0x80)), (some [2]), 0x1fff800, 0x0, 0x0⟩
  | 1 => some ⟨.barWait (BitVec.ofNat 4 (w / 0x80)), (some [2]), 0x1fff800, 0x0, 0x0⟩
  | 2 => some ⟨.barSync (BitVec.ofNat 4 (w / 0x80)), (some [2]), 0x1fff800, 0x0, 0x0⟩
  | 3 => some ⟨.cbar (BitVec.ofNat 6 (w / 0x2000)), (some [2]), 0x1f81f80, 0x0, 0x0⟩
  | 4 => some ⟨.mfmt (BitVec.ofNat 6 (w / 0x2000)) (BitVec.ofNat 4 (w / 0x80)), (some [0]), 0x1f81800, 0x0, 0x0⟩
  | 5 => some ⟨.mrun (BitVec.ofNat 6 (w / 0x80000)) (BitVec.ofNat 6 (w / 0x2000)), (some [2]), 0x1f80, 0x0, 0x0⟩
  | _ => none

/-- Major 0x25 (R85, R86). -/
def rowSystem (w : Nat) : Option Row :=
  match w / 0x8000000 % 32 with
  | 0 => some ⟨.nop, (some [0]), 0x1ffff80, 0x0, 0x0⟩
  | 1 => some ⟨.sysc (BitVec.ofNat 6 (w / 0x80000)) (BitVec.ofNat 6 (w / 0x2000)) (BitVec.ofNat 6 (w / 0x80)), (some [2]), 0x0, 0x0, 0x0⟩
  | 2 => some ⟨.trap (BitVec.ofNat 18 (w / 0x80)), (some [0]), 0x0, 0x0, 0x0⟩
  | 3 => some ⟨.uimask (BitVec.ofNat 6 (w / 0x2000)) (BitVec.ofNat 6 (w / 0x80)), (some [2]), 0x1f80000, 0x0, 0x0⟩
  | 4 => some ⟨.uiret, (some [0]), 0x1ffff80, 0x0, 0x0⟩
  | 5 => some ⟨.emret, (some [0]), 0x1ffff80, 0x0, 0x0⟩
  | _ => none

/-- The row of a 32-bit floe word, by its major (R85) and sub-op; `none` where the sub-op is not listed. -/
def rowOf (w : Nat) : Option Row :=
  match w / 2 % 64 with
  | 0x1 => rowIaluR w
  | 0x2 => rowIaluI w
  | 0x3 => rowLogicR w
  | 0x4 => rowLogicI w
  | 0x5 => rowBfx w
  | 0x6 => rowBfi w
  | 0x7 => rowCmp w
  | 0x8 => rowMove w
  | 0x9 => rowMovi w
  | 0xa => rowMovh w
  | 0xb => rowFpR w
  | 0xc => rowFpS w
  | 0xd => rowCvt w
  | 0xe => rowQnt w
  | 0xf => rowDeq w
  | 0x10 => rowLane w
  | 0x11 => rowFloe w
  | 0x12 => rowBra w
  | 0x13 => rowBrc w
  | 0x14 => rowJump w
  | 0x15 => rowJseg w
  | 0x16 => rowCfetch w
  | 0x17 => rowLd w
  | 0x18 => rowSt w
  | 0x19 => rowLocal w
  | 0x1a => rowAtom w
  | 0x1b => rowRed w
  | 0x1c => rowOrder w
  | 0x1d => rowLattice w
  | 0x1e => if w / 0x20000000 % 8 = 1 then rowStrm w else rowQueue w
  | 0x1f => rowCopy w
  | 0x20 => rowApnd w
  | 0x21 => rowNet w
  | 0x22 => rowWait w
  | 0x23 => rowWaitmGset w
  | 0x24 => rowSync w
  | 0x25 => rowSystem w
  | _ => none

/-- A reserved major (R85). -/
def majReserved (m : Nat) : Bool := m = 0 || (0x26 ≤ m && m ≤ 0x2F) || 0x36 ≤ m

/-- Sub-op values that R90 lists under reason 7 and not under reason 4: the A-layout ops and the QUEUE selectors. -/
def subReserved (w : Nat) : Bool :=
  match w / 2 % 64 with
  | 0x1A => 13 ≤ w / 0x10000000 % 16
  | 0x1B => (8 ≤ w / 0x10000000 % 16 && w / 0x10000000 % 16 ≤ 9) || 13 ≤ w / 0x10000000 % 16
  | 0x1E => 2 ≤ w / 0x20000000 % 8
  | _ => false

/-- A 32-bit floe word: its instruction, or the reason of R90 (2 to 7) that rejects it. -/
def decode32 (w : Nat) : Except Nat Instr :=
  let m := w / 2 % 64
  if majReserved m then .error 2
  else if 0x30 ≤ m then .error 3
  else if subReserved w then .error 7
  else match rowOf w with
  | none => .error 4
  | some r =>
    if !(match r.classes with | some l => l.contains (w / 0x2000000 % 4) | none => true) || !r.instr.classOk then .error 5
    else if Nat.land w r.zero ≠ 0 then .error 6
    else if Nat.land w r.fixed ≠ r.fixedTo || !r.instr.fieldsOk then .error 7
    else .ok r.instr

/-- A 16-bit floe word (R81): reason 0 for the illegal halfword. -/
def decode16 (h : Nat) : Except Nat Instr :=
  let d : BitVec 6 := BitVec.ofNat 6 (h / 64)
  let s : BitVec 5 := BitVec.ofNat 5 (h / 2)
  if h = 0 then .error 0
  else if h = 0x9000 then .ok .nop16
  else match h / 0x1000 % 16 with
  | 0 => .ok (.iadd16 d s)
  | 1 => .ok (.isub16 d s)
  | 2 => .ok (.imul16 d s)
  | 3 => .ok (.and16 d s)
  | 4 => .ok (.or16 d s)
  | 5 => .ok (.xor16 d s)
  | 6 => .ok (.shl16 d s)
  | 7 => .ok (.shr16 d s)
  | 8 => .ok (.sar16 d s)
  | 9 => .ok (.mov16 d s)
  | 10 => .ok (.fadd16 d s)
  | 11 => .ok (.fsub16 d s)
  | 12 => .ok (.fmul16 d s)
  | 13 => .ok (.fmin16 d s)
  | 14 => .ok (.fmax16 d s)
  | 15 => .ok (.iadd16Imm d s)
  | _ => .error 0

/-- One instruction from the halfwords at an address: the instruction and its length in halfwords. -/
def decode : List Nat → Except Nat (Instr × Nat)
  | [] => .error 0
  | h :: t =>
    if h % 2 = 0 then (decode16 h).map (fun i => (i, 1))
    else match t with
      | [] => .error 1
      | g :: _ => (decode32 (h % 0x10000 + 0x10000 * (g % 0x10000))).map (fun i => (i, 2))

/-- A matrix stream word (R89): `none` where the word breaks R89. -/
def decodeMatrix (w : Nat) : Option Instr :=
  let i : Option Instr :=
    match w % 128 with
    | 0x61 => if Nat.land w 0xe000007f = 0x61 then some (.mma (BitVec.ofNat 1 (w / 0x10000000)) (BitVec.ofNat 4 (w / 0x1000000)) (BitVec.ofNat 6 (w / 0x40000)) (BitVec.ofNat 6 (w / 0x1000)) (BitVec.ofNat 5 (w / 0x80))) else none
    | 0x63 => if Nat.land w 0xfffe007f = 0x63 then some (.mzero (BitVec.ofNat 5 (w / 0x1000)) (BitVec.ofNat 5 (w / 0x80))) else none
    | 0x65 => if Nat.land w 0xe000007f = 0x65 then some (.mdrain (BitVec.ofNat 1 (w / 0x10000000)) (BitVec.ofNat 4 (w / 0x1000000)) (BitVec.ofNat 6 (w / 0x40000)) (BitVec.ofNat 6 (w / 0x1000)) (BitVec.ofNat 5 (w / 0x80))) else none
    | 0x67 => if Nat.land w 0xe7f = 0x67 then some (.mloop (BitVec.ofNat 20 (w / 0x1000)) (BitVec.ofNat 2 (w / 0x80))) else none
    | 0x69 =>
      if Nat.land w 0xfffff87f = 0x69 then some (.mbar (BitVec.ofNat 4 (w / 0x80)))
      else if Nat.land w 0xfffff87f = 0x869 then some (.mbarArrive (BitVec.ofNat 4 (w / 0x80)))
      else none
    | 0x6b => if Nat.land w 0xfffff87f = 0x6b then some (.mend (BitVec.ofNat 4 (w / 0x80))) else none
    | _ => none
  match i with
  | none => none
  | some j => if j.fieldsOk then some j else none

/-- A word of a host hart's custom-0 opcode (R299, R301). -/
def decodeHost (w : Nat) : Option Instr :=
  if w = 0x100B then some .kuiret
  else if Nat.land w 0xFE00707F = 0x0B then
    some (.ksubmit (BitVec.ofNat 5 (w / 0x100000)) (BitVec.ofNat 5 (w / 0x8000)) (BitVec.ofNat 5 (w / 0x80)))
  else none

/-- The word of an instruction, as a number (the encoding tables of R81, R86, R89, R94, R299, R301); 0 for a step that has
no word. -/
def encodeWord : Instr → Nat
  | .iaddR c b a d => 0x3 + c.toNat * 0x2000000 + b.toNat * 0x80000 + a.toNat * 0x2000 + d.toNat * 0x80
  | .iaddI i u a d => 0x5 + i.toNat * 0x800000 + u.toNat * 0x400000 + a.toNat * 0x2000 + d.toNat * 0x80
  | .iadd16 d s => 0x0 + d.toNat * 0x40 + s.toNat * 0x2
  | .iadd16Imm d i => 0xf000 + d.toNat * 0x40 + i.toNat * 0x2
  | .isubR c b a d => 0x8000003 + c.toNat * 0x2000000 + b.toNat * 0x80000 + a.toNat * 0x2000 + d.toNat * 0x80
  | .isub16 d s => 0x1000 + d.toNat * 0x40 + s.toNat * 0x2
  | .imulR c b a d => 0x10000003 + c.toNat * 0x2000000 + b.toNat * 0x80000 + a.toNat * 0x2000 + d.toNat * 0x80
  | .imulI i u a d => 0x80005 + i.toNat * 0x800000 + u.toNat * 0x400000 + a.toNat * 0x2000 + d.toNat * 0x80
  | .imul16 d s => 0x2000 + d.toNat * 0x40 + s.toNat * 0x2
  | .imulhS c b a d => 0x18000003 + c.toNat * 0x2000000 + b.toNat * 0x80000 + a.toNat * 0x2000 + d.toNat * 0x80
  | .imulhU c b a d => 0x20000003 + c.toNat * 0x2000000 + b.toNat * 0x80000 + a.toNat * 0x2000 + d.toNat * 0x80
  | .imad c b a d => 0x28000003 + c.toNat * 0x2000000 + b.toNat * 0x80000 + a.toNat * 0x2000 + d.toNat * 0x80
  | .iminSR c b a d => 0x30000003 + c.toNat * 0x2000000 + b.toNat * 0x80000 + a.toNat * 0x2000 + d.toNat * 0x80
  | .iminUR c b a d => 0x38000003 + c.toNat * 0x2000000 + b.toNat * 0x80000 + a.toNat * 0x2000 + d.toNat * 0x80
  | .imaxSR c b a d => 0x40000003 + c.toNat * 0x2000000 + b.toNat * 0x80000 + a.toNat * 0x2000 + d.toNat * 0x80
  | .imaxUR c b a d => 0x48000003 + c.toNat * 0x2000000 + b.toNat * 0x80000 + a.toNat * 0x2000 + d.toNat * 0x80
  | .iminSI i u a d => 0x100005 + i.toNat * 0x800000 + u.toNat * 0x400000 + a.toNat * 0x2000 + d.toNat * 0x80
  | .imaxSI i u a d => 0x180005 + i.toNat * 0x800000 + u.toNat * 0x400000 + a.toNat * 0x2000 + d.toNat * 0x80
  | .iminUI i u a d => 0x200005 + i.toNat * 0x800000 + u.toNat * 0x400000 + a.toNat * 0x2000 + d.toNat * 0x80
  | .imaxUI i u a d => 0x280005 + i.toNat * 0x800000 + u.toNat * 0x400000 + a.toNat * 0x2000 + d.toNat * 0x80
  | .iabs c a d => 0x50000003 + c.toNat * 0x2000000 + a.toNat * 0x2000 + d.toNat * 0x80
  | .iaddc c b a d => 0x58000003 + c.toNat * 0x2000000 + b.toNat * 0x80000 + a.toNat * 0x2000 + d.toNat * 0x80
  | .isubb c b a d => 0x60000003 + c.toNat * 0x2000000 + b.toNat * 0x80000 + a.toNat * 0x2000 + d.toNat * 0x80
  | .lea h c b a d => 0x80000003 + h.toNat * 0x8000000 + c.toNat * 0x2000000 + b.toNat * 0x80000 + a.toNat * 0x2000 + d.toNat * 0x80
  | .andR c b a d => 0x7 + c.toNat * 0x2000000 + b.toNat * 0x80000 + a.toNat * 0x2000 + d.toNat * 0x80
  | .andI i u a d => 0x9 + i.toNat * 0x800000 + u.toNat * 0x400000 + a.toNat * 0x2000 + d.toNat * 0x80
  | .and16 d s => 0x3000 + d.toNat * 0x40 + s.toNat * 0x2
  | .orR c b a d => 0x8000007 + c.toNat * 0x2000000 + b.toNat * 0x80000 + a.toNat * 0x2000 + d.toNat * 0x80
  | .orI i u a d => 0x80009 + i.toNat * 0x800000 + u.toNat * 0x400000 + a.toNat * 0x2000 + d.toNat * 0x80
  | .or16 d s => 0x4000 + d.toNat * 0x40 + s.toNat * 0x2
  | .xorR c b a d => 0x10000007 + c.toNat * 0x2000000 + b.toNat * 0x80000 + a.toNat * 0x2000 + d.toNat * 0x80
  | .xorI i u a d => 0x100009 + i.toNat * 0x800000 + u.toNat * 0x400000 + a.toNat * 0x2000 + d.toNat * 0x80
  | .xor16 d s => 0x5000 + d.toNat * 0x40 + s.toNat * 0x2
  | .andn c b a d => 0x18000007 + c.toNat * 0x2000000 + b.toNat * 0x80000 + a.toNat * 0x2000 + d.toNat * 0x80
  | .shlR c b a d => 0x20000007 + c.toNat * 0x2000000 + b.toNat * 0x80000 + a.toNat * 0x2000 + d.toNat * 0x80
  | .shrR c b a d => 0x28000007 + c.toNat * 0x2000000 + b.toNat * 0x80000 + a.toNat * 0x2000 + d.toNat * 0x80
  | .sarR c b a d => 0x30000007 + c.toNat * 0x2000000 + b.toNat * 0x80000 + a.toNat * 0x2000 + d.toNat * 0x80
  | .shlI i u a d => 0x180009 + i.toNat * 0x800000 + u.toNat * 0x400000 + a.toNat * 0x2000 + d.toNat * 0x80
  | .shrI i u a d => 0x200009 + i.toNat * 0x800000 + u.toNat * 0x400000 + a.toNat * 0x2000 + d.toNat * 0x80
  | .sarI i u a d => 0x280009 + i.toNat * 0x800000 + u.toNat * 0x400000 + a.toNat * 0x2000 + d.toNat * 0x80
  | .shl16 d s => 0x6000 + d.toNat * 0x40 + s.toNat * 0x2
  | .shr16 d s => 0x7000 + d.toNat * 0x40 + s.toNat * 0x2
  | .sar16 d s => 0x8000 + d.toNat * 0x40 + s.toNat * 0x2
  | .fshl c b a d => 0x38000007 + c.toNat * 0x2000000 + b.toNat * 0x80000 + a.toNat * 0x2000 + d.toNat * 0x80
  | .fshr c b a d => 0x40000007 + c.toNat * 0x2000000 + b.toNat * 0x80000 + a.toNat * 0x2000 + d.toNat * 0x80
  | .popc c a d => 0x48000007 + c.toNat * 0x2000000 + a.toNat * 0x2000 + d.toNat * 0x80
  | .clz c a d => 0x50000007 + c.toNat * 0x2000000 + a.toNat * 0x2000 + d.toNat * 0x80
  | .ctz c a d => 0x58000007 + c.toNat * 0x2000000 + a.toNat * 0x2000 + d.toNat * 0x80
  | .brev c a d => 0x60000007 + c.toNat * 0x2000000 + a.toNat * 0x2000 + d.toNat * 0x80
  | .prmt c b a d => 0x68000007 + c.toNat * 0x2000000 + b.toNat * 0x80000 + a.toNat * 0x2000 + d.toNat * 0x80
  | .bfx s l p a d => 0xb + s.toNat * 0x80000000 + l.toNat * 0x2000000 + p.toNat * 0x80000 + a.toNat * 0x2000 + d.toNat * 0x80
  | .bfi l p a d => 0xd + l.toNat * 0x2000000 + p.toNat * 0x80000 + a.toNat * 0x2000 + d.toNat * 0x80
  | .icmpS c b a n p => 0xf + c.toNat * 0x2000000 + b.toNat * 0x80000 + a.toNat * 0x2000 + n.toNat * 0x400 + p.toNat * 0x80
  | .icmpU c b a n p => 0x800000f + c.toNat * 0x2000000 + b.toNat * 0x80000 + a.toNat * 0x2000 + n.toNat * 0x400 + p.toNat * 0x80
  | .fcmpF32 c b a n p => 0x1000000f + c.toNat * 0x2000000 + b.toNat * 0x80000 + a.toNat * 0x2000 + n.toNat * 0x400 + p.toNat * 0x80
  | .fcmpF64 c b a n p => 0x1800000f + c.toNat * 0x2000000 + b.toNat * 0x80000 + a.toNat * 0x2000 + n.toNat * 0x400 + p.toNat * 0x80
  | .fcmpF16 c b a n p => 0x2000000f + c.toNat * 0x2000000 + b.toNat * 0x80000 + a.toNat * 0x2000 + n.toNat * 0x400 + p.toNat * 0x80
  | .fcmpBf16 c b a n p => 0x2800000f + c.toNat * 0x2000000 + b.toNat * 0x80000 + a.toNat * 0x2000 + n.toNat * 0x400 + p.toNat * 0x80
  | .plog b a o d => 0x4000000f + b.toNat * 0x80000 + a.toNat * 0x2000 + o.toNat * 0x400 + d.toNat * 0x80
  | .movR c a d => 0x11 + c.toNat * 0x2000000 + a.toNat * 0x2000 + d.toNat * 0x80
  | .mov16 d s => 0x9000 + d.toNat * 0x40 + s.toNat * 0x2
  | .nop16 => 0x9000
  | .rdsr c n d => 0x10000011 + c.toNat * 0x2000000 + n.toNat * 0x2000 + d.toNat * 0x80
  | .wrsr a n => 0x1c000011 + a.toNat * 0x2000 + n.toNat * 0x80
  | .wrsrRbase a => 0x1c000511 + a.toNat * 0x2000
  | .wrsrUivec a => 0x1c000c11 + a.toNat * 0x2000
  | .wrsrUipend a => 0x1c000c91 + a.toNat * 0x2000
  | .pack2 c b a d => 0x20000011 + c.toNat * 0x2000000 + b.toNat * 0x80000 + a.toNat * 0x2000 + d.toNat * 0x80
  | .unpk c a d => 0x28000011 + c.toNat * 0x2000000 + a.toNat * 0x2000 + d.toNat * 0x80
  | .sel k c b a d => 0x40000011 + k.toNat * 0x8000000 + c.toNat * 0x2000000 + b.toNat * 0x80000 + a.toNat * 0x2000 + d.toNat * 0x80
  | .movi i u d => 0x13 + i.toNat * 0x4000 + u.toNat * 0x2000 + d.toNat * 0x80
  | .movh i u d => 0x15 + i.toNat * 0x4000 + u.toNat * 0x2000 + d.toNat * 0x80
  | .fadd t c b a d => 0x17 + t.toNat * 0x8000000 + c.toNat * 0x2000000 + b.toNat * 0x80000 + a.toNat * 0x2000 + d.toNat * 0x80
  | .fadd16 d s => 0xa000 + d.toNat * 0x40 + s.toNat * 0x2
  | .fsub t c b a d => 0x20000017 + t.toNat * 0x8000000 + c.toNat * 0x2000000 + b.toNat * 0x80000 + a.toNat * 0x2000 + d.toNat * 0x80
  | .fsub16 d s => 0xb000 + d.toNat * 0x40 + s.toNat * 0x2
  | .fmul t c b a d => 0x40000017 + t.toNat * 0x8000000 + c.toNat * 0x2000000 + b.toNat * 0x80000 + a.toNat * 0x2000 + d.toNat * 0x80
  | .fmul16 d s => 0xc000 + d.toNat * 0x40 + s.toNat * 0x2
  | .ffma t c b a d => 0x60000017 + t.toNat * 0x8000000 + c.toNat * 0x2000000 + b.toNat * 0x80000 + a.toNat * 0x2000 + d.toNat * 0x80
  | .fmin t c b a d => 0x80000017 + t.toNat * 0x8000000 + c.toNat * 0x2000000 + b.toNat * 0x80000 + a.toNat * 0x2000 + d.toNat * 0x80
  | .fmin16 d s => 0xd000 + d.toNat * 0x40 + s.toNat * 0x2
  | .fmax t c b a d => 0xa0000017 + t.toNat * 0x8000000 + c.toNat * 0x2000000 + b.toNat * 0x80000 + a.toNat * 0x2000 + d.toNat * 0x80
  | .fmax16 d s => 0xe000 + d.toNat * 0x40 + s.toNat * 0x2
  | .frcp t c a d => 0x19 + t.toNat * 0x40000000 + c.toNat * 0x2000000 + a.toNat * 0x2000 + d.toNat * 0x80
  | .frsq t c a d => 0x8000019 + t.toNat * 0x40000000 + c.toNat * 0x2000000 + a.toNat * 0x2000 + d.toNat * 0x80
  | .fsqrt t c a d => 0x10000019 + t.toNat * 0x40000000 + c.toNat * 0x2000000 + a.toNat * 0x2000 + d.toNat * 0x80
  | .fex2 t c a d => 0x18000019 + t.toNat * 0x40000000 + c.toNat * 0x2000000 + a.toNat * 0x2000 + d.toNat * 0x80
  | .flg2 t c a d => 0x20000019 + t.toNat * 0x40000000 + c.toNat * 0x2000000 + a.toNat * 0x2000 + d.toNat * 0x80
  | .fsin t c a d => 0x28000019 + t.toNat * 0x40000000 + c.toNat * 0x2000000 + a.toNat * 0x2000 + d.toNat * 0x80
  | .fcos t c a d => 0x30000019 + t.toNat * 0x40000000 + c.toNat * 0x2000000 + a.toNat * 0x2000 + d.toNat * 0x80
  | .fcls t c a d => 0x38000019 + t.toNat * 0x40000000 + c.toNat * 0x2000000 + a.toNat * 0x2000 + d.toNat * 0x80
  | .cvt s r f m a d => 0x1b + s.toNat * 0x80000000 + r.toNat * 0x20000000 + f.toNat * 0x2000000 + m.toNat * 0x80000 + a.toNat * 0x2000 + d.toNat * 0x80
  | .qnt s r f b a d => 0x1d + s.toNat * 0x80000000 + r.toNat * 0x20000000 + f.toNat * 0x2000000 + b.toNat * 0x80000 + a.toNat * 0x2000 + d.toNat * 0x80
  | .deq f b a d => 0x1f + f.toNat * 0x2000000 + b.toNat * 0x80000 + a.toNat * 0x2000 + d.toNat * 0x80
  | .shflGet c b a d => 0x21 + c.toNat * 0x2000000 + b.toNat * 0x80000 + a.toNat * 0x2000 + d.toNat * 0x80
  | .shflSlide c b a d => 0x8000021 + c.toNat * 0x2000000 + b.toNat * 0x80000 + a.toNat * 0x2000 + d.toNat * 0x80
  | .shflRot c b a d => 0x10000021 + c.toNat * 0x2000000 + b.toNat * 0x80000 + a.toNat * 0x2000 + d.toNat * 0x80
  | .shflXor c b a d => 0x18000021 + c.toNat * 0x2000000 + b.toNat * 0x80000 + a.toNat * 0x2000 + d.toNat * 0x80
  | .lbc b a d => 0x22000021 + b.toNat * 0x80000 + a.toNat * 0x2000 + d.toNat * 0x80
  | .rfa a d => 0x28000021 + a.toNat * 0x2000 + d.toNat * 0x80
  | .voteAll k d => 0x30000021 + k.toNat * 0x2000 + d.toNat * 0x80
  | .voteAny k d => 0x38000021 + k.toNat * 0x2000 + d.toNat * 0x80
  | .voteBallot k d => 0x40000021 + k.toNat * 0x2000 + d.toNat * 0x80
  | .redxAdd a d => 0x48000021 + a.toNat * 0x2000 + d.toNat * 0x80
  | .redxMin a d => 0x50000021 + a.toNat * 0x2000 + d.toNat * 0x80
  | .redxMax a d => 0x58000021 + a.toNat * 0x2000 + d.toNat * 0x80
  | .redxFadd a d => 0x60000021 + a.toNat * 0x2000 + d.toNat * 0x80
  | .scanAdd a d => 0x68000021 + a.toNat * 0x2000 + d.toNat * 0x80
  | .scanAddx a d => 0x70000021 + a.toNat * 0x2000 + d.toNat * 0x80
  | .matchLanes a d => 0x78000021 + a.toNat * 0x2000 + d.toNat * 0x80
  | .split w => 0x4000023 + w.toNat * 0x80000
  | .fuse d => 0xc000023 + d.toNat * 0x80
  | .yield => 0x14000023
  | .bra o => 0x3a5 + o.toNat * 0x2000
  | .callRel o => 0xba5 + o.toNat * 0x2000
  | .brc o h n p => 0x27 + o.toNat * 0x2000 + h.toNat * 0x1000 + n.toNat * 0x400 + p.toNat * 0x80
  | .brx a => 0x4000029 + a.toNat * 0x2000
  | .callReg a => 0xc000029 + a.toNat * 0x2000
  | .ret => 0x14000029
  | .exit => 0x18000029
  | .jseg l o s => 0x2b + l.toNat * 0x1000000 + o.toNat * 0x2000 + s.toNat * 0x80
  | .cfetch g t c q => 0x2d + g.toNat * 0x2000000 + t.toNat * 0x80000 + c.toNat * 0x2000 + q.toNat * 0x80
  | .ld z u i b d => 0x2f + z.toNat * 0x4000000 + u.toNat * 0x2000000 + i.toNat * 0x80000 + b.toNat * 0x2000 + d.toNat * 0x80
  | .ldNa z u i b d => 0x2000002f + z.toNat * 0x4000000 + u.toNat * 0x2000000 + i.toNat * 0x80000 + b.toNat * 0x2000 + d.toNat * 0x80
  | .ldAcqBlk z u i b d => 0x4000002f + z.toNat * 0x4000000 + u.toNat * 0x2000000 + i.toNat * 0x80000 + b.toNat * 0x2000 + d.toNat * 0x80
  | .ldAcqDie z u i b d => 0x6000002f + z.toNat * 0x4000000 + u.toNat * 0x2000000 + i.toNat * 0x80000 + b.toNat * 0x2000 + d.toNat * 0x80
  | .ldAcqPkg z u i b d => 0x8000002f + z.toNat * 0x4000000 + u.toNat * 0x2000000 + i.toNat * 0x80000 + b.toNat * 0x2000 + d.toNat * 0x80
  | .ldAcqSys z u i b d => 0xa000002f + z.toNat * 0x4000000 + u.toNat * 0x2000000 + i.toNat * 0x80000 + b.toNat * 0x2000 + d.toNat * 0x80
  | .st z u i b d => 0x31 + z.toNat * 0x4000000 + u.toNat * 0x2000000 + i.toNat * 0x80000 + b.toNat * 0x2000 + d.toNat * 0x80
  | .stNa z u i b d => 0x20000031 + z.toNat * 0x4000000 + u.toNat * 0x2000000 + i.toNat * 0x80000 + b.toNat * 0x2000 + d.toNat * 0x80
  | .stRelBlk z u i b d => 0x40000031 + z.toNat * 0x4000000 + u.toNat * 0x2000000 + i.toNat * 0x80000 + b.toNat * 0x2000 + d.toNat * 0x80
  | .stRelDie z u i b d => 0x60000031 + z.toNat * 0x4000000 + u.toNat * 0x2000000 + i.toNat * 0x80000 + b.toNat * 0x2000 + d.toNat * 0x80
  | .stRelPkg z u i b d => 0x80000031 + z.toNat * 0x4000000 + u.toNat * 0x2000000 + i.toNat * 0x80000 + b.toNat * 0x2000 + d.toNat * 0x80
  | .stRelSys z u i b d => 0xa0000031 + z.toNat * 0x4000000 + u.toNat * 0x2000000 + i.toNat * 0x80000 + b.toNat * 0x2000 + d.toNat * 0x80
  | .stn i b d => 0xd4000031 + i.toNat * 0x80000 + b.toNat * 0x2000 + d.toNat * 0x80
  | .lds z u i b d => 0x33 + z.toNat * 0x4000000 + u.toNat * 0x2000000 + i.toNat * 0x80000 + b.toNat * 0x2000 + d.toNat * 0x80
  | .sts z u i b d => 0x20000033 + z.toNat * 0x4000000 + u.toNat * 0x2000000 + i.toNat * 0x80000 + b.toNat * 0x2000 + d.toNat * 0x80
  | .ldfeKeep z i b d => 0x40000033 + z.toNat * 0x4000000 + i.toNat * 0x80000 + b.toNat * 0x2000 + d.toNat * 0x80
  | .ldfeClr z i b d => 0x60000033 + z.toNat * 0x4000000 + i.toNat * 0x80000 + b.toNat * 0x2000 + d.toNat * 0x80
  | .stfe z i b d => 0x80000033 + z.toNat * 0x4000000 + i.toNat * 0x80000 + b.toNat * 0x2000 + d.toNat * 0x80
  | .stfeWe z i b d => 0xa0000033 + z.toNat * 0x4000000 + i.toNat * 0x80000 + b.toNat * 0x2000 + d.toNat * 0x80
  | .atomAdd s w i b d => 0x35 + s.toNat * 0x4000000 + w.toNat * 0x2000000 + i.toNat * 0x80000 + b.toNat * 0x2000 + d.toNat * 0x80
  | .atomMins s w i b d => 0x10000035 + s.toNat * 0x4000000 + w.toNat * 0x2000000 + i.toNat * 0x80000 + b.toNat * 0x2000 + d.toNat * 0x80
  | .atomMaxs s w i b d => 0x20000035 + s.toNat * 0x4000000 + w.toNat * 0x2000000 + i.toNat * 0x80000 + b.toNat * 0x2000 + d.toNat * 0x80
  | .atomMinu s w i b d => 0x30000035 + s.toNat * 0x4000000 + w.toNat * 0x2000000 + i.toNat * 0x80000 + b.toNat * 0x2000 + d.toNat * 0x80
  | .atomMaxu s w i b d => 0x40000035 + s.toNat * 0x4000000 + w.toNat * 0x2000000 + i.toNat * 0x80000 + b.toNat * 0x2000 + d.toNat * 0x80
  | .atomAnd s w i b d => 0x50000035 + s.toNat * 0x4000000 + w.toNat * 0x2000000 + i.toNat * 0x80000 + b.toNat * 0x2000 + d.toNat * 0x80
  | .atomOr s w i b d => 0x60000035 + s.toNat * 0x4000000 + w.toNat * 0x2000000 + i.toNat * 0x80000 + b.toNat * 0x2000 + d.toNat * 0x80
  | .atomXor s w i b d => 0x70000035 + s.toNat * 0x4000000 + w.toNat * 0x2000000 + i.toNat * 0x80000 + b.toNat * 0x2000 + d.toNat * 0x80
  | .atomExch s w i b d => 0x80000035 + s.toNat * 0x4000000 + w.toNat * 0x2000000 + i.toNat * 0x80000 + b.toNat * 0x2000 + d.toNat * 0x80
  | .atomCas s w i b d => 0x90000035 + s.toNat * 0x4000000 + w.toNat * 0x2000000 + i.toNat * 0x80000 + b.toNat * 0x2000 + d.toNat * 0x80
  | .atomFadd s w i b d => 0xa0000035 + s.toNat * 0x4000000 + w.toNat * 0x2000000 + i.toNat * 0x80000 + b.toNat * 0x2000 + d.toNat * 0x80
  | .atomFmin s w i b d => 0xb0000035 + s.toNat * 0x4000000 + w.toNat * 0x2000000 + i.toNat * 0x80000 + b.toNat * 0x2000 + d.toNat * 0x80
  | .atomFmax s w i b d => 0xc0000035 + s.toNat * 0x4000000 + w.toNat * 0x2000000 + i.toNat * 0x80000 + b.toNat * 0x2000 + d.toNat * 0x80
  | .redAdd s w i b d => 0x37 + s.toNat * 0x4000000 + w.toNat * 0x2000000 + i.toNat * 0x80000 + b.toNat * 0x2000 + d.toNat * 0x80
  | .redMins s w i b d => 0x10000037 + s.toNat * 0x4000000 + w.toNat * 0x2000000 + i.toNat * 0x80000 + b.toNat * 0x2000 + d.toNat * 0x80
  | .redMaxs s w i b d => 0x20000037 + s.toNat * 0x4000000 + w.toNat * 0x2000000 + i.toNat * 0x80000 + b.toNat * 0x2000 + d.toNat * 0x80
  | .redMinu s w i b d => 0x30000037 + s.toNat * 0x4000000 + w.toNat * 0x2000000 + i.toNat * 0x80000 + b.toNat * 0x2000 + d.toNat * 0x80
  | .redMaxu s w i b d => 0x40000037 + s.toNat * 0x4000000 + w.toNat * 0x2000000 + i.toNat * 0x80000 + b.toNat * 0x2000 + d.toNat * 0x80
  | .redAnd s w i b d => 0x50000037 + s.toNat * 0x4000000 + w.toNat * 0x2000000 + i.toNat * 0x80000 + b.toNat * 0x2000 + d.toNat * 0x80
  | .redOr s w i b d => 0x60000037 + s.toNat * 0x4000000 + w.toNat * 0x2000000 + i.toNat * 0x80000 + b.toNat * 0x2000 + d.toNat * 0x80
  | .redXor s w i b d => 0x70000037 + s.toNat * 0x4000000 + w.toNat * 0x2000000 + i.toNat * 0x80000 + b.toNat * 0x2000 + d.toNat * 0x80
  | .redFadd s w i b d => 0xa0000037 + s.toNat * 0x4000000 + w.toNat * 0x2000000 + i.toNat * 0x80000 + b.toNat * 0x2000 + d.toNat * 0x80
  | .redFmin s w i b d => 0xb0000037 + s.toNat * 0x4000000 + w.toNat * 0x2000000 + i.toNat * 0x80000 + b.toNat * 0x2000 + d.toNat * 0x80
  | .redFmax s w i b d => 0xc0000037 + s.toNat * 0x4000000 + w.toNat * 0x2000000 + i.toNat * 0x80000 + b.toNat * 0x2000 + d.toNat * 0x80
  | .fenceFull s => 0x39 + s.toNat * 0x80
  | .fenceAcq s => 0x20000039 + s.toNat * 0x80
  | .fenceRel s => 0x40000039 + s.toNat * 0x80
  | .fenceCompletion _ => 0
  | .pref i b => 0x60000039 + i.toNat * 0x80000 + b.toNat * 0x2000
  | .cacheWb i b => 0x80000039 + i.toNat * 0x80000 + b.toNat * 0x2000
  | .cacheInv i b => 0xa0000039 + i.toNat * 0x80000 + b.toNat * 0x2000
  | .cacheWbinv i b => 0xc0000039 + i.toNat * 0x80000 + b.toNat * 0x2000
  | .ljoin z i b d => 0x800003b + z.toNat * 0x4000000 + i.toNat * 0x80000 + b.toNat * 0x2000 + d.toNat * 0x80
  | .ljoinStrict z i b d => 0x2800003b + z.toNat * 0x4000000 + i.toNat * 0x80000 + b.toNat * 0x2000 + d.toNat * 0x80
  | .lldt z i b d => 0x4800003b + z.toNat * 0x4000000 + i.toNat * 0x80000 + b.toNat * 0x2000 + d.toNat * 0x80
  | .lldtPoll z i b d => 0x6800003b + z.toNat * 0x4000000 + i.toNat * 0x80000 + b.toNat * 0x2000 + d.toNat * 0x80
  | .qcfgLoop i a q => 0x3d + i.toNat * 0x800000 + a.toNat * 0x2000 + q.toNat * 0x80
  | .qcfgStrm a q => 0x8003d + a.toNat * 0x2000 + q.toNat * 0x80
  | .qcfgOff q => 0x10003d + q.toNat * 0x80
  | .strm g t c q => 0x2000003d + g.toNat * 0x2000000 + t.toNat * 0x80000 + c.toNat * 0x2000 + q.toNat * 0x80
  | .cpy g t c q => 0x3f + g.toNat * 0x2000000 + t.toNat * 0x80000 + c.toNat * 0x2000 + q.toNat * 0x80
  | .gath g t c q => 0x2000003f + g.toNat * 0x2000000 + t.toNat * 0x80000 + c.toNat * 0x2000 + q.toNat * 0x80
  | .scat g t c q => 0x4000003f + g.toNat * 0x2000000 + t.toNat * 0x80000 + c.toNat * 0x2000 + q.toNat * 0x80
  | .cpyMx g t c q => 0x6000003f + g.toNat * 0x2000000 + t.toNat * 0x80000 + c.toNat * 0x2000 + q.toNat * 0x80
  | .cpyUnmx g t c q => 0x8000003f + g.toNat * 0x2000000 + t.toNat * 0x80000 + c.toNat * 0x2000 + q.toNat * 0x80
  | .apnd g t c q => 0x41 + g.toNat * 0x2000000 + t.toNat * 0x80000 + c.toNat * 0x2000 + q.toNat * 0x80
  | .apndDur g t c q => 0x20000041 + g.toNat * 0x2000000 + t.toNat * 0x80000 + c.toNat * 0x2000 + q.toNat * 0x80
  | .apndSync g t c q => 0x40000041 + g.toNat * 0x2000000 + t.toNat * 0x80000 + c.toNat * 0x2000 + q.toNat * 0x80
  | .send g t c q => 0x43 + g.toNat * 0x2000000 + t.toNat * 0x80000 + c.toNat * 0x2000 + q.toNat * 0x80
  | .recv g t c q => 0x40000043 + g.toNat * 0x2000000 + t.toNat * 0x80000 + c.toNat * 0x2000 + q.toNat * 0x80
  | .wait n t p s l => 0x45 + n.toNat * 0x2000000 + t.toNat * 0x200000 + p.toNat * 0x20000 + s.toNat * 0x1000 + l.toNat * 0x80
  | .waitm b a => 0x4000047 + b.toNat * 0x80000 + a.toNat * 0x2000
  | .gset a g => 0xc000047 + a.toNat * 0x2000 + g.toNat * 0x80
  | .barArrive n => 0x4000049 + n.toNat * 0x80
  | .barWait n => 0xc000049 + n.toNat * 0x80
  | .barSync n => 0x14000049 + n.toNat * 0x80
  | .cbar a => 0x1c000049 + a.toNat * 0x2000
  | .mfmt a n => 0x20000049 + a.toNat * 0x2000 + n.toNat * 0x80
  | .mrun b a => 0x2c000049 + b.toNat * 0x80000 + a.toNat * 0x2000
  | .sequencerRunStart _ => 0
  | .nop => 0x4b
  | .sysc b a d => 0xc00004b + b.toNat * 0x80000 + a.toNat * 0x2000 + d.toNat * 0x80
  | .syscReply _ _ => 0
  | .trap c => 0x1000004b + c.toNat * 0x80
  | .uimask a d => 0x1c00004b + a.toNat * 0x2000 + d.toNat * 0x80
  | .uiret => 0x2000004b
  | .emret => 0x2800004b
  | .mma c k b a t => 0x61 + c.toNat * 0x10000000 + k.toNat * 0x1000000 + b.toNat * 0x40000 + a.toNat * 0x1000 + t.toNat * 0x80
  | .mzero n t => 0x63 + n.toNat * 0x1000 + t.toNat * 0x80
  | .mdrain r e s o t => 0x65 + r.toNat * 0x10000000 + e.toNat * 0x1000000 + s.toNat * 0x40000 + o.toNat * 0x1000 + t.toNat * 0x80
  | .mloop o c => 0x67 + o.toNat * 0x1000 + c.toNat * 0x80
  | .mbar n => 0x69 + n.toNat * 0x80
  | .mbarArrive n => 0x869 + n.toNat * 0x80
  | .mend n => 0x6b + n.toNat * 0x80
  | .multicastDelivery _ _ => 0
  | .drainStaging _ => 0
  | .stagingUnitWrite _ => 0
  | .ksubmit b a d => 0xb + b.toNat * 0x100000 + a.toNat * 0x8000 + d.toNat * 0x80
  | .kuiret => 0x100b
  | .kuipendAccess _ _ _ _ => 0
  | .registerWrite _ _ _ => 0
  | .hostUiEntry _ => 0
  | .launchNow _ => 0
  | .bindTask _ => 0
  | .unbindTask _ => 0
  | .blockPlacement => 0
  | .blockFinish _ => 0
  | .launchEnd _ => 0
  | .fragmentWaitExpiry _ _ => 0
  | .activeSetAdmission _ _ => 0
  | .admissionTimeout _ _ => 0
  | .ctimeTick _ => 0
  | .horizonWaitRelease _ => 0
  | .timestampSweep _ => 0
  | .stackRead _ _ _ => 0
  | .stackRenewal _ _ _ => 0
  | .grantInstall _ => 0
  | .stackWrite _ => 0
  | .engineStackWrite _ _ => 0
  | .stackFill _ _ => 0
  | .stackEviction _ _ => 0
  | .ownershipRequest _ _ => 0
  | .invalidatingProbe _ _ => 0
  | .memoryOpCompletion _ _ => 0
  | .engineCommandCompletion _ _ => 0
  | .engineFrameBoundary _ _ => 0
  | .streamEntryDelivery _ _ => 0
  | .codeSlotLanding _ _ => 0
  | .recordAcceptance _ _ => 0
  | .recordDurable _ => 0
  | .trapHandlerEntry _ _ => 0
  | .interruptEntry _ _ => 0
  | .uiTimerExpiry _ => 0
  | .waitmReread _ _ => 0
  | .faultRingWaitRelease _ => 0
  | .firnDataArrival _ => 0
  | .peerAccessRequest _ _ => 0
  | .peerAccessTimeout _ _ => 0
  | .networkPacketPlacement _ _ _ _ _ => 0
  | .packetRetransmission _ _ => 0
  | .peerNotReadyRetry _ _ => 0
  | .sendAckTimeout _ _ => 0
  | .serviceEcho _ => 0
  | .invalidationRequest _ => 0
  | .invalidationCompletion _ => 0
  | .faultResolve _ => 0
  | .preempt _ => 0
  | .coreHalt _ => 0
  | .saveImageWrite _ => 0
  | .restore _ => 0
  | .restorePlacement _ => 0
  | .openLog _ => 0
  | .closeLog _ => 0
  | .hostAppend _ => 0
  | .driftControl _ => 0
  | .openMailboxWindow _ => 0
  | .closeWindow _ => 0
  | .remapDone _ => 0
  | .submitLaunch _ => 0
  | .asidTeardown _ => 0
  | .bindQueue _ => 0
  | .expertPowerCap _ => 0
  | .expertReplanningPeriod _ => 0
  | .expertEscalationThreshold _ => 0
  | .expertIslandOperatingPoint _ => 0
  | .bindNvmeQueuePair _ => 0
  | .unbindNvmeQueuePair _ => 0
  | .driveTransfer _ _ _ _ _ => 0
  | .rollback _ => 0
  | .launchReplay _ => 0
  | .linkRetryExhausted _ => 0
  | .scrubPass _ _ => 0
  | .frameRetirement _ _ _ => 0
  | .migrationLineMove _ => 0
  | .snapshotCopy _ _ => 0
  | .clusterRetirement _ _ => 0
  | .escalationThreshold _ _ => 0
  | .oscillatorSample _ _ => 0
  | .replanningWindow _ _ _ => 0
  | .windowMissed _ => 0
  | .uncoreCanarySweep _ _ _ => 0
  | .driftExchangeStep _ => 0
  | .garbageCollection _ _ _ => 0
  | .eventRingDeferredWrite => 0
  | .powerCapControl _ _ => 0
  | .boot => 0
  | .powerLoss => 0
  | .kBlockEnd _ => 0
  | .hostCoreAccess _ _ _ _ _ _ => 0
  | .externalHostAccess _ _ => 0

/-- How many halfwords an instruction's word has: 1 or 2, and 0 for a step that has no word. -/
def Instr.halfwords : Instr → Nat
  | .iaddR _ _ _ _ => 2
  | .iaddI _ _ _ _ => 2
  | .iadd16 _ _ => 1
  | .iadd16Imm _ _ => 1
  | .isubR _ _ _ _ => 2
  | .isub16 _ _ => 1
  | .imulR _ _ _ _ => 2
  | .imulI _ _ _ _ => 2
  | .imul16 _ _ => 1
  | .imulhS _ _ _ _ => 2
  | .imulhU _ _ _ _ => 2
  | .imad _ _ _ _ => 2
  | .iminSR _ _ _ _ => 2
  | .iminUR _ _ _ _ => 2
  | .imaxSR _ _ _ _ => 2
  | .imaxUR _ _ _ _ => 2
  | .iminSI _ _ _ _ => 2
  | .imaxSI _ _ _ _ => 2
  | .iminUI _ _ _ _ => 2
  | .imaxUI _ _ _ _ => 2
  | .iabs _ _ _ => 2
  | .iaddc _ _ _ _ => 2
  | .isubb _ _ _ _ => 2
  | .lea _ _ _ _ _ => 2
  | .andR _ _ _ _ => 2
  | .andI _ _ _ _ => 2
  | .and16 _ _ => 1
  | .orR _ _ _ _ => 2
  | .orI _ _ _ _ => 2
  | .or16 _ _ => 1
  | .xorR _ _ _ _ => 2
  | .xorI _ _ _ _ => 2
  | .xor16 _ _ => 1
  | .andn _ _ _ _ => 2
  | .shlR _ _ _ _ => 2
  | .shrR _ _ _ _ => 2
  | .sarR _ _ _ _ => 2
  | .shlI _ _ _ _ => 2
  | .shrI _ _ _ _ => 2
  | .sarI _ _ _ _ => 2
  | .shl16 _ _ => 1
  | .shr16 _ _ => 1
  | .sar16 _ _ => 1
  | .fshl _ _ _ _ => 2
  | .fshr _ _ _ _ => 2
  | .popc _ _ _ => 2
  | .clz _ _ _ => 2
  | .ctz _ _ _ => 2
  | .brev _ _ _ => 2
  | .prmt _ _ _ _ => 2
  | .bfx _ _ _ _ _ => 2
  | .bfi _ _ _ _ => 2
  | .icmpS _ _ _ _ _ => 2
  | .icmpU _ _ _ _ _ => 2
  | .fcmpF32 _ _ _ _ _ => 2
  | .fcmpF64 _ _ _ _ _ => 2
  | .fcmpF16 _ _ _ _ _ => 2
  | .fcmpBf16 _ _ _ _ _ => 2
  | .plog _ _ _ _ => 2
  | .movR _ _ _ => 2
  | .mov16 _ _ => 1
  | .nop16 => 1
  | .rdsr _ _ _ => 2
  | .wrsr _ _ => 2
  | .wrsrRbase _ => 2
  | .wrsrUivec _ => 2
  | .wrsrUipend _ => 2
  | .pack2 _ _ _ _ => 2
  | .unpk _ _ _ => 2
  | .sel _ _ _ _ _ => 2
  | .movi _ _ _ => 2
  | .movh _ _ _ => 2
  | .fadd _ _ _ _ _ => 2
  | .fadd16 _ _ => 1
  | .fsub _ _ _ _ _ => 2
  | .fsub16 _ _ => 1
  | .fmul _ _ _ _ _ => 2
  | .fmul16 _ _ => 1
  | .ffma _ _ _ _ _ => 2
  | .fmin _ _ _ _ _ => 2
  | .fmin16 _ _ => 1
  | .fmax _ _ _ _ _ => 2
  | .fmax16 _ _ => 1
  | .frcp _ _ _ _ => 2
  | .frsq _ _ _ _ => 2
  | .fsqrt _ _ _ _ => 2
  | .fex2 _ _ _ _ => 2
  | .flg2 _ _ _ _ => 2
  | .fsin _ _ _ _ => 2
  | .fcos _ _ _ _ => 2
  | .fcls _ _ _ _ => 2
  | .cvt _ _ _ _ _ _ => 2
  | .qnt _ _ _ _ _ _ => 2
  | .deq _ _ _ _ => 2
  | .shflGet _ _ _ _ => 2
  | .shflSlide _ _ _ _ => 2
  | .shflRot _ _ _ _ => 2
  | .shflXor _ _ _ _ => 2
  | .lbc _ _ _ => 2
  | .rfa _ _ => 2
  | .voteAll _ _ => 2
  | .voteAny _ _ => 2
  | .voteBallot _ _ => 2
  | .redxAdd _ _ => 2
  | .redxMin _ _ => 2
  | .redxMax _ _ => 2
  | .redxFadd _ _ => 2
  | .scanAdd _ _ => 2
  | .scanAddx _ _ => 2
  | .matchLanes _ _ => 2
  | .split _ => 2
  | .fuse _ => 2
  | .yield => 2
  | .bra _ => 2
  | .callRel _ => 2
  | .brc _ _ _ _ => 2
  | .brx _ => 2
  | .callReg _ => 2
  | .ret => 2
  | .exit => 2
  | .jseg _ _ _ => 2
  | .cfetch _ _ _ _ => 2
  | .ld _ _ _ _ _ => 2
  | .ldNa _ _ _ _ _ => 2
  | .ldAcqBlk _ _ _ _ _ => 2
  | .ldAcqDie _ _ _ _ _ => 2
  | .ldAcqPkg _ _ _ _ _ => 2
  | .ldAcqSys _ _ _ _ _ => 2
  | .st _ _ _ _ _ => 2
  | .stNa _ _ _ _ _ => 2
  | .stRelBlk _ _ _ _ _ => 2
  | .stRelDie _ _ _ _ _ => 2
  | .stRelPkg _ _ _ _ _ => 2
  | .stRelSys _ _ _ _ _ => 2
  | .stn _ _ _ => 2
  | .lds _ _ _ _ _ => 2
  | .sts _ _ _ _ _ => 2
  | .ldfeKeep _ _ _ _ => 2
  | .ldfeClr _ _ _ _ => 2
  | .stfe _ _ _ _ => 2
  | .stfeWe _ _ _ _ => 2
  | .atomAdd _ _ _ _ _ => 2
  | .atomMins _ _ _ _ _ => 2
  | .atomMaxs _ _ _ _ _ => 2
  | .atomMinu _ _ _ _ _ => 2
  | .atomMaxu _ _ _ _ _ => 2
  | .atomAnd _ _ _ _ _ => 2
  | .atomOr _ _ _ _ _ => 2
  | .atomXor _ _ _ _ _ => 2
  | .atomExch _ _ _ _ _ => 2
  | .atomCas _ _ _ _ _ => 2
  | .atomFadd _ _ _ _ _ => 2
  | .atomFmin _ _ _ _ _ => 2
  | .atomFmax _ _ _ _ _ => 2
  | .redAdd _ _ _ _ _ => 2
  | .redMins _ _ _ _ _ => 2
  | .redMaxs _ _ _ _ _ => 2
  | .redMinu _ _ _ _ _ => 2
  | .redMaxu _ _ _ _ _ => 2
  | .redAnd _ _ _ _ _ => 2
  | .redOr _ _ _ _ _ => 2
  | .redXor _ _ _ _ _ => 2
  | .redFadd _ _ _ _ _ => 2
  | .redFmin _ _ _ _ _ => 2
  | .redFmax _ _ _ _ _ => 2
  | .fenceFull _ => 2
  | .fenceAcq _ => 2
  | .fenceRel _ => 2
  | .fenceCompletion _ => 0
  | .pref _ _ => 2
  | .cacheWb _ _ => 2
  | .cacheInv _ _ => 2
  | .cacheWbinv _ _ => 2
  | .ljoin _ _ _ _ => 2
  | .ljoinStrict _ _ _ _ => 2
  | .lldt _ _ _ _ => 2
  | .lldtPoll _ _ _ _ => 2
  | .qcfgLoop _ _ _ => 2
  | .qcfgStrm _ _ => 2
  | .qcfgOff _ => 2
  | .strm _ _ _ _ => 2
  | .cpy _ _ _ _ => 2
  | .gath _ _ _ _ => 2
  | .scat _ _ _ _ => 2
  | .cpyMx _ _ _ _ => 2
  | .cpyUnmx _ _ _ _ => 2
  | .apnd _ _ _ _ => 2
  | .apndDur _ _ _ _ => 2
  | .apndSync _ _ _ _ => 2
  | .send _ _ _ _ => 2
  | .recv _ _ _ _ => 2
  | .wait _ _ _ _ _ => 2
  | .waitm _ _ => 2
  | .gset _ _ => 2
  | .barArrive _ => 2
  | .barWait _ => 2
  | .barSync _ => 2
  | .cbar _ => 2
  | .mfmt _ _ => 2
  | .mrun _ _ => 2
  | .sequencerRunStart _ => 0
  | .nop => 2
  | .sysc _ _ _ => 2
  | .syscReply _ _ => 0
  | .trap _ => 2
  | .uimask _ _ => 2
  | .uiret => 2
  | .emret => 2
  | .mma _ _ _ _ _ => 2
  | .mzero _ _ => 2
  | .mdrain _ _ _ _ _ => 2
  | .mloop _ _ => 2
  | .mbar _ => 2
  | .mbarArrive _ => 2
  | .mend _ => 2
  | .multicastDelivery _ _ => 0
  | .drainStaging _ => 0
  | .stagingUnitWrite _ => 0
  | .ksubmit _ _ _ => 2
  | .kuiret => 2
  | .kuipendAccess _ _ _ _ => 0
  | .registerWrite _ _ _ => 0
  | .hostUiEntry _ => 0
  | .launchNow _ => 0
  | .bindTask _ => 0
  | .unbindTask _ => 0
  | .blockPlacement => 0
  | .blockFinish _ => 0
  | .launchEnd _ => 0
  | .fragmentWaitExpiry _ _ => 0
  | .activeSetAdmission _ _ => 0
  | .admissionTimeout _ _ => 0
  | .ctimeTick _ => 0
  | .horizonWaitRelease _ => 0
  | .timestampSweep _ => 0
  | .stackRead _ _ _ => 0
  | .stackRenewal _ _ _ => 0
  | .grantInstall _ => 0
  | .stackWrite _ => 0
  | .engineStackWrite _ _ => 0
  | .stackFill _ _ => 0
  | .stackEviction _ _ => 0
  | .ownershipRequest _ _ => 0
  | .invalidatingProbe _ _ => 0
  | .memoryOpCompletion _ _ => 0
  | .engineCommandCompletion _ _ => 0
  | .engineFrameBoundary _ _ => 0
  | .streamEntryDelivery _ _ => 0
  | .codeSlotLanding _ _ => 0
  | .recordAcceptance _ _ => 0
  | .recordDurable _ => 0
  | .trapHandlerEntry _ _ => 0
  | .interruptEntry _ _ => 0
  | .uiTimerExpiry _ => 0
  | .waitmReread _ _ => 0
  | .faultRingWaitRelease _ => 0
  | .firnDataArrival _ => 0
  | .peerAccessRequest _ _ => 0
  | .peerAccessTimeout _ _ => 0
  | .networkPacketPlacement _ _ _ _ _ => 0
  | .packetRetransmission _ _ => 0
  | .peerNotReadyRetry _ _ => 0
  | .sendAckTimeout _ _ => 0
  | .serviceEcho _ => 0
  | .invalidationRequest _ => 0
  | .invalidationCompletion _ => 0
  | .faultResolve _ => 0
  | .preempt _ => 0
  | .coreHalt _ => 0
  | .saveImageWrite _ => 0
  | .restore _ => 0
  | .restorePlacement _ => 0
  | .openLog _ => 0
  | .closeLog _ => 0
  | .hostAppend _ => 0
  | .driftControl _ => 0
  | .openMailboxWindow _ => 0
  | .closeWindow _ => 0
  | .remapDone _ => 0
  | .submitLaunch _ => 0
  | .asidTeardown _ => 0
  | .bindQueue _ => 0
  | .expertPowerCap _ => 0
  | .expertReplanningPeriod _ => 0
  | .expertEscalationThreshold _ => 0
  | .expertIslandOperatingPoint _ => 0
  | .bindNvmeQueuePair _ => 0
  | .unbindNvmeQueuePair _ => 0
  | .driveTransfer _ _ _ _ _ => 0
  | .rollback _ => 0
  | .launchReplay _ => 0
  | .linkRetryExhausted _ => 0
  | .scrubPass _ _ => 0
  | .frameRetirement _ _ _ => 0
  | .migrationLineMove _ => 0
  | .snapshotCopy _ _ => 0
  | .clusterRetirement _ _ => 0
  | .escalationThreshold _ _ => 0
  | .oscillatorSample _ _ => 0
  | .replanningWindow _ _ _ => 0
  | .windowMissed _ => 0
  | .uncoreCanarySweep _ _ _ => 0
  | .driftExchangeStep _ => 0
  | .garbageCollection _ _ _ => 0
  | .eventRingDeferredWrite => 0
  | .powerCapControl _ _ => 0
  | .boot => 0
  | .powerLoss => 0
  | .kBlockEnd _ => 0
  | .hostCoreAccess _ _ _ _ _ _ => 0
  | .externalHostAccess _ _ => 0

/-- The halfwords of an instruction, first halfword first (R79). -/
def encode (i : Instr) : List Nat :=
  let w := encodeWord i
  match i.halfwords with
  | 0 => []
  | 1 => [w]
  | _ => [w % 0x10000, w / 0x10000]

/-- The instruction the decoders read from a word of `nbits` bits, numbered as spec/opcode_table.json numbers it; the
bits above `nbits` are zero. A floe word first; a word whose major is a matrix stream major is read as the sequencer
reads it. `kuiret` has one word, all of whose bits are fixed: the host die's harts read it, and here that row has it. -/
def decodeTableWord (nbits w : Nat) : Option Instr :=
  let v := w % 2 ^ nbits % 0x100000000
  if v = 0x100B then decodeHost v
  else match decode [v % 0x10000, v / 0x10000] with
  | .ok (i, _) => some i
  | .error 3 => decodeMatrix v
  | .error _ => none

end Sys2Proof
end

