-- ==== Sys2Proof/Machine/State.lean ====
section
/-!
DEFINITION. The state of one AUB-DL960 package as plain data, and `State.reset`. Field by field the rules that name it
are in INVENTORY.md; where the spec gives no reset value the value is log entry 2's.
-/
namespace Sys2Proof.Machine

/-! ## Floes and fragments -/

/-- The states of a floe slot (R45). -/
inductive FloeState where
  | reserved | ready | active | waiting | parked | preempted | retired
  deriving DecidableEq, Repr

/-- What a fragment stands waiting in (R45, R266). -/
inductive WaitFor where
  | none
  /-- `WAIT` (R174). -/
  | counters
  /-- `WAITM` (R176): the address and threshold captured at issue. -/
  | memory (va limit : W64)
  /-- `LLDT` (R248). -/
  | lattice
  /-- a pop from a stream-fed queue with no entry yet (R76). -/
  | pop
  /-- `LDFE`, `STFE.WE` (R394, R444). -/
  | granules
  /-- `BAR.WAIT`, `BAR.SYNC` of barrier n (R343). -/
  | bar (n : Nat)
  /-- `MFMT` at barrier n (R157). -/
  | vote (n : Nat)
  /-- `CBAR` at cohort c (R353). -/
  | cohort (c : Nat)
  /-- `MRUN` for the block sequencer (R141). -/
  | mrun
  /-- `FUSE` for its buddy (R53). -/
  | fuse
  /-- `SPLIT` for its counters: the core splits as they reach zero (R51, R266). -/
  | split
  /-- older operations of an instruction that has not issued: the loads counter of `QCFG` (R418), the record of a return, the operations
  before a call. -/
  | drainCounters
  /-- `SYSC` for its reply (R303). -/
  | sysc
  /-- the hold of `APND.SYNC` (R338). -/
  | appendSync
  /-- an acquire, release or fence orders the instruction (R232, R375). -/
  | order
  /-- a write behind a `FENCE.REL` that has not completed (R375, R376). -/
  | rel
  /-- a counter at its limit, an engine or stream table without room (R171, R177, R445). -/
  | room
  /-- a synchronous cause that has not entered the handler yet (R46, R262, R268; `Floe.due`). -/
  | trap
  deriving DecidableEq, Repr

/-- One deferred group of a fragment's mask stack (R23). -/
structure StackEntry where
  pc   : BitVec 18
  mask : Mask
  deriving DecidableEq, Repr

/-- What a threshold read that parked has still to do (R201): the lanes not performed yet, and the lowest lane with another cause, which
is reported after the parking. -/
structure Unfinished where
  lanes : Mask
  hard  : Option (Nat × BitVec 8 × W64)
  deriving DecidableEq, Repr

/-- An independently scheduled part of a floe (R22 to R26); `rb` is the `RBASE` that an instruction which waits resolved its
registers with at issue (R67), `left` what an `LLDT` or `LLDT.POLL` that parked has still to do (R201). -/
structure Fragment where
  /-- the model's name for the fragment within its floe -/
  id        : Nat
  pc        : BitVec 18
  active    : Mask
  stack     : List StackEntry
  waitCount : Nat
  /-- fragments that issue before this one issues again after its `YIELD` (R26) -/
  owes      : List Nat
  wait      : WaitFor
  /-- a handler fragment (R262) -/
  handler   : Bool
  rb        : Option (BitVec 9)
  left      : Option Unfinished
  deriving DecidableEq, Repr

/-- The modes of a queue register (R74). -/
inductive QueueMode where
  | off | loop | stream
  deriving DecidableEq, Repr

/-- A queue register as `QCFG` set it (R74, R418); `stream` names the stream that feeds it, and `tag` the `QCFG.STRM` or
`STRM` that last bound it, so that floes of one split share it (R53 check 6). -/
structure QueueCfg where
  mode   : QueueMode
  port   : Nat
  depth  : Nat
  stream : Option Nat
  tag    : Nat
  deriving DecidableEq, Repr

/-- Where a lane's access goes once its address is translated. -/
inductive Place where
  /-- not translated: cause 0x01 holds the lane (R201) -/
  | absent
  /-- translated to a firn line that the storage processor holds (R206): cause 0x05 holds the lane -/
  | firn (pa : Nat) (key : Nat) (nc : Bool)
  /-- physical memory, with the translation's key slot, and nc (R194) -/
  | phys (pa : Nat) (key : Nat) (nc : Bool)
  /-- a register of a thread through the aperture (R68): byte offset in the block's register allocation -/
  | regs (off : Nat)
  /-- a cell of a lattice region (R244) -/
  | cell (pa : Nat) (ltype : Nat)
  /-- a peer package (R214) -/
  | peer (number : Nat) (va : Nat)
  deriving DecidableEq, Repr

/-- One lane of a memory operation. `data` is what it writes or joins, `cmp` the compared value of `.CAS`, `hi` selects
the upper nibble (R83). -/
structure LaneAcc where
  lane  : Nat
  va    : W64
  place : Place
  data  : BitVec 128
  cmp   : W64
  hi    : Bool
  done  : Bool
  deriving DecidableEq, Repr

/-- The three line operations of R350. -/
inductive CacheOp where
  | wb | inv | wbinv
  deriving DecidableEq, Repr

/-- What an outstanding memory operation does. -/
inductive OpKind where
  | load
  | store
  | nibble
  | atom (op : AtomOp)
  | red (op : AtomOp)
  | cache (op : CacheOp)
  | join
  | joinStrict
  deriving DecidableEq, Repr

/-- Where a load or atomic binds its result. -/
inductive Dest where
  | none
  | vec (reg : Nat)
  | uni (s : Nat)
  deriving DecidableEq, Repr

/-- An outstanding memory operation of a floe (R171, R172). `size` is in bytes, 0 for a nibble; `time` is the core's `CTIME`
at issue, `rise` the time to which the lines that have answered raise it once every line has (R323). -/
structure MemOp where
  seq       : Nat
  cls       : OpClass
  kind      : OpKind
  size      : Nat
  lanes     : List LaneAcc
  dest      : Dest
  acquire   : Bool
  scope     : Nat
  noAlloc   : Bool
  time      : BitVec 16
  rise      : Option (BitVec 16)
  deriving DecidableEq, Repr

/-- A translation held by a core (R198) or, of one 64 KiB frame, by an engine (R200): the address space, the first VA, the length, the
entry and the first PA. -/
structure Xlat where
  asid : Nat
  va   : Nat
  len  : Nat
  attr : W64
  pa   : Nat
  deriving DecidableEq, Repr

/-- The engine commands (R177, R208, R309). -/
inductive EngKind where
  | cpy | gath | scat | cpyMx | cpyUnmx | cfetch | apnd | apndDur | apndSync | send | recv
  deriving DecidableEq, Repr

/-- How far a guard lets a command go (R184). -/
inductive GuardState where
  | free | held | discarded
  deriving DecidableEq, Repr

/-- An engine command with its captured operands (R177). `progress` counts the elements, rows or bytes moved; `pausedAt`
is the address of an absent frame (R179); `seqNo` is the record number given at acceptance (R210), `windowNo` the window a `RECV` opened,
`notify` the request's bit (R309), `shape` the shape record or work request as it was read and checked before anything moved (R357, R457),
`held` the translations of the frames that it stands in (R199, R200). -/
structure EngCmd where
  seq       : Nat
  kind      : EngKind
  cls       : OpClass
  req       : W64
  coords    : List W64
  ctr       : Option W64
  guard     : Nat
  guardSt   : GuardState
  progress  : Nat
  pausedAt  : Option W64
  seqNo     : Option Nat
  windowNo  : Option Nat
  notify    : Bool
  shape     : Option (BitVec 512)
  held      : List Xlat
  finished  : Bool
  deriving DecidableEq, Repr

/-- A cause reported to a floe by an engine or the sequencer (R257, R179, R91). -/
structure Report where
  cause : BitVec 8
  faddr : W64
  illop : W64
  illf0 : W64
  illf3 : W64
  deriving DecidableEq, Repr

/-- A synchronous cause of a fragment that has not entered the handler yet (R46, R262, R268): the fields of `enterTrap`. -/
structure Due where
  frag  : Nat
  cause : Nat
  faddr : W64
  skip  : Bool
  ill   : Option (W64 × W64 × W64 × W64 × W64)
  deriving DecidableEq, Repr

/-- What a discard of a speculative window puts back (R238): the registers, predicates and poison marks that the window's instructions
have changed, as they were, and the fragments and the stochastic sequence as they stood at the fence. -/
structure SavedRegs where
  sregs  : Tab W64
  vregs  : Tab W32
  preds  : Tab Bool
  bad    : Tab Bool
  frags  : List Fragment
  stoch  : W32
  deriving DecidableEq, Repr

/-- A line recorded by a speculative window (R238): the version that the window read, and whether the line has changed since. -/
structure WinLine where
  line    : Nat
  wts     : BitVec 16
  changed : Bool
  deriving DecidableEq, Repr

/-- An acquire or full fence that has not completed, with its speculative window (R237, R238). `lines` lists the recorded
lines, `touched` the fragments that have issued in the window. -/
structure Fence where
  full   : Bool
  scope  : Nat
  before : Nat
  frag   : Nat
  open_  : Bool
  count  : Nat
  lines  : List WinLine
  touched : List Nat
  saved  : SavedRegs
  deriving DecidableEq, Repr

/-- A floe parked at a replayable instruction (R201): the operation (its outstanding twin has the same seq; no lanes mean
that the instruction repeats), the fragment, whether cause 0x05 alone holds it, the lowest lane with another cause, reported
when the parking ends, the queue entries (thread and queue) that the instruction pops when it retires (R75, R256), and, where it repeats, the VAs at
which cause 0x05 holds it (R199). -/
structure Parked where
  op    : MemOp
  frag  : Nat
  firn  : Bool
  hard  : Option (Nat × BitVec 8 × W64)
  pops  : List (Nat × Nat)
  held  : List Nat
  deriving DecidableEq, Repr

/-- A request to the host by `SYSC` (R303). -/
structure SyscReq where
  frag  : Nat
  num   : W64
  args  : List W64
  sd    : Nat
  bad   : Bool
  reply : Option (Nat × W64)
  deriving DecidableEq, Repr

/-- A floe (R20); `recs` holds the addresses of its live call records (R260). -/
structure Floe where
  width     : Nat
  base      : Nat
  st        : FloeState
  frags     : List Fragment
  nextFrag  : Nat
  live      : Mask
  sregs     : Tab W64
  guards    : BitVec 16
  rbase     : BitVec 9
  epc       : BitVec 18
  fcause    : BitVec 8
  faddr     : W64
  illop     : W64
  illf0     : W64
  illf1     : W64
  illf2     : W64
  illf3     : W64
  uivec     : W64
  uipend    : BitVec 3
  uepc      : BitVec 18
  umask     : BitVec 3
  timerAt   : W64
  fmtvote   : W32
  fusest    : W64
  stoch     : W32
  floor     : BitVec 16
  tile      : Nat
  ops       : List MemOp
  cmds      : List EngCmd
  opSeq     : Nat
  queues    : Tab QueueCfg
  standing  : BitVec 16
  cstanding : List Nat
  reports   : List Report
  due       : List Due
  recs      : List W64
  fence     : Option Fence
  rels      : List Nat
  parked    : Option Parked
  syscs     : List SyscReq
  age       : Nat
  readyAt   : Nat
  activeAt  : Nat
  expired   : List Nat
  hold      : Bool
  deriving DecidableEq, Repr

/-! ## Blocks -/

/-- A numbered barrier's phase (R42, R43) with the votes cast in it (R157): floe, fragment and the words of its lanes. -/
structure Barrier where
  count  : Nat
  votes  : List (Nat × Nat × List W32)
  deriving DecidableEq, Repr

/-- A running affine stream (R185, R186): its descriptor, offset, the block lane its lane 0 is, its next entry, and the VA at
which cause 0x01 pauses it; delivered elements stand in their threads' queue entries. `ctr` stands until it has gained its 1 (R446), `held` are the translations of the frames of its entries (R200). -/
structure Stream where
  queue    : Nat
  desc     : BitVec 512
  offset   : W64
  ctr      : Option W64
  guard    : Nat
  guardSt  : GuardState
  base     : Nat
  width    : Nat
  next     : Nat
  ended    : Bool
  failed   : Option Report
  paused   : Option Nat
  held     : List Xlat
  deriving DecidableEq, Repr

/-- One waiter on scratchpad granules (R78): floe, fragment, granules, and whether it waits for empty ones. -/
structure GranuleWait where
  floe      : Nat
  frag      : Nat
  granules  : List Nat
  wantEmpty : Bool
  deriving DecidableEq, Repr

/-- An entry of a queue: its value, the backing register that holds it, counted from the port's successor (a stream's entries have
none), and whether it is poisoned (R74, R277, R419). -/
structure QEntry where
  v    : W32
  slot : Option Nat
  bad  : Bool
  deriving DecidableEq, Repr

/-- A queue of one thread (R75): its entries, oldest first, and what its backing registers without an entry hold, with their poison,
where that has changed since the queue was switched on (R419). -/
structure ThreadQueue where
  ents : List QEntry
  idle : Tab (W32 × Bool)
  deriving DecidableEq, Repr

/-- A block (R27) with its threads' registers (R63, by word index), predicates (by thread x 8 + number), queues
(by thread x 16 + queue), scratchpad and barriers; `layout` is the quadrant and first slot of each launch
floe (R48). -/
structure Block where
  launch    : Nat
  id        : Nat
  core      : Nat
  pos       : Nat
  floes     : Nat
  width     : Nat
  maxsplit  : Nat
  nregs     : Nat
  spadKiB   : Nat
  layout    : List (Nat × Nat)
  vregs     : Tab W32
  preds     : Tab Bool
  qents     : Tab ThreadQueue
  spad      : Tab Byte
  full      : Tab Bool
  waiters   : List GranuleWait
  bars      : Tab Barrier
  fmtSlot   : W32
  drains    : W32
  streams   : Tab Stream
  nextStrm  : Nat
  badRegs   : List Nat
  badSpad   : List Nat
  finished  : Bool
  deriving DecidableEq, Repr

/-! ## Cores -/

/-- The states of a code-store slot (R187). -/
inductive SlotState where
  | empty | landing | landed
  deriving DecidableEq, Repr

/-- A code-store slot: 4096 bytes, with its landed length in bytes (R187), its poisoned bytes (R277), and the code fetches to it that have
not completed, by floe and command, in the order of their issue (R355). -/
structure CodeSlot where
  st    : SlotState
  len   : Nat
  bytes : Tab Byte
  bad   : List Nat
  fetches : List (Nat × Nat)
  deriving DecidableEq, Repr

/-- An L1 copy of a line (R216), with its poisoned words (R277) and the key slot it was read under (R215). -/
structure L1Line where
  data : Line
  wts  : BitVec 16
  rts  : BitVec 16
  gts  : BitVec 16
  poison : BitVec 32
  key  : Nat
  deriving DecidableEq, Repr

/-- A grant on its way from the cache stack to a core (R221); `fresh` holds data, otherwise the reply is "unchanged". -/
structure Grant where
  line  : Nat
  fresh : Option Line
  poison : BitVec 32
  wts   : BitVec 16
  rts   : BitVec 16
  key   : Nat
  deriving DecidableEq, Repr

/-- One K-block of an operand (R146, R147): its 128 lines as packed numbers, each line's scales, and whether a word of it is
poisoned; `count` is the K-block count of the `MMA` it is fetched for and `kb` its own index (R149). An `MMA` that names one multicast
descriptor for A and for B makes one delivery: `twin` is what B's format reads of it. -/
structure KBlock where
  count  : Nat
  kb     : Nat
  lines  : List Nat
  scales : List (List Nat)
  bad    : Bool
  twin   : Option (List Nat × List (List Nat))
  deriving DecidableEq, Repr

/-- An `MMA` that has issued (R458): the format word read when it began, the iteration indices, its operand descriptors and
their numbers, its next K-block, and the K-blocks it has fetched for multicast groups (R149). -/
structure Issued where
  blk    : Nat
  tile   : Nat
  acc    : Bool
  da     : Nat
  db     : Nat
  ea     : BitVec 256
  eb     : BitVec 256
  n      : Nat
  kb     : Nat
  fmt    : W32
  iters  : List Nat
  fa     : Nat
  fb     : Nat
  deriving DecidableEq, Repr

/-- An accumulator tile (R72, R165): elements by row x 128 + column, row checksums c and m, drains that hold it; where
`seed` is given, an unlisted value is free (R143, log entry 4); `bad` lists the poisoned elements (R276). -/
structure Tile where
  elems  : Tab W32
  c      : Tab W32
  m      : Tab W32
  held   : Nat
  seed   : Option Nat
  bad    : List Nat
  deriving DecidableEq, Repr

/-- A drain that has begun (R162): the block, floe, run and word it comes from, its descriptors and column vectors (R159, R160), and how
often it has repeated (R166). -/
structure Drain where
  blk     : Nat
  floe    : Nat
  run     : Nat
  tile    : Nat
  wordVa  : W64
  release : Bool
  out     : BitVec 256
  scale   : Option (BitVec 256)
  epi     : BitVec 256
  sv      : List W32
  bv      : List W32
  fmt     : W32
  iters   : List Nat
  c1      : W32
  repeats : Nat
  deriving DecidableEq, Repr

/-- One write of a staging unit: scratchpad or virtual memory, address, bytes. -/
structure StageWrite where
  spad  : Bool
  addr  : Nat
  bytes : List Byte
  deriving DecidableEq, Repr

/-- A unit of drain staging (R162, R164): its writes and each row's carried checksum, where the row has one; `paused` while
cause 0x01 holds it (R163), `bad` when it holds poison (R276). -/
structure StageUnit where
  job    : Drain
  writes : List StageWrite
  sums   : List (Option W32)
  paused : Bool
  bad    : Bool
  deriving DecidableEq, Repr

/-- A run of the block sequencer (R140 to R142, R167). `table` holds the 64 entries, `l` the loop counters, `arrived` the
barriers at which the sequencer has arrived in their current phases, `standing` an `MBAR` whose arrival has taken effect
and whose phase has not completed, `held` an `MMA` whose first K-block has not begun (R458), `paused` a fetch that cause
0x01 holds (R400), `wrote` the lines of memory that its drains have written since its last arrival (R154). -/
structure Run where
  id        : Nat
  blk       : Nat
  floe      : Nat
  pc        : W64
  table     : Tab (BitVec 256)
  l         : List (BitVec 16)
  arrived   : BitVec 16
  standing  : Option Nat
  held      : Bool
  paused    : Bool
  wrote     : List Nat
  deriving DecidableEq, Repr

/-- A core (R13). `mruns` holds the `MRUN`s that wait, `mcast` the multicast deliveries by launch x 64 + descriptor number (R8, R149), `ending` the ended
runs (number and floe) with drains not yet written (R142). -/
structure Core where
  ctime     : BitVec 16
  heldTicks : Nat
  l1        : Tab L1Line
  grants    : List Grant
  slots     : Tab CodeSlot
  run       : Option Run
  nextRun   : Nat
  ending    : List (Nat × Nat)
  mruns     : List (Nat × Nat × W64 × W64)
  engine    : List Issued
  mcast     : Tab (List KBlock)
  tiles     : Tab Tile
  drain     : Option Drain
  staging   : List StageUnit
  pages     : List Xlat
  ranges    : List Xlat
  lastLaunch : Nat
  haltReq   : Bool
  halted    : Bool
  deriving DecidableEq, Repr

/-! ## Dies, homes, memory -/

/-- A line of a die's cache stack (R216, R226 to R228), with its poisoned words (R277) and key slot (R215, R275). -/
structure StackLine where
  data   : Line
  wts    : BitVec 16
  rts    : BitVec 16
  owned  : Bool
  dirty  : Bool
  poison : BitVec 32
  key    : Nat
  deriving DecidableEq, Repr

/-- A coherence agent (R14, R226): a compute die (R12) with its cluster map (logical to physical), cache stack and stack time, or a
host cluster (4 to 11), whose `stack` holds its lines of the host die's shared cache, or the I/O agent (12), which keeps none. -/
structure Die where
  map     : List Nat
  stack   : Tab StackLine
  stime   : BitVec 16
  swept   : BitVec 16
  inLink  : Bool
  deriving DecidableEq, Repr

/-- A home directory entry for a 512-byte region (R226). -/
structure DirEntry where
  sharers : BitVec 13
  owner   : Option Nat
  deriving DecidableEq, Repr

/-- A migration table entry (R213): source and destination frames and the progress pointer. -/
structure Migration where
  src : Nat
  dst : Nat
  ptr : Nat
  deriving DecidableEq, Repr

/-- A frame retirement under way (R280): its step. -/
structure Retirement where
  src    : Nat
  dst    : Nat
  reason : Nat
  stage  : Nat
  deriving DecidableEq, Repr

/-- A frame's copy in the snapshot pool (R283, R284), with its poisoned words (R277). -/
structure Snapshot where
  launch : Nat
  frame  : Nat
  bytes  : Tab Byte
  bad    : List Nat
  deriving DecidableEq, Repr

/-! ## Launches and the command processor -/

/-- How far a launch has come; `rolledBack` is being undone (R287), `toReplay` waits to be placed again (R288). -/
inductive LaunchPhase where
  | queued | running | halting | rolledBack | toReplay | ended
  deriving DecidableEq, Repr

/-- A line of a lattice replica (R241, R243): the cells, or the base values of GCOUNT, and GCOUNT slots by
cell x 4 + die; `poison` marks its poisoned words (R277). -/
structure Replica where
  data  : Line
  ltype : Nat
  slots : Tab W32
  poison : BitVec 32
  deriving DecidableEq, Repr

/-- A launch (R29 to R35). `replicas` is keyed by die x 2^46 + line address, `soiled` lists the words (PA / 4) of base copies that were written
while the launch accessed their region (R255, log entry 17),
`snapSet` lists the frames of the armed snapshot set (R283, R284), `driftStep` counts the steps of its drift exchange (R252), `badImage` lists
the poisoned bytes of its entry segment, and `badParams` says that a parameter or its cohort table was read poisoned (R277). -/
structure Launch where
  id        : Nat
  desc      : BitVec 1024
  image     : Tab Byte
  params    : List W64
  cohorts   : List (BitVec 512)
  phase     : LaunchPhase
  accepted  : Nat
  placed    : Nat
  finished  : List Nat
  cause     : BitVec 8
  causeBlk  : Option Nat
  status    : Nat
  replay    : Bool
  rollbacks : Nat
  staged    : List Nat
  replicas  : Tab Replica
  soiled    : List Nat
  cohPhase  : Tab (List Nat)
  armed     : Bool
  snapSet   : List Nat
  drift     : W32
  driftStep : Nat
  dies      : List Nat
  wrotePeer : Bool
  badImage  : List Nat
  badParams : Bool
  deriving DecidableEq, Repr

/-- A task binding (R36): the mailbox and the descriptor bound to it. -/
structure Binding where
  asid    : Nat
  mailbox : Nat
  desc    : BitVec 1024
  deriving DecidableEq, Repr

/-- A submission queue (R298, R299), with its submission page of the process's pages (R298, R304). -/
structure SubQueue where
  asid      : Option Nat
  depth     : Nat
  seq       : BitVec 48
  items     : List (BitVec 1024)
  suspended : Bool
  page      : Nat
  deriving DecidableEq, Repr

/-- A pending invalidation request (R199). -/
structure InvReq where
  asid : Nat
  va   : Nat
  len  : Nat
  ctr  : W64
  deriving DecidableEq, Repr

/-- The saved image of one core (R270 to R272). -/
structure CoreImage where
  launch : Nat
  core   : Nat
  size   : Nat
  image  : Core
  blocks : Tab Block
  floes  : Tab Floe
  deriving DecidableEq, Repr

/-! ## I/O die and host die -/

/-- A record of a log (R209 to R211): its seq, offset in the extent, total bytes, the replayable launch that staged it,
whether it stands in flash, and which of its bytes are poisoned (R277). -/
structure LogRec where
  seq    : Nat
  off    : Nat
  bytes  : List Byte
  stager : Option Nat
  flash  : Bool
  bad    : List Nat
  deriving DecidableEq, Repr

/-- A rime log (R207): its extent (PA and length, and the key slot of its translation, R215), tails in bytes, and accepted records not
yet durable or committed. -/
structure Log where
  asid    : Nat
  pa      : Nat
  len     : Nat
  nextSeq : Nat
  nextOff : Nat
  commit  : Nat
  commitSeq : Nat
  durable : Nat
  stager  : Option Nat
  recs    : List LogRec
  key     : Nat
  deriving DecidableEq, Repr

/-- A receive window (R310): buffer VA, length, the launch and command that opened it, the bytes placed, the ranges (offset and bytes)
that have been written at least once, whether it is a mailbox window, whether the run that opened it was rolled back,
and the tag of the packet that came last (R309). -/
structure RecvWindow where
  asid    : Nat
  va      : Nat
  len     : Nat
  idem    : Bool
  mailbox : Bool
  launch  : Nat
  floe    : Nat
  cmd     : Nat
  placed  : Nat
  units   : List (Nat × Nat)
  orphan  : Bool
  tag     : W64
  deriving DecidableEq, Repr

/-- A packet on its way to a peer (R308, R311), with its tag (R309) and the floe and command it belongs to. -/
structure Packet where
  peer   : Nat
  window : Nat
  asid   : Nat
  off    : Nat
  idem   : Bool
  data   : List Byte
  floe   : Nat
  seq    : Nat
  tag    : W64
  deriving DecidableEq, Repr

/-- The exceptions of a host hart that this manual names (R299, R301, R306); their entry is RVA23's. -/
inductive HostExc where
  | storeAccess | loadMisaligned | loadAccess | illegal | hardwareError
  deriving DecidableEq, Repr

/-- A host hart (R299, R301): integer registers, pc, U-mode, the address space of its process (R304), the CSRs of R301, and the
last exception raised. -/
structure Hart where
  x       : Tab W64
  pc      : W64
  user    : Bool
  asid    : Nat
  kuirecv : BitVec 13
  kuien   : Bool
  kuivec  : W64
  kuiepc  : W64
  exc     : Option HostExc
  deriving DecidableEq, Repr

/-- An NVMe queue pair binding (R304, R312). -/
structure NvmeBind where
  port  : Nat
  drive : Nat
  qp    : Nat
  asid  : Nat
  deriving DecidableEq, Repr

/-- A voltage and frequency island (R16, R292 to R294, R316): offset in mV, planned frequency in percent of nominal, the percents
that the power cap takes off it, the fixed offset of expert control 3, the samples and the baseline of its 32 oscillators,
the margins of its 16 canary paths in mV as they were last measured, and whether it is powered off. -/
structure Island where
  offset   : Int
  freq     : Nat
  cut      : Nat
  fixed    : Option Int
  samples  : List Nat
  baseline : List Nat
  canaries : List Nat
  off      : Bool
  deriving DecidableEq, Repr

/-- Physical errors still to come (R138, R166, R276): the model's own input. The drain's and the shadow unit's wait for the check they
fail; the others strike at the next turn. -/
inductive Upset where
  /-- the main result of a lane comes out with these bits flipped, and so again at the replay (R137, R138) -/
  | shadow (core lane : Nat) (flip again : W32)
  | drainEntry (core : Nat) | drainScale (core : Nat) | drainAct (core : Nat) | drainQuant (core : Nat)
  | drainWrite (core : Nat)
  /-- an error that a structure of a core corrects -/
  | corrected (core : Nat)
  /-- a register word of a block -/
  | register (blk word : Nat)
  /-- a scratchpad word of a block -/
  | spad (blk word : Nat)
  /-- an L1 line of a core -/
  | l1 (core line : Nat)
  /-- an element of an accumulator tile -/
  | tile (core tile elem : Nat)
  /-- a unit of drain staging -/
  | staging (core unit : Nat)
  /-- a word of a code-store slot -/
  | code (core slot word : Nat)
  /-- a code-store line that was fetched ahead of issue (R189) -/
  | ahead (core : Nat)
  /-- a replica line on the shelf of a launch -/
  | shelf (launch key : Nat)
  /-- a firn line, as it is delivered -/
  | firn (line : Nat)
  /-- a line of a die's cache stack -/
  | stack (die line : Nat)
  /-- a line of a DRAM tier; `corrects` says that its code corrects the error -/
  | dram (line : Nat) (corrects : Bool)
  /-- the test that finds a failed pin, bank or other part: the reason code of R281 and every frame that it covers (R279) -/
  | failed (reason : Nat) (frames : List Nat)
  deriving DecidableEq, Repr

/-- What a peer package answers to an access (R214): its bytes, that its translation is not present, another cause of its own, or nothing
for 100 ms. The model's own input. -/
inductive PeerAns where
  | value (v : BitVec 128)
  | absent
  | cause (c : BitVec 8)
  | silent
  deriving DecidableEq, Repr

/-! ## The agenda -/

/-- One turn of an agent: a fragment issues, or issues as a request of pre-emption that the command processor has taken reaches its core (R46,
R269), a sequencer takes a word, a host hart executes a word, the host's own software gives a hart a process to run in U-mode (R301, R302) or
leaves frames of DRAM to firmware (R280, log entry 59), or another step of the table comes about. -/
inductive Turn where
  | issue (f frag : Nat)
  | issueHalt (f frag : Nat)
  | sequencer (core : Nat)
  | hart (h : Nat) (word : W32)
  | process (h asid : Nat) (user : Bool) (pc : W64)
  | frames (frs : List Nat)
  | event (i : Instr)
  deriving DecidableEq, Repr

/-- Who executes now: a floe (key) and its fragment, the core whose sequencer runs, the host hart; `halt` says that a pre-emption request
falls on the core's instruction (R46). -/
structure Cursor where
  floe : Nat
  frag : Nat
  core : Nat
  hart : Nat
  halt : Bool
  deriving DecidableEq, Repr

/-- The package. Cores are keyed by COREID, blocks by core x 16 + position, floes by block key x 256 + FLOEID, coherence agents
by their number (R14), of which a compute die's is its DIEID, harts, logs, windows, queues, islands by number. `recvLog` is the receiver's
completion log: the ASID, the window and the tag of the packet that filled it (R309, log entry 65). `counts` holds the times of the events of
R291, newest first, by core x 4 + row, `acted` how many of them there were when the row last acted. `keysLoaded` says that the boot has loaded
the 4096 key slots, whose keys no agent can read back (R215, R314, log entry 11). -/
structure State where
  agenda    : List Turn
  cur       : Cursor
  free      : Nat
  upsets    : List Upset
  peerIn    : List W64
  homeIn    : List PeerAns
  cycle     : W64
  time      : W64
  now       : Nat
  floes     : Tab Floe
  blocks    : Tab Block
  cores     : Tab Core
  dies      : Tab Die
  mem       : Tab Byte
  badWords  : List Nat
  memKeys   : Tab Nat
  dir       : Tab DirEntry
  rotor     : Tab Nat
  migrations : List Migration
  retiring  : List Retirement
  leaving   : List (Nat × Nat)
  snapshots : List Snapshot
  moraine   : List (BitVec 128)
  moraine2  : List (BitVec 128)
  frameErrs : Tab (List W64)
  firnHeld  : List Nat
  launches  : Tab Launch
  nextLaunch : Nat
  bindings  : List Binding
  subq      : Tab SubQueue
  mgmt      : List (BitVec 1024)
  invs      : List InvReq
  preempts  : List (Nat × List Nat)
  restores  : List Nat
  images    : List CoreImage
  evBacklog : List (BitVec 512)
  evDropped : Nat
  ringWaits : List (Nat × List (BitVec 512))
  drift     : W32
  logs      : Tab Log
  windows   : Tab RecvWindow
  recvLog   : List (Nat × Nat × W64)
  nvme      : List NvmeBind
  packets   : List Packet
  routes    : List Nat
  selfPeer  : Nat
  spare     : Tab Nat
  harts     : Tab Hart
  boot      : BitVec 1024
  booted    : Bool
  keysLoaded : Bool
  bootBad   : Bool
  islands   : Tab Island
  ageing    : List (BitVec 256)
  counts    : Tab (List W64)
  acted     : Tab Nat
  factors   : Tab Nat
  powerCap  : Nat
  replanH   : Nat
  replans   : List Nat
  corrected : Nat
  intDrops  : List (Nat × Nat)
  freePool  : List Nat
  condemned : List (Nat × Nat)
  deriving DecidableEq, Repr

/-! ## Why a step can stop -/

/-- Why the machine stops. -/
inductive Fault where
  /-- Raised by a turn while `bootBad` holds: R314 halts the boot after a failed step and reports it to the tray's
  management controller, which is outside the package. Safe. -/
  | bootHalted
  deriving DecidableEq, Repr

/-- Why an instruction has no meaning here. -/
inductive Refusal where
  /-- An instruction not reached yet, by its mnemonic in the opcode table. Safe. -/
  | notModelled (mnemonic : String)
  /-- Raised by a host hart's turn on a word other than `ksubmit` and `kuiret`: the RVA23 instructions are not in this
  manual. Safe. -/
  | hostIsa (word : W32)
  deriving DecidableEq, Repr

/-! ## Reset -/

def Floe.reset : Floe where
  width := 16
  base := 0
  st := .reserved
  frags := []
  nextFrag := 0
  live := 0
  sregs := []
  guards := 0
  rbase := 0
  epc := 0
  fcause := 0
  faddr := 0
  illop := 0
  illf0 := 0
  illf1 := 0
  illf2 := 0
  illf3 := 0
  uivec := 0
  uipend := 0
  uepc := 0
  umask := 7
  timerAt := 0
  fmtvote := 0
  fusest := 0
  stoch := 0
  floor := 0
  tile := 0
  ops := []
  cmds := []
  opSeq := 0
  queues := []
  standing := 0
  cstanding := []
  reports := []
  due := []
  recs := []
  fence := none
  rels := []
  parked := none
  syscs := []
  age := 0
  readyAt := 0
  activeAt := 0
  expired := []
  hold := false

def Fragment.reset : Fragment := ⟨0, 0, 0, [], 0, [], .none, false, none, none⟩
def QueueCfg.reset : QueueCfg := ⟨.off, 0, 0, none, 0⟩
def Barrier.reset : Barrier := ⟨0, []⟩

def Block.reset : Block where
  launch := 0
  id := 0
  core := 0
  pos := 0
  floes := 1
  width := 16
  maxsplit := 16
  nregs := 8
  spadKiB := 0
  layout := []
  vregs := []
  preds := []
  qents := []
  spad := []
  full := []
  waiters := []
  bars := []
  fmtSlot := 0
  drains := 0
  streams := []
  nextStrm := 0
  badRegs := []
  badSpad := []
  finished := false

def CodeSlot.reset : CodeSlot := ⟨.empty, 0, [], [], []⟩
def Tile.reset : Tile := ⟨[], [], [], 0, none, []⟩

def Core.reset : Core where
  ctime := 0
  heldTicks := 0
  l1 := []
  grants := []
  slots := []
  run := none
  nextRun := 0
  ending := []
  mruns := []
  engine := []
  mcast := []
  tiles := []
  drain := none
  staging := []
  pages := []
  ranges := []
  lastLaunch := 0
  haltReq := false
  halted := false

def Die.reset : Die := ⟨upTo 12, [], 0, 0, true⟩
/-- The replica line that nothing has allocated. -/
def Replica.reset : Replica := ⟨0, 1, [], 0⟩
/-- The cache-stack line that nothing has filled. -/
def StackLine.reset : StackLine := ⟨0, 0, 0, false, false, 0, 0⟩
def DirEntry.reset : DirEntry := ⟨0, none⟩
def SubQueue.reset : SubQueue := ⟨none, 0, 0, [], false, 0⟩
def Hart.reset : Hart := ⟨[], 0, false, 0, 0, false, 0, 0, none⟩
/-- The oscillators' samples are zero until they are first measured, and the canaries' margins as well (log entry 2). -/
def Island.reset : Island := ⟨0, 100, 0, none, List.replicate 32 0, List.replicate 32 0, List.replicate 16 0, false⟩

/-- The package right after reset: nothing resident, no memory listed, not yet booted (log entry 2). -/
def State.reset : State where
  agenda := []
  cur := ⟨0, 0, 0, 0, false⟩
  free := 0
  upsets := []
  peerIn := []
  homeIn := []
  cycle := 0
  time := 0
  now := 0
  floes := []
  blocks := []
  cores := []
  dies := []
  mem := []
  badWords := []
  memKeys := []
  dir := []
  rotor := []
  migrations := []
  retiring := []
  leaving := []
  snapshots := []
  moraine := []
  moraine2 := []
  frameErrs := []
  firnHeld := []
  launches := []
  nextLaunch := 1
  bindings := []
  subq := []
  mgmt := []
  invs := []
  preempts := []
  restores := []
  images := []
  evBacklog := []
  evDropped := 0
  ringWaits := []
  drift := 0x3C
  logs := []
  windows := []
  recvLog := []
  nvme := []
  packets := []
  routes := []
  selfPeer := 0
  spare := []
  harts := []
  boot := 0
  booted := false
  keysLoaded := false
  bootBad := false
  islands := []
  ageing := []
  counts := []
  acted := []
  factors := []
  powerCap := 3800
  replanH := 168
  replans := []
  corrected := 0
  intDrops := []
  freePool := []
  condemned := []

end Sys2Proof.Machine
end

