-- ==== Sys2Proof/Machine/Access.lean ====
section
/-!
DEFINITION. Reading and writing the pieces of `State`: floes, fragments, blocks, cores, dies, launches, and the registers a
floe sees (R72), with what is hard-wired.
-/
namespace Sys2Proof.Machine

/-! ## Pieces -/

/-- The block key of a floe key. -/
def blockOf (f : Nat) : Nat := f / 256
/-- The core of a block key. -/
def coreOf (b : Nat) : Nat := b / 16
/-- The core of a floe key. -/
def floeCore (f : Nat) : Nat := coreOf (blockOf f)
/-- The compute die of a core (R14). -/
def dieOfCore (c : Nat) : Nat := c / 96
/-- The key of the floe at a block-lane base (R47). -/
def floeKey (b base : Nat) : Nat := b * 256 + base / 16

def State.floe (s : State) (f : Nat) : Floe := s.floes.getD f Floe.reset
def State.setFloe (s : State) (f : Nat) (x : Floe) : State := { s with floes := s.floes.put f x }
def State.updFloe (s : State) (f : Nat) (g : Floe → Floe) : State := s.setFloe f (g (s.floe f))
def State.block (s : State) (b : Nat) : Block := s.blocks.getD b Block.reset
def State.setBlock (s : State) (b : Nat) (x : Block) : State := { s with blocks := s.blocks.put b x }
def State.updBlock (s : State) (b : Nat) (g : Block → Block) : State := s.setBlock b (g (s.block b))
def State.core (s : State) (c : Nat) : Core := s.cores.getD c Core.reset
def State.setCore (s : State) (c : Nat) (x : Core) : State := { s with cores := s.cores.put c x }
def State.updCore (s : State) (c : Nat) (g : Core → Core) : State := s.setCore c (g (s.core c))
def State.die (s : State) (d : Nat) : Die := s.dies.getD d Die.reset
def State.setDie (s : State) (d : Nat) (x : Die) : State := { s with dies := s.dies.put d x }
def State.updDie (s : State) (d : Nat) (g : Die → Die) : State := s.setDie d (g (s.die d))

/-- A launch that is not there: everything absent, ended. -/
def Launch.reset : Launch :=
  { id := 0, desc := 0, image := [], params := [], cohorts := [], phase := .ended, accepted := 0, placed := 0,
    finished := [], cause := 0, causeBlk := none, status := 0, replay := false, rollbacks := 0, staged := [],
    replicas := [], soiled := [], cohPhase := [], armed := false, snapSet := [], drift := 0x3C, driftStep := 0, dies := [], wrotePeer := false,
    badImage := [], badParams := false }

def State.launch (s : State) (l : Nat) : Launch := s.launches.getD l Launch.reset
/-- Change a launch, where there is one. -/
def State.updLaunch (s : State) (l : Nat) (g : Launch → Launch) : State :=
  match s.launches.get? l with
  | none => s
  | some x => { s with launches := s.launches.put l (g x) }

/-- Take the next free value (log entry 4). -/
def State.draw (s : State) : W64 × State := (Config.freeWord s.free, { s with free := s.free + 1 })

/-- Firmware notes an event of a row of R291 on a core, with its time; row 0 takes the corrected ones. -/
def State.countEvent (s : State) (c row : Nat) : State :=
  { s with counts := s.counts.put (c * 4 + row) (s.time :: s.counts.getD (c * 4 + row) []),
           corrected := if row = 0 then s.corrected + 1 else s.corrected }

/-- A core of a mapped cluster (R14, R15); the others do not exist for programs. -/
def State.mapped (s : State) (c : Nat) : Bool := c < 384 && c % 96 / 8 < (s.die (dieOfCore c)).map.length

/-! ## The launch descriptor (R29) -/

def descSeed (d : BitVec 1024) : Nat := fieldN d 576 64
def descUitarget (d : BitVec 1024) : Nat := fieldN d 544 32
def descSpad (d : BitVec 1024) : Nat := fieldN d 500 12
def descShelf (d : BitVec 1024) : Nat := fieldN d 489 11
def descFloes (d : BitVec 1024) : Nat := fieldN d 484 5 + 1
def descRegs (d : BitVec 1024) : Nat := (fieldN d 479 5 + 1) * 8
def descWidth (d : BitVec 1024) : Nat := 16 * 2 ^ fieldN d 477 2
def descMaxsplit (d : BitVec 1024) : Nat := 16 * 2 ^ fieldN d 475 2
def descPrio (d : BitVec 1024) : Nat := fieldN d 473 2
def descDies (d : BitVec 1024) : Nat := fieldN d 469 4
/-- The lease in ticks; a field of 0 means 10 (R29). -/
def descLease (d : BitVec 1024) : Nat := if fieldN d 461 8 = 0 then 10 else fieldN d 461 8
def descCores (d : BitVec 1024) : Bool := bitN d 460
def descNorep (d : BitVec 1024) : Bool := bitN d 459
def descUicomp (d : BitVec 1024) : Bool := bitN d 458
def descNblocks (d : BitVec 1024) : Nat := fieldN d 416 32
def descAsid (d : BitVec 1024) : Nat := fieldN d 400 16
def descNcoh (d : BitVec 1024) : Nat := fieldN d 391 9
def descNparam (d : BitVec 1024) : Nat := fieldN d 385 6
def descMailbox (d : BitVec 1024) : Nat := fieldN d 320 56
def descCompl (d : BitVec 1024) : Nat := fieldN d 256 56
def descCohtab (d : BitVec 1024) : Nat := fieldN d 192 56
def descAstream (d : BitVec 1024) : Nat := fieldN d 128 56
def descParam (d : BitVec 1024) : Nat := fieldN d 64 56
def descKind (d : BitVec 1024) : Nat := fieldN d 56 2
def descEntry (d : BitVec 1024) : Nat := fieldN d 0 56

/-- Register bytes of a block, rounded (R33 *Rb*). -/
def descRb (d : BitVec 1024) : Nat := roundUp (descFloes d * descWidth d * descRegs d * 4) 32768
/-- Scratchpad bytes of a block, rounded (R33 *Sb*). -/
def descSb (d : BitVec 1024) : Nat := roundUp (descSpad d * 1024) 32768
/-- Slots of a block (R33). -/
def descSlots (d : BitVec 1024) : Nat := descFloes d * descWidth d / descMaxsplit d
/-- Blocks per core: the largest k of R33. -/
def descK (d : BitVec 1024) : Nat :=
  ((upTo 17).filter (fun k => k * descSlots d ≤ 256 && k * descRb d ≤ 4096 * 1024 &&
    k * (descRb d + descSb d) + 512 * 1024 ≤ 6144 * 1024)).foldl Nat.max 0

/-- Where block position i's registers start in the core store (R62). -/
def regsStart (d : BitVec 1024) (i : Nat) : Nat := i * descRb d
/-- Where block position i's scratchpad starts in the core store (R62). -/
def spadStart (d : BitVec 1024) (i : Nat) : Nat := regsStart d (descK d) + i * descSb d
/-- The 128-byte lines of L1 that the regions of k blocks leave in a core store of 6 MiB (R33, R62). -/
def l1Lines (d : BitVec 1024) : Nat := (6144 * 1024 - spadStart d (descK d)) / 128

/-- The launch of a block. -/
def State.launchOf (s : State) (b : Nat) : Launch := s.launch (s.block b).launch
/-- The address space of a block's launch. -/
def State.asidOf (s : State) (b : Nat) : Nat := descAsid (s.launchOf b).desc

/-! ## Fragments -/

/-- The fragment with an identity; an absent one is ended. -/
def Floe.frag (fl : Floe) (id : Nat) : Fragment := (fl.frags.find? (fun g => g.id = id)).getD Fragment.reset
/-- Change one fragment. -/
def Floe.updFrag (fl : Floe) (id : Nat) (g : Fragment → Fragment) : Floe :=
  { fl with frags := fl.frags.map (fun x => if x.id = id then g x else x) }
def State.frag (s : State) (f id : Nat) : Fragment := (s.floe f).frag id
def State.updFrag (s : State) (f id : Nat) (g : Fragment → Fragment) : State := s.updFloe f (fun fl => fl.updFrag id g)

/-- The issuing floe, fragment, block and core. -/
def State.fl (s : State) : Floe := s.floe s.cur.floe
def State.fg (s : State) : Fragment := s.frag s.cur.floe s.cur.frag
def State.blk (s : State) : Block := s.block (blockOf s.cur.floe)
def State.cr (s : State) : Core := s.core (floeCore s.cur.floe)
def State.lau (s : State) : Launch := s.launch s.blk.launch
def State.updFl (s : State) (g : Floe → Floe) : State := s.updFloe s.cur.floe g
def State.updFg (s : State) (g : Fragment → Fragment) : State := s.updFrag s.cur.floe s.cur.frag g
def State.updBlk (s : State) (g : Block → Block) : State := s.updBlock (blockOf s.cur.floe) g
def State.updCr (s : State) (g : Core → Core) : State := s.updCore (floeCore s.cur.floe) g
/-- The issuing address space. -/
def State.asid (s : State) : Nat := descAsid s.lau.desc

/-- The active lanes of the issuing fragment, ascending (R96 `active`). -/
def State.lanes (s : State) : List Nat := Mask.lanes s.fg.active s.fl.width
/-- The elected lane (R96). -/
def State.elected (s : State) : Nat := s.lanes.headD 0

/-! ## Registers (R72) -/

/-- Uniform register s*n* of a floe. -/
def Floe.S (fl : Floe) (n : Nat) : W64 := fl.sregs.getD n 0
def Floe.setS (fl : Floe) (n : Nat) (v : W64) : Floe := { fl with sregs := fl.sregs.set 0 n v }
def State.S (s : State) (n : Nat) : W64 := s.fl.S n
def State.setS (s : State) (n : Nat) (v : W64) : State := s.updFl (fun fl => fl.setS n v)

/-- Word index of absolute register j of the thread at block lane t (R63). -/
def Block.regIdx (b : Block) (t j : Nat) : Nat := t * b.nregs + j
def Block.reg (b : Block) (t j : Nat) : W32 := b.vregs.getD (b.regIdx t j) 0
/-- Write a register; writing the whole word clears its poison (R277). -/
def Block.setReg (b : Block) (t j : Nat) (v : W32) : Block :=
  { b with vregs := b.vregs.set 0 (b.regIdx t j) v, badRegs := b.badRegs.filter (fun x => x ≠ b.regIdx t j) }

/-- Predicate k of the thread at block lane t; p7 reads as 1 (R72). -/
def Block.pred (b : Block) (t k : Nat) : Bool := k = 7 || b.preds.getD (t * 8 + k) false
/-- A write to p7 is discarded (R72). -/
def Block.setPred (b : Block) (t k : Nat) (v : Bool) : Block :=
  if k = 7 then b else { b with preds := b.preds.set false (t * 8 + k) v }

/-- The absolute register an instruction field names (R65), under the `RBASE` that stood when the instruction issued (R67). -/
def State.absReg (s : State) (n : Nat) : Nat := (s.fg.rb.getD s.fl.rbase).toNat + n
/-- The block lane of a lane of the issuing floe (R47). -/
def State.thread (s : State) (l : Nat) : Nat := s.fl.base + l

/-- Predicate of a lane of the issuing floe (R96 `P`). -/
def State.P (s : State) (k l : Nat) : Bool := s.blk.pred (s.thread l) k
/-- Write predicate k in a list of lanes. -/
def State.setPs (s : State) (k : Nat) (ws : List (Nat × Bool)) : State :=
  s.updBlk (fun b => ws.foldl (fun b w => b.setPred (s.fl.base + w.1) k w.2) b)

/-! ## Queue registers (R74, R75) -/

/-- The queue register q*n* of a floe. -/
def Floe.queue (fl : Floe) (q : Nat) : QueueCfg := fl.queues.getD q QueueCfg.reset
/-- The numbers of the queues that are on. -/
def Floe.queuesOn (fl : Floe) : List Nat := (upTo 16).filter (fun q => (fl.queue q).mode ≠ .off)
/-- The queue whose port is an absolute register. -/
def Floe.portOf (fl : Floe) (j : Nat) : Option Nat := fl.queuesOn.find? (fun q => (fl.queue q).port = j)
/-- An absolute register backs a loop-carried queue (R74, R419). -/
def Floe.backing (fl : Floe) (j : Nat) : Bool :=
  fl.queuesOn.any (fun q =>
    let c := fl.queue q
    c.mode = .loop && c.port < j && j ≤ c.port + c.depth)
def ThreadQueue.empty : ThreadQueue := ⟨[], []⟩
/-- Queue q of the thread at block lane t. -/
def Block.queueAt (b : Block) (t q : Nat) : ThreadQueue := b.qents.getD (t * 16 + q) ThreadQueue.empty
def Block.setQueueAt (b : Block) (t q : Nat) (x : ThreadQueue) : Block :=
  { b with qents := b.qents.set ThreadQueue.empty (t * 16 + q) x }
/-- The values of a queue's entries, oldest first. -/
def ThreadQueue.vals (x : ThreadQueue) : List W32 := x.ents.map (fun e => e.v)
/-- The entries of queue q of the thread at block lane t, oldest first. -/
def Block.qent (b : Block) (t q : Nat) : List W32 := (b.queueAt t q).vals
/-- The backing register that the next entry of a queue of some depth takes: one without an entry (R419, log entry 16). A queue with none
left, which only the late value of an `ATOM` enters, holds the entry in none (log entry 16). -/
def ThreadQueue.slotFor (x : ThreadQueue) (depth : Nat) : Option Nat :=
  let free := (upTo depth).filter (fun i => x.ents.all (fun e => e.slot ≠ some i))
  free[Config.queueSlot depth (x.ents.filterMap (fun e => e.slot)) % free.length]?
/-- An entry enters a queue (R75). -/
def ThreadQueue.push (x : ThreadQueue) (depth : Nat) (v : W32) : ThreadQueue :=
  { ents := x.ents ++ [⟨v, x.slotFor depth, false⟩],
    idle := match x.slotFor depth with | some i => x.idle.del i | none => x.idle }
/-- The oldest entry leaves a queue; its backing register keeps what it holds (R75, R419). -/
def ThreadQueue.pop (x : ThreadQueue) : ThreadQueue :=
  match x.ents with
  | [] => x
  | e :: es => { ents := es, idle := match e.slot with | some i => x.idle.put i (e.v, e.bad) | none => x.idle }
/-- What backing register i of a queue holds, where that is not what it held as the queue was switched on (R419). -/
def ThreadQueue.held (x : ThreadQueue) (i : Nat) : Option (W32 × Bool) :=
  match x.ents.find? (fun e => e.slot = some i) with
  | some e => some (e.v, e.bad)
  | none => x.idle.get? i
/-- A word is stored in backing register i of a queue: into the entry there, where there is one (R419). -/
def ThreadQueue.store (x : ThreadQueue) (i : Nat) (v : W32) (bad : Bool) : ThreadQueue :=
  if x.ents.any (fun e => e.slot = some i) then
    { x with ents := x.ents.map (fun e => if e.slot = some i then { e with v := v, bad := bad } else e) }
  else { x with idle := x.idle.put i (v, bad) }
/-- Push a value on queue q of a thread, of some depth. -/
def Block.pushQ (b : Block) (t q depth : Nat) (v : W32) : Block := b.setQueueAt t q ((b.queueAt t q).push depth v)
/-- Pop queue q of a thread. -/
def Block.popQ (b : Block) (t q : Nat) : Block := b.setQueueAt t q (b.queueAt t q).pop
/-- The oldest entry of a queue is poisoned. -/
def Block.headBad (b : Block) (t q : Nat) : Bool := ((b.queueAt t q).ents.head?.map (fun e => e.bad)).getD false

/-! ## Counters (R171) -/

/-- The outstanding counter of a class. The tile counter counts runs and drains not yet written (R141, R142). -/
def Floe.counter (fl : Floe) (c : OpClass) : Nat :=
  match c with
  | .tile => fl.tile
  | .copies => (fl.cmds.filter (fun e => e.cls = .copies)).length
  | .net => (fl.cmds.filter (fun e => e.cls = .net)).length
  | .loads => (fl.ops.filter (fun o => o.cls = .loads)).length
  | .stores => (fl.ops.filter (fun o => o.cls = .stores)).length

/-- The limits of R171. -/
def counterLimit : OpClass → Nat
  | .loads => 63 | .stores => 63 | _ => 15

/-- Every outstanding counter is zero. -/
def Floe.idle (fl : Floe) : Bool := fl.ops.isEmpty && fl.tile = 0 && (fl.cmds.filter (fun e => e.cls = .copies || e.cls = .net)).isEmpty

/-! ## Guard slots (R72, R73 GUARDS) -/

/-- The two bits of g*i*: 0 unresolved, 1 true, 2 false. -/
def Floe.guardBits (fl : Floe) (i : Nat) : Nat := fieldN fl.guards (2 * i) 2

/-! ## Lists of floes and blocks -/

/-- Replace bits [lo + count - 1 : lo] of a word. -/
def putField (x : W64) (lo count v : Nat) : W64 :=
  BitVec.ofNat 64 (x.toNat - fieldN x lo count * 2 ^ lo + (v % 2 ^ count) * 2 ^ lo)

/-- The floe keys of a block. -/
def State.floesOf (s : State) (b : Nat) : List Nat := s.floes.keys.filter (fun f => blockOf f = b)
/-- A floe exists and has not retired. -/
def State.unretired (s : State) (f : Nat) : Bool :=
  match s.floes.get? f with
  | some fl => fl.st ≠ .retired && fl.st ≠ .reserved
  | none => false
/-- The unretired floes of a block, by FLOEID. -/
def State.liveFloes (s : State) (b : Nat) : List Nat := (s.floesOf b).filter (fun f => s.unretired f)
/-- The blocks of a core. -/
def State.blocksOfCore (s : State) (c : Nat) : List Nat := s.blocks.keys.filter (fun b => coreOf b = c)
/-- The blocks of a launch that are resident. -/
def State.blocksOfLaunch (s : State) (l : Nat) : List Nat :=
  s.blocks.keys.filter (fun b => (s.block b).launch = l)

end Sys2Proof.Machine
end

