-- ==== Sys2Proof/Machine/Mem.lean ====
section
/-!
DEFINITION. Physical memory (R191, R213, R215), lines, and the cache stacks, L1s and directory that hold copies of it
(R216 to R229, R456).
-/
namespace Sys2Proof.Machine

/-! ## Lines -/

/-- Byte i of a line. -/
def Line.byte (x : Line) (i : Nat) : Byte := x.extractLsb' (8 * i) 8
/-- A line with byte i replaced. -/
def Line.setByte (x : Line) (i : Nat) (b : Byte) : Line :=
  (x &&& ~~~((0xFF : Line) <<< (8 * i))) ||| (b.setWidth 1024 <<< (8 * i))
/-- A line with bytes from offset `off` replaced. -/
def Line.setBytes (x : Line) (off : Nat) : List Byte → Line
  | [] => x
  | b :: bs => Line.setBytes (Line.setByte x off b) (off + 1) bs
/-- `n` bytes of a line from an offset. -/
def Line.bytes (x : Line) (off n : Nat) : List Byte := (upTo n).map (fun i => Line.byte x (off + i))
/-- The 32-bit words that `n` bytes at an offset touch, as a word mask. -/
def wordsTouched (off n : Nat) : BitVec 32 :=
  if n = 0 then 0 else BitVec.ofNat 32 (2 ^ ((off + n - 1) / 4 + 1) - 2 ^ (off / 4))
/-- The 32-bit words that `n` bytes at an offset cover whole. -/
def wordsCovered (off n : Nat) : BitVec 32 :=
  if (off + n) / 4 ≤ (off + 3) / 4 then 0 else BitVec.ofNat 32 (2 ^ ((off + n) / 4) - 2 ^ ((off + 3) / 4))
/-- The 32-bit words of a line that `n` bytes from a PA cover whole. -/
def coverMask (pa n ln : Nat) : BitVec 32 :=
  BitVec.ofNat 32 ((upTo 32).foldl (fun a i =>
    if pa ≤ ln * 128 + i * 4 && ln * 128 + i * 4 + 4 ≤ pa + n then a + 2 ^ i else a) 0)
/-- The lines that `n` bytes from a PA touch. -/
def linesOf (pa n : Nat) : List Nat := dedupe ((upTo n).map (fun i => (pa + i) / 128))

/-! ## Physical addresses (R191) -/

/-- The tier of a PA. -/
def paTier (pa : Nat) : Nat := pa / 2 ^ 44 % 4
/-- The byte offset within the tier. -/
def paOff (pa : Nat) : Nat := pa % 2 ^ 44
/-- The capacity of a tier in bytes (R191). -/
def tierBytes (t : Nat) : Nat :=
  match t with
  | 0 => 2 ^ 39
  | 1 => 2 ^ 40
  | 2 => 2 ^ 43
  | _ => 0
/-- A PA that lies within its tier. -/
def paOk (pa : Nat) : Bool := pa < 2 ^ 46 && paOff pa < tierBytes (paTier pa)
/-- The 64 KiB frame of a PA, tier included. -/
def frameOf (pa : Nat) : Nat := pa / 2 ^ 16

/-- Where an access to a PA goes while its frame migrates (R213): lines below the progress pointer at the destination. -/
def State.redirect (s : State) (pa : Nat) : Nat :=
  match s.migrations.find? (fun m => m.src = frameOf pa) with
  | some m => if pa % 2 ^ 16 / 128 < m.ptr then m.dst * 2 ^ 16 + pa % 2 ^ 16 else pa
  | none => pa

/-- The line at which a migrating line stands (R213). -/
def State.lineHome (s : State) (ln : Nat) : Nat := s.redirect (ln * 128) / 128

/-- The canonical form of memory: addresses strictly rising, no byte that an unlisted address reads as (log entry 3). -/
def Memory.wf (m : Tab Byte) : Bool := Tab.wf 0 m
/-- A byte of memory; a byte nothing has written reads as 0 (log entry 3). -/
def State.memByte (s : State) (pa : Nat) : Byte := s.mem.getD (s.redirect pa) 0
/-- Write a byte of memory. -/
def State.setMemByte (s : State) (pa : Nat) (b : Byte) : State := { s with mem := s.mem.set 0 (s.redirect pa) b }
/-- Write bytes of memory from a PA. -/
def State.setMem (s : State) (pa : Nat) : List Byte → State
  | [] => s
  | b :: bs => State.setMem (s.setMemByte pa b) (pa + 1) bs

/-- The line at line number ln in memory. -/
def State.memLine (s : State) (ln : Nat) : Line :=
  BitVec.ofNat 1024 (ofBytes ((upTo 128).map (fun i => s.memByte (ln * 128 + i))))
/-- The poisoned words of a line in memory. -/
def State.memPoison (s : State) (ln : Nat) : BitVec 32 :=
  BitVec.ofNat 32 ((upTo 32).foldl (fun a i => if s.lineHome ln * 32 + i ∈ s.badWords then a + 2 ^ i else a) 0)
/-- Set the poisoned words of a line in memory. -/
def State.setMemPoison (s : State) (ln : Nat) (p : BitVec 32) : State :=
  { s with badWords := (s.badWords.filter (fun w => w / 32 ≠ s.lineHome ln)) ++
      ((upTo 32).filter (fun i => p.getLsbD i)).map (fun i => s.lineHome ln * 32 + i) }

/-- A line read under a key slot other than the one that wrote it reads as other bytes (R215). -/
def rekey (old new ln : Nat) (x : Line) : Line :=
  if old = new then x
  else BitVec.ofNat 1024 (ofBytes ((upTo 128).map (fun i => Config.keyMismatch old new (ln * 128 + i) (Line.byte x i))))

/-- The key slot a memory line was written under; a line nothing has written takes any slot. -/
def State.memKey (s : State) (ln key : Nat) : Nat := s.memKeys.getD (s.lineHome ln) key

/-- A byte of an open log beyond its commit tail (R205). -/
def State.pastTail (s : State) (pa : Nat) : Bool :=
  s.logs.any (fun e => e.2.pa + e.2.commit ≤ pa && pa < e.2.pa + e.2.len)
/-- A line of memory as it reads under a key slot (R215); the bytes of a log beyond its commit tail read as 0x00 (R205). -/
def State.memLineAs (s : State) (ln key : Nat) : Line :=
  let x := rekey (s.memKey ln key) key ln (s.memLine ln)
  if s.logs.any (fun e => e.2.pa < ln * 128 + 128 && ln * 128 < e.2.pa + e.2.len) then
    BitVec.ofNat 1024 (ofBytes ((upTo 128).map (fun i => if s.pastTail (ln * 128 + i) then 0 else Line.byte x i)))
  else x

/-! ## Logical time (R217 to R219) -/

/-- The cores of a die's mapped clusters (R15). -/
def State.coresOfDie (s : State) (d : Nat) : List Nat := (upTo ((s.die d).map.length * 8)).map (fun i => d * 96 + i)
/-- The horizon of a die (R218); 2^12 ticks on it stands until the sweep is done (R219). -/
def State.horizon (s : State) (d : Nat) : BitVec 16 :=
  earlierOf ((s.die d).swept + 0x1000)
    (match s.coresOfDie d with
     | [] => 0
     | c :: cs => cs.foldl (fun h x => earlierOf h (s.core x).ctime) (s.core c).ctime)
/-- A core's CTIME may rise to t now (R218). -/
def State.mayRaise (s : State) (c : Nat) (t : BitVec 16) : Bool :=
  !(earlier (s.horizon (dieOfCore c) + 0x4000 - 257) t)
/-- A fence or an acquire that completes may advance CTIME by its tick (R217, R218). -/
def State.mayTick (s : State) (c : Nat) : Bool := s.mayRaise c ((s.core c).ctime + 1)
/-- What a core has done from one state to the next would raise its CTIME beyond the horizon's limit, so it waits (R218). -/
def State.heldBack (s : State) (c : Nat) (s1 : State) : Bool :=
  (s1.core c).ctime ≠ (s.core c).ctime && !(s.mayRaise c (s1.core c).ctime)
/-- A core at a new CTIME: L1 copies whose rts lies more than 2^14 behind it are dropped (R219). -/
def Core.atTime (x : Core) (t : BitVec 16) : Core :=
  { x with ctime := t, l1 := x.l1.filter (fun e => !(earlier e.2.rts (t - 0x4000))) }
/-- Raise a core's CTIME; it never moves backwards (R217). -/
def State.raiseCtime (s : State) (c : Nat) (t : BitVec 16) : State :=
  s.updCore c (fun x => if laterOf x.ctime t = x.ctime then x else x.atTime (laterOf x.ctime t))
/-- A timestamp clamped to the horizon (R219). -/
def clampTs (h t : BitVec 16) : BitVec 16 := if earlier t (h - 0x4000) then h - 0x4000 else t

/-! ## The directory (R226, R227) -/

/-- The 512-byte region of a line. -/
def regionOf (ln : Nat) : Nat := ln / 4
def State.dirEntry (s : State) (r : Nat) : DirEntry := s.dir.getD r DirEntry.reset
/-- Set the sharer bits and owner of a region. -/
def State.setDir (s : State) (r : Nat) (e : DirEntry) : State := { s with dir := s.dir.set DirEntry.reset r e }
/-- An agent holds some line of a region. -/
def State.dieHolds (s : State) (d r : Nat) : Bool := (s.die d).stack.any (fun e => regionOf e.1 = r)
/-- Set an agent's sharer bit. -/
def State.share (s : State) (d ln : Nat) : State :=
  let e := s.dirEntry (regionOf ln)
  s.setDir (regionOf ln) { e with sharers := e.sharers ||| BitVec.ofNat 13 (2 ^ d) }
/-- Clear an agent's bit when the last line of the region leaves it. -/
def State.unshare (s : State) (d ln : Nat) : State :=
  if s.dieHolds d (regionOf ln) then s
  else
    let e := s.dirEntry (regionOf ln)
    s.setDir (regionOf ln)
      { sharers := e.sharers &&& ~~~(BitVec.ofNat 13 (2 ^ d)), owner := if e.owner = some d then none else e.owner }

/-! ## Cache stacks -/

/-- Write a die's owned line back to memory, keeping it (R227, R240). -/
def State.stackFlush (s : State) (d ln : Nat) : State :=
  match (s.die d).stack.get? ln with
  | none => s
  | some x =>
    if x.dirty then
      let s1 := (s.setMem (ln * 128) (Line.bytes x.data 0 128)).setMemPoison ln x.poison
      let s2 := { s1 with memKeys := s1.memKeys.put (s1.lineHome ln) x.key }
      s2.updDie d (fun e => { e with stack := e.stack.put ln { x with dirty := false } })
    else s

/-- Give up ownership of a line, keeping a copy. -/
def State.stackDisown (s : State) (d ln : Nat) : State :=
  let s1 := s.stackFlush d ln
  match (s1.die d).stack.get? ln with
  | none => s1
  | some x =>
    let e := s1.dirEntry (regionOf ln)
    (s1.updDie d (fun y => { y with stack := y.stack.put ln { x with owned := false } })).setDir (regionOf ln)
      { e with owner := if e.owner = some d then none else e.owner }

/-- Drop a line from a cache stack, its data going home first when the die owns it (R223, R227). -/
def State.stackDrop (s : State) (d ln : Nat) : State :=
  let s1 := s.stackFlush d ln
  (s1.updDie d (fun e => { e with stack := e.stack.del ln })).unshare d ln

/-- Mark a recorded line of the open windows of a die's floes as changed (R238). -/
def State.markChanged (s : State) (d ln : Nat) : State :=
  { s with floes := s.floes.map (fun e =>
      if dieOfCore (floeCore e.1) = d then
        (e.1, { e.2 with fence := e.2.fence.map (fun w =>
          { w with lines := w.lines.map (fun r => if r.line = ln then { r with changed := true } else r) }) })
      else e) }

/-- Every agent but `keep` answers an invalidating probe of a line (R227, R223). -/
def State.probeOthers (s : State) (keep : Option Nat) (ln : Nat) : State :=
  (upTo 13).foldl (fun s d =>
    if keep = some d then s
    else if ((s.die d).stack.get? ln).isSome then (s.stackDrop d ln).markChanged d ln else s) s

/-- The other line number of a line whose frame migrates: source and destination name one line (R213). -/
def State.aliasOf (s : State) (ln : Nat) : Option Nat :=
  s.migrations.findSome? (fun m =>
    if m.src = ln / 512 then some (m.dst * 512 + ln % 512)
    else if m.dst = ln / 512 then some (m.src * 512 + ln % 512) else none)
/-- Before a line is reached under one of its two numbers, no die holds it under the other. -/
def State.dropAlias (s : State) (ln : Nat) : State :=
  match s.aliasOf ln with
  | none => s
  | some a => s.probeOthers none a

/-! ## Staged records and snapshots (R211, R283 to R285) -/

/-- Whether a launch is replayable (R285). -/
def State.replayable (s : State) (l : Nat) : Bool := (s.launch l).replay

/-- Commit the records of a log: the rime engine writes them as agent 12 (R205, R211). -/
def State.commitLog (s : State) (k : Nat) : State :=
  match s.logs.get? k with
  | none => s
  | some g =>
    let fresh := g.recs.filter (fun r => g.commit ≤ r.off)
    let s1 := fresh.foldl (fun s r =>
      let pa := g.pa + r.off
      let lns := linesOf pa r.bytes.length
      let s1 := lns.foldl (fun s ln => s.probeOthers none ln) s
      let s2 := lns.foldl (fun s ln => s.setMemPoison ln (s.memPoison ln &&& ~~~(coverMask pa r.bytes.length ln)))
        { s1 with memKeys := lns.foldl (fun t ln => t.put (s1.lineHome ln) g.key) s1.memKeys }
      let s3 := s2.setMem pa r.bytes
      { s3 with badWords := s3.badWords ++ dedupe (r.bad.map (fun i => (pa + i) / 4)) }) s
    { s1 with logs := s1.logs.put k { g with commit := g.nextOff, commitSeq := g.nextSeq, stager := none } }

/-- Commit the records that a launch staged. -/
def State.commitStaged (s : State) (l : Nat) : State :=
  (s.logs.filter (fun e => e.2.stager = some l)).foldl (fun s e => s.commitLog e.1) s

/-- Discard the records that a launch staged: each log returns to its commit tail (R211). -/
def State.discardStaged (s : State) (l : Nat) : State :=
  { s with logs := s.logs.map (fun e =>
      if e.2.stager = some l then
        (e.1, { e.2 with recs := e.2.recs.filter (fun r => r.off < e.2.commit), nextOff := e.2.commit,
                         nextSeq := e.2.commitSeq, durable := Nat.min e.2.durable e.2.commit, stager := none })
      else e) }

/-- A launch becomes non-replayable (R285): its staged records commit, its snapshots are released, its set disarmed. -/
def State.makeNonReplayable (s : State) (l : Nat) : State :=
  if s.replayable l then
    let s1 := s.commitStaged l
    let s2 := s1.updLaunch l (fun x => { x with replay := false, armed := false, snapSet := [] })
    { s2 with snapshots := s2.snapshots.filter (fun c => c.launch ≠ l) }
  else s

/-- A moraine entry retires a frame (R281). -/
def moraineHas (e : BitVec 128) (fr : Nat) : Bool := fieldN e 16 30 ≤ fr && fr < fieldN e 16 30 + fieldN e 48 16
/-- A frame is in the moraine list. -/
def State.retired (s : State) (fr : Nat) : Bool := s.moraine.any (fun e => moraineHas e fr)
/-- The usable capacity of a tier: each retired frame removes 64 KiB (R19). -/
def State.usableBytes (s : State) (t : Nat) : Nat :=
  tierBytes t - 2 ^ 16 * (s.moraine.filter (fun e => fieldN e 44 2 = t)).foldl (fun a e => a + fieldN e 48 16) 0
/-- The number of frames the snapshot pool holds: what its region has, less the retired ones (R19, R283, R313). -/
def State.poolFrames (s : State) : Nat :=
  let first := frameOf (fieldN s.boot 128 64)
  let n := fieldN s.boot 192 64 / 2 ^ 16
  n - s.moraine.foldl (fun a e =>
    a + (Nat.min (first + n) (fieldN e 16 30 + fieldN e 48 16) - Nat.max first (fieldN e 16 30))) 0

/-- The source of the migration of a frame, where the frame is a destination; else the frame. -/
def State.snapSource (s : State) (fr : Nat) : Nat :=
  match s.migrations.find? (fun m => m.dst = fr) with
  | some m => m.src
  | none => fr
/-- The frame under which a snapshot of a frame is kept: its destination while it migrates (R287). -/
def State.snapKey (s : State) (fr : Nat) : Nat :=
  match s.migrations.find? (fun m => m.src = fr) with
  | some m => m.dst
  | none => fr
/-- The entries of a table of memory (`n` entries to a frame) that hold a frame, moved lines at its destination (R213). -/
def State.ofFrame {α : Type} (s : State) (fr n : Nat) (at_ : α → Nat) (t : List α) : List α :=
  match s.migrations.find? (fun m => m.src = fr) with
  | some m => t.filter (fun e => at_ e / n = m.dst && at_ e % n < m.ptr * (n / 512)) ++
      t.filter (fun e => at_ e / n = fr && m.ptr * (n / 512) ≤ at_ e % n)
  | none => t.filter (fun e => at_ e / n = fr)
/-- Copy a frame into the snapshot pool for a launch, once per run (R284); a full pool makes it non-replayable (R285). -/
def State.snapshotFrame (s : State) (l fr0 : Nat) : State :=
  let fr := s.snapSource fr0
  let k := s.snapKey fr
  if !((s.launch l).armed) || !((s.launch l).snapSet.any (fun x => s.snapKey x = k)) || s.snapshots.any (fun c => c.launch = l && c.frame = k) then s
  else if s.poolFrames ≤ s.snapshots.length then s.makeNonReplayable l
  else
    let s1 := (upTo 13).foldl (fun s d => ((s.die d).stack.keys.filter (fun ln => ln / 512 = fr || ln / 512 = k)).foldl
      (fun s ln => s.stackFlush d ln) s) s
    { s1 with snapshots := s1.snapshots ++
        [⟨l, k, (s1.ofFrame fr (2 ^ 16) (fun e => e.1) s1.mem).map (fun e => (e.1 % 2 ^ 16, e.2)),
          (s1.ofFrame fr (2 ^ 14) (fun w => w) s1.badWords).map (fun w => w % 2 ^ 14)⟩] }

/-- Before the first write to an armed frame, its home controller copies it (R284). -/
def State.guardWrite (s : State) (pa : Nat) : State :=
  s.launches.keys.foldl (fun s l => if (s.launch l).armed then s.snapshotFrame l (frameOf pa) else s) s

/-- MiB of a die's cache stack that are shelf: the shelves of the launches that hold the die (R243). -/
def State.shelfMiB (s : State) (d : Nat) : Nat :=
  (s.launches.filter (fun e => e.2.phase ≠ .queued && e.2.phase ≠ .ended && d ∈ e.2.dies)).foldl (fun a e => a + descShelf e.2.desc) 0
/-- The lines an agent has room for: a cache stack's 1024 MiB less the shelves (R12, R18, R243), a host cluster's part of the host
die's 128 MiB that the other clusters leave (R12). -/
def State.linesFor (s : State) (d : Nat) : Nat :=
  if d < 4 then (1024 - s.shelfMiB d) * 8192
  else 1048576 - ((upTo 8).filter (fun i => 4 + i ≠ d)).foldl (fun a i => a + (s.die (4 + i)).stack.length) 0
/-- A full agent gives up a line before another enters: the lowest one (R223, log entry 18). Where the host die's cache is full of the other
clusters' lines, the first of these gives one up (R12). A cache stack that is shelf alone (1024 MiB) has room for no line; the spec is silent
on its accesses, and the model lets one line in (log entry 18). -/
def State.makeRoom (s : State) (d : Nat) : State :=
  match (s.die d).stack with
  | [] =>
    if 4 ≤ d && s.linesFor d = 0 then
      (((upTo 8).map (fun i => 4 + i)).findSome? (fun a => ((s.die a).stack.head?).map (fun e => s.stackDrop a e.1))).getD s
    else s
  | e :: t => if t.length + 1 < s.linesFor d then s else s.stackDrop d e.1

/-- A line enters an agent from its home (R223); every other owner supplies its data first (R227). A line stands under the key
slot that its bytes were written under (R215). -/
def State.stackFill (s : State) (d ln key : Nat) : State :=
  match (s.die d).stack.get? ln with
  | some x =>
    let h := s.horizon d
    s.updDie d (fun e => { e with stack := e.stack.put ln { x with wts := clampTs h x.wts, rts := clampTs h x.rts } })
  | none =>
    let s1 := (upTo 13).foldl (fun s a => if a = d then s else s.stackDisown a ln) ((s.makeRoom d).dropAlias ln)
    let st := (s1.die d).stime + 1
    let k := s1.memKey ln key
    let x : StackLine :=
      { data := s1.memLineAs ln k, wts := st, rts := st, owned := false, dirty := false, poison := s1.memPoison ln, key := k }
    (s1.updDie d (fun e => { e with stack := e.stack.put ln x, stime := st })).share d ln

/-- A line of a cache stack as it stands; an absent line reads as an empty one. -/
def State.stackLine (s : State) (d ln : Nat) : StackLine := ((s.die d).stack.get? ln).getD StackLine.reset
/-- The data of a line as it reads under a key slot (R215). -/
def StackLine.under (x : StackLine) (ln key : Nat) : Line := rekey x.key key ln x.data

/-- An agent takes ownership of a line: every other holder answers an invalidating probe (R227). What it then holds stands under the
writer's key slot (R215). -/
def State.stackOwn (s : State) (d ln key : Nat) : State :=
  let s1 := ((s.guardWrite (ln * 128)).probeOthers (some d) ln).stackFill d ln key
  let x := s1.stackLine d ln
  let e := s1.dirEntry (regionOf ln)
  (s1.updDie d (fun y => { y with stack := y.stack.put ln { x with owned := true, data := x.under ln key, key := key } })).setDir
    (regionOf ln) { e with owner := some d }

/-- The stack serves a read or renewal of time T (R221). -/
def State.stackServe (s : State) (d ln key lease : Nat) (t : BitVec 16) : State :=
  let s1 := s.stackFill d ln key
  let x := s1.stackLine d ln
  let r := laterOf x.rts (t + BitVec.ofNat 16 lease)
  s1.updDie d (fun e => { e with stack := e.stack.put ln { x with rts := r }, stime := laterOf e.stime r })

/-- Two lines lie in one lattice region, a page or an extent (R241): in one frame, or in one that a core holds the translation of. -/
def State.oneRegion (s : State) (a b : Nat) : Bool :=
  a / 512 = b / 512 || s.cores.any (fun k => (k.2.ranges ++ k.2.pages).any (fun x =>
    fieldN x.attr 48 4 ≠ 0 && x.pa ≤ a * 128 && a * 128 < x.pa + x.len && x.pa ≤ b * 128 && b * 128 < x.pa + x.len))
/-- A launch accesses the region that a line lies in: it has allocated a replica line of it (R243). -/
def State.accesses (s : State) (l : Launch) (ln : Nat) : Bool := l.replicas.any (fun r => s.oneRegion (r.1 % 2 ^ 46) ln)
/-- A write of `n` bytes from `pa` to base copies of regions that launches access is recorded (R255, log entry 17); any other write changes
nothing here. -/
def State.soil (s : State) (pa n : Nat) : State :=
  let lns := linesOf pa n
  if s.launches.any (fun e => lns.any (fun ln => s.accesses e.2 ln)) then
    { s with launches := s.launches.map (fun e => (e.1, { e.2 with
        soiled := dedupe (e.2.soiled ++ ((upTo ((pa + n + 3) / 4 - pa / 4)).map (fun i => pa / 4 + i)).filter
          (fun w => s.accesses e.2 (w / 32))) })) }
  else s

/-- A write of bytes into a line at its bank, with the writer's time T (R222); the words `clear` lose their poison (R277). The
later lanes of one instruction on one line belong to its one write, with its one *wts* (`again`, R323). -/
def State.stackWrite (s : State) (d ln key : Nat) (t : BitVec 16) (again : Bool) (off : Nat) (bs : List Byte)
    (clear poison : BitVec 32) : State :=
  let s1 := (s.stackOwn d ln key).soil (ln * 128 + off) bs.length
  let x := s1.stackLine d ln
  let w := if again then x.wts else laterOf x.rts t + 1
  let y := { x with data := Line.setBytes x.data off bs, wts := w, rts := if again then x.rts else w, dirty := true,
                    poison := (x.poison &&& ~~~clear) ||| poison }
  s1.updDie d (fun e => { e with stack := e.stack.put ln y, stime := laterOf e.stime w })

/-- What a core's requests for one instruction carry (R323): its `CTIME` at issue, its `CTIME` as the lines are asked for, the
lines that the instruction has written, and the words of memory (`words`) and of the register region (`regs`) of which its lanes write
every byte between them. -/
structure BankReq where
  time    : BitVec 16
  start   : BitVec 16
  written : List Nat
  words   : List Nat
  regs    : List Nat
  deriving DecidableEq, Repr

/-- The request of an access that is performed as it issues. -/
def State.reqNow (s : State) (c : Nat) : BankReq := ⟨(s.core c).ctime, (s.core c).ctime, [], [], []⟩
/-- The words of a line that an instruction writes whole: those that `n` bytes of a lane cover, and those that its lanes cover between
them (R277, R323). -/
def BankReq.covers (q : BankReq) (ln off n : Nat) : BitVec 32 :=
  q.words.foldl (fun m w => if w / 32 = ln then m ||| BitVec.ofNat 32 (2 ^ (w % 32)) else m) (wordsCovered off n)

/-! ## A core's accesses -/

/-- An L1 copy may serve a load of a floe with acquire floor `floor` (R220). -/
def l1Valid (ctime floor : BitVec 16) (x : L1Line) : Bool := !(earlier x.rts ctime) && !(earlier x.gts floor)

/-- What a load reads: the line and its poisoned words. -/
structure LineRead where
  data   : Line
  poison : BitVec 32
  deriving DecidableEq, Repr

/-- The lines that the L1 of a core has room for: what the regions of its launch leave of the core store (R33, R62). -/
def State.l1Room (s : State) (c : Nat) : Nat := l1Lines (s.launch (s.core c).lastLaunch).desc
/-- An L1 takes a copy; a full one gives up its lowest line first (log entry 18). -/
def State.installL1 (s : State) (c ln : Nat) (x : L1Line) : State :=
  let room := s.l1Room c
  s.updCore c (fun k => { k with l1 := (if (k.l1.get? ln).isSome || k.l1.length < room then k.l1 else k.l1.drop 1).put ln x })
/-- The L1 copy that may serve a core's load under a key slot (R215, R220). -/
def Core.l1Hit (k : Core) (start floor : BitVec 16) (ln key : Nat) : Option L1Line :=
  match k.l1.get? ln with
  | some x => if x.key = key && l1Valid start floor x then some x else none
  | none => none

/-- A core's load of a line (R220, R221, R224): a valid L1 copy, unless the access bypasses L1 (`look`), or the cache stack's line,
which is installed unless the access leaves no copy behind. -/
def State.coreRead (s : State) (q : BankReq) (c ln key lease : Nat) (floor : BitVec 16) (look install : Bool) : LineRead × State :=
  let d := dieOfCore c
  match if look then (s.core c).l1Hit q.start floor ln key else none with
  | some x => (⟨x.data, x.poison⟩, s)
  | none =>
    if look && install then
      let s1 := s.stackServe d ln key lease q.time
      let y := s1.stackLine d ln
      let s2 := s1.installL1 c ln ⟨y.under ln key, y.wts, y.rts, q.start, y.poison, key⟩
      (⟨y.under ln key, y.poison⟩, s2.raiseCtime c y.wts)
    else
      let s1 := s.stackFill d ln key
      let y := s1.stackLine d ln
      (⟨y.under ln key, y.poison⟩, s1.raiseCtime c y.wts)

/-- A core's write of bytes of one line (R222): the bank, the core's time, and its own L1 copy, which `.NA` drops (R441). -/
def State.coreWrite (s : State) (q : BankReq) (c ln key : Nat) (off : Nat) (bs : List Byte) (noAlloc : Bool) : State :=
  let d := dieOfCore c
  let s1 := s.stackWrite d ln key q.time (q.written.any (fun x => x = ln)) off bs (q.covers ln off bs.length) 0
  let y := s1.stackLine d ln
  (s1.updCore c (fun k =>
    { k with
      l1 := match k.l1.get? ln with
        | none => k.l1
        | some _ => if noAlloc then k.l1.del ln else k.l1.put ln ⟨y.data, y.wts, y.rts, y.wts, y.poison, key⟩ })).raiseCtime c y.wts

/-- A write by a unit of a die other than a core: T is the stack time (R456). The words `clear` lose their poison: those of a line that the
unit's whole write covers (R277). -/
def State.unitWrite (s : State) (d ln key : Nat) (off : Nat) (bs : List Byte) (clear poison : BitVec 32) : State :=
  s.stackWrite d ln key (s.die d).stime false off bs clear poison

/-- A write by an agent outside the package's caches (the I/O agent, the network engine, a peer home): ownership first, then the line
at its home (R456, R227). The agent keeps no line, so the directory's entry has no owner again. -/
def State.outsideWrite (s0 : State) (pa : Nat) (bs : List Byte) (key : Nat) : State :=
  let s := s0.soil pa bs.length
  let lns := linesOf pa bs.length
  let s1 := lns.foldl (fun s ln => ((s.guardWrite (ln * 128)).dropAlias ln).probeOthers none ln) s
  let s2 := { s1 with memKeys := lns.foldl (fun t ln => t.put (s1.lineHome ln) key) s1.memKeys }
  let s3 := lns.foldl (fun s ln => s.setMemPoison ln (s.memPoison ln &&& ~~~(coverMask pa bs.length ln))) s2
  s3.setMem pa bs

/-- A read by an agent outside the package's caches: an owner supplies its data (R227). -/
def State.outsideRead (s : State) (pa n key : Nat) : List Byte × State :=
  let s1 := (linesOf pa n).foldl (fun s ln => (upTo 13).foldl (fun s d => s.stackDisown d ln) (s.dropAlias ln)) s
  ((upTo n).map (fun i => Line.byte (s1.memLineAs ((pa + i) / 128) key) ((pa + i) % 128)), s1)

/-- The pieces of `n` bytes from a PA that lie in one line each: line, offset in it, offset from the first byte, length. -/
def linePieces (pa n : Nat) : List (Nat × Nat × Nat × Nat) :=
  (linesOf pa n).map (fun ln =>
    let lo := Nat.max pa (ln * 128)
    (ln, lo % 128, lo - pa, Nat.min (pa + n) (ln * 128 + 128) - lo))
/-- A host cluster writes in its own lines of the shared cache, under ownership (R227, R228). -/
def State.hostWrite (s : State) (a pa : Nat) (bs : List Byte) (key : Nat) : State :=
  (linePieces pa bs.length).foldl (fun s p => s.unitWrite a p.1 key p.2.1 ((bs.drop p.2.2.1).take p.2.2.2) (wordsCovered p.2.1 p.2.2.2) 0) s
/-- A host cluster reads through its lines of the shared cache (R226): the bytes, whether one is poisoned, and the state. -/
def State.hostFetch (s : State) (a pa n key : Nat) : List Byte × Bool × State :=
  (linePieces pa n).foldl (fun r p =>
    let s1 := r.2.2.stackFill a p.1 key
    let x := s1.stackLine a p.1
    (r.1 ++ Line.bytes (x.under p.1 key) p.2.1 p.2.2.2, r.2.1 || (x.poison &&& wordsTouched p.2.1 p.2.2.2) ≠ 0, s1)) ([], false, s)

end Sys2Proof.Machine
end

