-- ==== Sys2Proof/Machine/Xlate.lean ====
section
/-!
DEFINITION. Address spaces and translation (R190 to R200), the register aperture (R68), and the checks of R196 on one lane's
access.
-/
namespace Sys2Proof.Machine

/-! ## Coherent reads by walkers and engines -/

/-- The agent that owns a line, if any (R226). -/
def State.ownerOf (s : State) (ln : Nat) : Option Nat :=
  (upTo 13).find? (fun d => match (s.die d).stack.get? ln with | some x => x.owned | none => false)
/-- A line as its owner holds it, under either of its numbers while its frame migrates. -/
def State.ownedLine (s : State) (ln : Nat) : Option StackLine :=
  match s.ownerOf ln with
  | some d => some (s.stackLine d ln)
  | none => (s.aliasOf ln).bind (fun a => (s.ownerOf a).map (fun d => s.stackLine d a))
/-- The current value of a byte: the owner's copy, or memory. -/
def State.peekByte (s : State) (pa : Nat) : Byte :=
  match s.ownedLine (pa / 128) with
  | some x => Line.byte x.data (pa % 128)
  | none => s.memByte pa
/-- The poisoned words of a line as its owner or memory holds it (R277). -/
def State.peekPoison (s : State) (ln : Nat) : BitVec 32 :=
  match s.ownedLine ln with
  | some x => x.poison
  | none => s.memPoison ln
/-- `n` bytes from a PA, as a number. -/
def State.peek (s : State) (pa n : Nat) : Nat := ofBytes ((upTo n).map (fun i => s.peekByte (pa + i)))

/-! ## The address-space record (R192) -/

/-- The boot record's address-space table (R313). -/
def State.astab (s : State) : Nat := fieldN s.boot 64 64
/-- The record of an ASID. -/
def State.asRecord (s : State) (asid : Nat) : BitVec 512 := BitVec.ofNat 512 (s.peek (s.astab + asid * 64) 64)
def asCtl (r : BitVec 512) : Nat := fieldN r 192 56
def asRinglog (r : BitVec 512) : Nat := fieldN r 184 8
def asRing (r : BitVec 512) : Nat := fieldN r 128 56
def asRcount (r : BitVec 512) : Nat := fieldN r 112 13
def asRtab (r : BitVec 512) : Nat := fieldN r 64 46
def asValid (r : BitVec 512) : Bool := bitN r 63
def asRoot (r : BitVec 512) : Nat := fieldN r 0 46
/-- A valid record whose reserved fields are zero (R192). -/
def asOk (r : BitVec 512) : Bool :=
  asValid r && fieldN r 248 264 = 0 && fieldN r 125 3 = 0 && fieldN r 110 2 = 0 && fieldN r 46 17 = 0

/-! ## Page-table entries (R194) -/

def attrKey (a : W64) : Nat := fieldN a 52 12
def attrLtype (a : W64) : Nat := fieldN a 48 4
def attrSnap (a : W64) : Bool := bitN a 47
def attrNc (a : W64) : Bool := bitN a 46
def attrFrame (a : W64) : Nat := fieldN a 18 27
def attrTier (a : W64) : Nat := fieldN a 16 2
def attrLeaf (a : W64) : Bool := bitN a 4
def attrExec (a : W64) : Bool := bitN a 3
def attrWrite (a : W64) : Bool := bitN a 2
def attrRead (a : W64) : Bool := bitN a 1
def attrValid (a : W64) : Bool := bitN a 0
/-- The reserved bits of a leaf entry are zero. -/
def attrClean (a : W64) : Bool :=
  !(bitN a 45) && fieldN a 5 11 = 0 && (attrTier a ≠ 3 || fieldN a 30 15 = 0)
/-- A non-leaf entry holds nothing but valid, tier and frame, and names tier 0 or 1 (R194, R195). -/
def tableClean (a : W64) : Bool :=
  fieldN a 45 19 = 0 && fieldN a 1 15 = 0 && attrTier a ≤ 1 && attrFrame a * 2 ^ 16 < tierBytes (attrTier a)
/-- The PA an entry's frame begins at. -/
def attrPa (a : W64) : Nat := attrTier a * 2 ^ 44 + attrFrame a * 2 ^ 16
/-- The frame range a leaf maps lies within its tier (tier 3 has no capacity). -/
def attrFits (a : W64) (len : Nat) : Bool :=
  attrTier a = 3 || attrFrame a * 2 ^ 16 + len ≤ tierBytes (attrTier a)
/-- A lattice type that R242 accepts for its tier. -/
def latticeOk (a : W64) : Bool := attrLtype a = 0 || (attrLtype a ≤ 7 && attrTier a ≤ 1)

/-- A translation, or the cause that the walk ends with. -/
inductive Walk where
  | ok (x : Xlat) (range : Bool)
  | cause (c : Nat)
  deriving DecidableEq, Repr

/-- A root page table lies, aligned, within tier 0 or 1 (R192, R195). -/
def rootOk (root : Nat) : Bool := root % 2 ^ 17 = 0 && paTier root ≤ 1 && paOff root + 2 ^ 17 ≤ tierBytes (paTier root)
/-- The page-table walk (R193 to R195). -/
def State.walkPages (s : State) (asid va : Nat) : Walk :=
  let root := asRoot (s.asRecord asid)
  if !(rootOk root) then .cause 0x02 else
  let e0 : W64 := BitVec.ofNat 64 (s.peek (root + bitsOf va 42 14 * 8) 8)
  if !(attrValid e0) then .cause 0x01
  else if attrLeaf e0 || !(tableClean e0) then .cause 0x02
  else
    let e1 : W64 := BitVec.ofNat 64 (s.peek (attrPa e0 + bitsOf va 29 13 * 8) 8)
    if !(attrValid e1) then .cause 0x01
    else if attrLeaf e1 then
      if !(attrClean e1) || attrFrame e1 % 2 ^ 13 ≠ 0 || !(attrFits e1 (2 ^ 29)) || !(latticeOk e1)
      then .cause 0x02
      else .ok ⟨asid, va / 2 ^ 29 * 2 ^ 29, 2 ^ 29, e1, attrPa e1⟩ false
    else if !(tableClean e1) then .cause 0x02
    else
      let e2 : W64 := BitVec.ofNat 64 (s.peek (attrPa e1 + bitsOf va 16 13 * 8) 8)
      if !(attrValid e2) then .cause 0x01
      else if !(attrLeaf e2) || !(attrClean e2) || !(attrFits e2 (2 ^ 16)) || !(latticeOk e2) then .cause 0x02
      else .ok ⟨asid, va / 2 ^ 16 * 2 ^ 16, 2 ^ 16, e2, attrPa e2⟩ false

/-- Entry i of the range table (R197). -/
def State.rangeEntry (s : State) (r : BitVec 512) (i : Nat) : BitVec 256 :=
  BitVec.ofNat 256 (s.peek (asRtab r + i * 32) 32)
/-- The entries of a range table. -/
def State.extents (s : State) (r : BitVec 512) : List (BitVec 256) :=
  (upTo (Nat.min (asRcount r) 4096)).map (fun i => s.rangeEntry r i)
/-- A range table that is not empty lies within its tier, 0 or 1 (R192, R195, R197). -/
def rtabOk (r : BitVec 512) : Bool :=
  asRcount r = 0 || (paTier (asRtab r) ≤ 1 && paOff (asRtab r) + Nat.min (asRcount r) 4096 * 32 ≤ tierBytes (paTier (asRtab r)))
/-- A valid extent covers a VA. -/
def extentCovers (va : Nat) (e : BitVec 256) : Bool :=
  bitN e 128 && fieldN e 0 56 ≤ va && va < fieldN e 0 56 + fieldN e 64 64
/-- The lowest-numbered valid extent that covers a VA. -/
def State.findExtent (s : State) (r : BitVec 512) (va : Nat) : Option (BitVec 256) := (s.extents r).find? (extentCovers va)
/-- The translation of a VA by its extent (R197). -/
def extentWalk (asid : Nat) (e : BitVec 256) : Walk :=
  let a : W64 := BitVec.ofNat 64 (fieldN e 128 64)
  let len := fieldN e 64 64
  let vb := fieldN e 0 56
  if fieldN e 192 64 ≠ 0 || fieldN e 56 8 ≠ 0 || !(attrLeaf a) || !(attrClean a) || len % 2 ^ 16 ≠ 0 || len = 0
      || vb % 2 ^ 16 ≠ 0 || !(attrFits a len) || !(latticeOk a) then .cause 0x02
  else .ok ⟨asid, vb, len, a, attrPa a⟩ true

/-- A walk: the range table first, then the page table (R197); an ASID without a valid record maps nothing (cause 0x02). -/
def State.walk (s : State) (asid va : Nat) : Walk :=
  let r := s.asRecord asid
  if !(asOk r) || !(rtabOk r) then .cause 0x02
  else match s.findExtent r va with
    | some e => extentWalk asid e
    | none => s.walkPages asid va

/-- A held translation of a core that covers a VA (R198). -/
def Core.held (c : Core) (asid va : Nat) : Option Xlat :=
  match c.ranges.find? (fun x => x.asid = asid && x.va ≤ va && va < x.va + x.len) with
  | some x => some x
  | none => c.pages.find? (fun x => x.asid = asid && x.va ≤ va && va < x.va + x.len)

/-- A core's translation: a held one, else a walk (R198). -/
def State.translate (s : State) (c asid va : Nat) : Walk :=
  match (s.core c).held asid va with
  | some x => .ok x false
  | none => s.walk asid va

/-- The part of a translation around a VA that no extent of a list hides, where none of them covers the VA. -/
def Xlat.trim (x : Xlat) (va : Nat) (es : List (BitVec 256)) : Xlat :=
  es.foldl (fun x e =>
    let lo := fieldN e 0 56
    let hi := lo + fieldN e 64 64
    if !(bitN e 128) || hi ≤ x.va || x.va + x.len ≤ lo then x
    else if hi ≤ va then { x with va := hi, len := x.va + x.len - hi, pa := x.pa + (hi - x.va) }
    else { x with len := lo - x.va }) x
/-- A walked translation as a core may hold it: an extent that comes before it in R197's order keeps its own addresses. -/
def State.holdable (s : State) (x : Xlat) (va : Nat) : Xlat :=
  x.trim va ((s.extents (s.asRecord x.asid)).takeWhile (fun e => !(extentCovers va e)))
/-- Hold a walked translation; the oldest leaves a full buffer (R198, log entry 13). -/
def State.holdXlat (s : State) (c asid va : Nat) : State :=
  match (s.core c).held asid va with
  | some _ => s
  | none =>
    match s.walk asid va with
    | .cause _ => s
    | .ok x true => s.updCore c (fun k => { k with ranges := (k.ranges ++ [s.holdable x va]).drop (k.ranges.length + 1 - 64) })
    | .ok x false => s.updCore c (fun k => { k with pages := (k.pages ++ [s.holdable x va]).drop (k.pages.length + 1 - 512) })

/-- The part of a translation that one 64 KiB frame is (R200). -/
def Xlat.frame (x : Xlat) (fr : Nat) : Xlat := ⟨x.asid, fr * 2 ^ 16, 2 ^ 16, x.attr, x.pa + (fr * 2 ^ 16 - x.va)⟩
/-- A unit's translation of a VA: one that it holds for the frame it stands in, else a walk (R200). -/
def State.unitWalk (s : State) (h : List Xlat) (asid va : Nat) : Walk :=
  match h.find? (fun x => x.va ≤ va && va < x.va + x.len) with
  | some x => .ok x false
  | none => s.walk asid va
/-- A unit holds the translation of a frame. -/
def holdsFrame (h : List Xlat) (fr : Nat) : Bool := h.any (fun x => x.va = fr * 2 ^ 16)
/-- The translations that a unit holds as it stands in frames: those that it has, and new walks of the others (R200). -/
def State.holdFrames (s : State) (asid : Nat) (h : List Xlat) (frs : List Nat) : List Xlat :=
  (dedupe frs).filterMap (fun fr =>
    match h.find? (fun x => x.va = fr * 2 ^ 16) with
    | some x => some x
    | none => match s.walk asid (fr * 2 ^ 16) with
      | .ok x _ => some (x.frame fr)
      | .cause _ => none)

/-! ## The checks of R196 -/

/-- The register aperture (R68). -/
def apertureBase : Nat := 0xFFFE0000000000
def inAperture (va : Nat) : Bool := apertureBase ≤ va && va < apertureBase + 0x400000

/-- What an access does to a lattice region and needs of the translation (R196 check 3, R244). -/
inductive AccKind where
  | load | store | rmw | exec | join | threshold | cache
  deriving DecidableEq, Repr

def AccKind.needsRead : AccKind → Bool
  | .load => true | .rmw => true | .threshold => true | .cache => true | _ => false
def AccKind.needsWrite : AccKind → Bool
  | .store => true | .rmw => true | .join => true | _ => false
/-- The access code of a fault record (R202). -/
def AccKind.code : AccKind → Nat
  | .load => 0 | .store => 1 | .rmw => 2 | .exec => 3 | .join => 1 | .threshold => 0 | .cache => 0

/-- The cell size of a lattice type (R241). -/
def cellSize (lt : Nat) : Nat := if lt = 7 then 8 else 4

/-- The outcome of a lane's checks. -/
inductive Checked where
  | ok (p : Place)
  | cause (c : Nat)
  deriving DecidableEq, Repr

/-- Checks 2 to 5 of R196 on a translated VA. -/
def placeOf (k : AccKind) (size va : Nat) (w : Walk) : Checked :=
  match w with
  | .cause c => .cause c
  | .ok x _ =>
    let a := x.attr
    let pa := x.pa + (va - x.va)
    if (k.needsRead && !(attrRead a)) || (k.needsWrite && !(attrWrite a)) || (k = .exec && !(attrExec a)) then .cause 0x02
    else if attrTier a = 2 && k.needsWrite then .cause 0x04
    else if attrLtype a ≠ 0 then
      match k with
      | .store => .cause 0x06
      | .rmw => .cause 0x06
      | .join => if size = cellSize (attrLtype a) then .ok (.cell pa (attrLtype a)) else .cause 0x07
      | .threshold => if size = cellSize (attrLtype a) then .ok (.cell pa (attrLtype a)) else .cause 0x07
      | _ => .ok (.cell pa (attrLtype a))
    else if k = .join || k = .threshold then .cause 0x07
    else if attrTier a = 3 then .ok (.peer (fieldN a 18 12) va)
    else .ok (.phys pa (attrKey a) (attrNc a))

/-- The checks of one lane's access of `size` bytes (0: a nibble) by a floe of a block (R190, R196, R68, R69); the aperture is decoded
before them (R190). -/
def State.checkLane (s : State) (b : Nat) (k : AccKind) (size : Nat) (apertureOk : Bool) (va : W64) : Checked :=
  let v := va.toNat
  if inAperture v then
    let blk := s.block b
    if !(apertureOk && v - apertureBase < blk.floes * blk.width * blk.nregs * 4) then .cause 0x02
    else if size ≠ 0 && v % size ≠ 0 then .cause 0x03
    else .ok (.regs (v - apertureBase))
  else if size ≠ 0 && v % size ≠ 0 then .cause 0x03
  else if 2 ^ 56 ≤ v then .cause 0x02
  else placeOf k size v (s.translate (coreOf b) (s.asidOf b) v)

/-- A tier-2 line held unreachable by the storage processor (R206, cause 0x05). -/
def State.firnHolds (s : State) : Place → Bool
  | .phys pa _ _ => paTier pa = 2 && (pa / 128) ∈ s.firnHeld
  | _ => false

end Sys2Proof.Machine
end

