-- ==== Sys2Proof/Machine/Lattice.lean ====
section
/-!
DEFINITION. Lattice regions (R241 to R249): the types' orders and joins, and each die's replica.
-/
namespace Sys2Proof.Machine

/-- The order key of MAXF32 (R241). -/
def f32Key (x : Nat) : Nat := if x / 2 ^ 31 % 2 = 1 then 2 ^ 32 - 1 - x % 2 ^ 32 else x % 2 ^ 32 + 2 ^ 31
/-- An FP32 NaN. -/
def isNan32 (x : Nat) : Bool := (val32 x).isNan
/-- A 32-bit two's-complement value. -/
def asS32 (x : Nat) : Int := (BitVec.ofNat 32 x).toInt

/-- The order a ≤ b of a lattice type on cell values (GCOUNT on sums) (R241). -/
def latLe (lt a b : Nat) : Bool :=
  match lt with
  | 1 => a ≤ b
  | 2 => b ≤ a
  | 3 => asS32 a ≤ asS32 b
  | 4 => f32Key a ≤ f32Key b
  | 5 => Nat.land a (2 ^ 32 - 1 - b % 2 ^ 32) = 0
  | _ => a ≤ b

/-- The join of two cell values (R241). -/
def latJoin (lt a b : Nat) : Nat :=
  match lt with
  | 5 => Nat.lor a b
  | _ => if latLe lt a b then b else a

/-- The value a replica cell takes from a base value (R241). -/
def latFill (lt v : Nat) : Nat := if lt = 4 && isNan32 v then 0xFF800000 else v

/-- Shelf bytes of a replica line (R243). -/
def replicaBytes (lt : Nat) : Nat := if lt = 6 then 512 else 128
/-- The key of a replica line. -/
def replicaKey (die ln : Nat) : Nat := die * 2 ^ 46 + ln
/-- Shelf bytes a launch's replicas take on a die. -/
def Launch.shelfUsed (l : Launch) (die : Nat) : Nat :=
  (l.replicas.filter (fun e => e.1 / 2 ^ 46 = die)).foldl (fun a e => a + replicaBytes e.2.ltype) 0
/-- The launch's shelf on a die has room for another line of a type (R243). -/
def Launch.shelfRoom (l : Launch) (die lt : Nat) : Bool :=
  l.shelfUsed die + replicaBytes lt ≤ descShelf l.desc * 2 ^ 20

/-- The cells of a line filled from the base copy. -/
def fillLine (lt : Nat) (x : Line) : Line :=
  let n := cellSize lt
  BitVec.ofNat 1024 (ofBytes (((upTo (128 / n)).map (fun i => toBytes n (latFill lt (ofBytes (Line.bytes x (i * n) n))))).flatten))

/-- Whether a die's replica line is present or can be allocated. -/
def State.replicaOk (s : State) (l die ln lt : Nat) : Bool :=
  ((s.launch l).replicas.get? (replicaKey die ln)).isSome || (s.launch l).shelfRoom die lt
/-- Allocate a replica line if it is absent (R243); it takes the poison of the base copy with its bytes (R277). -/
def State.replicaFill (s : State) (l die ln lt : Nat) : State :=
  match (s.launch l).replicas.get? (replicaKey die ln) with
  | some _ => s
  | none =>
    let base : Line := BitVec.ofNat 1024 (s.peek (ln * 128) 128)
    s.updLaunch l (fun x => { x with replicas := x.replicas.put (replicaKey die ln) ⟨fillLine lt base, lt, [], s.peekPoison ln⟩ })
/-- A replica line as it stands. -/
def State.replica (s : State) (l die ln : Nat) : Replica := (s.launch l).replicas.getD (replicaKey die ln) Replica.reset

/-- A cell of a replica line holds poison (R277). -/
def Replica.poisoned (r : Replica) (off n : Nat) : Bool := (r.poison &&& wordsTouched off n) ≠ 0
/-- The value of a cell of a replica: for GCOUNT the saturated sum of base and slots (R241). -/
def Replica.cell (r : Replica) (off : Nat) : Nat :=
  let n := cellSize r.ltype
  let v := ofBytes (Line.bytes r.data (off / n * n) n)
  if r.ltype = 6 then
    Nat.min ((upTo 4).foldl (fun a d => a + (r.slots.getD (off / 4 * 4 + d) 0).toNat) v) 0xFFFFFFFF
  else v

/-- Join an operand into a cell by a die (R246): GCOUNT adds to the die's slot, saturating. -/
def Replica.joinCell (r : Replica) (die off x : Nat) : Replica :=
  let n := cellSize r.ltype
  if r.ltype = 6 then
    let k := off / 4 * 4 + die
    { r with slots := r.slots.set 0 k (BitVec.ofNat 32 (Nat.min ((r.slots.getD k 0).toNat + x) 0xFFFFFFFF)) }
  else
    let v := ofBytes (Line.bytes r.data (off / n * n) n)
    { r with data := Line.setBytes r.data (off / n * n) (toBytes n (latJoin r.ltype v x)) }

/-- The cause an `LJOIN` lane takes on a cell, if any (R246, R247). -/
def Replica.joinCause (r : Replica) (die off x : Nat) (strict : Bool) : Option Nat :=
  if r.ltype = 4 && isNan32 x then some 0x07
  else if strict then
    if r.ltype = 6 then
      (if 0xFFFFFFFF < (r.slots.getD (off / 4 * 4 + die) 0).toNat + x then some 0x06 else none)
    else if latLe r.ltype (r.cell off) x then none else some 0x06
  else none

/-- The join of a sender's replica line into a receiver's (R241, R252). -/
def Replica.merge (a b : Replica) : Replica :=
  if a.ltype = 6 then
    { a with slots := (upTo 128).foldl (fun t k =>
        t.set 0 k (if (a.slots.getD k 0).toNat ≤ (b.slots.getD k 0).toNat then b.slots.getD k 0 else a.slots.getD k 0)) a.slots,
             poison := a.poison ||| b.poison }
  else
    let n := cellSize a.ltype
    { a with data := BitVec.ofNat 1024 (ofBytes (((upTo (128 / n)).map (fun i =>
        toBytes n (latJoin a.ltype (ofBytes (Line.bytes a.data (i * n) n)) (ofBytes (Line.bytes b.data (i * n) n))))).flatten)),
             poison := a.poison ||| b.poison }

end Sys2Proof.Machine
end

