-- ==== Sys2Proof/Machine/MemOp.lean ====
section
/-!
DEFINITION. Ending launches (R259, R289), poison consumed (R277), and performing the lanes of memory operations (R228, R229,
R339 to R341, R351).
-/
namespace Sys2Proof.Machine

/-! ## Launches that stop -/

/-- Halt a launch with a status and cause (R259, R32): nothing of it issues again; LAUNCH_END writes the record, which names the lowest
block that reported. -/
def State.haltLaunch (s : State) (l status cause : Nat) (blk : Option Nat) : State :=
  s.updLaunch l (fun x =>
    if x.phase = .running || x.phase = .queued then
      { x with phase := .halting, status := status, cause := BitVec.ofNat 8 cause, causeBlk := blk }
    else if x.phase = .halting && x.status = status then
      { x with causeBlk := match x.causeBlk, blk with
          | some a, some b => some (Nat.min a b)
          | none, b => b
          | a, none => a }
    else x)

/-- Poisoned data consumed (R277, R287, R289): a replayable launch rolls back, at most three times. -/
def State.consume (s : State) (l : Nat) (blk : Option Nat) : State :=
  if !(s.replayable l) then s.haltLaunch l 4 0x0D blk
  else if 3 ≤ (s.launch l).rollbacks then s.haltLaunch l 3 0x0D blk
  else s.updLaunch l (fun x => if x.phase = .running then { x with phase := .rolledBack, cause := 0x0D } else x)

/-! ## The register region by bytes (R63, R68) -/

/-- `n` bytes of a block's register allocation from a byte offset. -/
def Block.apRead (b : Block) (off n : Nat) : Nat :=
  ofBytes ((upTo n).map (fun i => (b.vregs.getD ((off + i) / 4) 0).extractLsb' (8 * ((off + i) % 4)) 8))
/-- A word that `n` bytes of a block's register allocation touch is poisoned (R277). -/
def Block.apBad (b : Block) (off n : Nat) : Bool :=
  b.badRegs.any (fun w => off < w * 4 + 4 && w * 4 < off + n)
/-- Write one byte of a block's register allocation. -/
def Block.apWriteByte (b : Block) (off : Nat) (x : Byte) : Block :=
  let w := b.vregs.getD (off / 4) 0
  let k := 8 * (off % 4)
  { b with vregs := b.vregs.set 0 (off / 4) ((w &&& ~~~((0xFF : W32) <<< k)) ||| (x.setWidth 32 <<< k)) }
/-- Write bytes of a block's register allocation. -/
def Block.apWrite (b : Block) (off : Nat) : List Byte → Block
  | [] => b
  | x :: xs => Block.apWrite (b.apWriteByte off x) (off + 1) xs
/-- Words that a write of `n` bytes covers whole lose their poison, and those of `whole` (R277). -/
def Block.apClear (b : Block) (off n : Nat) (whole : List Nat) : Block :=
  { b with badRegs := b.badRegs.filter (fun w => !(off ≤ w * 4 && w * 4 + 4 ≤ off + n) && !(w ∈ whole)) }

/-- The thread, the queue and the backing register of it that a word of a block's register allocation is (R74, R419). -/
def State.backed (s : State) (b w : Nat) : Option (Nat × Nat × Nat) :=
  let n := (s.block b).nregs
  (s.liveFloes b).findSome? (fun f =>
    let fl := s.floe f
    if fl.base ≤ w / n && w / n < fl.base + fl.width then
      (fl.queuesOn.find? (fun q => (fl.queue q).mode = .loop && (fl.queue q).port < w % n && w % n ≤ (fl.queue q).port + (fl.queue q).depth)).map
        (fun q => (w / n, q, w % n - (fl.queue q).port - 1))
    else none)
/-- The words that bytes of a block's register allocation touch. -/
def wordsAt (off n : Nat) : List Nat := dedupe ((upTo n).map (fun i => (off + i) / 4))
/-- A block as an aperture access of bytes finds it: the words that back a queue hold what the queue holds there (R419). -/
def State.regsView (s : State) (b off n : Nat) : Block :=
  (wordsAt off n).foldl (fun x w =>
    match s.backed b w with
    | none => x
    | some e => match ((s.block b).queueAt e.1 e.2.1).held e.2.2 with
      | none => x
      | some v => { x with vregs := x.vregs.set 0 w v.1,
                           badRegs := if v.2 then w :: x.badRegs else x.badRegs.filter (fun y => y ≠ w) }) (s.block b)
/-- Bytes of a block's register allocation, through the aperture. -/
def State.regsRead (s : State) (b off n : Nat) : Nat := (s.regsView b off n).apRead off n
/-- A word that an aperture access of bytes touches is poisoned (R277). -/
def State.regsBad (s : State) (b off n : Nat) : Bool := (s.regsView b off n).apBad off n
/-- Bytes are written to a block's register allocation: a word that backs a queue is stored in the queue's register there (R419). The words
`whole` are written in every byte by the instruction, and lose their poison with those that the bytes cover (R277). -/
def State.regsWrite (s : State) (b off : Nat) (bs : List Byte) (whole : List Nat) : State :=
  let y := (s.regsView b off bs.length).apWrite off bs
  let z := y.apClear off bs.length whole
  (wordsAt off bs.length).foldl (fun s w =>
    match s.backed b w with
    | none => s.updBlock b (fun x =>
        { x with vregs := x.vregs.set 0 w (y.vregs.getD w 0),
                 badRegs := if w ∈ z.badRegs then x.badRegs else x.badRegs.filter (fun v => v ≠ w) })
    | some e => s.updBlock b (fun x =>
        x.setQueueAt e.1 e.2.1 ((x.queueAt e.1 e.2.1).store e.2.2 (y.vregs.getD w 0) (decide (w ∈ z.badRegs))))) s

/-! ## Atomics (R339) -/

/-- The value memory becomes, of `n` bytes: old value, operand (for `.CAS` the new value) and compared value. -/
def atomApply (op : AtomOp) (n old x cmp : Nat) : Nat :=
  let m := 256 ^ n
  let sg (v : Nat) : Int := if v < m / 2 then (v : Int) else (v : Int) - m
  let f := if n = 8 then fmt64 else fmt32
  match op with
  | .add => (old + x) % m
  | .mins => if sg old ≤ sg x then old else x
  | .maxs => if sg old ≤ sg x then x else old
  | .minu => Nat.min old x
  | .maxu => Nat.max old x
  | .and => Nat.land old x
  | .or => Nat.lor old x
  | .xor => Nat.xor old x
  | .exch => x
  | .cas => if old = cmp then x else old
  | .fadd => fpAdd f old x
  | .fmin => fpMinMax f false old x
  | .fmax => fpMinMax f true old x

/-- A read-modify-write at the bank (R228): the old value, whether it was poisoned, and the state. -/
def State.bankOp (s : State) (q : BankReq) (c pa key n : Nat) (g : Nat → Nat) : Nat × Bool × State :=
  let d := dieOfCore c
  let ln := pa / 128
  let off := pa % 128
  let s1 := s.stackOwn d ln key
  let x := s1.stackLine d ln
  let old := ofBytes (Line.bytes x.data off n)
  if (x.poison &&& wordsTouched off n) ≠ 0 then (old, true, s1)
  else (old, false, s1.coreWrite q c ln key off (toBytes n (g old)) false)

/-! ## CACHE (R240, R351) -/

/-- One line operation of a core. -/
def State.cacheLine (s : State) (op : CacheOp) (c ln : Nat) : State :=
  let d := dieOfCore c
  let owned := (s.stackLine d ln).owned
  let dropL1 (s : State) : State := s.updCore c (fun k => { k with l1 := k.l1.del ln })
  match op with
  | .wb => if owned then s.stackFlush d ln else s
  | .inv => if owned then dropL1 s else (dropL1 s).stackDrop d ln
  | .wbinv => (dropL1 s).stackDrop d ln

/-! ## Lanes -/

/-- What performing a lane gives: its value (loads, atomics) and whether poisoned data was consumed. -/
structure Performed where
  value  : Nat
  poison : Bool
  s      : State

/-- The next acknowledgement of a peer package (R308, log entry 9). -/
def State.peerAnswer (s : State) : W64 × State :=
  match s.peerIn with
  | v :: t => (v, { s with peerIn := t })
  | [] => s.draw
/-- What a tier-3 page's home answers next (R214, log entry 9): free bytes where the input names none. -/
def State.homeAnswer (s : State) : PeerAns × State :=
  match s.homeIn with
  | v :: t => (v, { s with homeIn := t })
  | [] => let r := s.draw; let r2 := r.2.draw; (.value (r.1 ++ r2.1), r2.2)
/-- The bytes of an answer; an answer without bytes gives free ones. -/
def State.homeValue (s : State) : Nat × State :=
  match s.homeAnswer with
  | (.value v, s1) => (v.toNat, s1)
  | (_, s1) => let r := s1.draw; let r2 := r.2.draw; ((r.1 ++ r2.1).toNat, r2.2)
/-- An answer that gives bytes. -/
def PeerAns.given : PeerAns → Bool
  | .value _ => true
  | _ => false
/-- The first answer without bytes has been acted on. -/
def State.homeTold (s : State) : State :=
  { s with homeIn := s.homeIn.takeWhile (fun a => a.given) ++ (s.homeIn.dropWhile (fun a => a.given)).drop 1 }

/-- Read `n` bytes at a place for a floe (R220, R224, R244): `install` is false for `.NA`. -/
def State.readPlace (s : State) (q : BankReq) (f : Nat) (p : Place) (n : Nat) (install : Bool) : Performed :=
  let c := floeCore f
  let l := (s.block (blockOf f)).launch
  match p with
  | .absent => ⟨0, false, s⟩
  | .firn _ _ _ => ⟨0, false, s⟩
  | .phys pa key nc =>
    let r := s.coreRead q c (pa / 128) key (descLease (s.launch l).desc) (s.floe f).floor (!nc) install
    ⟨ofBytes (Line.bytes r.1.data (pa % 128) n), (r.1.poison &&& wordsTouched (pa % 128) n) ≠ 0, r.2⟩
  | .regs off => ⟨s.regsRead (blockOf f) off n, s.regsBad (blockOf f) off n, s⟩
  | .cell pa lt =>
    let d := dieOfCore c
    let s1 := s.replicaFill l d (pa / 128) lt
    let r := s1.replica l d (pa / 128)
    let z := cellSize lt
    if n = z then ⟨r.cell (pa % 128), r.poisoned (pa % 128) n, s1⟩
    else
      -- a narrower or wider load reads the bytes of the cells it covers
      ⟨ofBytes ((upTo n).map (fun i =>
        (toBytes z (r.cell ((pa % 128 + i) / z * z))).getD ((pa + i) % z) 0)), r.poisoned (pa % 128) n, s1⟩
  | .peer _ _ => let r := s.homeValue; ⟨r.1 % 256 ^ n, false, r.2⟩

/-- What a discard will put back is replaced by what stands there now, where a window has changed it. -/
def undoNow {α : Type} (t : Tab α) (now : Nat → α) (ks : List Nat) : Tab α :=
  ks.foldl (fun t k => if (t.get? k).isSome then t.put k (now k) else t) t
/-- What an operation outside a floe's window writes into registers is what a discard leaves, also where the window has changed them (R238):
words of the block's register allocation, uniform registers, predicates. -/
def State.keepWrites (s : State) (f : Nat) (words sregs preds : List Nat) : State :=
  match (s.floe f).fence with
  | none => s
  | some w =>
    let b := s.block (blockOf f)
    s.updFloe f (fun fl => { fl with fence := some { w with saved := { w.saved with
      vregs := undoNow w.saved.vregs (fun k => b.vregs.getD k 0) words
      bad := undoNow w.saved.bad (fun k => decide (k ∈ b.badRegs)) words
      sregs := undoNow w.saved.sregs (fun n => fl.S n) sregs
      preds := undoNow w.saved.preds (fun k => b.preds.getD k false) preds } } })
/-- The same for words that any floe's window may have changed: an aperture store (R68). -/
def State.keepWords (s : State) (b : Nat) (words : List Nat) : State := (s.liveFloes b).foldl (fun s f => s.keepWrites f words [] []) s
/-- Write bytes at a place for a floe (R222, R70, R214). -/
def State.writePlace (s : State) (q : BankReq) (f : Nat) (p : Place) (bs : List Byte) (noAlloc : Bool) : State :=
  let c := floeCore f
  match p with
  | .absent => s
  | .firn _ _ _ => s
  | .phys pa key _ => s.coreWrite q c (pa / 128) key (pa % 128) bs noAlloc
  | .regs off => (s.regsWrite (blockOf f) off bs q.regs).keepWords (blockOf f) (wordsAt off bs.length)
  | .cell _ _ => s
  | .peer _ _ => (s.makeNonReplayable (s.block (blockOf f)).launch).updLaunch (s.block (blockOf f)).launch
      (fun x => { x with wrotePeer := true })

/-- A lane's load of `n` bytes; what a peer returned stands in the lane's data since its check (R214). -/
def State.readLane (s : State) (q : BankReq) (f : Nat) (o : MemOp) (a : LaneAcc) (n : Nat) : Performed :=
  match a.place with
  | .peer _ _ => ⟨a.data.toNat % 256 ^ n, false, s⟩
  | p => s.readPlace q f p n (!o.noAlloc)

/-- Perform one lane of a memory operation of a floe. -/
def State.performLane (s : State) (q : BankReq) (f : Nat) (o : MemOp) (a : LaneAcc) : Performed :=
  let c := floeCore f
  match o.kind with
  | .load =>
    if o.size = 0 then
      let r := s.readLane q f o a 1
      ⟨if a.hi then r.value / 16 else r.value % 16, r.poison, r.s⟩
    else s.readLane q f o a o.size
  | .store => ⟨0, false, s.writePlace q f a.place (toBytes o.size a.data.toNat) o.noAlloc⟩
  | .nibble =>
    let put (v : Nat) : Nat := if a.hi then v % 16 + a.data.toNat % 16 * 16 else v / 16 * 16 + a.data.toNat % 16
    match a.place with
    | .phys pa key _ =>
      -- one nibble of a word: the word is not covered whole, so poison stays
      let s1 := s.stackOwn (dieOfCore c) (pa / 128) key
      let v := (Line.byte (s1.stackLine (dieOfCore c) (pa / 128)).data (pa % 128)).toNat
      ⟨0, false, s1.coreWrite q c (pa / 128) key (pa % 128) (toBytes 1 (put v)) false⟩
    | .regs off =>
      ⟨0, false, (s.regsWrite (blockOf f) off (toBytes 1 (put (s.regsRead (blockOf f) off 1))) []).keepWords (blockOf f) (wordsAt off 1)⟩
    | p => ⟨0, false, s.writePlace q f p [] false⟩
  | .atom op =>
    match a.place with
    | .phys pa key _ =>
      let r := s.bankOp q c pa key o.size (fun old => atomApply op o.size old (a.data.toNat % 256 ^ o.size) a.cmp.toNat)
      ⟨r.1, r.2.1, r.2.2⟩
    | .peer _ _ => ⟨a.data.toNat % 256 ^ o.size, false, s.writePlace q f a.place [] false⟩
    | _ => ⟨0, false, s⟩
  | .red op =>
    match a.place with
    | .phys pa key _ =>
      let r := s.bankOp q c pa key o.size (fun old => atomApply op o.size old (a.data.toNat % 256 ^ o.size) a.cmp.toNat)
      ⟨0, r.2.1, r.2.2⟩
    | p => ⟨0, false, s.writePlace q f p [] false⟩
  | .cache op =>
    match a.place with
    | .phys pa _ _ => ⟨0, false, if paTier pa = 2 && op = .wb then s else s.cacheLine op c (pa / 128)⟩
    | _ => ⟨0, false, s⟩
  | .join => joinLane
  | .joinStrict => joinLane
where
  /-- A lane's join into the replica (R246). -/
  joinLane : Performed :=
    match a.place with
    | .cell pa lt =>
      let d := dieOfCore (floeCore f)
      let l := (s.block (blockOf f)).launch
      let s1 := s.replicaFill l d (pa / 128) lt
      let r := (s1.replica l d (pa / 128)).joinCell d (pa % 128) (a.data.toNat % 256 ^ o.size)
      ⟨0, (s1.replica l d (pa / 128)).poisoned (pa % 128) o.size,
        s1.updLaunch l (fun x => { x with replicas := x.replicas.put (replicaKey d (pa / 128)) r })⟩
    | _ => ⟨0, false, s⟩

/-- Bind a lane's value in its destination (R391): one register, an even pair, four registers, or uniform registers; a
queue port takes it as a push (R75), whose room R76 had checked at issue (log entry 16). -/
def State.bindLane (s : State) (f : Nat) (o : MemOp) (lane v : Nat) : State :=
  match o.dest with
  | .none => s
  | .uni n =>
    s.updFloe f (fun fl =>
      let fl1 := fl.setS n (BitVec.ofNat 64 v)
      if o.size = 16 then fl1.setS (n + 1) (BitVec.ofNat 64 (v / 2 ^ 64)) else fl1)
  | .vec r =>
    let t := (s.floe f).base + lane
    let k := if o.size ≤ 4 then 1 else o.size / 4
    s.updBlock (blockOf f) (fun b => (upTo k).foldl (fun b i =>
      let x : W32 := BitVec.ofNat 32 (v / 2 ^ (32 * i))
      match (s.floe f).portOf (r + i) with
      | some q => b.pushQ t q ((s.floe f).queue q).depth x
      | none => b.setReg t (r + i) x) b)

/-- The words of the block's register allocation that a lane of an operation binds, and the uniform registers. -/
def State.boundWords (s : State) (f : Nat) (o : MemOp) (lane : Nat) : List Nat :=
  match o.dest with
  | .vec j => (upTo (if o.size ≤ 4 then 1 else o.size / 4)).map (fun i =>
      (s.block (blockOf f)).regIdx ((s.floe f).base + lane) (j + i))
  | _ => []
def MemOp.boundS (o : MemOp) : List Nat :=
  match o.dest with
  | .uni n => if o.size = 16 then [n, n + 1] else [n]
  | _ => []
/-- What an operation older than a fence binds while the fence's window is open is what a discard leaves (R238). -/
def State.bindSaved (s : State) (f : Nat) (o : MemOp) (lane : Nat) : State :=
  if (s.floe f).fence.all (fun w => w.before ≤ o.seq) then s else s.keepWrites f (s.boundWords f o lane) o.boundS []

/-- Bind what a lane has performed; consumption of poison rolls the launch back (R277). -/
def State.bindPerformed (s : State) (f : Nat) (o : MemOp) (a : LaneAcc) (p : Performed) : State :=
  let b := s.block (blockOf f)
  if p.poison then p.s.consume b.launch (some b.id) else (p.s.bindLane f o a.lane p.value).bindSaved f o a.lane
/-- Perform one lane and bind its result. -/
def State.performBind (s : State) (q : BankReq) (f : Nat) (o : MemOp) (a : LaneAcc) : State :=
  s.bindPerformed f o a (s.performLane q f o a)

/-- Mark a lane of an operation of a floe performed. -/
def Floe.markDone (fl : Floe) (seq lane : Nat) : Floe :=
  { fl with ops := fl.ops.map (fun o => if o.seq = seq then
      { o with lanes := o.lanes.map (fun a => if a.lane = lane then { a with done := true } else a) } else o) }

/-- Two places share a byte. -/
def placesMeet (p : Place) (n : Nat) (q : Place) (m : Nat) : Bool :=
  match p, q with
  | .phys a _ _, .phys b _ _ => a < b + Nat.max m 1 && b < a + Nat.max n 1
  | .regs a, .regs b => a < b + Nat.max m 1 && b < a + Nat.max n 1
  | .cell a _, .cell b _ => a < b + Nat.max m 1 && b < a + Nat.max n 1
  | _, _ => false

/-- R232 orders the operation as a write. -/
def OpKind.isWrite : OpKind → Bool
  | .load => false
  | _ => true

/-- The line that a lane of an operation writes at a bank. -/
def LaneAcc.writes (a : LaneAcc) (k : OpKind) : List Nat :=
  match a.place with
  | .phys pa _ _ => if k.isWrite then [pa / 128] else []
  | _ => []

/-- Perform lanes of an operation in ascending order, each line as one request (R323, R341). -/
def State.performLanes (s : State) (q : BankReq) (f : Nat) (o : MemOp) : List LaneAcc → State
  | [] => s
  | a :: as =>
    let p := s.performLane q f o a
    let s1 := (s.bindPerformed f o a p).updFloe f (fun fl => fl.markDone o.seq a.lane)
    s1.performLanes (if p.poison then q else { q with written := a.writes o.kind ++ q.written }) f o as

/-- A place that an access can be performed at: translated, and its data within reach. -/
def Place.here : Place → Bool
  | .absent => false | .firn _ _ _ => false | _ => true
/-- The lanes of an operation that are translated, with their data within reach, and not yet performed. -/
def MemOp.todo (o : MemOp) : List LaneAcc := o.lanes.filter (fun a => !a.done && a.place.here)

/-- The line that a lane's access goes to. -/
def LaneAcc.line (a : LaneAcc) : Option Nat :=
  match a.place with
  | .phys pa _ _ => some (pa / 128)
  | _ => none
/-- Lanes with those of one line together, each line one request (R323). -/
def byLine (ls : List LaneAcc) : List LaneAcc :=
  ((ls.map (fun a => a.line)).eraseDups.map (fun l => ls.filter (fun a => a.line = l))).flatten
/-- The words of which bytes cover all four. -/
def wholeWords (bytes : List Nat) : List Nat :=
  (dedupe (bytes.map (fun i => i / 4))).filter (fun w => (upTo 4).all (fun k => (w * 4 + k) ∈ bytes))
/-- The words of memory of which the lanes of a narrow store write every byte between them (R277). -/
def MemOp.wholeMem (o : MemOp) : List Nat :=
  if o.kind = .store && o.size < 4 then
    wholeWords ((o.todo.map (fun a => match a.place with | .phys pa _ _ => (upTo o.size).map (fun i => pa + i) | _ => [])).flatten)
  else []
/-- The words of the register region of which the lanes of a narrow store write every byte between them (R277). -/
def MemOp.wholeRegs (o : MemOp) : List Nat :=
  if o.kind = .store && o.size < 4 then
    wholeWords ((o.todo.map (fun a => match a.place with | .regs off => (upTo o.size).map (fun i => off + i) | _ => [])).flatten)
  else []
/-- The core's time after lines of an operation have answered: it rises to the latest of their stamps once all have (R323). -/
def State.riseTime (s0 s : State) (f : Nat) (o : MemOp) : State :=
  let c := floeCore f
  if o.lanes.all (fun a => a.done || a.place.here) then
    match o.rise with
    | none => s
    | some t => s.raiseCtime c t
  else (s.updCore c (fun k => { k with ctime := (s0.core c).ctime })).updFloe f (fun fl =>
    { fl with ops := fl.ops.map (fun x =>
        if x.seq = o.seq then { x with rise := some (laterOf (o.rise.getD (s0.core c).ctime) (s.core c).ctime) } else x) })
/-- Perform every lane of an operation that is to be performed (R323). -/
def State.performAll (s : State) (f : Nat) (o : MemOp) : State :=
  if o.todo.isEmpty then s
  else s.riseTime (s.performLanes ⟨o.time, (s.core (floeCore f)).ctime, [], o.wholeMem, o.wholeRegs⟩ f o (byLine o.todo)) f o

/-- Every lane of every outstanding operation of a floe has been performed (R231, R375). -/
def Floe.opsDone (fl : Floe) : Bool := fl.ops.all (fun o => o.lanes.all (fun a => a.done))
/-- The operations older than a sequence number are all performed. -/
def Floe.doneBefore (fl : Floe) (n : Nat) : Bool := fl.ops.all (fun o => n ≤ o.seq || o.lanes.all (fun a => a.done))
/-- The writes of a floe older than `before` that meet bytes it is about to read. -/
def Floe.writesMet (fl : Floe) (p : Place) (n before : Nat) : List MemOp :=
  fl.ops.filter (fun o => o.cls = .stores && o.seq < before && o.todo.any (fun a => placesMeet p n a.place o.size))
/-- Before a floe reads bytes, its older writes of them are performed (R232); a join is performed only when the operations before it
are (R250). -/
def State.drainFor (s : State) (f : Nat) (p : Place) (n before : Nat) : State :=
  ((s.floe f).writesMet p n before).foldl (fun s o => if o.kind = .join && !((s.floe f).doneBefore o.seq) then s else s.performAll f o) s
/-- A join of bytes that a floe is about to read waits for operations before it, and the read with it (R232, R250). -/
def Floe.joinAhead (fl : Floe) (p : Place) (n before : Nat) : Bool :=
  (fl.writesMet p n before).any (fun o => o.kind = .join && !(fl.doneBefore o.seq))

/-- Perform what an operation can perform; a load performs the older writes of its bytes first (R232). -/
def State.performOp (s : State) (f : Nat) (o : MemOp) : State :=
  let s1 := if o.cls = .loads then o.todo.foldl (fun s a => s.drainFor f a.place o.size o.seq) s else s
  s1.performAll f o

/-- Every outstanding load of a floe is complete. -/
def Floe.loadsDone (fl : Floe) : Bool := fl.ops.all (fun o => o.cls ≠ .loads || o.lanes.all (fun a => a.done))
/-- An acquire that a fragment finds outstanding (R232): an acquire load, or the `LLDT` of another fragment, which waits or has parked
(R250). Later loads and writes wait. -/
def Floe.acquiring (fl : Floe) (id : Nat) : Bool :=
  fl.ops.any (fun o => o.acquire) || fl.frags.any (fun g => g.id ≠ id && (g.wait = .lattice || g.left.isSome))
/-- A `FENCE.REL` that has not completed holds later writes (R375). -/
def Floe.relHolds (fl : Floe) : Bool := fl.rels.any (fun n => !(fl.doneBefore n))

end Sys2Proof.Machine
end

