-- ==== Sys2Proof/Machine/Illf.lean ====
section
/-!
DEFINITION. The fields that an emulation trap presents in `ILLF0` to `ILLF3` (R80, R93).
-/
namespace Sys2Proof.Machine

/-- The layout code of a word's major (R82, R85, R93); QUEUE is I or E by its bits [31:29]. At offset 0xFFE these are not fetched and are taken as
zero, so layout I; the reserved ones from 2 to 7 are presented in layout E. R85 says neither (log entry 20). -/
def layoutOf (w : Nat) : Nat :=
  match bitsOf w 1 6 with
  | 0x01 => 1 | 0x03 => 1 | 0x07 => 1 | 0x08 => 1 | 0x0B => 1 | 0x0C => 1 | 0x10 => 1 | 0x11 => 1 | 0x14 => 1
  | 0x23 => 1 | 0x24 => 1 | 0x25 => 1
  | 0x02 => 2 | 0x04 => 2
  | 0x09 => 3 | 0x0A => 3
  | 0x17 => 4 | 0x18 => 4 | 0x19 => 4 | 0x1C => 4 | 0x1D => 4
  | 0x1A => 5 | 0x1B => 5
  | 0x16 => 6 | 0x1F => 6 | 0x20 => 6 | 0x21 => 6
  | 0x1E => if bitsOf w 29 3 = 0 then 2 else 6
  | 0x12 => 7 | 0x13 => 7
  | 0x22 => 8
  | 0x15 => 10
  | 0x05 => 11 | 0x06 => 11
  | 0x0D => 12 | 0x0E => 12 | 0x0F => 12
  | m => if 0x30 ≤ m && m ≤ 0x35 then 9 else 1

/-- The sub field of ILLF0, as the layout defines it (R85, R93). -/
def subOf (w : Nat) : Nat :=
  match layoutOf w with
  | 1 =>
    if bitsOf w 1 6 = 0x0B then bitsOf w 29 3 else if bitsOf w 1 6 = 0x0C then bitsOf w 27 3 else bitsOf w 27 5
  | 2 => bitsOf w 19 3
  | 4 => bitsOf w 29 3
  | 5 => bitsOf w 28 4
  | 6 => bitsOf w 29 3
  | 10 => bitsOf w 24 1
  | 11 => bitsOf w 31 1
  | 12 => bitsOf w 25 4
  | _ => 0

/-- The kind of a register field in ILLF1 (R93). -/
inductive FieldKind where
  | vec | uni | raw | none
  deriving DecidableEq, Repr

/-- The kinds of rd, ra and rb of an R-layout word (R84, R86). -/
def kindsR (w : Nat) : FieldKind × FieldKind × FieldKind :=
  let m := bitsOf w 1 6
  let sub := bitsOf w 27 5
  let c := bitsOf w 25 2
  let rd : FieldKind := if c = 2 then .uni else .vec
  let ra : FieldKind := if c = 2 || c = 3 then .uni else .vec
  let rb : FieldKind := if c = 1 || c = 2 then .uni else .vec
  match m with
  | 0x07 => if sub = 8 then (.raw, .raw, .raw) else (.raw, ra, rb)
  | 0x08 => if sub = 2 then (rd, .raw, rb) else if sub = 3 then (.raw, .uni, rb) else (rd, ra, rb)
  | 0x10 => if 6 ≤ sub && sub ≤ 8 then (.uni, .raw, rb)
            else if sub = 4 || sub = 5 || (9 ≤ sub && sub ≤ 12) || sub = 15 then (.uni, ra, rb) else (rd, ra, rb)
  | 0x23 => if sub = 1 then (.raw, ra, rb) else (rd, ra, rb)
  | 0x24 => if sub ≤ 2 then (.raw, ra, rb) else if sub = 4 then (.raw, .vec, rb) else (rd, ra, rb)
  | _ => (rd, ra, rb)

/-- The kinds of rd, ra and rb of a 32-bit word; a field its layout does not have reads zero. R93 leaves open what kind a field has that names no
register: a vi of 63, the rd of `PREF` and `CACHE` and the vi of `FENCE` are presented raw, a ctr of 63 and the sb of `FENCE` keep the kind of
their layout (log entry 20). -/
def kindsOf (w : Nat) : FieldKind × FieldKind × FieldKind :=
  let u (i : Nat) : FieldKind := if bitsOf w i 1 = 1 then .uni else .vec
  match layoutOf w with
  | 1 => kindsR w
  | 2 => if bitsOf w 1 6 = 0x1E then (.raw, .vec, .none) else (u 22, u 22, .none)
  | 3 => (u 13, .none, .none)
  | 4 =>
    if bitsOf w 1 6 = 0x1C then
      (.raw, .uni, if bitsOf w 29 3 ≤ 2 || bitsOf w 19 6 = 63 then .raw else .vec)
    else (u 25, .uni, if bitsOf w 19 6 = 63 then .raw else .vec)
  | 5 => (.vec, .uni, if bitsOf w 19 6 = 63 then .raw else .vec)
  | 6 => (.uni, .uni, .uni)
  | 10 => (.raw, .none, .none)
  | 11 => (.vec, .vec, .none)
  | 12 => (.vec, .vec, if bitsOf w 1 6 = 0x0D then .raw else .vec)
  | _ => (.none, .none, .none)

/-- A register number in ILLF1. -/
def illfReg (k : FieldKind) (rbase field : Nat) : Nat :=
  match k with
  | .vec => (rbase + field) % 512
  | .uni => field
  | .raw => field
  | .none => 0
/-- The uniform mark of a field. -/
def illfUni (k : FieldKind) : Nat := bit01 (k = .uni)

/-- ILLF1 from three field kinds and fields. -/
def packIllf1 (k : FieldKind × FieldKind × FieldKind) (rbase rd ra rb : Nat) : W64 :=
  BitVec.ofNat 64 (illfUni k.2.2 * 2 ^ 29 + illfUni k.2.1 * 2 ^ 28 + illfUni k.1 * 2 ^ 27 +
    illfReg k.2.2 rbase rb * 2 ^ 18 + illfReg k.2.1 rbase ra * 2 ^ 9 + illfReg k.1 rbase rd)

/-- A sign-extended field as a 64-bit word. -/
def sextField (w lo n : Nat) : W64 := BitVec.ofInt 64 (fieldI (BitVec.ofNat 32 w) lo n)

/-- ILLF2 of a 32-bit word (R93). -/
def illf2Of (w : Nat) : W64 :=
  match layoutOf w with
  | 1 => if bitsOf w 1 6 = 0x25 && bitsOf w 27 5 = 2 then sextField w 7 18 else 0
  | 2 => sextField w 23 9
  | 3 => BitVec.ofNat 64 (bitsOf w 14 18)
  | 7 => sextField w 13 19 <<< 1
  | 10 => BitVec.ofNat 64 (bitsOf w 13 11 * 2)
  | 11 => BitVec.ofNat 64 (bitsOf w 25 6 * 64 + bitsOf w 19 6)
  | 12 => BitVec.ofNat 64 (bitsOf w 29 3)
  | _ => 0

/-- The four fields of a trap on a raw word of `len` bytes (R80, R93). -/
structure Illf where
  f0 : W64
  f1 : W64
  f2 : W64
  f3 : W64
  deriving DecidableEq, Repr

/-- ILLF0 to ILLF3 for a floe's trap with a reason from 0 to 11. -/
def illfOf (fl : Floe) (w len reason : Nat) : Illf :=
  if reason = 1 then
    ⟨BitVec.ofNat 64 (2 ^ 25 + bitsOf w 1 6 * 2 ^ 19 + layoutOf w * 2 ^ 8 + 1), 0, 0, 0⟩
  else if len = 2 then
    let k : FieldKind × FieldKind × FieldKind := (.vec, .vec, if bitsOf w 12 4 = 15 then .raw else .vec)
    ⟨BitVec.ofNat 64 (bitsOf w 12 4 * 2 ^ 14 + reason),
     packIllf1 k fl.rbase.toNat (bitsOf w 6 6) (bitsOf w 6 6) (bitsOf w 1 5),
     if bitsOf w 12 4 = 15 then BitVec.ofInt 64 (fieldI (BitVec.ofNat 16 w) 1 5) else 0, 0⟩
  else
    let lay := layoutOf w
    let cls := if lay = 1 then bitsOf w 25 2 else 0
    ⟨BitVec.ofNat 64 (2 ^ 25 + bitsOf w 1 6 * 2 ^ 19 + subOf w * 2 ^ 14 + cls * 2 ^ 12 + lay * 2 ^ 8 + reason),
     packIllf1 (kindsOf w) fl.rbase.toNat (bitsOf w 7 6) (bitsOf w 13 6) (bitsOf w 19 6),
     illf2Of w,
     if lay = 4 || lay = 5 then fl.S (bitsOf w 13 6) else if lay = 6 then fl.S (bitsOf w 7 6) else 0⟩

end Sys2Proof.Machine
end

