-- ==== Sys2Proof/Machine/Ops.lean ====
section
/-!
DEFINITION. What every floe instruction shares: retiring (R23, R25, R26), taking a trap, fault or interrupt and returning
from one (R92, R257 to R264), reported causes, and ending an issue.
-/
namespace Sys2Proof.Machine

/-! ## Mask stacks and fragments (R22 to R26) -/

/-- Insert a group into a mask stack, lowest program counter first; equal ones unite (R23). -/
def insertEntry : List StackEntry → BitVec 18 → Mask → List StackEntry
  | [], pc, m => [⟨pc, m⟩]
  | e :: t, pc, m =>
    if pc = e.pc then ⟨pc, e.mask ||| m⟩ :: t
    else if pc.toNat < e.pc.toNat then ⟨pc, m⟩ :: e :: t
    else e :: insertEntry t pc m

/-- The rules of R23 after an instruction, exited lanes (R21) cleared; none where the fragment ends. -/
def Fragment.settle (g : Fragment) (live : Mask) : Option Fragment :=
  let act := g.active &&& live
  let stack := (g.stack.map (fun e => { e with mask := e.mask &&& live })).filter (fun e => e.mask ≠ 0)
  match stack with
  | [] => if act = 0 then none else some { g with active := act, stack := [] }
  | e :: t =>
    if act = 0 then some { g with pc := e.pc, active := e.mask, stack := t }
    else if g.pc = e.pc then some { g with active := act ||| e.mask, stack := t }
    else if e.pc.toNat < g.pc.toNat then
      some { g with pc := e.pc, active := e.mask, stack := insertEntry t g.pc act }
    else some { g with active := act, stack := stack }

/-- A wait whose instruction has taken effect or met its cause already and is not issued again: a fragment that joins it waits with it
(R25, log entry 21). -/
def WaitFor.issued : WaitFor → Bool
  | .granules => true | .bar _ => true | .vote _ => true | .cohort _ => true | .mrun => true | .fuse => true | .sysc => true
  | .appendSync => true | .trap => true
  | _ => false
/-- Fragments with these waits merge (R25). Two that have both issued stand at one program counter only where their stacks have kept them
apart as the later one reached it, and neither stack changes while both wait, so that none is kept apart here which R25 merges. -/
def WaitFor.meets (a b : WaitFor) : Bool := !(a.issued && b.issued)

/-- The merged stack of two fragments (R25). -/
def mergeStacks (a b : List StackEntry) : List StackEntry := b.foldl (fun st e => insertEntry st e.pc e.mask) a

/-- The lower of two lanes with causes. -/
def lowerHard (a b : Option (Nat × BitVec 8 × W64)) : Option (Nat × BitVec 8 × W64) :=
  match a, b with
  | some x, some y => if x.1 ≤ y.1 then some x else some y
  | some x, none => some x
  | none, h => h
/-- The lanes of a fragment that have still to perform the instruction at which it stands (R201). -/
def Fragment.undone (g : Fragment) : Mask := (g.left.map (fun x => x.lanes)).getD g.active
/-- What two fragments that merge have left of a threshold read that one of them has parked at: the lanes that have not performed it. -/
def mergeLeft (g h : Fragment) : Option Unfinished :=
  if g.left.isSome || h.left.isSome then
    some ⟨g.undone ||| h.undone, lowerHard (g.left.bind (fun x => x.hard)) (h.left.bind (fun x => x.hard))⟩
  else none

/-- Merge a fragment with another at its program counter (R25); the earlier place in fragment order stays. A wait whose instruction has
issued goes on for both, under its fragment's name; any other instruction is issued again by the union. The wait count and the standing
after a `YIELD` are those of the earlier fragment (log entry 50). -/
def Floe.mergeAt (fl : Floe) (id : Nat) : Floe :=
  let g := fl.frag id
  match fl.frags.find? (fun h => h.id ≠ id && h.pc = g.pc && h.handler = g.handler && h.wait.meets g.wait &&
      (mergeStacks h.stack g.stack).length ≤ 16) with
  | none => fl
  | some h =>
    let first := ((fl.frags.find? (fun x => x.id = id || x.id = h.id)).getD g).id
    let gone := if first = id then h.id else id
    let keep := fl.frag first
    let wait : WaitFor := if g.wait.issued then g.wait else if h.wait.issued then h.wait else .none
    let name := if (fl.frag gone).wait.issued then gone else first
    let m := { keep with id := name, active := g.active ||| h.active, stack := mergeStacks h.stack g.stack, wait := wait
                         rb := if g.wait.issued then g.rb else if h.wait.issued then h.rb
                           else if (mergeLeft g h).isSome then g.rb.or h.rb else none
                         left := mergeLeft g h
                         owes := (keep.owes ++ (fl.frag gone).owes).filter (fun x => x ≠ gone && x ≠ first) }
    { fl with frags := (fl.frags.filter (fun x => x.id ≠ gone)).map (fun x =>
        if x.id = first then m else { x with owes := x.owes.filter (fun y => y ≠ gone && y ≠ first || y = name) }) }

/-- The fragments that may issue: while a call record is live, only handler fragments (R262). -/
def Floe.mayIssue (fl : Floe) (g : Fragment) : Bool := fl.recs.isEmpty || g.handler

/-- A wait that keeps a fragment from an issue point: not a cause that is due, whose entry is taken there (R268). -/
def WaitFor.keeps : WaitFor → Bool
  | .none => false | .trap => false | _ => true

/-- The state of R45 after a change of waits: a floe all of whose issuing fragments wait is waiting, and a waiting floe
with one that does not, and without the hold of R338, is ready. -/
def Floe.settleState (fl : Floe) (now : Nat) : Floe :=
  let fs := fl.frags.filter (fun g => fl.mayIssue g)
  let all := fs.all (fun g => g.wait.keeps)
  match fl.st with
  | .active => if all then { fl with st := .waiting } else fl
  | .ready => if all then { fl with st := .waiting } else fl
  | .waiting => if all || fl.hold then fl else { fl with st := .ready, readyAt := now }
  | _ => fl

/-- Drop a fragment. -/
def Floe.dropFrag (fl : Floe) (id : Nat) : Floe :=
  { fl with frags := (fl.frags.filter (fun x => x.id ≠ id)).map (fun x =>
      { x with owes := x.owes.filter (fun y => y ≠ id) }) }

/-- A fragment goes on at a program counter with no wait: the rules of R23 and R25. -/
def Floe.goTo (fl : Floe) (id : Nat) (t : BitVec 18) (now : Nat) : Floe :=
  let fl1 := fl.updFrag id (fun g => { g with pc := t, wait := .none, rb := none, left := none })
  let fl2 :=
    match (fl1.frag id).settle fl1.live with
    | none => fl1.dropFrag id
    | some g => (fl1.updFrag id (fun _ => g)).mergeAt id
  fl2.settleState now

/-- The fragment's next program counter after an instruction of `len` bytes. -/
def nextPc (pc : BitVec 18) (len : Nat) : BitVec 18 := pc + BitVec.ofNat 18 len

/-- A fragment retires its instruction of `len` bytes. -/
def State.retireFrag (s : State) (f id len : Nat) : State :=
  s.updFloe f (fun fl => fl.goTo id (nextPc (fl.frag id).pc len) s.now)

/-- A wait whose instruction is run again with the registers it resolved at issue (R67). -/
def WaitFor.keepsBase : WaitFor → Bool
  | .lattice => true | .granules => true | _ => false
/-- A fragment waits (R45); its program counter stays. -/
def State.waitFrag (s : State) (f id : Nat) (w : WaitFor) : State :=
  s.updFloe f (fun fl => (fl.updFrag id (fun g =>
    { g with wait := w, rb := if w.keepsBase then some (g.rb.getD fl.rbase) else none })).settleState s.now)

/-! ## Reported causes (R257, R179, R156) -/

/-- Report a cause to a floe; a retired floe's reports go to the block's lowest unretired floe, a full queue or no floe
ends the launch (R179, R257). -/
def State.report (s0 : State) (f : Nat) (r : Report) : State :=
  let b := blockOf f
  let s := if r.cause = 0x09 || r.cause = 0x0A then s0.countEvent (coreOf b) 1 else s0
  let tgt : Option Nat := if s.unretired f then some f else (s.liveFloes b).head?
  match tgt with
  | none => s.haltLaunch (s.block b).launch 3 r.cause.toNat (some (s.block b).id)
  | some g =>
    if 8 ≤ (s.floe g).reports.length then s.haltLaunch (s.block b).launch 3 r.cause.toNat (some (s.block b).id)
    else s.updFloe g (fun fl => { fl with reports := fl.reports ++ [r] })

/-- Report a cause to a block's lowest unretired floe (R91, R156). -/
def State.reportBlock (s : State) (b : Nat) (r : Report) : State :=
  match (s.liveFloes b).head? with
  | none => s.report (floeKey b 0) r
  | some f => s.report f r

/-- A report of a plain cause and address. -/
def Report.plain (cause : Nat) (faddr : W64) : Report := ⟨BitVec.ofNat 8 cause, faddr, 0, 0, 0⟩

/-! ## Handler entry (R258 to R261, R264) -/

def thandlerOf (u : W64) : BitVec 18 := BitVec.ofNat 18 (fieldN u 44 18)
def tenOf (u : W64) : Bool := bitN u 43
def tperOf (u : W64) : Nat := fieldN u 20 12
def ihandlerOf (u : W64) : BitVec 18 := BitVec.ofNat 18 (fieldN u 0 18)

/-- The 64 bytes of a call record (R260). -/
def callRecord (fl : Floe) (g : Fragment) (interrupt skip : Bool) : Nat :=
  fl.faddr.toNat * 2 ^ 448 + (g.active.toNat / 2 ^ 64) * 2 ^ 384 + (g.active.toNat % 2 ^ 64) * 2 ^ 320 +
  fl.epc.toNat * 2 ^ 238 + fl.fcause.toNat * 2 ^ 230 + fl.uepc.toNat * 2 ^ 212 + fl.umask.toNat * 2 ^ 209 +
  bit01 interrupt * 2 ^ 208 + bit01 skip * 2 ^ 207 + fl.recs.length * 2 ^ 203

/-- End a floe's launch with status 3 (R259, R264). -/
def State.abortFloe (s : State) (f cause : Nat) : State :=
  s.haltLaunch (s.block (blockOf f)).launch 3 cause (some (s.block (blockOf f)).id)

/-- The home of a tier-3 page takes the write of a call record; none where it answers with a cause, an absence or nothing (R214, R264). -/
def State.recordHome (s : State) (p : Place) : Option State :=
  match p with
  | .peer _ _ =>
    match s.homeAnswer with
    | (.value _, s1) => some s1
    | _ => none
  | _ => some s
/-- Write a call record and push it (R261 steps 1 and 2); none where the entry is a nested fault (R264). -/
def State.pushRecord (s : State) (f id : Nat) (interrupt skip : Bool) : Option State :=
  let fl := s.floe f
  let sp := fl.S 62
  if fieldN sp 0 6 ≠ 0 || 8 ≤ fl.recs.length then none
  else
    let va := sp - 64
    match s.checkLane (blockOf f) .store 64 false va with
    | .cause _ => none
    | .ok p =>
      ((s.holdXlat (floeCore f) (s.asidOf (blockOf f)) va.toNat).recordHome p).map (fun s0 =>
        (s0.writePlace (s0.reqNow (floeCore f)) f p (toBytes 64 (callRecord fl (fl.frag id) interrupt skip)) false).updFloe f (fun x =>
          { (x.setS 62 va).updFrag id (fun g => { g with handler := true }) with recs := x.recs ++ [va] }))

/-- The horizon holds the write of a fragment's call record back (R218). -/
def State.recordHeld (s : State) (f id : Nat) (interrupt skip : Bool) : Bool :=
  match s.pushRecord f id interrupt skip with
  | none => false
  | some s1 => s.heldBack (floeCore f) s1
/-- A synchronous cause cannot enter the handler yet: a pre-emption has been requested, with its instruction at the latest (R46), other
fragments' records are live (R262), or the horizon holds the record back (R218). -/
def State.trapHeld (s : State) (f id : Nat) (skip : Bool) : Bool :=
  (s.core (floeCore f)).haltReq || (s.cur.halt && floeCore f = s.cur.core) || !((s.floe f).mayIssue ((s.floe f).frag id)) ||
    (tenOf (s.floe f).uivec && s.recordHeld f id false skip)
/-- The cause stays pending, and the fragment with it; its entry comes before the fragment issues again (R268). -/
def State.holdTrap (s : State) (f : Nat) (d : Due) : State :=
  s.updFloe f (fun x =>
    (Floe.updFrag { x with due := x.due ++ [d] } d.frag (fun g => { g with wait := .trap, rb := none, left := none })).settleState s.now)
/-- Enter the trap handler with a cause (R261); with ten 0 the launch ends (R259). -/
def State.enterTrap (s : State) (f id cause : Nat) (faddr : W64) (epc : BitVec 18) (skip : Bool) : State :=
  let fl := s.floe f
  if s.trapHeld f id skip then s.holdTrap f ⟨id, cause, faddr, skip, none⟩
  else if !(tenOf fl.uivec) then s.abortFloe f cause
  else
    match s.pushRecord f id false skip with
    | none => s.abortFloe f 0x11
    | some s1 =>
      s1.updFloe f (fun x =>
        ({ x with epc := epc, fcause := BitVec.ofNat 8 cause, faddr := faddr }.updFrag id (fun g =>
          { g with pc := thandlerOf fl.uivec, wait := .none, rb := none, left := none })).settleState s1.now)
/-- A cause that is due enters the handler, where nothing holds it any more; the fragment stands at its instruction (R46, R268). -/
def State.enterDue (s : State) (f id : Nat) : State :=
  match (s.floe f).due.find? (fun d => d.frag = id) with
  | none => s.updFloe f (fun x => (x.updFrag id (fun g => { g with wait := .none })).settleState s.now)
  | some d =>
    if s.trapHeld f id d.skip then s
    else
      let s1 := s.updFloe f (fun x => { x with due := x.due.filter (fun y => y.frag ≠ id) })
      let s2 := match d.ill with
        | none => s1
        | some (op, f0, f1, f2, f3) =>
          s1.updFloe f (fun x => { x with illop := op, illf0 := f0, illf1 := f1, illf2 := f2, illf3 := f3 })
      s2.enterTrap f id d.cause d.faddr ((s.floe f).frag id).pc d.skip

/-- Enter the interrupt handler (R261, R266). -/
def State.enterInterrupt (s : State) (f id : Nat) : State :=
  let fl := s.floe f
  match s.pushRecord f id true false with
  | none => s.abortFloe f 0x11
  | some s1 =>
    s1.updFloe f (fun x =>
      ({ x with uepc := (fl.frag id).pc, umask := 7 }.updFrag id (fun g =>
        { g with pc := ihandlerOf fl.uivec, wait := .none, rb := none, left := none })).settleState s1.now)

/-- The emulation trap of R92 by a fragment's own instruction: the raw word, the fields, and the handler. -/
def State.emulTrap (s : State) (f id word len reason : Nat) : State :=
  let fl := s.floe f
  let ill := illfOf fl word len reason
  let skip := decide (reason ≤ 11)
  if s.trapHeld f id skip then s.holdTrap f ⟨id, 0x0B, 0, skip, some (BitVec.ofNat 64 word, ill.f0, ill.f1, ill.f2, ill.f3)⟩
  else
    (s.updFloe f (fun x =>
      { x with illop := BitVec.ofNat 64 word, illf0 := ill.f0, illf1 := ill.f1, illf2 := ill.f2, illf3 :=
        ill.f3 })).enterTrap f id 0x0B 0 (fl.frag id).pc skip

/-- A virtual address lies in a 64 KiB frame that holds a live call record or the bytes of the next one (R264). -/
def Floe.onHandlerStack (fl : Floe) (va : W64) : Bool :=
  let fr (x : W64) : Nat := x.toNat / 2 ^ 16
  fl.recs.any (fun r => fr r = fr va) || fr (fl.S 62 - 64) = fr va || fr (fl.S 62 - 1) = fr va

/-- A precise fault of a fragment's instruction (R256); `data` marks a data access of R264. -/
def State.preciseFault (s : State) (f id cause : Nat) (faddr : W64) (data : Bool) : State :=
  let fl := s.floe f
  let g := fl.frag id
  if data && g.handler && fl.onHandlerStack faddr then s.abortFloe f 0x11
  else (if cause = 0x09 then s.countEvent (floeCore f) 1 else s).enterTrap f id cause faddr g.pc false

/-- The oldest reported cause enters the trap handler (R257, R268). -/
def State.enterReport (s : State) (f id : Nat) (r : Report) (rest : List Report) : State :=
  let g := (s.floe f).frag id
  let s1 := s.updFloe f (fun x => { x with reports := rest })
  let s2 := if r.cause = 0x0B then
      s1.updFloe f (fun x => { x with illop := r.illop, illf0 := r.illf0, illf1 := 0, illf2 := 0, illf3 := r.illf3 })
    else s1
  s2.enterTrap f id r.cause.toNat r.faddr g.pc false

/-! ## Returns (R263, R362) -/

/-- The slot of a core's code store. -/
def Core.slot (c : Core) (k : Nat) : CodeSlot := c.slots.getD k CodeSlot.reset
/-- A halfword of the code store at a code address. -/
def Core.halfword (c : Core) (a : Nat) : Nat :=
  let sl := c.slot (a / 4096 % 64)
  (sl.bytes.getD (a % 4096) 0).toNat + 256 * (sl.bytes.getD (a % 4096 + 1) 0).toNat
/-- A code address lies in a landed slot, below its landed length (R188). -/
def Core.landed (c : Core) (a : Nat) : Bool :=
  (c.slot (a / 4096 % 64)).st = .landed && a % 4096 < (c.slot (a / 4096 % 64)).len

/-- What a return can do. -/
inductive Return where
  | trap
  | notLanded
  | nested
  | held
  | done (s : State)

/-- A load of a call record meets a cause that a plain check does not show: a firn line held (R206), a shelf without room (R243), a home
that gives no bytes (R214). A poisoned record is cause 0x0D, and so a nested fault as well (R264). -/
def State.recordLost (s : State) (f : Nat) (p : Place) : Bool :=
  s.firnHolds p || (match p with
    | .cell pa lt => !(s.replicaOk (s.block (blockOf f)).launch (dieOfCore (floeCore f)) (pa / 128) lt)
    | .peer _ _ => (match s.homeIn with | .value _ :: _ => false | [] => false | _ => true)
    | _ => false)

/-- `EMRET` and `UIRET` (R263): `interrupt` tells them apart; the kind is that of the record in memory. -/
def State.handlerReturn (s : State) (f id : Nat) (interrupt : Bool) : Return :=
  let fl := s.floe f
  if fl.recs.isEmpty || 2 ≤ (fl.frags.filter (fun g => g.handler)).length then .trap
  else
    match s.checkLane (blockOf f) .load 64 false (fl.S 62) with
    | .cause _ => .nested
    | .ok p =>
      if s.recordLost f p then .nested else
      let s0 := s.holdXlat (floeCore f) (s.asidOf (blockOf f)) (fl.S 62).toNat
      let r := (s0.drainFor f p 64 fl.opSeq).readPlace (s0.reqNow (floeCore f)) f p 64 true
      let rec_ : BitVec 512 := BitVec.ofNat 512 r.value
      let skip := !interrupt && bitN rec_ 207
      if fl.joinAhead p 64 fl.opSeq || s.heldBack (floeCore f) r.s then .held
      else if r.poison then .nested
      else if bitN rec_ 208 ≠ interrupt then .trap
      else if skip && !((s.core (floeCore f)).landed fl.epc.toNat) then .notLanded
      else
        let len := if (s.core (floeCore f)).halfword fl.epc.toNat % 2 = 1 then 4 else 2
        let target := if interrupt then fl.uepc else if skip then nextPc fl.epc len else fl.epc
        .done (r.s.updFloe f (fun x =>
          let y := { x.setS 62 (x.S 62 + 64) with
            epc := BitVec.ofNat 18 (fieldN rec_ 238 18), fcause := BitVec.ofNat 8 (fieldN rec_ 230 8),
            faddr := BitVec.ofNat 64 (fieldN rec_ 448 64), uepc := BitVec.ofNat 18 (fieldN rec_ 212 18),
            umask := BitVec.ofNat 3 (fieldN rec_ 209 3), recs := x.recs.dropLast }
          (y.updFrag id (fun g => { g with
            active := BitVec.ofNat 128 (fieldN rec_ 320 128) &&& x.live, handler := !(x.recs.dropLast.isEmpty) })).goTo
              id target s.now))

/-! ## Ending an issue -/

/-- How the body of a floe instruction ends. -/
inductive Res where
  /-- it retires and goes on behind itself -/
  | go (s : State)
  /-- it retires and goes on at a target -/
  | jump (t : BitVec 18) (s : State)
  /-- the emulation trap with a reason (R90) -/
  | trap (reason : Nat)
  /-- a precise fault; `data` marks a data access of R264 -/
  | fault (cause : Nat) (faddr : W64) (data : Bool)
  /-- the fragment waits at the instruction (R45) -/
  | wait (w : WaitFor) (s : State)
  /-- poisoned data consumed (R277) -/
  | poison
  /-- the body has settled its fragments itself -/
  | as (s : State)

/-- A change of the states that a body ends with. -/
def Res.map (g : State → State) : Res → Res
  | .go s => .go (g s)
  | .jump t s => .jump t (g s)
  | .wait w s => .wait w (g s)
  | .as s => .as (g s)
  | r => r

/-- The state after a floe instruction's body: `s0` is the state before, to which a trap or fault returns. -/
def conclude (i : Instr) (s0 : State) (r : Res) : State :=
  let f := s0.cur.floe
  let id := s0.cur.frag
  let len := i.halfwords * 2
  match r with
  | .go s => s.retireFrag f id len
  | .jump t s => s.updFloe f (fun fl => fl.goTo id t s.now)
  | .trap reason => s0.emulTrap f id (encodeWord i) len reason
  | .fault cause faddr data => s0.preciseFault f id cause faddr data
  | .wait w s => s.waitFrag f id w
  | .poison => s0.consume s0.blk.launch (some s0.blk.id)
  | .as s => s

/-- A floe instruction's meaning from its body. -/
def floeOp (i : Instr) (s : State) (body : State → Res) : Host.Outcome State Fault Refusal :=
  .next (conclude i s (body s))

end Sys2Proof.Machine
end

