-- ==== Sys2Proof/Machine/Barrier.lean ====
section
/-!
DEFINITION. Acquire floors (R236), barriers and the format vote (R42, R43, R59, R157, R158), cohorts (R44), guards (R184),
and the retirement of a floe (R364).
-/
namespace Sys2Proof.Machine

/-! ## Acquire floors (R217, R236) -/

/-- A core's CTIME advances by one tick, as a fence or an acquire completes; where the horizon does not allow it, the operation waits
(`State.mayTick`, R218). -/
def State.advance (s : State) (c : Nat) : State := s.updCore c (fun k => k.atTime (k.ctime + 1))
/-- The tick at the end of 256 cycles (R217); one that the horizon holds back is owed (R218). -/
def State.tick (s : State) (c : Nat) : State :=
  if s.mayTick c then s.advance c else s.updCore c (fun k => { k with heldTicks := k.heldTicks + 1 })
/-- An acquire at package or system scope: CTIME advances and the floe's floor takes it (R236). -/
def State.acquireFloor (s : State) (f : Nat) : State :=
  let s1 := s.advance (floeCore f)
  s1.updFloe f (fun fl => { fl with floor := (s1.core (floeCore f)).ctime })

/-! ## Format words (R119, R120) -/

/-- K-block length of a pair of formats, where the pair is valid (R120). -/
def kBlock (a b : Nat) : Option Nat :=
  let mid (x : Nat) : Bool := x = 2 || x = 3 || x = 4 || x = 5 || x = 7 || x = 9
  if a ≤ 1 && b ≤ 1 then some 16
  else if mid a && mid b then some 32
  else if a = 6 && b = 6 then some 64
  else if (a = 2 || a = 3 || a = 7 || a = 9) && b = 8 then some 128
  else none
/-- A format word that meets R119 and R120. -/
def fmtWordOk (w : W32) : Bool :=
  fieldN w 22 10 = 0 && fieldN w 19 3 ≤ 3 && (fieldN w 12 4 ≤ 7 || fieldN w 12 4 = 0xA) && fieldN w 8 4 = 0 &&
  (kBlock (fieldN w 0 4) (fieldN w 4 4)).isSome

/-- The word held by the most voting lanes, the lower of two that tie (R158). -/
def agreedWord (ws : List W32) : Option W32 :=
  ws.foldl (fun best w =>
    match best with
    | none => some w
    | some v =>
      let nw := ws.count w
      let nv := ws.count v
      if nv < nw || (nv = nw && w.toNat < v.toNat) then some w else some v) none

/-! ## Phases -/

/-- The run of the block's core, when it is the block's. -/
def State.runOf (s : State) (b : Nat) : Option Run :=
  match (s.core (coreOf b)).run with
  | some r => if r.blk = b then some r else none
  | none => none
/-- The barrier mask of a run's header (R144). -/
def Run.bmask (r : Run) : Nat := fieldN (r.table.getD 0 0) 64 16
/-- The expected count of a barrier (R42). -/
def State.expected (s : State) (b n : Nat) : Nat :=
  (s.liveFloes b).foldl (fun a f => a + (s.floe f).width / 16) 0 +
    (match s.runOf b with | some r => if r.bmask / 2 ^ n % 2 = 1 then 1 else 0 | none => 0)

def Block.bar (b : Block) (n : Nat) : Barrier := b.bars.getD n Barrier.reset
def State.updBar (s : State) (b n : Nat) (g : Barrier → Barrier) : State :=
  s.updBlock b (fun x => { x with bars := x.bars.put n (g (x.bar n)) })

/-- Release the fragments of a block's floe that stand in a wait, each retiring its 4-byte instruction. -/
def State.releaseWaits (s : State) (f : Nat) (w : WaitFor) : State :=
  ((s.floe f).frags.filter (fun g => g.wait = w)).foldl (fun s g => s.retireFrag f g.id 4) s

/-- The outcome of a format vote (R158): the slot and FMTVOTE; a voting floe that disagrees takes cause 0x08 in its first
fragment that does (log entry 22), every other waiting fragment is released. -/
def State.resolveVote (s : State) (b n : Nat) (votes : List (Nat × Nat × List W32)) : State :=
  let agreed := agreedWord ((votes.map (fun v => v.2.2)).flatten)
  let ok := match agreed with | some w => fmtWordOk w | none => true
  let fs := dedupe (votes.map (fun v => v.1))
  let s1 : State := match agreed with
    | some w => if ok then
        fs.foldl (fun s f => s.updFloe f (fun fl => { fl with fmtvote := w })) (s.updBlock b (fun x => { x with fmtSlot := w }))
      else s
    | none => s
  let bad (f : Nat) : Option Nat := match agreed with
    | none => none
    | some w => (votes.find? (fun v => v.1 = f && (!ok || v.2.2.any (fun x => x ≠ w)))).map (fun v => v.2.1)
  (s1.floesOf b).foldl (fun s f =>
    ((s.floe f).frags.filter (fun g => g.wait = .vote n)).foldl (fun s g =>
      if bad f = some g.id then s.enterTrap f g.id 0x08 0 g.pc true else s.retireFrag f g.id 4) s) s1

/-- A barrier phase completes (R43, R59, R158). -/
def State.completePhase (s : State) (b n : Nat) : State :=
  let votes := ((s.block b).bar n).votes
  let s1 := s.updBar b n (fun _ => Barrier.reset)
  let bit : BitVec 16 := BitVec.ofNat 16 (2 ^ n)
  let s2 := (s1.floesOf b).foldl (fun s f => s.updFloe f (fun fl => { fl with standing := fl.standing &&& ~~~bit })) s1
  let s3 := s2.updCore (coreOf b) (fun c => { c with run := c.run.map (fun r =>
    if r.blk = b then
      { r with arrived := r.arrived &&& ~~~bit, standing := if r.standing = some n then none else r.standing,
               pc := if r.standing = some n then r.pc + 4 else r.pc }
    else r) })
  ((s3.floesOf b).foldl (fun s f => s.releaseWaits f (.bar n)) s3).resolveVote b n votes

/-- A phase whose arrival count equals its non-zero expected count completes (R42, R43). -/
def State.checkBar (s : State) (b n : Nat) : State :=
  let c := ((s.block b).bar n).count
  if c ≠ 0 && c = s.expected b n then s.completePhase b n else s

/-- A floe arrives at a barrier (R43, R59). -/
def State.arrive (s : State) (f n : Nat) : State :=
  let b := blockOf f
  let fl := s.floe f
  if fl.standing.getLsbD n then s
  else
    let s1 := s.updFloe f (fun x => { x with standing := x.standing ||| BitVec.ofNat 16 (2 ^ n) })
    (s1.updBar b n (fun x => { x with count := x.count + fl.width / 16 })).checkBar b n

/-- The block sequencer arrives at a barrier, one quantum (R153). -/
def State.seqArrive (s : State) (b n : Nat) : State :=
  match s.runOf b with
  | none => s
  | some r =>
    if r.arrived.getLsbD n then s
    else
      let s1 := s.updCore (coreOf b) (fun c =>
        { c with run := c.run.map (fun r => { r with arrived := r.arrived ||| BitVec.ofNat 16 (2 ^ n) }) })
      (s1.updBar b n (fun x => { x with count := x.count + 1 })).checkBar b n

/-! ## Cohorts (R28, R44, R353) -/

def cohValid (e : BitVec 512) : Bool := bitN e 0
/-- The member blocks of a cohort entry (R28). -/
def cohMembers (e : BitVec 512) : List Nat :=
  (upTo (fieldN e 64 32)).map (fun i => fieldN e 32 32 + i * fieldN e 96 32)
/-- The cohorts that hold a block, in increasing order (R28). -/
def Launch.cohortsOf (l : Launch) (id : Nat) : List Nat :=
  (upTo l.cohorts.length).filter (fun c => cohValid (l.cohorts.getD c 0) && id ∈ cohMembers (l.cohorts.getD c 0))

/-- The cohorts whose phases have completed and at which fragments of a floe still wait. -/
def Floe.cohortsPast (fl : Floe) : List Nat :=
  fl.frags.filterMap (fun g => match g.wait with
    | .cohort c => if c ∈ fl.cstanding then none else some c
    | _ => none)
/-- A floe is released from the completed `CBAR` phases it waits in, an acquire at package scope, as soon as the horizon allows the tick
(R218, R235, R236). -/
def State.releaseCohorts (s : State) (f : Nat) : State :=
  match dedupe (s.floe f).cohortsPast with
  | [] => s
  | cs => if s.mayTick (floeCore f) then (cs.foldl (fun s c => s.releaseWaits f (.cohort c)) s).acquireFloor f else s
/-- A cohort's phase leaves a floe's standing. -/
def Floe.leaveCohort (fl : Floe) (c : Nat) : Floe := { fl with cstanding := fl.cstanding.filter (fun k => k ≠ c) }
/-- A cohort's phase leaves the standing of the saved floes of a launch. -/
def CoreImage.leaveCohort (im : CoreImage) (l c : Nat) : CoreImage :=
  if im.launch = l then { im with floes := im.floes.map (fun e => (e.1, e.2.leaveCohort c)) } else im
/-- Complete a cohort's phase when every member has arrived or finished (R44, R235, R236). -/
def State.checkCohort (s : State) (l c : Nat) : State :=
  let x := s.launch l
  let arrived := x.cohPhase.getD c []
  let members := cohMembers (x.cohorts.getD c 0)
  if arrived.isEmpty || !(members.all (fun m => m ∈ arrived || m ∈ x.finished)) then s
  else
    let s1 := s.updLaunch l (fun x => { x with cohPhase := x.cohPhase.set [] c [] })
    let fs := ((s1.blocksOfLaunch l).map (fun b => s1.floesOf b)).flatten
    let s2 := fs.foldl (fun s f => s.updFloe f (fun fl => fl.leaveCohort c))
      { s1 with images := s1.images.map (fun im => im.leaveCohort l c) }
    fs.foldl (fun s f => s.releaseCohorts f) s2

/-- The block arrives at a cohort when every unretired floe has (R44). -/
def State.blockArrives (s : State) (b c : Nat) : State :=
  let l := (s.block b).launch
  let fs := s.liveFloes b
  if fs.isEmpty || !(fs.all (fun f => c ∈ (s.floe f).cstanding)) || (s.block b).id ∈ (s.launch l).cohPhase.getD c [] then s
  else (s.updLaunch l (fun x => { x with cohPhase := x.cohPhase.put c (x.cohPhase.getD c [] ++ [(s.block b).id]) })).checkCohort l c

/-! ## Guards (R184, R383) -/

/-- Resolve the commands and streams of a floe bound to a guard. -/
def State.resolveGuard (s : State) (f g : Nat) (v : Bool) : State :=
  let st : GuardState := if v then .free else .discarded
  (s.updFloe f (fun fl => { fl with cmds := fl.cmds.map (fun c =>
      if c.guard = g && c.guardSt = .held then { c with guardSt := st } else c) })).updBlock (blockOf f) (fun b =>
    { b with streams := b.streams.map (fun e =>
        if e.2.guard = g && e.2.guardSt = .held && (((s.floe f).queue e.2.queue).stream = some e.1) then
          (e.1, { e.2 with guardSt := st }) else e) })

/-! ## FUSE waits (R54) -/

/-- Release a floe that waits in `FUSE` with a status word in its own sd and in FUSEST (R54). -/
def State.releaseFuse (s : State) (f : Nat) (status : Nat) (sd : Nat) : State :=
  match (s.floe f).frags.find? (fun g => g.wait = .fuse) with
  | none => s
  | some g =>
    (s.updFloe f (fun fl => { fl.setS sd (BitVec.ofNat 64 status) with fusest := BitVec.ofNat 64 status })).retireFrag f g.id 4
/-- The sd field of the `FUSE` word a floe's fragment stands at. -/
def State.fuseSd (s : State) (f : Nat) : Nat :=
  match (s.floe f).frags.find? (fun g => g.wait = .fuse) with
  | none => 0
  | some g =>
    let c := s.core (floeCore f)
    bitsOf (c.halfword g.pc.toNat + 65536 * c.halfword (g.pc.toNat + 2)) 7 6
/-- The floe key of the buddy of a floe (R47, R53): none where no unretired floe of the width covers the range. -/
def State.buddy (s : State) (f : Nat) : Option Nat :=
  let fl := s.floe f
  let base := if fl.base / fl.width % 2 = 0 then fl.base + fl.width else fl.base - fl.width
  (s.liveFloes (blockOf f)).find? (fun g => (s.floe g).base = base && (s.floe g).width = fl.width)

/-! ## Retirement (R364) -/

/-- A stream has delivered its last entry, or was discarded, and its counter has not gained its 1 yet (R446). -/
def Stream.owes (x : Stream) : Bool := (x.ended || x.guardSt = .discarded) && x.ctr.isSome
/-- A floe retires: every lane has exited. A stream that only it binds stops; one whose guard resolves false with the retirement, or that has
ended, goes once its counter has gained its 1 (R446). -/
def State.retireFloe (s : State) (f : Nat) : State :=
  let b := blockOf f
  let fl := s.floe f
  let buddy := s.buddy f
  -- guards resolve false, streams stop, queue entries go
  let s1 := (upTo 8).foldl (fun s g => s.resolveGuard f g false) s
  let shared := ((s1.liveFloes b).filter (fun g => g ≠ f)).map (fun g => (s1.floe g).queuesOn.map (fun q => ((s1.floe g).queue q).stream)) |>.flatten
  let mine := fl.queuesOn.map (fun q => (fl.queue q).stream)
  let s2 := s1.updBlock b (fun x =>
    { x with streams := x.streams.filter (fun e => !(some e.1 ∈ mine) || some e.1 ∈ shared || e.2.owes),
             qents := x.qents.filter (fun e => !(fl.base ≤ e.1 / 16 && e.1 / 16 < fl.base + fl.width)) })
  let s3 := s2.updFloe f (fun x => { x with st := .retired, frags := [], queues := [], live := 0, standing := 0, cstanding := [] })
  -- its quanta leave both counts (R42)
  let s4 := (upTo 16).foldl (fun s n =>
    let s' := if fl.standing.getLsbD n then s.updBar b n (fun x => { x with count := x.count - fl.width / 16 }) else s
    s'.checkBar b n) s3
  let s5 := ((s4.launchOf b).cohortsOf (s4.block b).id).foldl (fun s c => s.blockArrives b c) s4
  match buddy with
  | some g => if (s5.floe g).frags.any (fun x => x.wait = .fuse) then s5.releaseFuse g 1 (s5.fuseSd g) else s5
  | none => s5

end Sys2Proof.Machine
end

