-- ==== Sys2Proof/Machine/Operands.lean ====
section
/-!
DEFINITION. Operand forms: vector registers with the checks of R66, queue ports (R75, R76), the classes of R84, the moulds
of the R, I and 16-bit layouts, and the addresses of R83.
-/
namespace Sys2Proof.Machine

/-- A group of vector registers an operand names: first field number, count, alignment (R66, R391). -/
structure VGroup where
  n     : Nat
  count : Nat
  align : Nat
  deriving DecidableEq, Repr

/-- One vector register. -/
def VGroup.one (n : BitVec 6) : VGroup := ⟨n.toNat, 1, 1⟩
/-- An even pair. -/
def VGroup.pair (n : BitVec 6) : VGroup := ⟨n.toNat, 2, 2⟩
/-- A group of some count, aligned to it. -/
def VGroup.ofCount (n : BitVec 6) (k : Nat) : VGroup := ⟨n.toNat, k, k⟩

/-- The absolute registers of groups (R65). -/
def State.absRegs (s : State) (gs : List VGroup) : List Nat :=
  (gs.map (fun g => (upTo g.count).map (fun i => s.absReg (g.n + i)))).flatten
/-- A register at or beyond N, or a misaligned group (R66, reason 9). -/
def State.groupBad (s : State) (gs : List VGroup) : Bool :=
  gs.any (fun g => s.blk.nregs < s.absReg g.n + g.count || s.absReg g.n % g.align ≠ 0)
/-- A backing register of a loop-carried queue named directly (R419, reason 10). -/
def State.namesBacking (s : State) (gs : List VGroup) : Bool := (s.absRegs gs).any (fun j => s.fl.backing j)
/-- The queues whose ports the groups name, each once (R75). -/
def State.portsOf (s : State) (gs : List VGroup) : List Nat := dedupe ((s.absRegs gs).filterMap (fun j => s.fl.portOf j))
/-- The groups name the port of a queue that is on. -/
def State.namesPort (s : State) (gs : List VGroup) : Bool := !(s.portsOf gs).isEmpty

/-- The stream that feeds a queue of the issuing floe. -/
def State.feeding (s : State) (q : Nat) : Option Stream :=
  match (s.fl.queue q).stream with
  | some k => s.blk.streams.get? k
  | none => none

/-- Why a pop or push cannot go on (R76, R186). -/
inductive QueueStop where
  | fault (cause : Nat) (faddr : W64)
  | wait
  deriving DecidableEq, Repr

/-- The pop of queue q in the active lanes. -/
def State.popStop (s : State) (q : Nat) : Option QueueStop :=
  let none_ := s.lanes.any (fun l => (s.blk.qent (s.thread l) q).isEmpty)
  if !none_ then none
  else if (s.fl.queue q).mode = .loop then some (.fault 0x0E 0)
  else match s.feeding q with
    | none => some .wait
    | some st =>
      if st.ended then
        match st.failed with
        | some r => some (.fault r.cause.toNat r.faddr)
        | none => some (.fault 0x0E 0)
      else some .wait

/-- The push of queue q in the active lanes, after the pops of `popped`. -/
def State.pushStop (s : State) (popped : List Nat) (q : Nat) : Option QueueStop :=
  let c := s.fl.queue q
  if c.mode = .stream then some (.fault 0x0E 0)
  else if s.lanes.any (fun l =>
      c.depth ≤ (s.blk.qent (s.thread l) q).length - bit01 (q ∈ popped)) then some (.fault 0x0E 0)
  else none

/-- The first fault of a list of stops, else a wait (R76: a faulting instruction changes no queue). -/
def worstStop (l : List (Option QueueStop)) : Option QueueStop :=
  match l.find? (fun x => match x with | some (.fault _ _) => true | _ => false) with
  | some x => x
  | none => (l.find? (fun x => x.isSome)).getD none

/-- A lane's operands hold poison: a register, or the oldest entry of a queue whose port it is (R277). -/
def State.operandBad (s : State) (srcs : List VGroup) (l : Nat) : Bool :=
  (s.absRegs srcs).any (fun j => match s.fl.portOf j with
    | some q => s.blk.headBad (s.thread l) q
    | none => (s.blk.regIdx (s.thread l) j) ∈ s.blk.badRegs)
/-- The checks of a vector instruction before it acts: reason 9, reason 10 (`conflict` adds the instruction's own), queue
causes. `nine` adds uniform-register groups that break R391 or R177. -/
def State.gateForm (s : State) (srcs dsts : List VGroup) (nine conflict : Bool) : Option Res :=
  if nine || s.groupBad (srcs ++ dsts) then some (.trap 9)
  else if conflict || s.namesBacking (srcs ++ dsts) then some (.trap 10)
  else
    let ps := s.portsOf srcs
    match worstStop (ps.map (fun q => s.popStop q) ++ (s.portsOf dsts).map (fun q => s.pushStop ps q)) with
    | some (.fault c a) => some (.fault c a false)
    | some .wait => some (.wait .pop s)
    | none => none
/-- The checks of a vector instruction, poisoned operands last. -/
def State.gate (s : State) (srcs dsts : List VGroup) (nine conflict : Bool) : Option Res :=
  match s.gateForm srcs dsts nine conflict with
  | some r => some r
  | none => if s.lanes.any (fun l => s.operandBad srcs l) then some .poison else none

/-- Pop the queues that source operands name, once each, in the active lanes (R75). -/
def State.popPorts (s : State) (srcs : List VGroup) : State :=
  (s.portsOf srcs).foldl (fun s q =>
    s.lanes.foldl (fun s l => s.updBlk (fun b => b.popQ (s.thread l) q)) s) s
/-- The queue entries that an instruction of the issuing fragment pops: threads and queues. -/
def State.popList (s : State) (srcs : List VGroup) : List (Nat × Nat) :=
  ((s.portsOf srcs).map (fun q => s.lanes.map (fun l => (s.thread l, q)))).flatten

/-- A vector source operand: the register, or the oldest entry of the queue whose port it is (R75, R96 `V`). -/
def State.V (s : State) (n l : Nat) : W32 :=
  match s.fl.portOf (s.absReg n) with
  | some q => (s.blk.qent (s.thread l) q).headD 0
  | none => s.blk.reg (s.thread l) (s.absReg n)
/-- The stored register itself, whatever queue is on (R60: lanes that do not pop). -/
def State.rawV (s : State) (n l : Nat) : W32 := s.blk.reg (s.thread l) (s.absReg n)
/-- An even pair (R96 `V64`). -/
def State.V64 (s : State) (n l : Nat) : W64 := pair64 (s.V (n + 1) l) (s.V n l)

/-- A register write of a lane: field number, lane, value. -/
structure VWrite where
  n    : Nat
  lane : Nat
  v    : W32
  deriving DecidableEq, Repr

/-- Write one vector register of a lane, or push where it is a port (R75). -/
def State.setV (s : State) (w : VWrite) : State :=
  let j := s.absReg w.n
  let t := s.thread w.lane
  match s.fl.portOf j with
  | some q => s.updBlk (fun b => b.pushQ t q (s.fl.queue q).depth w.v)
  | none => s.updBlk (fun b => b.setReg t j w.v)
/-- Write vector registers. -/
def State.setVs (s : State) (ws : List VWrite) : State := ws.foldl State.setV s
/-- The writes of an even pair. -/
def write64 (n l : Nat) (v : W64) : List VWrite := [⟨n, l, lo32 v⟩, ⟨n + 1, l, lo32 (v >>> 32)⟩]

/-- A vector instruction: checks, pops, then its writes, every source read first. -/
def vecOp (srcs dsts : List VGroup) (f : State → Nat → List VWrite) (s : State) : Res :=
  match s.gate srcs dsts false false with
  | some r => r
  | none => .go ((s.popPorts srcs).setVs ((s.lanes.map (fun l => f s l)).flatten))

/-! ## Classes (R84) -/

/-- ra is a vector operand under the class. -/
def raVec (c : BitVec 2) : Bool := c = 0 || c = 1
/-- rb is a vector operand under the class. -/
def rbVec (c : BitVec 2) : Bool := c = 0 || c = 3
/-- The vector groups of ra and rb under the class. -/
def srcGroups (c : BitVec 2) (a b : BitVec 6) (k : BitVec 6 → VGroup) : List VGroup :=
  (if raVec c then [k a] else []) ++ (if rbVec c then [k b] else [])
/-- The 32-bit ra operand of a lane (R96 `A`). -/
def State.A (s : State) (c : BitVec 2) (a : BitVec 6) (l : Nat) : W32 := if raVec c then s.V a.toNat l else lo32 (s.S a.toNat)
/-- The 32-bit rb operand of a lane (R96 `B`). -/
def State.B (s : State) (c : BitVec 2) (b : BitVec 6) (l : Nat) : W32 := if rbVec c then s.V b.toNat l else lo32 (s.S b.toNat)
/-- The 64-bit ra operand of a lane: a pair, or all of a uniform register (R72). -/
def State.A64 (s : State) (c : BitVec 2) (a : BitVec 6) (l : Nat) : W64 := if raVec c then s.V64 a.toNat l else s.S a.toNat
/-- The 64-bit rb operand of a lane. -/
def State.B64 (s : State) (c : BitVec 2) (b : BitVec 6) (l : Nat) : W64 := if rbVec c then s.V64 b.toNat l else s.S b.toNat

/-! ## Moulds -/

/-- R layout, two sources: f32 on each active lane, or f64 once on 64 bits in class 2. The third argument is the old
destination, which is a source where `readsD` holds. -/
def aluR (readsD : Bool) (f32 : W32 → W32 → W32 → W32) (f64 : W64 → W64 → W64 → W64) (c : BitVec 2) (b a d : BitVec 6)
    (s : State) : Res :=
  if c = 2 then .go (s.setS d.toNat (f64 (s.S a.toNat) (s.S b.toNat) (s.S d.toNat)))
  else vecOp (srcGroups c a b VGroup.one ++ (if readsD then [VGroup.one d] else [])) [VGroup.one d]
    (fun s l => [⟨d.toNat, l, f32 (s.A c a l) (s.B c b l) (if readsD then s.V d.toNat l else 0)⟩]) s

/-- R layout, one source (rb zero). -/
def aluR1 (f32 : W32 → W32) (f64 : W64 → W64) (c : BitVec 2) (a d : BitVec 6) (s : State) : Res :=
  if c = 2 then .go (s.setS d.toNat (f64 (s.S a.toNat)))
  else vecOp (if raVec c then [VGroup.one a] else []) [VGroup.one d] (fun s l => [⟨d.toNat, l, f32 (s.A c a l)⟩]) s

/-- I layout: a register and the sign-extended 9-bit immediate (R82). -/
def aluI (f32 : W32 → W32 → W32) (f64 : W64 → W64 → W64) (i : BitVec 9) (u : BitVec 1) (a d : BitVec 6) (s : State) : Res :=
  if u = 1 then .go (s.setS d.toNat (f64 (s.S a.toNat) (i.signExtend 64)))
  else vecOp [VGroup.one a] [VGroup.one d] (fun s l => [⟨d.toNat, l, f32 (s.V a.toNat l) (i.signExtend 32)⟩]) s

/-- The 16-bit form: rd := rd op rs (R81). -/
def alu16 (f32 : W32 → W32 → W32) (d : BitVec 6) (r : BitVec 5) (s : State) : Res :=
  vecOp [VGroup.one d, VGroup.one (r.setWidth 6)] [VGroup.one d]
    (fun s l => [⟨d.toNat, l, f32 (s.V d.toNat l) (s.V r.toNat l)⟩]) s

/-! ## Addresses (R83) -/

/-- The size field in bytes; 5 is a nibble, 0 bytes here (R82). -/
def sizeBytes (z : BitVec 3) : Nat :=
  match z.toNat with
  | 0 => 1 | 1 => 2 | 2 => 4 | 3 => 8 | 4 => 16 | _ => 0
/-- Registers of a vector group of a size (R391). -/
def sizeRegs (z : BitVec 3) : Nat := if z = 3 then 2 else if z = 4 then 4 else 1

/-- The vector index operand: none for 63. -/
def viGroup (vi : BitVec 6) : List VGroup := if vi = 63 then [] else [VGroup.one vi]
/-- The address of lane l with the index scaled by 2^k (R83). -/
def State.addr (s : State) (vi sb : BitVec 6) (k l : Nat) : W64 :=
  if vi = 63 then s.S sb.toNat else s.S sb.toNat + (zext64 (s.V vi.toNat l) <<< k)
/-- The M-layout address of lane l, and whether a nibble access takes the upper nibble (R83). DESIGN CHOICE: without an index (vi = 63) it
takes bits [3:0] (log entry 55). -/
def State.addrM (s : State) (z : BitVec 3) (vi sb : BitVec 6) (l : Nat) : W64 × Bool :=
  if z = 5 then
    (if vi = 63 then (s.S sb.toNat, false)
     else (s.S sb.toNat + (zext64 (s.V vi.toNat l) >>> 1), bitN (s.V vi.toNat l) 0))
  else (s.addr vi sb (match z.toNat with | 0 => 0 | 1 => 1 | 2 => 2 | 3 => 3 | _ => 4) l, false)

/-- The data group of a size in lane l as one value (R391). -/
def State.dataM (s : State) (z : BitVec 3) (d : BitVec 6) (l : Nat) : BitVec 128 :=
  BitVec.ofNat 128 ((upTo (sizeRegs z)).foldl (fun a i => a + (s.V (d.toNat + i) l).toNat * 2 ^ (32 * i)) 0)
/-- The uniform data of a size (R391). -/
def State.dataU (s : State) (z : BitVec 3) (d : BitVec 6) : BitVec 128 :=
  BitVec.ofNat 128 ((s.S d.toNat).toNat + (if z = 4 then (s.S (d.toNat + 1)).toNat * 2 ^ 64 else 0))
/-- A uniform group that breaks R391: an odd pair of 128 bits. -/
def uniBad (z : BitVec 3) (d : BitVec 6) : Bool := z = 4 && d.toNat % 2 = 1

end Sys2Proof.Machine
end

