-- ==== Sys2Proof/Machine/Unit.lean ====
section
/-!
DEFINITION. What the package's units other than floes do to memory: reads and writes by virtual address (R178, R200), counters
(R175), fault records (R202 to R204), the event ring (R305).
-/
namespace Sys2Proof.Machine

/-- The outcome of a unit's access: a value and the state, or a cause and the address that met it. -/
inductive Got (α : Type) where
  | ok (a : α) (s : State)
  | cause (c va : Nat)

/-- A byte and whether its 32-bit word is poisoned (R277). -/
abbrev PByte := Byte × Bool

/-- Cut `n` bytes at an address at line boundaries: addresses and counts. -/
def chunks : Nat → Nat → Nat → List (Nat × Nat)
  | 0, _, _ => []
  | fuel + 1, va, n =>
    if n = 0 then []
    else
      let c := Nat.min n (128 - va % 128)
      (va, c) :: chunks fuel (va + c) (n - c)
def chunksOf (va n : Nat) : List (Nat × Nat) := chunks n va n

/-- `n` bytes of one line as its current holder has them, read under a key slot (R215, R227). -/
def State.physBytes (s : State) (pa n key : Nat) : List PByte :=
  let ln := pa / 128
  let off := pa % 128
  let x : Line × BitVec 32 :=
    match s.ownedLine ln with
    | some y => (y.under ln key, y.poison)
    | none => (s.memLineAs ln key, s.memPoison ln)
  (upTo n).map (fun i => (Line.byte x.1 (off + i), x.2.getLsbD ((off + i) / 4)))

/-- The poisoned words of bytes written at a line offset. -/
def poisonOf (off : Nat) (bs : List PByte) : BitVec 32 :=
  (bs.zip (upTo bs.length)).foldl (fun m x => if x.1.2 then m ||| BitVec.ofNat 32 (2 ^ ((off + x.2) / 4)) else m) 0

/-- The words of a line that begin among `n` bytes at an offset. -/
def wordsBegun (off n : Nat) : BitVec 32 := BitVec.ofNat 32 (2 ^ ((off + n + 3) / 4) - 2 ^ ((off + 3) / 4))
/-- Write bytes of one line: a unit of a die (R456), or an agent outside the dies. A unit's write clears poison where it covers its line
whole, by itself or as a part of the write that `whole` says does (R277). -/
def State.unitStore (s : State) (die : Option Nat) (pa key : Nat) (bs : List PByte) (whole : Bool := false) : State :=
  match die with
  | some d => s.unitWrite d (pa / 128) key (pa % 128) (bs.map (fun x => x.1))
      (if whole || bs.length = 128 then wordsBegun (pa % 128) bs.length else 0) (poisonOf (pa % 128) bs)
  | none =>
    let s1 := s.outsideWrite pa (bs.map (fun x => x.1)) key
    s1.setMemPoison (pa / 128) (s1.memPoison (pa / 128) ||| poisonOf (pa % 128) bs)

/-- A unit's translation of one VA, held for its frame (`h`) or walked afresh (R200), with the checks of R196. -/
def State.unitPlace (s : State) (asid : Nat) (k : AccKind) (va : Nat) (h : List Xlat := []) : Checked :=
  if 2 ^ 56 ≤ va || inAperture va then .cause 0x02 else placeOf k 1 va (s.unitWalk h asid va)

/-- The bytes of a replica line of a launch on a die. -/
def Replica.bytes (r : Replica) (off n : Nat) : List PByte :=
  let z := cellSize r.ltype
  (upTo n).map (fun i => ((toBytes z (r.cell ((off + i) / z * z))).getD ((off + i) % z) 0, r.poison.getLsbD ((off + i) / 4)))

/-- `n` bytes answered by the home of a tier-3 page, or the cause that its answer amounts to (R214, log entry 9). -/
def State.peerBytes (s : State) (va n : Nat) : Got (List PByte) :=
  (upTo ((n + 15) / 16)).foldl (fun (acc : Got (List PByte)) _ =>
    match acc with
    | .cause c v => .cause c v
    | .ok bs s =>
      match s.homeAnswer with
      | (.value v, s1) => .ok (bs ++ (toBytes 16 v.toNat).map (fun b => (b, false))) s1
      | (.absent, _) => .cause 0x01 va
      | (.silent, _) => .cause 0x10 va
      | (.cause c, _) => .cause c.toNat va) (.ok [] s)

/-- A unit of a launch on a die reads `n` bytes at a VA (R178, R244). -/
def State.vaLoad (s : State) (l die asid : Nat) (k : AccKind) (va n : Nat) (h : List Xlat := []) : Got (List PByte) :=
  (chunksOf va n).foldl (fun (acc : Got (List PByte)) c =>
    match acc with
    | .cause e v => .cause e v
    | .ok bs s =>
      match s.unitPlace asid k c.1 h with
      | .cause e => .cause e c.1
      | .ok p =>
        if s.firnHolds p then .cause 0x05 c.1
        else match p with
          | .phys pa key _ => .ok (bs ++ s.physBytes pa c.2 key) s
          | .cell pa lt =>
            if s.replicaOk l die (pa / 128) lt then
              let s1 := s.replicaFill l die (pa / 128) lt
              .ok (bs ++ (s1.replica l die (pa / 128)).bytes (pa % 128) c.2) s1
            else .cause 0x02 c.1
          | .peer _ _ =>
            match s.peerBytes c.1 c.2 with
            | .ok ps s1 => .ok (bs ++ ps.take c.2) s1
            | .cause e v => .cause e v
          | _ => .cause 0x02 c.1) (.ok [] s)

/-- The bytes of a load, without poison, as a number. -/
def pbNat (bs : List PByte) : Nat := ofBytes (bs.map (fun x => x.1))

/-- The first check that a write of `n` bytes at a VA fails. -/
def State.storeCause (s : State) (asid va n : Nat) (h : List Xlat := []) : Option (Nat × Nat) :=
  (chunksOf va n).findSome? (fun c => match s.unitPlace asid .store c.1 h with
    | .cause e => some (e, c.1)
    | .ok _ => none)

/-- Cut a list of bytes as `chunksOf` cuts its addresses. -/
def cutBytes : List (Nat × Nat) → List PByte → List (Nat × List PByte)
  | [], _ => []
  | c :: cs, bs => (c.1, bs.take c.2) :: cutBytes cs (bs.drop c.2)

/-- The home of a tier-3 page takes a write of a launch, which becomes non-replayable, or answers with a cause (R214, R285, log entry 9). -/
def State.peerWrite (s : State) (l va : Nat) : Got Unit :=
  match s.homeAnswer with
  | (.value _, s1) => .ok () ((s1.makeNonReplayable l).updLaunch l (fun x => { x with wrotePeer := true }))
  | (.absent, _) => .cause 0x01 va
  | (.silent, _) => .cause 0x10 va
  | (.cause c, _) => .cause c.toNat va

/-- A unit of a launch writes bytes at a VA: nothing where a check fails. A write to a peer leaves the package. `whole` tells the lines, by
VA, that the command's write covers whole (R277). -/
def State.vaStore (s : State) (l : Nat) (die : Option Nat) (asid va : Nat) (bs : List PByte) (h : List Xlat := [])
    (whole : Nat → Bool := fun _ => false) : Got Unit :=
  match s.storeCause asid va bs.length h with
  | some e => .cause e.1 e.2
  | none => (cutBytes (chunksOf va bs.length) bs).foldl (fun (acc : Got Unit) c =>
      match acc with
      | .cause e v => .cause e v
      | .ok _ s =>
        match s.unitPlace asid .store c.1 h with
        | .ok (.phys pa key _) => .ok () (s.unitStore die pa key c.2 (whole (c.1 / 128)))
        | .ok (.peer _ _) => s.peerWrite l c.1
        | _ => .ok () s) (.ok () s)

/-- Plain bytes. -/
def plainBytes (n x : Nat) : List PByte := (toBytes n x).map (fun b => (b, false))

/-- Add 1 to the u64 at a VA with release at system scope for a launch (R175): alignment, then R196 for read and write. A counter that a
peer package holds is a write that leaves the package (R285); the bank unit consumes a poisoned one (R277). -/
def State.counterAdd (s : State) (l : Nat) (die : Option Nat) (asid va : Nat) : Got Unit :=
  if va % 8 ≠ 0 then .cause 0x03 va
  else match s.unitPlace asid .rmw va with
    | .cause e => .cause e va
    | .ok (.phys pa key _) =>
      let old := s.physBytes pa 8 key
      if old.any (fun x => x.2) then .cause 0x0D va
      else .ok () (s.unitStore die pa key (plainBytes 8 ((pbNat old + 1) % 2 ^ 64)))
    | .ok (.peer _ _) => s.peerWrite l va
    | .ok _ => .ok () s

/-! ## The fault ring (R202 to R204) -/

/-- A fault record (R202) without its seq field. -/
def faultRecord (mask : Mask) (block pc floeid core lane asid launch access source cause va : Nat) : BitVec 512 :=
  BitVec.ofNat 512 ((mask.toNat / 2 ^ 64) * 2 ^ 320 + (mask.toNat % 2 ^ 64) * 2 ^ 256 + block % 2 ^ 32 * 2 ^ 224 +
    pc % 2 ^ 18 * 2 ^ 206 + floeid % 2 ^ 8 * 2 ^ 198 + core % 2 ^ 9 * 2 ^ 189 + lane % 2 ^ 8 * 2 ^ 176 +
    asid % 2 ^ 16 * 2 ^ 160 + launch % 2 ^ 32 * 2 ^ 128 + access * 2 ^ 104 + source * 2 ^ 96 + cause * 2 ^ 56 + va % 2 ^ 56)

/-- How a run of records meets the ring: a nested fault (R204), no room (R203), or written. -/
inductive RingPut where
  | nested
  | full
  | done (s : State)

/-- The control words and the slots of a ring lie aligned to the accesses made to them; a misaligned one is cause 0x03 (R196, R204). -/
def ringAligned (r : BitVec 512) : Bool := asCtl r % 8 = 0 && asRing r % 64 = 0
/-- Write a run of records into an address space's ring, then advance the producer index (R203). -/
def State.ringPut (s : State) (die : Option Nat) (asid : Nat) (recs : List (BitVec 512)) : RingPut :=
  let r := s.asRecord asid
  let size := 2 ^ asRinglog r
  if !(ringAligned r) then .nested
  else match s.vaLoad 0 0 asid .load (asCtl r) 16 with
  | .cause _ _ => .nested
  | .ok idx s1 =>
    let prod := pbNat (idx.take 8)
    let cons := pbNat (idx.drop 8)
    if size < (prod + 2 ^ 64 - cons) % 2 ^ 64 + recs.length then .full
    else
      let out := (recs.zip (upTo recs.length)).foldl (fun (acc : Option State) e =>
        match acc with
        | none => none
        | some s =>
          let i := (prod + e.2) % 2 ^ 64
          match s.vaStore 0 die asid (asRing r + i % size * 64) (plainBytes 64 (e.1.toNat + i % 2 ^ 32 * 2 ^ 64)) with
          | .cause _ _ => none
          | .ok _ s => some s) (some s1)
      match out with
      | none => .nested
      | some s2 =>
        match s2.vaStore 0 die asid (asCtl r) (plainBytes 8 ((prod + recs.length) % 2 ^ 64)) with
        | .cause _ _ => .nested
        | .ok _ s3 => .done s3

/-- Write records for a launch: a nested fault aborts it (R204), a full ring makes the writer wait (R203). -/
def State.faultRecords (s : State) (l die asid : Nat) (recs : List (BitVec 512)) : State :=
  if recs.isEmpty then s
  else if s.ringWaits.any (fun w => w.1 = asid) then { s with ringWaits := s.ringWaits ++ [(asid, recs)] }
  else match s.ringPut (some die) asid recs with
    | .nested => s.haltLaunch l 3 0x11 none
    | .full => { s with ringWaits := s.ringWaits ++ [(asid, recs)] }
    | .done s1 => s1

/-- The records of a floe's parked lanes (lane, VA), one per frame in lane order (R203). -/
def State.parkRecords (s : State) (f id access : Nat) (lanes : List (Nat × Nat)) : State :=
  let b := s.block (blockOf f)
  let c := floeCore f
  let asid := s.asidOf (blockOf f)
  let frames := dedupe (lanes.map (fun x => x.2 / 2 ^ 16))
  s.faultRecords b.launch (dieOfCore c) asid (frames.map (fun fr =>
    let ls := lanes.filter (fun x => x.2 / 2 ^ 16 = fr)
    let first := ls.headD (0, 0)
    faultRecord (Mask.ofLanes (ls.map (fun x => x.1))) b.id (s.frag f id).pc.toNat ((s.floe f).base / 16) c first.1 asid
      b.launch access 0 0x01 first.2))

/-- A VA whose page a peer package holds: the home writes the record (R214). -/
def State.atPeer (s : State) (asid va : Nat) : Bool :=
  match s.walk asid va with
  | .ok x _ => attrTier x.attr = 3
  | .cause _ => false
/-- The record of an engine or the sequencer that pauses at a VA (R202): source, and whether it writes. -/
def State.engineRecord (s : State) (b floeid access source va : Nat) : State :=
  let x := s.block b
  let asid := s.asidOf b
  if s.atPeer asid va then s.homeTold else
  s.faultRecords x.launch (dieOfCore (coreOf b)) asid
    [faultRecord 0 x.id 0 floeid (coreOf b) 0 asid x.launch access source 0x01 va]

/-! ## The event ring (R305) -/

/-- The event ring's address (R313). -/
def State.evring (s : State) : Nat := fieldN s.boot 512 64
/-- Free places of the event ring. -/
def State.evRoom (s : State) : Nat := 4096 - (s.peek s.evring 8 + 2 ^ 64 - s.peek (s.evring + 8) 8) % 2 ^ 64
/-- Write one event record and advance the producer index. -/
def State.evWrite (s : State) (r : BitVec 512) : State :=
  let p := s.peek s.evring 8
  (s.outsideWrite (s.evring + 64 + p % 4096 * 64) (toBytes 64 r.toNat) 0).outsideWrite s.evring (toBytes 8 (p + 1)) 0
/-- An event record: kind, argument, and the doubleword at +16. -/
def eventRecord (kind arg extra : Nat) : BitVec 512 :=
  BitVec.ofNat 512 (extra % 2 ^ 64 * 2 ^ 128 + arg % 2 ^ 64 * 2 ^ 64 + kind)
/-- Report an event: written, held in order behind up to 1024 others, or counted as dropped (R305). -/
def State.event (s : State) (kind arg extra : Nat) : State :=
  let r := eventRecord kind arg extra
  if s.evBacklog.isEmpty && 0 < s.evRoom then s.evWrite r
  else if s.evBacklog.length < 1024 || kind = 1 then { s with evBacklog := s.evBacklog ++ [r] }
  else { s with evDropped := s.evDropped + 1 }

end Sys2Proof.Machine
end

