-- ==== Sys2Proof/Machine/Issue.lean ====
section
/-!
DEFINITION. Issuing a memory operation: the order of the checks (R196, R201, R232, R375), parking and its end (R201 to R203,
R206), and the completion of outstanding operations (R172, R222).
-/
namespace Sys2Proof.Machine

/-- What a memory instruction asks for. -/
structure MemPlan where
  cls     : OpClass
  kind    : OpKind
  size    : Nat
  apOk    : Bool
  dest    : Dest
  acquire : Bool
  scope   : Nat
  noAlloc : Bool
  release : Bool

/-- The checks an operation's lanes take (R196). -/
def OpKind.acc : OpKind → AccKind
  | .load => .load
  | .store => .store
  | .nibble => .store
  | .atom _ => .rmw
  | .red _ => .store
  | .cache _ => .cache
  | .join => .join
  | .joinStrict => .join
/-- `ATOM` needs read and write; the fault record of a `RED` says read-modify-write too (R202). -/
def OpKind.code : OpKind → Nat
  | .red _ => 2
  | k => k.acc.code
/-! ## One lane's checks -/

/-- The checks of one lane after translation: a shelf without room (R243), a firn line held (R206), the operand of a
join (R246, R247). -/
def State.laneCheck (s : State) (b : Nat) (k : OpKind) (size : Nat) (apOk : Bool) (a : LaneAcc) : Checked :=
  match s.checkLane b k.acc size apOk a.va with
  | .cause c => .cause c
  | .ok p =>
    if s.firnHolds p then .cause 0x05
    else match p with
      | .cell pa lt =>
        if k.acc = .cache then .ok p
        else
          let l := (s.block b).launch
          let d := dieOfCore (coreOf b)
          if !(s.replicaOk l d (pa / 128) lt) then .cause 0x02
          else if k.acc = .join then
            match (((s.replicaFill l d (pa / 128) lt).replica l d (pa / 128)).joinCause d (pa % 128)
                (a.data.toNat % 256 ^ size) (k = .joinStrict)) with
            | some c => .cause c
            | none => .ok p
          else .ok p
      | _ => .ok p

/-- The state after a lane's checks: its translation held (R198), its replica line allocated (R243). -/
def State.laneTouch (s : State) (b : Nat) (k : OpKind) (va : W64) (p : Checked) : State :=
  let s1 := if inAperture va.toNat then s else s.holdXlat (coreOf b) (s.asidOf b) va.toNat
  match p with
  | .ok (.cell pa lt) =>
    if k.acc = .cache then s1 else s1.replicaFill (s.block b).launch (dieOfCore (coreOf b)) (pa / 128) lt
  | _ => s1

/-- No cause of the manual: the lane waits for its home, a peer package (R214). -/
def homeHolds : Nat := 0x100
/-- What the home of a tier-3 page answers to a lane that names it (R214, log entry 9): a load's bytes stand in the lane's data. -/
def State.askHome (s : State) (a : LaneAcc) (reads : Bool) (p : Place) : LaneAcc × Checked × State :=
  match s.homeAnswer with
  | (.value v, s1) => ({ a with place := p, data := if reads then v else a.data }, .ok p, s1)
  | (.cause c, s1) => (a, .cause c.toNat, s1)
  | (_, s1) => (a, .cause homeHolds, s1)
/-- A kind that returns what it reads. -/
def OpKind.reads : OpKind → Bool
  | .load => true | .atom _ => true | _ => false
/-- A lane that cause 0x05 holds keeps its translation (R206). -/
def State.heldPlace (s : State) (b : Nat) (k : OpKind) (size : Nat) (apOk : Bool) (a : LaneAcc) : LaneAcc :=
  match s.checkLane b k.acc size apOk a.va with
  | .ok (.phys pa key nc) => { a with place := .firn pa key nc }
  | _ => a

/-- Check lanes in ascending order; a strict join is performed as soon as its lane is checked (R247). -/
def State.checkLanes (s : State) (f : Nat) (o : MemOp) (apOk : Bool) (ls : List LaneAcc) :
    List (LaneAcc × Checked) × State :=
  ls.foldl (fun (acc : List (LaneAcc × Checked) × State) a =>
    let c := acc.2.laneCheck (blockOf f) o.kind o.size apOk a
    let s1 := acc.2.laneTouch (blockOf f) o.kind a.va c
    match c with
    | .cause e => (acc.1 ++ [(if e = 0x05 then acc.2.heldPlace (blockOf f) o.kind o.size apOk a else a, c)], s1)
    | .ok (.peer n v) =>
      let h := s1.askHome a o.kind.reads (.peer n v)
      (acc.1 ++ [(h.1, h.2.1)], h.2.2)
    | .ok p =>
      if o.kind = .joinStrict then
        let b := { a with place := p }
        (acc.1 ++ [({ b with done := true }, c)], s1.performBind (s1.reqNow (floeCore f)) f o b)
      else (acc.1 ++ [({ a with place := p }, c)], s1)) ([], s)

/-- The cause of a checked lane. -/
def Checked.causeOf : Checked → Option Nat
  | .cause c => some c
  | .ok _ => none
/-- A cause that parks (R201, R206, R214). -/
def parks (c : Nat) : Bool := c = 0x01 || c = 0x05 || c = homeHolds

/-- The lanes that go on, absent or placed, of checked lanes. -/
def goingLanes (r : List (LaneAcc × Checked)) : List LaneAcc :=
  (r.filter (fun x => match x.2 with | .ok _ => true | .cause c => parks c)).map (fun x => x.1)
/-- The lowest lane with a cause that does not park. -/
def hardLane (r : List (LaneAcc × Checked)) : Option (Nat × BitVec 8 × W64) :=
  r.findSome? (fun x => match x.2 with
    | .cause c => if parks c then none else some (x.1.lane, BitVec.ofNat 8 c, x.1.va)
    | .ok _ => none)
/-- The lanes held by a cause. -/
def lanesWith (r : List (LaneAcc × Checked)) (c : Nat) : List (Nat × Nat) :=
  (r.filter (fun x => x.2.causeOf = some c)).map (fun x => (x.1.lane, x.1.va.toNat))

/-! ## Parking (R201 to R203, R206) -/

/-- Add an operation to a floe's outstanding ones. -/
def State.addOp (s : State) (f : Nat) (o : MemOp) : State :=
  s.updFloe f (fun fl => { fl with ops := fl.ops ++ [o], opSeq := fl.opSeq + 1 })

/-- Park a floe at a fragment's instruction, which pops `pops` when it retires, and write the records of its absent lanes. -/
def State.park (s : State) (f id : Nat) (o : MemOp) (hard : Option (Nat × BitVec 8 × W64)) (absent firn : List (Nat × Nat))
    (access : Nat) (pops : List (Nat × Nat)) (held : List Nat) : State :=
  (s.updFloe f (fun fl =>
    { fl with st := .parked, parked := some ⟨o, id, absent.isEmpty && !firn.isEmpty, hard, pops, held⟩ })).parkRecords f id access absent
/-- The lanes that write a record as they park: a peer's home writes its own (R214). -/
def State.parkHere (s : State) (f : Nat) (lanes : List (Nat × Nat)) : List (Nat × Nat) :=
  lanes.filter (fun x => !(s.atPeer (s.asidOf (blockOf f)) x.2))

/-- Park at an instruction that repeats whole (`LLDT`, `WAITM`, `MRUN`, a service record): no operation stands; what cause 0x05 holds keeps
its translation in use (R199). -/
def State.parkRepeat (s : State) (f id : Nat) (absent firn : List (Nat × Nat)) (access : Nat) : State :=
  (s.park f id ⟨0, .loads, .load, 0, [], .none, false, 0, false, 0, none⟩ none (s.parkHere f absent) firn access [] (firn.map (fun x => x.2))).homeTold

/-! ## Issue -/

/-- The body of a replayable memory instruction that joins a class (R171, R196, R201, R232, R375). -/
def memIssue (p : MemPlan) (srcs dsts : List VGroup) (nine conflict : Bool) (lanes : State → List LaneAcc) (s : State) :
    Res :=
  match s.gate srcs dsts nine conflict with
  | some r => r
  | none =>
    let fl := s.fl
    let ls := lanes s
    if counterLimit p.cls ≤ fl.counter p.cls then .wait .room s
    else if fl.acquiring s.cur.frag then .wait .order s
    else if p.kind.isWrite && fl.relHolds then .wait .rel s
    else if (p.release || p.kind = .joinStrict) && !fl.opsDone then .wait .order s
    else if fl.ops.any (fun o => o.kind = .join && o.lanes.any (fun a => !a.done &&
        ls.any (fun x => a.va.toNat < x.va.toNat + Nat.max p.size 1 && x.va.toNat < a.va.toNat + Nat.max o.size 1))) then
      .wait .order s
    else
      let o : MemOp := ⟨fl.opSeq, p.cls, p.kind, p.size, [], p.dest, p.acquire, p.scope, p.noAlloc,
        (s.core (floeCore s.cur.floe)).ctime, none⟩
      let r := s.checkLanes s.cur.floe o p.apOk ls
      let op := { o with lanes := goingLanes r.1 }
      let absent := lanesWith r.1 0x01
      let firn := lanesWith r.1 0x05
      if absent.isEmpty && firn.isEmpty && (lanesWith r.1 homeHolds).isEmpty then
        match hardLane r.1 with
        | some (_, c, va) =>
          -- the joins that passed stand; no operand is popped (R247, R256)
          if p.kind = .joinStrict then .as (r.2.preciseFault s.cur.floe s.cur.frag c.toNat va true)
          else .fault c.toNat va (p.kind.acc ≠ .cache)
        | none => if p.kind = .joinStrict then .go (r.2.popPorts srcs) else .go ((r.2.popPorts srcs).addOp s.cur.floe op)
      else
        .as ((r.2.addOp s.cur.floe op).park s.cur.floe s.cur.frag op (hardLane r.1) absent firn p.kind.code
          (s.popList srcs) [])

/-! ## The end of parking -/

/-- Replace an outstanding operation of a floe. -/
def Floe.putOp (fl : Floe) (o : MemOp) : Floe := { fl with ops := fl.ops.map (fun x => if x.seq = o.seq then o else x) }
/-- Drop a strict join that is done; it has left its counter (R247). -/
def Floe.dropStrict (fl : Floe) (n : Nat) : Floe :=
  { fl with ops := fl.ops.filter (fun o => !(o.seq = n && o.kind = .joinStrict)) }
/-- A parked floe is ready again. -/
def State.unpark (s : State) (f : Nat) : State :=
  s.updFloe f (fun fl => { fl with st := .ready, readyAt := s.now, parked := none })

/-- Queue entries of a block are popped (R75). -/
def State.popAll (s : State) (b : Nat) (ps : List (Nat × Nat)) : State := s.updBlock b (fun x => ps.foldl (fun x e => x.popQ e.1 e.2) x)
/-- A parked operation goes on with what its lanes have become: with none held, its parking ends, and the lowest lane's cause is
reported, with nothing popped, or the instruction retires with its pops (R201, R256). -/
def State.settleParked (s : State) (f : Nat) (p : Parked) (o : MemOp) (hard : Option (Nat × BitVec 8 × W64)) (absent : List (Nat × Nat))
    (record : Bool) : State :=
  let s1 := s.updFloe f (fun fl => fl.putOp o)
  if o.lanes.all (fun a => a.place.here) then
    let s2 := (s1.unpark f).updFloe f (fun fl => fl.dropStrict o.seq)
    match hard with
    | some (_, c, va) => s2.preciseFault f p.frag c.toNat va (o.kind.acc ≠ .cache)
    | none => (s2.popAll (blockOf f) p.pops).retireFrag f p.frag 4
  else
    let s2 := s1.updFloe f (fun fl =>
      { fl with parked := some { p with op := o, firn := o.lanes.all (fun a => a.place ≠ .absent), hard := hard } })
    if record then s2.parkRecords f p.frag o.kind.code absent else s2
/-- A lane that cause 0x05 holds goes on once its data has arrived, under the translation it has (R199, R206). -/
def State.firnFree (s : State) (a : LaneAcc) : LaneAcc :=
  match a.place with
  | .firn pa key nc => if s.firnHolds (.phys pa key nc) then a else { a with place := .phys pa key nc }
  | _ => a

/-- A parked floe goes on where it can: lanes whose firn data has arrived, and with `again` the untranslated lanes, which translate again,
with records for those that still miss (R203, R206). -/
def State.resumeParked (s : State) (f : Nat) (again : Bool) : State :=
  match (s.floe f).parked with
  | none => s
  | some p =>
    if p.op.lanes.isEmpty then s.unpark f
    else
      let o := ((s.floe f).ops.find? (fun x => x.seq = p.op.seq)).getD p.op
      let r := s.checkLanes f o false (o.lanes.filter (fun a => a.place = .absent && again))
      let going := goingLanes r.1
      let lanes := o.lanes.filterMap (fun a =>
        if a.place = .absent && again then going.find? (fun x => x.lane = a.lane) else some (s.firnFree a))
      r.2.settleParked f p { o with lanes := lanes } (lowerHard p.hard (hardLane r.1)) (lanesWith r.1 0x01) again

/-! ## Completion (R172, R218, R222, R250) -/

/-- The oldest outstanding operation of a class. -/
def Floe.oldest (fl : Floe) (c : OpClass) : Option MemOp := fl.ops.find? (fun o => o.cls = c)

/-- Perform what is placed of an operation; none where the horizon holds the core's time back (R218) or a join waits for
older operations, and a load for such a join of its bytes (R250). -/
def State.tryPerform (s : State) (f : Nat) (o : MemOp) : Option State :=
  if o.kind = .join && !((s.floe f).doneBefore o.seq) then none
  else if o.cls = .loads && o.todo.any (fun a => (s.floe f).joinAhead a.place o.size o.seq) then none
  else
    let s1 := s.performOp f o
    if s.heldBack (floeCore f) s1 then none else some s1

/-- MEMORY_OP_COMPLETION: the oldest operation of a class is performed, and completes when no lane is left; an acquire
waits with its tick for the horizon (R218). -/
def State.completeOldest (s : State) (f : Nat) (c : OpClass) : State :=
  match (s.floe f).oldest c with
  | none => s
  | some o =>
    match s.tryPerform f o with
    | none => s
    | some s1 =>
      match (s1.floe f).ops.find? (fun x => x.seq = o.seq) with
      | none => s1
      | some o1 =>
        let acquires := o.acquire && 3 ≤ o.scope
        if acquires && !(s1.mayTick (floeCore f)) then s1
        else if o1.lanes.all (fun a => a.done) && (s1.floe f).parked.all (fun p => p.op.lanes.isEmpty || p.op.seq ≠ o.seq) then
          let s2 := s1.updFloe f (fun fl => { fl with ops := fl.ops.filter (fun x => x.seq ≠ o.seq) })
          if acquires then s2.acquireFloor f else s2
        else s1

/-- STACK_WRITE: the oldest write of a floe not yet performed reaches its bank. -/
def State.performWrite (s : State) (f : Nat) : State :=
  match (s.floe f).ops.find? (fun o => o.kind.isWrite && !o.todo.isEmpty) with
  | none => s
  | some o => (s.tryPerform f o).getD s

/-! ## Releases (R235, R444) -/

/-- A release by a floe: its older operations are performed, where the horizon lets them (R218, R235). -/
def State.releaseOlder (s : State) (f : Nat) : State :=
  (s.floe f).ops.foldl (fun s o =>
    match (s.floe f).ops.find? (fun x => x.seq = o.seq) with
    | none => s
    | some x => (s.tryPerform f x).getD s) s
/-- The body of an arrival: the release first (R235); an interrupt reaches the fragment after this wait too (R266). -/
def arriving (k : State → Res) (s : State) : Res :=
  let s1 := s.releaseOlder s.cur.floe
  if s1.fl.opsDone then k s1 else .wait .drainCounters s1


end Sys2Proof.Machine
end

