-- ==== Sys2Proof/Machine/Atomic.lean ====
section
/-!
DEFINITION. Atomics and reductions (R339 to R341, R427).
-/
namespace Sys2Proof.Machine

/-- The scope code of an A-layout scope field (R230, R339). -/
def scopeA (sc : BitVec 2) : Nat := if sc = 0 then 0 else sc.toNat + 1
/-- The bytes of an A-layout access. -/
def bytesA (w : BitVec 1) : Nat := if w = 1 then 8 else 4
/-- A 32-bit or 64-bit operand of a lane from register n. -/
def State.dataA (s : State) (w : BitVec 1) (n l : Nat) : W64 := if w = 1 then s.V64 n l else zext64 (s.V n l)
/-- The registers of an A-layout operand: `k` values from rd, even with size64. -/
def groupA (w : BitVec 1) (d : BitVec 6) (k : Nat) : VGroup :=
  if w = 1 then ⟨d.toNat, 2 * k, 2⟩ else ⟨d.toNat, k, 1⟩
/-- The lanes of an A-layout access; the index is not scaled (R83, R340). -/
def lanesA (cas : Bool) (w : BitVec 1) (i b d : BitVec 6) (s : State) : List LaneAcc :=
  s.lanes.map (fun l =>
    if cas then
      ⟨l, s.addr i b 0 l, .absent, (s.dataA w (d.toNat + (if w = 1 then 2 else 1)) l).setWidth 128, s.dataA w d.toNat l, false, false⟩
    else ⟨l, s.addr i b 0 l, .absent, (s.dataA w d.toNat l).setWidth 128, 0, false, false⟩)

/-- `ATOM` (R340, R341): the data is popped at issue where rd is a queue port, and the old value pushed at completion. -/
def atomBody (op : AtomOp) (sc : BitVec 2) (w : BitVec 1) (i b d : BitVec 6) (s : State) : Res :=
  memIssue ⟨.loads, .atom op, bytesA w, false, .vec (s.absReg d.toNat), false, scopeA sc, false, false⟩
    (viGroup i ++ [groupA w d (if op = .cas then 2 else 1)]) [groupA w d 1] false false (lanesA (op = .cas) w i b d) s
/-- `RED` (R427). -/
def redBody (op : AtomOp) (sc : BitVec 2) (w : BitVec 1) (i b d : BitVec 6) (s : State) : Res :=
  memIssue ⟨.stores, .red op, bytesA w, false, .none, false, scopeA sc, false, false⟩
    (viGroup i ++ [groupA w d 1]) [] false false (lanesA false w i b d) s

/-- `ATOM.ADD` (R339, R340). -/
def execAtomAdd (sc : BitVec 2) (w : BitVec 1) (i b d : BitVec 6) (s : State) : Host.Outcome State Fault Refusal :=
  floeOp (.atomAdd sc w i b d) s (atomBody .add sc w i b d)
/-- `ATOM.MINS` (R339, R340). -/
def execAtomMins (sc : BitVec 2) (w : BitVec 1) (i b d : BitVec 6) (s : State) : Host.Outcome State Fault Refusal :=
  floeOp (.atomMins sc w i b d) s (atomBody .mins sc w i b d)
/-- `ATOM.MAXS` (R339, R340). -/
def execAtomMaxs (sc : BitVec 2) (w : BitVec 1) (i b d : BitVec 6) (s : State) : Host.Outcome State Fault Refusal :=
  floeOp (.atomMaxs sc w i b d) s (atomBody .maxs sc w i b d)
/-- `ATOM.MINU` (R339, R340). -/
def execAtomMinu (sc : BitVec 2) (w : BitVec 1) (i b d : BitVec 6) (s : State) : Host.Outcome State Fault Refusal :=
  floeOp (.atomMinu sc w i b d) s (atomBody .minu sc w i b d)
/-- `ATOM.MAXU` (R339, R340). -/
def execAtomMaxu (sc : BitVec 2) (w : BitVec 1) (i b d : BitVec 6) (s : State) : Host.Outcome State Fault Refusal :=
  floeOp (.atomMaxu sc w i b d) s (atomBody .maxu sc w i b d)
/-- `ATOM.AND` (R339, R340). -/
def execAtomAnd (sc : BitVec 2) (w : BitVec 1) (i b d : BitVec 6) (s : State) : Host.Outcome State Fault Refusal :=
  floeOp (.atomAnd sc w i b d) s (atomBody .and sc w i b d)
/-- `ATOM.OR` (R339, R340). -/
def execAtomOr (sc : BitVec 2) (w : BitVec 1) (i b d : BitVec 6) (s : State) : Host.Outcome State Fault Refusal :=
  floeOp (.atomOr sc w i b d) s (atomBody .or sc w i b d)
/-- `ATOM.XOR` (R339, R340). -/
def execAtomXor (sc : BitVec 2) (w : BitVec 1) (i b d : BitVec 6) (s : State) : Host.Outcome State Fault Refusal :=
  floeOp (.atomXor sc w i b d) s (atomBody .xor sc w i b d)
/-- `ATOM.EXCH` (R339, R340). -/
def execAtomExch (sc : BitVec 2) (w : BitVec 1) (i b d : BitVec 6) (s : State) : Host.Outcome State Fault Refusal :=
  floeOp (.atomExch sc w i b d) s (atomBody .exch sc w i b d)
/-- `ATOM.CAS` (R339, R340). -/
def execAtomCas (sc : BitVec 2) (w : BitVec 1) (i b d : BitVec 6) (s : State) : Host.Outcome State Fault Refusal :=
  floeOp (.atomCas sc w i b d) s (atomBody .cas sc w i b d)
/-- `ATOM.FADD` (R339, R340). -/
def execAtomFadd (sc : BitVec 2) (w : BitVec 1) (i b d : BitVec 6) (s : State) : Host.Outcome State Fault Refusal :=
  floeOp (.atomFadd sc w i b d) s (atomBody .fadd sc w i b d)
/-- `ATOM.FMIN` (R339, R340). -/
def execAtomFmin (sc : BitVec 2) (w : BitVec 1) (i b d : BitVec 6) (s : State) : Host.Outcome State Fault Refusal :=
  floeOp (.atomFmin sc w i b d) s (atomBody .fmin sc w i b d)
/-- `ATOM.FMAX` (R339, R340). -/
def execAtomFmax (sc : BitVec 2) (w : BitVec 1) (i b d : BitVec 6) (s : State) : Host.Outcome State Fault Refusal :=
  floeOp (.atomFmax sc w i b d) s (atomBody .fmax sc w i b d)
/-- `RED.ADD` (R427). -/
def execRedAdd (sc : BitVec 2) (w : BitVec 1) (i b d : BitVec 6) (s : State) : Host.Outcome State Fault Refusal :=
  floeOp (.redAdd sc w i b d) s (redBody .add sc w i b d)
/-- `RED.MINS` (R427). -/
def execRedMins (sc : BitVec 2) (w : BitVec 1) (i b d : BitVec 6) (s : State) : Host.Outcome State Fault Refusal :=
  floeOp (.redMins sc w i b d) s (redBody .mins sc w i b d)
/-- `RED.MAXS` (R427). -/
def execRedMaxs (sc : BitVec 2) (w : BitVec 1) (i b d : BitVec 6) (s : State) : Host.Outcome State Fault Refusal :=
  floeOp (.redMaxs sc w i b d) s (redBody .maxs sc w i b d)
/-- `RED.MINU` (R427). -/
def execRedMinu (sc : BitVec 2) (w : BitVec 1) (i b d : BitVec 6) (s : State) : Host.Outcome State Fault Refusal :=
  floeOp (.redMinu sc w i b d) s (redBody .minu sc w i b d)
/-- `RED.MAXU` (R427). -/
def execRedMaxu (sc : BitVec 2) (w : BitVec 1) (i b d : BitVec 6) (s : State) : Host.Outcome State Fault Refusal :=
  floeOp (.redMaxu sc w i b d) s (redBody .maxu sc w i b d)
/-- `RED.AND` (R427). -/
def execRedAnd (sc : BitVec 2) (w : BitVec 1) (i b d : BitVec 6) (s : State) : Host.Outcome State Fault Refusal :=
  floeOp (.redAnd sc w i b d) s (redBody .and sc w i b d)
/-- `RED.OR` (R427). -/
def execRedOr (sc : BitVec 2) (w : BitVec 1) (i b d : BitVec 6) (s : State) : Host.Outcome State Fault Refusal :=
  floeOp (.redOr sc w i b d) s (redBody .or sc w i b d)
/-- `RED.XOR` (R427). -/
def execRedXor (sc : BitVec 2) (w : BitVec 1) (i b d : BitVec 6) (s : State) : Host.Outcome State Fault Refusal :=
  floeOp (.redXor sc w i b d) s (redBody .xor sc w i b d)
/-- `RED.FADD` (R427). -/
def execRedFadd (sc : BitVec 2) (w : BitVec 1) (i b d : BitVec 6) (s : State) : Host.Outcome State Fault Refusal :=
  floeOp (.redFadd sc w i b d) s (redBody .fadd sc w i b d)
/-- `RED.FMIN` (R427). -/
def execRedFmin (sc : BitVec 2) (w : BitVec 1) (i b d : BitVec 6) (s : State) : Host.Outcome State Fault Refusal :=
  floeOp (.redFmin sc w i b d) s (redBody .fmin sc w i b d)
/-- `RED.FMAX` (R427). -/
def execRedFmax (sc : BitVec 2) (w : BitVec 1) (i b d : BitVec 6) (s : State) : Host.Outcome State Fault Refusal :=
  floeOp (.redFmax sc w i b d) s (redBody .fmax sc w i b d)
end Sys2Proof.Machine
end

