-- ==== Sys2Proof/Machine/Flags.lean ====
section
/-!
DEFINITION. Predicates as results: compares (R371 to R373), the carry and borrow in p6 (R88, R386), and predicate logic
(R413).
-/
namespace Sys2Proof.Machine

/-- The conditions 0 to 5 of `ICMP` on an order (R371). -/
def intCond {α : Type} [DecidableEq α] (le : α → α → Bool) (cond : Nat) (x y : α) : Bool :=
  match cond with
  | 0 => x = y
  | 1 => x ≠ y
  | 2 => !(le y x)
  | 3 => le x y
  | 4 => !(le x y)
  | _ => le y x

/-- A compare (R372, R373): each active lane's predicate in the vector classes; one result in pd of every lane that has
not exited in class 2. -/
def cmpOp (srcs : List VGroup) (uniform : Bool) (pd : BitVec 3) (f : State → Nat → Bool) (s : State) : Res :=
  if uniform then .go (s.setPs pd.toNat ((Mask.lanes s.fl.live s.fl.width).map (fun l => (l, f s 0))))
  else
    match s.gate srcs [] false false with
    | some r => r
    | none => .go ((s.popPorts srcs).setPs pd.toNat (s.lanes.map (fun l => (l, f s l))))

/-- Sum and carry out of a + b + c (R386). -/
def addCarry (a b : W32) (c : Bool) : W32 × Bool :=
  let t := a.toNat + b.toNat + bit01 c
  (BitVec.ofNat 32 t, 2 ^ 32 ≤ t)
/-- Difference and borrow out of a - b - c (R386). -/
def subBorrow (a b : W32) (c : Bool) : W32 × Bool :=
  (a - b - BitVec.ofNat 32 (bit01 c), a.toNat < b.toNat + bit01 c)

/-- `IADDC` and `ISUBB`: the result and p6 of each active lane, its old p6 read first (R386). -/
def carryOp (f : W32 → W32 → Bool → W32 × Bool) (c : BitVec 2) (b a d : BitVec 6) (s : State) : Res :=
  match s.gate (srcGroups c a b VGroup.one) [VGroup.one d] false false with
  | some r => r
  | none =>
    let rs := s.lanes.map (fun l => (l, f (s.A c a l) (s.B c b l) (s.P 6 l)))
    .go (((s.popPorts (srcGroups c a b VGroup.one)).setVs (rs.map (fun r => ⟨d.toNat, r.1, r.2.1⟩))).setPs 6
      (rs.map (fun r => (r.1, r.2.2))))

/-- `PLOG` operations: AND, OR, XOR, ANDN (R413). -/
def predLogic (op : Nat) (x y : Bool) : Bool :=
  match op with
  | 0 => x && y
  | 1 => x || y
  | 2 => x != y
  | _ => x && !y

end Sys2Proof.Machine
end

