-- ==== Sys2Proof/Machine/Branch.lean ====
section
/-!
DEFINITION. Width changes, fragment order and branches (R22 to R26, R49 to R58, R187, R346 to R349, R352, R363, R388, R432, R439, R455).
-/
namespace Sys2Proof.Machine

/-! ## Dividing fragments (R22 to R24) -/

/-- A divergent branch: none where the mask stack would overflow (R24). The new fragment starts with wait count 0 and is none of those
that a `YIELD` still owes (log entry 50). -/
def Floe.divide (fl : Floe) (id : Nat) (taken : Mask) (t n : BitVec 18) (now : Nat) : Option Floe :=
  let g := fl.frag id
  let rest := g.active &&& ~~~taken
  if fl.frags.length < 4 then
    let nf : Fragment := { id := fl.nextFrag, pc := t, active := taken, stack := [], waitCount := 0, owes := [], wait := .none,
                           handler := g.handler, rb := none, left := none }
    let fl1 := { fl with frags := fl.frags ++ [nf], nextFrag := fl.nextFrag + 1 }
    some (((fl1.updFrag id (fun x => { x with active := rest })).goTo id n now).mergeAt nf.id)
  else
    let low := t.toNat < n.toNat
    let run := if low then taken else rest
    let st := insertEntry g.stack (if low then n else t) (if low then rest else taken)
    if 16 < st.length then none
    else some ((fl.updFrag id (fun x => { x with active := run, stack := st })).goTo id (if low then t else n) now)

/-! ## Branch targets -/

/-- A relative target in the branch's own slot (R87); none outside it (reason 8). -/
def relTarget (pc : BitVec 18) (o : BitVec 19) : Option (BitVec 18) :=
  let t : Int := (pc.toNat : Int) + 2 * o.toInt
  if 0 ≤ t ∧ t / 4096 = (pc.toNat / 4096 : Nat) then some (BitVec.ofNat 18 t.toNat) else none
/-- A relative jump of the issuing fragment. -/
def relJump (o : BitVec 19) (k : State → State) (s : State) : Res :=
  match relTarget s.fg.pc o with
  | none => .trap 8
  | some t => .jump t (k s)
/-- A register target with the checks of R349. -/
def regJump (t : W64) (k : State → State) (s : State) : Res :=
  if t.toNat % 2 = 1 then .fault 0x03 t false
  else if 2 ^ 18 ≤ t.toNat then .fault 0x02 t false
  else if !(s.cr.landed t.toNat) then .fault 0x0C t false
  else .jump (t.setWidth 18) (k s)
/-- The link register takes the address behind a 4-byte word (R352). -/
def linkS63 (s : State) : State := s.setS 63 ((nextPc s.fg.pc 4).setWidth 64)

/-- `BRA` (R346). -/
def execBra (o : BitVec 19) (s : State) : Host.Outcome State Fault Refusal :=
  floeOp (.bra o) s (relJump o (fun s => s))
/-- `CALL` label (R352). -/
def execCallRel (o : BitVec 19) (s : State) : Host.Outcome State Fault Refusal :=
  floeOp (.callRel o) s (relJump o linkS63)
/-- `BRC` (R347); the hint changes timing only. -/
def execBrc (o : BitVec 19) (h n : BitVec 1) (p : BitVec 3) (s : State) : Host.Outcome State Fault Refusal :=
  floeOp (.brc o h n p) s (fun s =>
    match relTarget s.fg.pc o with
    | none => .trap 8
    | some t =>
      let taken := Mask.ofLanes (s.lanes.filter (fun l => s.P p.toNat l != (n = 1)))
      let next := nextPc s.fg.pc 4
      if taken = s.fg.active then .jump t s
      else if taken = 0 then .go s
      else match s.fl.divide s.cur.frag taken t next s.now with
        | none => .fault 0x0F 0 false
        | some fl => .as (s.updFl (fun _ => fl)))
/-- `BRX` (R349). -/
def execBrx (a : BitVec 6) (s : State) : Host.Outcome State Fault Refusal :=
  floeOp (.brx a) s (fun s => regJump (s.S a.toNat) (fun s => s) s)
/-- `CALL` register (R352). -/
def execCallReg (a : BitVec 6) (s : State) : Host.Outcome State Fault Refusal :=
  floeOp (.callReg a) s (fun s => regJump (s.S a.toNat) linkS63 s)
/-- `RET` (R432). -/
def execRet (s : State) : Host.Outcome State Fault Refusal :=
  floeOp (.ret) s (fun s => regJump (s.S 63) (fun s => s) s)
/-- `EXIT` (R21, R363, R364). -/
def execExit (s : State) : Host.Outcome State Fault Refusal :=
  floeOp (.exit) s (fun s =>
    if s.fg.handler && !s.fl.recs.isEmpty then .trap 10
    else
      let s1 := (s.updFl (fun fl => { fl with live := fl.live &&& ~~~(fl.frag s.cur.frag).active })).retireFrag s.cur.floe s.cur.frag 4
      .as (if s1.fl.live = 0 then s1.retireFloe s.cur.floe else s1))
/-- `JSEG` (R388). -/
def execJseg (l : BitVec 1) (o : BitVec 11) (sl : BitVec 6) (s : State) : Host.Outcome State Fault Refusal :=
  floeOp (.jseg l o sl) s (fun s =>
    let t := sl.toNat * 4096 + o.toNat * 2
    if !(s.cr.landed t) then .fault 0x0C (BitVec.ofNat 64 t) false
    else .jump (BitVec.ofNat 18 t) (if l = 1 then linkS63 s else s))
/-- `YIELD` (R26, R455). -/
def execYield (s : State) : Host.Outcome State Fault Refusal :=
  floeOp (.yield) s (fun s =>
    .go (s.updFl (fun fl =>
      let others := (fl.frags.filter (fun g => g.id ≠ s.cur.frag && g.wait = .none && fl.mayIssue g)).map (fun g => g.id)
      { fl with frags := fl.frags.filter (fun g => g.id ≠ s.cur.frag) ++ [{ fl.frag s.cur.frag with owes := others }] })))

/-! ## SPLIT (R50 to R52, R57) -/

/-- Child j of a split of floe F into width c (R51, R57); each child has a copy of `ILLOP` and `ILLF0` to `ILLF3`, and child 0 the release
fences whose tick is still owed (log entry 51). -/
def Floe.child (fl : Floe) (c j : Nat) (pc : BitVec 18) (now : Nat) : Floe :=
  let live := (fl.live >>> (j * c)) &&& Mask.below c
  { fl with
    width := c
    base := fl.base + j * c
    st := if j = 0 && fl.st ≠ .waiting then fl.st else .ready
    readyAt := if j = 0 && fl.st ≠ .waiting then fl.readyAt else now
    frags := [{ id := 0, pc := pc, active := live, stack := [], waitCount := 0, owes := [], wait := .none, handler := false,
                rb := none, left := none }]
    nextFrag := 1
    live := live
    uipend := if j = 0 then fl.uipend else fl.uipend &&& 5
    rels := if j = 0 then fl.rels else []
    reports := if j = 0 then fl.reports else [] }

/-- The split of the issuing floe: the children, and the retirement of those without a live lane (R51, R52). A buddy that waits in `FUSE`
goes on waiting, since the floe that splits does not retire (R54, log entry 51). -/
def State.splitFloe (s : State) (c : Nat) : State :=
  let fl := s.fl
  let b := blockOf s.cur.floe
  let pc := nextPc s.fg.pc 4
  let kids := upTo (fl.width / c)
  let key (j : Nat) : Nat := floeKey b (fl.base + j * c)
  let s1 := kids.foldl (fun s j => s.setFloe (key j) (fl.child c j pc s.now)) s
  kids.foldl (fun s j => if (s.floe (key j)).live = 0 then s.retireFloe (key j) else s) s1

/-- A guarded `STRM` of a floe is held at the stream engine, which counts as outstanding (R51). -/
def State.strmHeld (s : State) (f : Nat) : Bool :=
  (s.block (blockOf f)).streams.any (fun e => e.2.guardSt = .held && ((s.floe f).queue e.2.queue).stream = some e.1)
/-- `SPLIT` (R50, R51, R439). -/
def execSplit (w : BitVec 2) (s : State) : Host.Outcome State Fault Refusal :=
  floeOp (.split w) s (fun s =>
    let c := 16 * 2 ^ w.toNat
    if s.fl.width ≤ c || c < s.blk.maxsplit then .trap 10
    else if s.fl.frags.length ≠ 1 || !s.fg.stack.isEmpty || !s.fl.recs.isEmpty then .fault 0x12 0 false
    else if !s.fl.idle || s.strmHeld s.cur.floe then .wait .split s
    else .as (s.splitFloe c))

/-! ## FUSE (R53 to R57) -/

/-- The two floes' queue registers agree and shared streams are one split's (R53 check 6). -/
def queuesAgree (x y : Floe) : Bool :=
  (upTo 16).all (fun q =>
    let a := x.queue q
    let b := y.queue q
    a.mode = b.mode && a.port = b.port && a.depth = b.depth && (a.mode ≠ .stream || (a.tag = b.tag && a.stream = b.stream)))
/-- Numbered and cohort standings agree (R53 check 7). -/
def standingAgrees (x y : Floe) : Bool :=
  x.standing = y.standing && x.cstanding.all (fun c => c ∈ y.cstanding) && y.cstanding.all (fun c => c ∈ x.cstanding)

/-- A `FUSE` of the issuing floe ends with a non-zero status; a waiting buddy is released with it (R54). -/
def State.fuseEnds (s : State) (status : Nat) (d : BitVec 6) (buddy : Option Nat) : State :=
  let s1 := (s.updFl (fun fl => { fl.setS d.toNat (BitVec.ofNat 64 status) with fusest := BitVec.ofNat 64 status })).retireFrag
    s.cur.floe s.cur.frag 4
  match buddy with
  | none => s1
  | some g => if (s1.floe g).frags.any (fun x => x.wait = .fuse) then s1.releaseFuse g status (s1.fuseSd g) else s1

/-- The fused floe (R55 to R57): l the left floe, r the right one; `ILLOP` and `ILLF0` to `ILLF3` are the left floe's, and the ticks
owed by release fences both floes' (log entry 51). -/
def fusedFloe (l r : Floe) (d : BitVec 6) (pc : BitVec 18) (now : Nat) : Floe :=
  let live := l.live ||| (r.live <<< l.width)
  let differ := (upTo 64).any (fun n => n ≠ d.toNat && l.S n ≠ r.S n) || l.guards ≠ r.guards
  let status : W64 := if differ then 0x100 else 0
  { l.setS d.toNat status with
    fusest := status
    width := 2 * l.width
    st := if l.st = .active then .active else .ready
    readyAt := if l.st = .active then l.readyAt else now
    frags := [{ id := 0, pc := pc, active := live, stack := [], waitCount := 0, owes := [], wait := .none, handler := false,
                rb := none, left := none }]
    nextFrag := 1
    live := live
    uipend := l.uipend ||| r.uipend
    floor := laterOf l.floor r.floor
    rels := l.rels ++ r.rels
    reports := l.reports ++ r.reports }

/-- Fuse the floes of keys lk (left) and rk (right). -/
def State.fuseFloes (s : State) (lk rk : Nat) (d : BitVec 6) (pc : BitVec 18) : State :=
  let fused := fusedFloe (s.floe lk) (s.floe rk) d pc s.now
  let s1 := ({ s with floes := s.floes.del rk }).setFloe lk fused
  match fused.reports.drop 8 with
  | [] => s1
  | r :: _ => s1.haltLaunch (s.block (blockOf lk)).launch 3 r.cause.toNat (some (s.block (blockOf lk)).id)

/-- `FUSE` (R53 to R58). -/
def execFuse (d : BitVec 6) (s : State) : Host.Outcome State Fault Refusal :=
  floeOp (.fuse d) s (fun s =>
    let fl := s.fl
    let me := s.cur.floe
    if 128 < 2 * fl.width then .as (s.fuseEnds 6 d none)
    else match s.buddy me with
      | none => .as (s.fuseEnds 1 d none)
      | some g =>
        if fl.frags.length ≠ 1 || !s.fg.stack.isEmpty || !fl.recs.isEmpty then .as (s.fuseEnds 3 d (some g))
        else if !fl.idle then .as (s.fuseEnds 4 d (some g))
        else match (s.floe g).frags.find? (fun x => x.wait = .fuse) with
          | none => .wait .fuse s
          | some h =>
            if h.pc ≠ s.fg.pc then .as (s.fuseEnds 2 d (some g))
            else if fl.rbase ≠ (s.floe g).rbase || !(queuesAgree fl (s.floe g)) then .as (s.fuseEnds 5 d (some g))
            else if !(standingAgrees fl (s.floe g)) then .as (s.fuseEnds 7 d (some g))
            else .as (s.fuseFloes (Nat.min me g) (Nat.max me g) d (nextPc s.fg.pc 4)))

end Sys2Proof.Machine
end

