-- ==== Sys2Proof/Machine/Launch.lean ====
section
/-!
DEFINITION. The command processors: accepting descriptors (R28 to R37, R298, R459), completion records and interrupts (R32,
R300), placing blocks (R30, R33 to R35, R48, R62 to R64, R168, R275), and the end of blocks (R27).
-/
namespace Sys2Proof.Machine

/-! ## Descriptors (R29, R31, R33, R35) -/

/-- The dies of a descriptor's dies field that map a cluster (R31, R243); a die out of service maps none (R276). -/
def State.mappedDies (s : State) (d : BitVec 1024) : List Nat :=
  (upTo 4).filter (fun i => descDies d / 2 ^ i % 2 = 1 && (s.die i).inLink && !((s.die i).map.isEmpty))
/-- The command processor of a descriptor: that of the first mapped die that it names (log entry 52). -/
def State.leadDie (s : State) (d : BitVec 1024) : Nat := (s.mappedDies d).headD 0
/-- No core can hold a block of the launch, or co-resident placement of all its blocks is impossible (R33, R35). -/
def State.unfit (s : State) (d : BitVec 1024) : Bool :=
  let ds := s.mappedDies d
  descK d = 0 || ds.isEmpty ||
  (descCores d && descK d * (ds.map (fun i => (s.die i).map.length * 8)).foldl (· + ·) 0 < descNblocks d)
/-- A descriptor that R31 rejects. -/
def State.descBad (s : State) (d : BitVec 1024) : Bool :=
  let kind := fieldN d 56 2
  fieldN d 640 384 ≠ 0 || fieldN d 512 32 ≠ 0 || fieldN d 448 10 ≠ 0 || bitN d 384 || fieldN d 376 8 ≠ 0 ||
  fieldN d 312 8 ≠ 0 || fieldN d 248 8 ≠ 0 || fieldN d 184 8 ≠ 0 || fieldN d 120 8 ≠ 0 || fieldN d 58 6 ≠ 0 ||
  kind = 3 || 2048 < descSpad d || 1024 < descShelf d || descWidth d < descMaxsplit d || descDies d = 0 ||
  descNblocks d = 0 || 2 ^ 31 < descNblocks d || 256 < descNcoh d || 48 < descNparam d ||
  descMailbox d % 64 ≠ 0 || descCompl d % 16 ≠ 0 || descCohtab d % 64 ≠ 0 || descParam d % 8 ≠ 0 ||
  descEntry d % 4096 ≠ 0 || (s.mappedDies d).isEmpty || (kind = 1 && (384 < descNblocks d || descCores d))

/-! ## The cohort table (R28) -/

/-- A cohort entry holds a block. -/
def cohHas (e : BitVec 512) (id : Nat) : Bool :=
  cohValid e && fieldN e 32 32 ≤ id && (id - fieldN e 32 32) % fieldN e 96 32 = 0 &&
  (id - fieldN e 32 32) / fieldN e 96 32 < fieldN e 64 32
/-- An entry that R28 accepts in a grid of n blocks; a valid entry with a stride of 0 or above 2^31, or a count of 0 or above `NBLOCKS`, is
none (log entry 64). -/
def cohEntryOk (n : Nat) (e : BitVec 512) : Bool :=
  fieldN e 128 384 = 0 && fieldN e 1 31 = 0 &&
  (!(cohValid e) || (fieldN e 96 32 ≠ 0 && fieldN e 96 32 ≤ 2 ^ 31 && fieldN e 64 32 ≠ 0 && fieldN e 64 32 ≤ n &&
    fieldN e 32 32 + (fieldN e 64 32 - 1) * fieldN e 96 32 < n))
/-- A cohort table that R28 accepts: no block in more than four cohorts. -/
def cohTableOk (n : Nat) (es : List (BitVec 512)) : Bool :=
  es.all (cohEntryOk n) &&
  es.all (fun e => !(cohValid e) || (cohMembers e).all (fun id => (es.filter (fun c => cohHas c id)).length ≤ 4))

/-! ## Completion (R32, R300) -/

/-- OR the source bit into a receiver's pending word; an entry of another address space drops the interrupt, which is logged (R300). -/
def State.completionInterrupt (s : State) (asid target : Nat) : State :=
  let e := fieldN s.boot 448 64 + target % 4096 * 16
  if s.peek (e + 8) 8 % 2 ^ 16 ≠ asid then { s with intDrops := s.intDrops ++ [(asid, target)] }
  else s.outsideWrite e (toBytes 8 (Nat.lor (s.peek e 8) (2 ^ (target / 4096 % 64)))) 0

/-- Add 1 to the counter of a completion record, a store of the address space (R32); a poisoned one is consumed by the bank unit (R277). -/
def State.countCompletion (s : State) (id die asid a : Nat) : Got Unit :=
  match s.unitPlace asid .store a with
  | .cause e => .cause e a
  | .ok (.phys pa key _) =>
    let old := s.physBytes pa 8 key
    if old.any (fun x => x.2) then .cause 0x0D a
    else .ok () (s.unitStore (some die) pa key (plainBytes 8 ((pbNat old + 1) % 2 ^ 64)))
  | .ok (.peer _ _) => s.peerWrite id a
  | .ok _ => .ok () s
/-- Write a completion record: the status doubleword, the counter, the interrupt. A cause on either write is reported as an event of kind
6 instead, after which nothing more is written, and so is a rejected descriptor whose address space is not valid (R32). -/
def State.writeCompletion (s : State) (id : Nat) (d : BitVec 1024) (status cause blk : Nat) : State :=
  let asid := descAsid d
  let a := descCompl d
  let die := s.leadDie d
  let told (s : State) : State := s.event 6 id (status + cause * 2 ^ 8)
  let s2 :=
    if status = 1 && !(asOk (s.asRecord asid)) then told s
    else if a = 0 then s
    else match s.vaStore id (some die) asid (a + 8) (plainBytes 8 (status + cause * 2 ^ 8 + blk * 2 ^ 32)) with
      | .cause _ _ => told s
      | .ok _ s1 => match s1.countCompletion id die asid a with
        | .ok _ t => t
        | .cause _ _ => told s1
  if descUicomp d then s2.completionInterrupt asid (descUitarget d) else s2

/-! ## Acceptance (R459) -/

/-- The images that acceptance reads, with the poisoned bytes of the entry segment and whether a parameter or a cohort entry is poisoned
(R277), or the cause it meets. -/
inductive Images where
  | ok (image : Tab Byte) (bad : List Nat) (params : List W64) (cohorts : List (BitVec 512)) (badParams : Bool) (s : State)
  | cause (c : Nat)

/-- A list cut into groups of n. -/
def groupsOf {α : Type} (n : Nat) (l : List α) : Nat → List (List α)
  | 0 => []
  | k + 1 => l.take n :: groupsOf n (l.drop n) k

/-- Read the entry segment, the parameters and the cohort table of a descriptor, as its command processor (log entry 52). -/
def State.readImages (s : State) (id : Nat) (d : BitVec 1024) : Images :=
  let asid := descAsid d
  let die := s.leadDie d
  match s.vaLoad id die asid .exec (descEntry d) 4096 with
  | .cause c _ => .cause c
  | .ok code s1 =>
    match s1.vaLoad id die asid .load (descParam d) (descNparam d * 8) with
    | .cause c _ => .cause c
    | .ok ps s2 =>
      match s2.vaLoad id die asid .load (descCohtab d) (descNcoh d * 64) with
      | .cause c _ => .cause c
      | .ok cs s3 =>
        .ok ((code.zip (upTo 4096)).foldl (fun t e => t.set 0 e.2 e.1.1) [])
          ((code.zip (upTo 4096)).filterMap (fun e => if e.1.2 then some e.2 else none))
          ((groupsOf 8 ps (descNparam d)).map (fun g => BitVec.ofNat 64 (pbNat g)))
          ((groupsOf 64 cs (descNcoh d)).map (fun g => BitVec.ofNat 512 (pbNat g)))
          ((ps ++ cs).any (fun x => x.2)) s3

/-- A launch as its descriptor is accepted. -/
def State.newLaunch (s : State) (id : Nat) (d : BitVec 1024) : Launch :=
  { Launch.reset with id := id, desc := d, phase := .queued, accepted := id, replay := !(descNorep d), drift := s.drift,
                      dies := s.mappedDies d }
/-- A descriptor ends with a status other than 0 before anything of it is placed. -/
def State.turnAway (s : State) (id : Nat) (d : BitVec 1024) (status cause : Nat) : State :=
  { s with launches := s.launches.del id }.writeCompletion id d status cause 0
/-- Accept a launch, or end it with status 1 or 2 (R28, R31, R33, R35, R459); every descriptor takes a `LAUNCHID`. The reads of
acceptance are the launch's own, so that they meet its own shelf (R243). The first cause in the order entry segment, parameters, cohort table
is the one reported; a table that R28 rejects comes before a launch that does not fit (log entry 64). -/
def State.acceptLaunch (s : State) (d : BitVec 1024) : State :=
  let id := s.nextLaunch
  let s0 := { s with nextLaunch := id + 1 }
  if s0.descBad d then s0.writeCompletion id d 1 0 0
  else match { s0 with launches := s0.launches.put id (s0.newLaunch id d) }.readImages id d with
    | .cause c => s0.writeCompletion id d 1 c 0
    | .ok image bad params cohorts badParams s1 =>
      if !(cohTableOk (descNblocks d) cohorts) then s1.turnAway id d 1 0
      else if s1.unfit d then s1.turnAway id d 2 0
      else s1.updLaunch id (fun l =>
        { l with image := image, badImage := bad, params := params, cohorts := cohorts, badParams := badParams })

/-! ## Mailboxes (R36, R37, R265) -/

/-- A floe that has not retired takes the mailbox interrupt (R265). -/
def Floe.mailed (fl : Floe) : Floe :=
  if fl.st = .retired || fl.st = .reserved then fl else { fl with uipend := fl.uipend ||| 1 }
/-- A write of `n` bytes at a VA reaches a mailbox (R37). -/
def mailHit (va n m : Nat) : Bool := m < va + n && va < m + 64
/-- A triggering write of `n` bytes at a VA: bit 0 of `UIPEND` in the resident and the saved floes of the kind-0 launches whose mailbox it
reaches, and a launch of each task whose mailbox it reaches (R37, R265). -/
def State.trigger (s : State) (asid va n : Nat) : State :=
  let ls := (s.launches.filter (fun e => descKind e.2.desc = 0 && descAsid e.2.desc = asid && descMailbox e.2.desc ≠ 0 &&
    mailHit va n (descMailbox e.2.desc))).map (fun e => e.1)
  let s1 : State := if ls.isEmpty then s else
    { s with floes := s.floes.map (fun (e : Nat × Floe) => if (s.block (blockOf e.1)).launch ∈ ls then (e.1, e.2.mailed) else e)
             images := s.images.map (fun (i : CoreImage) => if i.launch ∈ ls then
               { i with floes := i.floes.map (fun e => (e.1, e.2.mailed)) } else i) }
  (s1.bindings.filter (fun b => b.asid = asid && mailHit va n b.mailbox)).foldl (fun s b =>
    if s.launches.any (fun e => descKind e.2.desc = 1 && descAsid e.2.desc = asid && descMailbox e.2.desc = b.mailbox &&
        e.2.phase = .queued && e.2.placed = 0) then s
    else s.acceptLaunch b.desc) s1

/-! ## Descriptors of the queues (R298) -/

/-- Take the oldest descriptor of a submission queue when its kind is one of a list; a wrong ASID rejects it (R298). -/
def State.takeDescriptor (s : State) (q : Nat) (kinds : List Nat) (k : State → BitVec 1024 → State) : State :=
  let x := s.subq.getD q SubQueue.reset
  match x.items with
  | [] => s
  | d :: t =>
    if !(descKind d ∈ kinds) then s
    else
      let s1 := { s with subq := s.subq.put q { x with items := t } }
      if x.asid ≠ some (descAsid d) then { s1 with nextLaunch := s1.nextLaunch + 1 }.writeCompletion s1.nextLaunch d 1 0 0
      else k s1 d

/-- LAUNCH_NOW (R31, R459). -/
def execLaunchNow (q : Nat) (s : State) : Host.Outcome State Fault Refusal :=
  .next (s.takeDescriptor q [0, 3] (fun s d => s.acceptLaunch d))
/-- BIND_TASK (R31, R36). -/
def execBindTask (q : Nat) (s : State) : Host.Outcome State Fault Refusal :=
  .next (s.takeDescriptor q [1] (fun s d =>
    if s.descBad d then { s with nextLaunch := s.nextLaunch + 1 }.writeCompletion s.nextLaunch d 1 0 0
    else { s with bindings := s.bindings.filter (fun b => !(b.asid = descAsid d && b.mailbox = descMailbox d)) ++
        [⟨descAsid d, descMailbox d, d⟩] }))
/-- UNBIND_TASK (R31, R36). -/
def execUnbindTask (q : Nat) (s : State) : Host.Outcome State Fault Refusal :=
  .next (s.takeDescriptor q [2] (fun s d =>
    if s.descBad d then { s with nextLaunch := s.nextLaunch + 1 }.writeCompletion s.nextLaunch d 1 0 0
    else { s with bindings := s.bindings.filter (fun b => !(b.asid = descAsid d && b.mailbox = descMailbox d)) }))

/-! ## Placement (R34, R35, R168) -/

/-- A launch has saved blocks (R274). -/
def State.savedLaunch (s : State) (l : Nat) : Bool := s.images.any (fun i => i.launch = l)
/-- Launches that may still place blocks, in the distributor's order (R168). -/
def State.placing (s : State) : List Launch :=
  let ls := s.launches.vals.filter (fun l => (l.phase = .queued || l.phase = .running) && l.placed < descNblocks l.desc &&
    !(s.savedLaunch l.id))
  let ins (x : Launch) : List Launch → List Launch := fun acc =>
    acc.takeWhile (fun y => descPrio y.desc < descPrio x.desc || (descPrio y.desc = descPrio x.desc && y.accepted < x.accepted)) ++ x ::
    acc.dropWhile (fun y => descPrio y.desc < descPrio x.desc || (descPrio y.desc = descPrio x.desc && y.accepted < x.accepted))
  ls.foldl (fun acc x => ins x acc) []
/-- The compute island of a core: its physical cluster by the die's map (R14 to R16). -/
def State.islandOf (s : State) (c : Nat) : Nat := dieOfCore c * 6 + (s.die (dieOfCore c)).map.getD (c % 96 / 8) 0 / 2
/-- A core that a re-planning window keeps empty (R293). -/
def State.replanning (s : State) (c : Nat) : Bool := s.islandOf c ∈ s.replans
/-- A core may take a block of a launch: its free positions (R33, R274). -/
def State.freeOn (s : State) (l : Launch) (c : Nat) : Nat :=
  let bs := s.blocksOfCore c
  if (s.core c).haltReq || s.replanning c || bs.any (fun b => (s.block b).launch ≠ l.id) ||
      s.images.any (fun i => i.core = c && i.launch ∈ s.restores) then 0
  else descK l.desc - bs.length
/-- Shelf MiB that other launches hold on a die (R243, R275). -/
def State.shelfHeld (s : State) (l : Launch) (d : Nat) : Nat :=
  (s.launches.vals.filter (fun x => x.id ≠ l.id && 0 < x.placed && d ∈ x.dies)).foldl (fun a x => a + descShelf x.desc) 0
/-- The launch's shelf fits on its dies (R12, R275). -/
def State.shelfFits (s : State) (l : Launch) : Bool :=
  l.dies.all (fun d => s.shelfHeld l d + descShelf l.desc ≤ 1024)
/-- Another launch of the same task runs (R37): at most one at a time. -/
def State.taskBusy (s : State) (l : Launch) : Bool :=
  descKind l.desc = 1 && l.placed = 0 && s.launches.vals.any (fun x => x.id ≠ l.id && descKind x.desc = 1 && 0 < x.placed &&
    descAsid x.desc = descAsid l.desc && descMailbox x.desc = descMailbox l.desc)
/-- The dies a launch may use now: not held by an earlier one, no cluster leaving (R168, R290). -/
def State.openDies (s : State) (l : Launch) (held : List Nat) : List Nat :=
  (s.mappedDies l.desc).filter (fun d => !(d ∈ held) && !(s.leaving.any (fun e => e.1 = d)))
/-- Free positions of a die for a launch. -/
def State.dieFree (s : State) (l : Launch) (d : Nat) : Nat := ((s.coresOfDie d).map (s.freeOn l)).foldl (· + ·) 0
/-- The core for a launch's next block (R168), if any. -/
def State.chooseCore (s : State) (l : Launch) (held : List Nat) : Option Nat :=
  let ds := s.openDies l held
  let total := (ds.map (s.dieFree l)).foldl (· + ·) 0
  if total = 0 || !(s.shelfFits l) || (descCores l.desc && total < descNblocks l.desc - l.placed) then none
  else
    let best := ds.foldl (fun b d => if s.dieFree l b < s.dieFree l d then d else b) (ds.headD 0)
    let cs := (s.coresOfDie best).filter (fun c => 0 < s.freeOn l c)
    cs.foldl (fun b c => match b with
      | none => some c
      | some x => if (s.blocksOfCore c).length < (s.blocksOfCore x).length then some c else some x) none
/-- The first launch in order that can place a block, with its core and the dies held before it; a launch that cannot holds its dies
(R168). -/
def State.nextPlacement (s : State) : List Launch → List Nat → Option (Launch × Nat × List Nat)
  | [], _ => none
  | l :: t, held =>
    if s.taskBusy l then s.nextPlacement t held
    else match s.chooseCore l held with
      | some c => some (l, c, held)
      | none => s.nextPlacement t (held ++ s.mappedDies l.desc)

/-! ## Preparing a block (R30, R48, R64, R275) -/

/-- Slots of a quadrant that the blocks of a core hold. -/
def State.usedSlots (s : State) (c q : Nat) : List Nat :=
  (((s.blocksOfCore c).map (fun b =>
    let x := s.block b
    (x.layout.filter (fun e => e.1 = q)).map (fun e => (upTo (x.width / x.maxsplit)).map (fun i => e.2 + i)))).flatten).flatten
/-- Give floes their quadrants and slots, `n` slots each, in turn (R48). -/
def placeFloes (used : Nat → List Nat) (n : Nat) : Nat → List (Nat × Nat) → List (Nat × Nat)
  | 0, acc => acc
  | k + 1, acc =>
    let taken (q : Nat) : List Nat :=
      used q ++ ((acc.filter (fun e => e.1 = q)).map (fun e => (upTo n).map (fun i => e.2 + i))).flatten
    let q := (upTo 4).foldl (fun b q => if (taken q).length < (taken b).length then q else b) 0
    let at_ := ((upTo (64 / n)).find? (fun i => (upTo n).all (fun j => !((i * n + j) ∈ taken q)))).getD 0
    placeFloes used n k (acc ++ [(q, at_ * n)])

/-- A core prepares itself for another launch (R275). A delivery for a run to come stays in the buffer of its launch (R149). -/
def Core.prepare (c : Core) (l : Nat) : Core :=
  if c.lastLaunch = l then c
  else { c with l1 := [], tiles := [], staging := [], drain := none, slots := [], lastLaunch := l }
/-- The multicast deliveries of a launch go with it (R149). -/
def Core.dropCasts (c : Core) (l : Nat) : Core := { c with mcast := c.mcast.filter (fun e => e.1 / 64 ≠ l) }
def State.dropCasts (s : State) (l : Nat) : State := { s with cores := s.cores.map (fun e => (e.1, e.2.dropCasts l)) }

/-- A floe at block start (R30). -/
def startFloe (l : Launch) (base : Nat) (ctime : BitVec 16) (now : Nat) : Floe :=
  let w := descWidth l.desc
  { Floe.reset with
    width := w
    base := base
    st := .ready
    frags := [{ Fragment.reset with active := Mask.below w }]
    nextFrag := 1
    live := Mask.below w
    sregs := (l.params.zip (upTo l.params.length)).foldl (fun t e => t.set 0 e.2 e.1) []
    floor := ctime
    readyAt := now }

/-- Prepare a block of a launch at a core and position (R30, R62 to R64); poisoned parameters are consumed as they are bound (R277). -/
def State.prepareBlock (s : State) (l : Launch) (c pos id : Nat) : State :=
  let d := l.desc
  let b := c * 16 + pos
  let lay := placeFloes (s.usedSlots c) (descWidth d / descMaxsplit d) (descFloes d) []
  let s1 := s.updCore c (fun k => let p := k.prepare l.id; 
    { p with slots := p.slots.put 0 ⟨.landed, 4096, l.image, l.badImage, (p.slot 0).fetches⟩ })
  let blk : Block :=
    { Block.reset with launch := l.id, id := id, core := c, pos := pos, floes := descFloes d, width := descWidth d,
                       maxsplit := descMaxsplit d, nregs := descRegs d, spadKiB := descSpad d, layout := lay }
  let s2 := s1.setBlock b blk
  (upTo (descFloes d)).foldl (fun s i =>
    s.setFloe (floeKey b (i * descWidth d)) (startFloe l (i * descWidth d) (s.core c).ctime s.now)) s2

/-- The pages of an extent that is not malformed (R197). -/
def extentVas (e : BitVec 256) : List Nat :=
  match extentWalk 0 e with
  | .ok x _ => (upTo (x.len / 2 ^ 16)).map (fun i => x.va + i * 2 ^ 16)
  | .cause _ => []
/-- Entry i of a page table (R193). -/
def State.tableEntry (s : State) (pa i : Nat) : W64 := BitVec.ofNat 64 (s.peek (pa + i * 8) 8)
/-- The pages that the entries of a page table reach (R193). -/
def State.tableVas (s : State) (root : Nat) : List Nat :=
  if !(rootOk root) then []
  else ((upTo (2 ^ 14)).map (fun i =>
    let e0 := s.tableEntry root i
    if !(attrValid e0 && tableClean e0) then []
    else ((upTo (2 ^ 13)).map (fun j =>
      let e1 := s.tableEntry (attrPa e0) j
      if !(attrValid e1) || !(attrLeaf e1 || tableClean e1) then []
      else (upTo (2 ^ 13)).filterMap (fun k =>
        if attrLeaf e1 || attrValid (s.tableEntry (attrPa e1) k) then some (i * 2 ^ 42 + j * 2 ^ 29 + k * 2 ^ 16) else none))).flatten)).flatten
/-- The frames of a launch's snapshot set (R283): those of the leaf translations with write 1 and snap 1, of the page table and the range
table; a lattice region has none (R284). -/
def State.snapFrames (s : State) (asid : Nat) : List Nat :=
  let r := s.asRecord asid
  if !(asOk r) then []
  else dedupe ((((s.extents r).map extentVas).flatten ++ s.tableVas (asRoot r)).filterMap (fun va =>
    match s.walk asid va with
    | .ok x _ => if attrWrite x.attr && attrSnap x.attr && attrLtype x.attr = 0 && attrTier x.attr ≤ 1
        then some ((x.pa + (va - x.va)) / 2 ^ 16) else none
    | .cause _ => none))

/-- The shelf of a launch is carved from its dies' cache stacks, whose lines make room for it (R12, R243). -/
def State.carveShelf (s : State) (ds : List Nat) : State :=
  ds.foldl (fun s d => (((s.die d).stack.keys).take ((s.die d).stack.length - s.linesFor d)).foldl (fun s ln => s.stackDrop d ln) s) s
/-- The distributor places a launch's next block at a core; its first arms the snapshot set of a replayable launch (R284). -/
def State.placeAt (s : State) (l c : Nat) : State :=
  let x := s.launch l
  let pos := ((upTo 16).find? (fun p => (s.blocks.get? (c * 16 + p)).isNone)).getD 0
  let s1 := s.prepareBlock x c pos x.placed
  let arm := x.placed = 0 && x.replay
  let s2 := s1.updLaunch l (fun y => { y with phase := .running, placed := y.placed + 1, armed := if arm then true else y.armed,
                                              snapSet := if arm then s.snapFrames (descAsid x.desc) else y.snapSet })
  let s3 := if x.placed = 0 then s2.carveShelf x.dies else s2
  if x.badParams then s3.consume l (some x.placed) else s3
/-- Place the further blocks of a launch while one finds a core. -/
def State.placeMore (l : Nat) (held : List Nat) : Nat → State → State
  | 0, s => s
  | n + 1, s =>
    if (s.launch l).phase ≠ .running then s
    else match s.chooseCore (s.launch l) held with
    | none => s
    | some c => State.placeMore l held n (s.placeAt l c)
/-- BLOCK_PLACEMENT: the distributor places one block, or all blocks of a launch that must be resident at once (R35). -/
def State.placeNext (s : State) : State :=
  match s.nextPlacement s.placing [] with
  | none => s
  | some (l, c, held) =>
    let s1 := s.placeAt l.id c
    if descCores l.desc then State.placeMore l.id held (descNblocks l.desc - l.placed - 1) s1 else s1
/-- BLOCK_PLACEMENT (R168). -/
def execBlockPlacement (s : State) : Host.Outcome State Fault Refusal := .next s.placeNext

/-! ## The end of blocks (R27) -/

/-- A block has finished (R27): the counters of its streams have been paid (R446) with the rest. -/
def State.blockDone (s : State) (b : Nat) : Bool :=
  let c := s.core (coreOf b)
  (s.blocks.get? b).isSome && (s.liveFloes b).isEmpty &&
  (s.floesOf b).all (fun f => (s.floe f).ops.isEmpty && (s.floe f).cmds.isEmpty) &&
  c.run.all (fun r => r.blk ≠ b) && c.engine.all (fun e => e.blk ≠ b) && c.drain.all (fun d => d.blk ≠ b) &&
  c.staging.all (fun u => u.job.blk ≠ b) && (s.block b).streams.all (fun e => !e.2.owes)
/-- A slot without the code fetches of a block that is removed; one that nothing lands any more is empty. -/
def CodeSlot.drop (x : CodeSlot) (b : Nat) : CodeSlot :=
  let rest := x.fetches.filter (fun e => blockOf e.1 ≠ b)
  { x with fetches := rest, st := if x.st = .landing && rest.isEmpty then .empty else x.st }
/-- Remove a block, its floes, and what its core holds for it. -/
def State.removeBlock (s : State) (b : Nat) : State :=
  let s1 := { s with blocks := s.blocks.del b, floes := s.floes.filter (fun e => blockOf e.1 ≠ b) }
  s1.updCore (coreOf b) (fun c =>
    { c with slots := c.slots.map (fun e => (e.1, e.2.drop b)), run := c.run.filter (fun r => r.blk ≠ b), mruns := c.mruns.filter (fun m => blockOf m.1 ≠ b),
             ending := c.ending.filter (fun e => blockOf e.2 ≠ b),
             engine := c.engine.filter (fun e => e.blk ≠ b), drain := c.drain.filter (fun d => d.blk ≠ b),
             staging := c.staging.filter (fun u => u.job.blk ≠ b) })
/-- BLOCK_FINISH (R27, R44). -/
def State.finishBlock (s : State) (b : Nat) : State :=
  if !(s.blockDone b) then s
  else
    let x := s.block b
    let s1 := (s.removeBlock b).updLaunch x.launch (fun l => { l with finished := l.finished ++ [x.id] })
    ((s1.launch x.launch).cohortsOf x.id).foldl (fun s c => s.checkCohort x.launch c) s1
/-- BLOCK_FINISH (R27). -/
def execBlockFinish (b : Nat) (s : State) : Host.Outcome State Fault Refusal := .next (s.finishBlock b)

end Sys2Proof.Machine
end

