-- ==== Sys2Proof/Machine/Order.lean ====
section
/-!
DEFINITION. Fences, prefetch and line operations (R237, R238, R350, R351, R375, R415).
-/
namespace Sys2Proof.Machine

/-- What a window puts back that has changed nothing yet (R238). -/
def Floe.windowStart (fl : Floe) : SavedRegs := ⟨[], [], [], [], fl.frags, fl.stoch⟩
/-- A fragment that has issued in a window stands again as it was saved; the others have not moved by the window. -/
def SavedRegs.frag (r : SavedRegs) (touched : List Nat) (g : Fragment) : Fragment :=
  if g.id ∈ touched then (r.frags.find? (fun x => x.id = g.id)).getD g else g
/-- Put back the registers, predicates, poison marks and fragments that the window has changed, and drop the operations issued since the
fence (R238). -/
def State.restoreRegs (s : State) (f : Nat) (w : Fence) : State :=
  let r := w.saved
  let s1 := s.updBlock (blockOf f) (fun b =>
    { b with
      vregs := r.vregs.foldl (fun t e => t.set 0 e.1 e.2) b.vregs
      preds := r.preds.foldl (fun t e => t.set false e.1 e.2) b.preds
      badRegs := (r.bad.filter (fun e => e.2 && !(e.1 ∈ b.badRegs))).map (fun e => e.1) ++
        b.badRegs.filter (fun k => r.bad.getD k true) })
  s1.updFloe f (fun x => Floe.settleState
    { x with sregs := r.sregs.foldl (fun t e => t.set 0 e.1 e.2) x.sregs, stoch := r.stoch, frags := x.frags.map (r.frag w.touched)
             ops := x.ops.filter (fun o => o.seq < w.before) } s.now)

/-- The operations that a fence waits for are done. -/
def Floe.fenceReady (fl : Floe) (w : Fence) : Bool :=
  fl.ops.all (fun o => w.before ≤ o.seq || (!w.full && o.cls ≠ .loads) || o.lanes.all (fun a => a.done))

/-- Validate a recorded line (R238): whether it has changed. A copy that R220 still allows stands; any other is renewed under the
recorded version. -/
def State.validateLine (s : State) (f : Nat) (x : WinLine) : Bool × State :=
  let c := floeCore f
  let d := dieOfCore c
  let cr := s.core c
  let key := match cr.l1.get? x.line with
    | some y => y.key
    | none => match (s.die d).stack.get? x.line with
      | some y => y.key
      | none => s.memKey x.line 0
  match cr.l1Hit cr.ctime (s.floe f).floor x.line key with
  | some y => (x.changed || y.wts ≠ x.wts, s)
  | none =>
    let s1 := s.stackServe d x.line key (descLease (s.launchOf (blockOf f)).desc) cr.ctime
    let y := s1.stackLine d x.line
    (x.changed || y.wts ≠ x.wts,
      (s1.installL1 c x.line ⟨y.under x.line key, y.wts, y.rts, cr.ctime, y.poison, key⟩).raiseCtime c y.wts)

/-- The acquire and full fence of a floe completes (R236 to R238, R375). -/
def State.endFence (s : State) (f : Nat) (w : Fence) : State :=
  let s1 := if 3 ≤ w.scope then s.acquireFloor f else s.advance (floeCore f)
  let r := w.lines.foldl (fun (a : Bool × State) x =>
    let v := a.2.validateLine f x
    (a.1 || v.1, v.2)) (false, s1)
  let s2 := r.2.updFloe f (fun fl => { fl with fence := none })
  if r.1 then s2.restoreRegs f w else s2
/-- The fence may complete now: its older operations are done, and the horizon allows its tick and its renewals (R218, R238). -/
def State.fenceMay (s : State) (f : Nat) (w : Fence) : Bool :=
  (s.floe f).fenceReady w && s.mayTick (floeCore f) && s.mayRaise (floeCore f) ((s.endFence f w).core (floeCore f)).ctime

/-- Release fences whose older operations are done complete, each with its tick, as the horizon allows (R218, R375). -/
def State.completeRels (s : State) (f : Nat) : State :=
  (s.floe f).rels.foldl (fun s n =>
    if (s.floe f).doneBefore n && s.mayTick (floeCore f) then
      (s.advance (floeCore f)).updFloe f (fun fl => { fl with rels := fl.rels.erase n })
    else s) s
/-- FENCE_COMPLETION (R238, R375): the release fences whose older operations are done, then the acquire or full fence when its are. -/
def State.completeFences (s : State) (f : Nat) : State :=
  let s1 := s.completeRels f
  match (s1.floe f).fence with
  | none => s1
  | some w => if s1.fenceMay f w then s1.endFence f w else s1

/-- `FENCE.ACQ` and `FENCE.FULL` (R375): while it cannot complete, the fragment goes on in a window (R237). -/
def fenceBody (full : Bool) (sc : BitVec 3) (s : State) : Res :=
  if s.fl.fence.isSome then .wait .order s
  else
    let w : Fence := ⟨full, sc.toNat, s.fl.opSeq, s.cur.frag, true, 0, [], [], s.fl.windowStart⟩
    if s.fl.fenceReady w && s.mayTick (floeCore s.cur.floe) then .go (s.endFence s.cur.floe w)
    else
      let s1 := s.retireFrag s.cur.floe s.cur.frag 4
      .as (s1.updFl (fun fl => { fl with fence := some { w with saved := fl.windowStart } }))

/-- `FENCE.FULL` (R375). -/
def execFenceFull (sc : BitVec 3) (s : State) : Host.Outcome State Fault Refusal :=
  floeOp (.fenceFull sc) s (fenceBody true sc)
/-- `FENCE.ACQ` (R375). -/
def execFenceAcq (sc : BitVec 3) (s : State) : Host.Outcome State Fault Refusal :=
  floeOp (.fenceAcq sc) s (fenceBody false sc)
/-- `FENCE.REL` (R375). -/
def execFenceRel (sc : BitVec 3) (s : State) : Host.Outcome State Fault Refusal :=
  floeOp (.fenceRel sc) s (fun s =>
    if s.fl.fence.isSome then .wait .order s
    else if s.fl.opsDone && s.mayTick (floeCore s.cur.floe) then .go (s.advance (floeCore s.cur.floe))
    else .go (s.updFl (fun fl => { fl with rels := fl.rels ++ [fl.opSeq] })))
/-- FENCE_COMPLETION (R238). -/
def execFenceCompletion (f : Nat) (s : State) : Host.Outcome State Fault Refusal := .next (s.completeFences f)

/-- Prefetch the line of one VA, where nothing stands against it (R415). -/
def State.prefetch (s : State) (f : Nat) (va : W64) : State :=
  match s.checkLane (blockOf f) .load 1 false va with
  | .ok (.phys pa key nc) =>
    if nc || s.firnHolds (.phys pa key nc) then s
    else
      let s1 := s.holdXlat (floeCore f) (s.asidOf (blockOf f)) va.toNat
      let lease := descLease (s1.launchOf (blockOf f)).desc
      let s2 := (s1.coreRead (s1.reqNow (floeCore f)) (floeCore f) (pa / 128) key lease (s1.floe f).floor true true).2
      if s.mayRaise (floeCore f) (s2.core (floeCore f)).ctime then s2 else s1
  | _ => s
/-- `PREF` (R415). -/
def execPref (i b : BitVec 6) (s : State) : Host.Outcome State Fault Refusal :=
  floeOp (.pref i b) s (fun s =>
    match s.gate (viGroup i) [] false false with
    | some r => r
    | none => .go (s.lanes.foldl (fun t l => t.prefetch s.cur.floe (s.addr i b 0 l)) (s.popPorts (viGroup i))))

/-- A `CACHE` operation (R350, R351). -/
def cacheBody (op : CacheOp) (i b : BitVec 6) (s : State) : Res :=
  memIssue ⟨.stores, .cache op, 1, false, .none, false, 0, false, false⟩ (viGroup i) [] false false
    (fun s => s.lanes.map (fun l => ⟨l, s.addr i b 0 l, .absent, 0, 0, false, false⟩)) s
/-- `CACHE.WB` (R351). -/
def execCacheWb (i b : BitVec 6) (s : State) : Host.Outcome State Fault Refusal :=
  floeOp (.cacheWb i b) s (cacheBody .wb i b)
/-- `CACHE.INV` (R351). -/
def execCacheInv (i b : BitVec 6) (s : State) : Host.Outcome State Fault Refusal :=
  floeOp (.cacheInv i b) s (cacheBody .inv i b)
/-- `CACHE.WBINV` (R351). -/
def execCacheWbinv (i b : BitVec 6) (s : State) : Host.Outcome State Fault Refusal :=
  floeOp (.cacheWbinv i b) s (cacheBody .wbinv i b)

end Sys2Proof.Machine
end

