-- ==== Sys2Proof/Machine/Cache.lean ====
section
/-!
DEFINITION. The steps of logical time, cache stacks, homes, memory controllers and the drift exchange (R213, R217 to R229,
R252 to R254, R276, R278, R279, R284).
-/
namespace Sys2Proof.Machine

/-! ## Logical time (R217 to R219) -/

/-- CTIME_TICK (R217): 256 cycles of the clock of a core have passed. -/
def execCtimeTick (core : Nat) (s : State) : Host.Outcome State Fault Refusal := .next (if s.mapped core then s.tick core else s)
/-- Ticks that the horizon held back are taken, as far as it now lets them (R218). -/
def State.payTicks (s : State) (c : Nat) : Nat → State
  | 0 => s
  | n + 1 =>
    if (s.core c).heldTicks = 0 || !(s.mayTick c) then s
    else ((s.updCore c (fun k => { k with heldTicks := k.heldTicks - 1 })).advance c).payTicks c n
/-- HORIZON_WAIT_RELEASE: the ticks of a core and the floes that wait for an acquire's tick go on (R218). -/
def State.releaseHorizon (s : State) (c : Nat) : State :=
  let s1 := s.payTicks c (s.core c).heldTicks
  (s1.floes.keys.filter (fun f => floeCore f = c)).foldl (fun s f => s.releaseCohorts f) s1
/-- HORIZON_WAIT_RELEASE (R218). -/
def execHorizonWaitRelease (core : Nat) (s : State) : Host.Outcome State Fault Refusal :=
  .next (if s.mapped core then s.releaseHorizon core else s)

/-- A stack line, an L1 copy, a grant, a floe as the sweep leaves their stamps. -/
def StackLine.swept (x : StackLine) (h : BitVec 16) : StackLine := { x with wts := clampTs h x.wts, rts := clampTs h x.rts }
def L1Line.swept (x : L1Line) (h : BitVec 16) : L1Line :=
  { x with wts := clampTs h x.wts, rts := clampTs h x.rts, gts := clampTs h x.gts }
def Core.swept (k : Core) (h : BitVec 16) : Core :=
  { k with l1 := (k.l1.filter (fun x => !(earlier x.2.rts (k.ctime - 0x4000)))).map (fun x => (x.1, x.2.swept h)),
           grants := k.grants.map (fun g => { g with wts := clampTs h g.wts, rts := clampTs h g.rts }) }
def Floe.swept (fl : Floe) (h : BitVec 16) : Floe :=
  { fl with floor := clampTs h fl.floor, ops := fl.ops.map (fun o => { o with time := clampTs h o.time }) }
/-- TIMESTAMP_SWEEP: the stack and the cores of a die clamp every stamp, and the cores drop copies far behind their time (R219). -/
def State.sweep (s : State) (d : Nat) : State :=
  let h := s.horizon d
  let s1 := s.updDie d (fun x => { x with
    stack := x.stack.map (fun e => (e.1, e.2.swept h)), stime := clampTs h x.stime, swept := h })
  { s1 with cores := s1.cores.map (fun (e : Nat × Core) => if dieOfCore e.1 = d then (e.1, e.2.swept h) else e)
            floes := s1.floes.map (fun (e : Nat × Floe) => if dieOfCore (floeCore e.1) = d then (e.1, e.2.swept h) else e)
            images := s1.images.map (fun (i : CoreImage) => if dieOfCore i.core = d then
              { i with floes := i.floes.map (fun e => (e.1, e.2.swept h)) } else i) }
/-- TIMESTAMP_SWEEP (R219). -/
def execTimestampSweep (die : Nat) (s : State) : Host.Outcome State Fault Refusal := .next (if die < 4 then s.sweep die else s)

/-! ## Reads, renewals, grants (R221, R224) -/

/-- The key slot a line stands under. -/
def State.lineKey (s : State) (d ln : Nat) : Nat :=
  match (s.die d).stack.get? ln with
  | some x => x.key
  | none => s.memKey ln 0
/-- The time T of a core's request for a line: its `CTIME` when the oldest load that asks for the line issued, else its `CTIME`
(R221, R323). -/
def State.askTime (s : State) (c ln : Nat) : BitVec 16 :=
  (((s.floes.filter (fun e => floeCore e.1 = c)).map (fun e => e.2.ops.filter (fun o => o.cls = .loads && o.todo.any (fun a =>
    match a.place with | .phys pa _ _ => pa / 128 = ln | _ => false)))).flatten.map (fun o => o.time)).headD (s.core c).ctime
/-- The stack serves a request of a core; where its version is current the reply holds no data (R221). -/
def State.grant (s : State) (c ln lease : Nat) (version : Option (BitVec 16)) : State :=
  let d := dieOfCore c
  let same : Bool := match (s.die d).stack.get? ln with
    | some x => decide (version = some (clampTs (s.horizon d) x.wts))
    | none => false
  let s1 := s.stackServe d ln (s.lineKey d ln) (lease % 256) (s.askTime c ln)
  let y := s1.stackLine d ln
  let g : Grant := ⟨ln, if same then none else some y.data, y.poison, y.wts, y.rts, y.key⟩
  s1.updCore c (fun k => { k with grants := k.grants ++ [g] })
/-- A core of a mapped cluster asks for a line that exists. -/
def State.asks (s : State) (c ln : Nat) : Bool := s.mapped c && paOk (ln * 128)
/-- The version of a core's copy of a line, where it stands under the line's key slot (R220). -/
def State.version (s : State) (c ln : Nat) : Option (BitVec 16) :=
  match (s.core c).l1.get? ln with
  | some x => if x.key = s.lineKey (dieOfCore c) ln then some x.wts else none
  | none => none
/-- STACK_READ (R221). -/
def execStackRead (core line lease : Nat) (s : State) : Host.Outcome State Fault Refusal :=
  .next (if s.asks core line then s.grant core line lease none else s)
/-- STACK_RENEWAL (R220, R221). -/
def execStackRenewal (core line lease : Nat) (s : State) : Host.Outcome State Fault Refusal :=
  .next (if s.asks core line then s.grant core line lease (s.version core line) else s)
/-- The L1 copy that a grant makes: the data it brings, or the version that the core still holds (R221). -/
def Grant.copy (g : Grant) (k : Core) : Option L1Line :=
  match g.fresh, k.l1.get? g.line with
  | some x, _ => some ⟨x, g.wts, g.rts, k.ctime, g.poison, g.key⟩
  | none, some y => if y.wts = g.wts && y.key = g.key then some { y with rts := g.rts, gts := k.ctime } else none
  | none, none => none
/-- GRANT_INSTALL: the oldest grant reaches its core; it waits while the horizon holds its time back (R218, R221). -/
def State.install (s : State) (c : Nat) : State :=
  match (s.core c).grants with
  | [] => s
  | g :: t =>
    if !(s.mayRaise c (laterOf (s.core c).ctime g.wts)) then s
    else
      let s1 := s.updCore c (fun k => { k with grants := t })
      (match g.copy (s.core c) with
        | some x => s1.installL1 c g.line x
        | none => s1).raiseCtime c g.wts
/-- GRANT_INSTALL (R221). -/
def execGrantInstall (core : Nat) (s : State) : Host.Outcome State Fault Refusal := .next (s.install core)

/-! ## Writes, fills, evictions, ownership, probes (R222, R223, R226 to R228) -/

/-- STACK_WRITE: a floe's oldest write not yet performed reaches its bank (R222). -/
def execStackWrite (f : Nat) (s : State) : Host.Outcome State Fault Refusal := .next (s.performWrite f)
/-- MEMORY_OP_COMPLETION (R172). -/
def execMemoryOpCompletion (f : Nat) (cls : OpClass) (s : State) : Host.Outcome State Fault Refusal :=
  .next (s.completeOldest f cls)
/-- STACK_FILL (R223). -/
def execStackFill (die line : Nat) (s : State) : Host.Outcome State Fault Refusal :=
  .next (if die < 4 && paOk (line * 128) && ((s.die die).stack.get? line).isNone then s.stackFill die line (s.lineKey die line) else s)
/-- STACK_EVICTION (R223). -/
def execStackEviction (die line : Nat) (s : State) : Host.Outcome State Fault Refusal := .next (s.stackDrop die line)
/-- The home of a line (R225): a compute die, or 4 for the host die's memory controller. -/
def homeOf (ln : Nat) : Nat := if paTier (ln * 128) = 0 then paOff (ln * 128) / 2 ^ 36 % 8 / 2 else 4
/-- Serve the agents that ask for lines of a region in one cycle, each time the next after the home's pointer; the losers stand in the
queue behind it (R227). -/
def State.serveOwners (s : State) (region : Nat) : Nat → List (Nat × Nat) → State
  | 0, _ => s
  | n + 1, as =>
    let home := homeOf (region * 4)
    match ((upTo 13).map (fun i => (s.rotor.getD home 0 + 1 + i) % 13)).findSome? (fun a => as.find? (fun x => x.1 = a)) with
    | none => s
    | some x =>
      let ln := region * 4 + x.2 % 4
      ({ s with rotor := s.rotor.put home x.1 }.stackOwn x.1 ln (s.lineKey x.1 ln)).serveOwners region n (as.erase x)
/-- OWNERSHIP_REQUEST (R227). -/
def execOwnershipRequest (region : Nat) (agents : List (Nat × Nat)) (s : State) : Host.Outcome State Fault Refusal :=
  .next (if paOk (region * 512) then s.serveOwners region agents.length agents else s)
/-- INVALIDATING_PROBE: the agent drops its copy, or answers "absent" (R223, R226). -/
def execInvalidatingProbe (agent line : Nat) (s : State) : Host.Outcome State Fault Refusal :=
  .next (if ((s.die agent).stack.get? line).isSome then (s.stackDrop agent line).markChanged agent line else s)

/-! ## Memory controllers (R213, R276, R278, R284) -/

/-- MIGRATION_LINE_MOVE: one line moves to the destination frame, under its tweak, with its poison (R213, R215, R277). -/
def State.moveLine (s : State) (src : Nat) : State :=
  match s.migrations.find? (fun m => m.src = src) with
  | none => s
  | some m =>
    if 512 ≤ m.ptr then s
    else
      let a := m.src * 512 + m.ptr
      let b := m.dst * 512 + m.ptr
      let s1 := (upTo 128).foldl (fun s i => { s with mem := s.mem.set 0 (b * 128 + i) (s.mem.getD (a * 128 + i) 0) }) s
      let bad := (s1.badWords.filter (fun w => w / 32 = a)).map (fun w => b * 32 + w % 32)
      { s1 with
        badWords := s1.badWords.filter (fun w => w / 32 ≠ a && w / 32 ≠ b) ++ bad
        memKeys := match s1.memKeys.get? a with | some k => s1.memKeys.put b k | none => s1.memKeys.del b
        migrations := s1.migrations.map (fun x => if x.src = src then { x with ptr := x.ptr + 1 } else x) }
/-- MIGRATION_LINE_MOVE (R213). -/
def execMigrationLineMove (src : Nat) (s : State) : Host.Outcome State Fault Refusal := .next (s.moveLine src)
/-- SNAPSHOT_COPY: a frame of a launch's armed set is copied before its first write (R284, R285). -/
def execSnapshotCopy (l frame : Nat) (s : State) : Host.Outcome State Fault Refusal := .next (s.snapshotFrame l frame)
/-- An event lies within a window of hours that ends now; times are in ns. -/
def State.within (s : State) (hours : Nat) (t : W64) : Bool := s.time.toNat < t.toNat + hours * 3600000000000
/-- Firmware has grounds to retire a DRAM frame, by reason code (R279, R281). -/
def State.condemn (s : State) (fr reason : Nat) : State :=
  if paTier (fr * 2 ^ 16) ≤ 1 && paOk (fr * 2 ^ 16) && !(s.condemned.any (fun e => e.1 = fr)) && !(s.retired fr) &&
      !(s.retiring.any (fun r => r.src = fr)) then
    { s with condemned := s.condemned ++ [(fr, reason)] }
  else s
/-- A corrected error of a line of memory is logged; 16 in the frame within 24 h condemn it (R276, R279). -/
def State.lineCorrected (s : State) (ln : Nat) : State :=
  let fr := s.lineHome ln / 512
  let ts := s.time :: (s.frameErrs.getD fr []).filter (s.within 24)
  let s1 := { s with frameErrs := s.frameErrs.put fr ts, corrected := s.corrected + 1 }
  if 16 ≤ ts.length then s1.condemn fr 1 else s1
/-- An uncorrectable error of a line of memory poisons it and condemns its frame (R276, R279). -/
def State.lineLost (s : State) (ln : Nat) : State :=
  (s.setMemPoison ln (BitVec.allOnes 32)).condemn (s.lineHome ln / 512) 2
/-- An uncorrectable error of a line in a cache stack: a clean line is dropped, to be fetched again, and logged as corrected; a dirty one
is poisoned (R276). -/
def State.stackLost (s : State) (d ln : Nat) : State :=
  match (s.die d).stack.get? ln with
  | none => s
  | some x =>
    if x.dirty then s.updDie d (fun e => { e with stack := e.stack.put ln { x with poison := BitVec.allOnes 32 } })
    else
      let s1 := s.stackDrop d ln
      { s1 with corrected := s1.corrected + 1 }
/-- SCRUB_PASS: the lines found uncorrectable, of memory or of a die's cache stack; it rolls nothing back (R276, R278). -/
def State.scrub (s : State) (bad : List Nat) (die : Option Nat) : State :=
  match die with
  | none => bad.foldl (fun s ln => if paOk (ln * 128) && paTier (ln * 128) ≤ 1 then s.lineLost ln else s) s
  | some d => bad.foldl (fun s ln => s.stackLost d ln) s
/-- SCRUB_PASS (R278). -/
def execScrubPass (bad : List Nat) (die : Option Nat) (s : State) : Host.Outcome State Fault Refusal := .next (s.scrub bad die)

/-- A parked floe waits for a line of the firn (R206). -/
def Parked.waitsFor (p : Parked) (fl : Floe) (ln : Nat) : Bool :=
  if p.op.lanes.isEmpty then p.firn
  else ((fl.ops.find? (fun x => x.seq = p.op.seq)).getD p.op).lanes.any (fun a => match a.place with
    | .firn pa _ _ => pa / 128 = ln
    | _ => false)
/-- FIRN_DATA_ARRIVAL: a line of the firn is reachable again; the floes whose lanes have translated to it go on (R199, R206). -/
def State.firnArrives (s : State) (ln : Nat) : State :=
  let s1 := { s with firnHeld := s.firnHeld.filter (fun x => x ≠ ln) }
  (s1.floes.keys.filter (fun f => (s1.floe f).parked.any (fun p => p.waitsFor (s1.floe f) ln))).foldl
    (fun s f => s.resumeParked f false) s1
/-- FIRN_DATA_ARRIVAL (R206). -/
def execFirnDataArrival (line : Nat) (s : State) : Host.Outcome State Fault Refusal := .next (s.firnArrives line)

/-! ## The drift exchange (R251 to R254) -/

/-- Who sends to whom in a step, by participant number (R252). -/
def driftPairs (sched m k : Nat) : List (Nat × Nat) :=
  if sched = 2 then ((upTo m).map (fun i => ((upTo m).filter (fun j => j ≠ i)).map (fun j => (i, j)))).flatten
  else if sched = 1 && m ≠ 3 then (upTo m).map (fun i => (i, Nat.xor i (2 ^ (k % Nat.log2 m))))
  else (upTo m).map (fun i => (i, (i + 1) % m))
/-- A line that a die sends reaches another's replica: joined, allocated first where absent, or no room (R254). -/
def State.driftJoin (s : State) (l dst ln : Nat) (r : Replica) : Option State :=
  if !(s.replicaOk l dst ln r.ltype) then none
  else
    let s1 := s.replicaFill l dst ln r.ltype
    some (s1.updLaunch l (fun x =>
      { x with replicas := x.replicas.put (replicaKey dst ln) ((s1.replica l dst ln).merge r) }))
/-- DRIFT_EXCHANGE_STEP, while a block of the launch is resident or saved: every line as it stood at the step's start joins its
receiver's (R252); a poisoned operand is consumed (R277); a full shelf ends the launch with status 3 and cause 0x02 (R254). -/
def State.driftStep (s : State) (l : Nat) : State :=
  let x := s.launch l
  let m := x.dies.length
  if x.phase ≠ .running || m ≤ 1 || ((s.blocksOfLaunch l).isEmpty && !(s.savedLaunch l)) then s
  else
    let s0 := s.updLaunch l (fun x => { x with driftStep := x.driftStep + 1 })
    (driftPairs (fieldN x.drift 0 2) m x.driftStep).foldl (fun s p =>
      let src := x.dies.getD p.1 0
      let dst := x.dies.getD p.2 0
      (x.replicas.filter (fun e => e.1 / 2 ^ 46 = src)).foldl (fun s e =>
        match s.driftJoin l dst (e.1 % 2 ^ 46) e.2 with
        | some s1 => if (s1.replica l dst (e.1 % 2 ^ 46)).poison ≠ 0 then s1.consume l none else s1
        | none => s.haltLaunch l 3 0x02
            (((s.blocksOfLaunch l).filter (fun b => dieOfCore (coreOf b) = dst)).map (fun b => (s.block b).id)).min?) s) s0
/-- DRIFT_EXCHANGE_STEP (R252). -/
def execDriftExchangeStep (l : Nat) (s : State) : Host.Outcome State Fault Refusal := .next (s.driftStep l)

end Sys2Proof.Machine
end

