-- ==== Sys2Proof/Machine/Memory.lean ====
section
/-!
DEFINITION. Loads and stores (R390 to R392, R440 to R442).
-/
namespace Sys2Proof.Machine

/-- The lanes of an M-layout access (R83): the elected lane of a uniform one, else the active lanes. -/
def accLanes (z : BitVec 3) (u : BitVec 1) (i b : BitVec 6) (data : State → Nat → BitVec 128) (s : State) : List LaneAcc :=
  if u = 1 then [⟨s.elected, s.S b.toNat, .absent, data s s.elected, 0, false, false⟩]
  else s.lanes.map (fun l => ⟨l, (s.addrM z i b l).1, .absent, data s l, 0, (s.addrM z i b l).2, false⟩)

/-- The vector group of rd (R391): none where udata is 1. -/
def dataGroup (z : BitVec 3) (u : BitVec 1) (d : BitVec 6) : List VGroup :=
  if u = 1 then [] else [VGroup.ofCount d (sizeRegs z)]

/-- A load (R391, R392): `acq` is the scope of an acquire. -/
def loadBody (noAlloc : Bool) (acq : Option Nat) (z : BitVec 3) (u : BitVec 1) (i b d : BitVec 6) (s : State) : Res :=
  memIssue ⟨.loads, .load, sizeBytes z, acq.isNone, if u = 1 then .uni d.toNat else .vec (s.absReg d.toNat), acq.isSome,
      acq.getD 0, noAlloc, false⟩
    (viGroup i) (dataGroup z u d) (u = 1 && uniBad z d) (s.namesPort (dataGroup z u d))
    (accLanes z u i b (fun _ _ => 0)) s

/-- A store (R441, R442): `rel` is the scope of a release. -/
def storeBody (noAlloc : Bool) (rel : Option Nat) (z : BitVec 3) (u : BitVec 1) (i b d : BitVec 6) (s : State) : Res :=
  memIssue ⟨.stores, .store, sizeBytes z, rel.isNone, .none, false, rel.getD 0, noAlloc, rel.isSome⟩
    (viGroup i ++ dataGroup z u d) [] (u = 1 && uniBad z d) false
    (accLanes z u i b (fun s l => if u = 1 then s.dataU z d else s.dataM z d l)) s

/-- `LD` (R391). -/
def execLd (z : BitVec 3) (u : BitVec 1) (i b d : BitVec 6) (s : State) : Host.Outcome State Fault Refusal :=
  floeOp (.ld z u i b d) s (loadBody false none z u i b d)
/-- `LD.NA` (R392). -/
def execLdNa (z : BitVec 3) (u : BitVec 1) (i b d : BitVec 6) (s : State) : Host.Outcome State Fault Refusal :=
  floeOp (.ldNa z u i b d) s (loadBody true none z u i b d)
/-- `LD.ACQ.BLK` (R392). -/
def execLdAcqBlk (z : BitVec 3) (u : BitVec 1) (i b d : BitVec 6) (s : State) : Host.Outcome State Fault Refusal :=
  floeOp (.ldAcqBlk z u i b d) s (loadBody false (some 0) z u i b d)
/-- `LD.ACQ.DIE` (R392). -/
def execLdAcqDie (z : BitVec 3) (u : BitVec 1) (i b d : BitVec 6) (s : State) : Host.Outcome State Fault Refusal :=
  floeOp (.ldAcqDie z u i b d) s (loadBody false (some 2) z u i b d)
/-- `LD.ACQ.PKG` (R392). -/
def execLdAcqPkg (z : BitVec 3) (u : BitVec 1) (i b d : BitVec 6) (s : State) : Host.Outcome State Fault Refusal :=
  floeOp (.ldAcqPkg z u i b d) s (loadBody false (some 3) z u i b d)
/-- `LD.ACQ.SYS` (R392). -/
def execLdAcqSys (z : BitVec 3) (u : BitVec 1) (i b d : BitVec 6) (s : State) : Host.Outcome State Fault Refusal :=
  floeOp (.ldAcqSys z u i b d) s (loadBody false (some 4) z u i b d)
/-- `ST` (R441). -/
def execSt (z : BitVec 3) (u : BitVec 1) (i b d : BitVec 6) (s : State) : Host.Outcome State Fault Refusal :=
  floeOp (.st z u i b d) s (storeBody false none z u i b d)
/-- `ST.NA` (R441). -/
def execStNa (z : BitVec 3) (u : BitVec 1) (i b d : BitVec 6) (s : State) : Host.Outcome State Fault Refusal :=
  floeOp (.stNa z u i b d) s (storeBody true none z u i b d)
/-- `ST.REL.BLK` (R442). -/
def execStRelBlk (z : BitVec 3) (u : BitVec 1) (i b d : BitVec 6) (s : State) : Host.Outcome State Fault Refusal :=
  floeOp (.stRelBlk z u i b d) s (storeBody false (some 0) z u i b d)
/-- `ST.REL.DIE` (R442). -/
def execStRelDie (z : BitVec 3) (u : BitVec 1) (i b d : BitVec 6) (s : State) : Host.Outcome State Fault Refusal :=
  floeOp (.stRelDie z u i b d) s (storeBody false (some 2) z u i b d)
/-- `ST.REL.PKG` (R442). -/
def execStRelPkg (z : BitVec 3) (u : BitVec 1) (i b d : BitVec 6) (s : State) : Host.Outcome State Fault Refusal :=
  floeOp (.stRelPkg z u i b d) s (storeBody false (some 3) z u i b d)
/-- `ST.REL.SYS` (R442). -/
def execStRelSys (z : BitVec 3) (u : BitVec 1) (i b d : BitVec 6) (s : State) : Host.Outcome State Fault Refusal :=
  floeOp (.stRelSys z u i b d) s (storeBody false (some 4) z u i b d)
/-- `STN` (R441): bits [3:0] of rd into the nibble that R83 selects. -/
def execStn (i b d : BitVec 6) (s : State) : Host.Outcome State Fault Refusal :=
  floeOp (.stn i b d) s (memIssue ⟨.stores, .nibble, 0, true, .none, false, 0, false, false⟩
    (viGroup i ++ [VGroup.one d]) [] false false
    (accLanes 5 0 i b (fun s l => BitVec.ofNat 128 (fieldN (s.V d.toNat l) 0 4))))

end Sys2Proof.Machine
end

