-- ==== Sys2Proof/Machine/Local.lean ====
section
/-!
DEFINITION. Scratchpad (R64, R77, R78, R393 to R395, R443, R444, R446, R447).
-/
namespace Sys2Proof.Machine

/-- `n` bytes of a block's scratchpad. -/
def Block.spadRead (b : Block) (off n : Nat) : List Byte := (upTo n).map (fun i => b.spad.getD (off + i) 0)
/-- Write bytes of a block's scratchpad; words written whole lose their poison (R277). -/
def Block.spadWrite (b : Block) (off : Nat) (bs : List Byte) : Block :=
  { b with spad := (bs.zip (upTo bs.length)).foldl (fun t e => t.set 0 (off + e.2) e.1) b.spad,
           badSpad := b.badSpad.filter (fun w => !(off ≤ w * 4 && w * 4 + 4 ≤ off + bs.length)) }
/-- A poisoned word among `n` bytes. -/
def Block.spadBad (b : Block) (off n : Nat) : Bool := b.badSpad.any (fun w => w * 4 < off + n && off < w * 4 + 4)
/-- Granule g is full (R77). -/
def Block.isFull (b : Block) (g : Nat) : Bool := b.full.getD g false
def Block.setFull (b : Block) (g : Nat) (v : Bool) : Block := { b with full := b.full.set false g v }

/-- The lanes of a scratchpad access with their offsets (R83). -/
def spadLanes (z : BitVec 3) (u : BitVec 1) (i b : BitVec 6) (s : State) : List (Nat × W64) :=
  (accLanes z u i b (fun _ _ => 0) s).map (fun a => (a.lane, a.va))
/-- The lowest lane that fails the checks of R64, R77, R395. -/
def State.spadCause (s : State) (n : Nat) (ls : List (Nat × W64)) : Option (Nat × W64) :=
  ls.findSome? (fun x =>
    if x.2.toNat % n ≠ 0 then some (0x03, x.2)
    else if s.blk.spadKiB * 1024 ≤ x.2.toNat then some (0x02, x.2) else none)
/-- Bind a scratchpad value in a lane (R391). -/
def State.spadBind (s : State) (z : BitVec 3) (u : BitVec 1) (d : BitVec 6) (lane v : Nat) : State :=
  if u = 1 then
    let s1 := s.setS d.toNat (BitVec.ofNat 64 v)
    if z = 4 then s1.setS (d.toNat + 1) (BitVec.ofNat 64 (v / 2 ^ 64)) else s1
  else s.setVs ((upTo (sizeRegs z)).map (fun k => ⟨d.toNat + k, lane, BitVec.ofNat 32 (v / 2 ^ (32 * k))⟩))
/-- Every lane reads its bytes; each is bound after all are read. -/
def State.spadLoad (s : State) (z : BitVec 3) (u : BitVec 1) (d : BitVec 6) (ls : List (Nat × W64)) : State :=
  (ls.map (fun x => (x.1, ofBytes (s.blk.spadRead x.2.toNat (sizeBytes z))))).foldl
    (fun s v => s.spadBind z u d v.1 v.2) s
/-- The words of which narrow writes cover every byte between them (R277). -/
def narrowWords (ws : List (Nat × List Byte)) : List Nat :=
  wholeWords (((ws.filter (fun w => w.2.length < 4)).map (fun w => (upTo w.2.length).map (fun i => w.1 + i))).flatten)
/-- Words of a block's scratchpad lose their poison (R277). -/
def Block.spadClear (b : Block) (ws : List Nat) : Block := { b with badSpad := b.badSpad.filter (fun w => !(w ∈ ws)) }
/-- Every lane writes its bytes, the highest lane last (R97); the words that the lanes cover between them lose their poison. -/
def State.spadStore (s : State) (ws : List (Nat × List Byte)) : State :=
  s.updBlk (fun b => (ws.foldl (fun b w => b.spadWrite w.1 w.2) b).spadClear (narrowWords ws))

/-- A scratchpad write waits for an acquire (R232, R396) and for a pending `FENCE.REL` (R375). -/
def State.scratchWaits (s : State) : Bool := s.fl.acquiring s.cur.frag || s.fl.relHolds
/-- What it waits in. -/
def State.scratchWait (s : State) : WaitFor := if s.fl.acquiring s.cur.frag then .order else .rel
/-- An access that an acquire or a release holds: unissued, or, where it waits on granules already, waiting on. -/
def State.orderOrGranules (s : State) (w : WaitFor) : WaitFor := if s.fg.wait = .granules then .granules else w

/-- `LDS` (R395). -/
def execLds (z : BitVec 3) (u : BitVec 1) (i b d : BitVec 6) (s : State) : Host.Outcome State Fault Refusal :=
  floeOp (.lds z u i b d) s (fun s =>
    match s.gate (viGroup i) (dataGroup z u d) (u = 1 && uniBad z d) false with
    | some r => r
    | none =>
      if s.fl.acquiring s.cur.frag then .wait .order s else
      let ls := spadLanes z u i b s
      match s.spadCause (sizeBytes z) ls with
      | some (c, a) => .fault c a false
      | none =>
        if ls.any (fun x => s.blk.spadBad x.2.toNat (sizeBytes z)) then .poison
        else .go ((s.popPorts (viGroup i)).spadLoad z u d ls))
/-- The bytes that each lane of a scratchpad store writes, with their offset. -/
def State.spadWrites (s : State) (z : BitVec 3) (u : BitVec 1) (d : BitVec 6) (ls : List (Nat × W64)) :
    List (Nat × List Byte) :=
  ls.map (fun x => (x.2.toNat, toBytes (sizeBytes z) (if u = 1 then s.dataU z d else s.dataM z d x.1).toNat))
/-- `STS` (R446, R447). -/
def execSts (z : BitVec 3) (u : BitVec 1) (i b d : BitVec 6) (s : State) : Host.Outcome State Fault Refusal :=
  floeOp (.sts z u i b d) s (fun s =>
    match s.gate (viGroup i ++ dataGroup z u d) [] (u = 1 && uniBad z d) false with
    | some r => r
    | none =>
      if s.scratchWaits then .wait s.scratchWait s else
      let ls := spadLanes z u i b s
      match s.spadCause (sizeBytes z) ls with
      | some (c, a) => .fault c a false
      | none => .go ((s.popPorts (viGroup i ++ dataGroup z u d)).spadStore (s.spadWrites z u d ls)))

/-! ## Full and empty granules (R77, R78) -/

/-- The granules that lanes address. -/
def granulesOf (ls : List (Nat × W64)) : List Nat := dedupe (ls.map (fun x => x.2.toNat / 16))
/-- The issuing fragment's wait on granules, entered once (R78). -/
def State.enterWait (s : State) (gs : List Nat) (wantEmpty : Bool) : State :=
  s.updBlk (fun b =>
    if b.waiters.any (fun w => w.floe = s.cur.floe && w.frag = s.cur.frag) then b
    else { b with waiters := b.waiters ++ [⟨s.cur.floe, s.cur.frag, gs, wantEmpty⟩] })
/-- The issuing fragment leaves the queue of waits. -/
def State.leaveWait (s : State) : State :=
  s.updBlk (fun b => { b with waiters := b.waiters.filter (fun w => !(w.floe = s.cur.floe && w.frag = s.cur.frag)) })
/-- An older wait of a kind stands on one of the granules. -/
def State.behind (s : State) (gs : List Nat) (wantEmpty : Bool) : Bool :=
  (s.blk.waiters.takeWhile (fun w => !(w.floe = s.cur.floe && w.frag = s.cur.frag))).any (fun w =>
    w.wantEmpty = wantEmpty && w.granules.any (fun g => g ∈ gs))

/-- `LDFE` (R393, R394): `clr` empties the granules read. -/
def ldfeBody (clr : Bool) (z : BitVec 3) (i b d : BitVec 6) (s : State) : Res :=
  match s.gate (viGroup i) (dataGroup z 0 d) false (s.namesPort (dataGroup z 0 d)) with
  | some r => r
  | none =>
    if s.fl.acquiring s.cur.frag then .wait (s.orderOrGranules .order) s else
    let ls := spadLanes z 0 i b s
    match s.spadCause (sizeBytes z) ls with
    | some (c, a) => .fault c a false
    | none =>
      let gs := granulesOf ls
      if !(gs.all (fun g => s.blk.isFull g)) || (clr && s.behind gs false) then
        .wait .granules (if clr then s.enterWait gs false else s)
      else if ls.any (fun x => s.blk.spadBad x.2.toNat (sizeBytes z)) then .poison
      else
        let s1 := (((s.popPorts (viGroup i)).spadLoad z 0 d ls).leaveWait).keepWrites s.cur.floe ((ls.map (fun x =>
          (upTo (sizeRegs z)).map (fun k => s.blk.regIdx (s.thread x.1) (s.absReg (d.toNat + k))))).flatten) [] []
        .go (if clr then s1.updBlk (fun b => gs.foldl (fun b g => b.setFull g false) b) else s1)
/-- `LDFE.KEEP` (R394). -/
def execLdfeKeep (z : BitVec 3) (i b d : BitVec 6) (s : State) : Host.Outcome State Fault Refusal :=
  floeOp (.ldfeKeep z i b d) s (ldfeBody false z i b d)
/-- `LDFE.CLR` (R394). -/
def execLdfeClr (z : BitVec 3) (i b d : BitVec 6) (s : State) : Host.Outcome State Fault Refusal :=
  floeOp (.ldfeClr z i b d) s (ldfeBody true z i b d)

/-- `STFE` (R443, R444): `we` waits for empty granules. The fill is a release at block scope: the floe's older operations are performed
first (R394). -/
def stfeBody (we : Bool) (z : BitVec 3) (i b d : BitVec 6) (s : State) : Res :=
  match s.gate (viGroup i ++ dataGroup z 0 d) [] false false with
  | some r => r
  | none =>
    if s.scratchWaits then .wait (s.orderOrGranules s.scratchWait) s else
    let ls := spadLanes z 0 i b s
    match s.spadCause (sizeBytes z) ls with
    | some (c, a) => .fault c a false
    | none =>
      let gs := granulesOf ls
      if we && (gs.any (fun g => s.blk.isFull g) || s.behind gs true) then .wait .granules (s.enterWait gs true)
      else
        let s := s.releaseOlder s.cur.floe
        if !s.fl.opsDone then .wait (if we then .granules else .order) (if we then s.enterWait gs true else s)
        else .go ((((s.popPorts (viGroup i ++ dataGroup z 0 d)).spadStore (s.spadWrites z 0 d ls)).leaveWait).updBlk (fun b =>
          gs.foldl (fun b g => b.setFull g true) b))
/-- `STFE` (R444). -/
def execStfe (z : BitVec 3) (i b d : BitVec 6) (s : State) : Host.Outcome State Fault Refusal :=
  floeOp (.stfe z i b d) s (stfeBody false z i b d)
/-- `STFE.WE` (R444). -/
def execStfeWe (z : BitVec 3) (i b d : BitVec 6) (s : State) : Host.Outcome State Fault Refusal :=
  floeOp (.stfeWe z i b d) s (stfeBody true z i b d)

end Sys2Proof.Machine
end

