-- ==== Sys2Proof/Machine/Queue.lean ====
section
/-!
DEFINITION. Queue registers and affine streams (R74 to R76, R185, R186, R417 to R419, R445, R446).
-/
namespace Sys2Proof.Machine

/-! ## QCFG (R74, R418) -/

/-- The registers that a queue holds: its port, and the backing of a loop-carried one. -/
def QueueCfg.regs (c : QueueCfg) : List Nat :=
  match c.mode with
  | .off => []
  | .loop => (upTo (c.depth + 1)).map (fun i => c.port + i)
  | .stream => [c.port]
/-- A configuration that passes N or overlaps another queue that is on (R74). -/
def State.qcfgBad (s : State) (q : Nat) (c : QueueCfg) : Bool :=
  c.regs.any (fun j => s.blk.nregs ≤ j) ||
  s.fl.queuesOn.any (fun p => p ≠ q && (s.fl.queue p).regs.any (fun j => j ∈ c.regs))
/-- A stream that has not ended feeds queue q of the issuing floe (R186). -/
def State.streamRuns (s : State) (q : Nat) : Bool :=
  match s.feeding q with
  | some st => !st.ended
  | none => false
/-- The streams that other unretired floes of the block still bind. -/
def State.boundElsewhere (s : State) (k : Nat) : Bool :=
  ((s.liveFloes (blockOf s.cur.floe)).filter (fun g => g ≠ s.cur.floe)).any (fun g =>
    (s.floe g).queuesOn.any (fun q => ((s.floe g).queue q).stream = some k))
/-- Register j of a thread is left with what backing register i of its queue q holds, where anything has been written there since the queue
was switched on (R74, R419). -/
def Block.leaveReg (b : Block) (q t j i : Nat) : Block :=
  match (b.queueAt t q).held i with
  | none => b
  | some x => let y := b.setReg t j x.1; { y with badRegs := if x.2 then b.regIdx t j :: y.badRegs else y.badRegs }
/-- The backing registers of a loop-carried queue of the issuing floe return to ordinary use with what they hold (R74, R418). -/
def State.leaveBacking (s : State) (q : Nat) : State :=
  let c := s.fl.queue q
  if c.mode = .loop then
    s.updBlk (fun b => (upTo s.fl.width).foldl (fun b l => (upTo c.depth).foldl (fun b i =>
      b.leaveReg q (s.fl.base + l) (c.port + 1 + i) i) b) b)
  else s
/-- A stream of a block that nobody binds any more goes: one that runs stops without its increment (R418), one that has delivered its last
entry or was discarded stays until its counter has gained its 1 (R364, R446). -/
def State.dropStream (s : State) (b k : Nat) : State :=
  s.updBlock b (fun x => match x.streams.get? k with
    | some y => if y.owes then x else { x with streams := x.streams.del k }
    | none => x)
/-- Discard the entries of queue q in every thread of the issuing floe, and stop its stream where no other floe of the split
shares it (R52, R418). -/
def State.clearQueue (s : State) (q : Nat) : State :=
  let fl := s.fl
  let s1 := (s.leaveBacking q).updBlk (fun b =>
    { b with qents := b.qents.filter (fun e => !(e.1 % 16 = q && fl.base ≤ e.1 / 16 && e.1 / 16 < fl.base + fl.width)) })
  match (fl.queue q).stream with
  | some k => if s.boundElsewhere k then s1 else s1.dropStream (blockOf s.cur.floe) k
  | none => s1
/-- The body of `QCFG` with a new configuration. -/
def qcfgBody (q : Nat) (c : QueueCfg) (s : State) : Res :=
  if s.qcfgBad q c || (c.mode = .stream && s.streamRuns q) then .trap 10
  else if s.fl.counter .loads ≠ 0 then .wait .drainCounters s
  else
    let n := s.blk.nextStrm
    let x : QueueCfg := { c with tag := if c.mode = .stream then n else 0 }
    .go (((s.clearQueue q).updFl (fun fl => { fl with queues := fl.queues.set QueueCfg.reset q x })).updBlk
      (fun b => { b with nextStrm := n + 1 }))

/-- `QCFG.LOOP` (R418). -/
def execQcfgLoop (i a : BitVec 6) (q : BitVec 4) (s : State) : Host.Outcome State Fault Refusal :=
  floeOp (.qcfgLoop i a q) s (fun s => qcfgBody q.toNat ⟨.loop, s.absReg a.toNat, i.toNat, none, 0⟩ s)
/-- `QCFG.STRM` (R418). -/
def execQcfgStrm (a : BitVec 6) (q : BitVec 4) (s : State) : Host.Outcome State Fault Refusal :=
  floeOp (.qcfgStrm a q) s (fun s => qcfgBody q.toNat ⟨.stream, s.absReg a.toNat, 0, none, 0⟩ s)
/-- `QCFG.OFF` (R418). -/
def execQcfgOff (q : BitVec 4) (s : State) : Host.Outcome State Fault Refusal :=
  floeOp (.qcfgOff q) s (qcfgBody q.toNat QueueCfg.reset)

/-! ## Reads that a core makes for a floe by address -/

/-- A read of a place that goes to its home, past every copy: tier 2 (R453); no copy of it is ever newer (R196). -/
def Place.homeRead : Place → Option (Nat × Nat)
  | .phys pa key _ => if paTier pa = 2 then some (pa, key) else none
  | _ => none
/-- A core reads `n` bytes for a floe (a descriptor, a record, a counter) as its loads read them, after the floe's older writes of those
bytes (R217, R220, R232): held translations, L1 copies and grants with their logical time; with `home`, tier 2 is read at the home (R453). -/
def State.coreLoad (s : State) (f va n : Nat) (home : Bool := false) : Got (List PByte) :=
  (chunksOf va n).foldl (fun (acc : Got (List PByte)) c =>
    match acc with
    | .cause e v => .cause e v
    | .ok bs s =>
      match s.checkLane (blockOf f) .load 1 false (BitVec.ofNat 64 c.1) with
      | .cause e => .cause e c.1
      | .ok p =>
        if s.firnHolds p then .cause 0x05 c.1
        else
          let s0 := s.holdXlat (floeCore f) (s.asidOf (blockOf f)) c.1
          match p, (if home then p.homeRead else none) with
          | _, some h => .ok (bs ++ s0.physBytes h.1 c.2 h.2) s0
          | .peer _ _, none =>
            match s0.peerBytes c.1 c.2 with
            | .ok ps s1 => .ok (bs ++ ps.take c.2) s1
            | .cause e v => .cause e v
          | _, none =>
            if s0.recordLost f p then .cause 0x02 c.1
            else
            let r := (s0.drainFor f p c.2 (s0.floe f).opSeq).readPlace (s0.reqNow (floeCore f)) f p c.2 true
            .ok (bs ++ (toBytes c.2 r.value).map (fun b => (b, r.poison))) r.s) (.ok [] s)
/-- A unit of a core reads `n` bytes for a floe as plain loads at block scope, under the translations that it holds (R220, R221, R239, R400):
L1 copies and grants with their logical time, without the stores of the floe that have not been performed (R178). -/
def State.scopedLoad (s : State) (f : Nat) (k : AccKind) (va n : Nat) (h : List Xlat) : Got (List PByte) :=
  (chunksOf va n).foldl (fun (acc : Got (List PByte)) c =>
    match acc with
    | .cause e v => .cause e v
    | .ok bs s =>
      match s.unitPlace (s.asidOf (blockOf f)) k c.1 h with
      | .cause e => .cause e c.1
      | .ok p =>
        if s.firnHolds p then .cause 0x05 c.1
        else match p with
          | .peer _ _ =>
            match s.peerBytes c.1 c.2 with
            | .ok ps s1 => .ok (bs ++ ps.take c.2) s1
            | .cause e v => .cause e v
          | _ =>
            if s.recordLost f p then .cause 0x02 c.1
            else
            let r := s.readPlace (s.reqNow (floeCore f)) f p c.2 true
            .ok (bs ++ (toBytes c.2 r.value).map (fun b => (b, r.poison))) r.s) (.ok [] s)
/-- A core's read for a floe waits: for an acquire (R232), or for a join of bytes it reads (R250). -/
def State.loadWaits (s : State) (f va n : Nat) : Bool :=
  (s.floe f).acquiring s.cur.frag || (chunksOf va n).any (fun c =>
    match s.checkLane (blockOf f) .load 1 false (BitVec.ofNat 64 c.1) with
    | .ok p => (s.floe f).joinAhead p c.2 (s.floe f).opSeq
    | .cause _ => false)

/-! ## STRM (R185, R186, R445) -/

def strmSize (x : BitVec 512) : Nat := 2 ^ fieldN x 293 2
def strmQueue (x : BitVec 512) : Nat := fieldN x 288 4
/-- The loop counts n0 to n3. -/
def strmCount (x : BitVec 512) (i : Nat) : Nat := fieldN x (224 + 16 * i) 16
/-- The byte strides st0 to st3. -/
def strmStride (x : BitVec 512) (i : Nat) : Int := fieldI x (96 + 32 * i) 32
def strmLane (x : BitVec 512) : Int := fieldI x 64 32
def strmBase (x : BitVec 512) : Nat := fieldN x 0 56
/-- A descriptor that meets R185. The queue field is 5 bits wide and holds 0 to 15. -/
def strmOk (x : BitVec 512) : Bool :=
  fieldN x 295 217 = 0 && fieldN x 293 2 ≤ 2 && fieldN x 288 5 ≤ 15 && fieldN x 56 8 = 0 &&
  (upTo 4).all (fun i => strmCount x i ≠ 0)
/-- Entries in all. -/
def strmTotal (x : BitVec 512) : Nat := strmCount x 0 * strmCount x 1 * strmCount x 2 * strmCount x 3
/-- The address of entry k in lane l. -/
def strmAddr (x : BitVec 512) (off : W64) (k l : Nat) : W64 :=
  let i0 := k % strmCount x 0
  let i1 := k / strmCount x 0 % strmCount x 1
  let i2 := k / (strmCount x 0 * strmCount x 1) % strmCount x 2
  let i3 := k / (strmCount x 0 * strmCount x 1 * strmCount x 2)
  BitVec.ofInt 64 (strmBase x + off.toNat + l * strmLane x + i0 * strmStride x 0 + i1 * strmStride x 1 +
    i2 * strmStride x 2 + i3 * strmStride x 3)
/-- The streams that run on a core (R186). -/
def State.runningStreams (s : State) (c : Nat) : Nat :=
  (s.blocksOfCore c).foldl (fun a b => a + ((s.block b).streams.filter (fun e => !e.2.ended)).length) 0

/-- `STRM` (R445, in the order of R457): a bad request or descriptor takes cause 0x0B with reason 13 (log entry 23). -/
def execStrm (g : BitVec 4) (t c q : BitVec 6) (s : State) : Host.Outcome State Fault Refusal :=
  floeOp (.strm g t c q) s (fun s =>
    let req := s.S q.toNat
    let table := descAstream s.lau.desc
    let va := table + fieldN req 0 8 * 64
    if fieldN req 8 56 ≠ 0 || table = 0 then .trap 13
    else if t ≠ 63 && (s.S t.toNat).toNat % 8 ≠ 0 then .fault 0x03 (s.S t.toNat) false
    else if s.loadWaits s.cur.floe va 64 then .wait .order s
    else match s.coreLoad s.cur.floe va 64 with
      | .cause 0x01 a => .as (s.parkRepeat s.cur.floe s.cur.frag [(s.elected, a)] [] 0)
      | .cause 0x05 a => .as (s.parkRepeat s.cur.floe s.cur.frag [] [(s.elected, a)] 0)
      | .cause e a => .fault e (BitVec.ofNat 64 a) true
      | .ok bs s1 =>
        let x : BitVec 512 := BitVec.ofNat 512 (pbNat bs)
        if s.heldBack (floeCore s.cur.floe) s1 then .wait .order s
        else if bs.any (fun b => b.2) then .poison
        else if !(strmOk x) then .trap 13
        else if (s.fl.queue (strmQueue x)).mode ≠ .stream || s.streamRuns (strmQueue x) then .trap 10
        else if 64 ≤ s.runningStreams (floeCore s.cur.floe) then .wait .room s
        else
          let k := s1.blk.nextStrm
          let st : Stream := ⟨strmQueue x, x, s.S c.toNat, if t = 63 then none else some (s.S t.toNat), g.toNat,
            if g.toNat < 8 then .held else .free, s.fl.base, s.fl.width, 0, false, none, none, []⟩
          -- the stream that has ended stays for the floes of the split that still bind it (R52)
          let old := ((s.fl.queue (strmQueue x)).stream).getD k
          let s2 := (if s.boundElsewhere old then s1 else s1.dropStream (blockOf s.cur.floe) old).updBlk (fun b =>
            { b with streams := b.streams.put k st, nextStrm := k + 1 })
          let cfg : QueueCfg := { s.fl.queue (strmQueue x) with stream := some k, tag := k }
          .go (s2.updFl (fun fl => { fl with queues := fl.queues.set QueueCfg.reset (strmQueue x) cfg })))

/-! ## Delivery (R186, R446) -/

/-- The unretired floes of a block that bind a stream. -/
def State.streamFloes (s : State) (b k : Nat) : List Nat :=
  (s.liveFloes b).filter (fun f => (s.floe f).queuesOn.any (fun q => ((s.floe f).queue q).stream = some k))
/-- Change a stream of a block. -/
def State.updStream (s : State) (b k : Nat) (g : Stream → Stream) : State :=
  s.updBlock b (fun x => { x with streams := x.streams.map (fun e => if e.1 = k then (k, g e.2) else e) })
/-- The FLOEID that a stream's fault record names (R202): that of the first floe that binds it. -/
def State.streamFloeId (s : State) (b k : Nat) (st : Stream) : Nat :=
  ((s.streamFloes b k).head?.map (fun f => (s.floe f).base / 16)).getD (st.base / 16)
/-- A stream has delivered its last entry, or was discarded (R446): the translations go, the increment of its counter is owed. -/
def State.endStream (s : State) (b k : Nat) : State := s.updStream b k (fun x => { x with ended := true, held := [] })
/-- The counter of a stream owes nothing more; a stream that no floe binds any more goes. -/
def State.streamPaid (s : State) (b k : Nat) : State :=
  let s1 := s.updStream b k (fun x => { x with ctr := none })
  if (s1.streamFloes b k).isEmpty then s1.updBlock b (fun x => { x with streams := x.streams.del k }) else s1
/-- The counter of an ended stream gains 1 (R186, R446). Cause 0x01 pauses the engine with a record, cause 0x05 holds it; any other cause is
reported to a floe that binds the stream, or to the block (R179). -/
def State.payStream (s : State) (b k : Nat) (st : Stream) : State :=
  match st.ctr with
  | none => s
  | some a =>
    match s.counterAdd (s.block b).launch (some (dieOfCore (coreOf b))) (s.asidOf b) a.toNat with
    | .ok _ s1 => s1.streamPaid b k
    | .cause 0x0D _ => s.consume (s.block b).launch (some (s.block b).id)
    | .cause 0x01 va => (s.updStream b k (fun x => { x with paused := some va })).engineRecord b (s.streamFloeId b k st) 2 2 va
    | .cause c va =>
      let r := Report.plain c (BitVec.ofNat 64 va)
      match (s.streamFloes b k).head? with
      | some f => (s.streamPaid b k).report f r
      | none => (s.streamPaid b k).reportBlock b r
/-- The lanes' values of the stream's next entry, read for a floe that binds it, or the first cause met. -/
def State.streamRead (s : State) (f : Nat) (st : Stream) (h : List Xlat) : Got (List (Nat × W32)) :=
  let n := strmSize st.desc
  (upTo st.width).foldl (fun (acc : Got (List (Nat × W32))) l =>
    match acc with
    | .cause c a => .cause c a
    | .ok vs s =>
      let a := (strmAddr st.desc st.offset st.next l).toNat
      if a % n ≠ 0 then .cause 0x03 a
      else match s.scopedLoad f .load a n h with
        | .cause c a => .cause c a
        | .ok bs s1 =>
          if bs.any (fun x => x.2) then .cause 0x0D a
          else .ok (vs ++ [(st.base + l, BitVec.ofNat 32 (pbNat bs))]) s1) (.ok [] s)
/-- The threads that pop a stream: the live lanes of the unretired floes that bind it (R52). -/
def State.streamThreads (s : State) (b k : Nat) : List Nat :=
  ((s.streamFloes b k).map (fun f => (Mask.lanes (s.floe f).live (s.floe f).width).map (fun l => (s.floe f).base + l))).flatten
/-- The threads that a stream feeds have room for another entry (R186). -/
def State.streamRoom (s : State) (b k : Nat) (st : Stream) : Bool :=
  let ts := s.streamThreads b k
  !(ts.isEmpty || ts.any (fun t => 16 ≤ ((s.block b).queueAt t st.queue).ents.length))
/-- The 64 KiB frames that the next entry lies in (R200). -/
def Stream.frames (st : Stream) : List Nat :=
  dedupe ((upTo st.width).map (fun l => (strmAddr st.desc st.offset st.next l).toNat / 2 ^ 16))
/-- The next entry begins a frame that the engine does not stand in: it stands at a boundary (R200). -/
def Stream.atFrame (st : Stream) : Bool := !(st.frames.all (holdsFrame st.held))
/-- The first address that the stream names in the register aperture: of its counter, or of an entry (R69, log entry 57). -/
def Stream.aperture (st : Stream) : Option Nat :=
  (st.ctr.bind (fun a => if inAperture a.toNat then some a.toNat else none)).or
    ((upTo (strmTotal st.desc)).findSome? (fun k => (upTo st.width).findSome? (fun l =>
      let a := (strmAddr st.desc st.offset k l).toNat
      if inAperture a then some a else none)))
/-- A stream stops at a cause, which the pop takes that would have received the entry (R186). -/
def State.failStream (s : State) (b k c a : Nat) : State :=
  s.updStream b k (fun x => { x with ended := true, failed := some (Report.plain c (BitVec.ofNat 64 a)), ctr := none, held := [] })
/-- The engine delivers the next entry, read for floe f, to the threads that pop it. -/
def State.deliverNext (s : State) (b k f : Nat) (st : Stream) (ts : List Nat) : State :=
  let h := s.holdFrames (s.asidOf b) st.held st.frames
  match s.streamRead f st h with
  | .cause 0x05 _ => s.updStream b k (fun x => { x with held := h })
  | .cause 0x01 a => (s.updStream b k (fun x => { x with paused := some a, held := [] })).engineRecord b (s.streamFloeId b k st) 4 2 a
  | .cause 0x0D _ => s.consume (s.block b).launch (some (s.block b).id)
  | .cause c a => s.failStream b k c a
  | .ok vs s1 =>
    if s.heldBack (coreOf b) s1 then s
    else
      let s2 := s1.updBlock b (fun x => (vs.filter (fun v => v.1 ∈ ts)).foldl (fun x v => x.pushQ v.1 st.queue 0 v.2) x)
      let s3 := s2.updStream b k (fun x => { x with next := x.next + 1, held := h })
      if strmTotal st.desc ≤ st.next + 1 then (s3.endStream b k).payStream b k st else s3
/-- STREAM_ENTRY_DELIVERY: the engine delivers one entry, where every thread that pops it has room for a 16th (R52, R186); at a frame
boundary it stands while an invalidation is pending (R200). An ended stream pays its counter. -/
def State.deliverEntry (s : State) (b k : Nat) : State :=
  match (s.block b).streams.get? k with
  | none => s
  | some st =>
    if st.paused.isSome then s
    else if st.ended then s.payStream b k st
    else match st.guardSt with
      | .held => s
      | .discarded => (s.endStream b k).payStream b k st
      | .free =>
        match (s.streamFloes b k).head? with
        | none => s
        | some f =>
          if !(s.streamRoom b k st) then s
          else if st.atFrame && s.invs.any (fun i => i.asid = s.asidOf b) then s.updStream b k (fun x => { x with held := [] })
          else if st.next = 0 && st.aperture.isSome then s.failStream b k 0x02 (st.aperture.getD 0)
          else s.deliverNext b k f st (s.streamThreads b k)
/-- STREAM_ENTRY_DELIVERY (R186). -/
def execStreamEntryDelivery (b stream : Nat) (s : State) : Host.Outcome State Fault Refusal := .next (s.deliverEntry b stream)

end Sys2Proof.Machine
end

