-- ==== Sys2Proof/Machine/Copy.lean ====
section
/-!
DEFINITION. The copy, gather, scatter, MX-copy and code-fetch engines as plans: what each unit of a command moves (R177 to
R188, R355 to R358, R379 to R381, R436, R437, R457).
-/
namespace Sys2Proof.Machine

/-! ## Locations -/

/-- A space an engine reads or writes: virtual memory, or the issuing block's scratchpad (R180). -/
inductive Space where
  | virt | spad
  deriving DecidableEq, Repr

/-- The cause of a scratchpad access of `n` bytes past the block's S KiB (R64, R357). -/
def State.spadBound (s : State) (b a n : Nat) : Option (Nat × Nat) :=
  if (s.block b).spadKiB * 1024 < a + n then some (0x02, a) else none
/-- An engine of a block reads `n` bytes; poison is carried, not consumed (R277). -/
def State.engRead (s : State) (b : Nat) (sp : Space) (a n : Nat) (h : List Xlat := []) : Got (List PByte) :=
  match sp with
  | .virt => s.vaLoad (s.block b).launch (dieOfCore (coreOf b)) (s.asidOf b) .load a n h
  | .spad =>
    match s.spadBound b a n with
    | some e => .cause e.1 e.2
    | none => .ok (((s.block b).spadRead a n).zip ((upTo n).map (fun i => (s.block b).spadBad (a + i) 1))) s
/-- Marks the cause of a destination, for the access field of a fault record (R202). -/
def writing : Nat := 0x100
/-- An engine of a block writes bytes, in scratchpad or as a unit of its die (R456). -/
def State.engWrite (s : State) (b : Nat) (sp : Space) (a : Nat) (bs : List PByte) (h : List Xlat := [])
    (whole : Nat → Bool := fun _ => false) : Got Unit :=
  match sp with
  | .virt =>
    match s.vaStore (s.block b).launch (some (dieOfCore (coreOf b))) (s.asidOf b) a bs h whole with
    | .cause c v => .cause (c + writing) v
    | r => r
  | .spad =>
    match s.spadBound b a bs.length with
    | some e => .cause e.1 e.2
    | none =>
      let bad := dedupe (((bs.zip (upTo bs.length)).filter (fun e => e.1.2)).map (fun e => (a + e.2) / 4))
      .ok () (s.updBlock b (fun x =>
        let y := x.spadWrite a (bs.map (fun e => e.1))
        { y with badSpad := y.badSpad ++ bad.filter (fun w => !(w ∈ y.badSpad)) }))
/-- The first cause a write of `n` bytes would meet. -/
def State.engWriteCause (s : State) (b : Nat) (sp : Space) (a n : Nat) (h : List Xlat := []) : Option (Nat × Nat) :=
  match sp with
  | .virt => (s.storeCause (s.asidOf b) a n h).map (fun e => (e.1 + writing, e.2))
  | .spad => s.spadBound b a n

/-- Continue a unit's access. -/
def Got.bind {α β : Type} (x : Got α) (k : α → State → Got β) : Got β :=
  match x with
  | .ok a s => k a s
  | .cause c v => .cause c v
/-- A check that ends with a cause. -/
def Got.check (c : Option (Nat × Nat)) (k : Got Unit) : Got Unit :=
  match c with
  | some e => .cause e.1 e.2
  | none => k
/-- An address not aligned to `n` (cause 0x03). -/
def misaligned (a n : Nat) : Option (Nat × Nat) := if a % n ≠ 0 then some (0x03, a) else none

/-! ## Plans -/

/-- What a unit of a command moves with: the translations of the frames that the engine stands in (R200), and the lines, by VA, that the
command's writes cover whole (R277). -/
structure EngView where
  held  : List Xlat
  whole : Nat → Bool

/-- A command ready to move data: its units in order, where each writes its elements (`out`: addresses and bytes), the scratchpad bytes
that each writes, and the ranges of virtual memory that each touches (address and bytes). -/
structure EngPlan where
  total  : Nat
  unit   : EngView → Nat → State → Got Unit
  out    : State → Nat → List (Nat × Nat)
  dst    : State → Nat → List (Nat × Nat)
  virt   : State → Nat → List (Nat × Nat)

/-- The 64 KiB frames that ranges touch; no unit's range is longer than a frame. -/
def framesIn (rs : List (Nat × Nat)) : List Nat := dedupe ((rs.map (fun r => [r.1 / 2 ^ 16, (r.1 + r.2 - 1) / 2 ^ 16])).flatten)
/-- The frames that unit k touches (R200). -/
def EngPlan.frames (p : EngPlan) (s : State) (k : Nat) : List Nat := framesIn (p.virt s k)
/-- Unit k stands in frames whose translations the engine holds already: the command is within a frame (R200). -/
def EngPlan.inFrame (p : EngPlan) (s : State) (h : List Xlat) (k : Nat) : Bool :=
  k < p.total && (0 < k || !h.isEmpty) && (p.frames s k).all (holdsFrame h)
/-- No aligned 16 bytes of the destination are left written in part before unit k, so that others may look (R229). -/
def EngPlan.whole (p : EngPlan) (s : State) (k : Nat) : Bool :=
  p.total ≤ k || ((p.out s (k - 1)).zip (p.out s k)).all (fun r => r.2.1 % 16 = 0 || r.2.1 ≠ r.1.1 + r.1.2)
/-- The first byte of ranges that lies in the register aperture. -/
def apertureByte (rs : List (Nat × Nat)) : Option Nat :=
  rs.findSome? (fun r =>
    if inAperture r.1 then some r.1 else if r.1 < apertureBase && apertureBase < r.1 + r.2 then some apertureBase else none)
/-- The first address of the command that lies in the register aperture: the command then moves nothing (R69). -/
def EngPlan.apertureHit (p : EngPlan) (s : State) : Option Nat := (upTo p.total).findSome? (fun k => apertureByte (p.virt s k))
/-- The command's units write every byte of a line of virtual memory (R277). -/
def EngPlan.covers (p : EngPlan) (s : State) (ln : Nat) : Bool :=
  (upTo 128).all (fun i => (upTo p.total).any (fun k =>
    (p.out s k).any (fun r => r.1 ≤ ln * 128 + i && ln * 128 + i < r.1 + r.2)))

/-- Granules a range touches. -/
def granulesIn (r : Nat × Nat) : List Nat :=
  if r.2 = 0 then [] else (upTo ((r.1 + r.2 - 1) / 16 - r.1 / 16 + 1)).map (fun i => r.1 / 16 + i)
/-- Set full each granule whose last byte unit k has written (R77). A command that a cause stops part way leaves the granules that it has
written only in part as they were (log entry 53). -/
def EngPlan.fill (p : EngPlan) (b k : Nat) (s : State) : State :=
  let later (g : Nat) : Bool := (upTo (p.total - (k + 1))).any (fun j =>
    (p.dst s (k + 1 + j)).any (fun r => r.2 ≠ 0 && r.1 / 16 ≤ g && g ≤ (r.1 + r.2 - 1) / 16))
  let gs := (((p.dst s k).map granulesIn).flatten).filter (fun g => !(later g))
  if gs.isEmpty then s else s.updBlock b (fun x => gs.foldl (fun x g => x.setFull g true) x)

/-- Where a run of units ends: the next unit, the translations that the engine holds, the cause met, and the state. -/
structure EngRun where
  next  : Nat
  held  : List Xlat
  cause : Option (Nat × Nat)
  s     : State
/-- Move units from k on until `stop`. The engine translates again as it crosses into a frame; with `pend` it stands at the boundary, and
holds no translation there (R200). -/
def EngPlan.run (p : EngPlan) (b : Nat) (pend : Bool) (stop : State → Nat → Bool) : Nat → Nat → List Xlat → State → EngRun
  | 0, k, h, s => ⟨k, h, none, s⟩
  | fuel + 1, k, h, s =>
    if pend && !(p.inFrame s h k) then ⟨k, [], none, s⟩
    else
      let h1 := s.holdFrames (s.asidOf b) h (p.frames s k)
      match p.unit ⟨h1, p.covers s⟩ k s with
      | .cause c v => ⟨k, h1, some (c, v), s⟩
      | .ok _ s1 =>
        let s2 := p.fill b k s1
        if stop s2 (k + 1) then ⟨k + 1, h1, none, s2⟩ else EngPlan.run p b pend stop fuel (k + 1) h1 s2

/-! ## The shape record (R180, R357, R380, R436) -/

def shFmt (r : BitVec 512) : Nat := fieldN r 396 4
def shDst (r : BitVec 512) : Space := if bitN r 388 then .spad else .virt
def shSrc (r : BitVec 512) : Space := if bitN r 387 then .spad else .virt
def shEsize (r : BitVec 512) : Nat := 2 ^ fieldN r 384 3
/-- Extent e*i*. -/
def shExt (r : BitVec 512) (i : Nat) : Nat := fieldN r (320 + 16 * i) 16
/-- Strides d*i* and s*i*, i from 1 to 3. -/
def shD (r : BitVec 512) (i : Nat) : Int := fieldI r (192 + 32 * i) 32
def shS (r : BitVec 512) (i : Nat) : Int := fieldI r (96 + 32 * i) 32
def shDbase (r : BitVec 512) : Nat := fieldN r 64 56
def shSbase (r : BitVec 512) : Nat := fieldN r 0 56
/-- The checks that every shape record passes. -/
def shapeOk (r : BitVec 512) : Bool :=
  fieldN r 400 112 = 0 && fieldN r 389 7 = 0 && fieldN r 120 8 = 0 && fieldN r 56 8 = 0 && fieldN r 384 3 ≤ 4 &&
  (upTo 4).all (fun i => shExt r i ≠ 0)
/-- A shape record that a kind of command accepts. -/
def shapeFits (k : EngKind) (r : BitVec 512) : Bool :=
  shapeOk r &&
  (match k with
   | .cpy => shFmt r = 0
   | .gath => shFmt r = 0 && shExt r 2 = 1 && shExt r 3 = 1 && shDst r = .spad
   | .scat => shFmt r = 0 && shExt r 2 = 1 && shExt r 3 = 1 && shSrc r = .spad
   | _ => 2 ≤ shFmt r && shFmt r ≤ 8 && fieldN r 384 3 = 2 && shExt r 0 % 32 = 0)

/-- An address of 64-bit arithmetic. -/
def addr64 (x : Int) : Nat := (x % 2 ^ 64).toNat
/-- A captured operand. -/
def EngCmd.at (c : EngCmd) (i : Nat) : Nat := (c.coords.getD i 0).toNat

/-- The ranges in virtual memory of some places of `n` bytes. -/
def virtOf (l : List (Space × Nat × Nat)) : List (Nat × Nat) := (l.filter (fun x => x.1 = .virt)).map (fun x => x.2)

/-! ## CPY (R181) -/

/-- The indices of element k. -/
def boxIndex (r : BitVec 512) (e0 k : Nat) : Nat × Nat × Nat × Nat :=
  (k % e0, k / e0 % shExt r 1, k / (e0 * shExt r 1) % shExt r 2, k / (e0 * shExt r 1 * shExt r 2))
def rowSrc (c : EngCmd) (r : BitVec 512) (i1 i2 i3 : Nat) : Int :=
  shSbase r + c.at 0 + i1 * shS r 1 + i2 * shS r 2 + i3 * shS r 3
def rowDst (c : EngCmd) (r : BitVec 512) (i1 i2 i3 : Nat) : Int :=
  shDbase r + c.at 1 + i1 * shD r 1 + i2 * shD r 2 + i3 * shD r 3
def cpySrc (c : EngCmd) (r : BitVec 512) (k : Nat) : Nat :=
  let i := boxIndex r (shExt r 0) k
  addr64 (rowSrc c r i.2.1 i.2.2.1 i.2.2.2 + i.1 * shEsize r)
def cpyDst (c : EngCmd) (r : BitVec 512) (k : Nat) : Nat :=
  let i := boxIndex r (shExt r 0) k
  addr64 (rowDst c r i.2.1 i.2.2.1 i.2.2.2 + i.1 * shEsize r)
/-- Read at one place and write at another, alignment first on each side (R457 step 4). -/
def moveBytes (b : Nat) (v : EngView) (ss ds : Space) (sa da n al : Nat) (s : State) : Got Unit :=
  Got.check (misaligned sa al) ((s.engRead b ss sa n v.held).bind (fun bs s1 =>
    Got.check (misaligned da al) (s1.engWrite b ds da bs v.held v.whole)))
/-- The plan of `CPY`: one unit per element. -/
def cpyPlan (b : Nat) (c : EngCmd) (r : BitVec 512) : EngPlan where
  total := shExt r 0 * shExt r 1 * shExt r 2 * shExt r 3
  unit := fun v k s => moveBytes b v (shSrc r) (shDst r) (cpySrc c r k) (cpyDst c r k) (shEsize r) (shEsize r) s
  out := fun _ k => [(cpyDst c r k, shEsize r)]
  dst := fun _ k => if shDst r = .spad then [(cpyDst c r k, shEsize r)] else []
  virt := fun _ k => virtOf [(shSrc r, cpySrc c r k, shEsize r), (shDst r, cpyDst c r k, shEsize r)]

/-! ## GATH and SCAT (R182, R381, R437) -/

/-- Index j, as the scratchpad holds it. -/
def State.rowIndex (s : State) (b : Nat) (c : EngCmd) (j : Nat) : Nat :=
  ofBytes ((s.block b).spadRead (addr64 (c.at 2 + 4 * j)) 4)
/-- Element i of row j: its source and its destination. -/
def rowFrom (s : State) (b : Nat) (gath : Bool) (c : EngCmd) (r : BitVec 512) (j i : Nat) : Nat :=
  addr64 (shSbase r + c.at 0 + (if gath then s.rowIndex b c j else j) * shS r 1 + i * shEsize r)
def rowTo (s : State) (b : Nat) (gath : Bool) (c : EngCmd) (r : BitVec 512) (j i : Nat) : Nat :=
  addr64 (shDbase r + c.at 1 + (if gath then j else s.rowIndex b c j) * shD r 1 + i * shEsize r)
/-- The plan of `GATH` and `SCAT`: one unit per element, row by row; a row's index is read with each of its elements (log entry 15). -/
def rowPlan (b : Nat) (gath : Bool) (c : EngCmd) (r : BitVec 512) : EngPlan :=
  let n := shExt r 0
  let src (s : State) (k : Nat) : Nat := rowFrom s b gath c r (k / n) (k % n)
  let dst (s : State) (k : Nat) : Nat := rowTo s b gath c r (k / n) (k % n)
  { total := n * shExt r 1
    unit := fun v k s =>
      let at_ := addr64 (c.at 2 + 4 * (k / n))
      Got.check ((s.spadBound b at_ 4).or (if (s.block b).spadBad at_ 4 then some (0x0D, at_) else none))
        (moveBytes b v (shSrc r) (shDst r) (src s k) (dst s k) (shEsize r) (shEsize r) s)
    out := fun s k => [(dst s k, shEsize r)]
    dst := fun s k => if shDst r = .spad then [(dst s k, shEsize r)] else []
    virt := fun s k => virtOf [(shSrc r, src s k, shEsize r), (shDst r, dst s k, shEsize r)] }

/-! ## CPY.MX and CPY.UNMX (R183, R358) -/

/-- Element codes packed from bit 0 up (R146). -/
def packCodes (w : Nat) : List Nat → Nat
  | [] => 0
  | x :: xs => x % 2 ^ w + 2 ^ w * packCodes w xs
/-- The bytes of 32 packed elements of a format. -/
def packedBytes (f : Nat) : Nat := 4 * fmtWidth f
/-- Run k: its row's indices and its place in the row. -/
def mxIndex (r : BitVec 512) (k : Nat) : Nat × Nat × Nat × Nat := boxIndex r (shExt r 0 / 32) k
/-- Where the scale of run k lies: rows of e0 / 32 scales. -/
def mxScale (c : EngCmd) (k : Nat) : Nat := addr64 (c.at 2 + k)
def mxPlan (b : Nat) (c : EngCmd) (r : BitVec 512) : EngPlan :=
  let src (k : Nat) : Nat := let i := mxIndex r k; addr64 (rowSrc c r i.2.1 i.2.2.1 i.2.2.2 + i.1 * 128)
  let dst (k : Nat) : Nat := let i := mxIndex r k; addr64 (rowDst c r i.2.1 i.2.2.1 i.2.2.2 + i.1 * packedBytes (shFmt r))
  { total := shExt r 0 / 32 * shExt r 1 * shExt r 2 * shExt r 3
    unit := fun v k s =>
      Got.check (misaligned (src k) 4) ((s.engRead b (shSrc r) (src k) 128 v.held).bind (fun bs s1 =>
        let m := mxBlock (shFmt r) 0 (fun _ => 0) ((groupsOf 4 bs 32).map pbNat)
        let bad := bs.any (fun x => x.2)
        let out := (toBytes (packedBytes (shFmt r)) (packCodes (fmtWidth (shFmt r)) m.2)).map (fun x => (x, bad))
        Got.check (s1.engWriteCause b (shDst r) (dst k) out.length v.held) (Got.check (s1.engWriteCause b (shDst r) (mxScale c k) 1 v.held)
          ((s1.engWrite b (shDst r) (dst k) out v.held v.whole).bind (fun _ s2 =>
            s2.engWrite b (shDst r) (mxScale c k) [(BitVec.ofNat 8 m.1, bad)] v.held v.whole)))))
    out := fun _ k => [(dst k, packedBytes (shFmt r)), (mxScale c k, 1)]
    dst := fun _ k => if shDst r = .spad then [(dst k, packedBytes (shFmt r)), (mxScale c k, 1)] else []
    virt := fun _ k => virtOf [(shSrc r, src k, 128), (shDst r, dst k, packedBytes (shFmt r)), (shDst r, mxScale c k, 1)] }
def unmxPlan (b : Nat) (c : EngCmd) (r : BitVec 512) : EngPlan :=
  let src (k : Nat) : Nat := let i := mxIndex r k; addr64 (rowSrc c r i.2.1 i.2.2.1 i.2.2.2 + i.1 * packedBytes (shFmt r))
  let dst (k : Nat) : Nat := let i := mxIndex r k; addr64 (rowDst c r i.2.1 i.2.2.1 i.2.2.2 + i.1 * 128)
  { total := shExt r 0 / 32 * shExt r 1 * shExt r 2 * shExt r 3
    unit := fun v k s =>
      (s.engRead b (shSrc r) (src k) (packedBytes (shFmt r)) v.held).bind (fun bs s1 =>
        (s1.engRead b (shSrc r) (mxScale c k) 1 v.held).bind (fun sc s2 =>
          let w := fmtWidth (shFmt r)
          -- an element is poisoned by the words that its own code touches, and by its scale
          let bad (i : Nat) : Bool :=
            ((bs.drop (i * w / 8)).take ((i * w + w + 7) / 8 - i * w / 8)).any (fun x => x.2) || sc.any (fun x => x.2)
          let out := ((upTo 32).map (fun i =>
            (toBytes 4 (deqOne (shFmt r) (bitsOf (pbNat bs) (i * w) w) (pbNat sc))).map (fun x => (x, bad i)))).flatten
          Got.check (misaligned (dst k) 4) (s2.engWrite b (shDst r) (dst k) out v.held v.whole)))
    out := fun _ k => [(dst k, 128)]
    dst := fun _ k => if shDst r = .spad then [(dst k, 128)] else []
    virt := fun _ k => virtOf [(shSrc r, src k, packedBytes (shFmt r)), (shDst r, dst k, 128), (shSrc r, mxScale c k, 1)] }

/-- The plan of a copy-class command from its shape record. -/
def shapePlan (b : Nat) (c : EngCmd) (r : BitVec 512) : EngPlan :=
  match c.kind with
  | .gath => rowPlan b true c r
  | .scat => rowPlan b false c r
  | .cpyMx => mxPlan b c r
  | .cpyUnmx => unmxPlan b c r
  | _ => cpyPlan b c r

/-- A captured completion counter that is misaligned (R175, R457). -/
def EngCmd.ctrOdd (c : EngCmd) : Option Nat := c.ctr.bind (fun v => if v.toNat % 8 ≠ 0 then some v.toNat else none)
/-- A captured completion counter in the register aperture, found before anything moves (R69, log entry 57). -/
def EngCmd.ctrAperture (c : EngCmd) : Option Nat := c.ctr.bind (fun v => if inAperture v.toNat then some v.toNat else none)
/-- The engine reads the 64-byte record that a command names; poison in it is consumed (R277, log entry 57). -/
def State.readRecord (s : State) (b a : Nat) (h : List Xlat) : Got (BitVec 512) :=
  (s.engRead b .virt a 64 h).bind (fun bs s1 =>
    if bs.any (fun x => x.2) then .cause 0x0D a else .ok (BitVec.ofNat 512 (pbNat bs)) s1)
/-- Steps 1 to 3 of R457 for the commands with a shape record, and the aperture (R69): the record, before anything moves (R357). -/
def State.shapeStart (s : State) (b : Nat) (c : EngCmd) : Got (BitVec 512) :=
  let a := c.req.toNat
  if a % 64 ≠ 0 then .cause 0x03 a
  else match c.ctrOdd with
    | some v => .cause 0x03 v
    | none =>
      if (c.kind = .gath || c.kind = .scat) && c.at 2 % 4 ≠ 0 then .cause 0x03 (c.at 2)
      else (s.readRecord b a c.held).bind (fun r s1 =>
        if !(shapeFits c.kind r) then .cause 0x0B a
        else match ((shapePlan b c r).apertureHit s1).or c.ctrAperture with
          | some v => .cause 0x02 v
          | none => .ok r s1)

/-! ## CFETCH (R187, R355) -/

def EngCmd.slot (c : EngCmd) : Nat := c.at 0 % 64
/-- The length of a code fetch in bytes. -/
def EngCmd.codeLen (c : EngCmd) : Nat := (c.at 0 / 2 ^ 16 % 2 ^ 11 + 1) * 2
/-- A fragment of a floe on a core stands in a slot. -/
def State.slotBusy (s : State) (c k : Nat) : Bool :=
  s.floes.any (fun e => floeCore e.1 = c && e.2.frags.any (fun g => g.pc.toNat / 4096 = k))
/-- An older code fetch to the slot, of any floe of the core, has not completed (R355). -/
def State.slotBehind (s : State) (f : Nat) (c : EngCmd) : Bool :=
  ((((s.core (floeCore f)).slot c.slot).fetches).takeWhile (fun x => x ≠ (f, c.seq))).any (fun x => x ≠ (f, c.seq))
/-- The slot as a fetch completes: landed, or empty where it failed; landing while another fetch is left (R187, R355). -/
def CodeSlot.ends (x : CodeSlot) (f seq len : Nat) (ok : Bool) : CodeSlot :=
  let rest := x.fetches.filter (fun y => y ≠ (f, seq))
  { x with st := if !rest.isEmpty then .landing else if ok then .landed else .empty, len := if ok then len else 0, fetches := rest }
def State.slotEnds (s : State) (f : Nat) (c : EngCmd) (ok : Bool) : State :=
  s.updCore (floeCore f) (fun k => { k with slots := k.slots.put c.slot ((k.slot c.slot).ends f c.seq c.codeLen ok) })
/-- The whole of a code fetch; a counter in the aperture stops it before it writes (R69). -/
def State.codeFetch (s : State) (f : Nat) (c : EngCmd) : Got Unit :=
  let b := blockOf f
  let a := c.req.toNat
  if fieldN (c.coords.getD 0 0) 6 10 ≠ 0 || fieldN (c.coords.getD 0 0) 27 37 ≠ 0 then .cause 0x0B a
  else if a % 16 ≠ 0 then .cause 0x03 a
  else match c.ctrOdd with
    | some v => .cause 0x03 v
    | none =>
      (s.vaLoad (s.block b).launch (dieOfCore (coreOf b)) (s.asidOf b) .exec a c.codeLen c.held).bind (fun bs s1 =>
        Got.check (c.ctrAperture.map (fun v => (0x02, v))) (.ok () (s1.updCore (floeCore f) (fun k =>
          let x := k.slot c.slot
          let bytes := (bs.zip (upTo bs.length)).foldl (fun t e => Tab.set 0 t e.2 e.1.1) x.bytes
          let y := { x with bytes := bytes, bad := ((bs.zip (upTo bs.length)).filter (fun e => e.1.2)).map (fun e => e.2) }
          { k with slots := k.slots.put c.slot y }))))

end Sys2Proof.Machine
end

