-- ==== Sys2Proof/Machine/Sync.lean ====
section
/-!
DEFINITION. Waits, barriers, cohorts, the format vote and `MRUN` (R42 to R44, R140, R141, R157, R174, R176, R342, R343, R353,
R403, R408, R452, R453).
-/
namespace Sys2Proof.Machine

/-! ## WAIT, WAITM (R174, R176) -/

/-- A class's counter stands at or below a field, or the field is all ones. -/
def Floe.waitPasses (fl : Floe) (c : OpClass) {n : Nat} (v : BitVec n) : Bool := v = BitVec.allOnes n || fl.counter c ≤ v.toNat
/-- `WAIT` (R174). -/
def execWait (n t p : BitVec 4) (st ld : BitVec 5) (s : State) : Host.Outcome State Fault Refusal :=
  floeOp (.wait n t p st ld) s (fun s =>
    if s.fl.waitPasses .loads ld && s.fl.waitPasses .stores st && s.fl.waitPasses .copies p && s.fl.waitPasses .tile t &&
        s.fl.waitPasses .net n then .go s
    else .wait .counters s)

/-- The address and threshold of a `WAITM`, as they were at its issue (R453). -/
def State.waitmArgs (s : State) (b a : BitVec 6) : W64 × W64 :=
  match s.fg.wait with
  | .memory va limit => (va, limit)
  | _ => (s.S a.toNat, s.S b.toNat)
/-- One read of a `WAITM`, an acquire load at system scope, of tier 2 at the home (R176, R453); it waits on while the horizon holds its tick back (R218). -/
def waitmBody (va limit : W64) (s : State) : Res :=
  let again : WaitFor := match s.fg.wait with | .memory _ _ => .memory va limit | _ => .order
  if va.toNat % 8 ≠ 0 then .fault 0x03 va true
  else if s.loadWaits s.cur.floe va.toNat 8 then .wait again s
  else match s.coreLoad s.cur.floe va.toNat 8 true with
    | .cause 0x01 a => .as ((s.waitFrag s.cur.floe s.cur.frag (.memory va limit)).parkRepeat s.cur.floe s.cur.frag [(s.elected, a)] [] 0)
    | .cause 0x05 a => .as ((s.waitFrag s.cur.floe s.cur.frag (.memory va limit)).parkRepeat s.cur.floe s.cur.frag [] [(s.elected, a)] 0)
    | .cause c a => .fault c (BitVec.ofNat 64 a) true
    | .ok bs s1 =>
      if s.heldBack (floeCore s.cur.floe) s1 then .wait again s
      else if bs.any (fun x => x.2) then .poison
      else if limit.toNat ≤ pbNat bs && s1.mayTick (floeCore s.cur.floe) then .go (s1.acquireFloor s.cur.floe)
      else .wait (.memory va limit) s1
/-- `WAITM` (R176, R453). -/
def execWaitm (b a : BitVec 6) (s : State) : Host.Outcome State Fault Refusal :=
  floeOp (.waitm b a) s (fun s => waitmBody (s.waitmArgs b a).1 (s.waitmArgs b a).2 s)
/-- WAITM_REREAD: a fragment that waits in `WAITM` reads its location again (R176). -/
def execWaitmReread (f frag : Nat) (s : State) : Host.Outcome State Fault Refusal :=
  .next (match (s.frag f frag).wait with
    | .memory va limit =>
      let s0 := { s with cur := { s.cur with floe := f, frag := frag } }
      if (s.floe f).st = .parked || !((s.floe f).mayIssue (s.frag f frag)) then s
      else conclude (.waitm 0 0) s0 (waitmBody va limit s0)
    | _ => s)

/-! ## Barriers (R42, R43, R235, R343) -/

/-- A fragment waits in a barrier wait; then what its arrival does. -/
def waitThen (w : WaitFor) (k : State → State) (s : State) : Res := .as (k (s.waitFrag s.cur.floe s.cur.frag w))
/-- `BAR.ARRIVE` (R343). -/
def execBarArrive (n : BitVec 4) (s : State) : Host.Outcome State Fault Refusal :=
  floeOp (.barArrive n) s (fun s =>
    if s.fl.standing.getLsbD n.toNat then .go s else arriving (fun s => .go (s.arrive s.cur.floe n.toNat)) s)
/-- `BAR.WAIT` (R343). -/
def execBarWait (n : BitVec 4) (s : State) : Host.Outcome State Fault Refusal :=
  floeOp (.barWait n) s (fun s => if s.fl.standing.getLsbD n.toNat then .wait (.bar n.toNat) s else .go s)
/-- `BAR.SYNC` (R343). -/
def execBarSync (n : BitVec 4) (s : State) : Host.Outcome State Fault Refusal :=
  floeOp (.barSync n) s (fun s =>
    if s.fl.standing.getLsbD n.toNat then .wait (.bar n.toNat) s
    else arriving (waitThen (.bar n.toNat) (fun t => t.arrive s.cur.floe n.toNat)) s)

/-! ## CBAR (R353) -/

/-- The cohort that a register names, where R353 accepts it. -/
def State.cbarOk (s : State) (v : W64) : Bool :=
  v.toNat < 256 && v.toNat < s.lau.cohorts.length && v.toNat ∈ s.lau.cohortsOf s.blk.id
/-- `CBAR` (R44, R353). -/
def execCbar (a : BitVec 6) (s : State) : Host.Outcome State Fault Refusal :=
  floeOp (.cbar a) s (fun s =>
    let c := (s.S a.toNat).toNat
    if !(s.cbarOk (s.S a.toNat)) then .trap 10
    else if c ∈ s.fl.cstanding then .wait (.cohort c) s
    else arriving (waitThen (.cohort c) (fun t =>
      (t.updFl (fun fl => { fl with cstanding := fl.cstanding ++ [c] })).blockArrives (blockOf s.cur.floe) c)) s)

/-! ## MFMT (R157, R403) -/

/-- `MFMT`: the vote, then the arrival of a floe that has not arrived (R157). -/
def execMfmt (a : BitVec 6) (n : BitVec 4) (s : State) : Host.Outcome State Fault Refusal :=
  floeOp (.mfmt a n) s (fun s =>
    match s.gate [VGroup.one a] [] false false with
    | some r => r
    | none =>
      let f := s.cur.floe
      let ws := s.lanes.map (fun l => s.V a.toNat l)
      arriving (fun s =>
        waitThen (.vote n.toNat) (fun t =>
          (t.updBar (blockOf f) n.toNat (fun x => { x with votes := x.votes ++ [(f, s.cur.frag, ws)] })).arrive f n.toNat)
          (s.popPorts [VGroup.one a])) s)

/-! ## MRUN (R140, R141, R408) -/

/-- `MRUN`: it waits for the sequencer; SEQUENCER_RUN_START starts the run. Where both addresses are misaligned, `FADDR` holds `S(sa)` (log
entry 64). -/
def execMrun (b a : BitVec 6) (s : State) : Host.Outcome State Fault Refusal :=
  floeOp (.mrun b a) s (fun s =>
    let va := s.S a.toNat
    let tab := s.S b.toNat
    if 15 ≤ s.fl.tile then .wait .room s
    else if va.toNat % 4 ≠ 0 then .fault 0x03 va false
    else if tab.toNat % 256 ≠ 0 then .fault 0x03 tab true
    else .wait .mrun (s.updCr (fun c => { c with mruns := c.mruns ++ [(s.cur.floe, s.cur.frag, va, tab)] })))

/-- The 32-bit word a fragment stands at. -/
def State.wordAt (s : State) (f id : Nat) : Nat :=
  let c := s.core (floeCore f)
  let pc := (s.frag f id).pc.toNat
  c.halfword pc + 65536 * c.halfword (pc + 2)

/-- The 64 entries of a descriptor table, or the first cause (R141 step 1). -/
def State.readTable (s : State) (f va : Nat) : Got (Tab (BitVec 256) × Bool) :=
  (upTo 64).foldl (fun (acc : Got (Tab (BitVec 256) × Bool)) i =>
    match acc with
    | .cause c a => .cause c a
    | .ok t s =>
      match s.coreLoad f (va + 32 * i) 32 with
      | .cause c _ => .cause c (va + 32 * i)
      | .ok bs s1 => .ok (t.1.put i (BitVec.ofNat 256 (pbNat bs)), t.2 || bs.any (fun x => x.2)) s1) (.ok ([], false) s)
/-- The entries of a table whose load takes cause 0x01. -/
def State.absentEntries (s : State) (f va : Nat) : List Nat :=
  ((upTo 64).map (fun i => va + 32 * i)).filter (fun a =>
    match s.coreLoad f a 32 with | .cause 0x01 _ => true | _ => false)

/-- The header of a table that a run accepts (R141 step 2). -/
def headerOk (h : BitVec 256) : Bool := fieldN h 80 176 = 0 && fieldN h 64 16 ≠ 0
/-- A drain that has not released a tile yet, begun or in staging (R162). -/
def Core.drainHolds (k : Core) (i : Nat) : Bool :=
  k.drain.any (fun d => d.tile = i) || k.staging.any (fun u => u.job.tile = i && !u.job.release)
/-- Tiles at a run's start hold free values, but for those a drain still holds (R143, log entry 4); one that a failed drain left unreleased
(R166) is free again (log entry 58). -/
def State.freshTiles (s : State) (c : Nat) : State :=
  let n := s.free
  { s.updCore c (fun k => { k with tiles := (upTo 24).foldl (fun t i =>
      if !(k.drainHolds i) then t.put i ⟨[], [], [], 0, some (n + i * 2 ^ 15), []⟩ else t) k.tiles })
    with free := n + 24 * 2 ^ 15 }
/-- The run of a table begins (R141 steps 3 to 5). Multicast deliveries that an earlier run of the launch on the core has not consumed are still
there, since R149 counts *j* through no run (log entry 66). -/
def State.beginRun (s : State) (c f id : Nat) (va : W64) (t : Tab (BitVec 256)) : State :=
  let h := t.getD 0 0
  let s1 := s.freshTiles c
  let s2 := s1.updCore c (fun k => { k with
    mruns := k.mruns.drop 1, nextRun := k.nextRun + 1,
    run := some ⟨k.nextRun, blockOf f, f, va, t, (upTo 4).map (fun i => BitVec.ofNat 16 (fieldN h (16 * i) 16)), 0, none, false,
      false, []⟩ })
  (s2.updFloe f (fun fl => { fl with tile := fl.tile + 1 })).retireFrag f id 4

/-- SEQUENCER_RUN_START: the oldest waiting `MRUN` of a core whose sequencer is free (R141); its loads wait as a floe's do (R218, R232). -/
def State.startRun (s : State) (c : Nat) : State :=
  let k := s.core c
  match k.run, k.mruns with
  | none, (f, id, va, tab) :: _ =>
    if (s.floe f).st = .parked || k.haltReq || (s.floe f).acquiring id then s
    else
      let lane := (Mask.lanes (s.frag f id).active (s.floe f).width).headD 0
      let leave (s : State) : State := s.updCore c (fun k => { k with mruns := k.mruns.drop 1 })
      match s.readTable f tab.toNat with
      | .cause 0x01 _ => s.parkRepeat f id ((s.absentEntries f tab.toNat).map (fun a => (lane, a))) [] 0
      | .cause 0x05 a => s.parkRepeat f id [] [(lane, a)] 0
      | .cause e a => (leave s).preciseFault f id e (BitVec.ofNat 64 a) true
      | .ok t s1 =>
        if s.heldBack c s1 then s
        else if t.2 then s.consume (s.block (blockOf f)).launch (some (s.block (blockOf f)).id)
        else if !(headerOk (t.1.getD 0 0)) then (leave s1).emulTrap f id (s1.wordAt f id) 4 7
        else s1.beginRun c f id va t.1
  | _, _ => s
/-- SEQUENCER_RUN_START (R141). -/
def execSequencerRunStart (core : Nat) (s : State) : Host.Outcome State Fault Refusal := .next (s.startRun core)

end Sys2Proof.Machine
end

