-- ==== Sys2Proof/Machine/System.lean ====
section
/-!
DEFINITION. The SYSTEM major: `NOP`, `SYSC` and its reply, `TRAP`, `UIMASK` and the returns from handlers (R263, R303, R362,
R410, R448 to R450).
-/
namespace Sys2Proof.Machine

/-- `NOP` (R410). -/
def execNop (s : State) : Host.Outcome State Fault Refusal := floeOp (.nop) s (fun s => .go s)

/-- The request of a `SYSC` from its register, its record and its destination (R303, R448). -/
def sysRequest (frag : Nat) (num : W64) (rec_ : List PByte) (d : Nat) : SyscReq :=
  { frag := frag
    num := BitVec.ofNat 64 (fieldN num 0 8)
    args := (upTo 4).map (fun i => BitVec.ofNat 64 (pbNat ((rec_.drop (8 * i)).take 8)))
    sd := d
    bad := fieldN num 8 56 ≠ 0 || (rec_.drop 32).any (fun x => x.1 ≠ 0)
    reply := none }
/-- `SYSC` (R303): the older accesses first, then the record, then the request. -/
def execSysc (b a d : BitVec 6) (s : State) : Host.Outcome State Fault Refusal :=
  floeOp (.sysc b a d) s (fun s =>
    let va := s.S b.toNat
    if va.toNat % 64 ≠ 0 then .fault 0x03 va true
    else if s.fl.fence.isSome || s.loadWaits s.cur.floe va.toNat 64 then .wait .order s
    else arriving (fun s =>
      match s.coreLoad s.cur.floe va.toNat 64 with
      | .cause 0x01 x => .as (s.parkRepeat s.cur.floe s.cur.frag [(s.elected, x)] [] 0)
      | .cause 0x05 x => .as (s.parkRepeat s.cur.floe s.cur.frag [] [(s.elected, x)] 0)
      | .cause c x => .fault c (BitVec.ofNat 64 x) true
      | .ok bs s1 =>
        if s.heldBack (floeCore s.cur.floe) s1 then .wait .drainCounters s
        else if bs.any (fun x => x.2) then .poison
        else .wait .sysc (s1.updFl (fun fl =>
          { fl with syscs := fl.syscs ++ [sysRequest s.cur.frag (s.S a.toNat) bs d.toNat] }))) s)

/-- The answer of a request that has one: status and result. A bad record is status 1, a reserved service status 2 (R448). -/
def SyscReq.answer (r : SyscReq) : Option (Nat × W64) :=
  if r.bad then some (1, 0) else if 18 ≤ r.num.toNat then some (2, 0) else r.reply
/-- SYSC_REPLY (R303): the reply reaches a fragment and acts as an acquire at system scope, whose tick waits for the horizon (R218). -/
def State.syscReply (s : State) (f frag : Nat) : State :=
  match (s.floe f).syscs.find? (fun r => r.frag = frag) with
  | none => s
  | some r =>
    match r.answer with
    | none => s
    | some (st, v) =>
      if !(s.mayTick (floeCore f)) then s else
      let s1 := s.updFloe f (fun fl =>
        { fl.setS r.sd (BitVec.ofNat 64 (st % 256 + v.toNat % 2 ^ 32 * 2 ^ 32)) with
          syscs := fl.syscs.filter (fun x => x.frag ≠ frag) })
      ((s1.acquireFloor f).keepWrites f [] [r.sd] []).retireFrag f frag 4
/-- SYSC_REPLY (R303). -/
def execSyscReply (f frag : Nat) (s : State) : Host.Outcome State Fault Refusal := .next (s.syscReply f frag)

/-- `TRAP` (R449): always the emulation trap with reason 11. -/
def execTrap (c : BitVec 18) (s : State) : Host.Outcome State Fault Refusal := floeOp (.trap c) s (fun _ => .trap 11)

/-- `UIMASK` (R450): the register is read before rd is written. -/
def execUimask (a d : BitVec 6) (s : State) : Host.Outcome State Fault Refusal :=
  floeOp (.uimask a d) s (fun s =>
    .go (s.updFl (fun fl => { fl.setS d.toNat (fl.umask.setWidth 64) with umask := (fl.S a.toNat).setWidth 3 })))

/-- A return from a handler (R263, R362): reason 10, cause 0x0C with the saved pc, or the launch's end (R264). -/
def returnBody (interrupt : Bool) (s : State) : Res :=
  match s.handlerReturn s.cur.floe s.cur.frag interrupt with
  | .trap => .trap 10
  | .notLanded => .fault 0x0C (s.fl.epc.setWidth 64) false
  | .nested => .as (s.abortFloe s.cur.floe 0x11)
  | .held => .wait .order s
  | .done s1 => .as s1
/-- `UIRET` (R263). -/
def execUiret (s : State) : Host.Outcome State Fault Refusal := floeOp .uiret s (returnBody true)
/-- `EMRET` (R263, R362). -/
def execEmret (s : State) : Host.Outcome State Fault Refusal := floeOp .emret s (returnBody false)

end Sys2Proof.Machine
end

