-- ==== Sys2Proof/Machine/Matrix.lean ====
section
/-!
DEFINITION. The block sequencer's words, the matrix engine and its operands (R91, R129 to R131, R142 to R156, R400 to R405, R409,
R458).
-/
namespace Sys2Proof.Machine

/-! ## The run of a core -/

def State.updRun (s : State) (c : Nat) (g : Run → Run) : State := s.updCore c (fun k => { k with run := k.run.map g })
/-- The sequencer passes a word (R458). -/
def State.passWord (s : State) (c : Nat) : State := s.updRun c (fun r => { r with pc := r.pc + 4 })
/-- Entry k of a run's table. -/
def Run.entry (r : Run) (k : Nat) : BitVec 256 := r.table.getD k 0
/-- The iteration indices (R145). -/
def Run.iters (r : Run) : List Nat := (upTo 4).map (fun c => fieldN (r.entry 0) (16 * c) 16 - (r.l.getD c 0).toNat)
/-- Drains of a run that are not yet written (R142). -/
def Core.drainsLeft (k : Core) (run : Nat) : Bool := k.drain.any (fun d => d.run = run) || k.staging.any (fun u => u.job.run = run)
/-- An ended run with no drain left takes 1 from its floe's tile counter (R142). -/
def State.settleRun (s : State) (c run : Nat) : State :=
  let k := s.core c
  if k.drainsLeft run then s
  else
    let fs := (k.ending.filter (fun e => e.1 = run)).map (fun e => e.2)
    fs.foldl (fun s f => s.updFloe f (fun fl => { fl with tile := fl.tile - 1 }))
      (s.updCore c (fun k => { k with ending := k.ending.filter (fun e => e.1 ≠ run) }))
/-- A run ends (R142): the sequencer's quantum leaves the expected counts and the current arrivals. -/
def State.endRun (s : State) (c : Nat) : State :=
  match (s.core c).run with
  | none => s
  | some r =>
    let s1 := s.updCore c (fun k => { k with run := none, ending := k.ending ++ [(r.id, r.floe)] })
    let s2 := (upTo 16).foldl (fun s n =>
      if r.arrived.getLsbD n then s.updBar r.blk n (fun x => { x with count := x.count - 1 }) else s) s1
    ((upTo 16).foldl (fun s n => if r.bmask / 2 ^ n % 2 = 1 then s.checkBar r.blk n else s) s2).settleRun c r.id
/-- The report of a word that R89 or R155 refuses (R91): reason 12, the word and its address. -/
def matrixReport (va : W64) (word : Nat) : Report :=
  ⟨0x0B, va, BitVec.ofNat 64 word, BitVec.ofNat 64 (2 ^ 25 + bitsOf word 1 6 * 2 ^ 19 + 9 * 2 ^ 8 + 12), 0⟩
/-- The run stops before a word: the cause is reported, and the run ends without arriving (R156). -/
def State.stopRun (s : State) (c : Nat) (r : Report) : State :=
  match (s.core c).run with
  | none => s
  | some x => (s.reportBlock x.blk r).endRun c
/-- A sequencer error at the current word (R91, R155). -/
def State.seqError (s : State) (c word : Nat) : State :=
  match (s.core c).run with
  | none => s
  | some x => s.stopRun c (matrixReport x.pc word)

/-! ## Fetching a word (R400) -/

/-- What the sequencer's fetch comes to. -/
inductive SeqFetch where
  | idle
  | done (s : State)
  | word (w : Nat) (s : State)

/-- Four bytes at a VA with execute permission, as a plain load at block scope for the floe of the run (R217, R220, R221), under a
translation that the core holds. -/
def State.seqLoad (s : State) (c f va : Nat) : Got (List PByte) :=
  s.scopedLoad f .exec va 4 (((s.core c).held (s.asidOf (blockOf f)) va).toList)
/-- The sequencer takes the word at its program counter, where it stands before one (R400, R458). -/
def State.seqFetch (s : State) (c : Nat) : SeqFetch :=
  match (s.core c).run with
  | none => .idle
  | some r =>
    if r.held || r.standing.isSome || r.paused || (s.core c).haltReq then .idle
    else match s.seqLoad c r.floe r.pc.toNat with
      | .cause 0x01 va =>
        .done ((s.updRun c (fun r => { r with paused := true })).engineRecord r.blk ((s.floe r.floe).base / 16) 3 4 va)
      | .cause 0x05 _ => .idle
      | .cause e va => .done (s.stopRun c (Report.plain e (BitVec.ofNat 64 va)))
      | .ok bs s1 =>
        if s.heldBack c s1 then .idle
        else if bs.any (fun x => x.2) then .done (s.consume (s.block r.blk).launch (some (s.block r.blk).id))
        else .word (pbNat bs) (s1.holdXlat c (s1.asidOf r.blk) r.pc.toNat)

/-! ## Operand descriptors (R146 to R149, R155) -/

def opdSbase (e : BitVec 256) : Nat := fieldN e 160 32
def opdLstride (e : BitVec 256) (c : Nat) : Int := fieldI e (96 + 16 * c) 16
def opdKstep (e : BitVec 256) : Int := fieldI e 80 16
def opdStride (e : BitVec 256) : Nat := fieldN e 64 16
def opdBase (e : BitVec 256) : Nat := fieldN e 32 32
def opdBpos (e : BitVec 256) : Nat := fieldN e 16 4
def opdMcast (e : BitVec 256) : Nat := fieldN e 8 8
def opdSelf (e : BitVec 256) : Bool := bitN e 7
def opdCore (e : BitVec 256) : Nat := fieldN e 4 3
/-- Bytes of a line of a K-block in a format (R146). -/
def lineBytes (f k : Nat) : Nat := k * fmtWidth f / 8
/-- The member of a multicast group that fetches (R149), as a COREID. -/
def fetcherOf (c : Nat) (e : BitVec 256) : Nat := c / 8 * 8 + ((upTo 8).find? (fun i => opdMcast e / 2 ^ i % 2 = 1)).getD 0
/-- The cores of a multicast group. -/
def membersOf (c : Nat) (e : BitVec 256) : List Nat :=
  ((upTo 8).filter (fun i => opdMcast e / 2 ^ i % 2 = 1)).map (fun i => c / 8 * 8 + i)
/-- The core reads the operand's scratchpad itself. -/
def fetches (c : Nat) (e : BitVec 256) : Bool := opdMcast e = 0 || fetcherOf c e = c
/-- The fields of an operand descriptor that say where it lies meet R146. -/
def sourceOk (f k : Nat) (e : BitVec 256) : Bool :=
  (upTo 4).all (fun i => fieldN e (96 + 16 * i) 16 % 8 = 0) && fieldN e 80 16 % 8 = 0 && opdStride e % 8 = 0 &&
  lineBytes f k ≤ opdStride e && opdBase e % 8 = 0
/-- An operand descriptor that meets R146, R149 and R155 on a core; a member that does not fetch ignores its source fields. -/
def operandOk (c f k : Nat) (e : BitVec 256) : Bool :=
  fieldN e 0 3 = 1 && fieldN e 192 64 = 0 && fieldN e 20 12 = 0 && !(bitN e 3) &&
  (opdMcast e = 0 || opdMcast e / 2 ^ (c % 8) % 2 = 1) && (!(fetches c e) || sourceOk f k e)

/-- The block an operand lies in, where it is resident and of the launch (R148). -/
def State.operandBlock (s : State) (c b : Nat) (e : BitVec 256) : Option Nat :=
  if opdSelf e then some b
  else
    let k := (c / 8 * 8 + opdCore e) * 16 + opdBpos e
    match s.blocks.get? k with
    | some x => if x.launch = (s.block b).launch then some k else none
    | none => none
/-- The offset from base of line r of K-block kb (R147). -/
def lineOff (e : BitVec 256) (iters : List Nat) (kb r : Nat) : Int :=
  (upTo 4).foldl (fun a i => a + (iters.getD i 0 : Nat) * opdLstride e i) 0 + kb * opdKstep e + r * opdStride e
/-- A format carries scales (R120). -/
def hasScale (f : Nat) : Bool := 2 ≤ f && f ≤ 8
/-- The scale address of group g of a line at an offset from base (R147). -/
def scaleAt (e : BitVec 256) (f : Nat) (off : Int) (g : Nat) : Nat :=
  opdSbase e + (off.toNat + g * (4 * fmtWidth f)) / (4 * fmtWidth f)
/-- Groups of a K-block (R129). -/
def groupsIn (k : Nat) : Nat := k / Nat.min 32 k

/-- The first line or scale byte of an operand that R148 refuses, or the base where the block is absent. -/
def State.operandCause (s : State) (c b : Nat) (e : BitVec 256) (f k n : Nat) (iters : List Nat) : Option W64 :=
  if !(fetches c e) then none
  else match s.operandBlock c b e with
    | none => some (BitVec.ofNat 64 (opdBase e))
    | some src =>
      let lim := (s.block src).spadKiB * 1024
      (upTo n).findSome? (fun kb => (upTo 128).findSome? (fun r =>
        let off := lineOff e iters kb r
        if off < 0 || lim < opdBase e + off.toNat + lineBytes f k then some (BitVec.ofInt 64 (opdBase e + off))
        else if hasScale f then
          ((upTo (groupsIn k)).find? (fun g => lim ≤ scaleAt e f off g)).map (fun g => BitVec.ofNat 64 (scaleAt e f off g))
        else none))

/-- Read a K-block of an operand. A source block that has gone gives free bytes (R148, log entry 4). `twin` is the other format of an `MMA`
that names the descriptor for A and for B (R149). -/
def State.fetchKBlock (s : State) (c b : Nat) (e : BitVec 256) (f k n kb : Nat) (iters : List Nat) (twin : Option Nat := none) :
    KBlock × State :=
  let src := s.operandBlock c b e
  let rd (off len : Nat) : Nat :=
    match src with
    | some x => ofBytes ((s.block x).spadRead off len)
    | none => ofBytes ((upTo len).map (fun i => (Config.freeWord (s.free + (off + i) % 2 ^ 21)).setWidth 8))
  let bad (off len : Nat) : Bool := match src with | some x => (s.block x).spadBad off len | none => false
  let at_ (r : Nat) : Nat := opdBase e + (lineOff e iters kb r).toNat
  let sc (f r : Nat) : List Nat :=
    if hasScale f then (upTo (groupsIn k)).map (fun g => scaleAt e f (lineOff e iters kb r) g) else []
  let lines (f : Nat) : List Nat := (upTo 128).map (fun r => rd (at_ r) (lineBytes f k))
  let scales (f : Nat) : List (List Nat) := (upTo 128).map (fun r => (sc f r).map (fun a => rd a 1))
  let lost (f : Nat) : Bool := (upTo 128).any (fun r => bad (at_ r) (lineBytes f k) || (sc f r).any (fun a => bad a 1))
  ({ count := n
     kb := kb
     lines := lines f
     scales := scales f
     bad := lost f || (match twin with | some g => lost g | none => false)
     twin := twin.map (fun g => (lines g, scales g)) },
   if src.isSome then s else { s with free := s.free + 2 ^ 21 })

/-! ## Arithmetic (R129 to R131, R153, R165) -/

/-- The values of a K-block's line, with their scales (R129). -/
def KBlock.values (x : KBlock) (f k r : Nat) : List FVal :=
  (upTo k).map (fun i =>
    let v := codeVal f (bitsOf (x.lines.getD r 0) (i * fmtWidth f) (fmtWidth f))
    if hasScale f then
      let sc := (x.scales.getD r []).getD (i / 32) 127
      if sc = 0xFF then .nan else v.scale ((sc : Int) - 127)
    else v)

/-- An element, a checksum, a magnitude sum of a tile. -/
def Tile.at (t : Tile) (i : Nat) : W32 :=
  match t.elems.get? i, t.seed with
  | some x, _ => x
  | none, some n => lo32 (Config.freeWord (n + i))
  | none, none => 0
def Tile.csum (t : Tile) (r : Nat) : W32 :=
  match t.c.get? r, t.seed with
  | some x, _ => x
  | none, some n => lo32 (Config.freeWord (n + 16384 + r))
  | none, none => 0
def Tile.msum (t : Tile) (r : Nat) : W32 :=
  match t.m.get? r, t.seed with
  | some x, _ => x
  | none, some n => lo32 (Config.freeWord (n + 16512 + r))
  | none, none => 0

/-- Add the group sums of products of two lines to a word, in ascending K (R130, R131). -/
def addGroups (k : Nat) (xs ys : List FVal) (acc : W32) : W32 :=
  BitVec.ofNat 32 ((groupsOf (Nat.min 32 k) ((xs.zip ys).map (fun p => p.1.mul p.2)) (groupsIn k)).foldl
    (fun a ps => accAdd a (groupSum ps)) acc.toNat)
/-- A table of words by index. -/
def wordTab (n : Nat) (g : Nat → W32) : Tab W32 := ((upTo n).map (fun i => (i, g i))).filter (fun e => e.2 ≠ 0)
/-- A tile after a K-block of A by B (R153, R165). -/
def Tile.multiply (t : Tile) (fa fb k : Nat) (a b : KBlock) : Tile :=
  let as := (upTo 128).map (fun r => a.values fa k r)
  let bs := (upTo 128).map (fun n => b.values fb k n)
  let cols := (upTo k).map (fun i => sumExact (bs.map (fun l => l.getD i .nan)))
  let mags := (upTo k).map (fun i => sumExact (bs.map (fun l => (l.getD i .nan).abs)))
  { t with
    elems := wordTab 16384 (fun i => addGroups k (as.getD (i / 128) []) (bs.getD (i % 128) []) (t.at i))
    c := wordTab 128 (fun r => addGroups k (as.getD r []) cols (t.csum r))
    m := wordTab 128 (fun r => addGroups k ((as.getD r []).map FVal.abs) mags (t.msum r))
    seed := none }

/-- A tile of a core. -/
def Core.tile (k : Core) (t : Nat) : Tile := k.tiles.getD t Tile.reset
def State.updTile (s : State) (c t : Nat) (g : Tile → Tile) : State :=
  s.updCore c (fun k => { k with tiles := k.tiles.put t (g (k.tile t)) })
/-- A zeroed tile (R153). -/
def Tile.zeroed (t : Tile) : Tile := { Tile.reset with held := t.held }

/-! ## MMA (R148, R149, R153, R405, R458) -/

/-- The formats and K-block of a format word (R150). -/
def fmtA (w : W32) : Nat := fieldN w 0 4
def fmtB (w : W32) : Nat := fieldN w 4 4
def fmtK (w : W32) : Nat := (kBlock (fmtA w) (fmtB w)).getD 16

/-- The buffer of a launch's deliveries for a descriptor number (R8, R149). -/
def castKey (l d : Nat) : Nat := l * 64 + d
/-- A member's buffer of a launch: in its core, or in the image of a saved one (R149, R167). -/
def State.castBuffer (s : State) (l m d : Nat) : List KBlock :=
  match s.images.find? (fun i => i.launch = l && i.core = m) with
  | some i => i.image.mcast.getD (castKey l d) []
  | none => (s.core m).mcast.getD (castKey l d) []
/-- Put a K-block into a member's buffer, wherever that stands. -/
def State.castTo (s : State) (l d : Nat) (x : KBlock) (m : Nat) : State :=
  let put (k : Core) : Core := { k with mcast := k.mcast.put (castKey l d) (k.mcast.getD (castKey l d) [] ++ [x]) }
  if s.images.any (fun i => i.launch = l && i.core = m) then
    { s with images := s.images.map (fun i => if i.launch = l && i.core = m then { i with image := put i.image } else i) }
  else s.updCore m put
/-- An issued `MMA` names a multicast descriptor; one that names it for A and for B still takes one delivery (R149). -/
def Issued.uses (x : Issued) (d : Nat) : Bool := (opdMcast x.ea ≠ 0 && x.da = d) || (opdMcast x.eb ≠ 0 && x.db = d)
/-- The K-block count of the delivery that the next `MMA` behind some others consumes from a buffer, where its first K-block is there:
the others' deliveries that they have not begun to consume come first (R149). -/
def deliveryCount (buf : List KBlock) (before : List Issued) (d : Nat) : Option Nat :=
  (((buf.filter (fun y => y.kb = 0)).drop (before.filter (fun x => x.kb = 0 && x.uses d)).length).head?).map (fun y => y.count)
/-- A delivery for an `MMA` of a launch is there and has another K-block count (R149, R155). -/
def Core.countDiffers (k : Core) (l : Nat) (before : List Issued) (x : Issued) : Bool :=
  let off (d : Nat) : Bool := x.uses d && (deliveryCount (k.mcast.getD (castKey l d) []) before d).any (fun m => m ≠ x.n)
  off x.da || off x.db
/-- The operands of the engine's first `MMA` are there: its own, or K-blocks in its launch's buffers (R149). -/
def Core.operandsReady (k : Core) (l : Nat) (x : Issued) : Bool :=
  let need (d : Nat) : Bool := !(x.uses d) || !(k.mcast.getD (castKey l d) []).isEmpty
  need x.da && need x.db
/-- The stream word of an issued `MMA`. -/
def Issued.word (x : Issued) : Nat :=
  encodeWord (.mma (BitVec.ofNat 1 (bit01 x.acc)) (BitVec.ofNat 4 (x.n - 1)) (BitVec.ofNat 6 x.db) (BitVec.ofNat 6 x.da) (BitVec.ofNat 5 x.tile))
/-- The `MMA` that the sequencer holds: a delivery with another count stops the run before it (R155); the sequencer passes it as its
first K-block begins, when the engine is free for it and its operands are there (R151, R458). -/
def State.settleMma (s : State) (c : Nat) : State :=
  let k := s.core c
  if !(k.run.any (fun r => r.held)) then s
  else match k.engine.getLast? with
    | none => s
    | some x =>
      let l := (s.block x.blk).launch
      if k.countDiffers l k.engine.dropLast x then (s.updCore c (fun k => { k with engine := k.engine.dropLast })).seqError c x.word
      else if k.engine.length = 1 && k.operandsReady l x then s.updRun c (fun r => { r with held := false, pc := r.pc + 4 })
      else s

/-- `MMA`: the checks, then the issue (R154, R155, R458); it waits in the engine for what a buffer does not hold yet. -/
def State.issueMma (s : State) (c : Nat) (word acc n db da t : Nat) : State :=
  let k := s.core c
  match k.run with
  | none => s
  | some r =>
    let fw := (s.block r.blk).fmtSlot
    let ea := r.entry da
    let eb := r.entry db
    if r.held || 2 ≤ k.engine.length || (k.tile t).held ≠ 0 then s
    else if da = 0 || 48 ≤ da || db = 0 || 48 ≤ db || !(operandOk c (fmtA fw) (fmtK fw) ea) || !(operandOk c (fmtB fw) (fmtK fw) eb) then
      s.seqError c word
    else match s.operandCause c r.blk ea (fmtA fw) (fmtK fw) n r.iters, s.operandCause c r.blk eb (fmtB fw) (fmtK fw) n r.iters with
      | some a, _ => s.stopRun c (Report.plain 0x02 a)
      | none, some a => s.stopRun c (Report.plain 0x02 a)
      | none, none =>
        let x : Issued := ⟨r.blk, t, acc = 1, da, db, ea, eb, n, 0, fw, r.iters, 0, 0⟩
        (s.updCore c (fun k => { k with engine := k.engine ++ [x], run := k.run.map (fun r => { r with held := true }) })).settleMma c
/-- `MMA` (R405). -/
def execMma (acc : BitVec 1) (kb : BitVec 4) (b a : BitVec 6) (t : BitVec 5) (s : State) : Host.Outcome State Fault Refusal :=
  .next (s.issueMma s.cur.core (encodeWord (.mma acc kb b a t)) acc.toNat (kb.toNat + 1) b.toNat a.toNat t.toNat)

/-- A K-block as B's format reads it. -/
def KBlock.forB (x : KBlock) : KBlock :=
  match x.twin with
  | some t => { x with lines := t.1, scales := t.2 }
  | none => x
/-- The next K-block of an operand for the engine's first word: from its buffer, or read now; none while it waits (R149). -/
def State.takeOperand (s : State) (c : Nat) (x : Issued) (isB : Bool) : Option (KBlock × State) :=
  let e := if isB then x.eb else x.ea
  let d := castKey (s.block x.blk).launch (if isB then x.db else x.da)
  let f := if isB then fmtB x.fmt else fmtA x.fmt
  if opdMcast e = 0 then some (s.fetchKBlock c x.blk e f (fmtK x.fmt) x.n x.kb x.iters)
  else match (s.core c).mcast.getD d [] with
    | [] => none
    | y :: t => some (y, s.updCore c (fun k => { k with mcast := k.mcast.set [] d t }))
/-- The next K-blocks of both operands; one delivery serves an `MMA` that names its multicast descriptor twice (R149). -/
def State.takeOperands (s : State) (c : Nat) (x : Issued) : Option (KBlock × KBlock × State) :=
  (s.takeOperand c x false).bind (fun a =>
    if opdMcast x.ea ≠ 0 && x.da = x.db then some (a.1, a.1.forB, a.2)
    else (a.2.takeOperand c x true).map (fun b => (a.1, b.1, b.2)))

/-- K_BLOCK_END: the engine's current K-block ends; after its last, the next word's first begins (R151, R458). A poisoned operand or a
poisoned tile that is added to is consumed (R156, R277). -/
def State.endKBlock (s : State) (c : Nat) : State :=
  match (s.core c).engine with
  | [] => s
  | x :: more =>
    match s.takeOperands c x with
    | none => s
    | some (a, b, s1) =>
      if a.bad || b.bad || (!((s.core c).tile x.tile).bad.isEmpty && (x.acc || x.kb ≠ 0)) then
        s.consume (s.block x.blk).launch (some (s.block x.blk).id)
      else
        let s2 := s1.updTile c x.tile (fun t =>
          (if x.kb = 0 && !x.acc then t.zeroed else t).multiply (fmtA x.fmt) (fmtB x.fmt) (fmtK x.fmt) a b)
        if x.kb + 1 < x.n then s2.updCore c (fun k => { k with engine := { x with kb := x.kb + 1 } :: more })
        else (s2.updCore c (fun k => { k with engine := more })).settleMma c
/-- K_BLOCK_END (R151). -/
def execKBlockEnd (core : Nat) (s : State) : Host.Outcome State Fault Refusal := .next (s.endKBlock core)

/-- The deliveries in a buffer, the one under way among them (R149). -/
def deliveriesIn (buf : List KBlock) : Nat :=
  (buf.filter (fun y => y.kb = 0)).length + (match buf with | y :: _ => bit01 (y.kb ≠ 0) | [] => 0)
/-- MULTICAST_DELIVERY: the fetcher's next K-block of a descriptor reaches the buffer of its launch in every member, one whose block is not
placed yet or is saved too; a delivery begins when no member holds two (R149). -/
def State.deliverMulticast (s : State) (c d : Nat) : State :=
  let isA (x : Issued) : Bool := x.da = d && opdMcast x.ea ≠ 0 && fetcherOf c x.ea = c && x.fa < x.n
  let isB (x : Issued) : Bool := x.db = d && x.da ≠ d && opdMcast x.eb ≠ 0 && fetcherOf c x.eb = c && x.fb < x.n
  match (s.core c).engine.find? (fun x => isA x || isB x) with
  | none => s
  | some x =>
    let l := (s.block x.blk).launch
    let a := isA x
    let e := if a then x.ea else x.eb
    let kb := if a then x.fa else x.fb
    let ms := membersOf c e
    if kb = 0 && ms.any (fun m => 2 ≤ deliveriesIn (s.castBuffer l m d)) then s
    else
      let twin := if a && x.db = d && fmtA x.fmt ≠ fmtB x.fmt then some (fmtB x.fmt) else none
      let r := s.fetchKBlock c x.blk e (if a then fmtA x.fmt else fmtB x.fmt) (fmtK x.fmt) x.n kb x.iters twin
      let s1 := ms.foldl (fun s m => s.castTo l d r.1 m) r.2
      let y := if a then { x with fa := x.fa + 1 } else { x with fb := x.fb + 1 }
      ms.foldl (fun s m => s.settleMma m) (s1.updCore c (fun k => { k with engine := replaceFirst x y k.engine }))
where
  /-- Replace the first occurrence. -/
  replaceFirst (x y : Issued) : List Issued → List Issued
    | [] => []
    | z :: t => if z = x then y :: t else z :: replaceFirst x y t
/-- MULTICAST_DELIVERY (R149). -/
def execMulticastDelivery (core desc : Nat) (s : State) : Host.Outcome State Fault Refusal := .next (s.deliverMulticast core desc)

/-! ## MZERO, MLOOP, MBAR, MEND (R153, R154, R401, R404, R409) -/

/-- A tile that an `MMA` in the engine or a drain not yet released holds (R154). -/
def Core.tileBusy (k : Core) (t : Nat) : Bool := k.engine.any (fun x => x.tile = t) || (k.tile t).held ≠ 0
/-- `MZERO` (R409). -/
def execMzero (n t : BitVec 5) (s : State) : Host.Outcome State Fault Refusal :=
  .next (
    let c := s.cur.core
    let ts := (upTo (n.toNat + 1)).map (fun i => t.toNat + i)
    if (s.core c).run.isNone || ts.any (fun i => (s.core c).tileBusy i) then s
    else (ts.foldl (fun s i => s.updTile c i Tile.zeroed) s).passWord c)
/-- `MLOOP` (R404). -/
def execMloop (o : BitVec 20) (c : BitVec 2) (s : State) : Host.Outcome State Fault Refusal :=
  .next (s.updRun s.cur.core (fun r =>
    let v := r.l.getD c.toNat 0
    if v = 0 then { r with l := setAt r.l c.toNat (BitVec.ofNat 16 (fieldN (r.entry 0) (16 * c.toNat) 16)), pc := r.pc + 4 }
    else { r with l := setAt r.l c.toNat (v - 1), pc := r.pc + (o.signExtend 64 <<< 2) }))
/-- An arrival of the sequencer takes effect now: operands read, drains written (R154). -/
def Core.mayArrive (k : Core) (r : Run) : Bool := k.engine.isEmpty && !(k.drainsLeft r.id)
/-- The output of a run's drains is visible at block scope as the sequencer arrives: its core gives up its L1 copies of the lines, and the
grants of them on their way are asked for again (R154; the writes themselves touch none, R456). -/
def State.showDrained (s : State) (c : Nat) (r : Run) : State :=
  (s.updCore c (fun k => { k with l1 := k.l1.filter (fun e => !(e.1 ∈ r.wrote)), grants := k.grants.filter (fun g => !(g.line ∈ r.wrote)) })).updRun c
    (fun r => { r with wrote := [] })
/-- The body of a word that arrives at a barrier. -/
def State.seqBarrier (s : State) (word n : Nat) (k2 : Nat → Run → State → State) : State :=
  let c := s.cur.core
  match (s.core c).run with
  | none => s
  | some r =>
    if r.bmask / 2 ^ n % 2 = 0 then s.seqError c word
    else if r.standing.isSome || !((s.core c).mayArrive r) then s
    else k2 c r (s.showDrained c r)
/-- `MBAR` (R401). -/
def execMbar (n : BitVec 4) (s : State) : Host.Outcome State Fault Refusal :=
  .next (s.seqBarrier (encodeWord (.mbar n)) n.toNat (fun c r s =>
    (s.updRun c (fun r => { r with standing := some n.toNat })).seqArrive r.blk n.toNat))
/-- `MBAR.ARRIVE` (R401). -/
def execMbarArrive (n : BitVec 4) (s : State) : Host.Outcome State Fault Refusal :=
  .next (s.seqBarrier (encodeWord (.mbarArrive n)) n.toNat (fun c r s => (s.seqArrive r.blk n.toNat).passWord c))
/-- `MEND` (R142, R401). -/
def execMend (n : BitVec 4) (s : State) : Host.Outcome State Fault Refusal :=
  .next (s.seqBarrier (encodeWord (.mend n)) n.toNat (fun c r s => (s.seqArrive r.blk n.toNat).endRun c))

end Sys2Proof.Machine
end

