-- ==== Sys2Proof/Machine/Drain.lean ====
section
/-!
DEFINITION. The drain, its checks and the store engine (R136, R159 to R166, R402).
-/
namespace Sys2Proof.Machine

/-! ## Descriptors (R155, R159, R160) -/

def outLstride (e : BitVec 256) (c : Nat) : Int := fieldI e (128 + 32 * c) 32
def outRstride (e : BitVec 256) : Nat := fieldN e 96 32
def outBase (e : BitVec 256) : Nat := fieldN e 32 56
def outSpad (e : BitVec 256) : Bool := bitN e 3
/-- An output (kind 2) or scale (kind 3) descriptor that meets R159. -/
def outOk (kind : Nat) (e : BitVec 256) : Bool :=
  let al := if kind = 2 then 16 else 4
  fieldN e 0 3 = kind && fieldN e 88 8 = 0 && fieldN e 4 28 = 0 && (upTo 4).all (fun c => fieldN e (128 + 32 * c) 32 % al = 0) &&
  outRstride e % al = 0 && outBase e % al = 0
/-- *d* of R159. -/
def outAt (e : BitVec 256) (iters : List Nat) : Int :=
  outBase e + (upTo 4).foldl (fun a c => a + (iters.getD c 0 : Nat) * outLstride e c) 0
def epiHi (e : BitVec 256) : Nat := fieldN e 224 32
def epiLo (e : BitVec 256) : Nat := fieldN e 192 32
def epiBoff (e : BitVec 256) : Nat := fieldN e 160 32
def epiSoff (e : BitVec 256) : Nat := fieldN e 128 32
def epiAct (e : BitVec 256) : Nat := fieldN e 5 3
def epiBias (e : BitVec 256) : Bool := bitN e 4
def epiScale (e : BitVec 256) : Bool := bitN e 3
/-- An epilogue entry that meets R160 and R155. -/
def epiOk (e : BitVec 256) : Bool :=
  fieldN e 0 3 = 4 && fieldN e 8 120 = 0 && !(4 ≤ epiAct e && epiAct e ≤ 6) && epiBoff e % 16 = 0 && epiSoff e % 16 = 0

/-- The drain format, rounding, saturation and default activation of a format word (R119). -/
def fmtDrain (w : W32) : Nat := fieldN w 12 4
def fmtRnd (w : W32) : Nat := fieldN w 16 2
def fmtSat (w : W32) : Bool := bitN w 18
def fmtAct (w : W32) : Nat := fieldN w 19 3
/-- An MX drain format (R161). -/
def mxDrain (f : Nat) : Bool := 2 ≤ f && f ≤ 7

/-! ## MDRAIN (R161, R162, R402) -/

/-- The bytes of a unit in staging (R162, R164): output, scales or checksums, and a carried checksum for each row. -/
def unitBytes (fw : W32) (scale : Bool) : Nat :=
  128 * (16 * fmtWidth (fmtDrain fw)) + (if scale then 512 else 0) + 512
def StageUnit.bytes (u : StageUnit) : Nat := unitBytes u.job.fmt u.job.scale.isSome
/-- Staging has room for a unit (R162). -/
def Core.stageRoom (k : Core) (n : Nat) : Bool := k.staging.foldl (fun a u => a + u.bytes) 0 + n ≤ 128 * 1024
/-- A column vector that an epilogue uses, as it lies in scratchpad, with its poison (R160). -/
def State.colVector (s : State) (b : Nat) (use : Bool) (off : Nat) : List W32 × Bool :=
  if use then ((upTo 128).map (fun i => BitVec.ofNat 32 (ofBytes ((s.block b).spadRead (off + 4 * i) 4))), (s.block b).spadBad off 512)
  else ([], false)
/-- The first used vector past the scratchpad (R160). -/
def State.vectorCause (s : State) (b : Nat) (e : BitVec 256) : Option Nat :=
  let lim := (s.block b).spadKiB * 1024
  if epiScale e && lim < epiSoff e + 512 then some (epiSoff e)
  else if epiBias e && lim < epiBoff e + 512 then some (epiBoff e) else none

/-- `MDRAIN`: it begins when the tile's `MMA`s are finished, no other drain is under way, and staging has room. -/
def State.beginDrain (s : State) (c word rel epi ds dout t : Nat) : State :=
  let k := s.core c
  match k.run with
  | none => s
  | some r =>
    let fw := (s.block r.blk).fmtSlot
    let eo := r.entry dout
    let es := r.entry ds
    let ep := r.entry (48 + epi)
    if k.engine.any (fun x => x.tile = t) || k.drain.isSome then s
    else if dout = 0 || 48 ≤ dout || 48 ≤ ds || !(outOk 2 eo) || (ds ≠ 0 && !(outOk 3 es)) || !(epiOk ep) ||
        (mxDrain (fmtDrain fw) && ds = 0) then s.seqError c word
    else match s.vectorCause r.blk ep with
      | some a => s.stopRun c (Report.plain 0x02 (BitVec.ofNat 64 a))
      | none =>
        if !(k.stageRoom (unitBytes fw (ds ≠ 0))) then s
        else
          let sv := s.colVector r.blk (epiScale ep) (epiSoff ep)
          let bv := s.colVector r.blk (epiBias ep) (epiBoff ep)
          if sv.2 || bv.2 then s.consume (s.block r.blk).launch (some (s.block r.blk).id)
          else
            let d : Drain := ⟨r.blk, r.floe, r.id, t, r.pc, rel = 1, eo, if ds = 0 then none else some es, ep, sv.1, bv.1, fw, r.iters,
              (s.block r.blk).drains, 0⟩
            ((s.updCore c (fun k => { k with drain := some d })).updTile c t (fun x => { x with held := x.held + 1 })
              |>.updBlock r.blk (fun b => { b with drains := b.drains + 1 })).passWord c
/-- `MDRAIN` (R402). -/
def execMdrain (r : BitVec 1) (e : BitVec 4) (sc o : BitVec 6) (t : BitVec 5) (s : State) : Host.Outcome State Fault Refusal :=
  .next (s.beginDrain s.cur.core (encodeWord (.mdrain r e sc o t)) r.toNat e.toNat sc.toNat o.toNat t.toNat)

/-! ## One row of the drain (R161, R165) -/

/-- A drained row: its element codes, its block scales, its carried checksum, whether the checksum is checked
to the end, and whether every check held. -/
structure DrainRow where
  codes  : List Nat
  scales : List Nat
  c3     : W32
  held   : Bool
  ok     : Bool
  deriving DecidableEq, Repr

/-- 2^e as a value. -/
def pow2Val (e : Int) : FVal := .fin false 1 e
/-- |x − y| ≤ bound. -/
def nearBy (x y bound : FVal) : Bool := (x.add y.neg).abs.le bound
/-- A list of words without a NaN or an infinity. -/
def allFinite (l : List Nat) : Bool := l.all (fun c => !(val32 c).isNan && !(val32 c).isInf)
/-- The FP32 words of drained elements. -/
def dequantised (f : Nat) (codes scales : List Nat) : List Nat :=
  (codes.zip (upTo 128)).map (fun p =>
    if mxDrain f then deqOne f p.1 (scales.getD (p.2 / 32) 0) else rn32 (codeVal f p.1))
/-- The precision of an unscaled drain format (R165). -/
def drainP (f : Nat) : Int := match f with | 0 => 8 | 1 => 11 | _ => 24
/-- *M* of R165. -/
def mxM (f : Nat) : Int := match f with | 2 => 3 | 3 => 2 | 4 => 2 | 5 => 3 | 6 => 1 | _ => 6
/-- τq of R165. -/
def tauQ (f : Nat) (scales : List Nat) (absSum : FVal) : FVal :=
  if mxDrain f then sumExact (scales.map (fun (sc : Nat) => (pow2Val ((sc : Int) - 127 + emaxOf f + 1 - mxM f)).scale 5))
  else absSum.scale (1 - drainP f)

/-- Row r of a drain of a tile for a block with a launch seed. -/
def drainRow (d : Drain) (seed blockid : Nat) (t : Tile) (r : Nat) : DrainRow :=
  let f := fmtDrain d.fmt
  let cs := (upTo 128).map (fun n => (t.at (r * 128 + n)).toNat)
  let sv (n : Nat) : Nat := (d.sv.getD n 0).toNat
  let bv (n : Nat) : Nat := (d.bv.getD n 0).toNat
  let ys := (cs.zip (upTo 128)).map (fun p =>
    match epiScale d.epi, epiBias d.epi with
    | false, false => p.1
    | true, false => fpMul fmt32 p.1 (sv p.2)
    | false, true => fpAdd fmt32 p.1 (bv p.2)
    | true, true => fpFma fmt32 p.1 (sv p.2) (bv p.2))
  let act := if epiAct d.epi = 7 then fmtAct d.fmt else epiAct d.epi
  let as := ys.map (activate act (epiLo d.epi) (epiHi d.epi))
  let hash (n : Nat) : Nat := stochHash seed (blockid % 2 ^ 18 * 2 ^ 14 + r * 128 + n) d.c1.toNat
  let blocks := (groupsOf 32 as 4).zip (upTo 4) |>.map (fun p => mxBlock f (fmtRnd d.fmt) (fun i => hash (p.2 * 32 + i)) p.1)
  let codes := if mxDrain f then (blocks.map (fun b => b.2)).flatten
    else (as.zip (upTo 128)).map (fun p => roundTo f (fmtRnd d.fmt) (fmtSat d.fmt) (hash p.2) (val32 p.1))
  let scales := if mxDrain f then blocks.map (fun b => b.1) else []
  let deq := dequantised f codes scales
  let v (l : List Nat) : List FVal := l.map val32
  let absSum (l : List Nat) : FVal := sumExact ((v l).map FVal.abs)
  let tiny := pow2Val (-126)
  let c := (t.csum r).toNat
  let c1 := if epiScale d.epi || epiBias d.epi then
      rn32 (sumExact ((cs.zip (upTo 128)).map (fun p =>
        ((if epiScale d.epi then (val32 p.1).mul (val32 (sv p.2)) else val32 p.1)).add
          (if epiBias d.epi then val32 (bv p.2) else .zero))))
    else rn32 (sumExact (v cs))
  let c2 := if act = 0 then c1 else sum32 as
  let c3 := sum32 deq
  -- a row that holds a NaN or an infinity, or whose block scale is 0xFF, has no check from there on; a checksum is no element of the row
  let g0 := allFinite cs
  let g1 := g0 && allFinite ys
  let g2 := g1 && allFinite as
  let g3 := g2 && allFinite deq && scales.all (fun x => x ≠ 0xFF)
  { codes := codes
    scales := scales
    c3 := BitVec.ofNat 32 c3
    held := g3
    ok := (!g0 || nearBy (sumExact (v cs)) (val32 c) (((val32 (t.msum r).toNat).scale (-12)).add tiny)) &&
      (!g1 || nearBy (sumExact (v ys)) (val32 c1) (((absSum ys).scale (-22)).add tiny)) &&
      (!g3 || nearBy (val32 c3) (val32 c2) ((tauQ f scales (absSum as)).add (((absSum as).scale (-22)).add tiny))) }

/-! ## DRAIN_STAGING (R162, R166) -/

/-- The failure that an upset of a core's drain stands for, if one is next (R166): its cause. -/
def Upset.drainFails (c : Nat) : Upset → Option Nat
  | .drainEntry k => if k = c then some 0x0A else none
  | .drainScale k => if k = c then some 0x0A else none
  | .drainQuant k => if k = c then some 0x0A else none
  | .drainAct k => if k = c then some 0x09 else none
  | _ => none
/-- The first failing upset of a core's drain, and the upsets left. -/
def takeDrainUpset (c : Nat) : List Upset → Option Nat × List Upset
  | [] => (none, [])
  | u :: t =>
    match u.drainFails c with
    | some e => (some e, t)
    | none => ((takeDrainUpset c t).1, u :: (takeDrainUpset c t).2)

/-- The writes of a unit (R159): rows of output, then scales or checksums. -/
def Drain.writes (d : Drain) (rows : List DrainRow) : List StageWrite :=
  let f := fmtDrain d.fmt
  let w (e : BitVec 256) (a : Int) (bs : List Byte) : StageWrite := ⟨outSpad e, addr64 a, bs⟩
  let rs := rows.zip (upTo 128)
  rs.map (fun p => w d.out (outAt d.out d.iters + p.2 * outRstride d.out) (toBytes (16 * fmtWidth f) (packCodes (fmtWidth f) p.1.codes))) ++
  (match d.scale with
   | none => []
   | some e =>
     if mxDrain f then rs.map (fun p => w e (outAt e d.iters + p.2 * outRstride e) (p.1.scales.map (fun x => BitVec.ofNat 8 x)))
     else rs.map (fun p => w e (outAt e d.iters + 4 * p.2) (toBytes 4 p.1.c3.toNat)))

/-- The drain ends without its unit: the cause is reported, and the run of the word stops (R156, R166). The tile stays unreleased. -/
def State.failDrain (s : State) (c : Nat) (d : Drain) (cause : Nat) : State :=
  let s1 := s.updCore c (fun k => { k with drain := none })
  let r := Report.plain cause d.wordVa
  if (s1.core c).run.any (fun x => x.id = d.run) then s1.stopRun c r else (s1.reportBlock d.blk r).settleRun c d.run

/-- DRAIN_STAGING: the begun drain's unit passes its checks and enters staging, or the drain repeats once. A drain that reads a poisoned
tile consumes it (R277). -/
def State.stageDrain (s : State) (c : Nat) : State :=
  match (s.core c).drain with
  | none => s
  | some d =>
    let t := (s.core c).tile d.tile
    let b := s.block d.blk
    let rows := (upTo 128).map (drainRow d (descSeed (s.launchOf d.blk).desc) b.id t)
    let u := takeDrainUpset c s.upsets
    let s1 := { s with upsets := u.2 }
    let failed : Option Nat := match u.1 with
      | some e => some e
      | none => if rows.all (fun r => r.ok) then none else some 0x0A
    if !t.bad.isEmpty then s.consume (s.block d.blk).launch (some (s.block d.blk).id)
    else match failed with
    | some e =>
      if d.repeats = 0 then s1.updCore c (fun k => { k with drain := some { d with repeats := 1 } }) else s1.failDrain c d e
    | none =>
      let unit : StageUnit := ⟨d, d.writes rows, rows.map (fun r => if r.held then some r.c3 else none), false, false⟩
      let s3 := s1.updCore c (fun k => { k with drain := none, staging := k.staging ++ [unit] })
      if d.release then s3.updTile c d.tile (fun t => { t with held := t.held - 1 }) else s3
/-- DRAIN_STAGING (R162). -/
def execDrainStaging (core : Nat) (s : State) : Host.Outcome State Fault Refusal := .next (s.stageDrain core)

/-! ## STAGING_UNIT_WRITE (R163, R166) -/

/-- The first cause among a unit's writes. -/
def State.unitCause (s : State) (b : Nat) (ws : List StageWrite) : Option (Nat × Nat) :=
  ws.findSome? (fun w => s.engWriteCause b (if w.spad then .spad else .virt) w.addr w.bytes.length)
/-- The lines of memory that a unit's writes lie in. -/
def State.unitLines (s : State) (b : Nat) (ws : List StageWrite) : List Nat :=
  dedupe (((ws.filter (fun w => !w.spad)).map (fun w => (chunksOf w.addr w.bytes.length).filterMap (fun c =>
    match s.unitPlace (s.asidOf b) .store c.1 with | .ok (.phys pa _ _) => some (pa / 128) | _ => none))).flatten)
/-- Make a unit's writes in order, up to one whose home answers with a cause (R214); scratchpad granules become full (R77). -/
def State.writeUnit (s : State) (b : Nat) (ws : List StageWrite) : State × Option (Nat × Nat) :=
  ws.foldl (fun (a : State × Option (Nat × Nat)) w =>
    if a.2.isSome then a
    else match a.1.engWrite b (if w.spad then .spad else .virt) w.addr (w.bytes.map (fun x => (x, false))) with
    | .cause e va => (a.1, some (e, va))
    | .ok _ s1 => (if w.spad then s1.updBlock b (fun x => (granulesIn (w.addr, w.bytes.length)).foldl (fun x g => x.setFull g true) x)
        else s1, none)) (s, none)
/-- The memory-write check of a unit's rows (R165): the dequantised bytes sum to the carried checksum. -/
def StageUnit.sumsHold (u : StageUnit) : Bool :=
  let f := fmtDrain u.job.fmt
  (u.sums.zip (upTo 128)).all (fun p =>
    match p.1 with
    | none => true
    | some c =>
      let x := ofBytes ((u.writes.getD p.2 ⟨false, 0, []⟩).bytes)
      let codes := (upTo 128).map (fun n => bitsOf x (n * fmtWidth f) (fmtWidth f))
      let scales := if mxDrain f then ((u.writes.getD (128 + p.2) ⟨false, 0, []⟩).bytes).map (fun y => y.toNat) else []
      sum32 (dequantised f codes scales) = c.toNat)
/-- A unit leaves staging: its tile is released if it was held till now, and its run may be settled (R142, R162). A repeat that has come so
far was corrected (R166). -/
def State.unitDone (s0 : State) (c : Nat) (u : StageUnit) : State :=
  let s := if u.job.repeats = 0 then s0 else s0.countEvent c 0
  let s1 := s.updCore c (fun k => { k with staging := k.staging.drop 1 })
  (if u.job.release then s1 else s1.updTile c u.job.tile (fun t => { t with held := t.held - 1 })).settleRun c u.job.run
/-- The oldest unit meets a cause: 0x01 keeps it, with a record that names the floe of the unit's own run, 0x05 holds it, any other discards
it and is reported (R156, R163, R202). -/
def State.unitMeets (s : State) (c : Nat) (u : StageUnit) (cause va : Nat) : State :=
  match cause % writing with
  | 0x01 =>
    (s.updCore c (fun k => { k with staging := { u with paused := true } :: k.staging.drop 1 })).engineRecord u.job.blk
      (u.job.floe % 256) 5 3 va
  | 0x05 => s
  | e => (s.unitDone c u).reportBlock u.job.blk (Report.plain e (BitVec.ofNat 64 va))
/-- STAGING_UNIT_WRITE: the store engine writes the oldest unit (R163). A unit that repeats enters staging again behind those that stand there
(R166 does not say where, log entry 67). -/
def State.storeUnit (s : State) (c : Nat) : State :=
  match (s.core c).staging with
  | [] => s
  | u :: more =>
    if u.paused || s.invs.any (fun i => i.asid = s.asidOf u.job.blk) then s
    else if u.bad then s.consume (s.block u.job.blk).launch (some (s.block u.job.blk).id)
    else match s.unitCause u.job.blk u.writes with
      | some (e, va) => s.unitMeets c u e va
      | none =>
        let upset := s.upsets.any (fun x => x = .drainWrite c)
        if upset || !u.sumsHold then
          let s1 := { s with upsets := s.upsets.erase (.drainWrite c) }
          if u.job.release then s1.consume (s.block u.job.blk).launch (some (s.block u.job.blk).id)
          else if (s.core c).drain.isSome then s
          else
            let s2 := s1.updCore c (fun k => { k with staging := more, drain := some { u.job with repeats := 1 } })
            if u.job.repeats = 0 then s2 else s2.failDrain c u.job 0x0A
        else
          let lns := s.unitLines u.job.blk u.writes
          let w := s.writeUnit u.job.blk u.writes
          let s1 := w.1.updRun c (fun r => if r.id = u.job.run then { r with wrote := dedupe (r.wrote ++ lns) } else r)
          match w.2 with
          | none => s1.unitDone c u
          | some (e, va) => (if e % writing = 0x01 then s1 else s1.homeTold).unitMeets c u e va
/-- STAGING_UNIT_WRITE (R163). -/
def execStagingUnitWrite (core : Nat) (s : State) : Host.Outcome State Fault Refusal := .next (s.storeUnit core)

end Sys2Proof.Machine
end

