-- ==== Sys2Proof/Machine/Rime.lean ====
section
/-!
DEFINITION. The rime engine and its logs (R207 to R212, R307, R335 to R338).
-/
namespace Sys2Proof.Machine

/-! ## Records (R209) -/

/-- One bit step of CRC-32C, reflected. -/
def crcBit (c : Nat) : Nat := if c % 2 = 1 then Nat.xor (c / 2) 0x82F63B78 else c / 2
/-- One byte of CRC-32C. -/
def crcByte (c : Nat) (b : Byte) : Nat := (upTo 8).foldl (fun x _ => crcBit x) (Nat.xor c b.toNat)
/-- CRC-32C (Castagnoli) of bytes. -/
def crc32c (bs : List Byte) : Nat := Nat.xor (bs.foldl crcByte 0xFFFFFFFF) 0xFFFFFFFF
/-- A record's header and payload. -/
def recordBytes (asid launch tag seq : Nat) (dpoint : Bool) (payload : List Byte) : List Byte :=
  let head := payload.length + seq % 2 ^ 64 * 2 ^ 64 + bit01 dpoint * 2 ^ 128 + asid % 2 ^ 16 * 2 ^ 144 +
    launch % 2 ^ 32 * 2 ^ 160 + tag % 2 ^ 32 * 2 ^ 192
  let h28 := toBytes 28 head
  h28 ++ toBytes 4 (crc32c (h28 ++ payload)) ++ payload

/-- The flash stacks that `n` bytes at a PA land in have spare left (R307): an eighth of 1 TiB each. -/
def State.spareLeft (s : State) (pa n : Nat) : Bool :=
  (upTo 8).all (fun k => !(k * 2 ^ 40 < paOff pa + n && paOff pa < (k + 1) * 2 ^ 40) || s.spare.getD k 0 < 2 ^ 37)

/-- Accept a record of a log (R210, R211): its number, and the state. -/
def State.putRecord (s : State) (k asid launch tag : Nat) (dpoint : Bool) (stager : Option Nat) (bs : List PByte) :
    Nat × State :=
  match s.logs.get? k with
  | none => (0, s)
  | some g =>
    let bytes := recordBytes asid launch tag g.nextSeq dpoint (bs.map (fun x => x.1))
    let r : LogRec := ⟨g.nextSeq, g.nextOff, bytes, stager, false,
      ((bs.zip (upTo bs.length)).filter (fun e => e.1.2)).map (fun e => e.2 + 32)⟩
    let g1 : Log := { g with recs := g.recs ++ [r], nextSeq := g.nextSeq + 1, nextOff := g.nextOff + bytes.length,
                             stager := if stager.isSome then stager else g.stager }
    let s1 := { s with logs := s.logs.put k g1 }
    (g.nextSeq, if stager.isSome then s1 else s1.commitLog k)

/-! ## APND (R208, R336, R337) -/

/-- What acceptance comes to. -/
inductive Accept where
  | wait
  | cause (c va : Nat)
  | done (seq : Nat) (s : State)

/-- The first tier-2 byte of a source, or the first cause of R196, with cause 0x04 for tier 2 (R208). -/
def State.apndCause (s : State) (asid va n : Nat) : Option (Nat × Nat) :=
  (chunksOf va n).findSome? (fun c => match s.unitPlace asid .load c.1 with
    | .cause e => some (e, c.1)
    | .ok (.phys pa _ _) => if paTier pa = 2 then some (0x04, c.1) else none
    | .ok _ => none)
/-- A log takes the append of a launch now (R211). -/
def Log.takes (g : Log) (l : Nat) : Bool := match g.stager with | none => true | some x => x = l
/-- The rime engine accepts an append (R457 steps 1 to 4). -/
def State.acceptApnd (s : State) (f : Nat) (c : EngCmd) : Accept :=
  let b := blockOf f
  let l := (s.block b).launch
  let asid := s.asidOf b
  let n := c.at 1
  let k := c.req.toNat % 4096
  if 4096 ≤ c.req.toNat || n < 16 || 262144 < n || n % 16 ≠ 0 then .cause 0x0B c.req.toNat
  else match c.ctrOdd with
    | some v => .cause 0x03 v
    | none =>
      match s.logs.get? k with
      | none => .cause 0x02 c.req.toNat
      | some g =>
        if g.asid ≠ asid then .cause 0x02 c.req.toNat
        else if !(g.takes l) then .wait
        else if g.len < g.nextOff + 32 + n || !(s.spareLeft (g.pa + g.nextOff) (32 + n)) then .cause 0x04 c.req.toNat
        else match (s.apndCause asid (c.at 0) n).or (c.ctrAperture.map (fun v => (0x02, v))) with
          | some e => .cause e.1 e.2
          | none =>
            match s.vaLoad l (dieOfCore (coreOf b)) asid .load (c.at 0) n c.held with
            | .cause e v => .cause e v
            | .ok bs s1 =>
              let r := s1.putRecord k asid l (c.at 2) (c.kind ≠ .apnd) (if s.replayable l then some l else none) bs
              .done r.1 r.2

/-- A record and every lower one of its log are durable, or the log is gone (R210). -/
def State.durableTo (s : State) (k seq : Nat) : Bool :=
  match s.logs.get? k with
  | none => true
  | some g => g.recs.all (fun r => seq < r.seq || r.flash)

/-- RECORD_DURABLE: the oldest record not in flash reaches it, and the durable tail follows (R210). -/
def State.recordDurable (s : State) (k : Nat) : State :=
  match s.logs.get? k with
  | none => s
  | some g =>
    match g.recs.find? (fun r => !r.flash) with
    | none => s
    | some r =>
      let g1 : Log := { g with recs := g.recs.map (fun x => if x.seq = r.seq then { x with flash := true } else x),
                               durable := r.off + r.bytes.length }
      { s with logs := s.logs.put k g1 }
/-- RECORD_DURABLE (R210). -/
def execRecordDurable (log : Nat) (s : State) : Host.Outcome State Fault Refusal := .next (s.recordDurable log)

/-! ## Opening and closing (R207, R304) -/

/-- The whole range of VAs lies in tier 2, in one run of PAs: its first PA and its key slot (R215). -/
def State.tier2Run (s : State) (asid va n : Nat) : Option (Nat × Nat) :=
  match s.unitPlace asid .load va with
  | .ok (.phys pa key _) =>
    if paTier pa = 2 && n ≠ 0 && (upTo ((n + 2 ^ 16 - 1) / 2 ^ 16 + 1)).all (fun i =>
        match s.unitPlace asid .load (va + Nat.min (i * 2 ^ 16) (n - 1)) with
        | .ok (.phys q _ _) => q = pa + Nat.min (i * 2 ^ 16) (n - 1)
        | _ => false) then some (pa, key) else none
  | _ => none
/-- The lines of a run of PAs that an agent holds go: a new log's bytes read as 0x00 from its opening on (R205). -/
def State.dropRun (s : State) (pa n : Nat) : State :=
  (upTo 13).foldl (fun s d => ((s.die d).stack.keys.filter (fun ln => pa < ln * 128 + 128 && ln * 128 < pa + n)).foldl
    (fun s ln => s.probeOthers none ln) s) s
/-- Service 5: status and log number, the lowest that is free (log entry 68). -/
def State.openLogAt (s : State) (asid va n : Nat) : Nat × Nat × State :=
  match (upTo 4096).find? (fun k => (s.logs.get? k).isNone) with
  | none => (4, 0, s)
  | some k =>
    if 2 ^ 56 ≤ va || 2 ^ 44 < n then (1, 0, s)
    else match s.tier2Run asid va n with
      | none => (1, 0, s)
      | some (pa, key) => let s1 := s.dropRun pa n; (0, k, { s1 with logs := s1.logs.put k ⟨asid, pa, n, 0, 0, 0, 0, 0, none, [], key⟩ })
/-- Service 6: status. -/
def State.closeLogAt (s : State) (asid k : Nat) : Nat × State :=
  match s.logs.get? k with
  | none => (1, s)
  | some g => if g.asid = asid then (0, { s with logs := s.logs.del k }) else (1, s)

end Sys2Proof.Machine
end

