-- ==== Sys2Proof/Machine/Net.lean ====
section
/-!
DEFINITION. The network engine: work requests, windows, packets (R308 to R311, R425, R426).
-/
namespace Sys2Proof.Machine

/-! ## Work requests (R309) -/

def wrRoff (r : BitVec 512) : Nat := fieldN r 192 64
def wrLaddr (r : BitVec 512) : Nat := fieldN r 128 64
def wrLen (r : BitVec 512) : Nat := fieldN r 96 32
def wrWindow (r : BitVec 512) : Nat := fieldN r 80 16
def wrPeer (r : BitVec 512) : Nat := fieldN r 64 16
def wrNotify (r : BitVec 512) : Bool := bitN r 2
def wrIdem (r : BitVec 512) : Bool := bitN r 1
/-- The checks of R309 for either direction; an idempotent window counts in units of 64 bytes (R310). -/
def wrOk (send : Bool) (r : BitVec 512) : Bool :=
  fieldN r 320 192 = 0 && fieldN r 3 61 = 0 && !(bitN r 0) && wrLaddr r < 2 ^ 56 && 1 ≤ wrLen r && wrLen r ≤ 2 ^ 30 &&
  wrWindow r ≤ 4095 && wrPeer r ≤ 4095 && (send || (wrRoff r = 0 && wrPeer r = 0)) &&
  (!(wrIdem r) || (wrLen r % 64 = 0 && wrRoff r % 64 = 0))

/-- The tag of a work request (R309). -/
def wrTag (r : BitVec 512) : W64 := BitVec.ofNat 64 (fieldN r 256 64)
/-- A work request's buffer meets the register aperture: a `SEND` then sends nothing (R69). -/
def wrAperture (c : EngCmd) (r : BitVec 512) : Option Nat :=
  (chunksOf (addr64 (wrLaddr r + c.at 0)) (wrLen r)).findSome? (fun x => if inAperture x.1 then some x.1 else none)

/-- Read a command's work request, with steps 1 to 3 of R457, and the aperture (R69). -/
def State.readWr (s : State) (f : Nat) (c : EngCmd) : Got (BitVec 512) :=
  let b := blockOf f
  let a := c.req.toNat
  if a % 64 ≠ 0 then .cause 0x03 a
  else match c.ctrOdd with
    | some v => .cause 0x03 v
    | none =>
      (s.readRecord b a c.held).bind (fun r s1 =>
        if !(wrOk (c.kind = .send) r) then .cause 0x0B a
        else match (wrAperture c r).or c.ctrAperture with
          | some v => .cause 0x02 v
          | none => .ok r s1)

/-! ## Windows (R310) -/

/-- How far ranges cover the bytes from x on without a gap. -/
def coverTo (rs : List (Nat × Nat)) : Nat → Nat → Nat
  | 0, x => x
  | fuel + 1, x =>
    match rs.find? (fun r => r.1 ≤ x && x < r.1 + r.2) with
    | some r => coverTo rs fuel (r.1 + r.2)
    | none => x
/-- A window is filled: as many bytes placed as it is long, or, where it is idempotent, every 64-byte unit written whole (R310). -/
def RecvWindow.filled (w : RecvWindow) : Bool :=
  if w.idem then w.len ≤ coverTo w.units w.units.length 0 else w.len ≤ w.placed
/-- Mark an engine command finished; it holds no translation any more. -/
def State.finishCmd (s : State) (f seq : Nat) : State :=
  s.updFloe f (fun fl => { fl with cmds := fl.cmds.map (fun c => if c.seq = seq then { c with finished := true, held := [] } else c) })
/-- The `RECV` of a window is finished, in its floe or in the floe's saved image (R270). -/
def State.finishRecv (s : State) (w : RecvWindow) : State :=
  if (s.floes.get? w.floe).isSome && (s.block (blockOf w.floe)).launch = w.launch then s.finishCmd w.floe w.cmd
  else
    let done (fl : Floe) : Floe := { fl with cmds := fl.cmds.map (fun c => if c.seq = w.cmd then { c with finished := true } else c) }
    { s with images := s.images.map (fun i =>
        if i.launch = w.launch then { i with floes := i.floes.map (fun e => if e.1 = w.floe then (e.1, done e.2) else e) } else i) }
/-- A filled window completes its `RECV`, with an entry in the completion log (R309); a non-idempotent one closes. -/
def State.windowFills (s : State) (n : Nat) : State :=
  match s.windows.get? n with
  | none => s
  | some w =>
    if w.mailbox || !w.filled then s
    else
      let s0 := if w.orphan then s else s.finishRecv w
      let s1 := { s0 with recvLog := s0.recvLog ++ [(w.asid, n, w.tag)] }
      if w.idem then s1 else { s1 with windows := s1.windows.del n }

/-- What a packet meets at its window. -/
inductive Placed where
  | notReady
  | refused
  | done (s : State)

/-- Place a packet's bytes at an offset of a window (R308, R310, R311); a message that lands in a mailbox triggers its task (R37). -/
def State.placePacket (s : State) (n off : Nat) (idem : Bool) (tag : W64) (bs : List PByte) : Placed :=
  match s.windows.get? n with
  | none => .notReady
  | some w =>
    if w.len < off + bs.length || w.idem ≠ idem then .refused
    else match s.vaStore w.launch none w.asid (w.va + off) bs with
      | .cause _ _ => .notReady
      | .ok _ s1 =>
        let units := if (off, bs.length) ∈ w.units then w.units else w.units ++ [(off, bs.length)]
        let w1 : RecvWindow := { w with placed := w.placed + bs.length, units := units, tag := tag }
        let s2 := { s1 with windows := s1.windows.put n w1 }.trigger w.asid (w.va + off) bs.length
        -- a later packet into a window that was filled rewrites its bytes and completes nothing (R310)
        .done (if w.filled then s2 else s2.windowFills n)

/-- The end of a window that a send would pass, or an idem flag that differs, refuses the send (R311). -/
def State.sendRefused (s : State) (n off len : Nat) (idem : Bool) : Bool :=
  match s.windows.get? n with
  | none => false
  | some w => w.len < off + len || w.idem ≠ idem

/-- A `RECV` opens its window, or joins the one that a rolled-back run left (R310, R425). -/
def State.openWindow (s : State) (f : Nat) (c : EngCmd) (r : BitVec 512) : Got Unit :=
  let b := blockOf f
  let l := (s.block b).launch
  let va := addr64 (wrLaddr r + c.at 0)
  let n := wrWindow r
  let own (s : State) : State := s.updFloe f (fun fl =>
    { fl with cmds := fl.cmds.map (fun x => if x.seq = c.seq then { x with windowNo := some n, notify := wrNotify r } else x) })
  match s.windows.get? n with
  | some w =>
    if w.orphan && w.launch = l && w.idem && wrIdem r then
      .ok () ({ own s with windows := s.windows.put n { w with floe := f, cmd := c.seq, orphan := false } }.windowFills n)
    else .cause 0x02 c.req.toNat
  | none =>
    match s.storeCause (s.asidOf b) va (wrLen r) with
    | some e => .cause (e.1 + writing) e.2
    | none =>
      let s1 := if wrIdem r then s else s.makeNonReplayable l
      .ok () { own s1 with windows := s1.windows.put n ⟨s.asidOf b, va, wrLen r, wrIdem r, false, l, f, c.seq, 0, [], false, 0⟩ }

/-! ## Sending (R311) -/

/-- One packet of a send: up to 4 KiB of its source. -/
def State.sendPacket (s : State) (f : Nat) (c : EngCmd) (r : BitVec 512) : Got Unit :=
  let b := blockOf f
  let n := Nat.min 4096 (wrLen r - c.progress)
  let off := addr64 (wrRoff r + c.at 1) + c.progress
  (s.engRead b .virt (addr64 (wrLaddr r + c.at 0) + c.progress) n c.held).bind (fun bs s1 =>
    let adv (s : State) : State := s.updFloe f (fun fl =>
      { fl with cmds := fl.cmds.map (fun x => if x.seq = c.seq then { x with progress := c.progress + n, held := [] } else x) })
    if wrPeer r = s.selfPeer then
      match s1.placePacket (wrWindow r) off (wrIdem r) (wrTag r) bs with
      | .done s2 => .ok () (adv s2)
      | .notReady => .ok () s1
      | .refused => .cause 0x02 c.req.toNat
    else
      let pk : Packet := ⟨wrPeer r, wrWindow r, s.asidOf b, off, wrIdem r, bs.map (fun x => x.1), f, c.seq, wrTag r⟩
      .ok () { adv s1 with packets := s1.packets ++ [pk] })

/-- NETWORK_PACKET_PLACEMENT (R308, R310); a peer's tag is its own (log entry 9). -/
def execNetworkPacketPlacement (asid window off : Nat) (idem : Bool) (data : List Byte) (s : State) :
    Host.Outcome State Fault Refusal :=
  .next (match s.draw.2.placePacket window off idem s.draw.1 (data.map (fun b => (b, false))) with
    | .done s1 => if asid < 2 ^ 16 && data.length ≤ 4096 then s1 else s
    | _ => s)
/-- PACKET_RETRANSMISSION: a send's oldest packet in flight goes out again (R308). -/
def execPacketRetransmission (f seq : Nat) (s : State) : Host.Outcome State Fault Refusal :=
  .next (match s.packets.find? (fun p => p.floe = f && p.seq = seq) with
    | none => s
    | some p => { s with packets := s.packets.erase p ++ [p] })

end Sys2Proof.Machine
end

