-- ==== Sys2Proof/Machine/Engine.lean ====
section
/-!
DEFINITION. Engine commands: issue (R177), guards (R184, R382, R383), progress by frames and units (R200, R456), failures and pauses
(R179), completion and counters (R172, R175).
-/
namespace Sys2Proof.Machine

/-! ## Progress -/

/-- How far a step of an engine goes: to the command's end, to the next frame boundary, by one unit. -/
inductive EngMode where
  | all | frame | one
  deriving DecidableEq, Repr

/-- Change a command of a floe. -/
def State.updCmd (s : State) (f seq : Nat) (g : EngCmd → EngCmd) : State :=
  s.updFloe f (fun fl => { fl with cmds := fl.cmds.map (fun c => if c.seq = seq then g c else c) })
/-- The cause that an engine reports (R179): 0x0B carries reason 13, layout 6 and the address. -/
def engineReport (c va : Nat) : Report :=
  if c = 0x0B then ⟨0x0B, BitVec.ofNat 64 va, 0, BitVec.ofNat 64 (6 * 2 ^ 8 + 13), BitVec.ofNat 64 va⟩
  else Report.plain c (BitVec.ofNat 64 va)
/-- The fault record's source of a command (R202). -/
def EngKind.source : EngKind → Nat
  | .apnd => 5 | .apndDur => 5 | .apndSync => 5 | _ => 1
/-- A launch is being wound up: its engines stop at their next frame boundaries (R259, R287). -/
def State.winding (s : State) (b : Nat) : Bool := (s.launchOf b).phase = .rolledBack || (s.launchOf b).phase = .halting
/-- A command meets a cause (R179, R206): absent pauses it, firn latency holds it under the translations it has made (R199), poison it reads
is consumed (R277), of a launch that is being wound up already it ends the command, any other cause ends it and is reported. -/
def State.engineCause (s : State) (f : Nat) (c : EngCmd) (cause va : Nat) : State :=
  match cause % writing with
  | 0x01 => (s.updCmd f c.seq (fun x => { x with pausedAt := some (BitVec.ofNat 64 va), held := [] })).engineRecord (blockOf f)
      ((s.floe f).base / 16) (if writing ≤ cause then 5 else if c.kind = .cfetch then 3 else 4) c.kind.source va
  | 0x05 => s.updCmd f c.seq (fun x =>
      { x with held := s.holdFrames (s.asidOf (blockOf f)) x.held (x.held.map (fun h => h.va / 2 ^ 16) ++ [va / 2 ^ 16]) })
  | 0x0D =>
    if s.winding (blockOf f) then (s.updCmd f c.seq (fun x => { x with ctr := none })).finishCmd f c.seq
    else s.consume (s.block (blockOf f)).launch (some (s.block (blockOf f)).id)
  | e =>
    let s1 := ((if s.atPeer (s.asidOf (blockOf f)) va then s.homeTold else s).updCmd f c.seq (fun x =>
      { x with ctr := none })).finishCmd f c.seq
    let s2 := if c.kind = .cfetch then s1.slotEnds f c false else s1
    { s2 with packets := s2.packets.filter (fun p => !(p.floe = f && p.seq = c.seq)) }.report f (engineReport e va)

/-- The record that a command read, with its checks passed, before it moved anything (R357, R457); it is read once. -/
def State.recordOf (s : State) (f : Nat) (c : EngCmd) (start : Got (BitVec 512)) : Got (BitVec 512) :=
  match c.shape with
  | some r => .ok r s
  | none => start.bind (fun r s1 => .ok r (s1.updCmd f c.seq (fun x => { x with shape := some r })))
/-- A command with a shape record. -/
def EngKind.shaped : EngKind → Bool
  | .cpy => true | .gath => true | .scat => true | .cpyMx => true | .cpyUnmx => true | _ => false
/-- Units of a plan move as a step goes: with `pend`, and in a step to the next frame boundary after its first unit, the engine stands where
it would begin a frame (R200). -/
def EngPlan.go (p : EngPlan) (b : Nat) (pend : Bool) (m : EngMode) (k : Nat) (h : List Xlat) (s : State) : EngRun :=
  match m with
  | .all => p.run b pend (fun _ _ => false) (p.total - k) k h s
  | .one => p.run b pend (fun s k => p.whole s k) (p.total - k) k h s
  | .frame =>
    let r := p.run b pend (fun _ _ => true) (p.total - k) k h s
    if r.next = k || r.cause.isSome then r else p.run b true (fun _ _ => false) (p.total - r.next) r.next r.held r.s
/-- A copy-class command with a shape record moves (R181 to R183, R200); `pend` stops it at its next frame boundary. -/
def State.moveShape (s : State) (f : Nat) (c : EngCmd) (pend : Bool) (m : EngMode) : State :=
  let b := blockOf f
  if pend && c.shape.isNone && c.held.isEmpty then s
  else match s.recordOf f c (s.shapeStart b c) with
  | .cause e va => s.engineCause f c e va
  | .ok x s0 =>
    let p := shapePlan b c x
    let r := p.go b pend m c.progress c.held s0
    let s1 := r.s.updCmd f c.seq (fun x => { x with progress := r.next, held := r.held })
    match r.cause with
    | some e => s1.engineCause f { c with progress := r.next, held := r.held } e.1 e.2
    | none => if p.total ≤ r.next then s1.finishCmd f c.seq else s1
/-- A command that moves data stands within a 64 KiB frame (R200). -/
def State.midFrame (s : State) (f : Nat) (c : EngCmd) : Bool :=
  !c.finished && c.pausedAt.isNone && c.kind.shaped &&
  (match c.shape with | some r => (shapePlan (blockOf f) c r).inFrame s c.held c.progress | none => !c.held.isEmpty)

/-- Packets of a send, `fuel` at most (R308). -/
def State.sendAll (f seq : Nat) (r : BitVec 512) : Nat → State → State
  | 0, s => s
  | fuel + 1, s =>
    match (s.floe f).cmds.find? (fun c => c.seq = seq) with
    | none => s
    | some c =>
      if c.finished || wrLen r ≤ c.progress then s
      else match s.sendPacket f c r with
        | .cause e va => s.engineCause f c e va
        | .ok _ s1 => State.sendAll f seq r fuel s1
/-- A send moves, and at its end takes the peer's answer: acknowledged, not ready, refused (R311, log entry 9). -/
def State.moveSend (s : State) (f : Nat) (c : EngCmd) (m : EngMode) : State :=
  match s.recordOf f c (s.readWr f c) with
  | .cause e va => s.engineCause f c e va
  | .ok r s0 =>
    let s1 := (if wrIdem r then s0 else s0.makeNonReplayable (s0.block (blockOf f)).launch).updCmd f c.seq
      (fun x => { x with notify := wrNotify r })
    let off := addr64 (wrRoff r + c.at 1)
    if wrPeer r ≠ s.selfPeer && !(wrPeer r ∈ s.routes) then s1.engineCause f c 0x10 (c.req.toNat)
    else if wrPeer r = s.selfPeer && s1.sendRefused (wrWindow r) off (wrLen r) (wrIdem r) then s1.engineCause f c 0x02 c.req.toNat
    else
      let s2 := State.sendAll f c.seq r (if m = .all then (wrLen r + 4095) / 4096 else 1) s1
      match (s2.floe f).cmds.find? (fun x => x.seq = c.seq) with
      | none => s2
      | some d =>
        if d.finished || d.progress < wrLen r then s2
        else if wrPeer r = s.selfPeer then s2.finishCmd f c.seq
        else
          let a := s2.peerAnswer
          match a.1.toNat % 4 with
          | 1 => a.2
          | 2 => a.2.engineCause f c 0x02 c.req.toNat
          | _ => { a.2 with packets := a.2.packets.filter (fun p => !(p.floe = f && p.seq = c.seq)) }.finishCmd f c.seq

/-- An earlier command of the class is held by its guard (R184), or an earlier append of the floe is not accepted (R210). -/
def Floe.cmdBehind (fl : Floe) (c : EngCmd) : Bool :=
  fl.cmds.any (fun d => d.seq < c.seq && !d.finished && d.cls = c.cls &&
    (d.guardSt = .held || (c.kind.source = 5 && d.kind.source = 5 && d.seqNo.isNone)))

/-- A command of a floe makes progress. While an invalidation of its address space is pending, or its launch is being wound up, an engine goes
to its frame boundary and stands there (R200, R259, R287); of a launch that is being wound up only a `SEND` runs on. -/
def State.engineStep (s : State) (f seq : Nat) (m : EngMode) : State :=
  match (s.floe f).cmds.find? (fun c => c.seq = seq) with
  | none => s
  | some c =>
    if c.finished || c.pausedAt.isSome || (s.floe f).cmdBehind c then s
    else match c.guardSt with
      | .held => s
      | .discarded =>
        if c.kind ≠ .cfetch then s.finishCmd f seq
        else if s.slotBehind f c then s
        else (s.finishCmd f seq).slotEnds f c false
      | .free =>
        let winding := s.winding (blockOf f)
        let pend := winding || s.invs.any (fun i => i.asid = s.asidOf (blockOf f))
        if c.cls ≠ .net && !c.kind.shaped && pend && c.held.isEmpty then s
        else match c.kind with
          | .cfetch =>
            if s.slotBehind f c || s.slotBusy (floeCore f) c.slot then s
            else match s.codeFetch f c with
              | .cause e va => s.engineCause f c e va
              | .ok _ s1 => (s1.updCmd f seq (fun x => { x with progress := 1 })).finishCmd f seq
          | .send => s.moveSend f c m
          | .recv =>
            if c.windowNo.isSome || winding then s
            else match s.readWr f c with
              | .cause e va => s.engineCause f c e va
              | .ok r s1 =>
                match s1.openWindow f c r with
                | .cause e va => s1.engineCause f c e va
                | .ok _ s2 => s2
          | .apnd => if winding then s else apnd c
          | .apndDur => if winding then s else apnd c
          | .apndSync => if winding then s else apnd c
          | _ => s.moveShape f c pend m
where
  /-- An append is accepted; the durable forms go on until the record is durable (R210). -/
  apnd (c : EngCmd) : State :=
    match c.seqNo with
    | some n => if s.durableTo (c.req.toNat % 4096) n then s.finishCmd f seq else s
    | none =>
      match s.acceptApnd f c with
      | .wait => s
      | .cause e va => s.engineCause f c e va
      | .done n s1 =>
        let s2 := s1.updCmd f seq (fun x => { x with seqNo := some n })
        if c.kind = .apnd then s2.finishCmd f seq else s2

/-! ## Completion (R172, R175) -/

/-- The oldest command of a class. -/
def Floe.headCmd (fl : Floe) (c : OpClass) : Option EngCmd := fl.cmds.find? (fun x => x.cls = c)
/-- Remove a command; a request's notify bit is set after the counters (R265, R425). The last one of the copies class ends the
hold of `APND.SYNC` (R210, R338). -/
def State.removeCmd (s : State) (f : Nat) (c : EngCmd) : State :=
  s.updFloe f (fun fl =>
    let fl1 : Floe := { fl with cmds := fl.cmds.filter (fun x => x.seq ≠ c.seq),
                                uipend := if c.notify then fl.uipend ||| 2 else fl.uipend }
    if fl1.hold && fl1.counter .copies = 0 then Floe.settleState { fl1 with hold := false } s.now else fl1)
/-- A finished command completes: the slot that a code fetch has written lands (R187), the counter gains 1, and a copy engine's write may
reach a mailbox (R37). -/
def State.endCmd (s0 : State) (f : Nat) (d : EngCmd) : State :=
  let s := if d.kind = .cfetch && d.progress = 1 then s0.slotEnds f d true else s0
  match d.ctr with
  | none => s.removeCmd f d
  | some a =>
    match s.counterAdd (s.block (blockOf f)).launch (some (dieOfCore (floeCore f))) (s.asidOf (blockOf f)) a.toNat with
    | .ok _ s1 => (if d.kind.source = 1 && d.cls = .copies then s1.trigger (s1.asidOf (blockOf f)) a.toNat 8 else s1).removeCmd f d
    | .cause 0x01 va => (s0.updCmd f d.seq (fun x => { x with pausedAt := some (BitVec.ofNat 64 va) })).engineRecord
        (blockOf f) ((s0.floe f).base / 16) 5 d.kind.source va
    | .cause 0x05 _ => s0
    | .cause 0x0D _ => s.consume (s.block (blockOf f)).launch (some (s.block (blockOf f)).id)
    | .cause e va => (s.removeCmd f d).report f (engineReport e va)
/-- The oldest command of a class completes (R172). -/
def State.completeCmd (s : State) (f : Nat) (k : OpClass) : State :=
  match (s.floe f).headCmd k with
  | none => s
  | some c =>
    let s1 := s.engineStep f c.seq .all
    match (s1.floe f).cmds.find? (fun x => x.seq = c.seq) with
    | none => s1
    | some d => if !d.finished || d.pausedAt.isSome then s1 else s1.endCmd f d

/-- ENGINE_COMMAND_COMPLETION (R172). -/
def execEngineCommandCompletion (f : Nat) (cls : OpClass) (s : State) : Host.Outcome State Fault Refusal :=
  .next (s.completeCmd f cls)
/-- ENGINE_FRAME_BOUNDARY: a command moves to its next 64 KiB boundary (R200). -/
def execEngineFrameBoundary (f seq : Nat) (s : State) : Host.Outcome State Fault Refusal := .next (s.engineStep f seq .frame)
/-- ENGINE_STACK_WRITE: a command moves on to the next place where no aligned 16 bytes are written in part (R229); its writes are those of
a die's unit (R456). -/
def execEngineStackWrite (f seq : Nat) (s : State) : Host.Outcome State Fault Refusal := .next (s.engineStep f seq .one)
/-- A step on the blocks and floes of a core's saved image, which stand in their places for it (R270). -/
def State.withImage (s : State) (i : CoreImage) (g : State → State) : State :=
  let here (f : Nat) : Bool := floeCore f = i.core
  let hereB (b : Nat) : Bool := coreOf b = i.core
  let t := g { s with floes := i.floes.foldl (fun t e => t.put e.1 e.2) (s.floes.filter (fun e => !(here e.1))),
                      blocks := i.blocks.foldl (fun t e => t.put e.1 e.2) (s.blocks.filter (fun e => !(hereB e.1))) }
  { t with
    images := t.images.map (fun x => if x.core = i.core && x.launch = i.launch then
      { x with floes := t.floes.filter (fun e => here e.1), blocks := t.blocks.filter (fun e => hereB e.1) } else x)
    floes := (s.floes.filter (fun e => here e.1)).foldl (fun u e => u.put e.1 e.2) (t.floes.filter (fun e => !(here e.1)))
    blocks := (s.blocks.filter (fun e => hereB e.1)).foldl (fun u e => u.put e.1 e.2) (t.blocks.filter (fun e => !(hereB e.1))) }
/-- A floe has a command of certain kinds. -/
def Floe.hasCmd (fl : Floe) (seq : Nat) (ks : List EngKind) : Bool := fl.cmds.any (fun c => c.seq = seq && c.kind ∈ ks)
/-- A change by a command of certain kinds, of a floe or of its saved image: `APND`, `SEND` and `RECV` run on while their block is saved
(R270). -/
def State.onCmd (s : State) (f seq : Nat) (ks : List EngKind) (g : State → State) : State :=
  if (s.floe f).hasCmd seq ks then g s
  else match s.images.find? (fun i => (i.floes.getD f Floe.reset).hasCmd seq ks) with
    | some i => s.withImage i g
    | none => s
/-- A step of such a command. -/
def State.stepKinds (s : State) (f seq : Nat) (ks : List EngKind) : State := s.onCmd f seq ks (fun s => s.engineStep f seq .all)
/-- CODE_SLOT_LANDING (R187). -/
def execCodeSlotLanding (f seq : Nat) (s : State) : Host.Outcome State Fault Refusal := .next (s.stepKinds f seq [.cfetch])
/-- RECORD_ACCEPTANCE (R210). -/
def execRecordAcceptance (f seq : Nat) (s : State) : Host.Outcome State Fault Refusal :=
  .next (s.stepKinds f seq [.apnd, .apndDur, .apndSync])
/-- PEER_NOT_READY_RETRY (R311). -/
def execPeerNotReadyRetry (f seq : Nat) (s : State) : Host.Outcome State Fault Refusal := .next (s.stepKinds f seq [.send])
/-- A send without acknowledgement fails with cause 0x10 (R311). -/
def State.timeoutSend (s : State) (f seq : Nat) : State :=
  match (s.floe f).cmds.find? (fun c => c.seq = seq) with
  | none => s
  | some c => if c.kind = .send && !c.finished && c.guardSt = .free && c.pausedAt.isNone then s.engineCause f c 0x10 c.req.toNat else s
/-- SEND_ACK_TIMEOUT (R311), also of a saved block, whose `SEND` runs on (R270). -/
def execSendAckTimeout (f seq : Nat) (s : State) : Host.Outcome State Fault Refusal :=
  .next (s.onCmd f seq [.send] (fun s => s.timeoutSend f seq))

/-! ## Issue (R177) -/

/-- The command that an E-layout instruction issues, with the operands captured. -/
def State.capture (s : State) (k : EngKind) (cls : OpClass) (n : Nat) (g : BitVec 4) (t c q : BitVec 6) : EngCmd :=
  { seq := s.fl.opSeq, kind := k, cls := cls, req := s.S q.toNat, coords := (upTo n).map (fun i => s.S (c.toNat + i)),
    ctr := if t = 63 then none else some (s.S t.toNat), guard := g.toNat, guardSt := if g.toNat < 8 then .held else .free,
    progress := 0, pausedAt := none, seqNo := none, windowNo := none, notify := false, shape := none, held := [], finished := false }
/-- Put a command into the floe's queue. -/
def State.enqueue (s : State) (c : EngCmd) : State :=
  s.updFl (fun fl => { fl with cmds := fl.cmds ++ [c], opSeq := fl.opSeq + 1 })
/-- The body of an engine command's instruction: n coordinate registers; `k2` is what else the issue does. -/
def engineIssue (k : EngKind) (cls : OpClass) (n : Nat) (g : BitVec 4) (t c q : BitVec 6) (bad : Bool)
    (k2 : EngCmd → State → State) (s : State) : Res :=
  if 64 < c.toNat + n then .trap 9
  else if bad then .trap 10
  else if counterLimit cls ≤ s.fl.counter cls then .wait .room s
  else
    let x := s.capture k cls n g t c q
    .go (k2 x (s.enqueue x))

/-- `CPY` (R358). -/
def execCpy (g : BitVec 4) (t c q : BitVec 6) (s : State) : Host.Outcome State Fault Refusal :=
  floeOp (.cpy g t c q) s (engineIssue .cpy .copies 2 g t c q false (fun _ s => s))
/-- `GATH` (R381). -/
def execGath (g : BitVec 4) (t c q : BitVec 6) (s : State) : Host.Outcome State Fault Refusal :=
  floeOp (.gath g t c q) s (engineIssue .gath .copies 3 g t c q false (fun _ s => s))
/-- `SCAT` (R437). -/
def execScat (g : BitVec 4) (t c q : BitVec 6) (s : State) : Host.Outcome State Fault Refusal :=
  floeOp (.scat g t c q) s (engineIssue .scat .copies 3 g t c q false (fun _ s => s))
/-- `CPY.MX` (R358). -/
def execCpyMx (g : BitVec 4) (t c q : BitVec 6) (s : State) : Host.Outcome State Fault Refusal :=
  floeOp (.cpyMx g t c q) s (engineIssue .cpyMx .copies 3 g t c q false (fun _ s => s))
/-- `CPY.UNMX` (R358). -/
def execCpyUnmx (g : BitVec 4) (t c q : BitVec 6) (s : State) : Host.Outcome State Fault Refusal :=
  floeOp (.cpyUnmx g t c q) s (engineIssue .cpyUnmx .copies 3 g t c q false (fun _ s => s))
/-- `APND` (R336). -/
def execApnd (g : BitVec 4) (t c q : BitVec 6) (s : State) : Host.Outcome State Fault Refusal :=
  floeOp (.apnd g t c q) s (engineIssue .apnd .copies 3 g t c q false (fun _ s => s))
/-- `APND.DUR` (R336). -/
def execApndDur (g : BitVec 4) (t c q : BitVec 6) (s : State) : Host.Outcome State Fault Refusal :=
  floeOp (.apndDur g t c q) s (engineIssue .apndDur .copies 3 g t c q false (fun _ s => s))
/-- `APND.SYNC` (R338): the floe issues nothing until its copies counter is zero. -/
def execApndSync (g : BitVec 4) (t c q : BitVec 6) (s : State) : Host.Outcome State Fault Refusal :=
  floeOp (.apndSync g t c q) s (fun s =>
    match engineIssue .apndSync .copies 3 g t c q false (fun _ s => s) s with
    | .go s1 =>
      let s2 := s1.retireFrag s.cur.floe s.cur.frag 4
      .as (s2.updFl (fun fl => { fl with hold := true, st := if fl.st = .active then .waiting else fl.st }))
    | r => r)
/-- `CFETCH` (R187, R355): the slot is landing from the issue on. -/
def execCfetch (g : BitVec 4) (t c q : BitVec 6) (s : State) : Host.Outcome State Fault Refusal :=
  floeOp (.cfetch g t c q) s (fun s =>
    let k := fieldN (s.S c.toNat) 0 6
    engineIssue .cfetch .copies 1 g t c q (s.fg.pc.toNat / 4096 = k) (fun e s =>
      s.updCr (fun x => { x with slots := x.slots.put k { x.slot k with st := .landing, fetches := (x.slot k).fetches ++ [(s.cur.floe, e.seq)] } })) s)
/-- A `SEND` or `RECV` whose request names no idempotent window makes its launch non-replayable when it issues (R285). -/
def netIssued (f : Nat) (c : EngCmd) (s : State) : State :=
  if c.guardSt ≠ .free then s
  else match s.readWr f c with
    | .ok r _ => if wrIdem r then s else s.makeNonReplayable (s.block (blockOf f)).launch
    | .cause _ _ => s
/-- `SEND` (R311). -/
def execSend (g : BitVec 4) (t c q : BitVec 6) (s : State) : Host.Outcome State Fault Refusal :=
  floeOp (.send g t c q) s (engineIssue .send .net 2 g t c q false (netIssued s.cur.floe))
/-- `RECV` (R310). -/
def execRecv (g : BitVec 4) (t c q : BitVec 6) (s : State) : Host.Outcome State Fault Refusal :=
  floeOp (.recv g t c q) s (engineIssue .recv .net 1 g t c q false (netIssued s.cur.floe))

/-- `GSET` (R184, R382, R383). -/
def execGset (a : BitVec 6) (g : BitVec 3) (s : State) : Host.Outcome State Fault Refusal :=
  floeOp (.gset a g) s (fun s =>
    let v : Bool := s.S a.toNat ≠ 0
    let i := g.toNat
    .go ((s.resolveGuard s.cur.floe i v).updFl (fun fl =>
      { fl with guards := BitVec.ofNat 16 (fl.guards.toNat - fl.guardBits i * 2 ^ (2 * i) + (if v then 1 else 2) * 2 ^ (2 * i)) })))

end Sys2Proof.Machine
end

