-- ==== Sys2Proof/Machine/Ending.lean ====
section
/-!
DEFINITION. The end of launches: their replicas join the base copies, what they hold goes, the completion record is written (R32, R200,
R255, R259, R289).
-/
namespace Sys2Proof.Machine

/-! ## Replicas at the end (R255) -/

/-- The lines of which a launch holds replicas. -/
def Launch.latticeLines (l : Launch) : List Nat := dedupe (l.replicas.map (fun e => e.1 % 2 ^ 46))
/-- A launch's replicas of a line. -/
def Launch.replicasOf (l : Launch) (ln : Nat) : List Replica := (l.replicas.filter (fun e => e.1 % 2 ^ 46 = ln)).map (fun e => e.2)
/-- The bank unit that settles a launch's replicas would read a poisoned operand (R277). -/
def State.settlesPoison (s : State) (l : Nat) : Bool :=
  (s.launch l).latticeLines.any (fun ln =>
    s.peekPoison ln ≠ 0 || ((s.launch l).replicasOf ln).any (fun r => r.poison ≠ 0))
/-- The cell at index i of merged replicas, joined into the base copy's value: GCOUNT adds the four slot maxima (R255). -/
def Replica.settled (m : Replica) (i base : Nat) : Nat :=
  let z := cellSize m.ltype
  if m.ltype = 6 then Nat.min ((upTo 4).foldl (fun a d => a + (m.slots.getD (i * 4 + d) 0).toNat) base) 0xFFFFFFFF
  else latJoin m.ltype base (ofBytes (Line.bytes m.data (i * z) z))
/-- A word of a cell was written in the base copy meanwhile (R255, log entry 17). -/
def Launch.soiledCell (l : Launch) (ln z i : Nat) : Bool := (upTo (z / 4)).any (fun j => ln * 32 + i * (z / 4) + j ∈ l.soiled)
/-- The value with which a cell ends: the join, or a free value where the base copy was written meanwhile (log entry 17). -/
def State.settledCell (s : State) (m : Replica) (l : Launch) (ln i : Nat) : Nat :=
  let z := cellSize m.ltype
  if l.soiledCell ln z i then (Config.freeWord (s.free + i)).toNat % 256 ^ z else m.settled i (s.peek (ln * 128 + i * z) z)
/-- A launch's replicas of one line join the base copy; that is no write of software (R255). -/
def State.settleLine (s : State) (l ln : Nat) : State :=
  match (s.launch l).replicasOf ln with
  | [] => s
  | r :: more =>
    let m := more.foldl Replica.merge r
    let z := cellSize m.ltype
    let free := if (upTo (128 / z)).any ((s.launch l).soiledCell ln z) then s.free + 32 else s.free
    let key := match s.ownedLine ln with | some y => y.key | none => s.memKey ln 0
    let s1 := { s with free := free }.unitStore (some (((s.launch l).dies).headD 0)) (ln * 128) key
      (((upTo (128 / z)).map (fun i => plainBytes z (s.settledCell m (s.launch l) ln i))).flatten)
    { s1 with launches := s1.launches.map (fun (e : Nat × Launch) => (e.1, { e.2 with soiled := (s.launch e.1).soiled })) }
/-- Write a launch's replicas into the base copies (R255). -/
def State.settleReplicas (s : State) (l : Nat) : State :=
  (s.launch l).latticeLines.foldl (fun s ln => s.settleLine l ln) s

/-! ## What a launch holds goes (R259, R287) -/

/-- An engine command of a launch's resident blocks stands within a 64 KiB frame: it goes on to the boundary (R259, R287). -/
def State.inFrame (s : State) (l : Nat) : Bool :=
  (s.blocksOfLaunch l).any (fun b => (s.floesOf b).any (fun f => (s.floe f).cmds.any (fun c => s.midFrame f c)))
/-- A command is a `SEND` that has sent a part and goes on. -/
def EngCmd.sendsOn (c : EngCmd) : Bool := c.kind = .send && !c.finished && c.guardSt = .free && c.pausedAt.isNone && 0 < c.progress
/-- A `SEND` of a launch, of its resident or of its saved blocks, has sent a part: it finishes (R259). -/
def State.sendOut (s : State) (l : Nat) : Bool :=
  (s.blocksOfLaunch l).any (fun b => (s.floesOf b).any (fun f => (s.floe f).cmds.any (fun c => c.sendsOn))) ||
  s.images.any (fun i => i.launch = l && i.floes.any (fun e => e.2.cmds.any (fun c => c.sendsOn)))
/-- Remove a launch's blocks, images and snapshots. -/
def State.dropLaunch (s : State) (l : Nat) : State :=
  let s1 := (s.blocksOfLaunch l).foldl (fun s b => s.removeBlock b) s
  { s1.dropCasts l with
            images := s1.images.filter (fun i => i.launch ≠ l), snapshots := s1.snapshots.filter (fun c => c.launch ≠ l),
            restores := s1.restores.filter (fun r => r ≠ l),
            windows := s1.windows.filter (fun w => w.2.mailbox || w.2.launch ≠ l), preempts := s1.preempts.filter (fun p => p.1 ≠ l) }

/-! ## The end of a launch (R32, R259, R289) -/

/-- LAUNCH_END: the launch has finished every block, or has been halted, its engines stand at frame boundaries and its part-sent `SEND`s have
finished (R32, R259, R289). A
poisoned replica or base copy is consumed before anything is settled (R277). -/
def State.endLaunch (s : State) (l : Nat) : State :=
  match s.launches.get? l with
  | none => s
  | some x =>
    if x.phase = .halting then
      if s.inFrame l || s.sendOut l then s
      else
        let s1 := (s.discardStaged l).dropLaunch l
        { s1 with launches := s1.launches.del l }.writeCompletion l x.desc x.status x.cause.toNat (x.causeBlk.getD 0)
    else if x.phase = .running && x.finished.length = descNblocks x.desc then
      if s.settlesPoison l then s.consume l none
      else
        let s1 := ((s.commitStaged l).settleReplicas l).dropLaunch l
        { s1 with launches := s1.launches.del l }.writeCompletion l x.desc 0 0 0
    else s
/-- LAUNCH_END (R32). -/
def execLaunchEnd (l : Nat) (s : State) : Host.Outcome State Fault Refusal := .next (s.endLaunch l)

end Sys2Proof.Machine
end

