-- ==== Sys2Proof/Machine/Float.lean ====
section
/-!
DEFINITION. Vector floating point, special functions, conversions (R123 to R138, R359 to R361, R365 to R370, R420, R421, R81).
-/
namespace Sys2Proof.Machine

/-! ## Arithmetic (R366, R367) -/

/-- The FP-R operations (R365). -/
inductive FpOp where
  | add | sub | mul | fma | min | max
  deriving DecidableEq, Repr

/-- One part of an operation: x, y and the old destination z. -/
def FpOp.part (o : FpOp) (f : BinFmt) (x y z : Nat) : Nat :=
  match o with
  | .add => fpAdd f x y
  | .sub => fpSub f x y
  | .mul => fpMul f x y
  | .fma => fpFma f x y z
  | .min => fpMinMax f false x y
  | .max => fpMinMax f true x y
/-- `FFMA` reads its destination. -/
def FpOp.readsD (o : FpOp) : Bool := o = .fma
/-- The operations a shadow unit checks (R137). -/
def FpOp.shadowed (o : FpOp) : Bool := o = .add || o = .sub || o = .mul || o = .fma
/-- An operation on a 32-bit word: F32, or two 16-bit halves (R132). -/
def FpOp.word (o : FpOp) (t : Nat) (x y z : W32) : W32 :=
  let f := typeFmt t
  if t = 0 then BitVec.ofNat 32 (o.part f x.toNat y.toNat z.toNat)
  else BitVec.ofNat 32 (o.part f (fieldN x 0 16) (fieldN y 0 16) (fieldN z 0 16) +
    2 ^ 16 * o.part f (fieldN x 16 16) (fieldN y 16 16) (fieldN z 16 16))
/-- A code of a format is normal: neither zero, subnormal, infinite nor NaN. -/
def fpNormal (f : BinFmt) (x : Nat) : Bool :=
  let e := bitsOf x f.mb f.eb
  0 < e && e < 2 ^ f.eb - 1
/-- The exact result of an operation that a shadow unit checks (R137). -/
def FpOp.exact (o : FpOp) (x y z : FVal) : FVal :=
  match o with
  | .sub => x.add y.neg
  | .mul => x.mul y
  | .fma => (x.mul y).add z
  | _ => x.add y
/-- A main result against the exact one: the signs differ, or floor(|main| / 2^(es - 6)) is more than 1 away from the exact result's
top 7 bits q (R137). An exact zero has no exponent es: a main result that is not one diverges from it (log entry 63). -/
def parts7Differ (exact main : FVal) : Bool :=
  match exact, main with
  | .fin a m e, .fin b n g =>
    let es : Int := (Nat.log2 m : Int) + e
    let inUnits (k : Nat) (h : Int) : Nat := k * pow2 (h - (es - 6)) / pow2 (es - 6 - h)
    m = 0 || a ≠ b || inUnits n g > inUnits m e + 1 || inUnits m e > inUnits n g + 1
  | _, _ => true
/-- One part of a lane diverges: every operand and the main result r are normal, and the shadow unit differs (R137). -/
def FpOp.partDiverges (o : FpOp) (f : BinFmt) (x y z r : Nat) : Bool :=
  fpNormal f x && fpNormal f y && fpNormal f r && (!o.readsD || fpNormal f z) &&
  parts7Differ (o.exact (ieeeVal f x) (ieeeVal f y) (ieeeVal f z)) (ieeeVal f r)
/-- A lane diverges: in F32, or in one of the two parts of the paired types (R132, R137). -/
def FpOp.diverges (o : FpOp) (t : Nat) (x y z r : W32) : Bool :=
  let part (lo n : Nat) : Bool := o.partDiverges (typeFmt t) (fieldN x lo n) (fieldN y lo n) (fieldN z lo n) (fieldN r lo n)
  if t = 0 then part 0 32 else part 0 16 || part 16 16

/-- The bits that an error flips in a lane's main result, and those that it flips again at the replay (R138, log entry 8). -/
def State.flipOf (s : State) (c l : Nat) : Option (W32 × W32) :=
  s.upsets.findSome? (fun u => match u with
    | .shadow k n flip again => if k = c ∧ n = l then some (flip, again) else none
    | _ => none)
/-- The first error of each of these lanes of a core is spent. -/
def dropShadows (c : Nat) : List Nat → List Upset → List Upset
  | _, [] => []
  | ls, .shadow k n flip again :: t =>
    if k = c ∧ n ∈ ls then dropShadows c (ls.filter (fun x => x ≠ n)) t else .shadow k n flip again :: dropShadows c ls t
  | ls, u :: t => u :: dropShadows c ls t
/-- The errors of the lanes that an instruction executes in are spent. -/
def State.spendShadow (s : State) (c : Nat) : State := { s with upsets := dropShadows c s.lanes s.upsets }

/-- A vector FP-R instruction on 32-bit words. Where any lane diverges it replays from its original operands and counts a
corrected event; where the replay diverges too, it takes cause 0x09. An error that its shadow unit passes stands in the result
(R137, R138). -/
def fpWords (o : FpOp) (t : Nat) (srcs : List VGroup) (x y z : State → Nat → W32) (d : BitVec 6) (s : State) : Res :=
  match s.gate srcs [VGroup.one d] false false with
  | some r => r
  | none =>
    let c := floeCore s.cur.floe
    let hit := o.shadowed && s.lanes.any (fun l => (s.flipOf c l).isSome)
    let out (flips : Nat → W32) (l : Nat) : W32 := o.word t (x s l) (y s l) (z s l) ^^^ flips l
    let bad (flips : Nat → W32) : Bool := s.lanes.any (fun l => o.diverges t (x s l) (y s l) (z s l) (out flips l))
    let write (flips : Nat → W32) (s : State) : Res :=
      .go ((s.popPorts srcs).setVs (s.lanes.map (fun l => ⟨d.toNat, l, out flips l⟩)))
    let first (l : Nat) : W32 := ((s.flipOf c l).getD (0, 0)).1
    let again (l : Nat) : W32 := ((s.flipOf c l).getD (0, 0)).2
    if !hit then write (fun _ => 0) s
    else if !(bad first) then write first (s.spendShadow c)
    else if bad again then .as ((s.spendShadow c).preciseFault s.cur.floe s.cur.frag 0x09 0 false)
    else write again ((s.spendShadow c).countEvent c 0)

/-- FP-R (R366): F64 on even pairs, the other types on words; class 2 once on uniform registers. -/
def fpR (o : FpOp) (t c : BitVec 2) (b a d : BitVec 6) (s : State) : Res :=
  if c = 2 then
    if t = 1 then .go (s.setS d.toNat (BitVec.ofNat 64
      (o.part fmt64 (s.S a.toNat).toNat (s.S b.toNat).toNat (s.S d.toNat).toNat)))
    else .go (s.setS d.toNat (zext64 (o.word t.toNat (lo32 (s.S a.toNat)) (lo32 (s.S b.toNat)) (lo32 (s.S d.toNat)))))
  else if t = 1 then
    vecOp (srcGroups c a b VGroup.pair ++ (if o.readsD then [VGroup.pair d] else [])) [VGroup.pair d]
      (fun s l => write64 d.toNat l (BitVec.ofNat 64 (o.part fmt64 (s.A64 c a l).toNat (s.B64 c b l).toNat
        (if o.readsD then (s.V64 d.toNat l).toNat else 0)))) s
  else
    fpWords o t.toNat (srcGroups c a b VGroup.one ++ (if o.readsD then [VGroup.one d] else []))
      (fun s l => s.A c a l) (fun s l => s.B c b l) (fun s l => if o.readsD then s.V d.toNat l else 0) d s

/-- The 16-bit FP32 forms (R81). -/
def fp16bit (o : FpOp) (d : BitVec 6) (r : BitVec 5) (s : State) : Res :=
  fpWords o 0 [VGroup.one d, VGroup.one (r.setWidth 6)] (fun s l => s.V d.toNat l) (fun s l => s.V r.toNat l)
    (fun _ _ => 0) d s

/-- `FADD` (R366, R367). -/
def execFadd (t c : BitVec 2) (b a d : BitVec 6) (s : State) : Host.Outcome State Fault Refusal :=
  floeOp (.fadd t c b a d) s (fpR .add t c b a d)
/-- 16-bit `FADD` (R81). -/
def execFadd16 (d : BitVec 6) (r : BitVec 5) (s : State) : Host.Outcome State Fault Refusal :=
  floeOp (.fadd16 d r) s (fp16bit .add d r)
/-- `FSUB` (R366, R367). -/
def execFsub (t c : BitVec 2) (b a d : BitVec 6) (s : State) : Host.Outcome State Fault Refusal :=
  floeOp (.fsub t c b a d) s (fpR .sub t c b a d)
/-- 16-bit `FSUB` (R81). -/
def execFsub16 (d : BitVec 6) (r : BitVec 5) (s : State) : Host.Outcome State Fault Refusal :=
  floeOp (.fsub16 d r) s (fp16bit .sub d r)
/-- `FMUL` (R366, R367). -/
def execFmul (t c : BitVec 2) (b a d : BitVec 6) (s : State) : Host.Outcome State Fault Refusal :=
  floeOp (.fmul t c b a d) s (fpR .mul t c b a d)
/-- 16-bit `FMUL` (R81). -/
def execFmul16 (d : BitVec 6) (r : BitVec 5) (s : State) : Host.Outcome State Fault Refusal :=
  floeOp (.fmul16 d r) s (fp16bit .mul d r)
/-- `FFMA` (R366, R367). -/
def execFfma (t c : BitVec 2) (b a d : BitVec 6) (s : State) : Host.Outcome State Fault Refusal :=
  floeOp (.ffma t c b a d) s (fpR .fma t c b a d)
/-- `FMIN` (R366, R367). -/
def execFmin (t c : BitVec 2) (b a d : BitVec 6) (s : State) : Host.Outcome State Fault Refusal :=
  floeOp (.fmin t c b a d) s (fpR .min t c b a d)
/-- 16-bit `FMIN` (R81). -/
def execFmin16 (d : BitVec 6) (r : BitVec 5) (s : State) : Host.Outcome State Fault Refusal :=
  floeOp (.fmin16 d r) s (fp16bit .min d r)
/-- `FMAX` (R366, R367). -/
def execFmax (t c : BitVec 2) (b a d : BitVec 6) (s : State) : Host.Outcome State Fault Refusal :=
  floeOp (.fmax t c b a d) s (fpR .max t c b a d)
/-- 16-bit `FMAX` (R81). -/
def execFmax16 (d : BitVec 6) (r : BitVec 5) (s : State) : Host.Outcome State Fault Refusal :=
  floeOp (.fmax16 d r) s (fp16bit .max d r)

/-! ## Special functions (R368 to R370) -/

/-- A function of one source in the parts of a type, on a 32-bit word. -/
def partWise (t : Nat) (f : Nat → Nat) (shift : Nat) (x : W32) : W32 :=
  if t = 0 then BitVec.ofNat 32 (f x.toNat)
  else BitVec.ofNat 32 (f (fieldN x 0 16) + 2 ^ shift * f (fieldN x 16 16))

/-- FP-S ops 0 to 6 (R369). -/
def fpS (o : SpecialOp) (t c : BitVec 2) (a d : BitVec 6) (s : State) : Res :=
  if c = 2 then
    if t = 1 then .go (s.setS d.toNat (BitVec.ofNat 64 (fpSpecial o 1 (s.S a.toNat).toNat)))
    else .go (s.setS d.toNat (zext64 (partWise t.toNat (fpSpecial o t.toNat) 16 (lo32 (s.S a.toNat)))))
  else if t = 1 then
    vecOp [VGroup.pair a] [VGroup.pair d] (fun s l => write64 d.toNat l (BitVec.ofNat 64 (fpSpecial o 1 (s.V64 a.toNat l).toNat))) s
  else vecOp [VGroup.one a] [VGroup.one d] (fun s l => [⟨d.toNat, l, partWise t.toNat (fpSpecial o t.toNat) 16 (s.V a.toNat l)⟩]) s

/-- `FRCP` (R369). -/
def execFrcp (t c : BitVec 2) (a d : BitVec 6) (s : State) : Host.Outcome State Fault Refusal :=
  floeOp (.frcp t c a d) s (fpS .rcp t c a d)
/-- `FRSQ` (R369). -/
def execFrsq (t c : BitVec 2) (a d : BitVec 6) (s : State) : Host.Outcome State Fault Refusal :=
  floeOp (.frsq t c a d) s (fpS .rsq t c a d)
/-- `FSQRT` (R369). -/
def execFsqrt (t c : BitVec 2) (a d : BitVec 6) (s : State) : Host.Outcome State Fault Refusal :=
  floeOp (.fsqrt t c a d) s (fpS .sqrt t c a d)
/-- `FEX2` (R369). -/
def execFex2 (t c : BitVec 2) (a d : BitVec 6) (s : State) : Host.Outcome State Fault Refusal :=
  floeOp (.fex2 t c a d) s (fpS .ex2 t c a d)
/-- `FLG2` (R369). -/
def execFlg2 (t c : BitVec 2) (a d : BitVec 6) (s : State) : Host.Outcome State Fault Refusal :=
  floeOp (.flg2 t c a d) s (fpS .lg2 t c a d)
/-- `FSIN` (R369). -/
def execFsin (t c : BitVec 2) (a d : BitVec 6) (s : State) : Host.Outcome State Fault Refusal :=
  floeOp (.fsin t c a d) s (fpS .sin t c a d)
/-- `FCOS` (R369). -/
def execFcos (t c : BitVec 2) (a d : BitVec 6) (s : State) : Host.Outcome State Fault Refusal :=
  floeOp (.fcos t c a d) s (fpS .cos t c a d)
/-- `FCLS`: the class masks, at [9:0] and [25:16] in the paired types (R370). -/
def execFcls (t c : BitVec 2) (a d : BitVec 6) (s : State) : Host.Outcome State Fault Refusal :=
  floeOp (.fcls t c a d) s (fun s =>
    if c = 2 then
      if t = 1 then .go (s.setS d.toNat (BitVec.ofNat 64 (fpClass fmt64 (s.S a.toNat).toNat)))
      else .go (s.setS d.toNat (zext64 (partWise t.toNat (fpClass (typeFmt t.toNat)) 16 (lo32 (s.S a.toNat)))))
    else if t = 1 then
      vecOp [VGroup.pair a] [VGroup.one d] (fun s l => [⟨d.toNat, l, BitVec.ofNat 32 (fpClass fmt64 (s.V64 a.toNat l).toNat)⟩]) s
    else vecOp [VGroup.one a] [VGroup.one d]
      (fun s l => [⟨d.toNat, l, partWise t.toNat (fpClass (typeFmt t.toNat)) 16 (s.V a.toNat l)⟩]) s)

/-! ## Conversions (R123 to R126, R360, R361, R421) -/

/-- The hash of a lane of the issuing floe (R123, R124). -/
def State.laneHash (s : State) (l : Nat) : Nat :=
  stochHash (descSeed s.lau.desc) (s.blk.id % 2 ^ 20 * 2 ^ 12 + s.thread l) s.fl.stoch.toNat
/-- A conversion: the lanes' results; stochastic rounding counts once per issue (R360, R421). -/
def convOp (srcs : List VGroup) (rnd : BitVec 2) (d : BitVec 6) (f : State → Nat → Nat) (s : State) : Res :=
  match vecOp srcs [VGroup.one d] (fun s l => [⟨d.toNat, l, BitVec.ofNat 32 (f s l)⟩]) s with
  | .go s1 => .go (if rnd = 3 then s1.updFl (fun fl => { fl with stoch := fl.stoch + 1 }) else s1)
  | r => r
/-- The low bits of a word that a format's code takes (R94). -/
def lowCode (f : Nat) (x : W32) : Nat := x.toNat % 2 ^ fmtWidth f

/-- `CVT` (R360). -/
def execCvt (st : BitVec 1) (r : BitVec 2) (f m : BitVec 4) (a d : BitVec 6) (s : State) : Host.Outcome State Fault Refusal :=
  floeOp (.cvt st r f m a d) s (convOp [VGroup.one a] r d (fun s l =>
    cvtOne f.toNat m.toNat r.toNat (st = 1) (s.laneHash l) (lowCode m.toNat (s.V a.toNat l))))
/-- `QNT` (R421). -/
def execQnt (st : BitVec 1) (r : BitVec 2) (f : BitVec 4) (b a d : BitVec 6) (s : State) : Host.Outcome State Fault Refusal :=
  floeOp (.qnt st r f b a d) s (convOp [VGroup.one a, VGroup.one b] r d (fun s l =>
    qntOne f.toNat r.toNat (st = 1) (s.laneHash l) (s.V a.toNat l).toNat (fieldN (s.V b.toNat l) 0 8)))
/-- `DEQ` (R361). -/
def execDeq (f : BitVec 4) (b a d : BitVec 6) (s : State) : Host.Outcome State Fault Refusal :=
  floeOp (.deq f b a d) s (vecOp [VGroup.one a, VGroup.one b] [VGroup.one d]
    (fun s l => [⟨d.toNat, l, BitVec.ofNat 32 (deqOne f.toNat (lowCode f.toNat (s.V a.toNat l)) (fieldN (s.V b.toNat l) 0 8))⟩]))

end Sys2Proof.Machine
end

