-- ==== Sys2Proof/Machine/Sched.lean ====
section
/-!
DEFINITION. Scheduling of fragments and floes (R26, R45, R169, R170), and the entries into handlers at an instruction
boundary (R257, R261, R265, R266, R268).
-/
namespace Sys2Proof.Machine

/-! ## Fragments of a floe (R26) -/

/-- The fragments that are ready to issue: a fault holds the issue of its own fragment only (R46). -/
def Floe.readyFrags (fl : Floe) : List Fragment := fl.frags.filter (fun g => g.wait = .none && fl.mayIssue g)
/-- A fragment that yielded waits for the fragments that were ready then. -/
def Floe.yields (fl : Floe) (g : Fragment) : Bool := g.owes.any (fun i => fl.readyFrags.any (fun h => h.id = i))
/-- The fragment that issues next: the first whose wait count reached 64, else the lowest program counter, the earlier in
fragment order between equal ones. -/
def Floe.pick (fl : Floe) : Option Nat :=
  let rs := fl.readyFrags
  match fl.expired.find? (fun i => rs.any (fun g => g.id = i)) with
  | some i => some i
  | none =>
    ((rs.filter (fun g => !(fl.yields g))).foldl (fun (b : Option Fragment) g => match b with
      | none => some g
      | some x => if g.pc.toNat < x.pc.toNat then some g else some x) none).map (fun g => g.id)
/-- A wait count that has reached 64 puts its fragment first, in the order in which the counts did. -/
def Floe.expire (fl : Floe) (id : Nat) : Floe :=
  if 64 ≤ (fl.frag id).waitCount && !(id ∈ fl.expired) then { fl with expired := fl.expired ++ [id] } else fl
/-- A fragment issues: its wait count is cleared, the other ready ones gain 1, and none waits for its turn any more. -/
def Floe.issues (fl : Floe) (id : Nat) : Floe :=
  let ready := (fl.readyFrags.map (fun g => g.id)).filter (fun i => i ≠ id)
  let fl1 := { fl with
    expired := fl.expired.filter (fun i => i ≠ id)
    frags := fl.frags.map (fun g =>
      if g.id = id then { g with waitCount := 0, owes := [] }
      else { g with waitCount := if g.id ∈ ready then g.waitCount + 1 else g.waitCount,
                    owes := g.owes.filter (fun i => i ≠ id) }) }
  ready.foldl (fun fl i => fl.expire i) fl1
/-- An instruction that has not issued after all leaves the counts of its floe as they were. -/
def Floe.notIssued (before fl : Floe) : Floe :=
  { fl with
    age := before.age
    expired := before.expired
    frags := fl.frags.map (fun g =>
      let x := before.frag g.id
      { g with waitCount := x.waitCount, owes := x.owes }) }
/-- FRAGMENT_WAIT_EXPIRY (R26). -/
def execFragmentWaitExpiry (f frag : Nat) (s : State) : Host.Outcome State Fault Refusal :=
  .next (if (s.floes.get? f).isSome then s.updFloe f (fun fl => fl.expire frag) else s)

/-! ## The active set (R45, R169, R170) -/

/-- The quadrant of a floe: that of the launch floe whose block lanes it covers (R38, R48). -/
def State.quadOf (s : State) (f : Nat) : Nat :=
  let b := s.block (blockOf f)
  (b.layout.getD ((s.floe f).base / b.width) (0, 0)).1
/-- The floes of a quadrant of a core in a state. -/
def State.quadFloes (s : State) (c q : Nat) (st : FloeState) : List Nat :=
  s.floes.keys.filter (fun f => floeCore f = c && (s.floe f).st = st && s.quadOf f = q)
/-- The key of the floe with the least value of a measure, the first among equal ones. -/
def State.leastFloe (s : State) (m : Floe → Nat) (fs : List Nat) : Option Nat :=
  fs.foldl (fun b f => match b with
    | none => some f
    | some x => if m (s.floe f) < m (s.floe x) then some f else some x) none
/-- The longest-ready floe of a quadrant becomes active. -/
def State.admitLongest (s : State) (c q : Nat) : State :=
  match s.leastFloe (fun fl => fl.readyAt) (s.quadFloes c q .ready) with
  | none => s
  | some f => s.updFloe f (fun fl => { fl with st := .active, activeAt := s.now, age := s.now })
/-- ACTIVE_SET_ADMISSION: a free place of 8 goes to the longest-ready floe, unless the core is halted. -/
def State.activate (s : State) (c q : Nat) : State :=
  if 8 ≤ (s.quadFloes c q .active).length || (s.core c).halted then s else s.admitLongest c q
/-- ACTIVE_SET_ADMISSION (R170). -/
def execActiveSetAdmission (core quad : Nat) (s : State) : Host.Outcome State Fault Refusal := .next (s.activate core quad)
/-- ADMISSION_TIMEOUT: the floe that entered the full active set first returns to ready and the longest-ready one enters;
that 1024 cycles have passed is what the step says (R170, log entry 5). -/
def State.admitByTimeout (s : State) (c q : Nat) : State :=
  let act := s.quadFloes c q .active
  if act.length < 8 || (s.quadFloes c q .ready).isEmpty || (s.core c).halted then s
  else match s.leastFloe (fun fl => fl.activeAt) act with
    | none => s
    | some g => (s.admitLongest c q).updFloe g (fun fl => { fl with st := .ready, readyAt := s.now })
/-- ADMISSION_TIMEOUT (R170). -/
def execAdmissionTimeout (core quad : Nat) (s : State) : Host.Outcome State Fault Refusal :=
  .next (s.admitByTimeout core quad)

/-! ## Entries at an instruction boundary (R257, R265, R266, R268) -/

/-- A core that halts or has halted issues nothing (R269). -/
def Core.stopped (c : Core) : Bool := c.haltReq || c.halted
/-- A fragment of a floe stands at an instruction boundary where it could issue. -/
def State.atBoundary (s : State) (f id : Nat) : Bool :=
  let fl := s.floe f
  s.unretired f && (s.launchOf (blockOf f)).phase = .running && fl.st ≠ .parked && !fl.hold && !((s.core (floeCore f)).stopped) &&
  fl.frags.any (fun g => g.id = id && fl.mayIssue g)
/-- A fragment is the one that its active floe issues next (R26, R45). -/
def State.next (s : State) (f id : Nat) : Bool := (s.floe f).st = .active && (s.floe f).pick = some id
/-- A fragment stands at an instruction that has not issued: the next of its active floe, or one held back from issuing by an order or
for want of room (R256, R268). -/
def State.atIssue (s : State) (f id : Nat) : Bool :=
  match ((s.floe f).frag id).wait with
  | .none => s.next f id && ((s.floe f).frag id).left.isNone
  | .room => true
  | .order => true
  | .rel => true
  | _ => false
/-- The oldest reported cause, where the fragment takes it now: no live record, no window, an instruction that has not issued (R237,
R257, R268). -/
def State.dueReport (s : State) (f id : Nat) : Option (Report × List Report) :=
  let fl := s.floe f
  if s.atBoundary f id && fl.recs.isEmpty && fl.fence.isNone && s.atIssue f id then
    match fl.reports with
    | [] => none
    | r :: t => some (r, t)
  else none
/-- The oldest reported cause enters the trap handler (R257, R261). -/
def State.takeReport (s : State) (f id : Nat) : State :=
  match s.dueReport f id with
  | none => s
  | some (r, t) => s.enterReport f id r t
/-- A synchronous cause may enter the handler now: its floe is active, and no window is open (R46, R237, R268). -/
def State.dueTrap (s : State) (f id : Nat) : Bool :=
  s.atBoundary f id && (s.floe f).st = .active && ((s.floe f).frag id).wait = .trap && (s.floe f).fence.isNone
/-- TRAP_HANDLER_ENTRY: the fragment's own cause, or else the oldest reported one (R261, R268). -/
def State.takeTrap (s : State) (f id : Nat) : State := if s.dueTrap f id then s.enterDue f id else s.takeReport f id
/-- TRAP_HANDLER_ENTRY (R261). -/
def execTrapHandlerEntry (f frag : Nat) (s : State) : Host.Outcome State Fault Refusal := .next (s.takeTrap f frag)

/-- The waits that an interrupt abandons at once (R266). -/
def WaitFor.abandoned : WaitFor → Bool
  | .counters => true | .memory _ _ => true | .lattice => true | .pop => true
  | _ => false
/-- A later write waits behind a `FENCE.REL` of a floe, which no interrupt reaches until the fence completes (R376). -/
def Floe.relWaits (fl : Floe) : Bool := fl.relHolds && fl.frags.any (fun g => g.wait = .rel)
/-- An interrupt is deliverable to a fragment: the next of its active floe, or, in a waiting floe, one whose wait it abandons (R266). -/
def State.interruptDue (s : State) (f id : Nat) : Bool :=
  let fl := s.floe f
  let w := (fl.frag id).wait
  s.atBoundary f id && (fl.frag id).left.isNone && fl.uipend &&& ~~~fl.umask ≠ 0 && fl.recs.isEmpty && fl.fence.isNone && !fl.relWaits &&
    ((w.abandoned && fl.st = .waiting) || (w = .none && s.next f id))
/-- INTERRUPT_ENTRY: at the boundary that it makes, a reported cause goes first (R266, R268); the horizon may hold the record back
(R218). -/
def State.takeInterrupt (s : State) (f id : Nat) : State :=
  if s.interruptDue f id then
    match (s.floe f).reports with
    | r :: t => s.enterReport f id r t
    | [] => if s.recordHeld f id true false then s else s.enterInterrupt f id
  else s
/-- INTERRUPT_ENTRY (R266). -/
def execInterruptEntry (f frag : Nat) (s : State) : Host.Outcome State Fault Refusal := .next (s.takeInterrupt f frag)

/-- UI_TIMER_EXPIRY: every tper microseconds of `TIME` set bit 2 (R265); a period of 0 is off (R258). -/
def State.timerExpires (s : State) (f : Nat) : State :=
  let fl := s.floe f
  let ns := tperOf fl.uivec * 1000
  if ns = 0 || s.time.toNat < fl.timerAt.toNat + ns || !(s.unretired f) then s
  else s.updFloe f (fun fl => { fl with uipend := fl.uipend ||| 4, timerAt := fl.timerAt + BitVec.ofNat 64 ns })
/-- UI_TIMER_EXPIRY (R265). -/
def execUiTimerExpiry (f : Nat) (s : State) : Host.Outcome State Fault Refusal := .next (s.timerExpires f)

end Sys2Proof.Machine
end

