-- ==== Sys2Proof/Machine/Services.lean ====
section
/-!
DEFINITION. The management path: who calls, the services of R304, and their replies (R298, R299, R302 to R304, R310, R312, R315).
Services 3 and 4 are in Preempt.lean, service 11 in Reliability.lean.
-/
namespace Sys2Proof.Machine

/-! ## Calls and replies (R302 to R304) -/

/-- A service call: the service, the address space, arg0 to arg3, and whether a field that must be zero is not. -/
structure Call where
  num  : Nat
  asid : Nat
  args : List W64
  bad  : Bool

def Call.arg (q : Call) (i : Nat) : Nat := (q.args.getD i 0).toNat

/-- The request of a fragment that has no reply yet. -/
def Floe.asks (fl : Floe) (frag : Nat) : Option SyscReq := fl.syscs.find? (fun r => r.frag = frag && r.answer.isNone)
/-- The management record at the head of its queue (R304). -/
def mgmtCall (r : BitVec 1024) : Call :=
  { num := fieldN r 0 8
    asid := fieldN r 16 16
    args := (upTo 4).map (fun i => BitVec.ofNat 64 (fieldN r (64 + 64 * i) 64))
    bad := fieldN r 8 8 ≠ 0 || fieldN r 32 32 ≠ 0 || fieldN r 384 640 ≠ 0 }
/-- Service mode (R302). -/
def State.serviceMode (s : State) : Bool := bitN s.boot 0
/-- Write a hart's integer register; x0 stays zero. -/
def Hart.setX (x : Hart) (d : Nat) (v : W64) : Hart := if d = 0 then x else { x with x := x.x.set 0 d v }
def State.hart (s : State) (h : Nat) : Hart := s.harts.getD h Hart.reset
def State.updHart (s : State) (h : Nat) (g : Hart → Hart) : State := { s with harts := s.harts.put h (g (s.hart h)) }
/-- The receiver table entry that a hart's `kuirecv` names (R300, R301). -/
def State.receiver (s : State) (h : Nat) : Option Nat :=
  if bitN (s.hart h).kuirecv 12 then some (fieldN s.boot 448 64 + fieldN (s.hart h).kuirecv 0 12 * 16) else none
/-- `kuipend`: the pending word of the bound receiver, 0 where none is bound. -/
def State.kuipend (s : State) (h : Nat) : W64 :=
  match s.receiver h with
  | some e => BitVec.ofNat 64 (s.peek e 8)
  | none => 0
/-- A completion interrupt is due at a hart's instruction boundary (R301). -/
def State.hostUiDue (s : State) (h : Nat) : Bool := (s.hart h).user && (s.hart h).kuien && s.kuipend h ≠ 0
/-- The call of a caller; a floe's stands in the floe or in its saved image (R303), a hart calls in service mode only, and
enters the completion interrupt that is due before it calls (R301). -/
def State.callOf (s : State) : Caller → Option Call
  | .mgmt => s.mgmt.head?.map mgmtCall
  | .floe f frag =>
    match (s.floe f).asks frag with
    | some r => some ⟨r.num.toNat, s.asidOf (blockOf f), r.args, false⟩
    | none => s.images.findSome? (fun i => (i.floes.get? f).bind (fun fl =>
        (fl.asks frag).map (fun r => ⟨r.num.toNat, descAsid (s.launch i.launch).desc, r.args, false⟩)))
  | .hart h =>
    match s.harts.get? h with
    | none => none
    | some x =>
      if s.serviceMode && x.user && !(s.hostUiDue h) then
        some ⟨(x.x.getD 17 0).toNat, x.asid, (upTo 4).map (fun i => x.x.getD (10 + i) 0), false⟩
      else none

/-- A saved floe has a request of a fragment without a reply. -/
def CoreImage.asks (i : CoreImage) (f frag : Nat) : Bool := (i.floes.get? f).any (fun fl => (fl.asks frag).isSome)
/-- Change the first image whose floe asks: the one that `callOf` finds, of one launch (R8). -/
def answerFirst (f frag : Nat) (g : Floe → Floe) : List CoreImage → List CoreImage
  | [] => []
  | i :: t =>
    if i.asks f frag then { i with floes := i.floes.map (fun e => if e.1 = f then (e.1, g e.2) else e) } :: t
    else i :: answerFirst f frag g t
/-- Set the reply of a fragment's request. -/
def Floe.replied (fl : Floe) (frag status : Nat) (v : W64) : Floe :=
  { fl with syscs := fl.syscs.map (fun r => if r.frag = frag && r.answer.isNone then { r with reply := some (status, v) } else r) }

/-- The device's answer to a management record: status word, result, then the counter (R304); a write that its address space
does not allow is dropped. -/
def State.mgmtReply (s : State) (r : BitVec 1024) (status : Nat) (v : W64) : State :=
  let asid := fieldN r 16 16
  let ctr := fieldN r 320 64
  if ctr % 8 ≠ 0 then s
  else match s.vaStore 0 none asid (ctr + 8) (plainBytes 8 (status % 256 + v.toNat % 2 ^ 32 * 2 ^ 32)) with
    | .cause _ _ => s
    | .ok _ s1 =>
      match s1.vaStore 0 none asid (ctr + 16) (plainBytes 8 v.toNat) with
      | .cause _ _ => s1
      | .ok _ s2 =>
        match s2.counterAdd 0 none asid ctr with
        | .cause _ _ => s2
        | .ok _ s3 => s3
/-- The reply of a service to its caller. -/
def State.answer (s : State) (c : Caller) (status : Nat) (v : W64) : State :=
  match c with
  | .mgmt =>
    match s.mgmt with
    | [] => s
    | r :: t => { s with mgmt := t }.mgmtReply r status v
  | .floe f frag =>
    if ((s.floe f).asks frag).isSome then s.updFloe f (fun fl => fl.replied frag status v)
    else { s with images := answerFirst f frag (fun fl => fl.replied frag status v) s.images }
  | .hart h => s.updHart h (fun x => { (x.setX 10 (BitVec.ofNat 64 status)).setX 11 v with pc := x.pc + 4 })

/-- What a service comes to: it waits, or it has a status and a result. -/
inductive Served where
  | wait (s : State)
  | reply (status : Nat) (v : W64) (s : State)

/-- Serve a caller's call of a service; `k` marks the services that only the management path may use (R304). -/
def State.serve (s : State) (c : Caller) (here : Call → Bool) (k : Bool) (body : Call → State → Served) : State :=
  match s.callOf c with
  | none => s
  | some q =>
    if !(here q) then s
    else if q.bad then s.answer c 1 0
    else if k && c ≠ .mgmt then s.answer c 3 0
    else match body q s with
      | .wait s1 => s1
      | .reply st v s1 => s1.answer c st v
/-- A call of service n. -/
def isService (n : Nat) (q : Call) : Bool := q.num = n

/-! ## Services 0 to 2 (R199, R203, R304) -/

/-- SERVICE_ECHO (R304); a reserved service has status 2. -/
def execServiceEcho (c : Caller) (s : State) : Host.Outcome State Fault Refusal :=
  .next (s.serve c (fun q => q.num = 0 || 18 ≤ q.num) false (fun q s => .reply (if q.num = 0 then 0 else 2) 0 s))

/-- A held translation of an invalidated range. -/
def InvReq.covers (i : InvReq) (x : Xlat) : Bool :=
  x.asid = i.asid && (i.len = 0 || (x.va < i.va + i.len && i.va < x.va + x.len))
/-- Every core drops its translations of a range (R199). -/
def State.dropXlats (s : State) (i : InvReq) : State :=
  { s with cores := s.cores.map (fun e => (e.1, { e.2 with
      pages := e.2.pages.filter (fun x => !(i.covers x)), ranges := e.2.ranges.filter (fun x => !(i.covers x)) })) }
/-- INVALIDATION_REQUEST: the translations are dropped, and the request stands until they are unused (R199). -/
def State.invalidate (s : State) (c : Caller) : State :=
  match s.callOf c with
  | none => s
  | some q =>
    if q.num ≠ 1 then s
    else if q.bad then s.answer c 1 0
    else if c ≠ .mgmt then s.answer c 3 0
    else match s.mgmt with
      | [] => s
      | r :: t =>
        let i : InvReq := ⟨q.asid, q.arg 0, q.arg 1, BitVec.ofNat 64 (fieldN r 320 64)⟩
        { s.dropXlats i with mgmt := t, invs := s.invs ++ [i] }
/-- INVALIDATION_REQUEST (R199). -/
def execInvalidationRequest (c : Caller) (s : State) : Host.Outcome State Fault Refusal := .next (s.invalidate c)

/-- `n` bytes at a VA lie in an invalidated range. -/
def InvReq.hits (i : InvReq) (va n : Nat) : Bool := i.len = 0 || (va < i.va + i.len && i.va < va + n)
/-- A lane that has translated and not yet performed stands in a range, be it that cause 0x05 holds it or the read of a record by its
instruction. -/
def State.inUse (s : State) (i : InvReq) : Bool :=
  s.floes.any (fun e => s.asidOf (blockOf e.1) = i.asid &&
    (e.2.ops.any (fun o => o.lanes.any (fun a => !a.done && a.place ≠ .absent && i.hits a.va.toNat (Nat.max o.size 1))) ||
      e.2.parked.any (fun p => p.held.any (fun va => i.hits va 1))))
/-- An engine command or a stream of an address space stands within a 64 KiB frame, or cause 0x05 holds what it has translated (R199, R200). A
stream whose queue is full does not move. -/
def State.engineMoves (s : State) (asid : Nat) : Bool :=
  s.floes.any (fun e => s.asidOf (blockOf e.1) = asid && e.2.cmds.any (fun c =>
    s.midFrame e.1 c || (!c.kind.shaped && !c.finished && c.pausedAt.isNone && !c.held.isEmpty))) ||
  s.blocks.any (fun e => s.asidOf e.1 = asid && e.2.streams.any (fun x =>
    !x.2.ended && x.2.paused.isNone && !x.2.held.isEmpty && !x.2.atFrame && s.streamRoom e.1 x.1 x.2))
/-- The streams of an address space translate afresh. -/
def State.freshStreams (s : State) (asid : Nat) : State :=
  { s with blocks := s.blocks.map (fun e => if s.asidOf e.1 = asid then
      (e.1, { e.2 with streams := e.2.streams.map (fun x => (x.1, { x.2 with held := [] })) }) else e) }
/-- INVALIDATION_COMPLETION: no access uses a dropped translation, and every engine command stands at a frame boundary, behind which it
translates afresh (R199, R200). -/
def State.completeInv (s : State) (n : Nat) : State :=
  match s.invs[n]? with
  | none => s
  | some i =>
    if s.inUse i || s.engineMoves i.asid then s
    else ({ (s.dropXlats i).freshStreams i.asid with invs := s.invs.eraseIdx n }).mgmtReply
      (BitVec.ofNat 1024 (i.ctr.toNat * 2 ^ 320 + i.asid % 2 ^ 16 * 2 ^ 16)) 0 0
/-- INVALIDATION_COMPLETION (R199). -/
def execInvalidationCompletion (i : Nat) (s : State) : Host.Outcome State Fault Refusal := .next (s.completeInv i)

/-- Every stream of a block goes on. -/
def Block.resume (b : Block) : Block := { b with streams := b.streams.map (fun x => (x.1, { x.2 with paused := none })) }
/-- Every command of a floe that stands at an absent frame goes on. -/
def Floe.resume (fl : Floe) : Floe := { fl with cmds := fl.cmds.map (fun c => { c with pausedAt := none }) }
/-- The run and the staged units of certain blocks go on. -/
def Core.resume (mine : Nat → Bool) (k : Core) : Core :=
  { k with run := k.run.map (fun r => if mine r.blk then { r with paused := false } else r)
           staging := k.staging.map (fun u => if mine u.job.blk then { u with paused := false } else u) }
/-- What cause 0x01 holds in certain blocks translates again (R203): engines and sequencer, then floes. -/
def State.resolve (s : State) (mine : Nat → Bool) : State :=
  let s1 := { s with blocks := s.blocks.map (fun (e : Nat × Block) => if mine e.1 then (e.1, e.2.resume) else e),
                     cores := s.cores.map (fun (e : Nat × Core) => (e.1, e.2.resume mine)),
                     floes := s.floes.map (fun (e : Nat × Floe) => if mine (blockOf e.1) then (e.1, e.2.resume) else e) }
  (s1.floes.keys.filter (fun f => mine (blockOf f))).foldl (fun s f => s.resumeParked f true) s1
/-- FAULT_RESOLVE (R203). -/
def execFaultResolve (c : Caller) (s : State) : Host.Outcome State Fault Refusal :=
  .next (s.serve c (isService 2) true (fun q s => .reply 0 0 (s.resolve (fun b => s.asidOf b = q.asid))))

/-! ## Services 5 to 10 (R207, R251, R304, R310, R315) -/

/-- `n` bytes at a VA as the host die or a drive reads them. -/
def State.hostLoad (s : State) (asid va n : Nat) : Got (List PByte) :=
  (chunksOf va n).foldl (fun (acc : Got (List PByte)) c =>
    match acc with
    | .cause e v => .cause e v
    | .ok bs s =>
      match s.unitPlace asid .load c.1 with
      | .cause e => .cause e c.1
      | .ok (.phys pa key _) => if s.firnHolds (.phys pa key false) then .cause 0x05 c.1 else .ok (bs ++ s.physBytes pa c.2 key) s
      | .ok (.cell pa _) => .ok (bs ++ s.physBytes pa c.2 (s.memKey (pa / 128) 0)) s
      | .ok (.peer _ _) =>
        match s.peerBytes c.1 c.2 with
        | .ok ps s1 => .ok (bs ++ ps.take c.2) s1
        | .cause e v => .cause e v
      | .ok _ => .cause 0x02 c.1) (.ok [] s)

/-- OPEN_LOG (R207). -/
def execOpenLog (c : Caller) (s : State) : Host.Outcome State Fault Refusal :=
  .next (s.serve c (isService 5) false (fun q s =>
    let r := s.openLogAt q.asid (q.arg 0) (q.arg 1)
    .reply r.1 (BitVec.ofNat 64 r.2.1) r.2.2))
/-- CLOSE_LOG (R304). -/
def execCloseLog (c : Caller) (s : State) : Host.Outcome State Fault Refusal :=
  .next (s.serve c (isService 6) false (fun q s =>
    let r := s.closeLogAt q.asid (q.arg 0)
    .reply r.1 0 r.2))
/-- Service 7 for one address space: an append with tag 0 and launch 0 that commits at acceptance (R211, R304). -/
def State.hostAppend (s : State) (asid k va n : Nat) : Served :=
  match s.logs.get? k with
  | none => .reply 1 0 s
  | some g =>
    if g.asid ≠ asid || n < 16 || 262144 < n || n % 16 ≠ 0 then .reply 1 0 s
    else if g.stager.isSome then .wait s
    else if g.len < g.nextOff + 32 + n || !(s.spareLeft (g.pa + g.nextOff) (32 + n)) || (s.apndCause asid va n).isSome then .reply 1 0 s
    else match s.hostLoad asid va n with
      | .cause _ _ => .reply 1 0 s
      | .ok bs s1 =>
        let r := s1.putRecord k asid 0 0 true none bs
        .reply 0 (BitVec.ofNat 64 r.1) r.2
/-- HOST_APPEND (R304). -/
def execHostAppend (c : Caller) (s : State) : Host.Outcome State Fault Refusal :=
  .next (s.serve c (isService 7) false (fun q s => s.hostAppend q.asid (q.arg 0) (q.arg 1) (q.arg 2)))

/-- Expert controls are accepted (R313). -/
def State.expert (s : State) : Bool := bitN s.boot 1
/-- A drift control word that R251 accepts. -/
def driftOk (w : Nat) : Bool := w < 2 ^ 12 && w % 4 ≠ 3
/-- DRIFT_CONTROL (R251, R315). -/
def execDriftControl (c : Caller) (s : State) : Host.Outcome State Fault Refusal :=
  .next (s.serve c (isService 8) true (fun q s =>
    if !s.expert then .reply 3 0 s
    else if !(driftOk (q.arg 0)) then .reply 1 0 s
    else .reply 0 0 { s with drift := BitVec.ofNat 32 (q.arg 0) }))

/-- OPEN_MAILBOX_WINDOW: a window of 64 bytes at a mailbox (R310). -/
def execOpenMailboxWindow (c : Caller) (s : State) : Host.Outcome State Fault Refusal :=
  .next (s.serve c (isService 9) false (fun q s =>
    if 4095 < q.arg 0 || q.arg 1 % 64 ≠ 0 || 1 < q.arg 2 || (s.windows.get? (q.arg 0)).isSome ||
        (s.storeCause q.asid (q.arg 1) 64).isSome then .reply 1 0 s
    else .reply 0 0 { s with windows := s.windows.put (q.arg 0) ⟨q.asid, q.arg 1, 64, q.arg 2 = 1, true, 0, 0, 0, 0, [], false, 0⟩ }))
/-- CLOSE_WINDOW (R304). -/
def execCloseWindow (c : Caller) (s : State) : Host.Outcome State Fault Refusal :=
  .next (s.serve c (isService 10) false (fun q s =>
    match s.windows.get? (q.arg 0) with
    | none => .reply 1 0 s
    | some w => if w.asid = q.asid then .reply 0 0 { s with windows := s.windows.del (q.arg 0) } else .reply 1 0 s))

/-! ## Services 12 to 17 (R298, R299, R304, R312, R315) -/

/-- What a submission to a queue comes to (R299): a sequence number, or a retry with its code. -/
inductive Submitted where
  | seq (n : BitVec 48) (s : State)
  | retry (code : Nat)

/-- Append a descriptor to a submission queue (R299). -/
def State.submit (s : State) (q : Nat) (d : BitVec 1024) : Submitted :=
  let x := s.subq.getD q SubQueue.reset
  if x.asid.isNone then .retry 3
  else if x.suspended then .retry 2
  else if x.depth ≤ x.items.length then .retry 1
  else .seq (x.seq + 1) { s with subq := s.subq.put q { x with seq := x.seq + 1, items := x.items ++ [d] } }
/-- SUBMIT_LAUNCH; a `SYSC` or `ecall` caller reaches only queues and descriptors of its own address space (R304, log entry 61). -/
def execSubmitLaunch (c : Caller) (s : State) : Host.Outcome State Fault Refusal :=
  .next (s.serve c (isService 12) false (fun q s =>
    if 1023 < q.arg 1 || q.arg 0 % 128 ≠ 0 then .reply 1 0 s
    else match s.hostLoad q.asid (q.arg 0) 128 with
      | .cause _ _ => .reply 1 0 s
      | .ok bs s1 =>
        let d := BitVec.ofNat 1024 (pbNat bs)
        if c ≠ .mgmt && (descAsid d ≠ q.asid || (s1.subq.getD (q.arg 1) SubQueue.reset).asid ≠ some q.asid) then .reply 1 0 s1
        else match s1.submit (q.arg 1) d with
        | .seq n s2 => .reply 0 (n.setWidth 64) s2
        | .retry code => .reply (if code = 3 then 1 else 4) 0 s1))

/-- Suspend or resume the queues of an address space (R299). -/
def State.suspend (s : State) (asid : Nat) (on : Bool) : State :=
  { s with subq := s.subq.map (fun e => if e.2.asid = some asid then (e.1, { e.2 with suspended := on }) else e) }
/-- A launch is killed, whatever it was doing (R304). -/
def State.killLaunch (s : State) (l status cause : Nat) : State :=
  s.updLaunch l (fun x => if x.phase = .halting then x
    else { x with phase := .halting, status := status, cause := BitVec.ofNat 8 cause, causeBlk := none })
/-- ASID_TEARDOWN: mailboxes are unbound and launches killed; once these have ended, logs and windows close (R304). -/
def State.teardown (s : State) (asid : Nat) : Served :=
  let ls := (s.launches.filter (fun e => descAsid e.2.desc = asid)).map (fun e => e.1)
  let s1 := { s.suspend asid true with bindings := s.bindings.filter (fun b => b.asid ≠ asid) }
  if ls.isEmpty then
    .reply 0 0 { s1.suspend asid false with logs := s1.logs.filter (fun e => e.2.asid ≠ asid),
                                            windows := s1.windows.filter (fun e => e.2.asid ≠ asid) }
  else .wait (ls.foldl (fun s l => s.killLaunch l 3 0x10) s1)
/-- ASID_TEARDOWN (R304). -/
def execAsidTeardown (c : Caller) (s : State) : Host.Outcome State Fault Refusal :=
  .next (s.serve c (isService 13) true (fun q s => s.teardown q.asid))

/-- BIND_QUEUE (R298, R304): the page must be that of the queue's group, by its number (log entry 61). -/
def execBindQueue (c : Caller) (s : State) : Host.Outcome State Fault Refusal :=
  .next (s.serve c (isService 14) true (fun q s =>
    if 1023 < q.arg 0 || q.arg 1 ≠ q.arg 0 / 32 + 1 || q.arg 2 < 16 || 4096 < q.arg 2 then .reply 1 0 s
    else
      let x := s.subq.getD (q.arg 0) SubQueue.reset
      let y : SubQueue := { x with asid := some q.asid, page := q.arg 1, depth := q.arg 2, seq := 0, suspended := false }
      .reply 0 0 { s with subq := s.subq.put (q.arg 0) y }))

/-- Service 15 on one control (R304, R315): `set` answers none for a value outside its range. -/
def State.expertControl (s : State) (q : Call) (set basic : State → Option State) : Served :=
  if !s.expert then .reply 3 0 s
  else match (if q.arg 1 = 2 ^ 64 - 1 then basic s else set s) with
    | some s1 => .reply 0 0 s1
    | none => .reply 1 0 s
/-- EXPERT_POWER_CAP: control 0 (R316); a control above 3 has status 1. -/
def execExpertPowerCap (c : Caller) (s : State) : Host.Outcome State Fault Refusal :=
  .next (s.serve c (fun q => q.num = 15 && (q.arg 0 = 0 || 3 < q.arg 0)) true (fun q s =>
    s.expertControl q (fun s =>
      if q.arg 0 = 0 && 2000 ≤ q.arg 1 && q.arg 1 ≤ 3800 && q.arg 1 % 50 = 0 && q.arg 2 = 0 then some { s with powerCap := q.arg 1 }
      else none) (fun s => if q.arg 0 = 0 then some { s with powerCap := 3800 } else none)))
/-- EXPERT_REPLANNING_PERIOD: control 1 (R293). -/
def execExpertReplanningPeriod (c : Caller) (s : State) : Host.Outcome State Fault Refusal :=
  .next (s.serve c (fun q => q.num = 15 && q.arg 0 = 1) true (fun q s =>
    s.expertControl q (fun s =>
      if 24 ≤ q.arg 1 && q.arg 1 ≤ 2016 && q.arg 2 = 0 then some { s with replanH := q.arg 1 } else none)
      (fun s => some { s with replanH := 168 })))
/-- EXPERT_ESCALATION_THRESHOLD: control 2 (R291). -/
def execExpertEscalationThreshold (c : Caller) (s : State) : Host.Outcome State Fault Refusal :=
  .next (s.serve c (fun q => q.num = 15 && q.arg 0 = 2) true (fun q s =>
    s.expertControl q (fun s =>
      if q.arg 1 ≤ 3 && 1 ≤ q.arg 2 && q.arg 2 ≤ 4 then some { s with factors := s.factors.put (q.arg 1) (q.arg 2) } else none)
      (fun s => some { s with factors := [] })))
/-- EXPERT_ISLAND_OPERATING_POINT: control 3 (R292 to R294); the re-planning of the island stops, one that waits for its cores too. -/
def execExpertIslandOperatingPoint (c : Caller) (s : State) : Host.Outcome State Fault Refusal :=
  .next (s.serve c (fun q => q.num = 15 && q.arg 0 = 3) true (fun q s =>
    s.expertControl q (fun s =>
      let off : Int := (q.args.getD 2 0).toInt
      if q.arg 1 ≤ 31 && -25 ≤ off && off ≤ 50 then
        some { s with islands := s.islands.put (q.arg 1) { s.islands.getD (q.arg 1) Island.reset with fixed := some off, offset := off },
                      replans := s.replans.filter (fun x => x ≠ q.arg 1) }
      else none)
      (fun s => some { s with islands := s.islands.map (fun e =>
        if e.2.fixed.isSome then (e.1, { e.2 with fixed := none, offset := 0 }) else e) })))

/-- Port, drive and queue pair of services 16 and 17, where they are in range (R304). -/
def nvmeArgs (q : Call) : Option (Nat × Nat × Nat) :=
  if fieldN (q.args.getD 0 0) 0 8 ≤ 1 && q.arg 0 < 2 ^ 24 && 1 ≤ q.arg 1 && q.arg 1 ≤ 65535 then
    some (fieldN (q.args.getD 0 0) 0 8, fieldN (q.args.getD 0 0) 8 16, q.arg 1)
  else none
/-- The bindings other than that of a queue pair. -/
def State.nvmeOthers (s : State) (x : Nat × Nat × Nat) : List NvmeBind :=
  s.nvme.filter (fun b => !(b.port = x.1 && b.drive = x.2.1 && b.qp = x.2.2))
/-- BIND_NVME_QUEUE_PAIR (R304, R312). -/
def execBindNvmeQueuePair (c : Caller) (s : State) : Host.Outcome State Fault Refusal :=
  .next (s.serve c (isService 16) true (fun q s =>
    match nvmeArgs q with
    | none => .reply 1 0 s
    | some x => .reply 0 0 { s with nvme := s.nvmeOthers x ++ [⟨x.1, x.2.1, x.2.2, q.asid⟩] }))
/-- UNBIND_NVME_QUEUE_PAIR (R304, R312). -/
def execUnbindNvmeQueuePair (c : Caller) (s : State) : Host.Outcome State Fault Refusal :=
  .next (s.serve c (isService 17) true (fun q s =>
    match nvmeArgs q with
    | none => .reply 1 0 s
    | some x => .reply 0 0 { s with nvme := s.nvmeOthers x }))

end Sys2Proof.Machine
end

