-- ==== Sys2Proof/Machine/Preempt.lean ====
section
/-!
DEFINITION. Pre-emption and restore: services 3 and 4, the halt of a core, its image, and the placing of saved blocks (R167,
R236, R238, R269 to R274). A saved floe stands in its core's image in the state it held; it is pre-empted (R45) while it
stands there.
-/
namespace Sys2Proof.Machine

/-! ## The request (R269, R271) -/

/-- The bytes of one core's image (R271). -/
def imageBytes (d : BitVec 1024) (blocks : Nat) : Nat := 2048 * 1024 + blocks * (descRb d + descSb d + 64 * 1024)
/-- The bytes that a core's image of its resident blocks would take. -/
def State.coreBytes (s : State) (l c : Nat) : Nat := imageBytes (s.launch l).desc (s.blocksOfCore c).length
/-- The save area in use: images written, and those that requests have reserved. -/
def State.saveUsed (s : State) : Nat :=
  (s.images.map (fun i => i.size)).foldl (· + ·) 0 +
  (s.preempts.map (fun p => (p.2.map (fun c => s.coreBytes p.1 c)).foldl (· + ·) 0)).foldl (· + ·) 0
/-- The save area's length (R313). -/
def State.saveLen (s : State) : Nat := fieldN s.boot 320 64
/-- A block's run or its issued `MMA`s read an operand by multicast (R149). -/
def State.multicasts (s : State) (b : Nat) : Bool :=
  let k := s.core (coreOf b)
  k.run.any (fun r => r.blk = b && (upTo 64).any (fun i =>
    fieldN (r.table.getD i 0) 0 3 = 1 && opdMcast (r.table.getD i 0) ≠ 0)) ||
  k.engine.any (fun x => x.blk = b && (opdMcast x.ea ≠ 0 || opdMcast x.eb ≠ 0))
/-- The cores that a request for blocks of a launch reaches (R269). -/
def State.reach (s : State) (l first count : Nat) : List Nat :=
  let named := (s.blocksOfLaunch l).filter (fun b =>
    let id := (s.block b).id
    first ≤ id && (count = 0 || id < first + count) && !((s.core (coreOf b)).haltReq))
  let cores := (named.map coreOf) ++
    ((named.filter (fun b => s.multicasts b)).map (fun b => (upTo 8).map (fun i => coreOf b / 8 * 8 + i))).flatten
  (dedupe cores).filter (fun c => (s.blocksOfCore c).any (fun b => (s.block b).launch = l) && !((s.core c).haltReq))
/-- Service 3 on a launch of the caller's address space. -/
def State.preempt (s : State) (asid l first count : Nat) : Served :=
  match s.launches.get? l with
  | none => .reply 1 0 s
  | some x =>
    if descAsid x.desc ≠ asid then .reply 1 0 s
    else if s.saveLen = 0 then .reply 4 0 s
    else
      let cs := s.reach l first count
      if cs.isEmpty then .reply 0 0 s
      else if s.saveLen < s.saveUsed + (cs.map (fun c => s.coreBytes l c)).foldl (· + ·) 0 then .reply 4 0 s
      else .reply 0 0 (cs.foldl (fun s c => s.updCore c (fun k => { k with haltReq := true }))
        { s with preempts := s.preempts ++ [(l, cs)] })
/-- PREEMPT (R269, R271, R304). -/
def execPreempt (c : Caller) (s : State) : Host.Outcome State Fault Refusal :=
  .next (s.serve c (isService 3) true (fun q s => s.preempt q.asid (q.arg 0) (q.arg 1) (q.arg 2)))

/-! ## The halt and the drain (R167, R238, R269, R270) -/

/-- The floes of a core. -/
def State.floesOfCore (s : State) (c : Nat) : List Nat := s.floes.keys.filter (fun f => floeCore f = c)
/-- CORE_HALT: every fragment stands at a boundary, the sequencer between words and the matrix engine is idle; a drain that
has begun has reached staging. Floes that wait in `MRUN` repeat it (R408). An issued `MMA` whose delivery never comes, its fetcher having
stopped before its own, keeps the engine busy, and the halt is never complete (R167, log entry 66). -/
def State.haltCore (s : State) (c : Nat) : State :=
  let k := s.core c
  if !k.haltReq || k.halted || !k.engine.isEmpty || k.drain.isSome then s
  else
    let s1 := s.updCore c (fun k => { k with halted := true, mruns := [] })
    (s1.floesOfCore c).foldl (fun s f => s.updFloe f (fun fl =>
      Floe.settleState { fl with frags := fl.frags.map (fun (g : Fragment) =>
        if g.wait = .mrun then { g with wait := .none } else g) } s1.now)) s1
/-- CORE_HALT (R269). -/
def execCoreHalt (core : Nat) (s : State) : Host.Outcome State Fault Refusal := .next (s.haltCore core)

/-- Complete a floe's outstanding operations, as far as their causes and the horizon let them. -/
def State.drainOps (s : State) (f : Nat) : Nat → State
  | 0 => s
  | n + 1 => ((s.completeOldest f .loads).completeOldest f .stores).drainOps f n
/-- Discard the speculative window of a floe (R238): it stands again behind the fence. -/
def State.discardWindow (s : State) (f : Nat) : State :=
  match (s.floe f).fence with
  | none => s
  | some w =>
    (s.updFloe f (fun fl => { fl with fence := some { w with open_ := false, lines := [] } })).restoreRegs f w
/-- The code fetches at the head of a floe's copies that have written their slots complete (R172, R270). -/
def State.endFetches (f : Nat) : Nat → State → State
  | 0, s => s
  | n + 1, s =>
    match (s.floe f).headCmd .copies with
    | none => s
    | some c => if c.kind = .cfetch && c.finished && c.pausedAt.isNone then State.endFetches f n (s.endCmd f c) else s
/-- What the engines do before an image is written: `CFETCH` completes, an engine that moves data reaches its frame boundary or its end,
`APND`, `SEND` and `RECV` run on (R270). -/
def State.drainCmds (s : State) (f : Nat) : State :=
  State.endFetches f (s.floe f).cmds.length ((s.floe f).cmds.foldl (fun s c =>
    if !c.kind.shaped then s.engineStep f c.seq .all
    else if s.midFrame f c then s.engineStep f c.seq .frame
    else s) s)
/-- A code fetch that nothing but time keeps from its completion: no guard, no cause 0x01 or 0x05, no fragment in its slot, no command or
older fetch before it. -/
def State.fetchRuns (s : State) (f : Nat) (c : EngCmd) : Bool :=
  c.kind = .cfetch && c.guardSt ≠ .held && c.pausedAt.isNone && !((s.floe f).cmdBehind c) &&
  (if c.finished then (s.floe f).headCmd .copies = some c
   else c.held.isEmpty && !(s.slotBehind f c) && (c.guardSt = .discarded || !(s.slotBusy (floeCore f) c.slot)))
/-- A stream goes on to its next frame boundary, to its end, or as far as its queues have room (R186, R270). -/
def State.drainStream (b k : Nat) : Nat → State → State
  | 0, s => s
  | n + 1, s =>
    match (s.block b).streams.get? k with
    | none => s
    | some st => if st.ended || st.atFrame then s else State.drainStream b k n (s.deliverEntry b k)
/-- The streams of a core's blocks reach a place where they stop; a queue has room for at most 16 entries. -/
def State.drainStreams (s : State) (c : Nat) : State :=
  (s.blocksOfCore c).foldl (fun s b => (s.block b).streams.keys.foldl (fun s k => State.drainStream b k 16 s) s) s
/-- A floe's windows are discarded, its operations and fences complete, its engines stand. -/
def State.drainFloe (s : State) (f : Nat) : State :=
  let s1 := s.discardWindow f
  ((s1.drainOps f (s1.floe f).ops.length).completeFences f).drainCmds f
/-- The floes of a core drain, again for as many times as there are, since one's code fetch may stand behind another's (R355). -/
def State.drainCore (c : Nat) : Nat → State → State
  | 0, s => s
  | n + 1, s => State.drainCore c n ((s.floesOfCore c).foldl (fun s f => s.drainFloe f) s)
/-- What a floe keeps outstanding is held by cause 0x01 or 0x05 alone, none of its commands stands within a frame, and its code fetches have
completed. -/
def State.drained (s : State) (f : Nat) : Bool :=
  let fl := s.floe f
  fl.fence.isNone && fl.rels.isEmpty && fl.ops.all (fun o => fl.parked.any (fun p => !p.op.lanes.isEmpty && p.op.seq = o.seq)) &&
  !(fl.cmds.any (fun c => s.midFrame f c || s.fetchRuns f c))

/-! ## The image (R270, R272) -/

/-- What an image keeps of its core (R272): tiles, staging, code store, the run and its launch's undelivered buffers (R149). -/
def Core.saved (k : Core) (l : Nat) : Core :=
  { Core.reset with slots := k.slots, run := k.run, nextRun := k.nextRun, ending := k.ending, mcast := k.mcast.filter (fun e => e.1 / 64 = l),
                    tiles := k.tiles, staging := k.staging, lastLaunch := k.lastLaunch }
/-- What a core keeps once its blocks have left it: L1, translations, time and its tiles; it is ready for other blocks. -/
def Core.left (k : Core) : Core :=
  { k with run := none, mruns := [], ending := [], engine := [], drain := none, staging := [], haltReq := false,
           halted := false }
/-- Take a request's core off the list. -/
def State.donePreempt (s : State) (c : Nat) : State :=
  { s with preempts := (s.preempts.map (fun p => (p.1, p.2.filter (fun x => x ≠ c)))).filter (fun p => !p.2.isEmpty) }
/-- A floe as its image holds it: one with a fault pending is saved parked (R46). -/
def Floe.saved (fl : Floe) : Floe := if fl.due.isEmpty then fl else { fl with st := .parked }
/-- A block as its image holds it: its streams translate afresh at restore (R199, R273). -/
def Block.saved (b : Block) : Block := { b with streams := b.streams.map (fun e => (e.1, { e.2 with held := [] })) }
/-- SAVE_IMAGE_WRITE: a halted core drains, a drain that repeats reaching staging too (R166, R167), and once drained its blocks leave for
their image. -/
def State.saveImage (s : State) (c : Nat) : State :=
  if !((s.core c).halted) || (s.core c).drain.isSome then s
  else
    let s1 := (State.drainCore c (s.floesOfCore c).length s).drainStreams c
    if !((s1.floesOfCore c).all (fun f => s1.drained f)) then s1
    else match s1.blocksOfCore c with
      | [] => (s1.updCore c Core.left).donePreempt c
      | b :: _ =>
        let l := (s1.block b).launch
        let i : CoreImage :=
          { launch := l, core := c, size := s1.coreBytes l c, image := (s1.core c).saved l,
            blocks := (s1.blocks.filter (fun e => coreOf e.1 = c)).map (fun e => (e.1, e.2.saved)),
            floes := (s1.floes.filter (fun e => floeCore e.1 = c)).map (fun e => (e.1, e.2.saved)) }
        ({ s1 with images := s1.images ++ [i], blocks := s1.blocks.filter (fun e => coreOf e.1 ≠ c),
                   floes := s1.floes.filter (fun e => floeCore e.1 ≠ c) }.updCore c (fun k => (k.left).dropCasts l)).donePreempt c
/-- SAVE_IMAGE_WRITE (R270). -/
def execSaveImageWrite (core : Nat) (s : State) : Host.Outcome State Fault Refusal := .next (s.saveImage core)

/-! ## Restore (R236, R273, R274) -/

/-- Service 4 on a launch of the caller's address space. -/
def State.restoreCall (s : State) (asid l : Nat) : Served :=
  match s.launches.get? l with
  | none => .reply 1 0 s
  | some x =>
    if descAsid x.desc ≠ asid then .reply 1 0 s
    else if s.savedLaunch l && !(l ∈ s.restores) then .reply 0 0 { s with restores := s.restores ++ [l] }
    else .reply 0 0 s
/-- RESTORE (R273, R304). -/
def execRestore (c : Caller) (s : State) : Host.Outcome State Fault Refusal :=
  .next (s.serve c (isService 4) true (fun q s => s.restoreCall q.asid (q.arg 0)))

/-- The core that an image left can take it back (R274): no block of another launch, its positions free, no halt under way, and the
tick of R236 not held back. -/
def State.canReturn (s : State) (i : CoreImage) : Bool :=
  let k := s.core i.core
  !k.haltReq && (s.blocksOfCore i.core).all (fun b => (s.block b).launch = i.launch) &&
  i.blocks.all (fun e => (s.blocks.get? e.1).isNone) && s.mayTick i.core
/-- Put an image back on its core. -/
def State.putImage (s : State) (i : CoreImage) : State :=
  let s1 := s.updCore i.core (fun k =>
    { k.prepare i.launch with slots := i.image.slots, run := i.image.run, nextRun := i.image.nextRun, ending := i.image.ending,
                              mcast := i.image.mcast.foldl (fun t e => t.put e.1 e.2) k.mcast, tiles := i.image.tiles, staging := i.image.staging })
  { s1 with blocks := i.blocks.foldl (fun t e => t.put e.1 e.2) s1.blocks,
            floes := i.floes.foldl (fun t e => t.put e.1 e.2) s1.floes }
/-- A restored floe: the core's floor, and a parked one whose fault is pending stands before it again (R46, R236). -/
def Floe.restored (fl : Floe) (floor : BitVec 16) (now : Nat) : Floe :=
  Floe.settleState { fl with floor := floor, st := if fl.st = .parked && fl.parked.isNone then .waiting else fl.st } now
/-- The restore step of R236 on one core; what its causes held translates again (R273), and the floes whose cohort phase has completed
meanwhile leave it (R44). -/
def State.wakeImage (s : State) (i : CoreImage) : State :=
  let s1 := s.advance i.core
  let t := (s1.core i.core).ctime
  let s2 := i.floes.foldl (fun (s : State) (e : Nat × Floe) => s.updFloe e.1 (fun fl => fl.restored t s1.now)) s1
  let s3 := s2.resolve (fun b => (i.blocks.get? b).isSome)
  i.floes.foldl (fun s e => s.releaseCohorts e.1) s3
/-- RESTORE_PLACEMENT: a launch that waits for its restore returns once every core and position it left is free; `State.freeOn` keeps new blocks
off those cores meanwhile (R274). -/
def State.restorePlaced (s : State) (l : Nat) : State :=
  let is := s.images.filter (fun i => i.launch = l)
  if !(l ∈ s.restores) || !(is.all (fun i => s.canReturn i)) then s
  else
    let s1 := is.foldl (fun s i => s.putImage i) s
    is.foldl (fun s i => s.wakeImage i)
      { s1 with images := s1.images.filter (fun i => i.launch ≠ l), restores := s1.restores.filter (fun x => x ≠ l) }
/-- RESTORE_PLACEMENT (R273, R274). -/
def execRestorePlacement (l : Nat) (s : State) : Host.Outcome State Fault Refusal := .next (s.restorePlaced l)

end Sys2Proof.Machine
end

