-- ==== Sys2Proof/Machine/Reliability.lean ====
section
/-!
DEFINITION. Rollback and replay (R276, R287 to R289), frame and cluster retirement (R213, R274, R279 to R282, R290), event counts
(R291), ageing (R292 to R295), the firn's upkeep (R307), the event ring (R305) and the power cap (R316).
-/
namespace Sys2Proof.Machine

/-! ## Rollback and replay (R287 to R289) -/

/-- Write a frame back from its snapshot, with its poison; every die's copies of its lines leave (R287 step 3). -/
def State.restoreFrame (s : State) (c : Snapshot) : State :=
  let s1 := (upTo 512).foldl (fun s i => (s.dropAlias (c.frame * 512 + i)).probeOthers none (c.frame * 512 + i)) s
  { s1 with mem := c.bytes.foldl (fun t e => t.set 0 (c.frame * 2 ^ 16 + e.1) e.2) (s1.mem.filter (fun e => frameOf e.1 ≠ c.frame)),
            badWords := s1.badWords.filter (fun w => w / 2 ^ 14 ≠ c.frame) ++ c.bad.map (fun w => c.frame * 2 ^ 14 + w) }
/-- Restore a launch's frames from the pool and release them. -/
def State.restoreFrames (s : State) (l : Nat) : State :=
  let s1 := (s.snapshots.filter (fun c => c.launch = l)).foldl (fun s c => s.restoreFrame c) s
  { s1 with snapshots := s1.snapshots.filter (fun c => c.launch ≠ l) }
/-- A snapshot of a launch whose frame still moves (R287 step 3). -/
def State.frameMoves (s : State) (l : Nat) : Bool :=
  s.snapshots.any (fun c => c.launch = l && s.migrations.any (fun m => m.dst = c.frame && m.ptr < 512))
/-- The floes of a launch. -/
def State.floesOfLaunch (s : State) (l : Nat) : List Nat := s.floes.keys.filter (fun f => (s.block (blockOf f)).launch = l)
/-- The sends of certain floes go on. -/
def State.runSendsOf (s : State) (fs : List Nat) : State :=
  fs.foldl (fun s f => ((s.floe f).cmds.filter (fun c => c.kind = .send)).foldl (fun s c => s.engineStep f c.seq .all) s) s
/-- The sends of a launch go on, those of its saved blocks too (R270, R287 step 2). -/
def State.runSends (s : State) (l : Nat) : State :=
  (s.images.filter (fun i => i.launch = l)).foldl (fun s i => s.withImage i (fun s => s.runSendsOf i.floes.keys))
    (s.runSendsOf (s.floesOfLaunch l))
/-- A send of a floe has not ended and goes on: no guard, no earlier command and no absent page holds it. -/
def Floe.sending (fl : Floe) : Bool :=
  fl.cmds.any (fun c => c.kind = .send && c.guardSt = .free && !c.finished && c.pausedAt.isNone && !(fl.cmdBehind c))
def State.sending (s : State) (l : Nat) : Bool :=
  (s.floesOfLaunch l).any (fun f => (s.floe f).sending) ||
  s.images.any (fun i => i.launch = l && i.floes.any (fun e => e.2.sending))
/-- The cores that hold or held blocks of a launch prepare themselves again. -/
def State.forgetCores (s : State) (l : Nat) : State :=
  { s with cores := s.cores.map (fun (e : Nat × Core) => if e.2.lastLaunch = l then (e.1, { e.2 with lastLaunch := 0 }) else e) }
/-- What a rolled-back run leaves behind goes (R287 steps 1, 2 and 4): its blocks, images, staged records, replicas, halts. -/
def State.clearRun (s : State) (l : Nat) : State :=
  let s1 := (s.blocksOfLaunch l).foldl (fun s b => s.removeBlock b) (s.discardStaged l)
  { (s1.forgetCores l).dropCasts l with
    images := s1.images.filter (fun i => i.launch ≠ l)
    restores := s1.restores.filter (fun x => x ≠ l)
    preempts := s1.preempts.filter (fun p => p.1 ≠ l)
    windows := s1.windows.map (fun (e : Nat × RecvWindow) =>
      if e.2.launch = l && !e.2.mailbox then (e.1, { e.2 with orphan := true }) else e) }
/-- ROLLBACK: once the launch's engines stand at frame boundaries and its sends have ended, its frames are restored and its state
discarded; it then waits to be placed again. A rollback for poison counts towards the limit of three (R287, R289). -/
def State.rollback (s : State) (l : Nat) : State :=
  if (s.launch l).phase ≠ .rolledBack || s.frameMoves l || s.inFrame l then s
  else
    let s1 := s.runSends l
    if s1.sending l then s1
    else ((s1.restoreFrames l).clearRun l).updLaunch l (fun x =>
      { x with phase := .toReplay, rollbacks := if x.cause = 0x0D then x.rollbacks + 1 else x.rollbacks, cause := 0,
               replicas := [], soiled := [], staged := [], armed := false, snapSet := [] })
/-- ROLLBACK (R287). -/
def execRollback (l : Nat) (s : State) : Host.Outcome State Fault Refusal := .next (s.rollback l)

/-- An accepted launch that no core can take any more ends with status 2 (R33, R35, R290, log entry 56). -/
def State.endUnfit (s : State) (l : Nat) : State :=
  let x := s.launch l
  if (x.phase = .queued && s.unfit x.desc) || (x.phase = .running && x.placed < descNblocks x.desc && (s.mappedDies x.desc).isEmpty &&
      (s.blocksOfLaunch l).isEmpty && !(s.savedLaunch l)) then s.haltLaunch l 2 0 none
  else s
/-- The launches that a smaller cluster map no longer fits end. -/
def State.endUnfits (s : State) : State := s.launches.keys.foldl (fun s l => s.endUnfit l) s
/-- A launch's replay begins as a new launch would, with its images read again (R288, R459); the cohort table is not checked again (log
entry 52). -/
def State.replay (s : State) (l : Nat) : State :=
  let x := s.launch l
  if x.phase ≠ .toReplay || x.dies.any (fun d => s.leaving.any (fun e => e.1 = d)) then s
  else if s.unfit x.desc then s.killLaunch l 2 0
  else match s.readImages l x.desc with
    | .cause c => s.killLaunch l 3 c
    | .ok image bad params cohorts badParams s1 =>
      s1.updLaunch l (fun x =>
        { x with image := image, badImage := bad, badParams := badParams, params := params, cohorts := cohorts, phase := .queued,
                 placed := 0, finished := [], cohPhase := [], driftStep := 0, dies := s1.mappedDies x.desc })
/-- LAUNCH_REPLAY (R288). -/
def execLaunchReplay (l : Nat) (s : State) : Host.Outcome State Fault Refusal := .next (s.replay l)

/-- The launches with blocks on a die, resident or saved. -/
def State.launchesOn (s : State) (d : Nat) : List Nat :=
  dedupe ((s.blocks.filter (fun e => dieOfCore (coreOf e.1) = d)).map (fun e => e.2.launch) ++
    (s.images.filter (fun i => dieOfCore i.core = d)).map (fun i => i.launch))
/-- LINK_RETRY_EXHAUSTED: the die leaves service, and every launch with blocks on it rolls back or is killed (R276, R289); once none has
blocks on it, its cluster map is empty (R15, log entry 56). -/
def State.linkFails (s : State) (d : Nat) : State :=
  if 4 ≤ d then s
  else if (s.die d).inLink then (s.launchesOn d).foldl (fun s l => s.consume l none) (s.updDie d (fun x => { x with inLink := false }))
  else if (s.launchesOn d).isEmpty then (s.updDie d (fun x => { x with map := [] })).endUnfits
  else s
/-- LINK_RETRY_EXHAUSTED (R276). -/
def execLinkRetryExhausted (die : Nat) (s : State) : Host.Outcome State Fault Refusal := .next (s.linkFails die)

/-! ## Frame retirement (R213, R280 to R282) -/

/-- The memory controller of a frame: its tier and stack (R213, R225). -/
def controllerOf (fr : Nat) : Nat := fr / 2 ^ 28 % 4 * 8 + fr / 2 ^ 20 % 8
/-- A moraine entry (R281). -/
def moraineEntry (time : W64) (count frame reason : Nat) : BitVec 128 :=
  BitVec.ofNat 128 (time.toNat * 2 ^ 64 + count * 2 ^ 48 + frame % 2 ^ 30 * 2 ^ 16 + reason % 2 ^ 8 * 2 ^ 8)
/-- Rekey the snapshots of a frame that begins to move (R287). -/
def State.rekeySnapshots (s : State) (src dst : Nat) : State :=
  { s with
    snapshots := s.snapshots.map (fun c => if c.frame = src then { c with frame := dst } else c)
    launches := s.launches.map (fun (e : Nat × Launch) => (e.1, { e.2 with snapSet := e.2.snapSet.map (fun x => if x = src then dst else x) })) }
/-- A pair of frames that a retirement may use: one tier, 0 or 1, neither retired nor moving, the destination from the free pool (R280). -/
def State.framesOk (s : State) (src dst : Nat) : Bool :=
  paOk (src * 2 ^ 16) && paOk (dst * 2 ^ 16) && paTier (src * 2 ^ 16) = paTier (dst * 2 ^ 16) && paTier (src * 2 ^ 16) ≤ 1 &&
  src ≠ dst && !(s.retired src) && !(s.retired dst) && dst ∈ s.freePool &&
  !(s.migrations.any (fun m => m.src = src || m.dst = src || m.src = dst || m.dst = dst))
/-- Firmware has a reason of R281 to retire a frame: one of its own findings (R279), or the host's request (reason 6). -/
def State.mayRetire (s : State) (src reason : Nat) : Bool := reason = 6 || ((src, reason) ∈ s.condemned && 1 ≤ reason && reason ≤ 5)
/-- Set the step of a retirement. -/
def State.retireStage (s : State) (srcs : List Nat) (n : Nat) : State :=
  { s with retiring := s.retiring.map (fun x => if x.src ∈ srcs then { x with stage := n } else x) }
/-- The consecutive frames from one on whose retirements wait for one entry of a reason, `fuel` at most (R281 count). -/
def State.retireRun (s : State) (reason : Nat) : Nat → Nat → List Nat
  | 0, _ => []
  | n + 1, fr =>
    if s.retiring.any (fun r => r.src = fr && r.stage = 3 && r.reason = reason) then fr :: s.retireRun reason n (fr + 1) else []
/-- FRAME_RETIREMENT: the next step of R280 for a frame: its migration entry, with a destination from the free pool; the request for a
remap once it has moved; the moraine entry once the host has remapped it; the entry's second copy, which makes it durable; the end, which
returns nothing to the pool. A full list refuses it (R282). -/
def State.retireFrame (s : State) (src dst reason : Nat) : State :=
  match s.retiring.find? (fun r => r.src = src) with
  | none =>
    if !(s.framesOk src dst && s.mayRetire src reason) then s
    else
      let s0 := { s with condemned := s.condemned.filter (fun e => e.1 ≠ src) }
      if 2 ^ 20 ≤ s.moraine.length + s.retiring.length then s0.event 2 (src * 2 ^ 16) 0
      else if 64 ≤ (s.migrations.filter (fun m => controllerOf m.src = controllerOf src)).length then s
      else { s0.rekeySnapshots src dst with migrations := s.migrations ++ [⟨src, dst, 0⟩], freePool := s.freePool.filter (fun x => x ≠ dst),
                                            retiring := s.retiring ++ [⟨src, dst, reason, 1⟩] }
  | some r =>
    match r.stage with
    | 1 =>
      if s.migrations.any (fun m => m.src = src && m.ptr < 512) || 1024 ≤ s.evBacklog.length then s
      else (s.event 1 (r.src * 2 ^ 16) (r.dst * 2 ^ 16)).retireStage [src] 2
    | 2 => s
    | 3 =>
      let run := s.retireRun r.reason 65535 src
      { s with moraine := s.moraine ++ [moraineEntry s.time run.length src r.reason] }.retireStage run 4
    | 4 => { s with moraine2 := s.moraine }.retireStage [src] 5
    | _ =>
      let s1 := (upTo 512).foldl (fun s i => s.probeOthers none (src * 512 + i)) s
      { s1 with migrations := s1.migrations.filter (fun m => m.src ≠ src), retiring := s1.retiring.filter (fun x => x.src ≠ src) }
/-- FRAME_RETIREMENT (R280). -/
def execFrameRetirement (src dst reason : Nat) (s : State) : Host.Outcome State Fault Refusal :=
  .next (s.retireFrame src dst reason)
/-- REMAP_DONE: service 11 (R280, R304). -/
def execRemapDone (c : Caller) (s : State) : Host.Outcome State Fault Refusal :=
  .next (s.serve c (isService 11) true (fun q s =>
    if s.retiring.any (fun r => r.src * 2 ^ 16 = q.arg 0 && r.stage = 2) then
      .reply 0 0 { s with retiring := s.retiring.map (fun r =>
        if r.src * 2 ^ 16 = q.arg 0 && r.stage = 2 then { r with stage := 3 } else r) }
    else .reply 1 0 s))

/-! ## Cluster retirement (R274, R289 to R291) -/

/-- The cores of a logical cluster of a die. -/
def inCluster (d cl c : Nat) : Bool := dieOfCore c = d && c % 96 / 8 = cl
/-- The launches with blocks on a cluster, resident or saved. -/
def State.launchesOnCluster (s : State) (d cl : Nat) : List Nat :=
  dedupe ((s.blocks.filter (fun e => inCluster d cl (coreOf e.1))).map (fun e => e.2.launch) ++
    (s.images.filter (fun i => inCluster d cl i.core)).map (fun i => i.launch))
/-- Steps 1 to 3 of R290 begin: replayable launches on the die roll back, without counting; the others on the cluster are
killed (R274, R289). -/
def State.leaveCluster (s : State) (d cl : Nat) : State :=
  let s1 := (s.launchesOn d).foldl (fun s l =>
    if s.replayable l then s.updLaunch l (fun x => if x.phase = .running then { x with phase := .rolledBack, cause := 0 } else x)
    else if l ∈ s.launchesOnCluster d cl then s.haltLaunch l 4 0x0D none else s) s
  { s1 with leaving := s1.leaving ++ [(d, cl)] }
/-- What a table holds per core, `n` keys to a core: the retired cluster's goes, and the clusters of the die behind it move down by one,
with all that their cores keep (R15, log entry 56). -/
def shiftCores {α : Type} (d cl n : Nat) (t : Tab α) : Tab α :=
  (t.filter (fun e => !(inCluster d cl (e.1 / n)))).map (fun e =>
    if dieOfCore (e.1 / n) = d && cl < e.1 / n % 96 / 8 then (e.1 - 8 * n, e.2) else e)
/-- The logical clusters of a compute island (R16). -/
def State.islandClusters (s : State) (i : Nat) : List Nat :=
  (upTo (s.die (i / 6)).map.length).filter (fun cl => (s.die (i / 6)).map.getD cl 0 / 2 = i % 6)
def State.island (s : State) (i : Nat) : Island := s.islands.getD i Island.reset
def State.updIsland (s : State) (i : Nat) (g : Island → Island) : State := { s with islands := s.islands.put i (g (s.island i)) }
/-- An island both of whose clusters are retired is powered down (R17, log entry 56). -/
def State.powerDown (s : State) (i : Nat) : State :=
  if (s.islandClusters i).isEmpty then s.updIsland i (fun x => { x with off := true }) else s
/-- A non-replayable launch has begun on a die and can end without it: its blocks are placed, or other dies take the rest. Its retirement
waits for that launch (R15, R290 step 3, log entry 56). -/
def State.outlives (s : State) (d : Nat) (x : Launch) : Bool :=
  !x.replay && d ∈ x.dies && (x.phase = .halting ||
    (x.phase = .running && 0 < x.placed && (x.placed = descNblocks x.desc || !(s.openDies x []).isEmpty)))
/-- CLUSTER_RETIREMENT: the die empties, then the new map is written, the first step of a launch that no core can take any more included
(R35, R290). A saved launch of other clusters holds it until it is restored and has ended (R274). -/
def State.retireCluster (s : State) (d cl : Nat) : State :=
  if 4 ≤ d || (s.die d).map.length ≤ cl then s
  else if !((d, cl) ∈ s.leaving) then s.leaveCluster d cl
  else if !(s.launchesOn d).isEmpty || s.launches.any (fun e => s.outlives d e.2) then s
  else
    let p := (s.die d).map.getD cl 0
    let s1 := { s.updDie d (fun x => { x with map := x.map.eraseIdx cl }) with
      leaving := (s.leaving.filter (fun e => e ≠ (d, cl))).map (fun (e : Nat × Nat) => if e.1 = d && cl < e.2 then (e.1, e.2 - 1) else e)
      cores := shiftCores d cl 1 s.cores
      counts := shiftCores d cl 4 s.counts
      acted := shiftCores d cl 4 s.acted }
    ((s1.powerDown (d * 6 + p / 2)).endUnfits).event 3 (d * 12 + p) 0
/-- CLUSTER_RETIREMENT (R290). -/
def execClusterRetirement (die cluster : Nat) (s : State) : Host.Outcome State Fault Refusal :=
  .next (s.retireCluster die cluster)

/-- The thresholds of R291, by row. -/
def basicThreshold : Nat → Nat
  | 0 => 8 | 1 => 2 | 2 => 2 | _ => 1
/-- The threshold of a row under expert control 2. -/
def State.threshold (s : State) (row : Nat) : Nat := basicThreshold row * s.factors.getD row 1
/-- Begin to retire clusters of a die, unless they leave already. -/
def State.leaveAll (s : State) (d : Nat) (cls : List Nat) : State :=
  cls.foldl (fun s cl => if cl < (s.die d).map.length && !((d, cl) ∈ s.leaving) then s.leaveCluster d cl else s) s
/-- The sliding window of a row of R291, in hours; the last row has none. -/
def countWindow : Nat → Option Nat
  | 0 => some 1 | 1 => some 24 | 2 => some 720 | _ => none
/-- The count of a row's sliding window when its newest event of a list came. -/
def countAt (row : Nat) : List W64 → Nat
  | [] => 0
  | t :: ts =>
    match countWindow row with
    | some h => 1 + (ts.filter (fun x => t.toNat < x.toNat + h * 3600000000000)).length
    | none => 1 + ts.length
/-- One of the newest `n` events of a list brought the count of its row to a threshold. -/
def reached (row threshold : Nat) : Nat → List W64 → Bool
  | _, [] => false
  | 0, _ => false
  | n + 1, t :: ts => countAt row (t :: ts) = threshold || reached row threshold n ts
/-- A count has reached its row's threshold since the row last acted (R291). -/
def State.mustAct (s : State) (c row : Nat) : Bool :=
  let ts := s.counts.getD (c * 4 + row) []
  reached row (s.threshold row) (ts.length - s.acted.getD (c * 4 + row) 0) ts
/-- An island that expert control 3 holds at an offset is not re-planned (R304). -/
def State.fixedIsland (s : State) (i : Nat) : Bool := (s.islands.getD i Island.reset).fixed.isSome
/-- ESCALATION_THRESHOLD: a count that has reached its threshold acts once; its window slides on (R291). -/
def State.escalate (s : State) (c row : Nat) : State :=
  if 4 ≤ row || !(s.mustAct c row) then s
  else
    let s1 := { s with acted := s.acted.put (c * 4 + row) (s.counts.getD (c * 4 + row) []).length }
    match row with
    | 0 => if s1.fixedIsland (s1.islandOf c) then s1 else { s1 with replans := dedupe (s1.replans ++ [s1.islandOf c]) }
    | 3 => s1.leaveAll (dieOfCore c) (s1.islandClusters (s1.islandOf c))
    | _ => s1.leaveAll (dieOfCore c) [c % 96 / 8]
/-- ESCALATION_THRESHOLD (R291). -/
def execEscalationThreshold (core row : Nat) (s : State) : Host.Outcome State Fault Refusal := .next (s.escalate core row)

/-! ## Ageing (R292 to R295) -/

/-- The parts of the package that an island covers (R16). -/
inductive Part where
  | cluster (die phys : Nat) | cacheStack (die : Nat) | hostCluster (n : Nat) | sharedCache | storageProcessor | rimeEngine
  | bootMicrocontroller | networkEngine | pciePorts
  deriving DecidableEq, Repr
/-- The parts of island i (R16). -/
def islandParts (i : Nat) : List Part :=
  if i < 24 then [.cluster (i / 6) (i % 6 * 2), .cluster (i / 6) (i % 6 * 2 + 1)]
  else if i < 28 then [.cacheStack (i - 24)]
  else if i = 28 then (upTo 4).map .hostCluster
  else if i = 29 then (upTo 4).map (fun k => .hostCluster (4 + k)) ++ [.sharedCache]
  else if i = 30 then [.storageProcessor, .rimeEngine, .bootMicrocontroller]
  else [.networkEngine, .pciePorts]

/-- The oscillators of an island are sampled (R292). -/
def State.sample (s : State) (i : Nat) (freqs : List Nat) : State :=
  if i < 32 && freqs.length = 32 && !(s.island i).off then s.updIsland i (fun x => { x with samples := freqs }) else s
/-- OSCILLATOR_SAMPLE (R292). -/
def execOscillatorSample (island : Nat) (freqs : List Nat) (s : State) : Host.Outcome State Fault Refusal :=
  .next (s.sample island freqs)
/-- A list in ascending order. -/
def insertInt (x : Int) : List Int → List Int
  | [] => [x]
  | y :: t => if x ≤ y then x :: y :: t else y :: insertInt x t
def sortInt (l : List Int) : List Int := l.foldr insertInt []
/-- How much an oscillator has slowed against its baseline, in ppm; without a baseline it has not (log entry 60). -/
def slowdown (base now : Nat) : Int := if base = 0 then 0 else ((base : Int) - now) * 1000000 / base
/-- The median slowdown of an island's oscillators, the mean of the two middle ones (R295, log entry 60). -/
def Island.roShift (x : Island) : Int :=
  let l := sortInt ((x.baseline.zip x.samples).map (fun e => slowdown e.1 e.2))
  (l.getD ((l.length - 1) / 2) 0 + l.getD (l.length / 2) 0) / 2
/-- The smallest margin of an island's canary paths, in mV (R292). -/
def Island.margin (x : Island) : Nat := x.canaries.foldl Nat.min (x.canaries.headD 0)

/-- An island's nominal frequency in MHz: 3000 for the compute islands (R6). -/
def nominalMHz (i : Nat) : Nat := if i < 24 then 3000 else Config.uncoreMHz i
/-- Append an ageing record (R295). -/
def State.logAgeing (s : State) (i action : Nat) : State :=
  let x := s.island i
  { s with ageing := s.ageing ++ [BitVec.ofNat 256 (s.time.toNat * 2 ^ 192 + (BitVec.ofInt 32 x.roShift).toNat * 2 ^ 160 +
      x.margin % 2 ^ 16 * 2 ^ 144 + (BitVec.ofInt 16 x.offset).toNat * 2 ^ 128 + nominalMHz i * (x.freq - x.cut) / 100 % 2 ^ 16 * 2 ^ 112 +
      i % 2 ^ 8 * 2 ^ 104 + action * 2 ^ 96)] }
/-- R293's steps: `ms` are what the 16 canary paths show after each step; the island and the action of R295. `slow` is false for an
island whose frequency is fixed. -/
def replan (slow : Bool) : List (List Nat) → Nat → Island → Nat → Island × Nat
  | _, 0, x, _ => (x, 3)
  | ms, n + 1, x, act =>
    let y : Island := { x with canaries := ms.headD x.canaries }
    if 25 ≤ x.margin then (x, act)
    else if x.offset < 50 then replan slow ms.tail n { y with offset := x.offset + 5 } 1
    else if slow && 80 < x.freq then replan slow ms.tail n { y with freq := x.freq - 1 } 2
    else (x, 3)
/-- Sweep an island and re-plan it, with the margins of its canary paths in groups of 16: before the first step and after each. Whether
the re-plan failed. -/
def State.sweepIsland (s : State) (i : Nat) (margins : List Nat) : State × Bool :=
  let ms := groupsOf 16 margins (margins.length / 16)
  let x := s.island i
  let r := replan (decide (i < 30)) ms.tail 64 { x with canaries := ms.headD x.canaries } 0
  let s1 := (s.updIsland i (fun _ => r.1)).logAgeing i r.2
  if r.2 = 3 then (s1.event 4 i 0, true) else (s1, false)
/-- An island under a fixed offset is swept and logged, and not re-planned (R292, R295, R304). -/
def State.logFixed (s : State) (i : Nat) (margins : List Nat) : State :=
  (s.updIsland i (fun x => { x with canaries := (groupsOf 16 margins 1).headD x.canaries })).logAgeing i 0
/-- An island's cores hold no block. -/
def State.islandEmpty (s : State) (i : Nat) : Bool := s.blocks.all (fun e => s.islandOf (coreOf e.1) ≠ i)
/-- The core that a failed re-plan of a compute island counts for: core 0 of its first mapped cluster (R291, log entry 56). -/
def State.coreOfIsland (s : State) (i : Nat) : Nat := i / 6 * 96 + (s.islandClusters i).headD 0 * 8
/-- REPLANNING_WINDOW: the distributor keeps the island's cores empty; once they are, it is swept and re-planned (R293). An island without
a mapped cluster is off (R17). Under a fixed offset no core is kept empty, and a record is all that the window leaves of a busy island (R295). -/
def State.replanIsland (s0 : State) (i : Nat) (margins samples : List Nat) : State :=
  let s := s0.sample i samples
  if 24 ≤ i || (s.islandClusters i).isEmpty then s
  else if (s.island i).fixed.isSome then (if s.islandEmpty i then s.logFixed i margins else s.logAgeing i 0)
  else if !(s.islandEmpty i) then { s with replans := dedupe (s.replans ++ [i]) }
  else
    let r := s.sweepIsland i margins
    let s1 := { r.1 with replans := r.1.replans.filter (fun x => x ≠ i) }
    if r.2 then s1.countEvent (s1.coreOfIsland i) 3 else s1
/-- REPLANNING_WINDOW (R293). -/
def execReplanningWindow (island : Nat) (margins samples : List Nat) (s : State) : Host.Outcome State Fault Refusal :=
  .next (s.replanIsland island margins samples)
/-- WINDOW_MISSED: an island stayed busy for 24 h (R293, R305). -/
def State.missWindow (s : State) (i : Nat) : State :=
  if i ∈ s.replans then ({ s with replans := s.replans.filter (fun x => x ≠ i) }.logAgeing i 4).event 4 i 0 else s
/-- WINDOW_MISSED (R293). -/
def execWindowMissed (island : Nat) (s : State) : Host.Outcome State Fault Refusal := .next (s.missWindow island)
/-- UNCORE_CANARY_SWEEP: islands 24 to 31 are swept in service; a failed re-plan of a cache stack's retires its die's clusters
(R294). -/
def State.sweepUncore (s0 : State) (i : Nat) (margins samples : List Nat) : State :=
  let s := s0.sample i samples
  if i < 24 || 32 ≤ i then s
  else if (s.island i).fixed.isSome then s.logFixed i margins
  else
    let r := s.sweepIsland i margins
    if r.2 && i < 28 then r.1.leaveAll (i - 24) (upTo (r.1.die (i - 24)).map.length) else r.1
/-- UNCORE_CANARY_SWEEP (R294). -/
def execUncoreCanarySweep (island : Nat) (margins samples : List Nat) (s : State) : Host.Outcome State Fault Refusal :=
  .next (s.sweepUncore island margins samples)

/-! ## Firn upkeep, event ring, power (R297, R305, R307, R316) -/

/-- GARBAGE_COLLECTION: lines of a flash stack are held unreachable; an exhausted spare is reported (R307). -/
def State.collect (s : State) (stack : Nat) (held : List Nat) (spareUsed : Nat) : State :=
  let mine (ln : Nat) : Bool := paOk (ln * 128) && paTier (ln * 128) = 2 && paOff (ln * 128) / 2 ^ 40 = stack
  let s1 := { s with firnHeld := dedupe (s.firnHeld ++ held.filter mine),
                     spare := s.spare.set 0 stack (Nat.max spareUsed (s.spare.getD stack 0)) }
  if s.spare.getD stack 0 < 2 ^ 37 && 2 ^ 37 ≤ spareUsed then s1.event 5 stack 0 else s1
/-- GARBAGE_COLLECTION (R307). -/
def execGarbageCollection (stack : Nat) (held : List Nat) (spareUsed : Nat) (s : State) : Host.Outcome State Fault Refusal :=
  .next (if stack < 8 then s.collect stack held spareUsed else s)

/-- EVENT_RING_DEFERRED_WRITE: the oldest held record is written where there is room; the count of dropped ones follows
(R305). -/
def State.writeHeld (s : State) : State :=
  match s.evBacklog with
  | [] => s
  | r :: t =>
    if s.evRoom = 0 then s
    else
      let s1 := { s.evWrite r with evBacklog := t }
      if s1.evDropped = 0 then s1 else { s1 with evBacklog := t ++ [eventRecord 7 s1.evDropped 0], evDropped := 0 }
/-- EVENT_RING_DEFERRED_WRITE (R305). -/
def execEventRingDeferredWrite (s : State) : Host.Outcome State Fault Refusal := .next s.writeHeld

/-- FAULT_RING_WAIT_RELEASE: the oldest run of records that waits for an address space's ring is written, where the consumer
has made room (R203); a nested fault aborts the launch that the record names (R204). -/
def State.releaseRing (s : State) (asid : Nat) : State :=
  match s.ringWaits.find? (fun w => w.1 = asid) with
  | none => s
  | some w =>
    let s1 := { s with ringWaits := s.ringWaits.erase w }
    match s1.ringPut none asid w.2 with
    | .full => s
    | .nested => s1.haltLaunch ((w.2.map (fun r => fieldN r 128 32)).headD 0) 3 0x11 none
    | .done s2 => s2
/-- FAULT_RING_WAIT_RELEASE (R203). -/
def execFaultRingWaitRelease (asid : Nat) (s : State) : Host.Outcome State Fault Refusal := .next (s.releaseRing asid)

/-- POWER_CAP_CONTROL: above the cap a compute island slows by 1 %, below it one gets 1 % back (R316). -/
def State.capPower (s : State) (watts i : Nat) : State :=
  if 24 ≤ i || (s.island i).off then s
  else if s.powerCap < watts then s.updIsland i (fun x => { x with cut := Nat.min (x.cut + 1) x.freq })
  else s.updIsland i (fun x => { x with cut := x.cut - 1 })
/-- POWER_CAP_CONTROL (R316). -/
def execPowerCapControl (watts island : Nat) (s : State) : Host.Outcome State Fault Refusal := .next (s.capPower watts island)

/-! ## Physical errors (R189, R276, R277, R279) -/

/-- An uncorrectable error in the core store, the accumulator store or staging of a core: row 2 of R291. -/
def State.coreLost (s : State) (c : Nat) (hit : Bool) (g : Core → Core) : State :=
  if hit then (s.updCore c g).countEvent c 2 else s
/-- An uncorrectable error in the core store of a block. -/
def State.blockLost (s : State) (b : Nat) (hit : Bool) (g : Block → Block) : State :=
  if (s.blocks.get? b).isSome && hit then (s.updBlock b g).countEvent (coreOf b) 2 else s
/-- A line of the firn is poisoned as delivered: in every agent that has it, else where the next reader finds it (R276). -/
def State.firnLost (s : State) (ln : Nat) : State :=
  if paTier (ln * 128) ≠ 2 then s
  else if (upTo 13).any (fun a => ((s.die a).stack.get? ln).isSome) then
    { s with dies := s.dies.map (fun (e : Nat × Die) => (e.1, { e.2 with stack := e.2.stack.map (fun x =>
        if x.1 = ln then (x.1, { x.2 with poison := BitVec.allOnes 32 }) else x) })) }
  else s.setMemPoison ln (BitVec.allOnes 32)
/-- A line of a launch's shelf is lost: one that still is what its fill gave goes, and is filled again as it is next accessed; one that has
been joined into is poisoned (R243, R276). -/
def State.shelfLost (s : State) (l key : Nat) : State :=
  match (s.launch l).replicas.get? key with
  | none => s
  | some r =>
    let ln := key % 2 ^ 46
    if r.slots.isEmpty && r.poison = 0 && r.data = fillLine r.ltype (BitVec.ofNat 1024 (s.peek (ln * 128) 128)) then
      let s1 := s.updLaunch l (fun x => { x with replicas := x.replicas.del key })
      { s1 with corrected := s1.corrected + 1 }
    else s.updLaunch l (fun x => { x with replicas := x.replicas.put key { r with poison := BitVec.allOnes 32 } })
/-- What a physical error does where it strikes; none for those that wait for the check that they fail (R138, R166). -/
def State.strike (s : State) : Upset → Option State
  | .shadow _ _ _ _ => none
  | .drainEntry _ => none
  | .drainScale _ => none
  | .drainAct _ => none
  | .drainQuant _ => none
  | .drainWrite _ => none
  | .corrected _ => some { s with corrected := s.corrected + 1 }
  | .ahead _ => some { s with corrected := s.corrected + 1 }
  | .register b w =>
    let x := s.block b
    some (s.blockLost b (decide (w < x.floes * x.width * x.nregs)) (fun x => { x with badRegs := w :: x.badRegs.filter (fun y => y ≠ w) }))
  | .spad b w =>
    some (s.blockLost b (decide (w < (s.block b).spadKiB * 256)) (fun x => { x with badSpad := w :: x.badSpad.filter (fun y => y ≠ w) }))
  | .l1 c ln =>
    if ((s.core c).l1.get? ln).isSome then
      let s1 := s.updCore c (fun k => { k with l1 := k.l1.del ln })
      some { s1 with corrected := s1.corrected + 1 }
    else some s
  | .tile c n e =>
    some (s.coreLost c (decide (n < 24 && e < 16384)) (fun k =>
      let t := k.tiles.getD n Tile.reset
      { k with tiles := k.tiles.put n { t with bad := e :: t.bad.filter (fun y => y ≠ e) } }))
  | .staging c n =>
    some (s.coreLost c (decide (n < (s.core c).staging.length)) (fun k =>
      { k with staging := k.staging.modify n (fun u => { u with bad := true }) }))
  | .code c k w =>
    some (if k < 64 && w < 512 then s.updCore c (fun x =>
      let sl := x.slot k
      { x with slots := x.slots.put k { sl with bad := dedupe (sl.bad ++ (upTo 8).map (fun i => w * 8 + i)) } }) else s)
  | .shelf l key => some (s.shelfLost l key)
  | .firn ln => some (s.firnLost ln)
  | .stack d ln => some (s.stackLost d ln)
  | .dram ln ok => some (if paOk (ln * 128) && paTier (ln * 128) ≤ 1 then (if ok then s.lineCorrected ln else s.lineLost ln) else s)
  | .failed reason frs => some (if 3 ≤ reason && reason ≤ 5 then frs.foldl (fun s fr => s.condemn fr reason) s else s)
/-- The physical errors that strike now have struck (R276). -/
def State.struck (s : State) : State :=
  s.upsets.foldl (fun s u => match s.strike u with
    | some t => t
    | none => { s with upsets := s.upsets ++ [u] }) { s with upsets := [] }

end Sys2Proof.Machine
end

