-- ==== Sys2Proof/Machine/Host.lean ====
section
/-!
DEFINITION. What reaches the package from outside the compute dies: host harts (R277, R299 to R301, R306), peers (R214), drives and
external hosts (R312), boot and power loss (R212, R282, R313, R314).
-/
namespace Sys2Proof.Machine

/-! ## Peers (R214) -/

/-- The place of a peer's access, or its cause; a lattice region's plain reads are of its base copy. -/
def State.peerPlace (s : State) (asid va n : Nat) (k : AccKind) : Checked :=
  if 2 ^ 56 ≤ va || inAperture va then .cause 0x02
  else if n = 0 || 16 < n || va % n ≠ 0 then .cause 0x03
  else placeOf k n va (s.walk asid va)
/-- PEER_ACCESS_REQUEST: the home translates and performs the access at system scope; a page that is not present leaves a
record in the home's ring, and any other cause goes back to the requester (R214). -/
def State.peerAccess (s : State) (req : PeerReq) : State :=
  let absent (s : State) (code : Nat) : State :=
    let r := faultRecord 0 0 0 0 0 0 req.asid 0 code 0 0x01 req.va
    match s.ringPut none req.asid [r] with
    | .full => { s with ringWaits := s.ringWaits ++ [(req.asid, [r])] }
    | .nested => s
    | .done s1 => s1
  match req.op with
  | .read n =>
    match s.peerPlace req.asid req.va n .load with
    | .cause c => if c = 0x01 then absent s 0 else s
    | .ok (.phys pa key _) => (s.outsideRead pa n key).2
    | .ok _ => s
  | .write bs =>
    match s.peerPlace req.asid req.va bs.length .store with
    | .cause c => if c = 0x01 then absent s 1 else s
    | .ok (.phys pa key _) => s.outsideWrite pa bs key
    | .ok _ => s
  | .atom op wide x cmp =>
    let n := if wide then 8 else 4
    match s.peerPlace req.asid req.va n .rmw with
    | .cause c => if c = 0x01 then absent s 2 else s
    | .ok (.phys pa key _) =>
      let r := s.outsideRead pa n key
      r.2.outsideWrite pa (toBytes n (atomApply op n (ofBytes r.1) (x.toNat % 256 ^ n) (cmp.toNat % 256 ^ n))) key
    | .ok _ => s
/-- PEER_ACCESS_REQUEST (R214). -/
def execPeerAccessRequest (peer : Nat) (req : PeerReq) (s : State) : Host.Outcome State Fault Refusal :=
  .next (if peer < 4096 && req.asid < 2 ^ 16 then s.peerAccess req else s)
/-- PEER_ACCESS_TIMEOUT: the lanes of a parked operation that wait for a peer take cause 0x10, a precise one (R214, R256). -/
def State.peerTimeout (s : State) (f seq : Nat) : State :=
  match (s.floe f).parked with
  | none => s
  | some p =>
    let o := ((s.floe f).ops.find? (fun x => x.seq = p.op.seq)).getD p.op
    let late := o.lanes.filter (fun a => !a.done && a.place = .absent && s.atPeer (s.asidOf (blockOf f)) a.va.toNat)
    match late with
    | [] => s
    | a :: _ =>
      if p.op.lanes.isEmpty || p.op.seq ≠ seq then s
      else s.settleParked f p { o with lanes := o.lanes.filter (fun x => !(late.any (fun y => y.lane = x.lane))) }
        (lowerHard p.hard (some (a.lane, 0x10, a.va))) [] false
/-- PEER_ACCESS_TIMEOUT (R214). -/
def execPeerAccessTimeout (f seq : Nat) (s : State) : Host.Outcome State Fault Refusal := .next (s.peerTimeout f seq)

/-! ## The submission pages (R298, R299, R304, R312) -/

/-- The device space of the host die (R313). -/
def State.devspace (s : State) : Nat := fieldN s.boot 576 64
/-- The page of the device space at an address: 0 the management page, 1 to 32 the submission pages. -/
def State.devPage (s : State) (a : Nat) : Option Nat :=
  if s.devspace ≤ a && a < s.devspace + 33 * 4096 then some ((a - s.devspace) / 4096) else none
/-- A descriptor reaches slot i of a page: the management queue, a submission queue, or no queue. -/
def State.toSlot (s : State) (page i : Nat) (d : BitVec 1024) : Submitted :=
  if page = 0 then (if i = 0 then .seq 0 { s with mgmt := s.mgmt ++ [d] } else .retry 3)
  else s.submit ((page - 1) * 32 + i) d
/-- A host hart raises an exception of RVA23, whose entry is not this manual's. -/
def State.raiseExc (s : State) (h : Nat) (e : HostExc) : State := s.updHart h (fun x => { x with exc := some e })
/-- HOST_UI_ENTRY (R301). -/
def State.hostUi (s : State) (h : Nat) : State :=
  if s.hostUiDue h then s.updHart h (fun x => { x with kuiepc := x.pc, kuien := false, pc := x.kuivec }) else s
/-- A hart goes on behind its instruction, with a value in a register. -/
def State.hartDone (s : State) (h d : Nat) (v : W64) : State :=
  s.updHart h (fun x => { x.setX d v with pc := x.pc + 4 })
/-- The coherence agent of a host hart: its cluster (R12, R14). -/
def hostAgent (h : Nat) : Nat := 4 + h / 8
/-- The key slot under which a host access reads or writes: that of the line as it stands. -/
def State.hostKey (s : State) (pa : Nat) : Nat :=
  match s.ownedLine (pa / 128) with
  | some y => y.key
  | none => s.memKey (pa / 128) 0
/-- The bytes that a host hart reads through its cluster's lines, whether one of them is poisoned, and the state (R226). -/
def State.hostRead (s : State) (h pa n : Nat) : List Byte × Bool × State := s.hostFetch (hostAgent h) pa n (s.hostKey pa)
/-- `ksubmit rd, (rs1), rs2` (R299). -/
def State.ksubmit (s : State) (h rd rs1 rs2 : Nat) : State :=
  let x := s.hart h
  let a := (x.x.getD rs1 0).toNat
  let b := (x.x.getD rs2 0).toNat
  match s.devPage a with
  | none => s.raiseExc h .storeAccess
  | some page =>
    if a % 128 ≠ 0 then s.raiseExc h .storeAccess
    else if b % 128 ≠ 0 then s.raiseExc h .loadMisaligned
    else if !(paOk b) then s.raiseExc h .loadAccess
    else
      let r := s.hostRead h b 128
      if r.2.1 then s.raiseExc h .hardwareError
      else match r.2.2.toSlot page (a % 4096 / 128) (BitVec.ofNat 1024 (ofBytes r.1)) with
        | .seq n s1 => s1.hartDone h rd (n.setWidth 64)
        | .retry code => r.2.2.hartDone h rd (BitVec.ofNat 64 (2 ^ 63 + code))
/-- `ksubmit` (R299). -/
def execKsubmit (b a d : BitVec 5) (s : State) : Host.Outcome State Fault Refusal :=
  .next (s.ksubmit s.cur.hart d.toNat a.toNat b.toNat)

/-! ## Completion interrupts of a hart (R301) -/

/-- `kuiret` (R301). -/
def execKuiret (s : State) : Host.Outcome State Fault Refusal :=
  let h := s.cur.hart
  .next (if (s.hart h).user then s.updHart h (fun x => { x with pc := x.kuiepc, kuien := true }) else s.raiseExc h .illegal)
/-- The new value of a CSR under an access that writes. -/
def csrApply (op : CsrOp) (old v : W64) : W64 :=
  match op with
  | .write => v
  | .setBits => old ||| v
  | .clearBits => old &&& ~~~v
/-- The pending word of the bound receiver is poisoned: its hart consumes it as it reads `kuipend` (R277). -/
def State.kuipendBad (s : State) (h : Nat) : Bool :=
  match s.receiver h with
  | some e => (s.peekPoison (e / 128) &&& wordsTouched (e % 128) 8) ≠ 0
  | none => false
/-- An instruction of a hart; the completion interrupt that is due at its boundary is entered instead (R12, R301). -/
def State.hartStep (s : State) (h : Nat) (k : State → State) : State :=
  if 64 ≤ h then s else if s.hostUiDue h then s.hostUi h else k s
/-- KUIPEND_ACCESS: read and written at once (R301). -/
def State.accessKuipend (s : State) (h d : Nat) (op : CsrOp) (v : W64) : State :=
  if s.kuipendBad h then s.raiseExc h .hardwareError
  else
    let old := s.kuipend h
    let s1 := match s.receiver h with
      | some e => s.hostWrite (hostAgent h) e (toBytes 8 (csrApply op old v).toNat) (s.hostKey e)
      | none => s
    s1.hartDone h d old
/-- KUIPEND_ACCESS (R301). -/
def execKuipendAccess (hart : Nat) (d : BitVec 5) (op : CsrOp) (v : BitVec 64) (s : State) : Host.Outcome State Fault Refusal :=
  .next (s.hartStep hart (fun s => s.accessKuipend hart d.toNat op v))
/-- Write a CSR of R301 other than `kuipend`. -/
def Hart.setCsr (x : Hart) (csr : Nat) (v : W64) : Hart :=
  match csr with
  | 0x5C0 => { x with kuirecv := v.setWidth 13 }
  | 0x8C1 => { x with kuien := v.getLsbD 0 }
  | 0x8C2 => { x with kuivec := v &&& ~~~3 }
  | 0x8C3 => { x with kuiepc := v }
  | _ => x
/-- Read a CSR of R301 (R301). -/
def State.csr (s : State) (h csr : Nat) : W64 :=
  let x := s.hart h
  match csr with
  | 0x5C0 => x.kuirecv.setWidth 64
  | 0x8C0 => s.kuipend h
  | 0x8C1 => if x.kuien then 1 else 0
  | 0x8C2 => x.kuivec
  | 0x8C3 => x.kuiepc
  | _ => 0
/-- A CSR of R301 that a hart may reach: `kuirecv` is not U-mode's. -/
def Hart.mayCsr (x : Hart) (csr : Nat) : Bool := csr ≠ 0x5C0 || !x.user
/-- A CSR number of R301. -/
def isKuCsr (csr : Nat) : Bool := csr = 0x5C0 || (0x8C0 ≤ csr && csr ≤ 0x8C3)
/-- REGISTER_WRITE: a CSR of R301 without behaviour of its own. -/
def State.writeCsr (s : State) (h : Nat) (csr : BitVec 12) (v : W64) : State :=
  let n := csr.toNat
  if !(isKuCsr n) || n = 0x8C0 then s
  else if !((s.hart h).mayCsr n) then s.raiseExc h .illegal
  else s.updHart h (fun x => { x.setCsr n v with pc := x.pc + 4 })
/-- REGISTER_WRITE (R301). -/
def execRegisterWrite (hart : Nat) (csr : BitVec 12) (v : BitVec 64) (s : State) : Host.Outcome State Fault Refusal :=
  .next (s.hartStep hart (fun s => s.writeCsr hart csr v))
/-- The access of a CSR instruction of RVA23, by its funct3 (log entry 62). -/
def csrOp (f3 : Nat) : CsrOp := if f3 % 4 = 2 then .setBits else if f3 % 4 = 3 then .clearBits else .write
/-- A CSR instruction of RVA23 on a CSR of R301: `csrrw`, `csrrs`, `csrrc` and their immediate forms (log entry 62). -/
def State.csrTurn (s : State) (h : Nat) (w : W32) : Option State :=
  let csr := fieldN w 20 12
  let f3 := fieldN w 12 3
  let rs := fieldN w 15 5
  let rd := fieldN w 7 5
  if fieldN w 0 7 ≠ 0x73 || f3 % 4 = 0 || !(isKuCsr csr) then none
  else if !((s.hart h).mayCsr csr) then some (s.raiseExc h .illegal)
  else
    let v : W64 := if 4 ≤ f3 then BitVec.ofNat 64 rs else (s.hart h).x.getD rs 0
    let old := s.csr h csr
    if csr = 0x8C0 && s.kuipendBad h then some (s.raiseExc h .hardwareError)
    else if f3 % 4 ≠ 1 && rs = 0 then some (s.hartDone h rd old)
    else if csr = 0x8C0 then some (s.accessKuipend h rd (csrOp f3) v)
    else some ((s.updHart h (fun x => x.setCsr csr (csrApply (csrOp f3) old v))).hartDone h rd old)
/-- HOST_UI_ENTRY (R301). -/
def execHostUiEntry (hart : Nat) (s : State) : Host.Outcome State Fault Refusal := .next (s.hostUi hart)

/-! ## Host cores, drives, external hosts (R240, R277, R306, R312) -/

/-- What a host access leaves in memory, of n bytes; none for a load. -/
def hostValue (acc : HostAcc) (n old x : Nat) : Option Nat :=
  match acc with
  | .load => none
  | .store => some (x % 256 ^ n)
  | .amoAdd => some (atomApply .add n old (x % 256 ^ n) 0)
  | .amoSwap => some (x % 256 ^ n)
  | .amoAnd => some (atomApply .and n old (x % 256 ^ n) 0)
  | .amoOr => some (atomApply .or n old (x % 256 ^ n) 0)
  | .amoXor => some (atomApply .xor n old (x % 256 ^ n) 0)
  | .amoMin => some (atomApply .mins n old (x % 256 ^ n) 0)
  | .amoMax => some (atomApply .maxs n old (x % 256 ^ n) 0)
  | .amoMinu => some (atomApply .minu n old (x % 256 ^ n) 0)
  | .amoMaxu => some (atomApply .maxu n old (x % 256 ^ n) 0)
/-- HOST_CORE_ACCESS: a host hart's access to package memory through its cluster's lines of the shared cache (R226, R228); its
atomics are of 4 or 8 bytes and aligned (R277, R284, R306). -/
def State.hostAccess (s : State) (h : Nat) (acc : HostAcc) (pa n d : Nat) (v : W64) : State :=
  if 64 ≤ h || !(n = 1 || n = 2 || n = 4 || n = 8) then s
  else if acc ≠ .load && acc ≠ .store && (n < 4 || pa % n ≠ 0) then s.raiseExc h .storeAccess
  else if !(paOk pa) || !(paOk (pa + n - 1)) then s.raiseExc h (if acc = .load then .loadAccess else .storeAccess)
  else if paTier pa = 2 && acc ≠ .load then s.raiseExc h .storeAccess
  else
    let key := s.hostKey pa
    if acc = .store then (s.hostWrite (hostAgent h) pa (toBytes n v.toNat) key).hartDone h 0 0
    else
      let r := s.hostRead h pa n
      if r.2.1 then s.raiseExc h .hardwareError
      else
        let old := ofBytes r.1
        let s1 := match hostValue acc n old v.toNat with
          | none => r.2.2
          | some w => r.2.2.hostWrite (hostAgent h) pa (toBytes n w) key
        s1.hartDone h d (BitVec.ofNat 64 old)
/-- HOST_CORE_ACCESS (R306). -/
def execHostCoreAccess (hart : Nat) (acc : HostAcc) (pa size : Nat) (d : BitVec 5) (v : BitVec 64) (s : State) :
    Host.Outcome State Fault Refusal := .next (s.hartStep hart (fun s => s.hostAccess hart acc pa size d.toNat v))

/-- Port i is an endpoint (R313). -/
def State.endpoint (s : State) (i : Nat) : Bool := fieldN s.boot 2 2 / 2 ^ i % 2 = 1
/-- DRIVE_TRANSFER: a transfer of a bound queue pair, as agent 12; any other ends with Data Transfer Error (R304, R312). -/
def State.driveMoves (s : State) (port drive qp va : Nat) (x : DriveXfer) : State :=
  if s.endpoint port then s
  else match s.nvme.find? (fun b => b.port = port && b.drive = drive && b.qp = qp) with
    | none => s
    | some b =>
      match x with
      | .write bs =>
        match s.vaStore 0 none b.asid va (bs.map (fun y => (y, false))) with
        | .ok _ s1 => s1
        | .cause _ _ => s
      | .read n =>
        match s.hostLoad b.asid va n with
        | .ok _ s1 => s1
        | .cause _ _ => s
/-- DRIVE_TRANSFER (R312). -/
def execDriveTransfer (port drive qp va : Nat) (xfer : DriveXfer) (s : State) : Host.Outcome State Fault Refusal :=
  .next (s.driveMoves port drive qp va xfer)
/-- EXTERNAL_HOST_ACCESS: memory is read outside the directory, which changes nothing; a descriptor reaches its slot (R240,
R312). -/
def State.externalAccess (s : State) (port : Nat) (acc : ExtAcc) : State :=
  if !(s.endpoint port) then s
  else match acc with
    | .readMem _ _ => s
    | .submit page slot bs =>
      if page ≤ 32 && slot < 32 && bs.length = 128 then
        match s.toSlot page slot (BitVec.ofNat 1024 (ofBytes bs)) with
        | .seq _ s1 => s1
        | .retry _ => s
      else s
/-- EXTERNAL_HOST_ACCESS (R312). -/
def execExternalHostAccess (port : Nat) (acc : ExtAcc) (s : State) : Host.Outcome State Fault Refusal :=
  .next (s.externalAccess port acc)

/-! ## Boot and power loss (R212, R313, R314) -/

/-- A boot record that R313 accepts. -/
def bootOk (b : BitVec 1024) : Bool :=
  let frame (pa : Nat) : Bool := paOk pa && pa % 2 ^ 16 = 0
  fieldN b 640 384 = 0 && fieldN b 4 60 = 0 && fieldN b 2 2 ≠ 3 && fieldN b 576 64 % 2 ^ 18 = 0 &&
  frame (fieldN b 512 64) && frame (fieldN b 448 64) && driftOk (fieldN b 384 32) && fieldN b 416 32 = 0 &&
  fieldN b 320 64 % 2 ^ 16 = 0 && frame (fieldN b 256 64) && fieldN b 192 64 % 2 ^ 16 = 0 &&
  paOk (fieldN b 128 64) && paTier (fieldN b 128 64) ≤ 1 && frame (fieldN b 64 64)
/-- BOOT: the record is checked, the moraine list's frames leave the free pool (R282), the key slots are loaded, the drift control word
written, the submission queues cleared, the host die started (R314). -/
def State.bootUp (s : State) : State :=
  if s.booted then s
  else if !(bootOk s.boot) then { s with bootBad := true }
  else { s with booted := true, bootBad := false, keysLoaded := true, drift := BitVec.ofNat 32 (fieldN s.boot 384 32), subq := [], mgmt := [],
                islands := s.islands.map (fun (e : Nat × Island) => (e.1, { e.2 with offset := 0, freq := 100, cut := 0, fixed := none })),
                harts := [], freePool := s.freePool.filter (fun fr => !(s.retired fr)) }
/-- BOOT (R314). -/
def execBoot (s : State) : Host.Outcome State Fault Refusal := .next s.bootUp

/-- The records of a log that are found again: those below the durable tail, and the run behind them that stands in flash (R212). -/
def Log.found (g : Log) : List LogRec :=
  g.recs.takeWhile (fun r => r.off + r.bytes.length ≤ g.durable || r.flash)
/-- A log as the storage processor recovers it: both tails stand at the end of the records kept (R212). -/
def Log.recover (g : Log) : Log :=
  let kept := g.found
  let fin := kept.foldl (fun a r => Nat.max a (r.off + r.bytes.length)) (Nat.min g.commit g.durable)
  let lost := g.recs.drop kept.length
  let seq := (lost.head?.map (fun r => r.seq)).getD g.nextSeq
  { g with recs := kept, nextOff := fin, nextSeq := seq, commit := Nat.min g.commit fin, commitSeq := Nat.min g.commitSeq seq,
           durable := fin, stager := none }
/-- The bytes of an extent behind the end of the records kept are not in flash (R212). -/
def State.cutLogs (s : State) : State :=
  { s with mem := s.mem.filter (fun e => !(s.logs.any (fun g => g.2.pa + g.2.nextOff ≤ e.1 && e.1 < g.2.pa + g.2.len))) }
/-- POWER_LOSS: what stands in the firn remains: its data, the logs as recovered, the moraine entries that are durable
(R280), the ageing log, the boot area;
the manufacturer's baselines, the routes of the network and the model's own inputs stay too (R212). -/
def State.losePower (s : State) : State :=
  let s0 := { s with dies := [], cores := [], floes := [], blocks := [], logs := s.logs.map (fun (e : Nat × Log) => (e.1, e.2.recover)) }
  let s1 := s0.cutLogs.logs.keys.foldl (fun s k => s.commitLog k) s0.cutLogs
  { State.reset with
    agenda := s.agenda, cur := s.cur, free := s.free, upsets := s.upsets, peerIn := s.peerIn, homeIn := s.homeIn, now := s.now
    mem := s1.mem.filter (fun e => paTier e.1 = 2), badWords := s1.badWords.filter (fun w => paTier (w * 4) = 2)
    memKeys := s1.memKeys.filter (fun e => paTier (e.1 * 128) = 2)
    moraine := s.moraine2, moraine2 := s.moraine2, logs := s1.logs, spare := s.spare, boot := s.boot, ageing := s.ageing, routes := s.routes,
    selfPeer := s.selfPeer
    islands := s.islands.map (fun (e : Nat × Island) => (e.1, { Island.reset with baseline := e.2.baseline })) }
/-- POWER_LOSS (R212). -/
def execPowerLoss (s : State) : Host.Outcome State Fault Refusal := .next s.losePower

end Sys2Proof.Machine
end

