-- ==== Sys2Proof/Machine/IntAlu.lean ====
section
/-!
DEFINITION. Integer arithmetic: IADD to IABS, IADDC, ISUBB and LEA (R384 to R386, R397, R81).
-/
namespace Sys2Proof.Machine

/-- The high half of a signed product. -/
def mulhS {w : Nat} (a b : BitVec w) : BitVec w := BitVec.ofInt w (a.toInt * b.toInt / 2 ^ w)
/-- The high half of an unsigned product. -/
def mulhU {w : Nat} (a b : BitVec w) : BitVec w := BitVec.ofNat w (a.toNat * b.toNat / 2 ^ w)
/-- Signed and unsigned minimum and maximum. -/
def minS {w : Nat} (a b : BitVec w) : BitVec w := if a.toInt ≤ b.toInt then a else b
def maxS {w : Nat} (a b : BitVec w) : BitVec w := if a.toInt ≤ b.toInt then b else a
def minU {w : Nat} (a b : BitVec w) : BitVec w := if a.toNat ≤ b.toNat then a else b
def maxU {w : Nat} (a b : BitVec w) : BitVec w := if a.toNat ≤ b.toNat then b else a
/-- |a|; the most negative value stays (R384). -/
def absS {w : Nat} (a : BitVec w) : BitVec w := if a.toInt < 0 then -a else a

/-- `IADD`, R layout (R385). -/
def execIaddR (c : BitVec 2) (b a d : BitVec 6) (s : State) : Host.Outcome State Fault Refusal :=
  floeOp (.iaddR c b a d) s (aluR false (fun x y _ => x + y) (fun x y _ => x + y) c b a d)
/-- `IADD`, I layout (R385). -/
def execIaddI (i : BitVec 9) (u : BitVec 1) (a d : BitVec 6) (s : State) : Host.Outcome State Fault Refusal :=
  floeOp (.iaddI i u a d) s (aluI (fun x y => x + y) (fun x y => x + y) i u a d)
/-- 16-bit `IADD` (R81). -/
def execIadd16 (d : BitVec 6) (r : BitVec 5) (s : State) : Host.Outcome State Fault Refusal :=
  floeOp (.iadd16 d r) s (alu16 (fun x y => x + y) d r)
/-- 16-bit `IADD` of a signed 5-bit immediate (R81, op 15). -/
def execIadd16Imm (d : BitVec 6) (i : BitVec 5) (s : State) : Host.Outcome State Fault Refusal :=
  floeOp (.iadd16Imm d i) s (vecOp [VGroup.one d] [VGroup.one d]
    (fun s l => [⟨d.toNat, l, s.V d.toNat l + i.signExtend 32⟩]))
/-- `ISUB` (R385). -/
def execIsubR (c : BitVec 2) (b a d : BitVec 6) (s : State) : Host.Outcome State Fault Refusal :=
  floeOp (.isubR c b a d) s (aluR false (fun x y _ => x - y) (fun x y _ => x - y) c b a d)
/-- 16-bit `ISUB` (R81). -/
def execIsub16 (d : BitVec 6) (r : BitVec 5) (s : State) : Host.Outcome State Fault Refusal :=
  floeOp (.isub16 d r) s (alu16 (fun x y => x - y) d r)
/-- `IMUL`, R layout (R385). -/
def execImulR (c : BitVec 2) (b a d : BitVec 6) (s : State) : Host.Outcome State Fault Refusal :=
  floeOp (.imulR c b a d) s (aluR false (fun x y _ => x * y) (fun x y _ => x * y) c b a d)
/-- `IMUL`, I layout (R385). -/
def execImulI (i : BitVec 9) (u : BitVec 1) (a d : BitVec 6) (s : State) : Host.Outcome State Fault Refusal :=
  floeOp (.imulI i u a d) s (aluI (fun x y => x * y) (fun x y => x * y) i u a d)
/-- 16-bit `IMUL` (R81). -/
def execImul16 (d : BitVec 6) (r : BitVec 5) (s : State) : Host.Outcome State Fault Refusal :=
  floeOp (.imul16 d r) s (alu16 (fun x y => x * y) d r)
/-- `IMULH.S` (R385). -/
def execImulhS (c : BitVec 2) (b a d : BitVec 6) (s : State) : Host.Outcome State Fault Refusal :=
  floeOp (.imulhS c b a d) s (aluR false (fun x y _ => mulhS x y) (fun x y _ => mulhS x y) c b a d)
/-- `IMULH.U` (R385). -/
def execImulhU (c : BitVec 2) (b a d : BitVec 6) (s : State) : Host.Outcome State Fault Refusal :=
  floeOp (.imulhU c b a d) s (aluR false (fun x y _ => mulhU x y) (fun x y _ => mulhU x y) c b a d)
/-- `IMAD` (R385). -/
def execImad (c : BitVec 2) (b a d : BitVec 6) (s : State) : Host.Outcome State Fault Refusal :=
  floeOp (.imad c b a d) s (aluR true (fun x y z => x * y + z) (fun x y z => x * y + z) c b a d)
/-- `IMIN.S`, R layout (R385). -/
def execIminSR (c : BitVec 2) (b a d : BitVec 6) (s : State) : Host.Outcome State Fault Refusal :=
  floeOp (.iminSR c b a d) s (aluR false (fun x y _ => minS x y) (fun x y _ => minS x y) c b a d)
/-- `IMIN.U`, R layout (R385). -/
def execIminUR (c : BitVec 2) (b a d : BitVec 6) (s : State) : Host.Outcome State Fault Refusal :=
  floeOp (.iminUR c b a d) s (aluR false (fun x y _ => minU x y) (fun x y _ => minU x y) c b a d)
/-- `IMAX.S`, R layout (R385). -/
def execImaxSR (c : BitVec 2) (b a d : BitVec 6) (s : State) : Host.Outcome State Fault Refusal :=
  floeOp (.imaxSR c b a d) s (aluR false (fun x y _ => maxS x y) (fun x y _ => maxS x y) c b a d)
/-- `IMAX.U`, R layout (R385). -/
def execImaxUR (c : BitVec 2) (b a d : BitVec 6) (s : State) : Host.Outcome State Fault Refusal :=
  floeOp (.imaxUR c b a d) s (aluR false (fun x y _ => maxU x y) (fun x y _ => maxU x y) c b a d)
/-- `IMIN.S`, I layout (R385). -/
def execIminSI (i : BitVec 9) (u : BitVec 1) (a d : BitVec 6) (s : State) : Host.Outcome State Fault Refusal :=
  floeOp (.iminSI i u a d) s (aluI minS minS i u a d)
/-- `IMAX.S`, I layout (R385). -/
def execImaxSI (i : BitVec 9) (u : BitVec 1) (a d : BitVec 6) (s : State) : Host.Outcome State Fault Refusal :=
  floeOp (.imaxSI i u a d) s (aluI maxS maxS i u a d)
/-- `IMIN.U`, I layout: the immediate is sign-extended first (R385). -/
def execIminUI (i : BitVec 9) (u : BitVec 1) (a d : BitVec 6) (s : State) : Host.Outcome State Fault Refusal :=
  floeOp (.iminUI i u a d) s (aluI minU minU i u a d)
/-- `IMAX.U`, I layout: the immediate is sign-extended first (R385). -/
def execImaxUI (i : BitVec 9) (u : BitVec 1) (a d : BitVec 6) (s : State) : Host.Outcome State Fault Refusal :=
  floeOp (.imaxUI i u a d) s (aluI maxU maxU i u a d)
/-- `IABS` (R385). -/
def execIabs (c : BitVec 2) (a d : BitVec 6) (s : State) : Host.Outcome State Fault Refusal :=
  floeOp (.iabs c a d) s (aluR1 absS absS c a d)
/-- `IADDC` (R386). -/
def execIaddc (c : BitVec 2) (b a d : BitVec 6) (s : State) : Host.Outcome State Fault Refusal :=
  floeOp (.iaddc c b a d) s (carryOp addCarry c b a d)
/-- `ISUBB` (R386). -/
def execIsubb (c : BitVec 2) (b a d : BitVec 6) (s : State) : Host.Outcome State Fault Refusal :=
  floeOp (.isubb c b a d) s (carryOp subBorrow c b a d)
/-- `LEA`: a + (b << h) (R397). -/
def execLea (h : BitVec 2) (c : BitVec 2) (b a d : BitVec 6) (s : State) : Host.Outcome State Fault Refusal :=
  floeOp (.lea h c b a d) s
    (aluR false (fun x y _ => x + (y <<< h.toNat)) (fun x y _ => x + (y <<< h.toNat)) c b a d)

end Sys2Proof.Machine
end

