-- ==== Sys2Proof/Machine/Lane.lean ====
section
/-!
DEFINITION. Cross-lane operations (R60, R389, R399, R430, R431, R433).
-/
namespace Sys2Proof.Machine

/-- A lane's stored register is poisoned. -/
def State.badLane (s : State) (n : BitVec 6) (l : Nat) : Bool := s.blk.regIdx (s.thread l) (s.absReg n.toNat) ∈ s.blk.badRegs

/-- The source lane of a `SHFL`, from lane l, its index operand and the width (R430). -/
def shflGet (w _ : Nat) (x : W32) : Nat := x.toNat % w
def shflSlide (w l : Nat) (x : W32) : Nat :=
  let k : Int := (l : Int) + x.toInt
  if 0 ≤ k ∧ k < (w : Int) then k.toNat else l
def shflRot (w l : Nat) (x : W32) : Nat := (l + x.toNat) % w
def shflXor (w l : Nat) (x : W32) : Nat := Nat.xor l (x.toNat % w)

/-- `SHFL`: each active lane reads lane j, whatever its state (R60); ra may not name a port (R431). -/
def shfl (j : Nat → Nat → W32 → Nat) (c : BitVec 1) (b a d : BitVec 6) (s : State) : Res :=
  let idx : List VGroup := if c = 1 then [] else [VGroup.one b]
  let x (l : Nat) : W32 := if c = 1 then lo32 (s.S b.toNat) else s.V b.toNat l
  match s.gateForm (VGroup.one a :: idx) [VGroup.one d] false (s.namesPort [VGroup.one a]) with
  | some r => r
  | none =>
    let src (l : Nat) : Nat := j s.fl.width l (x l)
    if s.lanes.any (fun l => s.operandBad idx l || s.badLane a (src l)) then .poison
    else .go ((s.popPorts idx).setVs (s.lanes.map (fun l => ⟨d.toNat, l, s.rawV a.toNat (src l)⟩)))

/-- Write a lane mask: one uniform register, or an even pair at width 128 (R60). -/
def State.setMask (s : State) (n : Nat) (m : Mask) : State :=
  if s.fl.width = 128 then (s.setS n (m.setWidth 64)).setS (n + 1) ((m >>> 64).setWidth 64) else s.setS n (m.setWidth 64)
/-- An odd destination of a lane mask at width 128 (reason 9). -/
def State.maskBad (s : State) (d : BitVec 6) : Bool := s.fl.width = 128 && d.toNat % 2 = 1
/-- The predicate k of the active lanes. -/
def State.votes (s : State) (k : BitVec 3) : List Bool := s.lanes.map (fun l => s.P k.toNat l)

/-- `REDX`: a combination over the active lanes in ascending order (R430). -/
def redx (f : List W32 → W32) (a d : BitVec 6) (s : State) : Res :=
  match s.gate [VGroup.one a] [] false false with
  | some r => r
  | none => .go ((s.popPorts [VGroup.one a]).setS d.toNat (zext64 (f (s.lanes.map (fun l => s.V a.toNat l)))))
/-- The least and greatest signed words. -/
def leastS (l : List W32) : W32 := l.foldl (fun m x => if x.toInt < m.toInt then x else m) (l.headD 0)
def greatestS (l : List W32) : W32 := l.foldl (fun m x => if m.toInt < x.toInt then x else m) (l.headD 0)
/-- The FP32 sum in order; a NaN result is canonical, also with one lane (R430, R431). -/
def faddRed (l : List W32) : W32 :=
  let t := (l.drop 1).foldl (fun t x => fpAdd fmt32 t x.toNat) (l.headD 0).toNat
  BitVec.ofNat 32 (if (val32 t).isNan then fmt32.nanCode else t)
/-- `SCAN`: lane l receives the sum over the active lanes that `keep l` keeps (R430). -/
def scan (keep : Nat → Nat → Bool) (a d : BitVec 6) (s : State) : Res :=
  vecOp [VGroup.one a] [VGroup.one d]
    (fun s l => [⟨d.toNat, l, ((s.lanes.filter (fun j => keep j l)).map (fun j => s.V a.toNat j)).foldl (· + ·) 0⟩]) s
/-- A uniform read of one lane's stored register; ra may not name a port (R389, R433). -/
def laneRead (a d : BitVec 6) (j : Nat) (s : State) : Res :=
  match s.gateForm [VGroup.one a] [] false (s.namesPort [VGroup.one a]) with
  | some r => r
  | none => if s.badLane a j then .poison else .go (s.setS d.toNat (zext64 (s.rawV a.toNat j)))

/-- `SHFL.GET` (R430). -/
def execShflGet (c : BitVec 1) (b a d : BitVec 6) (s : State) : Host.Outcome State Fault Refusal :=
  floeOp (.shflGet c b a d) s (shfl shflGet c b a d)
/-- `SHFL.SLIDE` (R430). -/
def execShflSlide (c : BitVec 1) (b a d : BitVec 6) (s : State) : Host.Outcome State Fault Refusal :=
  floeOp (.shflSlide c b a d) s (shfl shflSlide c b a d)
/-- `SHFL.ROT` (R430). -/
def execShflRot (c : BitVec 1) (b a d : BitVec 6) (s : State) : Host.Outcome State Fault Refusal :=
  floeOp (.shflRot c b a d) s (shfl shflRot c b a d)
/-- `SHFL.XOR` (R430). -/
def execShflXor (c : BitVec 1) (b a d : BitVec 6) (s : State) : Host.Outcome State Fault Refusal :=
  floeOp (.shflXor c b a d) s (shfl shflXor c b a d)
/-- `LBC` (R389). -/
def execLbc (b a d : BitVec 6) (s : State) : Host.Outcome State Fault Refusal :=
  floeOp (.lbc b a d) s (fun s => laneRead a d ((s.S b.toNat).toNat % s.fl.width) s)
/-- `RFA` (R433). -/
def execRfa (a d : BitVec 6) (s : State) : Host.Outcome State Fault Refusal :=
  floeOp (.rfa a d) s (fun s => laneRead a d s.elected s)
/-- `VOTE.ALL` (R430). -/
def execVoteAll (k : BitVec 3) (d : BitVec 6) (s : State) : Host.Outcome State Fault Refusal :=
  floeOp (.voteAll k d) s (fun s => .go (s.setS d.toNat (w64 ((s.votes k).all id))))
/-- `VOTE.ANY` (R430). -/
def execVoteAny (k : BitVec 3) (d : BitVec 6) (s : State) : Host.Outcome State Fault Refusal :=
  floeOp (.voteAny k d) s (fun s => .go (s.setS d.toNat (w64 ((s.votes k).any id))))
/-- `VOTE.BALLOT` (R430, R431). -/
def execVoteBallot (k : BitVec 3) (d : BitVec 6) (s : State) : Host.Outcome State Fault Refusal :=
  floeOp (.voteBallot k d) s (fun s =>
    if s.maskBad d then .trap 9 else .go (s.setMask d.toNat (Mask.ofLanes (s.lanes.filter (fun l => s.P k.toNat l)))))
/-- `REDX.ADD` (R430). -/
def execRedxAdd (a d : BitVec 6) (s : State) : Host.Outcome State Fault Refusal :=
  floeOp (.redxAdd a d) s (redx (fun l => l.foldl (· + ·) 0) a d)
/-- `REDX.MIN` (R430). -/
def execRedxMin (a d : BitVec 6) (s : State) : Host.Outcome State Fault Refusal :=
  floeOp (.redxMin a d) s (redx leastS a d)
/-- `REDX.MAX` (R430). -/
def execRedxMax (a d : BitVec 6) (s : State) : Host.Outcome State Fault Refusal :=
  floeOp (.redxMax a d) s (redx greatestS a d)
/-- `REDX.FADD` (R430, R431). -/
def execRedxFadd (a d : BitVec 6) (s : State) : Host.Outcome State Fault Refusal :=
  floeOp (.redxFadd a d) s (redx faddRed a d)
/-- `SCAN.ADD` (R430). -/
def execScanAdd (a d : BitVec 6) (s : State) : Host.Outcome State Fault Refusal :=
  floeOp (.scanAdd a d) s (scan (fun j l => j ≤ l) a d)
/-- `SCAN.ADDX` (R430). -/
def execScanAddx (a d : BitVec 6) (s : State) : Host.Outcome State Fault Refusal :=
  floeOp (.scanAddx a d) s (scan (fun j l => j < l) a d)
/-- `MATCH` (R399). -/
def execMatchLanes (a d : BitVec 6) (s : State) : Host.Outcome State Fault Refusal :=
  floeOp (.matchLanes a d) s (fun s =>
    match s.gate [VGroup.one a] [] (s.maskBad d) false with
    | some r => r
    | none => .go ((s.popPorts [VGroup.one a]).setMask d.toNat
        (Mask.ofLanes (s.lanes.filter (fun l => s.V a.toNat l = s.V a.toNat s.elected)))))

end Sys2Proof.Machine
end

