-- ==== Sys2Proof/Machine/LatticeOps.lean ====
section
/-!
DEFINITION. Lattice instructions (R245 to R250).
-/
namespace Sys2Proof.Machine

/-- The size code of a lattice access: 32 or 64 bits (R245). -/
def sizeL (z : BitVec 1) : BitVec 3 := if z = 1 then 3 else 2
/-- The lanes of a lattice access with their data. -/
def lanesL (z : BitVec 1) (i b d : BitVec 6) (s : State) : List LaneAcc := accLanes (sizeL z) 0 i b (fun s l => s.dataM (sizeL z) d l) s

/-- `LJOIN` (R246), a release at package scope (R250), or `LJOIN.STRICT` (R247). -/
def joinBody (strict : Bool) (z : BitVec 1) (i b d : BitVec 6) (s : State) : Res :=
  memIssue ⟨.stores, if strict then .joinStrict else .join, sizeBytes (sizeL z), false, .none, false, 3, false, false⟩
    (viGroup i ++ [VGroup.ofCount d (sizeRegs (sizeL z))]) [] false false (lanesL z i b d) s
/-- `LJOIN` (R246). -/
def execLjoin (z : BitVec 1) (i b d : BitVec 6) (s : State) : Host.Outcome State Fault Refusal :=
  floeOp (.ljoin z i b d) s (joinBody false z i b d)
/-- `LJOIN.STRICT` (R247). -/
def execLjoinStrict (z : BitVec 1) (i b d : BitVec 6) (s : State) : Host.Outcome State Fault Refusal :=
  floeOp (.ljoinStrict z i b d) s (joinBody true z i b d)

/-- The checks of a threshold lane (R244, R248). -/
def State.thresholdCheck (s : State) (b size : Nat) (a : LaneAcc) : Checked :=
  match s.checkLane b .threshold size false a.va with
  | .ok (.cell pa lt) =>
    if !(s.replicaOk (s.block b).launch (dieOfCore (coreOf b)) (pa / 128) lt) then .cause 0x02
    else if lt = 4 && isNan32 a.data.toNat then .cause 0x07
    else .ok (.cell pa lt)
  | .ok _ => .cause 0x07
  | .cause c => .cause c
/-- Check the lanes of a threshold read. -/
def State.thresholdLanes (s : State) (b size : Nat) (ls : List LaneAcc) : List (LaneAcc × Checked) × State :=
  ls.foldl (fun (acc : List (LaneAcc × Checked) × State) a =>
    let c := acc.2.thresholdCheck b size a
    let p := match c with | .ok p => p | .cause _ => .absent
    (acc.1 ++ [({ a with place := p }, c)], acc.2.laneTouch b .load a.va c)) ([], s)
/-- A lane's cell value and whether it passes the lane's threshold. -/
def State.cellPass (s : State) (f : Nat) (a : LaneAcc) : Nat × Bool :=
  match a.place with
  | .cell pa lt =>
    let v := (s.replica (s.block (blockOf f)).launch (dieOfCore (floeCore f)) (pa / 128)).cell (pa % 128)
    (v, latLe lt (a.data.toNat % 256 ^ cellSize lt) v)
  | _ => (0, true)

/-- A lane's cell holds poison (R277). -/
def State.cellBad (s : State) (f : Nat) (a : LaneAcc) : Bool :=
  match a.place with
  | .cell pa lt => (s.replica (s.block (blockOf f)).launch (dieOfCore (floeCore f)) (pa / 128)).poisoned (pa % 128) (cellSize lt)
  | _ => false
/-- The issuing fragment with other lanes active. -/
def State.withLanes (m : Mask) (s : State) : State := s.updFg (fun g => { g with active := m })
/-- Lanes of a threshold read are performed: ports popped, values written, with `LLDT.POLL` the outcome in p6 (R248, R249). -/
def State.bindCells (s : State) (poll : Bool) (z : BitVec 1) (d : BitVec 6) (groups : List VGroup) (vs : List (Nat × Nat × Bool)) : State :=
  let act := s.fg.active
  let s1 := (((s.withLanes (Mask.ofLanes (vs.map (fun v => v.1)))).popPorts groups).setVs ((vs.map (fun v =>
    if z = 1 then write64 d.toNat v.1 (BitVec.ofNat 64 v.2.1) else [⟨d.toNat, v.1, BitVec.ofNat 32 v.2.1⟩])).flatten)).withLanes act
  let s2 := if poll then s1.setPs 6 (vs.map (fun v => (v.1, v.2.2))) else s1
  s2.keepWrites s.cur.floe ((vs.map (fun v => (upTo (sizeRegs (sizeL z))).map (fun k =>
    s.blk.regIdx (s.thread v.1) (s.absReg (d.toNat + k))))).flatten) [] (vs.map (fun v => s.thread v.1 * 8 + 6))
/-- The wait of a threshold read that is held back: one that has parked has issued already. -/
def State.thresholdWait (s : State) : WaitFor := if s.fg.left.isSome then .lattice else .order
/-- The unfinished lanes of a threshold read, the issuing fragment's active ones; `full` is its whole mask, `old` the cause that it has met
already. Absent lanes park the floe (R201): the other lanes of an `LLDT.POLL` are performed first, those of an `LLDT` wait for every lane's
translation, so that they are read at one moment (R248, R398). A lane with another cause is done with; its cause is reported after the
parking. -/
def lldtPart (poll : Bool) (z : BitVec 1) (i b d : BitVec 6) (full : Mask) (old : Option (Nat × BitVec 8 × W64)) (s : State) : Res :=
  let g := VGroup.ofCount d (sizeRegs (sizeL z))
  let groups := viGroup i ++ [g]
  let f := s.cur.floe
  match s.gate groups [g] false false with
  | some r => r
  | none =>
    if s.fl.acquiring s.cur.frag || s.fl.ops.any (fun o => o.kind = .join && !(o.lanes.all (fun a => a.done))) then
      .wait s.thresholdWait s
    else
      let r := s.thresholdLanes (blockOf f) (sizeBytes (sizeL z)) (lanesL z i b d s)
      let vs := (r.1.filter (fun x => x.2.causeOf = none)).map (fun x => (x.1.lane, r.2.cellPass f x.1))
      let passed := vs.all (fun v => v.2.2)
      let absent := lanesWith r.1 0x01
      let hard := lowerHard old (hardLane r.1)
      let poisoned := r.1.any (fun x => x.2.causeOf = none && r.2.cellBad f x.1)
      if !absent.isEmpty then
        if poll && poisoned then .poison
        else
          let ws := if poll then vs else []
          let left := Mask.ofLanes ((r.1.filter (fun x => x.2.causeOf = some 0x01 || (!poll && x.2.causeOf = none))).map (fun x => x.1.lane))
          .as (((r.2.bindCells poll z d groups ws).updFg (fun x =>
            { x with left := some ⟨left, hard⟩, active := full, rb := some (x.rb.getD s.fl.rbase) })).parkRepeat f s.cur.frag absent [] 0)
      else match hard with
        | some (_, c, va) => .fault c.toNat va true
        | none =>
          let acquires := passed && (Mask.lanes (full &&& ~~~s.fg.active) s.fl.width).all (fun l => !poll || s.P 6 l)
          if poisoned then .poison
          else if !poll && !passed then .wait .lattice (r.2.updFg (fun x => { x with left := none }))
          else if acquires && !(s.mayTick (floeCore f)) then .wait .lattice r.2
          else
            let s1 := r.2.bindCells poll z d groups vs
            .go (if acquires then s1.acquireFloor f else s1)
/-- `LLDT` waits until every lane passes (R248); `LLDT.POLL` reads at once and sets p6 (R249). Both acquire when every lane has passed
(R250), with a tick that waits for the horizon (R218). -/
def lldtBody (poll : Bool) (z : BitVec 1) (i b d : BitVec 6) (s : State) : Res :=
  let full := s.fg.active
  match s.fg.left with
  | none => lldtPart poll z i b d full none s
  | some m => (lldtPart poll z i b d full m.hard (s.withLanes (m.lanes &&& full))).map (State.withLanes full)
/-- `LLDT` (R248). -/
def execLldt (z : BitVec 1) (i b d : BitVec 6) (s : State) : Host.Outcome State Fault Refusal :=
  floeOp (.lldt z i b d) s (lldtBody false z i b d)
/-- `LLDT.POLL` (R249). -/
def execLldtPoll (z : BitVec 1) (i b d : BitVec 6) (s : State) : Host.Outcome State Fault Refusal :=
  floeOp (.lldtPoll z i b d) s (lldtBody true z i b d)

end Sys2Proof.Machine
end

