-- ==== Sys2Proof/Machine/Logic.lean ====
section
/-!
DEFINITION. Logic, shifts, bit counts, byte permutation and bit fields (R333 to R345, R348, R377, R411, R414, R416, R434, R435,
R454, R81).
-/
namespace Sys2Proof.Machine

/-- Funnel shifts (R377): `w` bits from {a, b}, the count modulo `w`. -/
def funnelL {w : Nat} (a b n : BitVec w) : BitVec w :=
  BitVec.ofNat w ((a.toNat * 2 ^ w + b.toNat) * 2 ^ (n.toNat % w) / 2 ^ w)
def funnelR {w : Nat} (a b n : BitVec w) : BitVec w :=
  BitVec.ofNat w ((a.toNat * 2 ^ w + b.toNat) / 2 ^ (n.toNat % w))
/-- Number of set bits (R414). -/
def popCount {w : Nat} (a : BitVec w) : BitVec w := BitVec.ofNat w (((upTo w).filter (fun i => a.getLsbD i)).length)
/-- Leading zero bits; w for zero (R348). -/
def leadZeros {w : Nat} (a : BitVec w) : BitVec w :=
  BitVec.ofNat w (((upTo w).find? (fun i => a.getLsbD (w - 1 - i))).getD w)
/-- Trailing zero bits; w for zero (R348). -/
def trailZeros {w : Nat} (a : BitVec w) : BitVec w := BitVec.ofNat w (((upTo w).find? (fun i => a.getLsbD i)).getD w)
/-- Bit i becomes bit w - 1 - i (R348). -/
def revBits {w : Nat} (a : BitVec w) : BitVec w :=
  BitVec.ofNat w ((upTo w).foldl (fun x i => if a.getLsbD (w - 1 - i) then x + 2 ^ i else x) 0)
/-- One result byte of `PRMT` from a control nibble and the 32-bit source (R416). -/
def prmtByte (a : W32) (q : Nat) : Nat :=
  let x := fieldN a (8 * (q % 4)) 8
  match q / 4 % 4 with
  | 0 => x
  | 1 => (revBits (BitVec.ofNat 8 x)).toNat
  | 2 => 0x00
  | _ => 0xFF
/-- `PRMT` to n result bytes (R416). -/
def prmt (n : Nat) (a b : W32) : Nat := ofBytes ((upTo n).map (fun i => BitVec.ofNat 8 (prmtByte a (fieldN b (4 * i) 4))))
/-- A length field, 0 meaning 32 (R344). -/
def fieldLen (l : BitVec 6) : Nat := if l = 0 then 32 else l.toNat
/-- `BFX` on one lane (R345). -/
def bitExtract (signed : Bool) (pos n : Nat) (a : W32) : W32 :=
  let x := BitVec.ofNat 32 (fieldN a pos n)
  if signed && bitN x (n - 1) then x ||| ~~~(BitVec.ofNat 32 (2 ^ n - 1)) else x
/-- `BFI` on one lane (R345). -/
def bitInsert (pos n : Nat) (a d : W32) : W32 :=
  let m : W32 := BitVec.ofNat 32 (2 ^ n - 1) <<< pos
  (d &&& ~~~m) ||| ((a <<< pos) &&& m)
/-- Shift amounts modulo the width (R435). -/
def shlMod {w : Nat} (a n : BitVec w) : BitVec w := a <<< (n.toNat % w)
def shrMod {w : Nat} (a n : BitVec w) : BitVec w := a >>> (n.toNat % w)
def sarMod {w : Nat} (a n : BitVec w) : BitVec w := a.sshiftRight (n.toNat % w)

/-- `AND`, R layout (R334). -/
def execAndR (c : BitVec 2) (b a d : BitVec 6) (s : State) : Host.Outcome State Fault Refusal :=
  floeOp (.andR c b a d) s (aluR false (fun x y _ => x &&& y) (fun x y _ => x &&& y) c b a d)
/-- `AND`, I layout (R334). -/
def execAndI (i : BitVec 9) (u : BitVec 1) (a d : BitVec 6) (s : State) : Host.Outcome State Fault Refusal :=
  floeOp (.andI i u a d) s (aluI (fun x y => x &&& y) (fun x y => x &&& y) i u a d)
/-- 16-bit `AND` (R81). -/
def execAnd16 (d : BitVec 6) (r : BitVec 5) (s : State) : Host.Outcome State Fault Refusal :=
  floeOp (.and16 d r) s (alu16 (fun x y => x &&& y) d r)
/-- `OR`, R layout (R411). -/
def execOrR (c : BitVec 2) (b a d : BitVec 6) (s : State) : Host.Outcome State Fault Refusal :=
  floeOp (.orR c b a d) s (aluR false (fun x y _ => x ||| y) (fun x y _ => x ||| y) c b a d)
/-- `OR`, I layout (R411). -/
def execOrI (i : BitVec 9) (u : BitVec 1) (a d : BitVec 6) (s : State) : Host.Outcome State Fault Refusal :=
  floeOp (.orI i u a d) s (aluI (fun x y => x ||| y) (fun x y => x ||| y) i u a d)
/-- 16-bit `OR` (R81). -/
def execOr16 (d : BitVec 6) (r : BitVec 5) (s : State) : Host.Outcome State Fault Refusal :=
  floeOp (.or16 d r) s (alu16 (fun x y => x ||| y) d r)
/-- `XOR`, R layout (R454). -/
def execXorR (c : BitVec 2) (b a d : BitVec 6) (s : State) : Host.Outcome State Fault Refusal :=
  floeOp (.xorR c b a d) s (aluR false (fun x y _ => x ^^^ y) (fun x y _ => x ^^^ y) c b a d)
/-- `XOR`, I layout (R454). -/
def execXorI (i : BitVec 9) (u : BitVec 1) (a d : BitVec 6) (s : State) : Host.Outcome State Fault Refusal :=
  floeOp (.xorI i u a d) s (aluI (fun x y => x ^^^ y) (fun x y => x ^^^ y) i u a d)
/-- 16-bit `XOR` (R81). -/
def execXor16 (d : BitVec 6) (r : BitVec 5) (s : State) : Host.Outcome State Fault Refusal :=
  floeOp (.xor16 d r) s (alu16 (fun x y => x ^^^ y) d r)
/-- `ANDN` (R334). -/
def execAndn (c : BitVec 2) (b a d : BitVec 6) (s : State) : Host.Outcome State Fault Refusal :=
  floeOp (.andn c b a d) s (aluR false (fun x y _ => x &&& ~~~y) (fun x y _ => x &&& ~~~y) c b a d)
/-- `SHL`, R layout (R435). -/
def execShlR (c : BitVec 2) (b a d : BitVec 6) (s : State) : Host.Outcome State Fault Refusal :=
  floeOp (.shlR c b a d) s (aluR false (fun x y _ => shlMod x y) (fun x y _ => shlMod x y) c b a d)
/-- `SHR`, R layout (R435). -/
def execShrR (c : BitVec 2) (b a d : BitVec 6) (s : State) : Host.Outcome State Fault Refusal :=
  floeOp (.shrR c b a d) s (aluR false (fun x y _ => shrMod x y) (fun x y _ => shrMod x y) c b a d)
/-- `SAR`, R layout (R435). -/
def execSarR (c : BitVec 2) (b a d : BitVec 6) (s : State) : Host.Outcome State Fault Refusal :=
  floeOp (.sarR c b a d) s (aluR false (fun x y _ => sarMod x y) (fun x y _ => sarMod x y) c b a d)
/-- `SHL`, I layout (R435). -/
def execShlI (i : BitVec 9) (u : BitVec 1) (a d : BitVec 6) (s : State) : Host.Outcome State Fault Refusal :=
  floeOp (.shlI i u a d) s (aluI shlMod shlMod i u a d)
/-- `SHR`, I layout (R435). -/
def execShrI (i : BitVec 9) (u : BitVec 1) (a d : BitVec 6) (s : State) : Host.Outcome State Fault Refusal :=
  floeOp (.shrI i u a d) s (aluI shrMod shrMod i u a d)
/-- `SAR`, I layout (R435). -/
def execSarI (i : BitVec 9) (u : BitVec 1) (a d : BitVec 6) (s : State) : Host.Outcome State Fault Refusal :=
  floeOp (.sarI i u a d) s (aluI sarMod sarMod i u a d)
/-- 16-bit `SHL` (R81). -/
def execShl16 (d : BitVec 6) (r : BitVec 5) (s : State) : Host.Outcome State Fault Refusal :=
  floeOp (.shl16 d r) s (alu16 shlMod d r)
/-- 16-bit `SHR` (R81). -/
def execShr16 (d : BitVec 6) (r : BitVec 5) (s : State) : Host.Outcome State Fault Refusal :=
  floeOp (.shr16 d r) s (alu16 shrMod d r)
/-- 16-bit `SAR` (R81). -/
def execSar16 (d : BitVec 6) (r : BitVec 5) (s : State) : Host.Outcome State Fault Refusal :=
  floeOp (.sar16 d r) s (alu16 sarMod d r)
/-- `FSHL`: the count is the old destination (R377). -/
def execFshl (c : BitVec 2) (b a d : BitVec 6) (s : State) : Host.Outcome State Fault Refusal :=
  floeOp (.fshl c b a d) s (aluR true funnelL funnelL c b a d)
/-- `FSHR`: the count is the old destination (R377). -/
def execFshr (c : BitVec 2) (b a d : BitVec 6) (s : State) : Host.Outcome State Fault Refusal :=
  floeOp (.fshr c b a d) s (aluR true funnelR funnelR c b a d)
/-- `POPC` (R414). -/
def execPopc (c : BitVec 2) (a d : BitVec 6) (s : State) : Host.Outcome State Fault Refusal :=
  floeOp (.popc c a d) s (aluR1 popCount popCount c a d)
/-- `CLZ` (R348). -/
def execClz (c : BitVec 2) (a d : BitVec 6) (s : State) : Host.Outcome State Fault Refusal :=
  floeOp (.clz c a d) s (aluR1 leadZeros leadZeros c a d)
/-- `CTZ` (R348). -/
def execCtz (c : BitVec 2) (a d : BitVec 6) (s : State) : Host.Outcome State Fault Refusal :=
  floeOp (.ctz c a d) s (aluR1 trailZeros trailZeros c a d)
/-- `BREV` (R348). -/
def execBrev (c : BitVec 2) (a d : BitVec 6) (s : State) : Host.Outcome State Fault Refusal :=
  floeOp (.brev c a d) s (aluR1 revBits revBits c a d)
/-- `PRMT`: 4 result bytes, or 8 in class 2 (R416). -/
def execPrmt (c : BitVec 2) (b a d : BitVec 6) (s : State) : Host.Outcome State Fault Refusal :=
  floeOp (.prmt c b a d) s (aluR false (fun x y _ => BitVec.ofNat 32 (prmt 4 x y))
    (fun x y _ => BitVec.ofNat 64 (prmt 8 (lo32 x) (lo32 y))) c b a d)
/-- `BFX` (R345). -/
def execBfx (g : BitVec 1) (l p a d : BitVec 6) (s : State) : Host.Outcome State Fault Refusal :=
  floeOp (.bfx g l p a d) s (vecOp [VGroup.one a] [VGroup.one d]
    (fun s k => [⟨d.toNat, k, bitExtract (g = 1) p.toNat (fieldLen l) (s.V a.toNat k)⟩]))
/-- `BFI` (R345). -/
def execBfi (l p a d : BitVec 6) (s : State) : Host.Outcome State Fault Refusal :=
  floeOp (.bfi l p a d) s (vecOp [VGroup.one a, VGroup.one d] [VGroup.one d]
    (fun s k => [⟨d.toNat, k, bitInsert p.toNat (fieldLen l) (s.V a.toNat k) (s.V d.toNat k)⟩]))

end Sys2Proof.Machine
end

