-- ==== Sys2Proof/Machine/Move.lean ====
section
/-!
DEFINITION. Compares, predicate logic, moves and special registers (R371 to R373, R406, R407, R412, R413, R422 to R424, R438, R451).
-/
namespace Sys2Proof.Machine

/-- `ICMP`, signed (R372). -/
def execIcmpS (c : BitVec 2) (b a : BitVec 6) (n p : BitVec 3) (s : State) : Host.Outcome State Fault Refusal :=
  floeOp (.icmpS c b a n p) s (cmpOp (srcGroups c a b VGroup.one) (c = 2) p (fun s l =>
    if c = 2 then intCond (fun x y => decide (x.toInt ≤ y.toInt)) n.toNat (s.S a.toNat) (s.S b.toNat)
    else intCond (fun x y => decide (x.toInt ≤ y.toInt)) n.toNat (s.A c a l) (s.B c b l)))
/-- `ICMP`, unsigned (R372). -/
def execIcmpU (c : BitVec 2) (b a : BitVec 6) (n p : BitVec 3) (s : State) : Host.Outcome State Fault Refusal :=
  floeOp (.icmpU c b a n p) s (cmpOp (srcGroups c a b VGroup.one) (c = 2) p (fun s l =>
    if c = 2 then intCond (fun x y => decide (x.toNat ≤ y.toNat)) n.toNat (s.S a.toNat) (s.S b.toNat)
    else intCond (fun x y => decide (x.toNat ≤ y.toNat)) n.toNat (s.A c a l) (s.B c b l)))
/-- `FCMP` of FP32 (R372). -/
def execFcmpF32 (c : BitVec 2) (b a : BitVec 6) (n p : BitVec 3) (s : State) : Host.Outcome State Fault Refusal :=
  floeOp (.fcmpF32 c b a n p) s (cmpOp (srcGroups c a b VGroup.one) (c = 2) p (fun s l =>
    fpCond fmt32 n.toNat ((s.A c a l).toNat) ((s.B c b l).toNat)))
/-- `FCMP` of FP16: bits [15:0] (R372). -/
def execFcmpF16 (c : BitVec 2) (b a : BitVec 6) (n p : BitVec 3) (s : State) : Host.Outcome State Fault Refusal :=
  floeOp (.fcmpF16 c b a n p) s (cmpOp (srcGroups c a b VGroup.one) (c = 2) p (fun s l =>
    fpCond fmt16 n.toNat ((s.A c a l).toNat % 2 ^ 16) ((s.B c b l).toNat % 2 ^ 16)))
/-- `FCMP` of BF16: bits [15:0] (R372). -/
def execFcmpBf16 (c : BitVec 2) (b a : BitVec 6) (n p : BitVec 3) (s : State) : Host.Outcome State Fault Refusal :=
  floeOp (.fcmpBf16 c b a n p) s (cmpOp (srcGroups c a b VGroup.one) (c = 2) p (fun s l =>
    fpCond fmtB16 n.toNat ((s.A c a l).toNat % 2 ^ 16) ((s.B c b l).toNat % 2 ^ 16)))
/-- `FCMP` of FP64: even pairs, or all 64 bits of a uniform register (R372). -/
def execFcmpF64 (c : BitVec 2) (b a : BitVec 6) (n p : BitVec 3) (s : State) : Host.Outcome State Fault Refusal :=
  floeOp (.fcmpF64 c b a n p) s (cmpOp (srcGroups c a b VGroup.pair) (c = 2) p (fun s l =>
    fpCond fmt64 n.toNat (s.A64 c a l).toNat (s.B64 c b l).toNat))
/-- `PLOG` (R413). -/
def execPlog (b a o d : BitVec 3) (s : State) : Host.Outcome State Fault Refusal :=
  floeOp (.plog b a o d) s (fun s =>
    .go (s.setPs d.toNat (s.lanes.map (fun l => (l, predLogic o.toNat (s.P a.toNat l) (s.P b.toNat l))))))
/-- `MOV` (R406). -/
def execMovR (c : BitVec 2) (a d : BitVec 6) (s : State) : Host.Outcome State Fault Refusal :=
  floeOp (.movR c a d) s (aluR1 (fun x => x) (fun x => x) c a d)
/-- 16-bit `MOV` (R81). -/
def execMov16 (d : BitVec 6) (r : BitVec 5) (s : State) : Host.Outcome State Fault Refusal :=
  floeOp (.mov16 d r) s (vecOp [VGroup.one (r.setWidth 6)] [VGroup.one d]
    (fun s l => [⟨d.toNat, l, s.V r.toNat l⟩]))
/-- 16-bit `NOP` (R410). -/
def execNop16 (s : State) : Host.Outcome State Fault Refusal :=
  floeOp (.nop16) s (fun s => .go s)
/-- `PACK2` (R412). -/
def execPack2 (c : BitVec 2) (b a d : BitVec 6) (s : State) : Host.Outcome State Fault Refusal :=
  floeOp (.pack2 c b a d) s (aluR false (fun x y _ => (y <<< 16) ||| (x &&& 0xFFFF))
    (fun x y _ => zext64 ((lo32 y <<< 16) ||| (lo32 x &&& 0xFFFF))) c b a d)
/-- `UNPK`: rd even (R451). -/
def execUnpk (c : BitVec 2) (a d : BitVec 6) (s : State) : Host.Outcome State Fault Refusal :=
  floeOp (.unpk c a d) s (fun s =>
    if c = 2 then
      if d.toNat % 2 = 1 then .trap 9
      else .go ((s.setS d.toNat (s.S a.toNat &&& 0xFFFF)).setS (d.toNat + 1) ((s.S a.toNat >>> 16) &&& 0xFFFF))
    else vecOp [VGroup.one a] [VGroup.pair d]
      (fun s l => [⟨d.toNat, l, s.V a.toNat l &&& 0xFFFF⟩, ⟨d.toNat + 1, l, s.V a.toNat l >>> 16⟩]) s)
/-- `SEL`: ra where the predicate holds, else rb (R438). -/
def execSel (k : BitVec 3) (c : BitVec 2) (b a d : BitVec 6) (s : State) : Host.Outcome State Fault Refusal :=
  floeOp (.sel k c b a d) s (vecOp (srcGroups c a b VGroup.one) [VGroup.one d]
    (fun s l => [⟨d.toNat, l, if s.P k.toNat l then s.A c a l else s.B c b l⟩]))
/-- `MOVI` (R407). -/
def execMovi (i : BitVec 18) (u : BitVec 1) (d : BitVec 6) (s : State) : Host.Outcome State Fault Refusal :=
  floeOp (.movi i u d) s (fun s =>
    if u = 1 then .go (s.setS d.toNat (i.signExtend 64))
    else vecOp [] [VGroup.one d] (fun _ l => [⟨d.toNat, l, i.signExtend 32⟩]) s)
/-- `MOVH` (R407). -/
def execMovh (i : BitVec 18) (u : BitVec 1) (d : BitVec 6) (s : State) : Host.Outcome State Fault Refusal :=
  floeOp (.movh i u d) s (fun s =>
    if u = 1 then .go (s.setS d.toNat ((s.S d.toNat <<< 18) ||| i.setWidth 64))
    else vecOp [VGroup.one d] [VGroup.one d] (fun s l => [⟨d.toNat, l, (s.V d.toNat l <<< 18) ||| i.setWidth 32⟩]) s)

/-! ## Special registers (R73, R422 to R424) -/

/-- A floe register of R73 as the issuing fragment reads it, zero-extended (LANEID is the lane's, R422). LAUNCHID holds the low 32 bits
of the launch's number (log entry 54). -/
def State.spr (s : State) (n : Nat) : W64 :=
  let fl := s.fl
  match n with
  | 0x01 => BitVec.ofNat 64 fl.width
  | 0x02 => BitVec.ofNat 64 (fl.base / 16)
  | 0x03 => BitVec.ofNat 64 s.blk.id
  | 0x04 => BitVec.ofNat 64 s.blk.floes
  | 0x05 => BitVec.ofNat 64 (floeCore s.cur.floe)
  | 0x06 => BitVec.ofNat 64 (floeCore s.cur.floe % 96 / 8)
  | 0x07 => BitVec.ofNat 64 (dieOfCore (floeCore s.cur.floe))
  | 0x08 => BitVec.ofNat 64 (s.blk.launch % 2 ^ 32)
  | 0x09 => BitVec.ofNat 64 (descNblocks s.lau.desc)
  | 0x0A => fl.rbase.setWidth 64
  | 0x0B => BitVec.ofNat 64 s.blk.nregs
  | 0x0C => s.cr.ctime.setWidth 64
  | 0x0D => s.fg.active.setWidth 64
  | 0x0E => (s.fg.active >>> 64).setWidth 64
  | 0x0F => BitVec.ofNat 64 (ofBytes ((((s.lau.cohortsOf s.blk.id).map (fun c => BitVec.ofNat 8 c)) ++ [0xFF, 0xFF, 0xFF, 0xFF]).take 4))
  | 0x10 => fl.epc.setWidth 64
  | 0x11 => fl.fcause.setWidth 64
  | 0x12 => fl.faddr
  | 0x13 => fl.illop
  | 0x14 => fl.illf0
  | 0x15 => fl.illf1
  | 0x16 => fl.illf2
  | 0x17 => fl.illf3
  | 0x18 => fl.uivec
  | 0x19 => fl.uipend.setWidth 64
  | 0x1A => fl.uepc.setWidth 64
  | 0x1B => s.cycle
  | 0x1C => s.time
  | 0x1D => fl.fmtvote.setWidth 64
  | 0x1E => fl.fusest
  | 0x1F => fl.guards.setWidth 64
  | _ => 0

/-- The special registers that `WRSR` may write (R73). -/
def sprWritable (n : Nat) : Bool := n = 0x0A || n = 0x10 || n = 0x11 || n = 0x12 || n = 0x18 || n = 0x19 || n = 0x1A
/-- A code address as EPC and UEPC keep it: bits [17:1] (R423). -/
def keepPc (v : W64) : BitVec 18 := (v.setWidth 18) &&& 0x3FFFE
/-- UIVEC as written: reserved fields and bit 0 of both handlers zero (R258, R423). -/
def keepUivec (v : W64) : W64 := v &&& 0x3fffe800fff3fffe

/-- `RDSR` (R422). -/
def execRdsr (c : BitVec 2) (n d : BitVec 6) (s : State) : Host.Outcome State Fault Refusal :=
  floeOp (.rdsr c n d) s (fun s =>
    if c = 2 then (if n = 0 then .trap 10 else .go (s.setS d.toNat (s.spr n.toNat)))
    else vecOp [] [VGroup.one d] (fun s l =>
      [⟨d.toNat, l, if n = 0 then BitVec.ofNat 32 l else lo32 (s.spr n.toNat)⟩]) s)
/-- `WRSR` of EPC, FCAUSE, FADDR and UEPC; a read-only register takes reason 10 (R422, R423). -/
def execWrsr (a n : BitVec 6) (s : State) : Host.Outcome State Fault Refusal :=
  floeOp (.wrsr a n) s (fun s =>
    let v := s.S a.toNat
    match n.toNat with
    | 0x10 => .go (s.updFl (fun fl => { fl with epc := keepPc v }))
    | 0x11 => .go (s.updFl (fun fl => { fl with fcause := v.setWidth 8 }))
    | 0x12 => .go (s.updFl (fun fl => { fl with faddr := v }))
    | 0x1A => .go (s.updFl (fun fl => { fl with uepc := keepPc v }))
    | _ => .trap 10)
/-- `WRSR RBASE`: a multiple of 8 from 0 to N - 8, else reason 10 (R65, R422). -/
def execWrsrRbase (a : BitVec 6) (s : State) : Host.Outcome State Fault Refusal :=
  floeOp (.wrsrRbase a) s (fun s =>
    let v := (s.S a.toNat).toNat
    if v % 8 = 0 && v + 8 ≤ s.blk.nregs then .go (s.updFl (fun fl => { fl with rbase := BitVec.ofNat 9 v })) else .trap 10)
/-- `WRSR UIVEC`: the fields of R258; the timer restarts (R265, R423). -/
def execWrsrUivec (a : BitVec 6) (s : State) : Host.Outcome State Fault Refusal :=
  floeOp (.wrsrUivec a) s (fun s =>
    .go (s.updFl (fun fl => { fl with uivec := keepUivec (s.S a.toNat), timerAt := s.time })))
/-- `WRSR UIPEND`: a written 1 clears its source (R265, R423). -/
def execWrsrUipend (a : BitVec 6) (s : State) : Host.Outcome State Fault Refusal :=
  floeOp (.wrsrUipend a) s (fun s =>
    .go (s.updFl (fun fl => { fl with uipend := fl.uipend &&& ~~~((s.S a.toNat).setWidth 3) })))

end Sys2Proof.Machine
end

