-- ==== Sys2Proof/Machine/Dispatch.lean ====
section
/-!
DEFINITION. One arm for each constructor of `Instr`: what an instruction, or a step of another agent, does to the package.
-/
namespace Sys2Proof.Machine

/-- The meaning of an instruction or step. -/
def exec (i : Instr) (s : State) : Host.Outcome State Fault Refusal :=
  match i with
  | .iaddR c b a d => Sys2Proof.Machine.execIaddR c b a d s
  | .iaddI m u a d => Sys2Proof.Machine.execIaddI m u a d s
  | .iadd16 d x => Sys2Proof.Machine.execIadd16 d x s
  | .iadd16Imm d m => Sys2Proof.Machine.execIadd16Imm d m s
  | .isubR c b a d => Sys2Proof.Machine.execIsubR c b a d s
  | .isub16 d x => Sys2Proof.Machine.execIsub16 d x s
  | .imulR c b a d => Sys2Proof.Machine.execImulR c b a d s
  | .imulI m u a d => Sys2Proof.Machine.execImulI m u a d s
  | .imul16 d x => Sys2Proof.Machine.execImul16 d x s
  | .imulhS c b a d => Sys2Proof.Machine.execImulhS c b a d s
  | .imulhU c b a d => Sys2Proof.Machine.execImulhU c b a d s
  | .imad c b a d => Sys2Proof.Machine.execImad c b a d s
  | .iminSR c b a d => Sys2Proof.Machine.execIminSR c b a d s
  | .iminUR c b a d => Sys2Proof.Machine.execIminUR c b a d s
  | .imaxSR c b a d => Sys2Proof.Machine.execImaxSR c b a d s
  | .imaxUR c b a d => Sys2Proof.Machine.execImaxUR c b a d s
  | .iminSI m u a d => Sys2Proof.Machine.execIminSI m u a d s
  | .imaxSI m u a d => Sys2Proof.Machine.execImaxSI m u a d s
  | .iminUI m u a d => Sys2Proof.Machine.execIminUI m u a d s
  | .imaxUI m u a d => Sys2Proof.Machine.execImaxUI m u a d s
  | .iabs c a d => Sys2Proof.Machine.execIabs c a d s
  | .iaddc c b a d => Sys2Proof.Machine.execIaddc c b a d s
  | .isubb c b a d => Sys2Proof.Machine.execIsubb c b a d s
  | .lea h c b a d => Sys2Proof.Machine.execLea h c b a d s
  | .andR c b a d => Sys2Proof.Machine.execAndR c b a d s
  | .andI m u a d => Sys2Proof.Machine.execAndI m u a d s
  | .and16 d x => Sys2Proof.Machine.execAnd16 d x s
  | .orR c b a d => Sys2Proof.Machine.execOrR c b a d s
  | .orI m u a d => Sys2Proof.Machine.execOrI m u a d s
  | .or16 d x => Sys2Proof.Machine.execOr16 d x s
  | .xorR c b a d => Sys2Proof.Machine.execXorR c b a d s
  | .xorI m u a d => Sys2Proof.Machine.execXorI m u a d s
  | .xor16 d x => Sys2Proof.Machine.execXor16 d x s
  | .andn c b a d => Sys2Proof.Machine.execAndn c b a d s
  | .shlR c b a d => Sys2Proof.Machine.execShlR c b a d s
  | .shrR c b a d => Sys2Proof.Machine.execShrR c b a d s
  | .sarR c b a d => Sys2Proof.Machine.execSarR c b a d s
  | .shlI m u a d => Sys2Proof.Machine.execShlI m u a d s
  | .shrI m u a d => Sys2Proof.Machine.execShrI m u a d s
  | .sarI m u a d => Sys2Proof.Machine.execSarI m u a d s
  | .shl16 d x => Sys2Proof.Machine.execShl16 d x s
  | .shr16 d x => Sys2Proof.Machine.execShr16 d x s
  | .sar16 d x => Sys2Proof.Machine.execSar16 d x s
  | .fshl c b a d => Sys2Proof.Machine.execFshl c b a d s
  | .fshr c b a d => Sys2Proof.Machine.execFshr c b a d s
  | .popc c a d => Sys2Proof.Machine.execPopc c a d s
  | .clz c a d => Sys2Proof.Machine.execClz c a d s
  | .ctz c a d => Sys2Proof.Machine.execCtz c a d s
  | .brev c a d => Sys2Proof.Machine.execBrev c a d s
  | .prmt c b a d => Sys2Proof.Machine.execPrmt c b a d s
  | .bfx x l p a d => Sys2Proof.Machine.execBfx x l p a d s
  | .bfi l p a d => Sys2Proof.Machine.execBfi l p a d s
  | .icmpS c b a n p => Sys2Proof.Machine.execIcmpS c b a n p s
  | .icmpU c b a n p => Sys2Proof.Machine.execIcmpU c b a n p s
  | .fcmpF32 c b a n p => Sys2Proof.Machine.execFcmpF32 c b a n p s
  | .fcmpF64 c b a n p => Sys2Proof.Machine.execFcmpF64 c b a n p s
  | .fcmpF16 c b a n p => Sys2Proof.Machine.execFcmpF16 c b a n p s
  | .fcmpBf16 c b a n p => Sys2Proof.Machine.execFcmpBf16 c b a n p s
  | .plog b a o d => Sys2Proof.Machine.execPlog b a o d s
  | .movR c a d => Sys2Proof.Machine.execMovR c a d s
  | .mov16 d x => Sys2Proof.Machine.execMov16 d x s
  | .nop16 => Sys2Proof.Machine.execNop16 s
  | .rdsr c n d => Sys2Proof.Machine.execRdsr c n d s
  | .wrsr a n => Sys2Proof.Machine.execWrsr a n s
  | .wrsrRbase a => Sys2Proof.Machine.execWrsrRbase a s
  | .wrsrUivec a => Sys2Proof.Machine.execWrsrUivec a s
  | .wrsrUipend a => Sys2Proof.Machine.execWrsrUipend a s
  | .pack2 c b a d => Sys2Proof.Machine.execPack2 c b a d s
  | .unpk c a d => Sys2Proof.Machine.execUnpk c a d s
  | .sel k c b a d => Sys2Proof.Machine.execSel k c b a d s
  | .movi m u d => Sys2Proof.Machine.execMovi m u d s
  | .movh m u d => Sys2Proof.Machine.execMovh m u d s
  | .fadd t c b a d => Sys2Proof.Machine.execFadd t c b a d s
  | .fadd16 d x => Sys2Proof.Machine.execFadd16 d x s
  | .fsub t c b a d => Sys2Proof.Machine.execFsub t c b a d s
  | .fsub16 d x => Sys2Proof.Machine.execFsub16 d x s
  | .fmul t c b a d => Sys2Proof.Machine.execFmul t c b a d s
  | .fmul16 d x => Sys2Proof.Machine.execFmul16 d x s
  | .ffma t c b a d => Sys2Proof.Machine.execFfma t c b a d s
  | .fmin t c b a d => Sys2Proof.Machine.execFmin t c b a d s
  | .fmin16 d x => Sys2Proof.Machine.execFmin16 d x s
  | .fmax t c b a d => Sys2Proof.Machine.execFmax t c b a d s
  | .fmax16 d x => Sys2Proof.Machine.execFmax16 d x s
  | .frcp t c a d => Sys2Proof.Machine.execFrcp t c a d s
  | .frsq t c a d => Sys2Proof.Machine.execFrsq t c a d s
  | .fsqrt t c a d => Sys2Proof.Machine.execFsqrt t c a d s
  | .fex2 t c a d => Sys2Proof.Machine.execFex2 t c a d s
  | .flg2 t c a d => Sys2Proof.Machine.execFlg2 t c a d s
  | .fsin t c a d => Sys2Proof.Machine.execFsin t c a d s
  | .fcos t c a d => Sys2Proof.Machine.execFcos t c a d s
  | .fcls t c a d => Sys2Proof.Machine.execFcls t c a d s
  | .cvt x r f m a d => Sys2Proof.Machine.execCvt x r f m a d s
  | .qnt x r f b a d => Sys2Proof.Machine.execQnt x r f b a d s
  | .deq f b a d => Sys2Proof.Machine.execDeq f b a d s
  | .shflGet c b a d => Sys2Proof.Machine.execShflGet c b a d s
  | .shflSlide c b a d => Sys2Proof.Machine.execShflSlide c b a d s
  | .shflRot c b a d => Sys2Proof.Machine.execShflRot c b a d s
  | .shflXor c b a d => Sys2Proof.Machine.execShflXor c b a d s
  | .lbc b a d => Sys2Proof.Machine.execLbc b a d s
  | .rfa a d => Sys2Proof.Machine.execRfa a d s
  | .voteAll k d => Sys2Proof.Machine.execVoteAll k d s
  | .voteAny k d => Sys2Proof.Machine.execVoteAny k d s
  | .voteBallot k d => Sys2Proof.Machine.execVoteBallot k d s
  | .redxAdd a d => Sys2Proof.Machine.execRedxAdd a d s
  | .redxMin a d => Sys2Proof.Machine.execRedxMin a d s
  | .redxMax a d => Sys2Proof.Machine.execRedxMax a d s
  | .redxFadd a d => Sys2Proof.Machine.execRedxFadd a d s
  | .scanAdd a d => Sys2Proof.Machine.execScanAdd a d s
  | .scanAddx a d => Sys2Proof.Machine.execScanAddx a d s
  | .matchLanes a d => Sys2Proof.Machine.execMatchLanes a d s
  | .split w => Sys2Proof.Machine.execSplit w s
  | .fuse d => Sys2Proof.Machine.execFuse d s
  | .yield => Sys2Proof.Machine.execYield s
  | .bra o => Sys2Proof.Machine.execBra o s
  | .callRel o => Sys2Proof.Machine.execCallRel o s
  | .brc o h n p => Sys2Proof.Machine.execBrc o h n p s
  | .brx a => Sys2Proof.Machine.execBrx a s
  | .callReg a => Sys2Proof.Machine.execCallReg a s
  | .ret => Sys2Proof.Machine.execRet s
  | .exit => Sys2Proof.Machine.execExit s
  | .jseg l o x => Sys2Proof.Machine.execJseg l o x s
  | .cfetch g t c q => Sys2Proof.Machine.execCfetch g t c q s
  | .ld z u m b d => Sys2Proof.Machine.execLd z u m b d s
  | .ldNa z u m b d => Sys2Proof.Machine.execLdNa z u m b d s
  | .ldAcqBlk z u m b d => Sys2Proof.Machine.execLdAcqBlk z u m b d s
  | .ldAcqDie z u m b d => Sys2Proof.Machine.execLdAcqDie z u m b d s
  | .ldAcqPkg z u m b d => Sys2Proof.Machine.execLdAcqPkg z u m b d s
  | .ldAcqSys z u m b d => Sys2Proof.Machine.execLdAcqSys z u m b d s
  | .st z u m b d => Sys2Proof.Machine.execSt z u m b d s
  | .stNa z u m b d => Sys2Proof.Machine.execStNa z u m b d s
  | .stRelBlk z u m b d => Sys2Proof.Machine.execStRelBlk z u m b d s
  | .stRelDie z u m b d => Sys2Proof.Machine.execStRelDie z u m b d s
  | .stRelPkg z u m b d => Sys2Proof.Machine.execStRelPkg z u m b d s
  | .stRelSys z u m b d => Sys2Proof.Machine.execStRelSys z u m b d s
  | .stn m b d => Sys2Proof.Machine.execStn m b d s
  | .lds z u m b d => Sys2Proof.Machine.execLds z u m b d s
  | .sts z u m b d => Sys2Proof.Machine.execSts z u m b d s
  | .ldfeKeep z m b d => Sys2Proof.Machine.execLdfeKeep z m b d s
  | .ldfeClr z m b d => Sys2Proof.Machine.execLdfeClr z m b d s
  | .stfe z m b d => Sys2Proof.Machine.execStfe z m b d s
  | .stfeWe z m b d => Sys2Proof.Machine.execStfeWe z m b d s
  | .atomAdd x w m b d => Sys2Proof.Machine.execAtomAdd x w m b d s
  | .atomMins x w m b d => Sys2Proof.Machine.execAtomMins x w m b d s
  | .atomMaxs x w m b d => Sys2Proof.Machine.execAtomMaxs x w m b d s
  | .atomMinu x w m b d => Sys2Proof.Machine.execAtomMinu x w m b d s
  | .atomMaxu x w m b d => Sys2Proof.Machine.execAtomMaxu x w m b d s
  | .atomAnd x w m b d => Sys2Proof.Machine.execAtomAnd x w m b d s
  | .atomOr x w m b d => Sys2Proof.Machine.execAtomOr x w m b d s
  | .atomXor x w m b d => Sys2Proof.Machine.execAtomXor x w m b d s
  | .atomExch x w m b d => Sys2Proof.Machine.execAtomExch x w m b d s
  | .atomCas x w m b d => Sys2Proof.Machine.execAtomCas x w m b d s
  | .atomFadd x w m b d => Sys2Proof.Machine.execAtomFadd x w m b d s
  | .atomFmin x w m b d => Sys2Proof.Machine.execAtomFmin x w m b d s
  | .atomFmax x w m b d => Sys2Proof.Machine.execAtomFmax x w m b d s
  | .redAdd x w m b d => Sys2Proof.Machine.execRedAdd x w m b d s
  | .redMins x w m b d => Sys2Proof.Machine.execRedMins x w m b d s
  | .redMaxs x w m b d => Sys2Proof.Machine.execRedMaxs x w m b d s
  | .redMinu x w m b d => Sys2Proof.Machine.execRedMinu x w m b d s
  | .redMaxu x w m b d => Sys2Proof.Machine.execRedMaxu x w m b d s
  | .redAnd x w m b d => Sys2Proof.Machine.execRedAnd x w m b d s
  | .redOr x w m b d => Sys2Proof.Machine.execRedOr x w m b d s
  | .redXor x w m b d => Sys2Proof.Machine.execRedXor x w m b d s
  | .redFadd x w m b d => Sys2Proof.Machine.execRedFadd x w m b d s
  | .redFmin x w m b d => Sys2Proof.Machine.execRedFmin x w m b d s
  | .redFmax x w m b d => Sys2Proof.Machine.execRedFmax x w m b d s
  | .fenceFull x => Sys2Proof.Machine.execFenceFull x s
  | .fenceAcq x => Sys2Proof.Machine.execFenceAcq x s
  | .fenceRel x => Sys2Proof.Machine.execFenceRel x s
  | .fenceCompletion f => Sys2Proof.Machine.execFenceCompletion f s
  | .pref m b => Sys2Proof.Machine.execPref m b s
  | .cacheWb m b => Sys2Proof.Machine.execCacheWb m b s
  | .cacheInv m b => Sys2Proof.Machine.execCacheInv m b s
  | .cacheWbinv m b => Sys2Proof.Machine.execCacheWbinv m b s
  | .ljoin z m b d => Sys2Proof.Machine.execLjoin z m b d s
  | .ljoinStrict z m b d => Sys2Proof.Machine.execLjoinStrict z m b d s
  | .lldt z m b d => Sys2Proof.Machine.execLldt z m b d s
  | .lldtPoll z m b d => Sys2Proof.Machine.execLldtPoll z m b d s
  | .qcfgLoop m a q => Sys2Proof.Machine.execQcfgLoop m a q s
  | .qcfgStrm a q => Sys2Proof.Machine.execQcfgStrm a q s
  | .qcfgOff q => Sys2Proof.Machine.execQcfgOff q s
  | .strm g t c q => Sys2Proof.Machine.execStrm g t c q s
  | .cpy g t c q => Sys2Proof.Machine.execCpy g t c q s
  | .gath g t c q => Sys2Proof.Machine.execGath g t c q s
  | .scat g t c q => Sys2Proof.Machine.execScat g t c q s
  | .cpyMx g t c q => Sys2Proof.Machine.execCpyMx g t c q s
  | .cpyUnmx g t c q => Sys2Proof.Machine.execCpyUnmx g t c q s
  | .apnd g t c q => Sys2Proof.Machine.execApnd g t c q s
  | .apndDur g t c q => Sys2Proof.Machine.execApndDur g t c q s
  | .apndSync g t c q => Sys2Proof.Machine.execApndSync g t c q s
  | .send g t c q => Sys2Proof.Machine.execSend g t c q s
  | .recv g t c q => Sys2Proof.Machine.execRecv g t c q s
  | .wait n t p x l => Sys2Proof.Machine.execWait n t p x l s
  | .waitm b a => Sys2Proof.Machine.execWaitm b a s
  | .gset a g => Sys2Proof.Machine.execGset a g s
  | .barArrive n => Sys2Proof.Machine.execBarArrive n s
  | .barWait n => Sys2Proof.Machine.execBarWait n s
  | .barSync n => Sys2Proof.Machine.execBarSync n s
  | .cbar a => Sys2Proof.Machine.execCbar a s
  | .mfmt a n => Sys2Proof.Machine.execMfmt a n s
  | .mrun b a => Sys2Proof.Machine.execMrun b a s
  | .sequencerRunStart core => Sys2Proof.Machine.execSequencerRunStart core s
  | .nop => Sys2Proof.Machine.execNop s
  | .sysc b a d => Sys2Proof.Machine.execSysc b a d s
  | .syscReply f frag => Sys2Proof.Machine.execSyscReply f frag s
  | .trap c => Sys2Proof.Machine.execTrap c s
  | .uimask a d => Sys2Proof.Machine.execUimask a d s
  | .uiret => Sys2Proof.Machine.execUiret s
  | .emret => Sys2Proof.Machine.execEmret s
  | .mma c k b a t => Sys2Proof.Machine.execMma c k b a t s
  | .mzero n t => Sys2Proof.Machine.execMzero n t s
  | .mdrain r e x o t => Sys2Proof.Machine.execMdrain r e x o t s
  | .mloop o c => Sys2Proof.Machine.execMloop o c s
  | .mbar n => Sys2Proof.Machine.execMbar n s
  | .mbarArrive n => Sys2Proof.Machine.execMbarArrive n s
  | .mend n => Sys2Proof.Machine.execMend n s
  | .multicastDelivery core desc => Sys2Proof.Machine.execMulticastDelivery core desc s
  | .drainStaging core => Sys2Proof.Machine.execDrainStaging core s
  | .stagingUnitWrite core => Sys2Proof.Machine.execStagingUnitWrite core s
  | .ksubmit b a d => Sys2Proof.Machine.execKsubmit b a d s
  | .kuiret => Sys2Proof.Machine.execKuiret s
  | .kuipendAccess hart d op v => Sys2Proof.Machine.execKuipendAccess hart d op v s
  | .registerWrite hart csr v => Sys2Proof.Machine.execRegisterWrite hart csr v s
  | .hostUiEntry hart => Sys2Proof.Machine.execHostUiEntry hart s
  | .launchNow q => Sys2Proof.Machine.execLaunchNow q s
  | .bindTask q => Sys2Proof.Machine.execBindTask q s
  | .unbindTask q => Sys2Proof.Machine.execUnbindTask q s
  | .blockPlacement => Sys2Proof.Machine.execBlockPlacement s
  | .blockFinish b => Sys2Proof.Machine.execBlockFinish b s
  | .launchEnd l => Sys2Proof.Machine.execLaunchEnd l s
  | .fragmentWaitExpiry f frag => Sys2Proof.Machine.execFragmentWaitExpiry f frag s
  | .activeSetAdmission core quad => Sys2Proof.Machine.execActiveSetAdmission core quad s
  | .admissionTimeout core quad => Sys2Proof.Machine.execAdmissionTimeout core quad s
  | .ctimeTick core => Sys2Proof.Machine.execCtimeTick core s
  | .horizonWaitRelease core => Sys2Proof.Machine.execHorizonWaitRelease core s
  | .timestampSweep die => Sys2Proof.Machine.execTimestampSweep die s
  | .stackRead core line lease => Sys2Proof.Machine.execStackRead core line lease s
  | .stackRenewal core line lease => Sys2Proof.Machine.execStackRenewal core line lease s
  | .grantInstall core => Sys2Proof.Machine.execGrantInstall core s
  | .stackWrite f => Sys2Proof.Machine.execStackWrite f s
  | .engineStackWrite f seq => Sys2Proof.Machine.execEngineStackWrite f seq s
  | .stackFill die line => Sys2Proof.Machine.execStackFill die line s
  | .stackEviction die line => Sys2Proof.Machine.execStackEviction die line s
  | .ownershipRequest line agents => Sys2Proof.Machine.execOwnershipRequest line agents s
  | .invalidatingProbe agent line => Sys2Proof.Machine.execInvalidatingProbe agent line s
  | .memoryOpCompletion f cls => Sys2Proof.Machine.execMemoryOpCompletion f cls s
  | .engineCommandCompletion f cls => Sys2Proof.Machine.execEngineCommandCompletion f cls s
  | .engineFrameBoundary f seq => Sys2Proof.Machine.execEngineFrameBoundary f seq s
  | .streamEntryDelivery b stream => Sys2Proof.Machine.execStreamEntryDelivery b stream s
  | .codeSlotLanding f seq => Sys2Proof.Machine.execCodeSlotLanding f seq s
  | .recordAcceptance f seq => Sys2Proof.Machine.execRecordAcceptance f seq s
  | .recordDurable log => Sys2Proof.Machine.execRecordDurable log s
  | .trapHandlerEntry f frag => Sys2Proof.Machine.execTrapHandlerEntry f frag s
  | .interruptEntry f frag => Sys2Proof.Machine.execInterruptEntry f frag s
  | .uiTimerExpiry f => Sys2Proof.Machine.execUiTimerExpiry f s
  | .waitmReread f frag => Sys2Proof.Machine.execWaitmReread f frag s
  | .faultRingWaitRelease asid => Sys2Proof.Machine.execFaultRingWaitRelease asid s
  | .firnDataArrival line => Sys2Proof.Machine.execFirnDataArrival line s
  | .peerAccessRequest peer req => Sys2Proof.Machine.execPeerAccessRequest peer req s
  | .peerAccessTimeout f seq => Sys2Proof.Machine.execPeerAccessTimeout f seq s
  | .networkPacketPlacement asid window off idem data => Sys2Proof.Machine.execNetworkPacketPlacement asid window off idem data s
  | .packetRetransmission f seq => Sys2Proof.Machine.execPacketRetransmission f seq s
  | .peerNotReadyRetry f seq => Sys2Proof.Machine.execPeerNotReadyRetry f seq s
  | .sendAckTimeout f seq => Sys2Proof.Machine.execSendAckTimeout f seq s
  | .serviceEcho c => Sys2Proof.Machine.execServiceEcho c s
  | .invalidationRequest c => Sys2Proof.Machine.execInvalidationRequest c s
  | .invalidationCompletion m => Sys2Proof.Machine.execInvalidationCompletion m s
  | .faultResolve c => Sys2Proof.Machine.execFaultResolve c s
  | .preempt c => Sys2Proof.Machine.execPreempt c s
  | .coreHalt core => Sys2Proof.Machine.execCoreHalt core s
  | .saveImageWrite core => Sys2Proof.Machine.execSaveImageWrite core s
  | .restore c => Sys2Proof.Machine.execRestore c s
  | .restorePlacement l => Sys2Proof.Machine.execRestorePlacement l s
  | .openLog c => Sys2Proof.Machine.execOpenLog c s
  | .closeLog c => Sys2Proof.Machine.execCloseLog c s
  | .hostAppend c => Sys2Proof.Machine.execHostAppend c s
  | .driftControl c => Sys2Proof.Machine.execDriftControl c s
  | .openMailboxWindow c => Sys2Proof.Machine.execOpenMailboxWindow c s
  | .closeWindow c => Sys2Proof.Machine.execCloseWindow c s
  | .remapDone c => Sys2Proof.Machine.execRemapDone c s
  | .submitLaunch c => Sys2Proof.Machine.execSubmitLaunch c s
  | .asidTeardown c => Sys2Proof.Machine.execAsidTeardown c s
  | .bindQueue c => Sys2Proof.Machine.execBindQueue c s
  | .expertPowerCap c => Sys2Proof.Machine.execExpertPowerCap c s
  | .expertReplanningPeriod c => Sys2Proof.Machine.execExpertReplanningPeriod c s
  | .expertEscalationThreshold c => Sys2Proof.Machine.execExpertEscalationThreshold c s
  | .expertIslandOperatingPoint c => Sys2Proof.Machine.execExpertIslandOperatingPoint c s
  | .bindNvmeQueuePair c => Sys2Proof.Machine.execBindNvmeQueuePair c s
  | .unbindNvmeQueuePair c => Sys2Proof.Machine.execUnbindNvmeQueuePair c s
  | .driveTransfer port drive qp va xfer => Sys2Proof.Machine.execDriveTransfer port drive qp va xfer s
  | .rollback l => Sys2Proof.Machine.execRollback l s
  | .launchReplay l => Sys2Proof.Machine.execLaunchReplay l s
  | .linkRetryExhausted die => Sys2Proof.Machine.execLinkRetryExhausted die s
  | .scrubPass bad die => Sys2Proof.Machine.execScrubPass bad die s
  | .frameRetirement src dst reason => Sys2Proof.Machine.execFrameRetirement src dst reason s
  | .migrationLineMove src => Sys2Proof.Machine.execMigrationLineMove src s
  | .snapshotCopy l frame => Sys2Proof.Machine.execSnapshotCopy l frame s
  | .clusterRetirement die cluster => Sys2Proof.Machine.execClusterRetirement die cluster s
  | .escalationThreshold core row => Sys2Proof.Machine.execEscalationThreshold core row s
  | .oscillatorSample island freqs => Sys2Proof.Machine.execOscillatorSample island freqs s
  | .replanningWindow island margins roShift => Sys2Proof.Machine.execReplanningWindow island margins roShift s
  | .windowMissed island => Sys2Proof.Machine.execWindowMissed island s
  | .uncoreCanarySweep island margins roShift => Sys2Proof.Machine.execUncoreCanarySweep island margins roShift s
  | .driftExchangeStep l => Sys2Proof.Machine.execDriftExchangeStep l s
  | .garbageCollection stack held spareUsed => Sys2Proof.Machine.execGarbageCollection stack held spareUsed s
  | .eventRingDeferredWrite => Sys2Proof.Machine.execEventRingDeferredWrite s
  | .powerCapControl watts island => Sys2Proof.Machine.execPowerCapControl watts island s
  | .boot => Sys2Proof.Machine.execBoot s
  | .powerLoss => Sys2Proof.Machine.execPowerLoss s
  | .kBlockEnd core => Sys2Proof.Machine.execKBlockEnd core s
  | .hostCoreAccess hart acc pa size d v => Sys2Proof.Machine.execHostCoreAccess hart acc pa size d v s
  | .externalHostAccess port acc => Sys2Proof.Machine.execExternalHostAccess port acc s

end Sys2Proof.Machine
end

