-- ==== Sys2Proof/Machine/Turn.lean ====
section
/-!
DEFINITION. The turns of the agents: a fragment issues (R26, R90, R188, R189, R237, R268), the sequencer takes a word (R91, R400), a
host hart executes one (R299, R301, R302), another step comes about; and the agenda's default order (log entry 1).
-/
namespace Sys2Proof.Machine

/-! ## Fetch (R80, R188, R189) -/

/-- What a fetch on issue gives: nothing, a poisoned halfword, the first halfword of a word that passes the slot, or a word
and its length in bytes. -/
inductive Fetched where
  | missing
  | poisoned
  | short (h : Nat)
  | word (w len : Nat)
  deriving DecidableEq, Repr

/-- A poisoned byte of the halfword at a code address. -/
def Core.badHalf (c : Core) (a : Nat) : Bool :=
  let sl := c.slot (a / 4096 % 64)
  (a % 4096) ∈ sl.bad || (a % 4096 + 1) ∈ sl.bad
/-- The word at a code address of a core. A fragment that waits at its instruction holds the word already: `held` asks nothing
of the slot, which the engine does not write while the fragment stands there (R187). -/
def Core.fetch (c : Core) (pc : Nat) (held : Bool) : Fetched :=
  let h := c.halfword pc
  if !(held || c.landed pc) then .missing
  else if c.badHalf pc then .poisoned
  else if h % 2 = 0 then .word h 2
  else if pc % 4096 = 0xFFE then .short h
  else if !(held || c.landed (pc + 2)) then .missing
  else if c.badHalf (pc + 2) then .poisoned
  else .word (h + 0x10000 * c.halfword (pc + 2)) 4
/-- Decode a fetched word (R90). -/
def decodeWord (w len : Nat) : Except Nat Instr :=
  match decode (if len = 2 then [w] else [w % 0x10000, w / 0x10000]) with
  | .ok (i, _) => .ok i
  | .error r => .error r

/-! ## Speculative windows (R237) -/

/-- An instruction that a window may hold. -/
def windowHolds (i : Instr) : Bool :=
  let w := encodeWord i
  match i with
  | .brc .. => true
  | .bra .. => true
  | .ld .. => true
  | .ldNa .. => true
  | .lds .. => true
  | .movR .. => true
  | .pack2 .. => true
  | .unpk .. => true
  | .sel .. => true
  | _ => i.halfwords = 1 || (i.halfwords = 2 && ((1 ≤ w / 2 % 64 && w / 2 % 64 ≤ 7) || (9 ≤ w / 2 % 64 && w / 2 % 64 ≤ 0xD)))
/-- A floe's window takes no more instructions (R237). -/
def State.shutWindow (s : State) (f : Nat) : State :=
  s.updFloe f (fun fl => { fl with fence := fl.fence.map (fun w => { w with open_ := false }) })
/-- The window ends at a fragment's instruction, which waits until the fence completes (R237). -/
def State.closeWindow (s : State) (f id : Nat) : State := (s.shutWindow f).waitFrag f id .order
/-- The lines that the loads of a window have read. -/
def Floe.windowLines (fl : Floe) (before : Nat) : List Nat :=
  dedupe (((fl.ops.filter (fun o => before ≤ o.seq)).map (fun o => o.lanes.filterMap (fun a =>
    match a.place with | .phys pa _ _ => some (pa / 128) | _ => none))).flatten)
/-- The version of a line that a load of a core reads: that of its L1 copy, or of the die's cache stack (R220). -/
def State.lineVersion (s : State) (c ln : Nat) : BitVec 16 :=
  match (s.core c).l1.get? ln with
  | some y => y.wts
  | none => (s.stackLine (dieOfCore c) ln).wts
/-- Record a line that a window load reads; one that was recorded under another version has changed (R238). -/
def recordLine (v : BitVec 16) : List WinLine → Nat → List WinLine
  | [], ln => [⟨ln, v, false⟩]
  | x :: t, ln => if x.line = ln then { x with changed := x.changed || x.wts ≠ v } :: t else x :: recordLine v t ln
/-- The window's loads bind their values at once; none where the horizon holds one back. -/
def State.bindWindow (s : State) (f before : Nat) : Option State :=
  ((s.floe f).ops.filter (fun o => before ≤ o.seq && o.lanes.any (fun a => !a.done))).foldl
    (fun (a : Option State) o => a.bind (fun s => s.tryPerform f o)) (some s)
/-- The issuing fragment's `BRC` diverges: some of its active lanes jump and some do not (R347). -/
def State.diverges (s : State) (i : Instr) : Bool :=
  match i with
  | .brc _ _ n p => s.lanes.any (fun l => s.P p.toNat l != (n = 1)) && s.lanes.any (fun l => s.P p.toNat l == (n = 1))
  | _ => false
/-- An instruction issued in a window has had an effect that the window may not hold: a cause, a wait, an entry of a queue, lanes that
join a fragment which waits. -/
def leavesWindow (s t : State) (f id : Nat) : Bool :=
  let a := s.floe f
  let b := t.floe f
  (t.launchOf (blockOf f)).phase ≠ .running || b.parked.isSome || b.recs.length ≠ a.recs.length || b.due.length ≠ a.due.length ||
  (b.frag id).wait ≠ .none || b.frags.any (fun g => g.wait ≠ .none && g.active ≠ (a.frag g.id).active) ||
  (t.block (blockOf f)).qents ≠ (s.block (blockOf f)).qents
/-- The fragments that an instruction has moved: what it has merged with among them (R25). -/
def movedFrags (a b : Floe) : List Nat :=
  (a.frags.filter (fun g => b.frags.all (fun h => h.id ≠ g.id || h.pc ≠ g.pc || h.active ≠ g.active))).map (fun g => g.id)
/-- What a window puts back has been replaced already, or is what stood before (R238). -/
def undoFirst {α : Type} (t : Tab α) (was : Nat → α) (ks : List Nat) : Tab α :=
  ks.foldl (fun t k => if (t.get? k).isSome then t else t.put k (was k)) t
/-- What a window puts back, with what its instruction has changed from one state to the next, and what its loads are to bind. -/
def SavedRegs.note (r : SavedRegs) (s t : State) (f before : Nat) : SavedRegs :=
  let b := s.block (blockOf f)
  let c := t.block (blockOf f)
  let mine := ((t.floe f).ops.filter (fun o => before ≤ o.seq))
  let binds := (mine.map (fun o => (o.lanes.map (fun a => t.boundWords f o a.lane)).flatten)).flatten
  { r with
    sregs := undoFirst r.sregs (fun n => (s.floe f).S n)
      ((upTo 64).filter (fun n => (t.floe f).S n ≠ (s.floe f).S n) ++ (mine.map (fun o => o.boundS)).flatten)
    vregs := undoFirst r.vregs (fun k => b.vregs.getD k 0)
      ((dedupe (b.vregs.keys ++ c.vregs.keys)).filter (fun k => c.vregs.getD k 0 ≠ b.vregs.getD k 0) ++ binds)
    preds := undoFirst r.preds (fun k => b.preds.getD k false)
      ((dedupe (b.preds.keys ++ c.preds.keys)).filter (fun k => c.preds.getD k false ≠ b.preds.getD k false))
    bad := undoFirst r.bad (fun k => decide (k ∈ b.badRegs))
      ((dedupe (b.badRegs ++ c.badRegs)).filter (fun k => decide (k ∈ c.badRegs) ≠ decide (k ∈ b.badRegs)) ++ binds) }
/-- An instruction issues past an incomplete fence: it runs, and where it may not stand in the window the window ends before
it (R237). -/
def State.inWindow (s : State) (f id : Nat) (w : Fence) (i : Instr) : State :=
  if !w.open_ || 32 ≤ w.count || !(windowHolds i) || s.diverges i then s.closeWindow f id
  else match exec i s with
    | .next t =>
      if leavesWindow s t f id then s.closeWindow f id
      else match (t.updFloe f (fun fl => { fl with fence := some { w with saved := w.saved.note s t f w.before } })).bindWindow f w.before with
        | none => s.closeWindow f id
        | some t1 =>
          let read := (t1.floe f).windowLines w.before
          let ls := read.foldl (fun ls n => recordLine (t1.lineVersion (floeCore f) n) ls n) w.lines
          let moved := id :: movedFrags (s.floe f) (t1.floe f)
          if 16 < ls.length || leavesWindow s t1 f id then s.closeWindow f id
          else t1.updFloe f (fun fl => { fl with fence := fl.fence.map (fun x =>
            { x with count := x.count + 1, lines := ls, touched := dedupe (x.touched ++ moved) }) })
    | _ => s.closeWindow f id

/-! ## Issue (R26, R268) -/

/-- Waits that another agent's step ends; the fragment does not try its instruction again. -/
def WaitFor.passive : WaitFor → Bool
  | .bar _ => true | .vote _ => true | .cohort _ => true | .mrun => true | .fuse => true | .sysc => true | _ => false
/-- Waits at an instruction that has not issued: it issues once nothing holds it back any more (R45). -/
def WaitFor.unissued : WaitFor → Bool
  | .room => true | .order => true | .rel => true | .pop => true | .drainCounters => true
  | _ => false
/-- The fragment may issue now, or try again what it waits at. -/
def State.mayTry (s : State) (f id : Nat) : Bool :=
  let fl := s.floe f
  s.atBoundary f id &&
  (match (fl.frag id).wait with
   | .none => s.next f id
   | w => !w.passive && (fl.st = .active || fl.st = .ready || fl.st = .waiting))
/-- A fragment is about to issue: who executes, the wait counts of its floe, and the floe's age stamp (R26, R169). -/
def State.issuing (s : State) (f id : Nat) : State :=
  let s1 := { s with cur := ⟨f, id, floeCore f, s.cur.hart, s.cur.halt⟩ }
  if (s.frag f id).wait = .none then s1.updFloe f (fun fl => { fl.issues id with age := s1.now }) else s1
/-- What a fragment fetches at its program counter. -/
def State.fetched (s : State) (f id : Nat) : Fetched :=
  (s.core (floeCore f)).fetch (s.frag f id).pc.toNat ((s.frag f id).wait ≠ .none)
/-- The instruction at a fragment's program counter, fetched and decoded: its cause, or its effect. While a fence has not completed,
whatever is no instruction of the window ends it (R90, R188, R189, R237). -/
def State.attempt (s : State) (f id : Nat) : Host.Outcome State Fault Refusal :=
  match (s.floe f).fence with
  | none =>
    match s.fetched f id with
    | .missing => .next (s.preciseFault f id 0x0C ((s.frag f id).pc.setWidth 64) false)
    | .poisoned => .next (s.consume (s.block (blockOf f)).launch (some (s.block (blockOf f)).id))
    | .short h => .next (s.emulTrap f id h 4 1)
    | .word w len =>
      match decodeWord w len with
      | .error r => .next (s.emulTrap f id w len r)
      | .ok i => exec i s
  | some x =>
    .next (match s.fetched f id with
      | .word w len =>
        match decodeWord w len with
        | .error _ => s.closeWindow f id
        | .ok i => s.inWindow f id x i
      | _ => s.closeWindow f id)
/-- The fragment stands at an instruction that was held back from issuing. -/
def State.heldAt (s : State) (f id : Nat) : Bool := (s.frag f id).wait.unissued
/-- An issue ends: an instruction that was held back has not issued, and the counts of its floe stand as before (R26). -/
def State.afterIssue (s : State) (f id : Nat) (o : Host.Outcome State Fault Refusal) : Host.Outcome State Fault Refusal :=
  match o with
  | .next t => .next (if t.heldAt f id then t.updFloe f (fun fl => Floe.notIssued (s.floe f) fl) else t)
  | o => o
/-- The next instruction of a floe can issue (R169): what R26 picks is not held back. -/
def State.canIssue (s : State) (f : Nat) : Bool :=
  match (s.floe f).pick with
  | none => false
  | some id => (s.frag f id).wait = .none && s.mayTry f id && (match (s.issuing f id).attempt f id with | .next t => !(t.heldAt f id) | _ => true)
/-- A word issues on the scalar datapath: class 2 or the E layout (R39, R84). -/
def scalarWord (w len : Nat) : Bool :=
  len = 4 && ((layoutOf w = 1 && bitsOf w 25 2 = 2) || (layoutOf w = 2 && bitsOf w 1 6 ≠ 0x1E && bitsOf w 22 1 = 1) ||
    (layoutOf w = 3 && bitsOf w 13 1 = 1) || layoutOf w = 6)
/-- A floe's next instruction issues on the scalar datapath. -/
def State.scalarNext (s : State) (f : Nat) : Bool :=
  match s.fetched f ((s.floe f).pick.getD 0) with
  | .word w len => scalarWord w len
  | _ => false
/-- The 16-lane half of its quadrant in which a floe of width 16 runs: the parity of its slot's number (R48). -/
def State.halfOf (s : State) (f : Nat) : Nat :=
  let b := s.block (blockOf f)
  ((b.layout.getD ((s.floe f).base / b.width) (0, 0)).2 + (s.floe f).base % b.width / b.maxsplit) % 2
/-- Two floes of a quadrant may issue in one cycle: one of them on the scalar datapath, or both of width 16 and in opposite halves (R38,
R169). -/
def State.sideBySide (s : State) (f g : Nat) : Bool :=
  s.scalarNext f != s.scalarNext g ||
    (!(s.scalarNext f) && (s.floe f).width = 16 && (s.floe g).width = 16 && s.halfOf f ≠ s.halfOf g)
/-- No floe of the quadrant with an older age stamp issues instead (R169). -/
def State.oldest (s : State) (f : Nat) : Bool :=
  (s.quadFloes (floeCore f) (s.quadOf f) .active).all (fun g =>
    (s.floe f).age ≤ (s.floe g).age || s.sideBySide f g || !(s.canIssue g))
/-- A fragment whose wait another agent's step does not end tries again: an instruction that has not issued is ready as soon as nothing holds
it back (R45); any other goes on with its effect. -/
def State.retry (s : State) (f id : Nat) : Host.Outcome State Fault Refusal :=
  let s1 := s.issuing f id
  if (s.frag f id).wait.unissued then
    match s1.attempt f id with
    | .next t => if t.heldAt f id then .next t else .next (s1.waitFrag f id .none)
    | _ => .next (s1.waitFrag f id .none)
  else match s1.fetched f id with
    | .word w len =>
      match decodeWord w len with
      | .error _ => .next s1
      | .ok i => exec i s1
    | _ => .next s1
/-- An issue turn: the first case of R268 that applies. A reported cause that finds a window open ends it first (R237). -/
def State.issueTurn (s : State) (f id : Nat) : Host.Outcome State Fault Refusal :=
  let fl := s.floe f
  if s.dueTrap f id then .next (s.enterDue f id)
  else if (s.dueReport f id).isSome then .next (s.takeReport f id)
  else if s.interruptDue f id then .next (s.takeInterrupt f id)
  else match (s.frag f id).wait with
    | .cohort _ => .next (if s.atBoundary f id then s.releaseCohorts f else s)
    | .trap => .next (if s.atBoundary f id && fl.fence.isSome then s.shutWindow f else s)
    | .none =>
      if !(s.mayTry f id && s.oldest f) then .next s
      else if fl.fence.isSome && fl.recs.isEmpty && !fl.reports.isEmpty then .next (s.closeWindow f id)
      else s.afterIssue f id ((s.issuing f id).attempt f id)
    | _ => if s.mayTry f id then s.retry f id else .next s

/-! ## The sequencer, host harts, other steps -/

/-- A sequencer turn: the word at its program counter executes, or stops the run (R91, R400). -/
def State.sequencerTurn (s : State) (c : Nat) : Host.Outcome State Fault Refusal :=
  if (s.core c).run.all (fun r => (s.launchOf r.blk).phase ≠ .running) then .next s
  else match s.seqFetch c with
    | .idle => .next s
    | .done s1 => .next s1
    | .word w s1 =>
      match decodeMatrix w with
      | some i => exec i { s1 with cur := { s1.cur with core := c } }
      | none => .next (s1.seqError c w)
/-- What an agent does in its turn. -/
abbrev Step := State → Host.Outcome State Fault Refusal
/-- The step that serves a call (R304): its number and first argument choose it. -/
def serviceStep (num arg0 : Nat) (c : Caller) : Step :=
  match num with
  | 1 => execInvalidationRequest c
  | 2 => execFaultResolve c
  | 3 => execPreempt c
  | 4 => execRestore c
  | 5 => execOpenLog c
  | 6 => execCloseLog c
  | 7 => execHostAppend c
  | 8 => execDriftControl c
  | 9 => execOpenMailboxWindow c
  | 10 => execCloseWindow c
  | 11 => execRemapDone c
  | 12 => execSubmitLaunch c
  | 13 => execAsidTeardown c
  | 14 => execBindQueue c
  | 15 =>
    match arg0 with
    | 1 => execExpertReplanningPeriod c
    | 2 => execExpertEscalationThreshold c
    | 3 => execExpertIslandOperatingPoint c
    | _ => execExpertPowerCap c
  | 16 => execBindNvmeQueuePair c
  | 17 => execUnbindNvmeQueuePair c
  | _ => execServiceEcho c
/-- The step that serves a caller, where it calls. -/
def State.serving (s : State) (c : Caller) : Option Step := (s.callOf c).map (fun q => serviceStep q.num (q.arg 0) c)
/-- A `fence` of RVA23, whatever it orders (log entry 62). -/
def fenceWord (w : Nat) : Bool := bitsOf w 0 7 = 0x0F && bitsOf w 12 3 = 0
/-- A host hart's turn: the entry that is due at its boundary; else a custom-0 word of this manual, a CSR instruction on a CSR of R301,
a `fence`, which orders accesses that are performed at once (R235), `ecall` in service mode; the other words are RVA23's, which this manual does
not give (R12, R299 to R302). -/
def State.hartTurn (s : State) (h : Nat) (word : W32) : Host.Outcome State Fault Refusal :=
  if 64 ≤ h then .next s
  else if s.hostUiDue h then .next (s.hostUi h)
  else match decodeHost word.toNat with
    | some i => exec i { s with cur := { s.cur with hart := h } }
    | none =>
      match s.csrTurn h word with
      | some t => .next t
      | none =>
        if fenceWord word.toNat then .next (s.hartDone h 0 0)
        else match (if word = 0x73 then s.serving (.hart h) else none) with
          | some k => k s
          | none => .refused (.hostIsa word)
/-- The request of pre-emption at the head of the management path reaches the core of a fragment as it issues: a fault of that instruction is
taken, its handler is not entered, and the floe is saved with the fault pending (R46, R269). -/
def State.issueAsHalted (s : State) (f id : Nat) : Host.Outcome State Fault Refusal :=
  let c := floeCore f
  match execPreempt .mgmt s with
  | .next t =>
    if (t.core c).haltReq && !((s.core c).haltReq) then
      match { s with cur := { s.cur with core := c, halt := true } }.issueTurn f id with
      | .next u => execPreempt .mgmt { u with cur := { u.cur with halt := false } }
      | o => o
    else s.issueTurn f id
  | o => o
/-- The host's software gives a hart a process to run, in U-mode where it says so (R301, R302, log entry 59). -/
def State.giveProcess (s : State) (h asid : Nat) (user : Bool) (pc : W64) : State :=
  if 64 ≤ h then s else s.updHart h (fun x => { x with asid := asid, user := user, pc := pc })
/-- The host leaves frames of a DRAM tier to firmware's free pool (R280, log entry 59). -/
def State.giveFrames (s : State) (frs : List Nat) : State :=
  { s with freePool := dedupe (s.freePool ++ frs.filter (fun fr => paOk (fr * 2 ^ 16) && paTier (fr * 2 ^ 16) ≤ 1 && !(s.retired fr) &&
      !(s.migrations.any (fun m => m.src = fr || m.dst = fr)))) }
/-- Run a turn. An event is a step of the table that has no word of its own. -/
def runTurn (t : Turn) (s : State) : Host.Outcome State Fault Refusal :=
  match t with
  | .issue f id => s.issueTurn f id
  | .issueHalt f id => s.issueAsHalted f id
  | .sequencer c => s.sequencerTurn c
  | .hart h w => s.hartTurn h w
  | .process h asid user pc => .next (s.giveProcess h asid user pc)
  | .frames frs => .next (s.giveFrames frs)
  | .event i => if i.halfwords = 0 then exec i s else .next s

/-! ## The default order (log entry 1) -/

/-- The steps that firmware and the command processors take. -/
def State.firmwareTurns (s : State) : List Step :=
  (s.launches.keys.map (fun l => [execLaunchEnd l, execRollback l, execLaunchReplay l])).flatten ++
  s.blocks.keys.map (fun b => execBlockFinish b) ++
  ((s.cores.filter (fun e => e.2.haltReq)).map (fun e => [execCoreHalt e.1, execSaveImageWrite e.1])).flatten ++
  s.restores.map (fun l => execRestorePlacement l) ++
  s.leaving.map (fun e => execClusterRetirement e.1 e.2) ++
  (s.retiring.map (fun r => [execMigrationLineMove r.src, execFrameRetirement r.src r.dst r.reason])).flatten ++
  s.condemned.filterMap (fun e => (s.freePool.find? (fun d => s.framesOk e.1 d)).map (fun d => execFrameRetirement e.1 d e.2)) ++
  (s.dies.filter (fun e => !e.2.inLink && !e.2.map.isEmpty)).map (fun e => execLinkRetryExhausted e.1) ++
  (s.images.map (fun i => (i.floes.map (fun e => (e.2.cmds.map (fun c =>
    [execRecordAcceptance e.1 c.seq, execPeerNotReadyRetry e.1 c.seq])).flatten)).flatten)).flatten ++
  (upTo s.invs.length).map (fun i => execInvalidationCompletion i) ++
  (s.ringWaits.map (fun w => execFaultRingWaitRelease w.1)) ++
  (if s.evBacklog.isEmpty then [] else [execEventRingDeferredWrite])
/-- The quadrants of the cores that hold blocks. -/
def State.quadrants (s : State) : List (Nat × Nat) :=
  ((dedupe (s.blocks.keys.map coreOf)).map (fun c => (upTo 4).map (fun q => (c, q)))).flatten
/-- The issue of the fragment that R26 picks of the active floe with the oldest age stamp, of those that may issue (R169). -/
def State.issueTurns (s : State) : List Step :=
  match s.leastFloe (fun fl => fl.age) (s.floes.keys.filter (fun f =>
      match (s.floe f).pick with
      | some id => s.mayTry f id
      | none => false)) with
  | none => []
  | some f => [fun s => s.issueTurn f ((s.floe f).pick.getD 0)]
/-- The outstanding operations, commands, fences and replies of floes. -/
def State.floeTurns (s : State) : List Step :=
  (s.floes.keys.map (fun f =>
    [execMemoryOpCompletion f .loads, execMemoryOpCompletion f .stores, execFenceCompletion f,
     execEngineCommandCompletion f .copies, execEngineCommandCompletion f .net, execUiTimerExpiry f] ++
    ((s.floe f).cmds.filter (fun c => c.kind = .cfetch || c.kind.source = 5)).map (fun c => execEngineFrameBoundary f c.seq) ++
    (s.floe f).syscs.map (fun r => execSyscReply f r.frag))).flatten
/-- A core whose sequencer, matrix engine or store engine has work. -/
def Core.works (k : Core) : Bool :=
  k.run.isSome || !(k.mruns.isEmpty && k.engine.isEmpty && k.staging.isEmpty) || k.drain.isSome
/-- The sequencers, matrix engines, drains and streams. -/
def State.coreTurns (s : State) : List Step :=
  ((s.cores.filter (fun e => e.2.works)).map (fun e =>
    [execKBlockEnd e.1, execDrainStaging e.1, execStagingUnitWrite e.1, fun s => s.sequencerTurn e.1, execSequencerRunStart e.1] ++
    (if e.2.engine.isEmpty then [] else (upTo 64).map (fun d => execMulticastDelivery e.1 d)))).flatten ++
  (s.blocks.map (fun e => e.2.streams.map (fun x => execStreamEntryDelivery e.1 x.1))).flatten ++
  s.logs.keys.map (fun k => execRecordDurable k)
/-- The floes that a full active set keeps waiting (R40, R170): their turn comes though nobody names it. -/
def State.rotations (s : State) : List Step := s.quadrants.map (fun e => execAdmissionTimeout e.1 e.2)
/-- The fragments that wait at an instruction which they try again, or for a handler. -/
def State.retryTurns (s : State) : List Step :=
  (s.floes.map (fun e => (e.2.frags.filter (fun g => g.wait ≠ .none)).map (fun g =>
    [execWaitmReread e.1 g.id, fun s => s.issueTurn e.1 g.id]))).flatten.flatten
/-- The callers of services. -/
def State.callers (s : State) : List Caller :=
  .mgmt :: (s.floes.map (fun e => e.2.syscs.map (fun r => Caller.floe e.1 r.frag))).flatten
/-- The queues of descriptors, the management path, placement, and logical time, which passes in one core at a time. -/
def State.queueTurns (s : State) : List Step :=
  (s.callers.filterMap (fun c => s.serving c)) ++
  (s.subq.keys.map (fun q => [execLaunchNow q, execBindTask q, execUnbindTask q])).flatten ++
  [execBlockPlacement] ++
  (s.cores.filter (fun e => 0 < e.2.heldTicks || s.floes.any (fun x => floeCore x.1 = e.1 && !x.2.cohortsPast.isEmpty))).map
    (fun e => execHorizonWaitRelease e.1) ++
  (if s.cores.any (fun e => 0 < e.2.heldTicks) ||
      s.floes.any (fun e => !e.2.ops.isEmpty || e.2.frags.any (fun g => match g.wait with | .memory _ _ => true | _ => false)) then
    execCtimeTick (s.now % 384) :: (upTo 4).map (fun d => execTimestampSweep d) else [])
/-- A step changes the state. -/
def effective (s : State) (k : Step) : Bool :=
  match k s with
  | .next u => decide (u ≠ s)
  | _ => true
/-- A list begun at its n-th place, the places before it last. -/
def startAt {α : Type} (n : Nat) (l : List α) : List α := l.drop (n % l.length) ++ l.take (n % l.length)
/-- The first step that changes the state, admission before the others, which take turns as time passes, so that none keeps the others from
theirs (R40); none where nothing is to be done. -/
def State.defaultStep (s : State) : Option Step :=
  (s.quadrants.map (fun e => execActiveSetAdmission e.1 e.2) ++
    startAt s.now (s.firmwareTurns ++ s.issueTurns ++ s.floeTurns ++ s.coreTurns ++ s.retryTurns ++ s.queueTurns ++ s.rotations)).find? (effective s)

/-! ## A step -/

/-- Time passes before a turn (log entry 5), and the physical errors that are due strike (R276). -/
def State.passTime (s : State) : State :=
  State.struck { s with now := s.now + 1, cycle := s.cycle + Config.freeCycles s.now, time := s.time + Config.freeNs s.now }
/-- One turn of the package: the boot before all else, then the agenda, then the default order. -/
def State.turn (s : State) : Host.Outcome State Fault Refusal :=
  if s.bootBad then .fault .bootHalted
  else if !s.booted then exec .boot s.passTime
  else match s.agenda with
    | t :: ts => runTurn t { s.passTime with agenda := ts }
    | [] =>
      match s.passTime.defaultStep with
      | some k => k s.passTime
      | none => .next s.passTime

/-! ## Placing one instruction -/

/-- The launch of a placed instruction: one block of one 16-lane floe with 256 registers and 64 KiB of scratchpad on die 0, with
code in slot 0 (log entry 6). -/
def placedLaunch : Launch :=
  { Launch.reset with
    id := 1
    desc := BitVec.ofNat 1024 (64 * 2 ^ 500 + 31 * 2 ^ 479 + 1 * 2 ^ 469 + 1 * 2 ^ 459 + 1 * 2 ^ 416)
    phase := .running
    placed := 1
    dies := [0] }
/-- The bytes of a word of `n` bytes as a table from an offset. -/
def bytesFrom (off n w : Nat) : Tab Byte :=
  ((toBytes n w).zip (upTo n)).foldl (fun t e => t.set 0 (off + e.2) e.1) []
/-- A package with the placed launch's block on core 0 and its floe about to issue at 0. -/
def State.placeBlock (s : State) (code : Tab Byte) : State :=
  let l := { placedLaunch with image := code }
  let s1 := { s with booted := true, bootBad := false, nextLaunch := 2, launches := s.launches.put 1 l, agenda := [.issue 0 0] }
  (s1.prepareBlock l 0 0 0).updFloe 0 (fun fl => { fl with st := .active })
/-- The instruction whose bits are w where the next step runs it (log entry 6): a floe word at the start of the placed floe's
code; a matrix stream word in memory, at the program counter of a run of the placed block; `kuiret` in host hart 0. -/
def State.placeWord (s : State) (nbits w : Nat) : State :=
  let v := w % 2 ^ nbits % 0x100000000
  if v = 0x100B then { s with booted := true, bootBad := false, agenda := [.hart 0 (BitVec.ofNat 32 v)] }
  else
    let s1 := s.placeBlock (bytesFrom 0 4 v)
    if v % 2 = 1 && 0x30 ≤ v / 2 % 64 && v / 2 % 64 ≤ 0x35 then
      { s1.updCore 0 (fun k =>
          { k with run := some ⟨0, 0, 0, 0x10000, [], [0, 0, 0, 0], 0, none, false, false, []⟩,
                   pages := [⟨0, 0x10000, 0x10000, 0x1B, 0⟩] }) with
        agenda := [.sequencer 0]
        mem := ((toBytes 4 v).zip (upTo 4)).foldl (fun t e => t.set 0 e.2 e.1) s1.mem }
    else s1

end Sys2Proof.Machine
end

