-- ==== Sys2Proof/Machine/Step.lean ====
section
/-!
DEFINITION. The step of the package, and the placing of one instruction where the next step runs it.
-/
namespace Sys2Proof.Machine

/-- One step: the next agent takes its turn. -/
def step (s : State) : Host.Outcome State Fault Refusal := s.turn

/-- One instruction word where the next step runs it: see `State.placeWord`. -/
def State.withFetchWord (s : State) (nbits w : Nat) : State := s.placeWord nbits w

end Sys2Proof.Machine
end

