-- ==== Sys2Proof/Claims/Effect.lean ====
section
/-!
DEFINITION. The words in which the statements are written: what an instruction completes in, and what a floe instruction reads,
writes and leaves alone.
-/
namespace Sys2Proof.Claims
open Sys2Proof.Machine

/-- From `s`, instruction `i` answers a next state, and P holds of it. -/
def Completes (i : Instr) (s : State) (P : State → Prop) : Prop := ∃ t, exec i s = .next t ∧ P t

/-- From `s`, instruction `i` answers the next state `t`. -/
def Gives (i : Instr) (s t : State) : Prop := exec i s = .next t

/-- What a floe instruction reads and writes: the vector groups of its sources and destinations, per active lane the field
numbers written with their values, the uniform registers written, the predicate written with its lanes, how far `STOCHCTR`
goes on, the length of its word, and what its rules ask besides the checks of `CanRun`. -/
structure Effect where
  srcs  : List VGroup := []
  dsts  : List VGroup := []
  vec   : Nat → List (Nat × W32) := fun _ => []
  uni   : List (Nat × W64) := []
  pnum  : Nat := 7
  pred  : List (Nat × Bool) := []
  stoch : W32 := 0
  len   : Nat := 4
  also  : Prop := True

/-- The entries of queue q that the pops of an instruction leave a lane's thread (R75). -/
def popped (s : State) (srcs : List VGroup) (l q : Nat) : List W32 :=
  if q ∈ s.portsOf srcs then (s.blk.qent (s.thread l) q).drop 1 else s.blk.qent (s.thread l) q

/-- The conditions under which a vector instruction executes normally: its registers lie below N and are aligned (R66), none
backs a loop-carried queue (R419), each queue it pops has an entry and each it pushes has room in every active lane
(R76), and no word that it reads is poisoned (R277). -/
structure CanRun (s : State) (e : Effect) : Prop where
  inRange   : ∀ g ∈ e.srcs ++ e.dsts, s.absReg g.n + g.count ≤ s.blk.nregs ∧ s.absReg g.n % g.align = 0
  noBacking : ∀ g ∈ e.srcs ++ e.dsts, ∀ i < g.count, s.fl.backing (s.absReg (g.n + i)) = false
  hasEntry  : ∀ q ∈ s.portsOf e.srcs, ∀ l ∈ s.lanes, s.blk.qent (s.thread l) q ≠ []
  hasRoom   : ∀ q ∈ s.portsOf e.dsts, (s.fl.queue q).mode ≠ .stream ∧
    ∀ l ∈ s.lanes, (popped s e.srcs l q).length < (s.fl.queue q).depth
  clean     : ∀ l ∈ s.lanes, s.operandBad e.srcs l = false
  also      : e.also

/-- The values that a lane pushes to queue q. -/
def pushed (s : State) (e : Effect) (l q : Nat) : List W32 :=
  ((e.vec l).filter (fun w => s.fl.portOf (s.absReg w.1) = some q)).map (fun w => w.2)

/-- The value of uniform register n afterwards. -/
def uniAfter (s : State) (e : Effect) (n : Nat) : W64 := ((e.uni.find? (fun w => w.1 = n)).map (fun w => w.2)).getD (s.S n)

/-- Everything outside the issuing floe and its block is as it was: all of memory, every cache, core, launch and other piece
of `State`, every other floe and every other block. -/
structure OnlyOwn (s t : State) : Prop where
  rest   : t = { s with floes := t.floes, blocks := t.blocks }
  floes  : ∀ f, f ≠ s.cur.floe → t.floes.get? f = s.floes.get? f
  blocks : ∀ b, b ≠ blockOf s.cur.floe → t.blocks.get? b = s.blocks.get? b

/-- The state after a floe instruction: its results, and every other register, predicate, queue entry, floe register and byte of
memory as before. The fragments, the floe's scheduling state and its ready time belong to retiring (R23, R25, R45). -/
structure After (s : State) (e : Effect) (t : State) : Prop where
  own        : OnlyOwn s t
  /-- each destination register of each active lane holds the result, where it is no queue port -/
  regs       : ∀ l ∈ s.lanes, ∀ w ∈ e.vec l, s.fl.portOf (s.absReg w.1) = none →
    t.blk.reg (s.thread l) (s.absReg w.1) = w.2
  /-- every other register word of the block is as before -/
  otherRegs  : ∀ n, (∀ l ∈ s.lanes, ∀ w ∈ e.vec l, n ≠ s.blk.regIdx (s.thread l) (s.absReg w.1)) →
    t.blk.vregs.getD n 0 = s.blk.vregs.getD n 0 ∧ (n ∈ t.blk.badRegs ↔ n ∈ s.blk.badRegs)
  /-- the queues of the active lanes: popped, then pushed -/
  queues     : ∀ l ∈ s.lanes, ∀ q < 16, t.blk.qent (s.thread l) q = popped s e.srcs l q ++ pushed s e l q
  /-- every other queue is as before, with its entries, their poison and its backing registers -/
  otherQueues : ∀ x, ∀ q < 16, (∀ l ∈ s.lanes, x = s.thread l → q ∉ s.portsOf e.srcs ∧ pushed s e l q = []) →
    t.blk.queueAt x q = s.blk.queueAt x q
  /-- the predicate written, in its lanes; p7 is never written -/
  preds      : e.pnum ≠ 7 → ∀ w ∈ e.pred, t.blk.pred (s.thread w.1) e.pnum = w.2
  /-- every other predicate is as before -/
  otherPreds : ∀ x k, k < 8 → (e.pnum = 7 ∨ ∀ w ∈ e.pred, ¬(x = s.thread w.1 ∧ k = e.pnum)) →
    t.blk.pred x k = s.blk.pred x k
  /-- the block's other parts are as before -/
  block      : t.blk = { s.blk with vregs := t.blk.vregs, badRegs := t.blk.badRegs, qents := t.blk.qents, preds := t.blk.preds }
  /-- each uniform register -/
  unis       : ∀ n, t.S n = uniAfter s e n
  /-- the floe's other registers are as before -/
  floe       : t.fl = { s.fl with sregs := t.fl.sregs, stoch := s.fl.stoch + e.stoch, frags := t.fl.frags, st := t.fl.st,
                                  readyAt := t.fl.readyAt }
  /-- an undivided floe with an empty mask stack goes on behind the instruction -/
  advance    : s.fl.frags = [s.fg] → s.fg.stack = [] → s.fg.active &&& s.fl.live = s.fg.active → s.fg.active ≠ 0 →
    t.fg.pc = s.fg.pc + BitVec.ofNat 18 e.len

/-! ## Effects by layout (R82, R84, R85) -/

/-- One result register per active lane. -/
def perLane (d : BitVec 6) (v : Nat → W32) (l : Nat) : List (Nat × W32) := [(d.toNat, v l)]
/-- An even pair per active lane. -/
def perLane64 (d : BitVec 6) (v : Nat → W64) (l : Nat) : List (Nat × W32) :=
  [(d.toNat, (v l).setWidth 32), (d.toNat + 1, ((v l) >>> 32).setWidth 32)]

/-- R layout: `f` on 32 bits in each active lane, `g` once on 64 bits in class 2; `rd` is a source where `old` holds. -/
def onR (s : State) (c : BitVec 2) (b a d : BitVec 6) (old : Bool) (f : W32 → W32 → W32 → W32) (g : W64 → W64 → W64 → W64) :
    Effect :=
  if c = 2 then { uni := [(d.toNat, g (s.S a.toNat) (s.S b.toNat) (s.S d.toNat))] }
  else
    { srcs := srcGroups c a b VGroup.one ++ (if old then [VGroup.one d] else [])
      dsts := [VGroup.one d]
      vec := perLane d (fun l => f (s.A c a l) (s.B c b l) (if old then s.V d.toNat l else 0)) }
/-- R layout with one source. -/
def onR1 (s : State) (c : BitVec 2) (a d : BitVec 6) (f : W32 → W32) (g : W64 → W64) : Effect :=
  if c = 2 then { uni := [(d.toNat, g (s.S a.toNat))] }
  else
    { srcs := if raVec c then [VGroup.one a] else []
      dsts := [VGroup.one d]
      vec := perLane d (fun l => f (s.A c a l)) }
/-- I layout: a register and the sign-extended immediate. -/
def onI (s : State) (i : BitVec 9) (u : BitVec 1) (a d : BitVec 6) (f : W32 → W32 → W32) (g : W64 → W64 → W64) : Effect :=
  if u = 1 then { uni := [(d.toNat, g (s.S a.toNat) (i.signExtend 64))] }
  else
    { srcs := [VGroup.one a]
      dsts := [VGroup.one d]
      vec := perLane d (fun l => f (s.V a.toNat l) (i.signExtend 32)) }
/-- The 16-bit form: rd := rd op rs. -/
def on16 (s : State) (d : BitVec 6) (r : BitVec 5) (f : W32 → W32 → W32) : Effect :=
  { srcs := [VGroup.one d, VGroup.one (r.setWidth 6)]
    dsts := [VGroup.one d]
    vec := perLane d (fun l => f (s.V d.toNat l) (s.V r.toNat l))
    len := 2 }
/-- A function of one vector source. -/
def onV (s : State) (a d : BitVec 6) (f : W32 → W32) : Effect :=
  { srcs := [VGroup.one a], dsts := [VGroup.one d], vec := perLane d (fun l => f (s.V a.toNat l)) }

end Sys2Proof.Claims
end

