-- ==== Sys2Proof/Claims/Control.lean ====
section
/-!
DEFINITION. What the rules of the manual say of the instructions that change their own floe only: branches, calls, writes of special
registers, and waits that have nothing to wait for.
-/
namespace Sys2Proof.Claims
open Sys2Proof.Machine

/-- Where a floe's fragment goes on, what becomes of the floe's other registers, and what the rules ask of the operands. -/
structure Jump where
  target : BitVec 18
  set    : Floe → Floe := fun fl => fl
  also   : Prop := True

/-- Everything but one floe is as it was: all of memory, every block, cache, core and launch, every other floe. -/
structure OnlyFloe (s : State) (f : Nat) (t : State) : Prop where
  rest   : t = { s with floes := t.floes }
  floes  : ∀ g, g ≠ f → t.floes.get? g = s.floes.get? g

/-- A floe of one fragment with an empty mask stack and live active lanes, which issues. -/
def Undivided (s : State) : Prop :=
  s.fl.frags = [s.fg] ∧ s.fg.stack = [] ∧ s.fg.active &&& s.fl.live = s.fg.active ∧ s.fg.active ≠ 0

/-- The state after a jump: the floe's registers, and everything else as before. Fragments, scheduling state and ready time belong
to retiring (R23, R25, R45); an undivided floe goes on at the target with the lanes it had. -/
structure Moved (s : State) (m : Jump) (t : State) : Prop where
  own  : OnlyFloe s s.cur.floe t
  floe : t.fl = { m.set s.fl with frags := t.fl.frags, st := t.fl.st, readyAt := t.fl.readyAt }
  goes : Undivided s → t.fg.pc = m.target ∧ t.fg.active = s.fg.active ∧ t.fl.frags = [t.fg]

/-- A core whose logical time has become t: L1 copies whose lease ended more than 2^14 before it are gone (R217, R219). -/
def timed (k : Core) (t : BitVec 16) : Core := { k with ctime := t, l1 := k.l1.filter (fun e => !(earlier e.2.rts (t - 0x4000))) }
/-- A core whose logical time has been raised to t, where it was not later already. -/
def raisedCore (k : Core) (t : BitVec 16) : Core := if laterOf k.ctime t = k.ctime then k else timed k (laterOf k.ctime t)
/-- The horizon lets a core's logical time rise to t (R218). -/
def mayRise (s : State) (c : Nat) (t : BitVec 16) : Prop :=
  laterOf (s.core c).ctime t = (s.core c).ctime ∨ earlier (s.horizon (dieOfCore c) + 0x4000 - 257) (laterOf (s.core c).ctime t) = false
/-- The `RBASE` that an instruction which waits keeps from its issue (R67): that of the threshold reads and the granule waits. -/
def keptBase (s : State) : WaitFor → Option (BitVec 9)
  | .lattice => some (s.fg.rb.getD s.fl.rbase)
  | .granules => some (s.fg.rb.getD s.fl.rbase)
  | _ => none

/-- The address behind an instruction of n bytes. -/
def behind (s : State) (n : Nat) : BitVec 18 := s.fg.pc + BitVec.ofNat 18 n
/-- pc + 2 x off19 (R346). -/
def relative (s : State) (o : BitVec 19) : Int := (s.fg.pc.toNat : Int) + 2 * o.toInt
/-- A relative target in the slot of the branch (R87). -/
def inSlot (s : State) (o : BitVec 19) : Prop := relative s o / 4096 = ((s.fg.pc.toNat / 4096 : Nat) : Int)
/-- A code address in a landed slot, below its landed length. -/
def landedAt (s : State) (t : Nat) : Prop := (s.cr.slot (t / 4096)).st = .landed ∧ t % 4096 < (s.cr.slot (t / 4096)).len
/-- A register target that passes the three checks of R349. -/
def goodTarget (s : State) (t : W64) : Prop := t.toNat % 2 = 0 ∧ t.toNat < 2 ^ 18 ∧ landedAt s t.toNat
/-- s63 takes the address behind a call (R352). -/
def linked (s : State) (fl : Floe) : Floe := fl.setS 63 ((behind s 4).setWidth 64)
/-- A lane takes a `BRC`: its predicate, inverted by the negate bit. -/
def takes (s : State) (p : BitVec 3) (n : BitVec 1) (l : Nat) : Prop := s.P p.toNat l ≠ (n = 1 : Bool)
/-- A counter that a `WAIT` field lets pass: at or below the field, or a field of all ones (R174). -/
def lets (s : State) (c : OpClass) (width v : Nat) : Prop := s.fl.counter c ≤ v ∨ v = 2 ^ width - 1

/-- The link register s63 (R352, R432). -/
def linkReg (s : State) : W64 := s.S 63
/-- A jump to a register target (R349). -/
def toReg (s : State) (t : W64) (set : Floe → Floe) : Jump := { target := t.setWidth 18, set := set, also := goodTarget s t }
/-- The code address that a `JSEG` names (R388). -/
def segTarget (k : BitVec 6) (o : BitVec 11) : Nat := k.toNat * 4096 + o.toNat * 2

/-- The jumps of the branches and calls (R87, R346, R347, R349, R352, R388, R432). -/
def branchRule (s : State) : Instr → Option Jump
  | .bra o => some { target := BitVec.ofInt 18 (relative s o), also := inSlot s o }
  | .callRel o => some { target := BitVec.ofInt 18 (relative s o), set := linked s, also := inSlot s o }
  | .brx a => some (toReg s (s.S a.toNat) id)
  | .callReg a => some (toReg s (s.S a.toNat) (linked s))
  | .jseg l o k => some
      { target := BitVec.ofNat 18 (segTarget k o), set := if l = 1 then linked s else fun fl => fl
        also := landedAt s (segTarget k o) }
  | _ => none

/-- A `BRC` whose active lanes agree: all take it, or none does (R347). -/
def agreeRule (s : State) (taken : Bool) : Instr → Option Jump
  | .brc o _ n p => some
      { target := if taken then BitVec.ofInt 18 (relative s o) else behind s 4
        also := inSlot s o ∧ s.fg.active = Mask.ofLanes s.lanes ∧ s.lanes ≠ [] ∧ ∀ l ∈ s.lanes, takes s p n l ↔ taken }
  | _ => none

/-- Instructions that go on behind themselves: writes of special registers (R265, R422, R423, R450), `YIELD` (R455), a `WAIT`
whose counters stand low enough (R174, R452), and barrier instructions with nothing to do (R343). -/
def plainRule (s : State) : Instr → Option Jump
  | .ret => some (toReg s (linkReg s) id)
  | .yield => some { target := behind s 4 }
  | .wrsr a n =>
    let v := s.S a.toNat
    if n = 0x10 then some { target := behind s 4, set := fun fl => { fl with epc := (v.setWidth 18) &&& 0x3FFFE } }
    else if n = 0x11 then some { target := behind s 4, set := fun fl => { fl with fcause := v.setWidth 8 } }
    else if n = 0x12 then some { target := behind s 4, set := fun fl => { fl with faddr := v } }
    else if n = 0x1A then some { target := behind s 4, set := fun fl => { fl with uepc := (v.setWidth 18) &&& 0x3FFFE } }
    else none
  | .wrsrRbase a =>
    let v := s.S a.toNat
    some { target := behind s 4, set := fun fl => { fl with rbase := v.setWidth 9 }
           also := v.toNat % 8 = 0 ∧ v.toNat + 8 ≤ s.blk.nregs ∧ s.blk.nregs ≤ 256 }
  | .wrsrUivec a => some
      { target := behind s 4, set := fun fl => { fl with uivec := s.S a.toNat &&& 0x3FFFE800FFF3FFFE, timerAt := s.time } }
  | .wrsrUipend a => some
      { target := behind s 4, set := fun fl => { fl with uipend := fl.uipend &&& ~~~((s.S a.toNat).setWidth 3) } }
  | .uimask a d => some
      { target := behind s 4
        set := fun fl => { fl.setS d.toNat (s.fl.umask.setWidth 64) with umask := (s.S a.toNat).setWidth 3 } }
  | .wait n t p st ld => some
      { target := behind s 4
        also := lets s .loads 5 ld.toNat ∧ lets s .stores 5 st.toNat ∧ lets s .copies 4 p.toNat ∧ lets s .tile 4 t.toNat ∧
          lets s .net 4 n.toNat }
  | .barArrive n => some { target := behind s 4, also := s.fl.standing.getLsbD n.toNat = true }
  | .barWait n => some { target := behind s 4, also := s.fl.standing.getLsbD n.toNat = false }
  | _ => none

/-! ## Divided fragments -/

/-- A `BRC` of an undivided floe whose lanes differ: the lanes that do not take it stay in the fragment, behind the branch, and a new
fragment holds those that do, at the target (R22, R347). -/
structure Divided (s : State) (o : BitVec 19) (p : BitVec 3) (n : BitVec 1) (t : State) : Prop where
  own   : OnlyFloe s s.cur.floe t
  floe  : t.fl = { s.fl with frags := t.fl.frags, nextFrag := t.fl.nextFrag, st := t.fl.st, readyAt := t.fl.readyAt }
  frags : ∃ a b, t.fl.frags = [a, b] ∧ a.id = s.cur.frag ∧ b.id ≠ a.id ∧
    a.pc = behind s 4 ∧ b.pc = BitVec.ofInt 18 (relative s o) ∧ a.stack = [] ∧ b.stack = [] ∧
    ∀ l < 128, (b.active.getLsbD l = true ↔ l ∈ s.lanes ∧ takes s p n l) ∧
      (a.active.getLsbD l = true ↔ l ∈ s.lanes ∧ ¬ takes s p n l)

end Sys2Proof.Claims
end

