-- ==== Sys2Proof/Claims/Memory.lean ====
section
/-!
DEFINITION. What the rules of the manual say of memory instructions: the operation that each puts among its floe's outstanding ones
(R171, R172, R196, R391), and what a read or write of one line does (R220, R222, R323).
-/
namespace Sys2Proof.Claims
open Sys2Proof.Machine

/-! ## Operands -/

/-- A memory instruction's operands and the operation it asks for; `aperture` tells that it may reach the register aperture (R69). -/
structure Access where
  cls      : OpClass
  kind     : OpKind
  size     : Nat
  lanes    : List LaneAcc
  srcs     : List VGroup
  dsts     : List VGroup := []
  dest     : Dest := .none
  aperture : Bool := false
  acquire  : Bool := false
  release  : Bool := false
  scope    : Nat := 0
  noAlloc  : Bool := false
  also     : Prop := True

/-- The address of a lane: the uniform base, plus the zero-extended index scaled by the size, or not at all by index 63 (R83). -/
def address (s : State) (shift : Nat) (vi sb : BitVec 6) (l : Nat) : W64 :=
  if vi = 63 then s.S sb.toNat else s.S sb.toNat + ((s.V vi.toNat l).setWidth 64 <<< shift)
/-- The byte that holds a nibble, and whether it is the upper one (R83). -/
def nibbleAt (s : State) (vi sb : BitVec 6) (l : Nat) : W64 × Bool :=
  if vi = 63 then (s.S sb.toNat, false)
  else (s.S sb.toNat + ((s.V vi.toNat l).setWidth 64 >>> 1), (s.V vi.toNat l).getLsbD 0)
/-- The vector index operand. -/
def index (vi : BitVec 6) : List VGroup := if vi = 63 then [] else [VGroup.one vi]
/-- The registers of a size code: one, a pair, or four (R391). -/
def regsOf (z : BitVec 3) : Nat := if z = 4 then 4 else if z = 3 then 2 else 1
/-- The bytes of a size code: 1 to 16, and 0 for a nibble (R82). -/
def bytesOf (z : BitVec 3) : Nat := if z.toNat < 5 then 2 ^ z.toNat else 0
/-- The vector data of a lane. -/
def laneData (s : State) (z : BitVec 3) (d : BitVec 6) (l : Nat) : BitVec 128 :=
  if z = 4 then s.V (d.toNat + 3) l ++ s.V (d.toNat + 2) l ++ s.V (d.toNat + 1) l ++ s.V d.toNat l
  else if z = 3 then (s.V (d.toNat + 1) l ++ s.V d.toNat l).setWidth 128
  else (s.V d.toNat l).setWidth 128
/-- The uniform data: one register, or an even pair for 16 bytes. -/
def uniData (s : State) (z : BitVec 3) (d : BitVec 6) : BitVec 128 :=
  if z = 4 then s.S (d.toNat + 1) ++ s.S d.toNat else (s.S d.toNat).setWidth 128
/-- One lane before translation. -/
def laneAt (l : Nat) (va : W64) (data : BitVec 128) (cmp : W64) (hi : Bool) : LaneAcc := ⟨l, va, .absent, data, cmp, hi, false⟩

/-- A load of the M layout (R391, R392). -/
def loads (s : State) (na : Bool) (acq : Option Nat) (z : BitVec 3) (u : BitVec 1) (m b d : BitVec 6) : Access :=
  { cls := .loads, kind := .load, size := bytesOf z, aperture := acq.isNone, acquire := acq.isSome, scope := acq.getD 0
    noAlloc := na, srcs := index m
    dsts := if u = 1 then [] else [VGroup.ofCount d (regsOf z)]
    dest := if u = 1 then .uni d.toNat else .vec (s.absReg d.toNat)
    lanes := if u = 1 then [laneAt s.elected (s.S b.toNat) 0 0 false]
      else s.lanes.map (fun l =>
        if z = 5 then laneAt l (nibbleAt s m b l).1 0 0 (nibbleAt s m b l).2 else laneAt l (address s z.toNat m b l) 0 0 false)
    also := (u = 1 → z = 4 → d.toNat % 2 = 0) ∧ (u = 0 → s.portsOf [VGroup.ofCount d (regsOf z)] = []) }
/-- A store of the M layout (R441, R442). -/
def stores (s : State) (na : Bool) (rel : Option Nat) (z : BitVec 3) (u : BitVec 1) (m b d : BitVec 6) : Access :=
  { cls := .stores, kind := .store, size := bytesOf z, aperture := rel.isNone, release := rel.isSome, scope := rel.getD 0
    noAlloc := na, srcs := index m ++ (if u = 1 then [] else [VGroup.ofCount d (regsOf z)])
    lanes := if u = 1 then [laneAt s.elected (s.S b.toNat) (uniData s z d) 0 false]
      else s.lanes.map (fun l => laneAt l (address s z.toNat m b l) (laneData s z d l) 0 false)
    also := u = 1 → z = 4 → d.toNat % 2 = 0 }
/-- The scope that an A-layout field names (R230). -/
def scopeOf (x : BitVec 2) : Nat := if x = 0 then 0 else x.toNat + 1
/-- The value of an A-layout operand: a register, or an even pair with size64. -/
def operand (s : State) (w : BitVec 1) (n l : Nat) : W64 := if w = 1 then s.V (n + 1) l ++ s.V n l else (s.V n l).setWidth 64
/-- The registers of k A-layout operands from a register. -/
def operands (w : BitVec 1) (d : BitVec 6) (k : Nat) : VGroup := if w = 1 then ⟨d.toNat, 2 * k, 2⟩ else ⟨d.toNat, k, 1⟩
/-- `ATOM` (R340, R341): `.CAS` compares with its first operand and stores its second. -/
def atoms (s : State) (op : AtomOp) (x : BitVec 2) (w : BitVec 1) (m b d : BitVec 6) : Access :=
  { cls := .loads, kind := .atom op, size := if w = 1 then 8 else 4, scope := scopeOf x, dest := .vec (s.absReg d.toNat)
    srcs := index m ++ [operands w d (if op = .cas then 2 else 1)], dsts := [operands w d 1]
    lanes := s.lanes.map (fun l =>
      if op = .cas then laneAt l (address s 0 m b l) ((operand s w (d.toNat + if w = 1 then 2 else 1) l).setWidth 128) (operand s w d.toNat l) false
      else laneAt l (address s 0 m b l) ((operand s w d.toNat l).setWidth 128) 0 false) }
/-- `RED` (R427). -/
def reds (s : State) (op : AtomOp) (x : BitVec 2) (w : BitVec 1) (m b d : BitVec 6) : Access :=
  { cls := .stores, kind := .red op, size := if w = 1 then 8 else 4, scope := scopeOf x
    srcs := index m ++ [operands w d 1]
    lanes := s.lanes.map (fun l => laneAt l (address s 0 m b l) ((operand s w d.toNat l).setWidth 128) 0 false) }
/-- A `CACHE` operation (R350, R351). -/
def lineOps (s : State) (op : CacheOp) (m b : BitVec 6) : Access :=
  { cls := .stores, kind := .cache op, size := 1, srcs := index m
    lanes := s.lanes.map (fun l => laneAt l (address s 0 m b l) 0 0 false) }

/-- The operation of each load and of each store. -/
def loadRule (s : State) : Instr → Option Access
  | .ld z u m b d => some (loads s false none z u m b d)
  | .ldNa z u m b d => some (loads s true none z u m b d)
  | .ldAcqBlk z u m b d => some (loads s false (some 0) z u m b d)
  | .ldAcqDie z u m b d => some (loads s false (some 2) z u m b d)
  | .ldAcqPkg z u m b d => some (loads s false (some 3) z u m b d)
  | .ldAcqSys z u m b d => some (loads s false (some 4) z u m b d)
  | .st z u m b d => some (stores s false none z u m b d)
  | .stNa z u m b d => some (stores s true none z u m b d)
  | .stRelBlk z u m b d => some (stores s false (some 0) z u m b d)
  | .stRelDie z u m b d => some (stores s false (some 2) z u m b d)
  | .stRelPkg z u m b d => some (stores s false (some 3) z u m b d)
  | .stRelSys z u m b d => some (stores s false (some 4) z u m b d)
  | .stn m b d => some
      { cls := .stores, kind := .nibble, size := 0, aperture := true, srcs := index m ++ [VGroup.one d]
        lanes := s.lanes.map (fun l =>
          laneAt l (nibbleAt s m b l).1 ((s.V d.toNat l &&& 0xF).setWidth 128) 0 (nibbleAt s m b l).2) }
  | .cacheWb m b => some (lineOps s .wb m b)
  | .cacheInv m b => some (lineOps s .inv m b)
  | .cacheWbinv m b => some (lineOps s .wbinv m b)
  | .ljoin z m b d => some
      { cls := .stores, kind := .join, size := if z = 1 then 8 else 4, scope := 3
        srcs := index m ++ [VGroup.ofCount d (if z = 1 then 2 else 1)]
        lanes := s.lanes.map (fun l =>
          laneAt l (address s (if z = 1 then 3 else 2) m b l) (laneData s (if z = 1 then 3 else 2) d l) 0 false) }
  | _ => none

/-- The operation of each atomic and reduction. -/
def atomRule (s : State) : Instr → Option Access
  | .atomAdd x w m b d => some (atoms s .add x w m b d)
  | .atomMins x w m b d => some (atoms s .mins x w m b d)
  | .atomMaxs x w m b d => some (atoms s .maxs x w m b d)
  | .atomMinu x w m b d => some (atoms s .minu x w m b d)
  | .atomMaxu x w m b d => some (atoms s .maxu x w m b d)
  | .atomAnd x w m b d => some (atoms s .and x w m b d)
  | .atomOr x w m b d => some (atoms s .or x w m b d)
  | .atomXor x w m b d => some (atoms s .xor x w m b d)
  | .atomExch x w m b d => some (atoms s .exch x w m b d)
  | .atomCas x w m b d => some (atoms s .cas x w m b d)
  | .atomFadd x w m b d => some (atoms s .fadd x w m b d)
  | .atomFmin x w m b d => some (atoms s .fmin x w m b d)
  | .atomFmax x w m b d => some (atoms s .fmax x w m b d)
  | .redAdd x w m b d => some (reds s .add x w m b d)
  | .redMins x w m b d => some (reds s .mins x w m b d)
  | .redMaxs x w m b d => some (reds s .maxs x w m b d)
  | .redMinu x w m b d => some (reds s .minu x w m b d)
  | .redMaxu x w m b d => some (reds s .maxu x w m b d)
  | .redAnd x w m b d => some (reds s .and x w m b d)
  | .redOr x w m b d => some (reds s .or x w m b d)
  | .redXor x w m b d => some (reds s .xor x w m b d)
  | .redFadd x w m b d => some (reds s .fadd x w m b d)
  | .redFmin x w m b d => some (reds s .fmin x w m b d)
  | .redFmax x w m b d => some (reds s .fmax x w m b d)
  | _ => none

/-! ## Issue -/

/-- No other fragment of the issuing floe has an `LLDT` that waits or has parked: an acquire whose tick is still to come (R232, R250). -/
def noReads (s : State) : Prop := ∀ g ∈ s.fl.frags, g.id ≠ s.cur.frag → g.wait ≠ .lattice ∧ g.left = none

/-- The rights that an operation needs of its page (R196): bit 1 of the entry for reading, bit 2 for writing. -/
def reads : OpKind → Bool
  | .load => true
  | .atom _ => true
  | .cache _ => true
  | _ => false
def writes : OpKind → Bool
  | .load => false
  | .cache _ => false
  | _ => true
def joins : OpKind → Bool
  | .join => true
  | .joinStrict => true
  | _ => false
/-- A floe's operation counts as a write where R232 orders it as one. -/
def ordered : OpKind → Bool
  | .load => false
  | _ => true

/-- Where a held translation takes an access that passes the checks of R196: plain memory of tiers 0 to 2, a peer package, or a
cell of a lattice region whose line the die's replica holds. -/
inductive Maps (s : State) (k : OpKind) (size : Nat) (data : BitVec 128) (va : Nat) (x : Xlat) : Place → Prop where
  | plain : fieldN x.attr 48 4 = 0 → fieldN x.attr 16 2 ≠ 3 → (fieldN x.attr 16 2 = 2 → writes k = false) → joins k = false →
      (paTier (x.pa + (va - x.va)) = 2 → (x.pa + (va - x.va)) / 128 ∉ s.firnHeld) →
      Maps s k size data va x (.phys (x.pa + (va - x.va)) (fieldN x.attr 52 12) (bitN x.attr 46))
  | peer : fieldN x.attr 48 4 = 0 → fieldN x.attr 16 2 = 3 → joins k = false → Maps s k size data va x (.peer (fieldN x.attr 18 12) va)
  | cell : fieldN x.attr 48 4 ≠ 0 → (fieldN x.attr 16 2 = 2 → writes k = false) →
      (k = .load ∨ (k = .join ∧ size = (if fieldN x.attr 48 4 = 7 then 8 else 4) ∧
        (fieldN x.attr 48 4 = 4 → (val32 (data.toNat % 2 ^ 32)).isNan = false))) →
      (∃ r, (s.launch s.blk.launch).replicas.get?
        (replicaKey (dieOfCore (floeCore s.cur.floe)) ((x.pa + (va - x.va)) / 128)) = some r ∧ r.ltype = fieldN x.attr 48 4) →
      Maps s k size data va x (.cell (x.pa + (va - x.va)) (fieldN x.attr 48 4))
  | line : fieldN x.attr 48 4 ≠ 0 → (∃ op, k = .cache op) → Maps s k size data va x (.cell (x.pa + (va - x.va)) (fieldN x.attr 48 4))

/-- The kinds that return what they read: a peer's answer stands in their lanes' data (R214). -/
def returns : OpKind → Bool
  | .load => true
  | .atom _ => true
  | _ => false
/-- The lanes of an operation at their places, and the state once the homes of the tier-3 pages among them have answered in lane order
(R214, log entry 9). -/
def answered (k : OpKind) (place : LaneAcc → Place) : List LaneAcc → State → List LaneAcc × State
  | [], s => ([], s)
  | l :: t, s =>
    match place l with
    | .peer n va =>
      let r := answered k place t s.homeAnswer.2
      ({ l with place := .peer n va
                data := match s.homeAnswer.1 with | .value v => if returns k then v else l.data | _ => l.data } :: r.1, r.2)
    | p =>
      let r := answered k place t s
      ({ l with place := p } :: r.1, r.2)
/-- Every home that lanes name answers with bytes. -/
def HomesAnswer (place : LaneAcc → Place) : List LaneAcc → State → Prop
  | [], _ => True
  | l :: t, s =>
    match place l with
    | .peer _ _ => (∃ v, s.homeAnswer.1 = .value v) ∧ HomesAnswer place t s.homeAnswer.2
    | _ => HomesAnswer place t s

/-- A lane's access reaches a place without a cause: aligned, in the address space, through the aperture (R68) or by a translation
that the core holds. -/
def Reaches (s : State) (a : Access) (l : LaneAcc) (p : Place) : Prop :=
  (a.size ≠ 0 → l.va.toNat % a.size = 0) ∧ l.va.toNat < 2 ^ 56 ∧
  ((inAperture l.va.toNat = true ∧ a.aperture = true ∧ l.va.toNat - apertureBase < s.blk.floes * s.blk.width * s.blk.nregs * 4 ∧
      p = .regs (l.va.toNat - apertureBase)) ∨
   (inAperture l.va.toNat = false ∧ ∃ x, s.cr.held s.asid l.va.toNat = some x ∧
      (reads a.kind = true → bitN x.attr 1 = true) ∧ (writes a.kind = true → bitN x.attr 2 = true) ∧
      Maps s a.kind a.size l.data l.va.toNat x p))

/-- The conditions under which a memory instruction issues (R171, R196, R232, R375): operands as for any vector instruction, room in
the counter of its class, no acquire load outstanding and no other fragment's `LLDT` (R250), for a write no release fence that holds it, for a release no older operation,
no outstanding join of its bytes (R246), a place for every lane, and an answer from every home of a tier-3 page (R214). -/
structure CanIssue (s : State) (a : Access) (place : LaneAcc → Place) : Prop where
  operands : CanRun s { srcs := a.srcs, dsts := a.dsts, also := a.also }
  room     : s.fl.counter a.cls < 63
  acquires : ∀ o ∈ s.fl.ops, o.acquire = false
  reads    : noReads s
  fences   : ordered a.kind = true → ∀ n ∈ s.fl.rels, ∀ o ∈ s.fl.ops, o.seq < n → ∀ x ∈ o.lanes, x.done = true
  older    : a.release = true → ∀ o ∈ s.fl.ops, ∀ x ∈ o.lanes, x.done = true
  joins    : ∀ o ∈ s.fl.ops, o.kind = .join → ∀ x ∈ o.lanes, x.done = false → ∀ l ∈ a.lanes,
    x.va.toNat + Nat.max o.size 1 ≤ l.va.toNat ∨ l.va.toNat + Nat.max a.size 1 ≤ x.va.toNat
  places   : ∀ l ∈ a.lanes, Reaches s a l (place l)
  homes    : HomesAnswer place a.lanes s

/-- The state after a memory instruction has issued: one more outstanding operation, its source queues popped, its fragment behind it;
every register, every cache and every byte of memory as before, and the answers of homes taken. -/
structure Issues (s : State) (a : Access) (place : LaneAcc → Place) (t : State) : Prop where
  own     : OnlyOwn { s with homeIn := (answered a.kind place a.lanes s).2.homeIn, free := (answered a.kind place a.lanes s).2.free } t
  floe    : t.fl = { s.fl with
    ops := s.fl.ops ++ [⟨s.fl.opSeq, a.cls, a.kind, a.size, (answered a.kind place a.lanes s).1, a.dest, a.acquire,
      a.scope, a.noAlloc, s.cr.ctime, none⟩]
    opSeq := s.fl.opSeq + 1, frags := t.fl.frags, st := t.fl.st, readyAt := t.fl.readyAt }
  block   : t.blk = { s.blk with qents := t.blk.qents }
  queues  : ∀ l ∈ s.lanes, ∀ q < 16, t.blk.qent (s.thread l) q = popped s a.srcs l q
  others  : ∀ x, ∀ q < 16, (∀ l ∈ s.lanes, x = s.thread l → q ∉ s.portsOf a.srcs) → t.blk.queueAt x q = s.blk.queueAt x q
  advance : Undivided s → t.fg.pc = behind s 4

end Sys2Proof.Claims
end

