-- ==== Sys2Proof/Claims/Cache.lean ====
section
/-!
DEFINITION. What the rules of the manual say of logical time, cache stacks and homes, and of the lines that outstanding operations
read and write (R217 to R229, R323, R339).
-/
namespace Sys2Proof.Claims
open Sys2Proof.Machine

/-! ## Frames -/

/-- Nothing but one core has changed. -/
structure OnlyCore (s : State) (c : Nat) (t : State) : Prop where
  rest  : t = { s with cores := t.cores }
  cores : ∀ k, k ≠ c → t.cores.get? k = s.cores.get? k
/-- Of the cores and dies, one core and one line of one die's stack (with that die's stack time) have changed; of the rest of the
package, the directory may have. -/
structure OnlyLine (s : State) (c d ln : Nat) (t : State) : Prop where
  rest  : t = { s with cores := t.cores, dies := t.dies, dir := t.dir }
  cores : ∀ k, k ≠ c → t.cores.get? k = s.cores.get? k
  dies  : ∀ k, k ≠ d → t.dies.get? k = s.dies.get? k
  die   : t.die d = { s.die d with stack := (t.die d).stack, stime := (t.die d).stime }
  lines : ∀ n, n ≠ ln → (t.die d).stack.get? n = (s.die d).stack.get? n

/-- A line that a die's stack owns under a key, that no other agent holds, of a package in which no frame migrates and none is armed
for a snapshot, and in no lattice region that a launch accesses. -/
structure Owned (s : State) (d ln key : Nat) (x : StackLine) : Prop where
  die     : d < 4
  here    : (s.die d).stack.get? ln = some x
  owned   : x.owned = true
  key     : x.key = key
  alone   : ∀ a < 13, a ≠ d → (s.die a).stack.get? ln = none
  still   : s.migrations = []
  unarmed : ∀ l, (s.launch l).armed = false
  plain   : ∀ l ∈ s.launches, s.accesses l.2 ln = false
/-- A time clamped to the horizon (R219). -/
def clamped (s : State) (d : Nat) (t : BitVec 16) : BitVec 16 := clampTs (s.horizon d) t

/-! ## Writes at a bank (R222, R323) -/

/-- A lane covers byte i of its line with a byte of its data. -/
def covers (a : LaneAcc) (size i : Nat) : Option Byte :=
  match a.place with
  | .phys pa _ _ => if pa % 128 ≤ i ∧ i < pa % 128 + size then some (a.data.extractLsb' (8 * (i - pa % 128)) 8) else none
  | _ => none
/-- Byte i of a line after lanes have stored, the highest lane last (R97). -/
def storedByte (size : Nat) (lanes : List LaneAcc) (i : Nat) (old : Byte) : Byte :=
  lanes.foldl (fun b a => (covers a size i).getD b) old

/-- A place that an access has reached: neither absent nor held by the firn (R201, R206). -/
def reached : Place → Bool
  | .absent => false
  | .firn .. => false
  | _ => true
/-- The lanes of an operation that are still to be performed. -/
def toDo (o : MemOp) : List LaneAcc := o.lanes.filter (fun a => !a.done && reached a.place)
/-- A floe's operation o is the oldest write that has a lane to perform; it has not parked, so that every lane is done or reached (R323); its
lanes and the floe's operations bear numbers of their own. -/
structure OldestWrite (s : State) (f : Nat) (o : MemOp) : Prop where
  split : ∃ before after, (s.floe f).ops = before ++ o :: after ∧ ∀ p ∈ before, p.kind = .load ∨ toDo p = []
  write : o.kind ≠ .load
  toDo  : toDo o ≠ []
  whole : o.rise = none ∧ ∀ a ∈ o.lanes, a.done = true ∨ reached a.place = true
  seqs  : ((s.floe f).ops.map (fun p => p.seq)).Nodup
  lanes : (o.lanes.map (fun a => a.lane)).Nodup
/-- Every lane still to be performed lies in one line, under one key. -/
def InLine (o : MemOp) (ln key : Nat) : Prop :=
  ∀ a ∈ toDo o, ∃ pa nc, a.place = .phys pa key nc ∧ pa / 128 = ln ∧ pa % 128 + o.size ≤ 128
/-- The write stamp that an operation gives a line: one later than the line's read stamp and the time of its issue (R222, R323). -/
def stampOf (s : State) (d : Nat) (x : StackLine) (o : MemOp) : BitVec 16 := laterOf (clamped s d x.rts) o.time + 1

/-- A core's time raised to a stamp. -/
def raisedTo (s : State) (c : Nat) (t : BitVec 16) : State := s.updCore c (fun k => { k with ctime := laterOf k.ctime t })
/-- A write stamp may be given now (R218): the horizon lets the core's time rise to it, and the horizon after that does not pass it. -/
def mayStamp (s : State) (c : Nat) (t : BitVec 16) : Prop :=
  mayRise s c t ∧ clamped (raisedTo s c t) (dieOfCore c) t = t
/-- A floe's operations once the lanes of one that were to do are performed. -/
def marked (s : State) (f : Nat) (o : MemOp) : List MemOp :=
  (s.floe f).ops.map (fun p => if p.seq = o.seq then
    { p with lanes := p.lanes.map (fun a => if a ∈ toDo o then { a with done := true } else a) } else p)

/-- The state after the stores of an operation in one line have reached their bank: the line's bytes and stamps, the core's time and
its own copy of the line, and the lanes marked as performed. Every other line, and all of memory, is as before. -/
structure Stored (s : State) (f : Nat) (o : MemOp) (ln : Nat) (x : StackLine) (t : State) : Prop where
  frame   : OnlyLine { s with floes := t.floes } (floeCore f) (dieOfCore (floeCore f)) ln t
  floes   : ∀ g, g ≠ f → t.floes.get? g = s.floes.get? g
  line    : ∃ y, (t.die (dieOfCore (floeCore f))).stack.get? ln = some y ∧ y.owned = true ∧ y.dirty = true ∧ y.key = x.key ∧
    y.wts = stampOf s (dieOfCore (floeCore f)) x o ∧ y.rts = y.wts ∧
    (∀ i < 128, Line.byte y.data i = storedByte o.size (toDo o) i (Line.byte x.data i)) ∧
    (t.core (floeCore f)) = { raisedCore (s.core (floeCore f)) y.wts with l1 := (t.core (floeCore f)).l1 } ∧
    (t.core (floeCore f)).l1.get? ln = (if o.noAlloc ∨ (s.core (floeCore f)).l1.get? ln = none then none
      else some ⟨y.data, y.wts, y.rts, y.wts, y.poison, y.key⟩)
  copies  : ∀ n, n ≠ ln → (t.core (floeCore f)).l1.get? n =
    (raisedCore (s.core (floeCore f)) (stampOf s (dieOfCore (floeCore f)) x o)).l1.get? n
  floe    : t.floe f = { s.floe f with ops := marked s f o }

/-! ## Loads that hit (R220, R391) -/

/-- A line of a core's L1 that may serve a floe's load under a key slot: the core's time is not later than its lease, its grant not
earlier than the floe's acquire floor, and no word of it is poisoned. -/
def Hit (s : State) (f : Nat) (ln key : Nat) (x : L1Line) : Prop :=
  (s.core (floeCore f)).l1.get? ln = some x ∧ x.key = key ∧ earlier x.rts (s.core (floeCore f)).ctime = false ∧
  earlier x.gts (s.floe f).floor = false ∧ x.poison = 0
/-- The n bytes at an offset of a line as a number, lowest byte first (R4). -/
def lineValue (x : Line) (off n : Nat) : Nat := (x.toNat / 2 ^ (8 * off)) % 2 ^ (8 * n)
/-- Floe f's core holds a copy of the line of n bytes at a virtual address, which serves the floe's loads; the address is translated by x, of a
plain page that is to be cached, mapped with a right (bit 1 of the entry to read, bit 3 to execute): `value`. -/
def CopyHolds (s : State) (x : Xlat) (right f va n value : Nat) : Prop :=
  ∃ pa copy, bitN x.attr right = true ∧ fieldN x.attr 48 4 = 0 ∧ fieldN x.attr 16 2 ≠ 3 ∧ bitN x.attr 46 = false ∧
    pa = x.pa + (va - x.va) ∧ pa % 128 + n ≤ 128 ∧ (paTier pa = 2 → pa / 128 ∉ s.firnHeld) ∧
    Hit s f (pa / 128) (fieldN x.attr 52 12) copy ∧ value = lineValue copy.data (pa % 128) n
/-- n bytes at a virtual address lie in one line, below the top of the address space and outside the register aperture. -/
def inOneLine (va n : Nat) : Prop := 0 < n ∧ va % 128 + n ≤ 128 ∧ va < 2 ^ 56 ∧ inAperture va = false
/-- A floe's core reads n bytes at a virtual address from its own copy of one line, through a translation that it holds: `value`. -/
structure CoreHolds (s : State) (right f va n value : Nat) : Prop where
  inLine : inOneLine va n
  hit    : ∃ x, (s.core (floeCore f)).held (s.asidOf (blockOf f)) va = some x ∧ CopyHolds s x right f va n value

/-- The oldest outstanding load of a floe, of plain registers, all of whose lanes hit: no older write of the floe is left, and its
destination names no queue. `value` is what each lane reads. -/
structure HitLoad (s : State) (f : Nat) (o : MemOp) (r : Nat) (value : Nat → Nat) : Prop where
  split   : ∃ before after, (s.floe f).ops = before ++ o :: after ∧ ∀ p ∈ before, p.cls ≠ .loads
  load    : o.cls = .loads ∧ o.kind = .load ∧ o.dest = .vec r ∧ (o.size = 1 ∨ o.size = 2 ∨ o.size = 4 ∨ o.size = 8 ∨ o.size = 16)
  plain   : o.acquire = false ∧ o.rise = none ∧ (s.floe f).parked = none ∧ ∀ p ∈ (s.floe f).ops, p.cls = .stores → ∀ a ∈ p.lanes, a.done = true
  seqs    : ((s.floe f).ops.map (fun p => p.seq)).Nodup
  lanes   : (o.lanes.map (fun a => a.lane)).Nodup
  inRange : r + (if o.size ≤ 4 then 1 else o.size / 4) ≤ (s.block (blockOf f)).nregs ∧
    ∀ i < 4, (s.floe f).portOf (r + i) = none
  hits    : ∀ a ∈ o.lanes, a.done = false ∧ ∃ pa key x, a.place = .phys pa key false ∧ Hit s f (pa / 128) key x ∧
    pa % 128 + o.size ≤ 128 ∧ value a.lane = lineValue x.data (pa % 128) o.size

/-- What a fence has saved follows an operation older than it (R238); the rest of the fence is as before. -/
def FenceKept (a b : Floe) : Prop :=
  (a.fence = none → b.fence = none) ∧ ∀ w, a.fence = some w → ∃ r, b.fence = some { w with saved := r }
/-- The state after such a load: each lane's registers hold its value, and the operation is gone. Every other register, every cache and
all of memory is as before; an open fence's saved registers take the value too. -/
structure Loaded (s : State) (f : Nat) (o : MemOp) (r : Nat) (value : Nat → Nat) (t : State) : Prop where
  rest   : t = { s with floes := t.floes, blocks := t.blocks }
  floes  : ∀ g, g ≠ f → t.floes.get? g = s.floes.get? g
  blocks : ∀ b, b ≠ blockOf f → t.blocks.get? b = s.blocks.get? b
  floe   : t.floe f = { s.floe f with ops := (s.floe f).ops.filter (fun p => p.seq ≠ o.seq), fence := (t.floe f).fence }
  fence  : FenceKept (s.floe f) (t.floe f)
  regs   : ∀ a ∈ o.lanes, ∀ i, i < (if o.size ≤ 4 then 1 else o.size / 4) →
    (t.block (blockOf f)).reg ((s.floe f).base + a.lane) (r + i) = BitVec.ofNat 32 (value a.lane / 2 ^ (32 * i))
  others : ∀ n, (∀ a ∈ o.lanes, ∀ i, i < (if o.size ≤ 4 then 1 else o.size / 4) →
      n ≠ (s.block (blockOf f)).regIdx ((s.floe f).base + a.lane) (r + i)) →
    (t.block (blockOf f)).vregs.getD n 0 = (s.block (blockOf f)).vregs.getD n 0
  block  : t.block (blockOf f) = { s.block (blockOf f) with vregs := (t.block (blockOf f)).vregs, badRegs := (t.block (blockOf f)).badRegs }

/-- A floe's oldest outstanding store, every lane of it performed, that completes (R172). -/
structure DoneStore (s : State) (f : Nat) (o : MemOp) : Prop where
  split : ∃ before after, (s.floe f).ops = before ++ o :: after ∧ ∀ p ∈ before, p.cls ≠ .stores
  store : o.cls = .stores ∧ o.kind ≠ .join ∧ o.acquire = false ∧ (s.floe f).parked = none
  done  : ∀ a ∈ o.lanes, a.done = true
  seqs  : ((s.floe f).ops.map (fun p => p.seq)).Nodup
/-- The state after it: the operation is gone, and nothing else has changed. -/
structure StoreGone (s : State) (f : Nat) (o : MemOp) (t : State) : Prop where
  rest  : t = { s with floes := t.floes }
  floes : ∀ g, g ≠ f → t.floes.get? g = s.floes.get? g
  floe  : t.floe f = { s.floe f with ops := (s.floe f).ops.filter (fun p => p.seq ≠ o.seq) }

/-! ## Atomics (R228, R339) -/

/-- What an atomic operation leaves in a w-bit location: its old value, the operand, and for `.CAS` the compared value. -/
def atomicResult {w : Nat} (op : AtomOp) (old x cmp : BitVec w) : BitVec w :=
  match op with
  | .add => old + x
  | .mins => if old.toInt ≤ x.toInt then old else x
  | .maxs => if old.toInt ≤ x.toInt then x else old
  | .minu => if old.toNat ≤ x.toNat then old else x
  | .maxu => if old.toNat ≤ x.toNat then x else old
  | .and => old &&& x
  | .or => old ||| x
  | .xor => old ^^^ x
  | .exch => x
  | .cas => if old = cmp then x else old
  | .fadd => BitVec.ofNat w (fpAdd (if w = 64 then fmt64 else fmt32) old.toNat x.toNat)
  | .fmin => BitVec.ofNat w (fpMinMax (if w = 64 then fmt64 else fmt32) false old.toNat x.toNat)
  | .fmax => BitVec.ofNat w (fpMinMax (if w = 64 then fmt64 else fmt32) true old.toNat x.toNat)

/-- The registers that an atomic's old value goes to: none for a reduction. -/
def oldGoesTo (s : State) (f : Nat) (o : MemOp) (r : Option Nat) : Prop :=
  match r with
  | none => (∃ op, o.kind = .red op) ∧ o.dest = .none
  | some r => (∃ op, o.kind = .atom op) ∧ o.dest = .vec r ∧ r + (if o.size ≤ 4 then 1 else o.size / 4) ≤ (s.block (blockOf f)).nregs ∧
    ∀ i < 4, (s.floe f).portOf (r + i) = none
/-- An atomic or reduction of one lane on a location of 4 or 8 bytes of a line that the die's stack owns, unpoisoned, as a floe's oldest
write: `new` is what it leaves over `old`. -/
structure OneAtomic (s : State) (f : Nat) (o : MemOp) (a : LaneAcc) (pa : Nat) (x : StackLine) (op : AtomOp) (old new : Nat)
    (r : Option Nat) : Prop where
  oldest : OldestWrite s f o
  kind   : o.kind = .atom op ∨ o.kind = .red op
  size   : o.size = 4 ∨ o.size = 8
  lane   : toDo o = [a] ∧ ∃ nc, a.place = .phys pa x.key nc
  place  : pa % o.size = 0
  own    : Owned s (dieOfCore (floeCore f)) (pa / 128) x.key x
  clean  : x.poison = 0
  stamp  : mayStamp s (floeCore f) (stampOf s (dieOfCore (floeCore f)) x o)
  was    : old = lineValue x.data (pa % 128) o.size
  leaves : new = (atomicResult op (BitVec.ofNat (8 * o.size) old) (BitVec.ofNat (8 * o.size) a.data.toNat)
      (BitVec.ofNat (8 * o.size) a.cmp.toNat)).toNat
  cmp    : a.cmp.toNat < 2 ^ (8 * o.size)
  dest   : oldGoesTo s f o r
  drained : ∀ p ∈ (s.floe f).ops, p.cls = .stores → p.seq < o.seq → toDo p = []

/-- The state after such an operation: the location holds the result, its line the stamps of a store, and an atomic's registers the old value;
every other byte of the line, every other line, every other register and all of memory is as before. -/
structure Changed (s : State) (f : Nat) (o : MemOp) (a : LaneAcc) (pa : Nat) (x : StackLine) (old new : Nat) (r : Option Nat) (t : State) :
    Prop where
  frame  : OnlyLine { s with floes := t.floes, blocks := t.blocks } (floeCore f) (dieOfCore (floeCore f)) (pa / 128) t
  floes  : ∀ g, g ≠ f → t.floes.get? g = s.floes.get? g
  floe   : t.floe f = { s.floe f with ops := marked s f o, fence := (t.floe f).fence }
  fence  : FenceKept (s.floe f) (t.floe f)
  line   : ∃ y, (t.die (dieOfCore (floeCore f))).stack.get? (pa / 128) = some y ∧ y.owned = true ∧ y.dirty = true ∧
    y.wts = stampOf s (dieOfCore (floeCore f)) x o ∧ y.rts = y.wts ∧ lineValue y.data (pa % 128) o.size = new ∧
    ∀ i < 128, (i < pa % 128 ∨ pa % 128 + o.size ≤ i) → Line.byte y.data i = Line.byte x.data i
  core   : t.core (floeCore f) =
    { raisedCore (s.core (floeCore f)) (stampOf s (dieOfCore (floeCore f)) x o) with l1 := (t.core (floeCore f)).l1 }
  blocks : ∀ b, b ≠ blockOf f → t.blocks.get? b = s.blocks.get? b
  block  : t.block (blockOf f) = { s.block (blockOf f) with vregs := (t.block (blockOf f)).vregs, badRegs := (t.block (blockOf f)).badRegs }
  regs   : ∀ n, r = some n → ∀ i < (if o.size ≤ 4 then 1 else o.size / 4),
    (t.block (blockOf f)).reg ((s.floe f).base + a.lane) (n + i) = BitVec.ofNat 32 (old / 2 ^ (32 * i))
  others : ∀ k, (∀ n, r = some n → ∀ i < (if o.size ≤ 4 then 1 else o.size / 4),
      k ≠ (s.block (blockOf f)).regIdx ((s.floe f).base + a.lane) (n + i)) →
    (t.block (blockOf f)).vregs.getD k 0 = (s.block (blockOf f)).vregs.getD k 0

end Sys2Proof.Claims
end

