-- ==== Sys2Proof/Claims/Scratch.lean ====
section
/-!
DEFINITION. What the rules of the manual say of the scratchpad and its granules (R64, R77, R78, R393 to R395, R443, R444, R447).
-/
namespace Sys2Proof.Claims
open Sys2Proof.Machine

/-- The scratchpad offset of a lane (R83). -/
def offset (s : State) (z : BitVec 3) (m b : BitVec 6) (l : Nat) : Nat := (address s z.toNat m b l).toNat
/-- An aligned offset inside the block's S KiB (R64, R77). -/
def inScratch (s : State) (z : BitVec 3) (off : Nat) : Prop := off % 2 ^ z.toNat = 0 ∧ off < s.blk.spadKiB * 1024
/-- The n bytes at a scratchpad offset as a number, lowest first (R4). -/
def scratchNumber (s : State) (off : Nat) : Nat → Nat
  | 0 => 0
  | n + 1 => (s.blk.spad.getD off 0).toNat + 256 * scratchNumber s (off + 1) n
/-- No word among n bytes at an offset is poisoned (R277). -/
def scratchClean (s : State) (off n : Nat) : Prop := ∀ w ∈ s.blk.badSpad, w * 4 + 4 ≤ off ∨ off + n ≤ w * 4
/-- No acquire of the floe is outstanding (R232, R250, R396). -/
def noAcquire (s : State) : Prop := (∀ o ∈ s.fl.ops, o.acquire = false) ∧ noReads s
/-- Nor does a release fence of the floe wait for an operation (R375). -/
def mayWrite (s : State) : Prop := noAcquire s ∧ ∀ n ∈ s.fl.rels, ∀ o ∈ s.fl.ops, o.seq < n → ∀ x ∈ o.lanes, x.done = true
/-- The issuing fragment stands in no queue of granule waits. -/
def noWait (s : State) : Prop := ∀ w ∈ s.blk.waiters, ¬(w.floe = s.cur.floe ∧ w.frag = s.cur.frag)

/-! ## Loads -/

/-- A load from scratchpad: one register, a pair or four per lane, or once into a uniform register or pair (R391, R395). -/
def scratchLoad (s : State) (z : BitVec 3) (u : BitVec 1) (m b d : BitVec 6) : Effect :=
  if u = 1 then
    let v := scratchNumber s (s.S b.toNat).toNat (2 ^ z.toNat)
    { uni := if z = 4 then [(d.toNat, BitVec.ofNat 64 v), (d.toNat + 1, BitVec.ofNat 64 (v / 2 ^ 64))] else [(d.toNat, BitVec.ofNat 64 v)]
      also := noAcquire s ∧ (z = 4 → d.toNat % 2 = 0) ∧ inScratch s z (s.S b.toNat).toNat ∧ scratchClean s (s.S b.toNat).toNat (2 ^ z.toNat) }
  else
    { srcs := index m, dsts := [VGroup.ofCount d (regsOf z)]
      vec := fun l => (List.range (regsOf z)).map (fun k =>
        (d.toNat + k, BitVec.ofNat 32 (scratchNumber s (offset s z m b l) (2 ^ z.toNat) / 2 ^ (32 * k))))
      also := noAcquire s ∧ ∀ l ∈ s.lanes, inScratch s z (offset s z m b l) ∧ scratchClean s (offset s z m b l) (2 ^ z.toNat) }
/-- Every granule that the active lanes address is full (R394). -/
def allFull (s : State) (z : BitVec 3) (m b : BitVec 6) : Prop := ∀ l ∈ s.lanes, s.blk.full.getD (offset s z m b l / 16) false = true

/-- `LDS`. -/
def scratchLoadRule (s : State) : Instr → Option Effect
  | .lds z u m b d => some (scratchLoad s z u m b d)
  | _ => none

/-- An `LDFE` that may go: every granule full, and for a clearing one none with an older clearing wait (R78, R394). -/
def mayTake (s : State) (clr : Bool) (z : BitVec 3) (m b : BitVec 6) : Prop :=
  allFull s z m b ∧ noWait s ∧ (clr = true →
    ∀ w ∈ s.blk.waiters, w.wantEmpty = false → ∀ l ∈ s.lanes, offset s z m b l / 16 ∉ w.granules)
/-- The state after an `LDFE`: the loads' registers, and with `clr` the granules empty; every other granule as before. Where a fence's window
is open, a discard leaves the values read (R238). -/
structure Taken (s : State) (clr : Bool) (z : BitVec 3) (m b d : BitVec 6) (t : State) : Prop where
  own    : OnlyOwn s t
  regs   : ∀ l ∈ s.lanes, ∀ k < regsOf z, t.blk.reg (s.thread l) (s.absReg (d.toNat + k)) =
    BitVec.ofNat 32 (scratchNumber s (offset s z m b l) (2 ^ z.toNat) / 2 ^ (32 * k))
  others : ∀ n, (∀ l ∈ s.lanes, ∀ k < regsOf z, n ≠ s.blk.regIdx (s.thread l) (s.absReg (d.toNat + k))) →
    t.blk.vregs.getD n 0 = s.blk.vregs.getD n 0 ∧ (n ∈ t.blk.badRegs ↔ n ∈ s.blk.badRegs)
  full   : ∀ g, t.blk.full.getD g false = (s.blk.full.getD g false && !(clr && decide (∃ l ∈ s.lanes, offset s z m b l / 16 = g)))
  queues : ∀ l ∈ s.lanes, ∀ q < 16, t.blk.qent (s.thread l) q = popped s (index m) l q
  block  : t.blk = { s.blk with vregs := t.blk.vregs, badRegs := t.blk.badRegs, qents := t.blk.qents, full := t.blk.full }
  floe   : t.fl = { s.fl with fence := t.fl.fence, frags := t.fl.frags, st := t.fl.st, readyAt := t.fl.readyAt }
  fence  : FenceKept s.fl t.fl
  goes   : Undivided s → t.fg.pc = behind s 4

/-! ## Stores -/

/-- The floe's older operations have been performed: a fill is a release at block scope (R235, R394, R444). -/
def olderDone (s : State) : Prop := ∀ o ∈ s.fl.ops, ∀ a ∈ o.lanes, a.done = true
/-- What a scratchpad store writes: per lane the offset and the data; whether it fills its granules. -/
structure ScratchStore where
  size  : Nat
  lanes : List (Nat × Nat)
  srcs  : List VGroup
  fills : Bool
  also  : Prop
/-- Byte k of scratchpad after lanes have stored, the highest lane last (R97). -/
def scratchByte (a : ScratchStore) (k : Nat) (old : Byte) : Byte :=
  a.lanes.foldl (fun x w => if w.1 ≤ k ∧ k < w.1 + a.size then BitVec.ofNat 8 (w.2 / 256 ^ (k - w.1)) else x) old
/-- A vector store of each active lane's data. -/
def laneStore (s : State) (z : BitVec 3) (m b d : BitVec 6) (fills : Bool) : ScratchStore :=
  { size := 2 ^ z.toNat, fills := fills, srcs := index m ++ [VGroup.ofCount d (regsOf z)]
    lanes := s.lanes.map (fun l => (offset s z m b l, (laneData s z d l).toNat))
    also := mayWrite s ∧ ∀ l ∈ s.lanes, inScratch s z (offset s z m b l) }
/-- `STS`, `STFE`, and `STFE.WE` where every granule is empty and no older wait for an empty one stands on it (R78, R444, R447). -/
def scratchStoreRule (s : State) : Instr → Option ScratchStore
  | .sts z u m b d => some
      (if u = 1 then
        { size := 2 ^ z.toNat, fills := false, srcs := index m
          lanes := [((s.S b.toNat).toNat, (uniData s z d).toNat)]
          also := mayWrite s ∧ (z = 4 → d.toNat % 2 = 0) ∧ inScratch s z (s.S b.toNat).toNat }
      else laneStore s z m b d false)
  | .stfe z m b d =>
    let a := laneStore s z m b d true
    some { a with also := a.also ∧ noWait s ∧ olderDone s }
  | .stfeWe z m b d =>
    let a := laneStore s z m b d true
    some { a with also := a.also ∧ noWait s ∧ olderDone s ∧ (∀ l ∈ s.lanes, s.blk.full.getD (offset s z m b l / 16) false = false) ∧
                          ∀ w ∈ s.blk.waiters, w.wantEmpty = true → ∀ l ∈ s.lanes, offset s z m b l / 16 ∉ w.granules }
  | _ => none
/-- The state after a scratchpad store: every byte, the granules filled, and everything else of the package as before. A word of which
the lanes write every byte is poisoned no more (R277). -/
structure ScratchStored (s : State) (a : ScratchStore) (t : State) : Prop where
  own    : OnlyOwn s t
  bytes  : ∀ k, t.blk.spad.getD k 0 = scratchByte a k (s.blk.spad.getD k 0)
  full   : ∀ g, t.blk.full.getD g false = (s.blk.full.getD g false || (a.fills && decide (∃ w ∈ a.lanes, w.1 / 16 = g)))
  poison : ∀ w, w ∈ t.blk.badSpad ↔ w ∈ s.blk.badSpad ∧ ∃ k < 4, ∀ x ∈ a.lanes, ¬(x.1 ≤ w * 4 + k ∧ w * 4 + k < x.1 + a.size)
  queues : ∀ l ∈ s.lanes, ∀ q < 16, t.blk.qent (s.thread l) q = popped s a.srcs l q
  block  : t.blk = { s.blk with spad := t.blk.spad, badSpad := t.blk.badSpad, full := t.blk.full, qents := t.blk.qents }
  floe   : t.fl = { s.fl with frags := t.fl.frags, st := t.fl.st, readyAt := t.fl.readyAt }
  goes   : Undivided s → t.fg.pc = behind s 4

end Sys2Proof.Claims
end

