-- ==== Sys2Proof/Claims/Waits.lean ====
section
/-!
DEFINITION. What the rules of the manual say of waits, barriers, the format vote, guards, the sequencer's queue and requests to the host
(R42 to R45, R141, R157, R158, R174 to R176, R184, R235, R236, R303, R343, R353).
-/
namespace Sys2Proof.Claims
open Sys2Proof.Machine

/-! ## What a wait and an acquire leave -/

/-- The state after an instruction has begun to wait (R45): the floe's registers as `set` has them, its fragment standing at the
instruction; a floe whose one fragment waits is itself waiting. -/
structure Waits (s : State) (w : WaitFor) (set : Floe → Floe) (t : State) : Prop where
  own    : OnlyFloe s s.cur.floe t
  floe   : t.fl = { set s.fl with frags := t.fl.frags, st := t.fl.st, readyAt := t.fl.readyAt }
  frag   : t.fg = { s.fg with wait := w, rb := keptBase s w }
  others : ∀ j, j ≠ s.cur.frag → t.frag s.cur.floe j = s.frag s.cur.floe j
  sleeps : s.fl.frags = [s.fg] → s.fl.recs = [] → s.fl.st = .active → t.fl.st = .waiting

/-- A fragment with the cursor's identity stands in the issuing floe. -/
def Here (s : State) : Prop := ∃ g ∈ s.fl.frags, g.id = s.cur.frag
/-- The horizon lets a core's logical time advance by one tick (R218). -/
def mayTick (s : State) (c : Nat) : Prop :=
  earlier (s.horizon (dieOfCore c) + 0x4000 - 257) ((s.core c).ctime + 1) = false

/-- The state after a core's logical time has advanced by one tick for floe f (R217): the floe's registers as `set` has them, its fragment
at a target where there is one; no block, cache line or byte of memory has changed. -/
structure Ticked (s : State) (f id : Nat) (set : Floe → Floe) (target : Option (BitVec 18)) (t : State) : Prop where
  rest  : t = { s with cur := t.cur, floes := t.floes, cores := t.cores }
  cur   : t.cur.core = s.cur.core ∧ t.cur.hart = s.cur.hart
  floes : ∀ g, g ≠ f → t.floes.get? g = s.floes.get? g
  cores : ∀ c, c ≠ floeCore f → t.cores.get? c = s.cores.get? c
  core  : t.core (floeCore f) = timed (s.core (floeCore f)) ((s.core (floeCore f)).ctime + 1)
  floe  : t.floe f = { set (s.floe f) with frags := (t.floe f).frags, st := (t.floe f).st, readyAt := (t.floe f).readyAt }
  stays : target = none → (t.floe f).frags = (s.floe f).frags ∧ (t.floe f).st = (s.floe f).st
  goes  : ∀ pc, target = some pc → (s.floe f).frags = [s.frag f id] → (s.frag f id).stack = [] →
    (s.frag f id).active &&& (s.floe f).live = (s.frag f id).active → (s.frag f id).active ≠ 0 →
    (t.frag f id).pc = pc ∧ (t.frag f id).wait = .none
/-- The floe's floor moves to the new logical time (R236). -/
def withFloor (s : State) (f : Nat) (set : Floe → Floe) (fl : Floe) : Floe :=
  { set fl with floor := (s.core (floeCore f)).ctime + 1 }
/-- The state after a fragment of floe f has passed an acquire at package or system scope and gone on at a target. -/
def Acquires (s : State) (f id : Nat) (set : Floe → Floe) (target : BitVec 18) (t : State) : Prop :=
  Ticked s f id (withFloor s f set) (some target) t

/-! ## Reads by address -/

/-- n bytes of memory from an address as a number, lowest byte first (R4). -/
def memNumber (s : State) (pa : Nat) : Nat → Nat
  | 0 => 0
  | n + 1 => (s.memByte pa).toNat + 256 * memNumber s (pa + 1) n
/-- n bytes at a virtual address of an address space lie in one line of plain memory, mapped with a right (bit 1 of the entry to read, bit 3
to execute), that no agent owns and no open log holds, written under the page's key, without poison; they hold `value`. -/
structure Holds (s : State) (right asid va n value : Nat) : Prop where
  inLine : 0 < n ∧ va % 128 + n ≤ 128 ∧ va < 2 ^ 56 ∧ inAperture va = false
  mapped : ∃ x r pa, s.walk asid va = .ok x r ∧ bitN x.attr right = true ∧ fieldN x.attr 48 4 = 0 ∧ fieldN x.attr 16 2 ≤ 1 ∧
    pa = x.pa + (va - x.va) ∧ pa % 128 = va % 128 ∧ paTier pa ≤ 1 ∧
    (∀ d < 13, ∀ y, (s.die d).stack.get? (pa / 128) = some y → y.owned = false) ∧
    (∀ g ∈ s.logs, g.2.pa + g.2.len ≤ pa / 128 * 128 ∨ pa / 128 * 128 + 128 ≤ g.2.pa) ∧
    (s.memKeys.getD (pa / 128) (fieldN x.attr 52 12) = fieldN x.attr 52 12) ∧
    (∀ i < 32, pa / 128 * 32 + i ∉ s.badWords) ∧ value = memNumber s pa n
  still  : s.migrations = []

/-! ## WAIT, WAITM, SYSC, MRUN -/

/-- A virtual address of floe f lies in plain memory of tier 2, through a translation that the core holds of a readable page: n bytes of one
line, not held by the firn, that no agent owns and no open log holds, written under the page's key, without poison: `value` at its home. -/
structure HomeHolds (s : State) (f va n value : Nat) : Prop where
  inLine : 0 < n ∧ va % 128 + n ≤ 128 ∧ va < 2 ^ 56 ∧ inAperture va = false
  mapped : ∃ x pa, (s.core (floeCore f)).held (s.asidOf (blockOf f)) va = some x ∧ bitN x.attr 1 = true ∧ fieldN x.attr 48 4 = 0 ∧
    fieldN x.attr 16 2 ≠ 3 ∧ pa = x.pa + (va - x.va) ∧ pa % 128 + n ≤ 128 ∧ paTier pa = 2 ∧ pa / 128 ∉ s.firnHeld ∧
    (∀ d < 13, ∀ y, (s.die d).stack.get? (pa / 128) = some y → y.owned = false) ∧
    (∀ g ∈ s.logs, g.2.pa + g.2.len ≤ pa / 128 * 128 ∨ pa / 128 * 128 + 128 ≤ g.2.pa) ∧
    (s.memKeys.getD (pa / 128) (fieldN x.attr 52 12) = fieldN x.attr 52 12) ∧
    (∀ i < 32, pa / 128 * 32 + i ∉ s.badWords) ∧ value = memNumber s pa n
  still  : s.migrations = []
/-- A virtual address lies in no page of tier 2. -/
def notTier2 (s : State) (f : Nat) (va : W64) : Prop :=
  ∀ x, (s.core (floeCore f)).held (s.asidOf (blockOf f)) va.toNat = some x → paTier (x.pa + (va.toNat - x.va)) ≠ 2
/-- What a `WAITM` of floe f reads: the core's own copy of the line, or in tier 2 the bytes at the home (R453). -/
def WaitReads (s : State) (f : Nat) (va : W64) (value : Nat) : Prop :=
  CoreHolds s 1 f va.toNat 8 value ∧ notTier2 s f va ∨ HomeHolds s f va.toNat 8 value

/-- A `WAITM` at its issue: aligned, nothing outstanding, the location readable at once, with `value` (R176, R453). -/
structure MemWait (s : State) (b a : BitVec 6) (value : Nat) : Prop where
  here    : Here s
  fresh   : s.fg.wait = .none
  aligned : (s.S a.toNat).toNat % 8 = 0
  quiet   : s.fl.ops = [] ∧ noReads s
  holds   : WaitReads s s.cur.floe (s.S a.toNat) value

/-- Every lane of every outstanding operation has been performed. -/
def allDone (s : State) : Prop := ∀ o ∈ s.fl.ops, ∀ a ∈ o.lanes, a.done = true

/-- The request that a `SYSC` makes from its argument record (R303, R448). -/
def requestOf (s : State) (a d : BitVec 6) (record : Nat) : SyscReq :=
  { frag := s.cur.frag
    num  := (s.S a.toNat) &&& 0xFF
    args := [BitVec.ofNat 64 record, BitVec.ofNat 64 (record / 2 ^ 64), BitVec.ofNat 64 (record / 2 ^ 128), BitVec.ofNat 64 (record / 2 ^ 192)]
    sd   := d.toNat
    bad  := decide (256 ≤ (s.S a.toNat).toNat) || decide (record / 2 ^ 256 ≠ 0)
    reply := none }
/-- A `SYSC` whose record holds `record`, in a line that the core holds. -/
structure CanCall (s : State) (b : BitVec 6) (record : Nat) : Prop where
  here    : Here s
  aligned : (s.S b.toNat).toNat % 64 = 0
  quiet   : s.fl.ops = [] ∧ noReads s ∧ s.fl.fence = none
  holds   : CoreHolds s 1 s.cur.floe (s.S b.toNat).toNat 64 record
/-- The status and result that answer a request: 1 for a bad record, 2 for a service number of 18 or more, else the reply (R303, R304). -/
inductive Answer (r : SyscReq) : Nat → W64 → Prop where
  | bad : r.bad = true → Answer r 1 0
  | none : r.bad = false → 18 ≤ r.num.toNat → Answer r 2 0
  | reply (st : Nat) (v : W64) : r.bad = false → r.num.toNat < 18 → r.reply = some (st, v) → st < 256 → Answer r st v
/-- The floe's registers after a reply: status in bits [7:0] of sd, result in bits [63:32]. -/
def replied (r : SyscReq) (st : Nat) (v : W64) (fl : Floe) : Floe :=
  { fl.setS r.sd (BitVec.ofNat 64 (st + v.toNat % 2 ^ 32 * 2 ^ 32)) with syscs := fl.syscs.filter (fun x => x.frag ≠ r.frag) }

/-- The state after an `MRUN` has joined the queue of its core's sequencer (R141). -/
structure Queued (s : State) (va table : W64) (t : State) : Prop where
  rest  : t = { s with floes := t.floes, cores := t.cores }
  floes : ∀ g, g ≠ s.cur.floe → t.floes.get? g = s.floes.get? g
  cores : ∀ c, c ≠ floeCore s.cur.floe → t.cores.get? c = s.cores.get? c
  core  : t.cr = { s.cr with mruns := s.cr.mruns ++ [(s.cur.floe, s.cur.frag, va, table)] }
  floe  : t.fl = { s.fl with frags := t.fl.frags, st := t.fl.st, readyAt := t.fl.readyAt }
  frag  : t.fg = { s.fg with wait := .mrun, rb := none }

/-! ## Barriers (R42, R43, R157, R343) -/

/-- The quanta of a floe. -/
def quanta (fl : Floe) : Nat := fl.width / 16
/-- The expected count of a barrier: the quanta of the block's unretired floes, and one for a run whose header names the barrier. -/
def expectedCount (s : State) (n : Nat) : Nat :=
  ((s.liveFloes (blockOf s.cur.floe)).map (fun f => quanta (s.floe f))).sum +
    (match s.cr.run with
     | some r => if r.blk = blockOf s.cur.floe ∧ (r.table.getD 0 0).getLsbD (64 + n) = true then 1 else 0
     | none => 0)
/-- The arrival count of a barrier. -/
def arrivals (s : State) (n : Nat) : Nat := (s.blk.bars.getD n Barrier.reset).count
/-- The floe's registers once it stands at a barrier. -/
def standAt (n : Nat) (fl : Floe) : Floe := { fl with standing := fl.standing ||| BitVec.ofNat 16 (2 ^ n) }

/-- A floe that has not arrived in the current phase reaches a barrier with its older accesses performed. -/
structure CanArrive (s : State) (n : Nat) : Prop where
  here  : Here s
  fresh : s.fl.standing.getLsbD n = false
  done  : allDone s
  count : 0 < quanta s.fl

/-- The state after an arrival that leaves the phase open: the count has gained the floe's quanta, the floe stands at the barrier, and it
waits, or goes on where `w` is none. Of its block only the barrier (with the votes cast) and popped queue entries have changed. -/
structure Arrived (s : State) (n : Nat) (w : WaitFor) (votes : List (Nat × Nat × List W32)) (t : State) : Prop where
  own   : OnlyOwn s t
  count : (t.blk.bars.getD n Barrier.reset).count = arrivals s n + quanta s.fl ∧
    (t.blk.bars.getD n Barrier.reset).votes = (s.blk.bars.getD n Barrier.reset).votes ++ votes
  bars  : ∀ k, k ≠ n → t.blk.bars.getD k Barrier.reset = s.blk.bars.getD k Barrier.reset
  block : t.blk = { s.blk with bars := t.blk.bars, qents := t.blk.qents }
  floe  : t.fl = { standAt n s.fl with frags := t.fl.frags, st := t.fl.st, readyAt := t.fl.readyAt }
  frag  : w ≠ .none → t.fg = { s.fg with wait := w, rb := none }
  goes  : w = .none → Undivided s → t.fg.pc = behind s 4

/-- The issuing floe is its block's only one, and the block has no run; the arrival completes the phase. -/
structure Alone (s : State) (n : Nat) : Prop where
  floes : s.floes.keys.filter (fun f => blockOf f = blockOf s.cur.floe) = [s.cur.floe]
  live  : s.unretired s.cur.floe = true
  run   : ∀ r, s.cr.run = some r → r.blk ≠ blockOf s.cur.floe
  empty : arrivals s n = 0 ∧ (s.blk.bars.getD n Barrier.reset).votes = []
  whole : Undivided s

/-- The state after an arrival that completes the phase: the count back at zero, nobody standing, the fragment behind the instruction, and
where a format word was agreed, FMTVOTE and the block's format slot at it. -/
structure PhaseDone (s : State) (n : Nat) (agreed : Option W32) (t : State) : Prop where
  rest  : t = { s with floes := t.floes, blocks := t.blocks, cores := t.cores }
  cores : ∀ c, t.core c = s.core c
  floes : ∀ g, g ≠ s.cur.floe → t.floes.get? g = s.floes.get? g
  bars  : ∀ k < 16, t.blk.bars.getD k Barrier.reset = if k = n then Barrier.reset else s.blk.bars.getD k Barrier.reset
  block : t.blk = { s.blk with bars := t.blk.bars, qents := t.blk.qents, fmtSlot := agreed.getD s.blk.fmtSlot }
  floe  : t.fl = { s.fl with fmtvote := agreed.getD s.fl.fmtvote, frags := t.fl.frags, st := t.fl.st, readyAt := t.fl.readyAt }
  frag  : t.fg.pc = behind s 4 ∧ t.fg.wait = .none

/-- A format word that meets R119 and R120: reserved fields zero, a pair of formats of one of the four kinds. -/
def goodFormat (w : W32) : Prop :=
  fieldN w 22 10 = 0 ∧ fieldN w 19 3 ≤ 3 ∧ (fieldN w 12 4 ≤ 7 ∨ fieldN w 12 4 = 10) ∧ fieldN w 8 4 = 0 ∧
  ((fieldN w 0 4 ≤ 1 ∧ fieldN w 4 4 ≤ 1) ∨
   (fieldN w 0 4 ∈ [2, 3, 4, 5, 7, 9] ∧ fieldN w 4 4 ∈ [2, 3, 4, 5, 7, 9]) ∨
   (fieldN w 0 4 = 6 ∧ fieldN w 4 4 = 6) ∨ (fieldN w 0 4 ∈ [2, 3, 7, 9] ∧ fieldN w 4 4 = 8))

/-! ## CBAR (R44, R353) -/

/-- A `CBAR` of a cohort that holds the block, at which the floe has not arrived, while another floe of the block has not either. -/
structure CohortOpen (s : State) (a : BitVec 6) : Prop where
  here   : Here s
  member : (s.S a.toNat).toNat < 256 ∧ (s.S a.toNat).toNat < s.lau.cohorts.length ∧
    bitN (s.lau.cohorts.getD (s.S a.toNat).toNat 0) 0 = true ∧
    ∃ i < fieldN (s.lau.cohorts.getD (s.S a.toNat).toNat 0) 64 32,
      s.blk.id = fieldN (s.lau.cohorts.getD (s.S a.toNat).toNat 0) 32 32 + i * fieldN (s.lau.cohorts.getD (s.S a.toNat).toNat 0) 96 32
  fresh  : (s.S a.toNat).toNat ∉ s.fl.cstanding
  done   : allDone s
  other  : ∃ g ∈ s.liveFloes (blockOf s.cur.floe), g ≠ s.cur.floe ∧ (s.S a.toNat).toNat ∉ (s.floe g).cstanding

/-! ## GSET (R184, R383) -/

/-- The state after a `GSET` of guard g: the floe's commands and the streams of its queues that the guard holds go on or are discarded, and
the guard's field of GUARDS is set; nothing else has changed. -/
structure GuardSet (s : State) (g : Nat) (v : Bool) (t : State) : Prop where
  own     : OnlyOwn s t
  guards  : ∀ k < 8, fieldN t.fl.guards (2 * k) 2 = if k = g then (if v then 1 else 2) else fieldN s.fl.guards (2 * k) 2
  floe    : t.fl = { s.fl with
    cmds := s.fl.cmds.map (fun c => if c.guard = g ∧ c.guardSt = .held then { c with guardSt := if v then .free else .discarded } else c)
    guards := t.fl.guards, frags := t.fl.frags, st := t.fl.st, readyAt := t.fl.readyAt }
  block   : t.blk = { s.blk with streams := t.blk.streams }
  streams : ∀ k x, s.blk.streams.get? k = some x → ∃ y, t.blk.streams.get? k = some y ∧
    y = { x with guardSt := if x.guard = g ∧ x.guardSt = .held ∧ (s.fl.queue x.queue).stream = some k then (if v then .free else .discarded)
                            else x.guardSt }
  goes    : Undivided s → t.fg.pc = behind s 4

end Sys2Proof.Claims
end

