-- ==== Sys2Proof/Claims/Engines.lean ====
section
/-!
DEFINITION. What the rules of the manual say of queue registers and streams, and of engine commands (R74, R172, R177, R179, R181, R184 to
R187, R209 to R211, R308 to R311, R338, R355, R418, R445).
-/
namespace Sys2Proof.Claims
open Sys2Proof.Machine

/-! ## QCFG (R74, R418) -/

/-- The registers of a queue: its port, and behind it the backing of a loop-carried one. -/
def inQueue (c : QueueCfg) (j : Nat) : Prop :=
  match c.mode with
  | .off => False
  | .loop => c.port ≤ j ∧ j ≤ c.port + c.depth
  | .stream => j = c.port
/-- A `QCFG` that completes: registers below N that no other queue holds, no running stream where one is to be fed, the loads counter at
zero, and no stream bound to the queue so far. -/
structure CanSetQueue (s : State) (q : Nat) (c : QueueCfg) : Prop where
  inRange : ∀ j, inQueue c j → j < s.blk.nregs
  apart   : ∀ p < 16, p ≠ q → (s.fl.queue p).mode ≠ .off → ∀ j, ¬(inQueue c j ∧ inQueue (s.fl.queue p) j)
  loads   : ∀ o ∈ s.fl.ops, o.cls ≠ .loads
  unbound : (s.fl.queue q).stream = none
/-- The word of backing register i of queue q of a lane. -/
def backWord (s : State) (q l i : Nat) : Nat := s.blk.regIdx (s.fl.base + l) ((s.fl.queue q).port + 1 + i)
/-- A register word of the block backs queue q of the issuing floe, which is loop-carried (R74, R419). -/
def backs (s : State) (q n : Nat) : Prop :=
  (s.fl.queue q).mode = .loop ∧ ∃ l < s.fl.width, ∃ i < (s.fl.queue q).depth, n = backWord s q l i
/-- The state after a `QCFG`: the queue as configured and empty in every thread of the floe; every other queue, register and floe as before.
The backing registers of a loop-carried queue return to ordinary use with what they hold: an entry, or what was last there (R419). -/
structure QueueSet (s : State) (q : Nat) (c : QueueCfg) (t : State) : Prop where
  own    : OnlyOwn s t
  queue  : (t.fl.queue q).mode = c.mode ∧ (t.fl.queue q).port = c.port ∧ (t.fl.queue q).depth = c.depth ∧ (t.fl.queue q).stream = none
  others : ∀ p, p ≠ q → t.fl.queue p = s.fl.queue p
  floe   : t.fl = { s.fl with queues := t.fl.queues, frags := t.fl.frags, st := t.fl.st, readyAt := t.fl.readyAt }
  qents  : ∀ x, ∀ k < 16, t.blk.queueAt x k =
    if k = q ∧ s.fl.base ≤ x ∧ x < s.fl.base + s.fl.width then ThreadQueue.empty else s.blk.queueAt x k
  block  : t.blk = { s.blk with vregs := t.blk.vregs, badRegs := t.blk.badRegs, qents := t.blk.qents, nextStrm := t.blk.nextStrm }
  regs   : ∀ n, ¬ backs s q n → t.blk.vregs.getD n 0 = s.blk.vregs.getD n 0 ∧ (n ∈ t.blk.badRegs ↔ n ∈ s.blk.badRegs)
  kept   : (s.fl.queue q).mode = .loop → (s.fl.queue q).port + (s.fl.queue q).depth < s.blk.nregs →
    ∀ l < s.fl.width, ∀ i < (s.fl.queue q).depth,
      (∀ v, (s.blk.queueAt (s.fl.base + l) q).held i = some v →
        t.blk.vregs.getD (backWord s q l i) 0 = v.1 ∧ (backWord s q l i ∈ t.blk.badRegs ↔ v.2 = true)) ∧
      ((s.blk.queueAt (s.fl.base + l) q).held i = none →
        t.blk.vregs.getD (backWord s q l i) 0 = s.blk.vregs.getD (backWord s q l i) 0 ∧
        (backWord s q l i ∈ t.blk.badRegs ↔ backWord s q l i ∈ s.blk.badRegs))
  goes   : Undivided s → t.fg.pc = behind s 4
/-- The configuration that each `QCFG` asks for. -/
def queueRule (s : State) : Instr → Option (Nat × QueueCfg)
  | .qcfgLoop i a q => some (q.toNat, ⟨.loop, s.absReg a.toNat, i.toNat, none, 0⟩)
  | .qcfgStrm a q => some (q.toNat, ⟨.stream, s.absReg a.toNat, 0, none, 0⟩)
  | .qcfgOff q => some (q.toNat, ⟨.off, 0, 0, none, 0⟩)
  | _ => none

/-! ## STRM and its entries (R185, R186, R445) -/

/-- The queue field of a stream descriptor, its element size in bytes, its loop counts and strides (R185). -/
def streamQueue (x : BitVec 512) : Nat := fieldN x 288 4
def streamSize (x : BitVec 512) : Nat := 2 ^ fieldN x 293 2
def loopCount (x : BitVec 512) (i : Nat) : Nat := fieldN x (224 + 16 * i) 16
def loopStride (x : BitVec 512) (i : Nat) : Int := fieldI x (96 + 32 * i) 32
/-- A descriptor that R185 accepts. -/
def goodStream (x : BitVec 512) : Prop :=
  fieldN x 295 217 = 0 ∧ fieldN x 293 2 ≤ 2 ∧ fieldN x 288 5 ≤ 15 ∧ fieldN x 56 8 = 0 ∧ ∀ i < 4, loopCount x i ≠ 0
/-- A `STRM` whose request names a descriptor of the launch's table, in a line that the core holds, of a stream-fed queue without a running
stream, with no misaligned counter, on a core with fewer than 64 running streams. -/
structure CanStream (s : State) (t q : BitVec 6) (x : BitVec 512) : Prop where
  request : (s.S q.toNat).toNat < 256 ∧ fieldN s.lau.desc 128 56 ≠ 0
  counter : t = 63 ∨ (s.S t.toNat).toNat % 8 = 0
  holds   : CoreHolds s 1 s.cur.floe (fieldN s.lau.desc 128 56 + (s.S q.toNat).toNat * 64) 64 x.toNat
  good    : goodStream x
  quiet   : s.fl.ops = [] ∧ noReads s
  queue   : (s.fl.queue (streamQueue x)).mode = .stream ∧ (s.fl.queue (streamQueue x)).stream = none
  room    : s.runningStreams (floeCore s.cur.floe) < 64
/-- The state after a `STRM`: a stream with nothing delivered feeds the queue. -/
structure Streaming (s : State) (g : BitVec 4) (t c : BitVec 6) (x : BitVec 512) (u : State) : Prop where
  own    : OnlyOwn s u
  bound  : u.fl.queue (streamQueue x) = { s.fl.queue (streamQueue x) with stream := some s.blk.nextStrm, tag := s.blk.nextStrm }
  others : ∀ p, p ≠ streamQueue x → u.fl.queue p = s.fl.queue p
  floe   : u.fl = { s.fl with queues := u.fl.queues, frags := u.fl.frags, st := u.fl.st, readyAt := u.fl.readyAt }
  stream : u.blk.streams.get? s.blk.nextStrm = some
    { queue := streamQueue x, desc := x, offset := s.S c.toNat, ctr := if t = 63 then none else some (s.S t.toNat), guard := g.toNat
      guardSt := if g.toNat < 8 then .held else .free, base := s.fl.base, width := s.fl.width, next := 0, ended := false, failed := none
      paused := none, held := [] }
  streams : ∀ j, j ≠ s.blk.nextStrm → u.blk.streams.get? j = s.blk.streams.get? j
  block  : u.blk = { s.blk with streams := u.blk.streams, nextStrm := s.blk.nextStrm + 1 }
  goes   : Undivided s → u.fg.pc = behind s 4

/-- The address of entry k in lane l (R185): the base, the offset, the lane stride, and the four loop indices' strides. -/
def elementAt (x : BitVec 512) (off : W64) (k l : Nat) : W64 :=
  BitVec.ofInt 64 (fieldN x 0 56 + off.toNat + l * fieldI x 64 32 + (k % loopCount x 0 : Nat) * loopStride x 0 +
    (k / loopCount x 0 % loopCount x 1 : Nat) * loopStride x 1 + (k / (loopCount x 0 * loopCount x 1) % loopCount x 2 : Nat) * loopStride x 2 +
    (k / (loopCount x 0 * loopCount x 1 * loopCount x 2) : Nat) * loopStride x 3)
/-- The entries that a stream delivers in all. -/
def entryCount (x : BitVec 512) : Nat := loopCount x 0 * loopCount x 1 * loopCount x 2 * loopCount x 3
/-- The translation of an address for a stream: one that its engine holds of a frame of the entry, or a walk (R200). -/
def streamXlat (s : State) (b : Nat) (st : Stream) (va : Nat) : Walk :=
  s.unitWalk (s.holdFrames (s.asidOf b) st.held st.frames) (s.asidOf b) va
/-- A stream of floe f's queue with room in every live lane for an entry that is not its last, all of whose elements the core reads from its
own copies of lines (R220, R239), with no address in the register aperture and no invalidation pending for its address space (R52, R69, R200). -/
structure CanDeliver (s : State) (b k f : Nat) (st : Stream) (value : Nat → Nat) : Prop where
  stream : (s.block b).streams.get? k = some st ∧ st.ended = false ∧ st.paused = none ∧ st.guardSt = .free
  keys   : ((s.block b).streams.map (fun e => e.1)).Nodup
  floe   : s.streamFloes b k = [f] ∧ (s.floe f).base = st.base ∧ (s.floe f).width = st.width ∧ 0 < st.width
  room   : (∃ l < st.width, (s.floe f).live.getLsbD l = true) ∧
    ∀ l < st.width, (s.floe f).live.getLsbD l = true → ((s.block b).qent (st.base + l) st.queue).length < 16
  calm   : ∀ i ∈ s.invs, i.asid ≠ s.asidOf b
  number : st.queue < 16
  more   : st.next + 1 < entryCount st.desc
  apart  : st.next = 0 → (∀ a, st.ctr = some a → inAperture a.toNat = false) ∧
    ∀ k < entryCount st.desc, ∀ l < st.width, inAperture (elementAt st.desc st.offset k l).toNat = false
  holds  : ∀ l < st.width, (elementAt st.desc st.offset st.next l).toNat % streamSize st.desc = 0 ∧
    inOneLine (elementAt st.desc st.offset st.next l).toNat (streamSize st.desc) ∧
    ∃ x r, streamXlat s b st (elementAt st.desc st.offset st.next l).toNat = .ok x r ∧
      CopyHolds s x 1 f (elementAt st.desc st.offset st.next l).toNat (streamSize st.desc) (value l)
/-- A queue of a thread with one entry more, which stands in no register. -/
def withEntry (x : ThreadQueue) (v : W32) : ThreadQueue := { x with ents := x.ents ++ [⟨v, none, false⟩] }
/-- The state after a delivery: each thread of the stream whose lane has not exited has one entry more, and the engine stands in the frames
of the entry's elements. -/
structure Delivered (s : State) (b k f : Nat) (st : Stream) (value : Nat → Nat) (t : State) : Prop where
  rest   : t = { s with blocks := t.blocks }
  blocks : ∀ c, c ≠ b → t.blocks.get? c = s.blocks.get? c
  qents  : ∀ x, ∀ q < 16, (t.block b).queueAt x q =
    if q = st.queue ∧ st.base ≤ x ∧ x < st.base + st.width ∧ (s.floe f).live.getLsbD (x - st.base) = true then
      withEntry ((s.block b).queueAt x q) (BitVec.ofNat 32 (value (x - st.base))) else (s.block b).queueAt x q
  stream : (t.block b).streams.get? k = some { st with
    next := st.next + 1, held := s.holdFrames (s.asidOf b) st.held st.frames }
  others : ∀ j, j ≠ k → (t.block b).streams.get? j = (s.block b).streams.get? j
  block  : t.block b = { s.block b with qents := (t.block b).qents, streams := (t.block b).streams }

/-! ## Issue of engine commands (R177) -/

/-- The command that an instruction of the E layout captures, with what else its issue asks. -/
structure Command where
  kind  : EngKind
  cls   : OpClass
  n     : Nat
  guard : BitVec 4
  ctr   : BitVec 6
  coord : BitVec 6
  req   : BitVec 6
  /-- the slot that a code fetch makes landing (R187) -/
  slot  : Option Nat := none
  /-- `APND.SYNC` holds the floe until its copies counter is zero (R338) -/
  hold  : Bool := false
  also  : Prop := True
/-- The commands of the E layout. A `SEND` or `RECV` without a guard makes a replayable launch non-replayable (R285); here the launch is
not replayable, or the guard is unresolved. -/
def commandRule (s : State) : Instr → Option Command
  | .cpy g t c q => some ⟨.cpy, .copies, 2, g, t, c, q, none, false, True⟩
  | .gath g t c q => some ⟨.gath, .copies, 3, g, t, c, q, none, false, True⟩
  | .scat g t c q => some ⟨.scat, .copies, 3, g, t, c, q, none, false, True⟩
  | .cpyMx g t c q => some ⟨.cpyMx, .copies, 3, g, t, c, q, none, false, True⟩
  | .cpyUnmx g t c q => some ⟨.cpyUnmx, .copies, 3, g, t, c, q, none, false, True⟩
  | .apnd g t c q => some ⟨.apnd, .copies, 3, g, t, c, q, none, false, True⟩
  | .apndDur g t c q => some ⟨.apndDur, .copies, 3, g, t, c, q, none, false, True⟩
  | .apndSync g t c q => some ⟨.apndSync, .copies, 3, g, t, c, q, none, true, True⟩
  | .cfetch g t c q => some ⟨.cfetch, .copies, 1, g, t, c, q, some ((s.S c.toNat).toNat % 64), false,
      s.fg.pc.toNat / 4096 ≠ (s.S c.toNat).toNat % 64⟩
  | .send g t c q => some ⟨.send, .net, 2, g, t, c, q, none, false, g.toNat < 8 ∨ (s.launch s.blk.launch).replay = false⟩
  | .recv g t c q => some ⟨.recv, .net, 1, g, t, c, q, none, false, g.toNat < 8 ∨ (s.launch s.blk.launch).replay = false⟩
  | _ => none
/-- A command issues: its coordinate registers exist, and its counter has room (R171). -/
def mayIssue (s : State) (m : Command) : Prop := m.coord.toNat + m.n ≤ 64 ∧ s.fl.counter m.cls < 15 ∧ m.also
/-- The command as it stands in the floe's queue: operands captured, nothing moved. -/
def captured (s : State) (m : Command) : EngCmd :=
  { seq := s.fl.opSeq, kind := m.kind, cls := m.cls, req := s.S m.req.toNat
    coords := (List.range m.n).map (fun i => s.S (m.coord.toNat + i))
    ctr := if m.ctr = 63 then none else some (s.S m.ctr.toNat), guard := m.guard.toNat
    guardSt := if m.guard.toNat < 8 then .held else .free, progress := 0, pausedAt := none, seqNo := none, windowNo := none
    notify := false, shape := none, held := [], finished := false }
/-- The state after a command has issued: it stands last in the floe's queue; no memory, scratchpad or register has changed. -/
structure Enqueued (s : State) (m : Command) (t : State) : Prop where
  rest  : t = { s with floes := t.floes, cores := t.cores }
  floes : ∀ g, g ≠ s.cur.floe → t.floes.get? g = s.floes.get? g
  cores : ∀ c, t.core c = { s.core c with slots := (t.core c).slots }
  slots : ∀ c k, (t.core c).slot k = if c = floeCore s.cur.floe ∧ m.slot = some k then
      { (s.core c).slot k with st := .landing, fetches := ((s.core c).slot k).fetches ++ [(s.cur.floe, s.fl.opSeq)] }
    else (s.core c).slot k
  floe  : t.fl = { s.fl with
    cmds := s.fl.cmds ++ [captured s m], opSeq := s.fl.opSeq + 1, hold := s.fl.hold || m.hold
    frags := t.fl.frags, st := t.fl.st, readyAt := t.fl.readyAt }
  goes  : Undivided s → t.fg.pc = behind s 4

/-! ## Commands at work -/

/-- A floe's command of a number, the only one of that number, that may move: not finished or paused, its guard free, in no frame so far, no
older command of its class in its way, no invalidation pending for its address space, and its launch not being wound up (R184, R200, R259). -/
structure MayMove (s : State) (f : Nat) (c : EngCmd) : Prop where
  here  : c ∈ (s.floe f).cmds
  seqs  : ((s.floe f).cmds.map (fun d => d.seq)).Nodup
  open_ : c.finished = false ∧ c.pausedAt = none ∧ c.guardSt = .free ∧ c.held = []
  runs  : (s.launch (s.block (blockOf f)).launch).phase ≠ .rolledBack ∧ (s.launch (s.block (blockOf f)).launch).phase ≠ .halting
  front : ∀ d ∈ (s.floe f).cmds, d.seq < c.seq → d.finished = true
  calm  : ∀ i ∈ s.invs, i.asid ≠ s.asidOf (blockOf f)
/-- A floe's commands after a change of one of them. -/
def changed (s : State) (f seq : Nat) (g : EngCmd → EngCmd) : List EngCmd :=
  (s.floe f).cmds.map (fun d => if d.seq = seq then g d else d)

/-- The record of a command: as the command has read it already, or as memory holds it (R357, R457). -/
def HasRecord (s : State) (f : Nat) (c : EngCmd) (r : BitVec 512) : Prop :=
  c.shape = some r ∨ (c.shape = none ∧ Holds s 1 (s.asidOf (blockOf f)) c.req.toNat 64 r.toNat)
/-- A `CPY` of one element from scratchpad to scratchpad, by its shape record (R180, R181). -/
structure OneElement (s : State) (f : Nat) (c : EngCmd) (r : BitVec 512) (src dst n : Nat) : Prop where
  move   : MayMove s f c
  kind   : c.kind = .cpy ∧ c.cls = .copies ∧ c.progress = 0 ∧ c.ctr = none ∧ c.req.toNat % 64 = 0
  holds  : HasRecord s f c r
  record : fieldN r 389 123 = 0 ∧ fieldN r 387 2 = 3 ∧ fieldN r 384 3 ≤ 4 ∧ fieldN r 120 8 = 0 ∧ fieldN r 56 8 = 0
  single : ∀ i < 4, fieldN r (320 + 16 * i) 16 = 1
  places : n = 2 ^ fieldN r 384 3 ∧ src = (fieldN r 0 56 + (c.coords.getD 0 0).toNat) % 2 ^ 64 ∧
    dst = (fieldN r 64 56 + (c.coords.getD 1 0).toNat) % 2 ^ 64 ∧ src % n = 0 ∧ dst % n = 0
  inside : src + n ≤ (s.block (blockOf f)).spadKiB * 1024 ∧ dst + n ≤ (s.block (blockOf f)).spadKiB * 1024
  clean  : ∀ w ∈ (s.block (blockOf f)).badSpad, w * 4 + 4 ≤ src ∨ src + n ≤ w * 4
/-- The state after the unit has moved: the destination's bytes, its granule full (R77), and the command finished. -/
structure Moved1 (s : State) (f : Nat) (c : EngCmd) (r : BitVec 512) (src dst n : Nat) (t : State) : Prop where
  rest   : t = { s with floes := t.floes, blocks := t.blocks }
  floes  : ∀ g, g ≠ f → t.floes.get? g = s.floes.get? g
  blocks : ∀ b, b ≠ blockOf f → t.blocks.get? b = s.blocks.get? b
  floe   : t.floe f = { s.floe f with cmds := changed s f c.seq (fun d => { d with progress := 1, shape := some r, finished := true }) }
  bytes  : ∀ k, (t.block (blockOf f)).spad.getD k 0 =
    if dst ≤ k ∧ k < dst + n then (s.block (blockOf f)).spad.getD (src + (k - dst)) 0 else (s.block (blockOf f)).spad.getD k 0
  full   : ∀ g, (t.block (blockOf f)).full.getD g false = ((s.block (blockOf f)).full.getD g false || decide (g = dst / 16))
  block  : t.block (blockOf f) = { s.block (blockOf f) with
    spad := (t.block (blockOf f)).spad, full := (t.block (blockOf f)).full, badSpad := (t.block (blockOf f)).badSpad }

/-- A code fetch of up to a line, mapped for execution, to a slot in which no fragment of the core stands, the oldest fetch to it (R187,
R355). -/
structure CanLand (s : State) (f : Nat) (c : EngCmd) (k n value : Nat) : Prop where
  move  : MayMove s f c
  kind  : c.kind = .cfetch ∧ c.cls = .copies ∧ c.ctr = none ∧ c.req.toNat % 16 = 0
  word  : k = fieldN (c.coords.getD 0 0) 0 6 ∧ n = (fieldN (c.coords.getD 0 0) 16 11 + 1) * 2 ∧ fieldN (c.coords.getD 0 0) 6 10 = 0 ∧
    fieldN (c.coords.getD 0 0) 27 37 = 0
  holds : Holds s 3 (s.asidOf (blockOf f)) c.req.toNat n value
  free  : ∀ e ∈ s.floes, floeCore e.1 = floeCore f → ∀ g ∈ e.2.frags, g.pc.toNat / 4096 ≠ k
  first : ∃ rest, ((s.core (floeCore f)).slot k).fetches = (f, c.seq) :: rest
/-- The state after it: the bytes stand in the slot, which lands as the command completes (R187), and the command is finished. -/
structure SlotFetched (s : State) (f : Nat) (c : EngCmd) (k n value : Nat) (t : State) : Prop where
  rest  : t = { s with floes := t.floes, cores := t.cores }
  floes : ∀ g, g ≠ f → t.floes.get? g = s.floes.get? g
  floe  : t.floe f = { s.floe f with cmds := changed s f c.seq (fun d => { d with progress := 1, finished := true }) }
  cores : ∀ d, d ≠ floeCore f → t.cores.get? d = s.cores.get? d
  slot  : ((t.core (floeCore f)).slot k).st = ((s.core (floeCore f)).slot k).st ∧
    ((t.core (floeCore f)).slot k).len = ((s.core (floeCore f)).slot k).len ∧
    ((t.core (floeCore f)).slot k).fetches = ((s.core (floeCore f)).slot k).fetches ∧ ((t.core (floeCore f)).slot k).bad = [] ∧
      ∀ i < n, (((t.core (floeCore f)).slot k).bytes.getD i 0).toNat = value / 256 ^ i % 256
  slots : ∀ j, j ≠ k → (t.core (floeCore f)).slot j = (s.core (floeCore f)).slot j
  core  : t.core (floeCore f) = { s.core (floeCore f) with slots := (t.core (floeCore f)).slots }

/-- An append of a replayable launch that its log takes, of n bytes that memory holds (R208, R211). -/
structure CanAppend (s : State) (f : Nat) (c : EngCmd) (g : Log) (n value : Nat) : Prop where
  move   : MayMove s f c
  kind   : c.kind = .apnd ∧ c.cls = .copies ∧ c.ctr = none ∧ c.seqNo = none
  log    : c.req.toNat < 4096 ∧ s.logs.get? c.req.toNat = some g ∧ g.asid = s.asidOf (blockOf f)
  taken  : (s.launch (s.block (blockOf f)).launch).replay = true ∧
    (g.stager = none ∨ g.stager = some (s.block (blockOf f)).launch)
  length : n = (c.coords.getD 1 0).toNat ∧ 16 ≤ n ∧ n % 16 = 0
  room   : g.nextOff + 32 + n ≤ g.len ∧ ∀ k < 8, k * 2 ^ 40 < (g.pa + g.nextOff) % 2 ^ 44 + (32 + n) →
    (g.pa + g.nextOff) % 2 ^ 44 < (k + 1) * 2 ^ 40 → s.spare.getD k 0 < 2 ^ 37
  holds  : Holds s 1 (s.asidOf (blockOf f)) (c.coords.getD 0 0).toNat n value
/-- The state after acceptance: the record stands last in its log, staged by the launch, its header and payload as R209 gives them; the log's
next number and offset have moved, and the command is finished. -/
structure Accepted (s : State) (f : Nat) (c : EngCmd) (g : Log) (n value : Nat) (t : State) : Prop where
  rest  : t = { s with floes := t.floes, logs := t.logs }
  floes : ∀ h, h ≠ f → t.floes.get? h = s.floes.get? h
  floe  : t.floe f = { s.floe f with cmds := changed s f c.seq (fun d => { d with seqNo := some g.nextSeq, finished := true }) }
  logs  : ∀ k, k ≠ c.req.toNat → t.logs.get? k = s.logs.get? k
  log   : ∃ r, t.logs.get? c.req.toNat = some { g with
      recs := g.recs ++ [r], nextSeq := g.nextSeq + 1, nextOff := g.nextOff + 32 + n, stager := some (s.block (blockOf f)).launch } ∧
    r.seq = g.nextSeq ∧ r.off = g.nextOff ∧ r.stager = some (s.block (blockOf f)).launch ∧ r.flash = false ∧ r.bytes.length = 32 + n ∧
    ofBytes (r.bytes.take 28) = n + g.nextSeq % 2 ^ 64 * 2 ^ 64 + (s.asidOf (blockOf f)) % 2 ^ 16 * 2 ^ 144 +
      (s.block (blockOf f)).launch % 2 ^ 32 * 2 ^ 160 + (c.coords.getD 2 0).toNat % 2 ^ 32 * 2 ^ 192 ∧
    ofBytes (r.bytes.drop 32) = value ∧
    ofBytes ((r.bytes.drop 28).take 4) = crc32c (r.bytes.take 28 ++ r.bytes.drop 32) % 2 ^ 32

/-- The oldest record of a log that has not reached flash (R210). -/
structure NextDurable (g : Log) (r : LogRec) : Prop where
  split : ∃ before after, g.recs = before ++ r :: after ∧ ∀ x ∈ before, x.flash = true
  fresh : r.flash = false
  seqs  : (g.recs.map (fun x => x.seq)).Nodup

/-- A finished command at the head of its class, without a counter: it leaves its class (R172). -/
structure CanLeave (s : State) (f : Nat) (cls : OpClass) (c : EngCmd) : Prop where
  head  : ∃ before after, (s.floe f).cmds = before ++ c :: after ∧ ∀ d ∈ before, d.cls ≠ cls
  cls   : c.cls = cls ∧ c.ctr = none ∧ c.pausedAt = none
  seqs  : ((s.floe f).cmds.map (fun d => d.seq)).Nodup
  ready : c.finished = true ∨ (c.finished = false ∧ c.guardSt = .discarded ∧ c.kind ≠ .cfetch ∧
    ∀ d ∈ (s.floe f).cmds, d.seq < c.seq → d.finished = true)
  free  : (s.floe f).hold = false
/-- The fetches to a command's slot that are left when it has completed. -/
def otherFetches (s : State) (f : Nat) (c : EngCmd) : List (Nat × Nat) :=
  ((s.core (floeCore f)).slot (fieldN (c.coords.getD 0 0) 0 6)).fetches.filter (fun y => y ≠ (f, c.seq))
/-- The state after a command has left its class: the notify bit where it asks for one, and the slot that a code fetch has written
landed, with its length, unless another fetch to it is left (R187, R265, R355). -/
structure CommandGone (s : State) (f : Nat) (c : EngCmd) (t : State) : Prop where
  rest  : t = { s with floes := t.floes, cores := t.cores }
  floes : ∀ h, h ≠ f → t.floes.get? h = s.floes.get? h
  floe  : t.floe f = { s.floe f with
    cmds := (s.floe f).cmds.filter (fun d => d.seq ≠ c.seq), uipend := if c.notify then (s.floe f).uipend ||| 2 else (s.floe f).uipend }
  cores : ¬(c.kind = .cfetch ∧ c.progress = 1) → t.cores = s.cores
  other : ∀ d, d ≠ floeCore f → t.cores.get? d = s.cores.get? d
  core  : t.core (floeCore f) = { s.core (floeCore f) with slots := (t.core (floeCore f)).slots }
  slots : ∀ j, j ≠ fieldN (c.coords.getD 0 0) 0 6 → (t.core (floeCore f)).slot j = (s.core (floeCore f)).slot j
  lands : c.kind = .cfetch → c.progress = 1 → (t.core (floeCore f)).slot (fieldN (c.coords.getD 0 0) 0 6) =
    { (s.core (floeCore f)).slot (fieldN (c.coords.getD 0 0) 0 6) with
      st := if otherFetches s f c = [] then .landed else .landing, len := (fieldN (c.coords.getD 0 0) 16 11 + 1) * 2
      fetches := otherFetches s f c }

/-! ## The network (R308, R311) -/

/-- A send whose bytes have all gone out to a peer that a route reaches, by a work request that memory holds. -/
structure AllSent (s : State) (f : Nat) (c : EngCmd) (r : BitVec 512) : Prop where
  move   : MayMove s f c
  kind   : c.kind = .send ∧ c.cls = .net ∧ c.ctr = none ∧ c.req.toNat % 64 = 0
  holds  : HasRecord s f c r
  record : fieldN r 320 192 = 0 ∧ fieldN r 3 61 = 0 ∧ fieldN r 0 1 = 0 ∧ fieldN r 128 64 < 2 ^ 56 ∧ fieldN r 80 16 ≤ 4095 ∧
    fieldN r 64 16 ≤ 4095 ∧ 1 ≤ fieldN r 96 32 ∧ fieldN r 96 32 ≤ 2 ^ 30 ∧
    (fieldN r 1 1 = 1 → fieldN r 96 32 % 64 = 0 ∧ fieldN r 192 64 % 64 = 0)
  source : ∀ i < fieldN r 96 32, inAperture ((fieldN r 128 64 + (c.coords.getD 0 0).toNat) % 2 ^ 64 + i) = false
  quiet  : (s.launch (s.block (blockOf f)).launch).replay = false
  peer   : fieldN r 64 16 ≠ s.selfPeer ∧ fieldN r 64 16 ∈ s.routes
  sent   : fieldN r 96 32 ≤ c.progress
/-- The state after the peer has acknowledged: the command finished, its packets gone. -/
structure Acknowledged (s : State) (f : Nat) (c : EngCmd) (r : BitVec 512) (rest : List W64) (t : State) : Prop where
  rest  : t = { s with floes := t.floes, packets := s.packets.filter (fun p => !(p.floe = f && p.seq = c.seq)), peerIn := rest }
  floes : ∀ h, h ≠ f → t.floes.get? h = s.floes.get? h
  floe  : t.floe f = { s.floe f with
    cmds := changed s f c.seq (fun d => { d with notify := decide (fieldN r 2 1 = 1), shape := some r, finished := true }) }
/-- The state after a send has failed: the command finished without its counter, its packets gone, cause 0x10 reported (R179, R311). -/
structure SendFailed (s : State) (f : Nat) (c : EngCmd) (t : State) : Prop where
  rest  : t = { s with floes := t.floes, homeIn := t.homeIn, packets := s.packets.filter (fun p => !(p.floe = f && p.seq = c.seq)) }
  homes : (∀ x r, s.walk (s.asidOf (blockOf f)) c.req.toNat = .ok x r → fieldN x.attr 16 2 ≠ 3) → t.homeIn = s.homeIn
  floes : ∀ h, h ≠ f → t.floes.get? h = s.floes.get? h
  floe  : t.floe f = { s.floe f with
    cmds := changed s f c.seq (fun d => { d with ctr := none, held := [], finished := true })
    reports := (s.floe f).reports ++ [⟨0x10, c.req, 0, 0, 0⟩] }

end Sys2Proof.Claims
end

