-- ==== Sys2Proof/Claims/Lattice.lean ====
section
/-!
DEFINITION. What the rules of the manual say of fences, prefetches and lattice regions (R236, R238, R241 to R250, R375, R415).
-/
namespace Sys2Proof.Claims
open Sys2Proof.Machine

/-! ## Fences (R375) -/

/-- A fence that finds its older operations done: logical time ticks, and an acquire or full fence at package or system scope moves the
floor. -/
def fenceRule (s : State) : Instr → Option (Floe → Floe)
  | .fenceFull x => some (if 3 ≤ x.toNat then withFloor s s.cur.floe id else id)
  | .fenceAcq x => some (if 3 ≤ x.toNat then withFloor s s.cur.floe id else id)
  | .fenceRel _ => some id
  | _ => none
/-- A fence with older operations left: an acquire or full fence opens its window (R237), with nothing to put back yet but the fragments and
`STOCHCTR` as they stand behind it (R238); a release fence holds the floe's later writes. -/
structure FenceOpens (s : State) (full : Bool) (x : BitVec 3) (t : State) : Prop where
  own   : OnlyFloe s s.cur.floe t
  floe  : t.fl = { s.fl with fence := t.fl.fence, frags := t.fl.frags, st := t.fl.st, readyAt := t.fl.readyAt }
  fence : ∃ w, t.fl.fence = some w ∧ w.full = full ∧ w.scope = x.toNat ∧ w.before = s.fl.opSeq ∧ w.open_ = true ∧ w.count = 0 ∧
    w.lines = [] ∧ w.touched = [] ∧ w.saved = ⟨[], [], [], [], t.fl.frags, s.fl.stoch⟩
  goes  : Undivided s → t.fg.pc = behind s 4
/-- An operation has a lane to perform. -/
def undone (o : MemOp) : Prop := ∃ a ∈ o.lanes, a.done = false
/-- An acquire or full fence of floe f whose older operations are done, with no line recorded in its window. -/
structure FenceReady (s : State) (f : Nat) (w : Fence) : Prop where
  fence : (s.floe f).fence = some w ∧ w.lines = [] ∧ (s.floe f).rels = []
  done  : ∀ o ∈ (s.floe f).ops, o.seq < w.before → (w.full = true ∨ o.cls = .loads) → ¬ undone o

/-! ## Prefetch (R415) -/

/-- A lane of a prefetch that does nothing: a check stands against its address, its page is not to be cached, or the core's own copy of its
line still serves. -/
def prefetchIdle (s : State) (va : Nat) : Prop :=
  2 ^ 56 ≤ va ∨ inAperture va = true ∨
  ∃ x, s.cr.held s.asid va = some x ∧
    (bitN x.attr 1 = false ∨ fieldN x.attr 48 4 ≠ 0 ∨ fieldN x.attr 16 2 = 3 ∨
     (fieldN x.attr 16 2 ≤ 1 ∧ bitN x.attr 46 = true) ∨
     (fieldN x.attr 16 2 ≤ 1 ∧ paTier (x.pa + (va - x.va)) ≤ 1 ∧ ∃ y, Hit s s.cur.floe ((x.pa + (va - x.va)) / 128) (fieldN x.attr 52 12) y))
/-- The state after a prefetch that has nothing to do: the index queue popped, the fragment behind the instruction. -/
structure Prefetched (s : State) (m : BitVec 6) (t : State) : Prop where
  own    : OnlyOwn s t
  block  : t.blk = { s.blk with qents := t.blk.qents }
  queues : ∀ l ∈ s.lanes, ∀ q < 16, t.blk.qent (s.thread l) q = popped s (index m) l q
  floe   : t.fl = { s.fl with frags := t.fl.frags, st := t.fl.st, readyAt := t.fl.readyAt }
  goes   : Undivided s → t.fg.pc = behind s 4

/-! ## Lattice types (R241) -/

/-- The key by which MAXF32 orders: the complement of a negative pattern, a positive one with its sign bit set. -/
def floatKey (x : Nat) : Nat := if 2 ^ 31 ≤ x then 2 ^ 32 - 1 - x else x + 2 ^ 31
/-- The order a ≤ b of a lattice type on the values of cells, below 2^32, or below 2^64 for type 7. -/
def latticeLe (type a b : Nat) : Prop :=
  match type with
  | 2 => b ≤ a
  | 3 => (BitVec.ofNat 32 a).toInt ≤ (BitVec.ofNat 32 b).toInt
  | 4 => floatKey a ≤ floatKey b
  | 5 => ∀ i < 32, a.testBit i = true → b.testBit i = true
  | 7 => a / 2 ^ 32 < b / 2 ^ 32 ∨ (a / 2 ^ 32 = b / 2 ^ 32 ∧ a % 2 ^ 32 ≤ b % 2 ^ 32)
  | _ => a ≤ b
/-- The bytes of a cell. -/
def cellBytes (type : Nat) : Nat := if type = 7 then 8 else 4
/-- The value of a cell of a replica line: its bytes, or for GCOUNT the base and the four slots, saturated. -/
def cellValue (r : Replica) (off : Nat) : Nat :=
  if r.ltype = 6 then
    min (lineValue r.data off 4 + ((r.slots.getD off 0).toNat + (r.slots.getD (off + 1) 0).toNat + (r.slots.getD (off + 2) 0).toNat +
      (r.slots.getD (off + 3) 0).toNat)) (2 ^ 32 - 1)
  else lineValue r.data off (cellBytes r.ltype)

/-- A lane's address by a held translation falls in a cell of a lattice region whose line the die's replica holds, without poison. -/
structure InCell (s : State) (va size : Nat) (needs : Nat) (pa : Nat) (r : Replica) : Prop where
  space   : va < 2 ^ 56 ∧ inAperture va = false ∧ va % size = 0 ∧ pa % size = 0
  held    : ∃ x, s.cr.held s.asid va = some x ∧ bitN x.attr needs = true ∧ fieldN x.attr 48 4 = r.ltype ∧ fieldN x.attr 16 2 ≤ 1 ∧
    pa = x.pa + (va - x.va)
  type    : 1 ≤ r.ltype ∧ r.ltype ≤ 7 ∧ size = cellBytes r.ltype ∧ r.poison = 0
  replica : (s.launch s.blk.launch).replicas.get? (replicaKey (dieOfCore (floeCore s.cur.floe)) (pa / 128)) = some r

/-! ## LLDT (R248, R249) -/

/-- The operands of a threshold read of which no lane has been performed yet: per lane its cell, and that no threshold is a NaN of MAXF32. -/
structure CanRead (s : State) (z : BitVec 1) (m b d : BitVec 6) (cell : Nat → Nat × Replica) : Prop where
  operands : CanRun s { srcs := index m ++ [VGroup.ofCount d (if z = 1 then 2 else 1)], dsts := [VGroup.ofCount d (if z = 1 then 2 else 1)] }
  plain    : s.portsOf [VGroup.ofCount d (if z = 1 then 2 else 1)] = []
  fresh    : s.fg.left = none
  quiet    : noReads s ∧ ∀ o ∈ s.fl.ops, o.acquire = false ∧ (o.kind = .join → ∀ a ∈ o.lanes, a.done = true)
  cells    : ∀ l ∈ s.lanes, InCell s (address s (if z = 1 then 3 else 2) m b l).toNat (if z = 1 then 8 else 4) 1 (cell l).1 (cell l).2
  numbers  : ∀ l ∈ s.lanes, (cell l).2.ltype = 4 → (val32 (s.V d.toNat l).toNat).isNan = false
/-- A lane's threshold, and whether its cell passes it. -/
def threshold (s : State) (z : BitVec 1) (d : BitVec 6) (l : Nat) : Nat := if z = 1 then (s.V64 d.toNat l).toNat else (s.V d.toNat l).toNat
def passes (s : State) (z : BitVec 1) (d : BitVec 6) (cell : Nat → Nat × Replica) (l : Nat) : Prop :=
  latticeLe (cell l).2.ltype (threshold s z d l) (cellValue (cell l).2 ((cell l).1 % 128))
/-- The state after a threshold read: each lane's register or pair holds its cell's value; where `polled`, p6 tells whether it passes;
where every lane has passed, logical time has ticked and the floor moved (R250). Where a fence's window is open, a discard leaves what has
been read (R238). -/
structure CellsRead (s : State) (z : BitVec 1) (m d : BitVec 6) (cell : Nat → Nat × Replica) (polled acquires : Bool) (t : State) : Prop where
  rest   : t = { s with floes := t.floes, blocks := t.blocks, cores := t.cores }
  floes  : ∀ g, g ≠ s.cur.floe → t.floes.get? g = s.floes.get? g
  blocks : ∀ k, k ≠ blockOf s.cur.floe → t.blocks.get? k = s.blocks.get? k
  core   : ∀ c, t.core c = if c = floeCore s.cur.floe ∧ acquires = true then timed (s.core c) ((s.core c).ctime + 1) else s.core c
  regs   : ∀ l ∈ s.lanes, t.blk.reg (s.thread l) (s.absReg d.toNat) = BitVec.ofNat 32 (cellValue (cell l).2 ((cell l).1 % 128)) ∧
    (z = 1 → t.blk.reg (s.thread l) (s.absReg (d.toNat + 1)) = BitVec.ofNat 32 (cellValue (cell l).2 ((cell l).1 % 128) / 2 ^ 32))
  others : ∀ n, (∀ l ∈ s.lanes, n ≠ s.blk.regIdx (s.thread l) (s.absReg d.toNat) ∧
      (z = 1 → n ≠ s.blk.regIdx (s.thread l) (s.absReg (d.toNat + 1)))) →
    t.blk.vregs.getD n 0 = s.blk.vregs.getD n 0 ∧ (n ∈ t.blk.badRegs ↔ n ∈ s.blk.badRegs)
  queues : ∀ l ∈ s.lanes, ∀ q < 16, t.blk.qent (s.thread l) q = popped s (index m) l q
  preds  : polled = true → ∀ l ∈ s.lanes, (t.blk.pred (s.thread l) 6 = true ↔ passes s z d cell l)
  otherPreds : ∀ x k, k < 8 → (polled = false ∨ k ≠ 6 ∨ ∀ l ∈ s.lanes, x ≠ s.thread l) → t.blk.pred x k = s.blk.pred x k
  block  : t.blk = { s.blk with vregs := t.blk.vregs, badRegs := t.blk.badRegs, qents := t.blk.qents, preds := t.blk.preds }
  floe   : t.fl = { s.fl with floor := if acquires then s.cr.ctime + 1 else s.fl.floor
                              fence := t.fl.fence, frags := t.fl.frags, st := t.fl.st, readyAt := t.fl.readyAt }
  fence  : FenceKept s.fl t.fl
  goes   : Undivided s → t.fg.pc = behind s 4

/-! ## LJOIN.STRICT (R247) -/

/-- A strict join of one active lane whose operand the cell's value precedes, or whose increment the slot takes. -/
structure CanJoin (s : State) (z : BitVec 1) (m b d : BitVec 6) (l pa : Nat) (r : Replica) : Prop where
  lane     : s.lanes = [l]
  operands : CanRun s { srcs := index m ++ [VGroup.ofCount d (if z = 1 then 2 else 1)] }
  order    : allDone s ∧ s.fl.counter .stores < 63 ∧ noReads s ∧ ∀ o ∈ s.fl.ops, o.acquire = false
  cell     : InCell s (address s (if z = 1 then 3 else 2) m b l).toNat (if z = 1 then 8 else 4) 2 pa r
  number   : r.ltype = 4 → (val32 (s.V d.toNat l).toNat).isNan = false
  above    : if r.ltype = 6 then (r.slots.getD (pa % 128 + dieOfCore (floeCore s.cur.floe)) 0).toNat + threshold s z d l < 2 ^ 32
             else latticeLe r.ltype (cellValue r (pa % 128)) (threshold s z d l)
/-- The state after it: the cell holds the operand, or the die's slot the sum; every other cell, replica and launch, every register and all
of memory is as before. -/
structure Joined (s : State) (z : BitVec 1) (d : BitVec 6) (l pa : Nat) (r : Replica) (t : State) : Prop where
  rest    : t = { s with floes := t.floes, blocks := t.blocks, launches := t.launches }
  floes   : ∀ g, g ≠ s.cur.floe → t.floes.get? g = s.floes.get? g
  floe    : t.fl = { s.fl with frags := t.fl.frags, st := t.fl.st, readyAt := t.fl.readyAt }
  block   : t.blk = { s.blk with qents := t.blk.qents }
  others  : ∀ k, k ≠ s.blk.launch → t.launches.get? k = s.launches.get? k
  launch  : t.launch s.blk.launch = { s.launch s.blk.launch with replicas := (t.launch s.blk.launch).replicas }
  lines   : ∀ k, k ≠ replicaKey (dieOfCore (floeCore s.cur.floe)) (pa / 128) →
    (t.launch s.blk.launch).replicas.get? k = (s.launch s.blk.launch).replicas.get? k
  cell    : ∃ y, (t.launch s.blk.launch).replicas.get? (replicaKey (dieOfCore (floeCore s.cur.floe)) (pa / 128)) = some y ∧
    y.ltype = r.ltype ∧
    (r.ltype ≠ 6 → y.slots = r.slots ∧ lineValue y.data (pa % 128) (cellBytes r.ltype) = threshold s z d l ∧
      ∀ i < 128, (i < pa % 128 ∨ pa % 128 + cellBytes r.ltype ≤ i) → Line.byte y.data i = Line.byte r.data i) ∧
    (r.ltype = 6 → y.data = r.data ∧ ∀ k, (y.slots.getD k 0).toNat =
      (r.slots.getD k 0).toNat + if k = pa % 128 + dieOfCore (floeCore s.cur.floe) then threshold s z d l else 0)
  goes    : Undivided s → t.fg.pc = behind s 4

end Sys2Proof.Claims
end

