-- ==== Sys2Proof/Claims/Host.lean ====
section
/-!
DEFINITION. What the rules of the manual say of the host die: its harts, the submission pages, the boot, external hosts, and a loss of power
(R212, R299, R301, R306, R312 to R314).
-/
namespace Sys2Proof.Claims
open Sys2Proof.Machine

/-- A step that comes about: the conditions under which it has its effect, and what holds after it. -/
structure Event where
  when : Prop
  next : State → Prop

/-! ## Memory as the host reaches it -/

/-- A line stands in memory alone: no agent holds it, no open log lies over it, none of its words is poisoned, no frame migrates, none is
armed for a snapshot, and it lies in no lattice region that a launch accesses. -/
structure AtHome (s : State) (ln : Nat) : Prop where
  alone   : ∀ d < 13, (s.die d).stack.get? ln = none
  unlogged : ∀ g ∈ s.logs, g.2.pa + g.2.len ≤ ln * 128 ∨ ln * 128 + 128 ≤ g.2.pa
  clean   : ∀ i < 32, ln * 32 + i ∉ s.badWords
  still   : s.migrations = []
  unarmed : ∀ l, (s.launch l).armed = false
  plain   : ∀ l ∈ s.launches, s.accesses l.2 ln = false
/-- n bytes of memory from an address hold a number, and every other byte is as before. -/
def Written (s : State) (pa n value : Nat) (t : State) : Prop :=
  ∀ a, t.memByte a = if pa ≤ a ∧ a < pa + n then BitVec.ofNat 8 (value / 256 ^ (a - pa)) else s.memByte a

/-- The coherence agent of a host hart: its cluster (R12, R14). -/
def clusterOf (h : Nat) : Nat := 4 + h / 8
/-- The host clusters' lines leave a cluster room for one more (R12: 128 MiB in all). -/
def clusterRoom (s : State) (a : Nat) : Prop :=
  (s.die a).stack.length + (((List.range 8).filter (fun i => 4 + i ≠ a)).map (fun i => (s.die (4 + i)).stack.length)).sum < 1048576
/-- A host hart reaches n bytes of one line that stands in memory alone, its cluster having room for it. -/
structure HartReaches (s : State) (h pa n : Nat) : Prop where
  hart   : h < 64
  room   : clusterRoom s (clusterOf h)
  inLine : 0 < n ∧ pa % 128 + n ≤ 128
  home   : AtHome s (pa / 128)
/-- Of the caches, only a host hart's cluster and one line have changed: it holds the line now. -/
structure HartFilled (s : State) (h ln : Nat) (t : State) : Prop where
  rest   : t = { s with harts := t.harts, subq := t.subq, mgmt := t.mgmt, dies := t.dies, dir := t.dir }
  dies   : ∀ k, k ≠ clusterOf h → t.dies.get? k = s.dies.get? k
  die    : t.die (clusterOf h) = { s.die (clusterOf h) with stack := (t.die (clusterOf h)).stack, stime := (t.die (clusterOf h)).stime }
  lines  : ∀ n, n ≠ ln → (t.die (clusterOf h)).stack.get? n = (s.die (clusterOf h)).stack.get? n
/-- The line as a read brings it: memory's bytes, neither owned nor dirty (R223). -/
def ReadIn (s : State) (h ln : Nat) (t : State) : Prop :=
  HartFilled s h ln t ∧ ∃ y, (t.die (clusterOf h)).stack.get? ln = some y ∧ y.owned = false ∧ y.dirty = false ∧ y.poison = 0 ∧
    ∀ i < 128, Line.byte y.data i = s.memByte (ln * 128 + i)
/-- The line as a write of n bytes leaves it: owned and dirty, memory's bytes but those written (R227, R228). -/
def WrittenIn (s : State) (h pa n value : Nat) (t : State) : Prop :=
  HartFilled s h (pa / 128) t ∧ ∃ y, (t.die (clusterOf h)).stack.get? (pa / 128) = some y ∧ y.owned = true ∧ y.dirty = true ∧ y.poison = 0 ∧
    ∀ i < 128, Line.byte y.data i =
      if pa % 128 ≤ i ∧ i < pa % 128 + n then BitVec.ofNat 8 (value / 256 ^ (i - pa % 128)) else s.memByte (pa / 128 * 128 + i)

/-- The state after a hart's instruction: its program counter behind the word, register d (but x0) at a value, its other registers and
every other hart as before. -/
structure HartDone (s : State) (h d : Nat) (v : W64) (t : State) : Prop where
  hart   : t.hart h = { s.hart h with x := (t.hart h).x, pc := (s.hart h).pc + 4 }
  regs   : ∀ r, (t.hart h).x.getD r 0 = if r = d ∧ d ≠ 0 then v else (s.hart h).x.getD r 0
  others : ∀ g, g ≠ h → t.harts.get? g = s.harts.get? g
/-- A hart's registers after a change to its own state only. -/
structure HartNow (s : State) (h : Nat) (x : Hart) (t : State) : Prop where
  rest   : t = { s with harts := t.harts }
  hart   : t.hart h = x
  others : ∀ g, g ≠ h → t.harts.get? g = s.harts.get? g

/-! ## ksubmit (R299) -/

/-- Integer register r of a hart. -/
def xreg (s : State) (h r : Nat) : Nat := ((s.hart h).x.getD r 0).toNat
/-- The base of the device space (R313). -/
def deviceBase (s : State) : Nat := s.boot.toNat / 2 ^ 576 % 2 ^ 64
/-- A `ksubmit` whose addresses pass: slot `slot` of page `page` of the device space, and an aligned descriptor `value` in memory. -/
structure CanSubmit (s : State) (a b page slot value : Nat) : Prop where
  reach  : HartReaches s s.cur.hart b 128
  base   : deviceBase s % 4096 = 0
  place  : a = deviceBase s + page * 4096 + slot * 128 ∧ page ≤ 32 ∧ slot < 32
  source : b % 128 = 0 ∧ paOk b = true ∧ value = memNumber s b 128
/-- The queue of a slot of a submission page (R298). -/
def queueAt (s : State) (page slot : Nat) : SubQueue := s.subq.getD ((page - 1) * 32 + slot) SubQueue.reset
/-- The code of a retry: 3 for a queue that is not bound, 2 for one suspended, 1 for a full one. -/
inductive RetryCode (q : SubQueue) : Nat → Prop where
  | unbound : q.asid = none → RetryCode q 3
  | suspended : q.asid ≠ none → q.suspended = true → RetryCode q 2
  | full : q.asid ≠ none → q.suspended = false → q.depth ≤ q.items.length → RetryCode q 1
/-- A queue that takes a descriptor. -/
def takes_ (q : SubQueue) : Prop := q.asid ≠ none ∧ q.suspended = false ∧ q.items.length < q.depth
/-- The state after an accepted descriptor from an address: it stands last in its queue, whose sequence number has risen by one and is the
result. -/
structure Submitted_ (s : State) (h d b page slot value : Nat) (t : State) : Prop where
  rest  : t = { s with harts := t.harts, subq := t.subq, dies := t.dies, dir := t.dir }
  read  : ReadIn s h (b / 128) t
  done  : HartDone s h d (((queueAt s page slot).seq + 1).setWidth 64) t
  queue : queueAt t page slot = { queueAt s page slot with
    seq := (queueAt s page slot).seq + 1, items := (queueAt s page slot).items ++ [BitVec.ofNat 1024 value] }
  other : ∀ q, q ≠ (page - 1) * 32 + slot → t.subq.get? q = s.subq.get? q
/-- The state after a retry: bit 63 and the code in rd, the descriptor's line read, and nothing else. -/
structure Retried (s : State) (h d b code : Nat) (t : State) : Prop where
  rest : t = { s with harts := t.harts, dies := t.dies, dir := t.dir }
  read : ReadIn s h (b / 128) t
  done : HartDone s h d (BitVec.ofNat 64 (2 ^ 63 + code)) t

/-! ## Completion interrupts (R300, R301) -/

/-- The receiver that a hart is bound to has its pending word at an address, in a line that stands in memory. -/
structure Receiver (s : State) (h e : Nat) : Prop where
  bound : (s.hart h).kuirecv.getLsbD 12 = true
  place : e = s.boot.toNat / 2 ^ 448 % 2 ^ 64 + (s.hart h).kuirecv.toNat % 2 ^ 12 * 16 ∧ e % 16 = 0
  reach : HartReaches s h e 8
/-- What a CSR access leaves of an old value. -/
def csrResult (op : CsrOp) (old v : W64) : W64 :=
  match op with
  | .write => v
  | .setBits => old ||| v
  | .clearBits => old &&& ~~~v
/-- The state after an access to `kuipend` through a bound receiver. -/
structure Pended (s : State) (h d e : Nat) (op : CsrOp) (v : W64) (t : State) : Prop where
  rest : t = { s with harts := t.harts, dies := t.dies, dir := t.dir }
  done : HartDone s h d (BitVec.ofNat 64 (memNumber s e 8)) t
  word : WrittenIn s h e 8 (csrResult op (BitVec.ofNat 64 (memNumber s e 8)) v).toNat t
/-- A write of a CSR of R301 that holds its own state, in the mode that may write it. -/
def csrRule (s : State) (h : Nat) (csr : BitVec 12) (v : W64) : Option Hart :=
  let x := s.hart h
  if csr = 0x5C0 then (if x.user then none else some { x with kuirecv := v.setWidth 13, pc := x.pc + 4 })
  else if csr = 0x8C1 then some { x with kuien := v.getLsbD 0, pc := x.pc + 4 }
  else if csr = 0x8C2 then some { x with kuivec := v &&& 0xFFFFFFFFFFFFFFFC, pc := x.pc + 4 }
  else if csr = 0x8C3 then some { x with kuiepc := v, pc := x.pc + 4 }
  else none
/-- A hart of the host die at an instruction boundary with no completion interrupt due, so that its own instruction is executed (R12, R301). -/
def Boundary (s : State) (h : Nat) : Prop := h < 64 ∧ s.hostUiDue h = false
/-- A hart that takes a completion interrupt: U-mode, enabled, with a pending bit. -/
structure Interrupts (s : State) (h e : Nat) : Prop where
  mode    : (s.hart h).user = true ∧ (s.hart h).kuien = true
  bound   : Receiver s h e
  pending : memNumber s e 8 ≠ 0

/-- A hart after the entry of a completion interrupt (R301). -/
def uiEntered (x : Hart) : Hart := { x with kuiepc := x.pc, kuien := false, pc := x.kuivec }
/-- An instruction of a hart, given as an event with its operands. -/
inductive HartOwn (h : Nat) : Instr → Prop
  | pending (d : BitVec 5) (op : CsrOp) (v : W64) : HartOwn h (.kuipendAccess h d op v)
  | register (csr : BitVec 12) (v : W64) : HartOwn h (.registerWrite h csr v)
  | access (acc : HostAcc) (pa n : Nat) (d : BitVec 5) (v : W64) : HartOwn h (.hostCoreAccess h acc pa n d v)

/-! ## Accesses of host cores (R277, R284, R306) -/

/-- The operation of an atomic access. -/
def amoOp : HostAcc → Option AtomOp
  | .load => none
  | .store => none
  | .amoAdd => some .add
  | .amoSwap => some .exch
  | .amoAnd => some .and
  | .amoOr => some .or
  | .amoXor => some .xor
  | .amoMin => some .mins
  | .amoMax => some .maxs
  | .amoMinu => some .minu
  | .amoMaxu => some .maxu
/-- What an access of n bytes leaves in memory over an old value; none for a load. -/
def hostLeaves (acc : HostAcc) (n old x : Nat) : Option Nat :=
  if acc = .store then some (x % 256 ^ n)
  else (amoOp acc).map (fun op => (atomicResult op (BitVec.ofNat (8 * n) old) (BitVec.ofNat (8 * n) x) 0).toNat)
/-- An access of a host core that its rules allow: 1, 2, 4 or 8 bytes of one line in memory, an atomic of 4 or 8 aligned ones, and no write
to tier 2. -/
structure HostMay (s : State) (h : Nat) (acc : HostAcc) (pa n : Nat) : Prop where
  size   : n = 1 ∨ n = 2 ∨ n = 4 ∨ n = 8
  atomic : acc ≠ .load → acc ≠ .store → 4 ≤ n ∧ pa % n = 0
  place  : paOk pa = true ∧ paOk (pa + n - 1) = true ∧ pa % 128 + n ≤ 128
  tier   : acc ≠ .load → paTier pa ≠ 2
  reach  : HartReaches s h pa n
/-- The state after it: a load or an atomic returns the old value, zero-extended, and a store or an atomic has written its bytes in the
cluster's line. -/
structure HostAccessed (s : State) (h : Nat) (acc : HostAcc) (pa n d : Nat) (v : W64) (t : State) : Prop where
  rest : t = { s with harts := t.harts, dies := t.dies, dir := t.dir }
  done : HartDone s h (if acc = .store then 0 else d) (BitVec.ofNat 64 (memNumber s pa n)) t
  mem  : match hostLeaves acc n (memNumber s pa n) v.toNat with
    | some w => WrittenIn s h pa n w t
    | none => ReadIn s h (pa / 128) t

/-! ## External hosts (R312) -/

/-- An external host behind an endpoint port writes a descriptor into the management page's slot 0. -/
structure ExternalRecord (s : State) (port : Nat) (bs : List Byte) : Prop where
  port   : s.boot.toNat / 2 ^ 2 % 4 / 2 ^ port % 2 = 1
  length : bs.length = 128

/-! ## Boot, loss of power (R212, R313, R314) -/

/-- Bits of the boot record from bit `lo`. -/
def bootField (s : State) (lo n : Nat) : Nat := s.boot.toNat / 2 ^ lo % 2 ^ n
/-- A physical address of a frame. -/
def framePa (pa : Nat) : Prop := paOk pa = true ∧ pa % 2 ^ 16 = 0
/-- A boot record that R313 accepts, with a drift control word that R251 accepts. -/
structure GoodBoot (s : State) : Prop where
  reserved : bootField s 640 384 = 0 ∧ bootField s 4 60 = 0 ∧ bootField s 416 32 = 0
  pcie     : bootField s 2 2 ≠ 3
  devspace : bootField s 576 64 % 2 ^ 18 = 0
  frames   : framePa (bootField s 512 64) ∧ framePa (bootField s 448 64) ∧ framePa (bootField s 256 64) ∧ framePa (bootField s 64 64)
  lengths  : bootField s 320 64 % 2 ^ 16 = 0 ∧ bootField s 192 64 % 2 ^ 16 = 0
  pool     : paOk (bootField s 128 64) = true ∧ paTier (bootField s 128 64) ≤ 1
  drift    : bootField s 384 32 < 2 ^ 12 ∧ bootField s 384 32 % 4 ≠ 3
/-- The state after a boot: the key slots loaded (R215), the drift control word as the record has it, submission queues empty and unbound,
islands at their nominal points, no host hart with a past, no frame of the moraine list in the free pool. -/
structure Booted (s : State) (t : State) : Prop where
  rest    : t = { s with booted := true, bootBad := false, keysLoaded := true, drift := t.drift, subq := [], mgmt := []
                         islands := t.islands, harts := [], freePool := t.freePool }
  pool    : ∀ fr, fr ∈ t.freePool ↔ fr ∈ s.freePool ∧ ∀ e ∈ s.moraine, ¬(fieldN e 16 30 ≤ fr ∧ fr < fieldN e 16 30 + fieldN e 48 16)
  drift   : t.drift.toNat = bootField s 384 32
  islands : ∀ i x, t.islands.get? i = some x → x.offset = 0 ∧ x.freq = 100 ∧ x.cut = 0 ∧ x.fixed = none
/-- The state after a loss of power with no log open: memory of tiers 0 and 1, and everything resident, is gone; the firn's bytes, the
moraine list as its second copy has it and the ageing log remain, and the package boots again. -/
structure PowerLost (s : State) (t : State) : Prop where
  memory  : ∀ a, t.mem.getD a 0 = if paTier a = 2 then s.mem.getD a 0 else 0
  records : t.moraine = s.moraine2 ∧ t.moraine2 = s.moraine2 ∧ t.ageing = s.ageing ∧ t.boot = s.boot ∧ t.spare = s.spare
  gone    : t.floes = [] ∧ t.blocks = [] ∧ t.cores = [] ∧ t.dies = [] ∧ t.launches = [] ∧ t.subq = [] ∧ t.mgmt = [] ∧ t.harts = [] ∧
    t.windows = [] ∧ t.images = [] ∧ t.snapshots = [] ∧ t.migrations = []
  boots   : t.booted = false ∧ t.bootBad = false ∧ t.keysLoaded = false ∧ t.freePool = []

/-! ## The steps with operands -/

/-- The steps of the host die that carry operands: when they have their effect, and what it is. -/
def hostRule (s : State) : Instr → Option Event
  | .kuipendAccess h d op v => some
      { when := Boundary s h ∧ ∃ e, Receiver s h e
        next := fun t => ∀ e, Receiver s h e → Pended s h d.toNat e op v t }
  | .registerWrite h csr v => some
      { when := Boundary s h ∧ csrRule s h csr v ≠ none
        next := fun t => ∀ x, csrRule s h csr v = some x → HartNow s h x t }
  | .hostUiEntry h => some
      { when := ∃ e, Interrupts s h e
        next := HartNow s h (uiEntered (s.hart h)) }
  | .hostCoreAccess h acc pa n d v => some
      { when := Boundary s h ∧ HostMay s h acc pa n
        next := HostAccessed s h acc pa n d.toNat v }
  | .externalHostAccess port (.submit 0 0 bs) => some
      { when := ExternalRecord s port bs
        next := fun t => t = { s with mgmt := s.mgmt ++ [BitVec.ofNat 1024 (ofBytes bs)] } }
  | .externalHostAccess _ (.readMem _ _) => some { when := True, next := fun t => t = s }
  | _ => none

end Sys2Proof.Claims
end

