-- ==== Sys2Proof/Claims/Launches.lean ====
section
/-!
DEFINITION. What the rules of the manual say of the command processors and the schedulers: descriptors, placement, the end of blocks and
launches, active sets, timers (R26 to R36, R48, R168 to R170, R258, R265, R275).
-/
namespace Sys2Proof.Claims
open Sys2Proof.Machine

/-! ## Descriptors (R29, R31, R36, R298) -/

/-- Field [lo + n − 1 : lo] of a descriptor. -/
def dfield (d : BitVec 1024) (lo n : Nat) : Nat := d.toNat / 2 ^ lo % 2 ^ n
/-- A die that a descriptor names, in service, with a cluster mapped (R15, R29, R276). -/
def usable (s : State) (d : BitVec 1024) (i : Nat) : Prop := i < 4 ∧ dfield d 469 4 / 2 ^ i % 2 = 1 ∧ (s.die i).inLink = true ∧ (s.die i).map ≠ []
/-- The die whose command processor serves a descriptor: the first of them (log entry 52). -/
def Leads (s : State) (d : BitVec 1024) (i : Nat) : Prop := usable s d i ∧ ∀ j < i, ¬ usable s d j
/-- A descriptor that R31 accepts: reserved fields zero, every field in its values, addresses aligned, maxsplit not above width, a named die
in service that maps a cluster. -/
structure GoodDescriptor (s : State) (d : BitVec 1024) : Prop where
  reserved : dfield d 640 384 = 0 ∧ dfield d 512 32 = 0 ∧ dfield d 448 10 = 0 ∧ dfield d 384 1 = 0 ∧ dfield d 376 8 = 0 ∧
    dfield d 312 8 = 0 ∧ dfield d 248 8 = 0 ∧ dfield d 184 8 = 0 ∧ dfield d 120 8 = 0 ∧ dfield d 58 6 = 0
  kind     : dfield d 56 2 ≠ 3 ∧ (dfield d 56 2 = 1 → dfield d 416 32 ≤ 384 ∧ dfield d 460 1 = 0)
  values   : dfield d 500 12 ≤ 2048 ∧ dfield d 489 11 ≤ 1024 ∧ dfield d 475 2 ≤ dfield d 477 2 ∧
    1 ≤ dfield d 416 32 ∧ dfield d 416 32 ≤ 2 ^ 31 ∧ dfield d 391 9 ≤ 256 ∧ dfield d 385 6 ≤ 48
  aligned  : dfield d 320 56 % 64 = 0 ∧ dfield d 256 56 % 16 = 0 ∧ dfield d 192 56 % 64 = 0 ∧ dfield d 64 56 % 8 = 0 ∧
    dfield d 0 56 % 4096 = 0
  dies     : ∃ i, usable s d i
/-- The oldest descriptor of a submission queue, of the queue's address space (R298). -/
structure Oldest (s : State) (q : Nat) (d : BitVec 1024) (rest : List (BitVec 1024)) : Prop where
  head : (s.subq.getD q SubQueue.reset).items = d :: rest
  asid : (s.subq.getD q SubQueue.reset).asid = some (dfield d 400 16)
/-- The state after a descriptor has left its queue. -/
def unqueued (s : State) (q : Nat) (rest : List (BitVec 1024)) : State :=
  { s with subq := s.subq.put q { s.subq.getD q SubQueue.reset with items := rest } }

/-- The bytes of a block's registers, and of its scratchpad, each rounded up to 32 KiB (R33 *Rb*, *Sb*). -/
def regBytes (d : BitVec 1024) : Nat :=
  ((dfield d 484 5 + 1) * (16 * 2 ^ dfield d 477 2) * ((dfield d 479 5 + 1) * 8) * 4 + 32767) / 32768 * 32768
def spadBytes (d : BitVec 1024) : Nat := (dfield d 500 12 * 1024 + 32767) / 32768 * 32768
/-- A core has room for k blocks of a descriptor: slots, registers, and both allocations beside 512 KiB of L1 (R33). -/
structure Fits (d : BitVec 1024) (k : Nat) : Prop where
  most  : k ≤ 16
  slots : k * ((dfield d 484 5 + 1) * (16 * 2 ^ dfield d 477 2) / (16 * 2 ^ dfield d 475 2)) ≤ 256
  regs  : k * regBytes d ≤ 4096 * 1024
  store : k * (regBytes d + spadBytes d) + 512 * 1024 ≤ 6144 * 1024
/-- The mapped cores of the dies that a descriptor names hold all its blocks at once (R35). -/
def FitsAll (s : State) (d : BitVec 1024) : Prop :=
  ∃ (k : Nat) (ds : List Nat), Fits d k ∧ ds.Nodup ∧ (∀ i ∈ ds, usable s d i) ∧ dfield d 416 32 ≤ k * (ds.map (fun i => (s.die i).map.length * 8)).sum
/-- n bytes from index k, as a number, lowest byte first (R4). -/
def number (b : Nat → Byte) (k : Nat) : Nat → Nat
  | 0 => 0
  | n + 1 => (b k).toNat + 256 * number b (k + 1) n
/-- Memory holds the n bytes from a virtual address, line by line. -/
def HoldsRun (s : State) (right asid va n : Nat) (b : Nat → Byte) : Prop :=
  ∀ c ∈ chunksOf va n, Holds s right asid c.1 c.2 (number b (c.1 - va) c.2)
/-- What acceptance reads: the bytes of the entry segment, of the parameter block and of the cohort table. -/
structure Reading where
  code    : Nat → Byte
  params  : Nat → Byte
  cohorts : Nat → Byte
/-- Entry i of a cohort table (R28). -/
def Reading.entry (x : Reading) (i : Nat) : Nat := number x.cohorts (64 * i) 64
/-- A cohort entry names a block: it is valid, and the block is first + i * stride for an i below count (R28). -/
def names (e id : Nat) : Prop := e % 2 = 1 ∧ ∃ i < e / 2 ^ 64 % 2 ^ 32, id = e / 2 ^ 32 % 2 ^ 32 + i * (e / 2 ^ 96 % 2 ^ 32)
/-- A cohort table that R28 accepts: reserved bits zero, strides and counts in their values, every member in the grid, and no block in more
than four cohorts. -/
structure GoodCohorts (d : BitVec 1024) (x : Reading) : Prop where
  reserved : ∀ i < dfield d 391 9, x.entry i / 2 ^ 128 = 0 ∧ x.entry i / 2 % 2 ^ 31 = 0
  values   : ∀ i < dfield d 391 9, x.entry i % 2 = 1 → 1 ≤ x.entry i / 2 ^ 96 % 2 ^ 32 ∧ x.entry i / 2 ^ 96 % 2 ^ 32 ≤ 2 ^ 31 ∧
    1 ≤ x.entry i / 2 ^ 64 % 2 ^ 32 ∧ x.entry i / 2 ^ 64 % 2 ^ 32 ≤ dfield d 416 32
  members  : ∀ i < dfield d 391 9, ∀ id, names (x.entry i) id → id < dfield d 416 32
  four     : ∀ id, ∀ js : List Nat, js.Nodup → (∀ j ∈ js, j < dfield d 391 9 ∧ names (x.entry j) id) → js.length ≤ 4
/-- A launch descriptor that is accepted (R28, R31, R33, R35, R459): kind 0, good, with room for one block on a core and, where cores is 1, for
all blocks at once; memory holds its entry segment with execute permission, and its parameters and its cohort table, which is good. -/
structure Acceptable (s : State) (d : BitVec 1024) (x : Reading) : Prop where
  good    : GoodDescriptor s d
  kind    : dfield d 56 2 = 0
  fits    : Fits d 1
  all     : dfield d 460 1 = 1 → FitsAll s d
  code    : HoldsRun s 3 (dfield d 400 16) (dfield d 0 56) 4096 x.code
  params  : HoldsRun s 1 (dfield d 400 16) (dfield d 64 56) (dfield d 385 6 * 8) x.params
  cohorts : HoldsRun s 1 (dfield d 400 16) (dfield d 192 56) (dfield d 391 9 * 64) x.cohorts
  table   : GoodCohorts d x
/-- The state after acceptance: a queued launch with the next `LAUNCHID`, the entry segment, parameters and cohort table as read, replayable
unless norep is 1. -/
structure LaunchQueued (s : State) (d : BitVec 1024) (x : Reading) (t : State) : Prop where
  rest   : t = { s with launches := t.launches, nextLaunch := s.nextLaunch + 1 }
  others : ∀ k, k ≠ s.nextLaunch → t.launches.get? k = s.launches.get? k
  launch : ∃ l, t.launches.get? s.nextLaunch = some l ∧ l.id = s.nextLaunch ∧ l.desc = d ∧ l.phase = .queued ∧ l.placed = 0 ∧
    l.finished = [] ∧ l.params = (List.range (dfield d 385 6)).map (fun i => BitVec.ofNat 64 (number x.params (8 * i) 8)) ∧
    l.cohorts = (List.range (dfield d 391 9)).map (fun i => BitVec.ofNat 512 (x.entry i)) ∧
    l.replay = decide (dfield d 459 1 = 0) ∧ l.drift = s.drift ∧ l.armed = false ∧
    l.replicas = [] ∧ l.soiled = [] ∧ l.badImage = [] ∧ l.badParams = false ∧ (∀ i, i ∈ l.dies ↔ usable s d i) ∧
    ∀ j < 4096, l.image.getD j 0 = x.code j
/-- The bindings of a package but that of a mailbox of an address space. -/
def unbound (s : State) (d : BitVec 1024) : List Binding :=
  s.bindings.filter (fun b => !(b.asid = dfield d 400 16 && b.mailbox = dfield d 320 56))

/-! ## Placement (R30, R34, R48, R64, R168, R275, R284) -/

/-- The distributor's choice (R168): a launch, a core, and the core's lowest free position. It places this one block of the launch now
(R35), whose parameters are unpoisoned; where it is the first, the cache stacks have room for the launch's shelf (R243). -/
structure Chosen (s : State) (l : Launch) (c pos : Nat) : Prop where
  choice : ∃ held, s.nextPlacement s.placing [] = some (l, c, held)
  single : dfield l.desc 460 1 = 0 ∨ dfield l.desc 416 32 = l.placed + 1
  clean  : l.badParams = false
  shelf  : l.placed = 0 → ∀ d ∈ l.dies, (s.die d).stack.length ≤ (s.updLaunch l.id (fun y => { y with phase := .running })).linesFor d
  here   : s.launches.get? l.id = some l
  free   : s.blocks.get? (c * 16 + pos) = none ∧ pos < 16 ∧ ∀ p < pos, s.blocks.get? (c * 16 + p) ≠ none
/-- A floe of a launch at block start (R30): full width, every lane live and active at address 0, parameters in the uniform registers,
everything else zero, the floor at the core's time. -/
structure FreshFloe (d : BitVec 1024) (params : List W64) (base : Nat) (fl : Floe) (ctime : BitVec 16) : Prop where
  shape : fl.width = 16 * 2 ^ dfield d 477 2 ∧ fl.base = base ∧ fl.st = .ready ∧ fl.floor = ctime
  lanes : ∀ l < 128, fl.live.getLsbD l = decide (l < 16 * 2 ^ dfield d 477 2)
  frag  : ∃ g, fl.frags = [g] ∧ g.pc = 0 ∧ g.active = fl.live ∧ g.stack = [] ∧ g.wait = .none ∧ g.handler = false
  unis  : ∀ n < 64, fl.S n = params.getD n 0
  zero  : fl.rbase = 0 ∧ fl.guards = 0 ∧ fl.epc = 0 ∧ fl.fcause = 0 ∧ fl.faddr = 0 ∧ fl.illop = 0 ∧ fl.illf0 = 0 ∧ fl.illf1 = 0 ∧
    fl.illf2 = 0 ∧ fl.illf3 = 0 ∧ fl.uivec = 0 ∧ fl.uipend = 0 ∧ fl.uepc = 0 ∧ fl.umask = 7 ∧ fl.fmtvote = 0 ∧ fl.fusest = 0 ∧ fl.stoch = 0
  bare  : fl.ops = [] ∧ fl.cmds = [] ∧ fl.tile = 0 ∧ fl.queues = [] ∧ fl.recs = [] ∧ fl.reports = [] ∧ fl.due = [] ∧ fl.standing = 0 ∧
    fl.cstanding = [] ∧ fl.fence = none ∧ fl.rels = [] ∧ fl.parked = none ∧ fl.syscs = [] ∧ fl.expired = [] ∧ fl.hold = false
/-- A core as it takes blocks of a launch other than the one it last held (R275): no L1 copy, no tile element or checksum, nothing in drain
staging, no code-store slot; the same core where it held that launch. -/
def prepared (k : Core) (l : Nat) : Core :=
  if k.lastLaunch = l then k else { k with l1 := [], tiles := [], staging := [], drain := none, slots := [], lastLaunch := l }
/-- The state after the placement of a launch's next block: the core prepared for the launch (R275), its floes fresh on the core, its registers,
predicates, scratchpad and barriers clear, the entry segment landed in slot 0, one block more placed, the snapshot set armed at a replayable
launch's first. -/
structure BlockPlaced (s : State) (l : Launch) (c pos : Nat) (t : State) : Prop where
  rest   : t = { s with cores := t.cores, blocks := t.blocks, floes := t.floes, launches := t.launches }
  cores  : ∀ k, k ≠ c → t.cores.get? k = s.cores.get? k
  core   : t.core c = { prepared (s.core c) l.id with slots := (t.core c).slots }
  slot   : (t.core c).slot 0 = ⟨.landed, 4096, l.image, l.badImage, ((prepared (s.core c) l.id).slot 0).fetches⟩
  slots  : ∀ k, k ≠ 0 → (t.core c).slot k = (prepared (s.core c) l.id).slot k
  blocks : ∀ k, k ≠ c * 16 + pos → t.blocks.get? k = s.blocks.get? k
  block  : ∃ b, t.blocks.get? (c * 16 + pos) = some b ∧ b.launch = l.id ∧ b.id = l.placed ∧ b.core = c ∧ b.pos = pos ∧
    b.floes = dfield l.desc 484 5 + 1 ∧ b.width = 16 * 2 ^ dfield l.desc 477 2 ∧ b.maxsplit = 16 * 2 ^ dfield l.desc 475 2 ∧
    b.nregs = (dfield l.desc 479 5 + 1) * 8 ∧ b.spadKiB = dfield l.desc 500 12 ∧ b.vregs = [] ∧ b.preds = [] ∧ b.qents = [] ∧
    b.spad = [] ∧ b.full = [] ∧ b.waiters = [] ∧ b.bars = [] ∧ b.fmtSlot = 0 ∧ b.streams = [] ∧ b.drains = 0 ∧ b.badRegs = [] ∧ b.badSpad = []
  floes  : ∀ i < dfield l.desc 484 5 + 1, ∃ fl,
    t.floes.get? (floeKey (c * 16 + pos) (i * (16 * 2 ^ dfield l.desc 477 2))) = some fl ∧
    FreshFloe l.desc l.params (i * (16 * 2 ^ dfield l.desc 477 2)) fl (s.core c).ctime
  others : ∀ f, (∀ i < dfield l.desc 484 5 + 1, f ≠ floeKey (c * 16 + pos) (i * (16 * 2 ^ dfield l.desc 477 2))) →
    t.floes.get? f = s.floes.get? f
  launch : ∃ x, t.launches.get? l.id = some x ∧ x = { l with
    phase := .running, placed := l.placed + 1, armed := (if l.placed = 0 ∧ l.replay = true then true else l.armed), snapSet := x.snapSet }
  rest_  : ∀ k, k ≠ l.id → t.launches.get? k = s.launches.get? k

/-! ## The end of a block and of a launch (R27, R32, R44) -/

/-- A block that has finished (R27), of a launch without cohorts. -/
structure Finished (s : State) (b : Nat) (x : Block) : Prop where
  here    : s.blocks.get? b = some x
  floes   : ∀ f fl, s.floes.get? f = some fl → blockOf f = b →
    (fl.st = .retired ∨ fl.st = .reserved) ∧ fl.ops = [] ∧ fl.cmds = []
  run     : ∀ r, (s.core (coreOf b)).run = some r → r.blk ≠ b
  engine  : (∀ e ∈ (s.core (coreOf b)).engine, e.blk ≠ b) ∧ (∀ d, (s.core (coreOf b)).drain = some d → d.blk ≠ b) ∧
    ∀ u ∈ (s.core (coreOf b)).staging, u.job.blk ≠ b
  streams : ∀ e ∈ x.streams, e.2.ctr = none ∨ (e.2.ended = false ∧ e.2.guardSt ≠ .discarded)
  slots   : ∀ e ∈ (s.core (coreOf b)).slots, (∀ y ∈ e.2.fetches, blockOf y.1 ≠ b) ∧ (e.2.st = .landing → e.2.fetches ≠ [])
  idle    : (∀ m ∈ (s.core (coreOf b)).mruns, blockOf m.1 ≠ b) ∧ ∀ e ∈ (s.core (coreOf b)).ending, blockOf e.2 ≠ b
  plain   : (s.launch x.launch).cohorts = []
/-- The state after it: the block and its floes are gone, and its launch has one finished block more. -/
structure BlockGone (s : State) (b : Nat) (x : Block) (t : State) : Prop where
  rest   : t = { s with cores := t.cores, blocks := t.blocks, floes := t.floes, launches := t.launches }
  cores  : ∀ c, t.core c = s.core c
  blocks : ∀ k, t.blocks.get? k = if k = b then none else s.blocks.get? k
  floes  : ∀ f, t.floes.get? f = if blockOf f = b then none else s.floes.get? f
  launch : ∀ l, s.launches.get? x.launch = some l → t.launches.get? x.launch = some { l with finished := l.finished ++ [x.id] }
  others : ∀ k, k ≠ x.launch → t.launches.get? k = s.launches.get? k

/-- n bytes at a virtual address that a unit of a die may write: mapped for writing to plain memory, in a line that the die's stack owns and
in which no table of a translation stands. -/
structure MayWrite (s : State) (d asid va n pa key : Nat) (line : StackLine) : Prop where
  space  : va < 2 ^ 56 ∧ inAperture va = false ∧ va % 128 + n ≤ 128 ∧ 0 < n
  own    : Owned s d (pa / 128) key line
  mapped : ∀ u : State, u.boot = s.boot → u.migrations = [] → (∀ a, a / 128 ≠ pa / 128 → u.peekByte a = s.peekByte a) →
    ∃ x r, u.walk asid va = .ok x r ∧ bitN x.attr 2 = true ∧ fieldN x.attr 48 4 = 0 ∧ fieldN x.attr 16 2 ≤ 1 ∧
      fieldN x.attr 52 12 = key ∧ pa = x.pa + (va - x.va) ∧ pa % 128 = va % 128 ∧ paTier pa ≤ 1
/-- A launch that ends: it has finished every block, or it is halted; it has no resident block, no part-sent `SEND` in a saved one, no staged
record and no replica, and its completion record, 16 bytes without poison, may be written at its address by its command processor. -/
structure CanEndLaunch (s : State) (l : Nat) (x : Launch) (d pa key : Nat) (line : StackLine) : Prop where
  here    : s.launches.get? l = some x
  ends    : x.phase = .halting ∨ (x.phase = .running ∧ x.finished.length = dfield x.desc 416 32)
  empty   : ∀ b y, s.blocks.get? b = some y → y.launch ≠ l
  sends   : ∀ i ∈ s.images, i.launch = l → ∀ e ∈ i.floes, ∀ c ∈ e.2.cmds, c.kind = .send → c.progress = 0
  logs    : ∀ e ∈ s.logs, e.2.stager ≠ some l
  private_ : x.replicas = []
  record  : dfield x.desc 256 56 ≠ 0 ∧ dfield x.desc 256 56 % 16 = 0 ∧ dfield x.desc 458 1 = 0
  leads   : Leads s x.desc d
  clean   : line.poison = 0
  may     : MayWrite s d (dfield x.desc 400 16) (dfield x.desc 256 56) 16 pa key line
  may8    : MayWrite s d (dfield x.desc 400 16) (dfield x.desc 256 56 + 8) 8 (pa + 8) key line
/-- The status doubleword of a launch's end (R32): status, cause, lowest block that reported it. -/
def endWord (x : Launch) : Nat :=
  if x.phase = .halting then x.status + x.cause.toNat * 2 ^ 8 + x.causeBlk.getD 0 * 2 ^ 32 else 0
/-- The state after a launch's end: the launch is gone, with what multicast delivered for it, its completion record holds the status
doubleword and a counter risen by 1, and nothing else of memory has changed. -/
structure LaunchEnded (s : State) (l : Nat) (x : Launch) (d pa : Nat) (line : StackLine) (t : State) : Prop where
  rest   : t = { s with launches := t.launches, images := t.images, snapshots := t.snapshots, restores := t.restores, logs := t.logs
                        windows := t.windows, preempts := t.preempts, dies := t.dies, dir := t.dir, blocks := t.blocks
                        cores := t.cores }
  cores  : ∀ c, t.core c = { s.core c with mcast := (s.core c).mcast.filter (fun e => e.1 / 64 ≠ l) }
  gone   : t.launches.get? l = none ∧ ∀ k, k ≠ l → t.launches.get? k = s.launches.get? k
  logs   : ∀ k, t.logs.get? k = s.logs.get? k
  images : t.images = s.images.filter (fun i => i.launch ≠ l) ∧ t.snapshots = s.snapshots.filter (fun c => c.launch ≠ l)
  blocks : ∀ k, t.blocks.get? k = s.blocks.get? k
  record : ∃ y, (t.die d).stack.get? (pa / 128) = some y ∧ y.dirty = true ∧
    lineValue y.data (pa % 128 + 8) 8 = endWord x % 2 ^ 64 ∧
    lineValue y.data (pa % 128) 8 = (lineValue line.data (pa % 128) 8 + 1) % 2 ^ 64 ∧
    ∀ i < 128, (i < pa % 128 ∨ pa % 128 + 16 ≤ i) → Line.byte y.data i = Line.byte line.data i
  lines  : ∀ a n, (a ≠ d ∨ n ≠ pa / 128) → (t.die a).stack.get? n = (s.die a).stack.get? n

/-! ## The steps of queues and placement -/

/-- The steps of the command processors that carry operands: when they have their effect, and what it is. -/
def launchRule (s : State) : Instr → Option Event
  | .launchNow q => some
      { when := ∃ d rest x, Oldest s q d rest ∧ Acceptable s d x
        next := fun t => ∀ d rest x, Oldest s q d rest → Acceptable s d x → LaunchQueued (unqueued s q rest) d x t }
  | .bindTask q => some
      { when := ∃ d rest, Oldest s q d rest ∧ GoodDescriptor s d ∧ dfield d 56 2 = 1
        next := fun t => ∀ d rest, Oldest s q d rest →
          t = { unqueued s q rest with bindings := unbound s d ++ [⟨dfield d 400 16, dfield d 320 56, d⟩] } }
  | .unbindTask q => some
      { when := ∃ d rest, Oldest s q d rest ∧ GoodDescriptor s d ∧ dfield d 56 2 = 2
        next := fun t => ∀ d rest, Oldest s q d rest → t = { unqueued s q rest with bindings := unbound s d } }
  | .blockFinish b => some
      { when := ∃ x, Finished s b x
        next := fun t => ∀ x, s.blocks.get? b = some x → BlockGone s b x t }
  | .launchEnd l => some
      { when := ∃ x d pa key line, CanEndLaunch s l x d pa key line
        next := fun t => ∀ x d pa key line, CanEndLaunch s l x d pa key line → LaunchEnded s l x d pa line t }
  | _ => none

/-! ## Active sets, wait counts, timers (R26, R169, R170, R258, R265) -/

/-- The floes of a quadrant of a core in a scheduling state. -/
def inQuad (s : State) (c q : Nat) (st : FloeState) (f : Nat) : Prop :=
  f ∈ s.floes.keys ∧ floeCore f = c ∧ (s.floe f).st = st ∧ s.quadOf f = q
/-- The one floe of a quadrant that has been ready longest. -/
def LongestReady (s : State) (c q f : Nat) : Prop :=
  inQuad s c q .ready f ∧ ∀ g, inQuad s c q .ready g → g ≠ f → (s.floe f).readyAt < (s.floe g).readyAt
/-- The one floe of a quadrant that entered its active set earliest. -/
def EarliestActive (s : State) (c q f : Nat) : Prop :=
  inQuad s c q .active f ∧ ∀ g, inQuad s c q .active g → g ≠ f → (s.floe f).activeAt < (s.floe g).activeAt
/-- A floe that enters an active set now. -/
def admitted (s : State) (fl : Floe) : Floe := { fl with st := .active, activeAt := s.now, age := s.now }
/-- The period of a floe's timer in nanoseconds: tper microseconds, UIVEC [31:20] (R258). -/
def timerPeriod (fl : Floe) : Nat := fl.uivec.toNat / 2 ^ 20 % 2 ^ 12 * 1000

/-- The steps of the schedulers: when they have their effect, and what it is. -/
def schedRule (s : State) : Instr → Option Event
  | .fragmentWaitExpiry f id => some
      { when := s.floes.get? f ≠ none ∧ 64 ≤ (s.frag f id).waitCount ∧ id ∉ (s.floe f).expired
        next := fun t => OnlyFloe s f t ∧ t.floe f = { s.floe f with expired := (s.floe f).expired ++ [id] } }
  | .activeSetAdmission c q => some
      { when := (s.quadFloes c q .active).length < 8 ∧ (s.core c).halted = false ∧ ∃ f, LongestReady s c q f
        next := fun t => ∀ f, LongestReady s c q f → OnlyFloe s f t ∧ t.floe f = admitted s (s.floe f) }
  | .admissionTimeout c q => some
      { when := 8 ≤ (s.quadFloes c q .active).length ∧ (s.core c).halted = false ∧ (∃ f, LongestReady s c q f) ∧
          ∃ g, EarliestActive s c q g
        next := fun t => ∀ f g, LongestReady s c q f → EarliestActive s c q g →
          t = { s with floes := t.floes } ∧ (∀ h, h ≠ f → h ≠ g → t.floes.get? h = s.floes.get? h) ∧
          t.floe f = admitted s (s.floe f) ∧ t.floe g = { s.floe g with st := .ready, readyAt := s.now } }
  | .uiTimerExpiry f => some
      { when := s.unretired f = true ∧ timerPeriod (s.floe f) ≠ 0 ∧ (s.floe f).timerAt.toNat + timerPeriod (s.floe f) ≤ s.time.toNat
        next := fun t => OnlyFloe s f t ∧ t.floe f = { s.floe f with
          uipend := (s.floe f).uipend ||| 4, timerAt := (s.floe f).timerAt + BitVec.ofNat 64 (timerPeriod (s.floe f)) } }
  | _ => none

end Sys2Proof.Claims
end

