-- ==== Sys2Proof/Claims/Times.lean ====
section
/-!
DEFINITION. What the rules of the manual say of logical time, and of the cache stacks' and homes' own steps (R206, R217 to R227, R276,
R277, R284).
-/
namespace Sys2Proof.Claims
open Sys2Proof.Machine

/-! ## Time (R217 to R219) -/

/-- A core of a mapped cluster (R14, R15). -/
def mappedCore (s : State) (c : Nat) : Prop := c < 384 ∧ c % 96 / 8 < (s.die (c / 96)).map.length
/-- The state after a tick of a core: its time is one later, or, where the horizon holds it back, it owes one tick more. -/
structure TickTaken (s : State) (c : Nat) (t : State) : Prop where
  frame : OnlyCore s c t
  core  : t.core c = if earlier (s.horizon (dieOfCore c) + 0x4000 - 257) ((s.core c).ctime + 1) = false
    then timed (s.core c) ((s.core c).ctime + 1) else { s.core c with heldTicks := (s.core c).heldTicks + 1 }
/-- No fragment of a core waits behind a cohort's phase that has completed (R44, R236). -/
def NoneBehind (s : State) (c : Nat) : Prop :=
  ∀ e ∈ s.floes, floeCore e.1 = c → ∀ g ∈ e.2.frags, ∀ k, g.wait = .cohort k → k ∈ e.2.cstanding
/-- The state after a core has taken k of the ticks it owes: as many as the horizon lets it; copies far behind its time are gone (R219). -/
structure TicksPaid (s : State) (c : Nat) (t : State) : Prop where
  frame : OnlyCore s c t
  paid  : ∃ k ≤ (s.core c).heldTicks, t.core c = { s.core c with
      ctime := (s.core c).ctime + BitVec.ofNat 16 k, heldTicks := (s.core c).heldTicks - k
      l1 := (s.core c).l1.filter (fun e =>
        (List.range k).all (fun j => !(earlier e.2.rts ((s.core c).ctime + BitVec.ofNat 16 (j + 1) - 0x4000)))) } ∧
    ((t.core c).heldTicks = 0 ∨ earlier (t.horizon (dieOfCore c) + 0x4000 - 257) ((t.core c).ctime + 1) = true)
/-- A floe with its stamps clamped. -/
def sweptFloe (s : State) (d : Nat) (fl : Floe) : Floe :=
  { fl with floor := clamped s d fl.floor, ops := fl.ops.map (fun o => { o with time := clamped s d o.time }) }
/-- The state after a die's sweep: every stamp of its stack, its cores, their floes and saved floes clamped, the horizon free to go on from
here, and of its cores' L1s the copies far behind their core dropped. No line's data has changed. -/
structure Swept (s : State) (d : Nat) (t : State) : Prop where
  rest   : t = { s with dies := t.dies, cores := t.cores, floes := t.floes, images := t.images }
  dies   : ∀ k, k ≠ d → t.dies.get? k = s.dies.get? k
  die    : t.die d = { s.die d with stack := (t.die d).stack, stime := clamped s d (s.die d).stime, swept := s.horizon d }
  lines  : ∀ n, (t.die d).stack.get? n = ((s.die d).stack.get? n).map (fun x => { x with wts := clamped s d x.wts, rts := clamped s d x.rts })
  others : ∀ c, dieOfCore c ≠ d → t.cores.get? c = s.cores.get? c
  cores  : ∀ c, t.core c = { s.core c with l1 := (t.core c).l1, grants := (t.core c).grants }
  grants : ∀ c, dieOfCore c = d → (t.core c).grants =
    (s.core c).grants.map (fun g => { g with wts := clamped s d g.wts, rts := clamped s d g.rts })
  copies : ∀ c k, s.cores.get? c = some k → dieOfCore c = d → ∀ n x, k.l1.get? n = some x →
    earlier x.rts (k.ctime - 0x4000) = false →
    (t.core c).l1.get? n = some { x with wts := clamped s d x.wts, rts := clamped s d x.rts, gts := clamped s d x.gts }
  floes  : ∀ f, t.floes.get? f = (s.floes.get? f).map (fun fl => if dieOfCore (floeCore f) = d then sweptFloe s d fl else fl)
  images : t.images = s.images.map (fun i => if dieOfCore i.core = d then
    { i with floes := i.floes.map (fun e => (e.1, sweptFloe s d e.2)) } else i)

/-! ## Reads and grants (R221) -/

/-- The outstanding loads of a core's floes that ask for a line. -/
def asking (s : State) (c ln : Nat) : List MemOp :=
  ((s.floes.filter (fun e => floeCore e.1 = c)).map (fun e => e.2.ops.filter (fun o => o.cls = .loads &&
    (toDo o).any (fun a => match a.place with | .phys pa _ _ => pa / 128 = ln | _ => false)))).flatten
/-- The time T of a core's request: its time when the load that asks issued (R323), else its time now. -/
def Asked (s : State) (c ln : Nat) (time : BitVec 16) : Prop :=
  (asking s c ln = [] ∧ time = (s.core c).ctime) ∨ ∃ o more, asking s c ln = o :: more ∧ time = o.time
/-- The state after the stack has served a core's request, of time T, of a line that it holds, with a lease: the line's stamps clamped, its
*rts* at least T and the lease, and a reply on its way with the data, or without where the request named the line's version. -/
structure Served_ (s : State) (c ln lease : Nat) (time : BitVec 16) (x : StackLine) (same : Bool) (t : State) : Prop where
  frame : OnlyLine { s with cores := t.cores } c (dieOfCore c) ln t
  cores : ∀ k, k ≠ c → t.cores.get? k = s.cores.get? k
  line  : (t.die (dieOfCore c)).stack.get? ln = some { x with
    wts := clamped s (dieOfCore c) x.wts
    rts := laterOf (clamped s (dieOfCore c) x.rts) (time + BitVec.ofNat 16 (lease % 256)) }
  reply : t.core c = { s.core c with grants := (s.core c).grants ++
    [⟨ln, if same then none else some x.data, x.poison, clamped s (dieOfCore c) x.wts,
      laterOf (clamped s (dieOfCore c) x.rts) (time + BitVec.ofNat 16 (lease % 256)), x.key⟩] }
/-- The oldest grant on its way to a core may be installed: the horizon lets the core's time rise to its *wts*. -/
def mayInstall (s : State) (c : Nat) (g : Grant) (rest : List Grant) : Prop :=
  (s.core c).grants = g :: rest ∧
    earlier (s.horizon (dieOfCore c) + 0x4000 - 257) (laterOf (s.core c).ctime g.wts) = false
/-- The grant's lease does not end far behind the time that the core rises to (R219). -/
def leaseStands (s : State) (c : Nat) (g : Grant) : Prop :=
  laterOf (s.core c).ctime g.wts = (s.core c).ctime ∨ earlier g.rts (laterOf (s.core c).ctime g.wts - 0x4000) = false
/-- The L1 has a place for a line's copy: it holds one already, or has room for another (R33). -/
def hasPlace (s : State) (c ln : Nat) : Prop := (s.core c).l1.get? ln ≠ none ∨ (s.core c).l1.length < s.l1Room c
/-- The state after the grant's installation: the copy with the grant's stamps and the core's time as its *gts*, the core's time raised. -/
structure Installed (s : State) (c : Nat) (g : Grant) (rest : List Grant) (t : State) : Prop where
  frame : OnlyCore s c t
  core  : t.core c = { raisedCore (s.core c) g.wts with grants := rest, l1 := (t.core c).l1 }
  data  : ∀ x, leaseStands s c g → g.fresh = some x →
    (t.core c).l1.get? g.line = some ⟨x, g.wts, g.rts, (s.core c).ctime, g.poison, g.key⟩
  renew : ∀ y, leaseStands s c g → g.fresh = none → (s.core c).l1.get? g.line = some y → y.wts = g.wts → y.key = g.key →
    (t.core c).l1.get? g.line = some { y with rts := g.rts, gts := (s.core c).ctime }
  other : hasPlace s c g.line → ∀ n, n ≠ g.line → (t.core c).l1.get? n = (raisedCore (s.core c) g.wts).l1.get? n

/-! ## Fills, evictions, ownership, probes (R223, R226, R227) -/

/-- Byte i of line ln as it stands in memory. -/
def homeByte (s : State) (ln i : Nat) : Byte := s.memByte (ln * 128 + i)
/-- An agent has room for a line more (R12, R18). -/
def hasRoom (s : State) (d : Nat) : Prop := (s.die d).stack.length < s.linesFor d
/-- The state after a fill: the die holds the line with memory's bytes and both stamps one later than its stack time, which is now that. -/
structure Filled (s : State) (d ln : Nat) (t : State) : Prop where
  rest   : t = { s with dies := t.dies, dir := t.dir }
  dies   : ∀ k, k ≠ d → t.dies.get? k = s.dies.get? k
  die    : t.die d = { s.die d with stack := (t.die d).stack, stime := (s.die d).stime + 1 }
  line   : ∃ y, (t.die d).stack.get? ln = some y ∧ y.wts = (s.die d).stime + 1 ∧ y.rts = y.wts ∧ y.owned = false ∧ y.dirty = false ∧
    y.poison = 0 ∧ ∀ i < 128, Line.byte y.data i = homeByte s ln i
  lines  : ∀ n, n ≠ ln → (t.die d).stack.get? n = (s.die d).stack.get? n
  sharer : (t.dir.getD (ln / 4) DirEntry.reset).sharers.getLsbD d = true ∧
    ∀ r, r ≠ ln / 4 → t.dir.getD r DirEntry.reset = s.dir.getD r DirEntry.reset
/-- A line that a die holds is gone from it, its bytes in memory where it was dirty; the sharer bit goes with the region's last line. -/
structure Dropped (s : State) (d ln : Nat) (x : StackLine) (t : State) : Prop where
  memory : ∀ a, t.memByte a = if x.dirty = true ∧ a / 128 = ln then Line.byte x.data (a % 128) else s.memByte a
  gone   : (t.die d).stack.get? ln = none
  lines  : ∀ k n, (k ≠ d ∨ n ≠ ln) → (t.die k).stack.get? n = (s.die k).stack.get? n
  sharer : (∀ n y, (s.die d).stack.get? n = some y → n / 4 = ln / 4 → n = ln) →
    (t.dir.getD (ln / 4) DirEntry.reset).sharers.getLsbD d = false
/-- Eviction leaves everything but the line, memory and the directory as it was: no L1 is told. -/
structure Evicted (s : State) (d ln : Nat) (x : StackLine) (t : State) : Prop where
  drop : Dropped s d ln x t
  rest : t = { s with dies := t.dies, mem := t.mem, memKeys := t.memKeys, badWords := t.badWords, dir := t.dir }
/-- A probe drops the line as an eviction does, and marks it in the open windows of the die's floes that have read it (R238). -/
structure Probed (s : State) (d ln : Nat) (x : StackLine) (t : State) : Prop where
  drop  : Dropped s d ln x t
  rest  : t = { s with dies := t.dies, mem := t.mem, memKeys := t.memKeys, badWords := t.badWords, dir := t.dir, floes := t.floes }
  floes : ∀ f, t.floe f = { s.floe f with fence := (t.floe f).fence } ∧
    (dieOfCore (floeCore f) ≠ d → (t.floe f).fence = (s.floe f).fence) ∧
    ∀ w, s.floes.get? f ≠ none → dieOfCore (floeCore f) = d → (s.floe f).fence = some w →
      (t.floe f).fence = some { w with lines := w.lines.map (fun r => if r.line = ln then { r with changed := true } else r) }
/-- One agent holds a line, under the key that memory's copy has, and another, with room for it, asks for ownership. -/
structure CanMove (s : State) (a b ln : Nat) (x : StackLine) : Prop where
  dies  : a < 13 ∧ b < 13 ∧ a ≠ b ∧ hasRoom s a
  here  : (s.die b).stack.get? ln = some x
  alone : ∀ d < 13, d ≠ b → (s.die d).stack.get? ln = none
  unlogged : ∀ g ∈ s.logs, g.2.pa + g.2.len ≤ ln * 128 ∨ ln * 128 + 128 ≤ g.2.pa
  key   : s.memKeys.getD ln 0 = x.key
  clean : x.poison = 0 ∧ ∀ i < 32, ln * 32 + i ∉ s.badWords
  same  : x.dirty = true ∨ ∀ i < 128, homeByte s ln i = Line.byte x.data i
  still : s.migrations = []
  unarmed : ∀ l, (s.launch l).armed = false
  place : paOk (ln / 4 * 512) = true
/-- The home of a line (R225): the die of its stack in tier 0, else 4 for the host die. -/
def homeDie (ln : Nat) : Nat := if paTier (ln * 128) = 0 then ln * 128 % 2 ^ 44 / 2 ^ 36 % 8 / 2 else 4
/-- The state after the home has granted ownership: the new owner alone holds the line, with the previous holder's bytes and later stamps; the
entry names it, and the home's pointer stands at it. -/
structure OwnerMoved (s : State) (a b ln : Nat) (x : StackLine) (t : State) : Prop where
  rest  : t = { s with dies := t.dies, mem := t.mem, memKeys := t.memKeys, badWords := t.badWords, dir := t.dir, floes := t.floes
                       rotor := t.rotor }
  owner : ∃ y, (t.die a).stack.get? ln = some y ∧ y.owned = true ∧ y.data = x.data ∧ y.wts = (s.die a).stime + 1 ∧ y.rts = y.wts
  alone : ∀ d < 13, d ≠ a → (t.die d).stack.get? ln = none
  entry : (t.dir.getD (ln / 4) DirEntry.reset).owner = some a
  rotor : t.rotor.getD (homeDie ln) 0 = a ∧ ∀ k, k ≠ homeDie ln → t.rotor.getD k 0 = s.rotor.getD k 0

/-! ## Memory controllers (R206, R213, R276, R278, R284) -/

/-- The state after a migration has moved its next line: the destination's bytes are the source's, and its progress pointer is one further. -/
structure LineMoved (s : State) (m : Migration) (t : State) : Prop where
  rest  : t = { s with mem := t.mem, memKeys := t.memKeys, badWords := t.badWords, migrations := t.migrations }
  bytes : ∀ a, t.mem.getD a 0 = if a / 128 = m.dst * 512 + m.ptr then s.mem.getD ((m.src * 512 + m.ptr) * 128 + a % 128) 0
    else s.mem.getD a 0
  table : t.migrations = s.migrations.map (fun x => if x.src = m.src then { x with ptr := x.ptr + 1 } else x)
/-- A frame of a launch's armed set that has no copy yet, in a pool with room, while nothing of it is cached and no frame migrates. -/
structure CanCopy (s : State) (l fr : Nat) : Prop where
  armed  : (s.launch l).armed = true ∧ fr ∈ (s.launch l).snapSet
  first  : ∀ c ∈ s.snapshots, ¬(c.launch = l ∧ c.frame = fr)
  room   : s.snapshots.length < s.poolFrames
  home   : (∀ d < 13, ∀ n x, (s.die d).stack.get? n = some x → n / 512 ≠ fr) ∧ s.migrations = []
/-- The state after it: the pool holds the frame's bytes for the launch. -/
structure Copied (s : State) (l fr : Nat) (t : State) : Prop where
  rest : t = { s with snapshots := t.snapshots }
  pool : ∃ c, t.snapshots = s.snapshots ++ [c] ∧ c.launch = l ∧ c.frame = fr ∧
    ∀ i < 2 ^ 16, c.bytes.getD i 0 = s.memByte (fr * 2 ^ 16 + i)
/-- The state after a scrub has met a bad line: in memory, or dirty in a stack, its words are poisoned; a clean one is dropped and counted. -/
structure Scrubbed (s : State) (ln d : Nat) (x : StackLine) (t : State) : Prop where
  dirty : x.dirty = true → OnlyLine s 0 d ln t ∧ t.cores = s.cores ∧ t.dir = s.dir ∧
    (t.die d).stack.get? ln = some { x with poison := BitVec.allOnes 32 }
  clean : x.dirty = false → (t.die d).stack.get? ln = none ∧ t.corrected = s.corrected + 1 ∧ (∀ a, t.memByte a = s.memByte a) ∧
    ∀ k n, (k ≠ d ∨ n ≠ ln) → (t.die k).stack.get? n = (s.die k).stack.get? n
/-- Firmware has a frame in hand already: condemned, in the moraine list, or under retirement (R279, R281). -/
def inHand (s : State) (fr : Nat) : Prop :=
  (∃ e ∈ s.condemned, e.1 = fr) ∨ (∃ e ∈ s.moraine, fieldN e 16 30 ≤ fr ∧ fr < fieldN e 16 30 + fieldN e 48 16) ∨ ∃ r ∈ s.retiring, r.src = fr
/-- One floe waits for the firn, at an access that translates afresh, and it alone. -/
structure FirnWaits (s : State) (f : Nat) : Prop where
  here : ∃ p, s.floes.get? f ≠ none ∧ (s.floe f).parked = some p ∧ p.op.lanes = [] ∧ p.firn = true
  only : ∀ g, g ≠ f → (s.floe g).parked = none
  once : s.floes.keys.Nodup

/-- The steps of logical time, stacks, homes and memory controllers: when they have their effect, and what it is. -/
def cacheRule (s : State) : Instr → Option Event
  | .ctimeTick c => some { when := mappedCore s c, next := TickTaken s c }
  | .horizonWaitRelease c => some { when := mappedCore s c ∧ NoneBehind s c, next := TicksPaid s c }
  | .timestampSweep d => some { when := d < 4, next := Swept s d }
  | .stackRead c ln lease => some
      { when := mappedCore s c ∧ paOk (ln * 128) = true ∧ ∃ x, (s.die (dieOfCore c)).stack.get? ln = some x
        next := fun t => ∀ x time, (s.die (dieOfCore c)).stack.get? ln = some x → Asked s c ln time → Served_ s c ln lease time x false t }
  | .stackRenewal c ln lease => some
      { when := mappedCore s c ∧ paOk (ln * 128) = true ∧ ∃ x, (s.die (dieOfCore c)).stack.get? ln = some x
        next := fun t => ∀ x time, (s.die (dieOfCore c)).stack.get? ln = some x → Asked s c ln time → Served_ s c ln lease time x
          (((s.core c).l1.get? ln).any (fun y => decide (y.key = x.key) && decide (y.wts = clamped s (dieOfCore c) x.wts))) t }
  | .grantInstall c => some
      { when := ∃ g rest, mayInstall s c g rest
        next := fun t => ∀ g rest, mayInstall s c g rest → Installed s c g rest t }
  | .stackFill d ln => some
      { when := d < 4 ∧ paOk (ln * 128) = true ∧ AtHome s ln ∧ hasRoom s d
        next := Filled s d ln }
  | .stackEviction d ln => some
      { when := d < 13 ∧ s.migrations = [] ∧ ∃ x, (s.die d).stack.get? ln = some x
        next := fun t => ∀ x, (s.die d).stack.get? ln = some x → Evicted s d ln x t }
  | .invalidatingProbe d ln => some
      { when := d < 13 ∧ s.migrations = []
        next := fun t => ((s.die d).stack.get? ln = none → t = s) ∧
          ∀ x, (s.die d).stack.get? ln = some x → Probed s d ln x t }
  | .ownershipRequest r [(a, i)] => some
      { when := ∃ b x, CanMove s a b (r * 4 + i % 4) x
        next := fun t => ∀ b x, CanMove s a b (r * 4 + i % 4) x → OwnerMoved s a b (r * 4 + i % 4) x t }
  | .migrationLineMove src => some
      { when := ∃ m ∈ s.migrations, m.src = src ∧ m.ptr < 512 ∧ m.src ≠ m.dst ∧ ∀ n ∈ s.migrations, n.src = src → n = m
        next := fun t => ∀ m ∈ s.migrations, m.src = src → LineMoved s m t }
  | .snapshotCopy l fr => some { when := CanCopy s l fr, next := Copied s l fr }
  | .scrubPass [ln] (some d) => some
      { when := s.migrations = [] ∧ ∃ x, (s.die d).stack.get? ln = some x
        next := fun t => ∀ x, (s.die d).stack.get? ln = some x → Scrubbed s ln d x t }
  | .scrubPass [ln] none => some
      { when := paOk (ln * 128) = true ∧ paTier (ln * 128) ≤ 1 ∧ s.migrations = []
        next := fun t => t = { s with badWords := t.badWords, condemned := t.condemned } ∧
          (∀ w, w ∈ t.badWords ↔ w / 32 = ln ∨ (w ∈ s.badWords ∧ w / 32 ≠ ln)) ∧
          (inHand s (ln / 512) → t.condemned = s.condemned) ∧ (¬ inHand s (ln / 512) → t.condemned = s.condemned ++ [(ln / 512, 2)]) }
  | .firnDataArrival ln => some
      { when := ∃ f, FirnWaits s f
        next := fun t => ∀ f, FirnWaits s f → t = { s with firnHeld := s.firnHeld.filter (fun x => x ≠ ln), floes := t.floes } ∧
          (∀ g, g ≠ f → t.floes.get? g = s.floes.get? g) ∧
          t.floe f = { s.floe f with st := .ready, readyAt := s.now, parked := none } }
  | _ => none

end Sys2Proof.Claims
end

