-- ==== Sys2Proof/Claims/Firmware.lean ====
section
/-!
DEFINITION. What the rules of the manual say of firmware's work: saving and restoring a core, rollback and replay, retirement of frames and
clusters, ageing, the drift exchange, the firn's upkeep, power (R213, R236, R251 to R255, R269 to R295, R305, R307, R316).
-/
namespace Sys2Proof.Claims
open Sys2Proof.Machine

/-! ## Halting, saving and restoring a core (R236, R269 to R274) -/

/-- An island of a package. -/
def islandNo (s : State) (i : Nat) : Island := s.islands.getD i Island.reset
/-- A core that a request has reached, with its matrix engine idle and no drain under way. -/
structure MayHalt (s : State) (c : Nat) : Prop where
  asked  : (s.core c).haltReq = true ∧ (s.core c).halted = false
  engine : (s.core c).engine = [] ∧ (s.core c).drain = none
/-- The state after the halt: nothing issues there, and a fragment that waited in `MRUN` stands before it again. -/
structure Halted (s : State) (c : Nat) (t : State) : Prop where
  rest   : t = { s with cores := t.cores, floes := t.floes }
  cores  : ∀ k, k ≠ c → t.cores.get? k = s.cores.get? k
  core   : t.core c = { s.core c with halted := true, mruns := [] }
  floes  : ∀ f, floeCore f = c → s.floes.get? f ≠ none → t.floe f = { s.floe f with
    frags := (s.floe f).frags.map (fun g => if g.wait = .mrun then { g with wait := .none } else g)
    st := (t.floe f).st, readyAt := (t.floe f).readyAt }
  others : ∀ f, floeCore f ≠ c → t.floes.get? f = s.floes.get? f
/-- The bytes of a core's image with n blocks of a launch (R271). -/
def imageSize (d : BitVec 1024) (n : Nat) : Nat := 2048 * 1024 + n * (
  ((dfield d 484 5 + 1) * (16 * 2 ^ dfield d 477 2) * ((dfield d 479 5 + 1) * 8) * 4 + 32767) / 32768 * 32768 +
  (dfield d 500 12 * 1024 + 32767) / 32768 * 32768 + 64 * 1024)
/-- A halted core that has drained: its floes have no open fence, no release fence, no operation, no command and no fault outstanding, its
blocks no stream, and no drain repeats reaching staging. -/
structure MaySave (s : State) (c : Nat) (l : Nat) : Prop where
  halted : (s.core c).halted = true
  drain  : (s.core c).drain = none
  floes  : ∀ f fl, s.floes.get? f = some fl → floeCore f = c → fl.fence = none ∧ fl.rels = [] ∧ fl.ops = [] ∧ fl.cmds = [] ∧ fl.due = []
  blocks : (∃ b x, s.blocks.get? b = some x ∧ coreOf b = c) ∧ ∀ b x, s.blocks.get? b = some x → coreOf b = c → x.launch = l ∧ x.streams = []
/-- The state after the image is written: the core's blocks and floes are in it, with what R272 keeps of the core, and no longer resident; the
core may take other blocks and keeps its L1, its translations and its time. -/
structure ImageSaved (s : State) (c l : Nat) (t : State) : Prop where
  rest   : t = { s with cores := t.cores, blocks := t.blocks, floes := t.floes, images := t.images, preempts := t.preempts }
  image  : ∃ i, t.images = s.images ++ [i] ∧ i.launch = l ∧ i.core = c ∧
    i.size = imageSize (s.launch l).desc (s.blocksOfCore c).length ∧
    (∀ b, i.blocks.get? b = if coreOf b = c then s.blocks.get? b else none) ∧
    (∀ f, i.floes.get? f = if floeCore f = c then s.floes.get? f else none) ∧
    i.image = { Core.reset with
      slots := (s.core c).slots, run := (s.core c).run, nextRun := (s.core c).nextRun, ending := (s.core c).ending
      mcast := (s.core c).mcast.filter (fun e => e.1 / 64 = l)
      tiles := (s.core c).tiles, staging := (s.core c).staging, lastLaunch := (s.core c).lastLaunch }
  gone   : (∀ b, t.blocks.get? b = if coreOf b = c then none else s.blocks.get? b) ∧
    ∀ f, floeCore f = c → t.floes.get? f = none
  stay   : ∀ f, floeCore f ≠ c → t.floes.get? f = s.floes.get? f
  core   : t.core c = { s.core c with run := none, mruns := [], ending := [], engine := [], drain := none, staging := [],
                                      haltReq := false, halted := false, mcast := (s.core c).mcast.filter (fun e => e.1 / 64 ≠ l) }
  cores  : ∀ k, k ≠ c → t.cores.get? k = s.cores.get? k
  asked  : ∀ p ∈ t.preempts, c ∉ p.2
/-- A launch with one saved core, which waits for its restore and whose places are free; none of its floes is parked, has a fault pending or
waits behind a cohort's phase that has completed. -/
structure MayRestore (s : State) (l : Nat) (i : CoreImage) : Prop where
  asked  : l ∈ s.restores
  only   : s.images.filter (fun x => x.launch = l) = [i]
  free   : (s.core i.core).haltReq = false ∧ (∀ b x, s.blocks.get? b = some x → coreOf b = i.core → x.launch = l) ∧
    ∀ b x, i.blocks.get? b = some x → s.blocks.get? b = none
  tick   : mayTick s i.core
  calm   : ∀ f fl, i.floes.get? f = some fl → fl.parked = none ∧ fl.st ≠ .parked ∧ fl.due = [] ∧
    ∀ g ∈ fl.frags, ∀ k, g.wait = .cohort k → k ∈ fl.cstanding
  home   : (∀ b ∈ i.blocks.keys, coreOf b = i.core) ∧ ∀ f ∈ i.floes.keys, ∃ b ∈ i.blocks.keys, blockOf f = b
  keys   : i.floes.keys.Nodup ∧ i.blocks.keys.Nodup ∧ i.image.mcast.keys.Nodup
  here   : (s.floes.keys.filter (fun f => blockOf f ∈ i.blocks.keys)) = []
/-- The state after the restore: each block on its place, each floe as saved with the core's new time as its floor, its engines going on. -/
structure Restored (s : State) (l : Nat) (i : CoreImage) (t : State) : Prop where
  rest   : t = { s with cores := t.cores, blocks := t.blocks, floes := t.floes, images := s.images.filter (fun x => x.launch ≠ l)
                        restores := s.restores.filter (fun x => x ≠ l) }
  floes  : ∀ f fl, i.floes.get? f = some fl → t.floes.get? f = some { fl with
      floor := (s.core i.core).ctime + 1, cmds := fl.cmds.map (fun c => { c with pausedAt := none })
      st := (t.floe f).st, readyAt := (t.floe f).readyAt } ∧
    (fl.st ∉ [.active, .ready, .waiting] → (t.floe f).st = fl.st)
  others : ∀ f, i.floes.get? f = none → t.floes.get? f = s.floes.get? f
  blocks : ∀ b x, i.blocks.get? b = some x → t.block b = { x with streams := (t.block b).streams }
  stay   : ∀ b, i.blocks.get? b = none → t.block b = s.block b
  core   : (t.core i.core).ctime = (s.core i.core).ctime + 1 ∧ (t.core i.core).slots = i.image.slots ∧
    (t.core i.core).tiles = i.image.tiles ∧ (t.core i.core).ending = i.image.ending ∧
    (∀ k, (t.core i.core).mcast.get? k = (i.image.mcast.get? k).or ((s.core i.core).mcast.get? k)) ∧
    (t.core i.core).nextRun = i.image.nextRun ∧ (t.core i.core).pages = (s.core i.core).pages
  cores  : ∀ k, k ≠ i.core → t.core k = { s.core k with run := (t.core k).run, staging := (t.core k).staging }

/-! ## Rollback and replay (R211, R285, R287, R288) -/

/-- A launch that rolls back, with no resident block, floe or image, while no frame migrates and nothing of its copied frames is cached. -/
structure MayRollBack (s : State) (l : Nat) (x : Launch) : Prop where
  here   : s.launches.get? l = some x ∧ x.phase = .rolledBack
  empty  : (∀ b y, s.blocks.get? b = some y → y.launch ≠ l) ∧ ∀ f ∈ s.floes.keys, (s.block (blockOf f)).launch ≠ l
  images : ∀ i ∈ s.images, i.launch ≠ l
  still  : s.migrations = []
  cold   : ∀ c ∈ s.snapshots, c.launch = l → ∀ d < 13, ∀ n y, (s.die d).stack.get? n = some y → n / 512 ≠ c.frame
  once   : ((s.snapshots.filter (fun c => c.launch = l)).map (fun c => c.frame)).Nodup
  bytes  : ∀ c ∈ s.snapshots, c.launch = l → c.bytes.keys.Nodup ∧ ∀ e ∈ c.bytes, e.1 < 2 ^ 16
/-- The state after it: every copied frame as it was copied, staged records gone, the launch waiting to be placed again. -/
structure RolledBack (s : State) (l : Nat) (x : Launch) (t : State) : Prop where
  rest   : t = { s with mem := t.mem, badWords := t.badWords, snapshots := s.snapshots.filter (fun c => c.launch ≠ l), logs := t.logs
                        cores := t.cores
                        restores := s.restores.filter (fun y => y ≠ l), preempts := s.preempts.filter (fun p => p.1 ≠ l)
                        windows := t.windows, launches := t.launches }
  frames : ∀ c ∈ s.snapshots, c.launch = l → ∀ i < 2 ^ 16, t.mem.getD (c.frame * 2 ^ 16 + i) 0 = c.bytes.getD i 0
  memory : ∀ a, (∀ c ∈ s.snapshots, c.launch = l → a / 2 ^ 16 ≠ c.frame) → t.mem.getD a 0 = s.mem.getD a 0
  logs   : ∀ k g, s.logs.get? k = some g → t.logs.get? k = some (if g.stager = some l then { g with
      recs := g.recs.filter (fun r => r.off < g.commit), nextOff := g.commit, nextSeq := g.commitSeq
      durable := min g.durable g.commit, stager := none } else g)
  launch : t.launches.get? l = some { x with
    phase := .toReplay, rollbacks := (if x.cause = 0x0D then x.rollbacks + 1 else x.rollbacks), cause := 0, replicas := [], soiled := []
    staged := [], armed := false, snapSet := [] }
  others : ∀ k, k ≠ l → t.launches.get? k = s.launches.get? k
  windows : ∀ n w, s.windows.get? n = some w → t.windows.get? n = some (if w.launch = l ∧ w.mailbox = false then { w with orphan := true } else w)
  cores  : ∀ c, t.core c = { s.core c with
    lastLaunch := (t.core c).lastLaunch, mcast := (s.core c).mcast.filter (fun e => e.1 / 64 ≠ l) }
/-- A launch that waits to be placed again: its dies are not emptied, one is in service, a core has room for one of its blocks (R33) and, where
cores is 1, the mapped cores for all of them (R35), and its entry segment, parameters and cohort table can be read. -/
structure MayReplay (s : State) (l : Nat) (x : Launch) (r : Reading) : Prop where
  here    : s.launches.get? l = some x ∧ x.phase = .toReplay
  dies    : (∀ e ∈ s.leaving, e.1 ∉ x.dies) ∧ ∃ i, usable s x.desc i
  fits    : Fits x.desc 1
  all     : dfield x.desc 460 1 = 1 → FitsAll s x.desc
  code    : HoldsRun s 3 (dfield x.desc 400 16) (dfield x.desc 0 56) 4096 r.code
  params  : HoldsRun s 1 (dfield x.desc 400 16) (dfield x.desc 64 56) (dfield x.desc 385 6 * 8) r.params
  cohorts : HoldsRun s 1 (dfield x.desc 400 16) (dfield x.desc 192 56) (dfield x.desc 391 9 * 64) r.cohorts
/-- The state after it: the launch is queued again under its `LAUNCHID`, its images read afresh, none of its blocks placed. -/
structure Replaying (s : State) (l : Nat) (x : Launch) (r : Reading) (t : State) : Prop where
  rest   : t = { s with launches := t.launches }
  others : ∀ k, k ≠ l → t.launches.get? k = s.launches.get? k
  launch : ∃ y, t.launches.get? l = some y ∧ y = { x with
      image := y.image, badImage := [], badParams := false, phase := .queued, placed := 0, finished := []
      params := (List.range (dfield x.desc 385 6)).map (fun i => BitVec.ofNat 64 (number r.params (8 * i) 8))
      cohorts := (List.range (dfield x.desc 391 9)).map (fun i => BitVec.ofNat 512 (r.entry i))
      cohPhase := [], driftStep := 0, dies := y.dies } ∧ (∀ i, i ∈ y.dies ↔ usable s x.desc i) ∧
    ∀ j < 4096, y.image.getD j 0 = r.code j
/-- A die's link has failed for good, with launches on it that all run, are replayable, and have rolled back fewer than three times. -/
def mayLoseLink (s : State) (d : Nat) : Prop :=
  d < 4 ∧ (s.die d).inLink = true ∧ ∀ l ∈ s.launchesOn d, ∃ x, s.launches.get? l = some x ∧ x.phase = .running ∧ x.replay = true ∧ x.rollbacks < 3
/-- The state after it: the die is out of service, and those launches roll back. -/
structure LinkLost (s : State) (d : Nat) (t : State) : Prop where
  rest   : t = { s with dies := t.dies, launches := t.launches }
  die    : t.die d = { s.die d with inLink := false } ∧ ∀ k, k ≠ d → t.dies.get? k = s.dies.get? k
  roll   : ∀ l ∈ s.launchesOn d, ∀ x, s.launches.get? l = some x →
    t.launches.get? l = some { x with phase := .rolledBack, cause := 0x0D }
  others : ∀ l, l ∉ s.launchesOn d → t.launches.get? l = s.launches.get? l
/-- No launch waits for cores or runs. -/
def NoneWaits (s : State) : Prop := ∀ l x, s.launches.get? l = some x → x.phase ≠ .queued ∧ x.phase ≠ .running
/-- A die out of service that no launch has blocks on loses its cluster map (log entry 56). -/
def mayUnmapDie (s : State) (d : Nat) : Prop := d < 4 ∧ (s.die d).inLink = false ∧ s.launchesOn d = [] ∧ NoneWaits s
/-- The state after it. -/
structure DieUnmapped (s : State) (d : Nat) (t : State) : Prop where
  rest   : t = { s with dies := t.dies, launches := t.launches }
  die    : t.die d = { s.die d with map := [] } ∧ ∀ k, k ≠ d → t.dies.get? k = s.dies.get? k
  same   : ∀ l, t.launches.get? l = s.launches.get? l

/-! ## Retirement of frames and clusters (R213, R280 to R282, R290, R291) -/

/-- A tier-0 or tier-1 frame. -/
def plainFrame (fr : Nat) : Prop := paOk (fr * 2 ^ 16) = true ∧ paTier (fr * 2 ^ 16) ≤ 1
/-- An event record (R305): its kind, argument and further doubleword, every other field zero. -/
def eventOf (kind arg extra : Nat) : BitVec 512 := BitVec.ofNat 512 (extra % 2 ^ 64 * 2 ^ 128 + arg % 2 ^ 64 * 2 ^ 64 + kind)
/-- Event records already wait, fewer than 1024 of them: a further one joins them. -/
def eventsWait (s : State) : Prop := s.evBacklog ≠ [] ∧ s.evBacklog.length < 1024
/-- Two frames have one memory controller: their tier and stack (R213, R225). -/
def sameController (a b : Nat) : Bool := decide (a / 2 ^ 28 % 4 = b / 2 ^ 28 % 4 ∧ a / 2 ^ 20 % 8 = b / 2 ^ 20 % 8)
/-- A moraine entry covers a frame (R281). -/
def moraineCovers (e : BitVec 128) (fr : Nat) : Prop := fieldN e 16 30 ≤ fr ∧ fr < fieldN e 16 30 + fieldN e 48 16
/-- A frame that firmware has a reason of R281 to retire to another, which stands in the free pool: of one tier, neither retired nor moving,
with room in the list and in its controller's table. -/
structure MayRetire (s : State) (src dst reason : Nat) : Prop where
  reason : reason = 6 ∨ ((src, reason) ∈ s.condemned ∧ 1 ≤ reason ∧ reason ≤ 5)
  pool   : dst ∈ s.freePool
  frames : plainFrame src ∧ plainFrame dst ∧ paTier (src * 2 ^ 16) = paTier (dst * 2 ^ 16) ∧ src ≠ dst
  fresh  : (∀ e ∈ s.moraine, ¬ moraineCovers e src ∧ ¬ moraineCovers e dst) ∧
    (∀ m ∈ s.migrations, m.src ≠ src ∧ m.dst ≠ src ∧ m.src ≠ dst ∧ m.dst ≠ dst) ∧ ∀ r ∈ s.retiring, r.src ≠ src
  room   : s.moraine.length + s.retiring.length < 2 ^ 20 ∧
    (s.migrations.filter (fun m => sameController m.src src)).length < 64
/-- Step 1 of R280: the migration entry, the destination out of the pool, and the snapshots of the frame under its new name. -/
structure RetireBegun (s : State) (src dst reason : Nat) (t : State) : Prop where
  rest  : t = { s with migrations := s.migrations ++ [⟨src, dst, 0⟩], retiring := s.retiring ++ [⟨src, dst, reason, 1⟩]
                       condemned := s.condemned.filter (fun e => e.1 ≠ src), freePool := s.freePool.filter (fun x => x ≠ dst)
                       snapshots := s.snapshots.map (fun c => if c.frame = src then { c with frame := dst } else c), launches := t.launches }
  sets  : ∀ l x, s.launches.get? l = some x → t.launches.get? l = some { x with
    snapSet := x.snapSet.map (fun f => if f = src then dst else f) }
/-- A retirement under way at a stage, its frame's only one. -/
def atStage (s : State) (src : Nat) (r : Retirement) (n : Nat) : Prop :=
  s.retiring.find? (fun x => x.src = src) = some r ∧ r.stage = n
/-- Retirements with one at its next stage. -/
def staged (s : State) (src n : Nat) : List Retirement := s.retiring.map (fun x => if x.src = src then { x with stage := n } else x)
/-- The moraine entry of n consecutive frames (R281): time, their count, the first one's number, the reason. -/
structure MoraineEntry (e : BitVec 128) (time : W64) (n src reason : Nat) : Prop where
  time   : fieldN e 64 64 = time.toNat
  frames : fieldN e 48 16 = n ∧ fieldN e 16 30 = src % 2 ^ 30
  reason : fieldN e 8 8 = reason % 2 ^ 8 ∧ fieldN e 0 8 = 0 ∧ fieldN e 46 2 = 0
/-- The frame's lines have all moved. -/
def hasMoved (s : State) (src : Nat) : Prop := ∀ m ∈ s.migrations, m.src = src → 512 ≤ m.ptr
/-- A retirement of a frame waits for its entry, for a reason. -/
def waitsEntry (s : State) (reason fr : Nat) : Prop := ∃ x ∈ s.retiring, x.src = fr ∧ x.stage = 3 ∧ x.reason = reason
/-- n consecutive frames from src on wait for one entry of a reason; the next one does not, or the entry's count is full. -/
def EntryRun (s : State) (src reason n : Nat) : Prop :=
  1 ≤ n ∧ n ≤ 65535 ∧ (∀ j < n, waitsEntry s reason (src + j)) ∧ (¬ waitsEntry s reason (src + n) ∨ n = 65535)
/-- What the steps of a retirement do, by stage: the remap is asked for once every line has moved, the entry appended once the host has remapped,
the second copy written, which makes the entry durable, and then the migration ended. -/
inductive RetireStep (s : State) (src dst reason : Nat) : State → Prop where
  | begin (t : State) : MayRetire s src dst reason → RetireBegun s src dst reason t → RetireStep s src dst reason t
  | ask (r : Retirement) : atStage s src r 1 → RetireStep s src dst reason { s with
      evBacklog := s.evBacklog ++ [eventOf 1 (src * 2 ^ 16) (r.dst * 2 ^ 16)], retiring := staged s src 2 }
  | append (r : Retirement) (e : BitVec 128) (n : Nat) : atStage s src r 3 → EntryRun s src r.reason n →
      MoraineEntry e s.time n src r.reason → RetireStep s src dst reason { s with
        moraine := s.moraine ++ [e]
        retiring := s.retiring.map (fun x => if src ≤ x.src ∧ x.src < src + n then { x with stage := 4 } else x) }
  | copy (r : Retirement) : atStage s src r 4 → RetireStep s src dst reason { s with moraine2 := s.moraine, retiring := staged s src 5 }
  | finish (r : Retirement) : atStage s src r 5 → RetireStep s src dst reason { s with
      migrations := s.migrations.filter (fun m => m.src ≠ src), retiring := s.retiring.filter (fun x => x.src ≠ src) }
/-- A retirement that can take its next step; for the last, no line of the frame is cached. -/
inductive MayStep (s : State) (src dst reason : Nat) : Prop where
  | begin : MayRetire s src dst reason → MayStep s src dst reason
  | ask (r : Retirement) : atStage s src r 1 → hasMoved s src → eventsWait s → MayStep s src dst reason
  | append (r : Retirement) (n : Nat) : atStage s src r 3 → EntryRun s src r.reason n → MayStep s src dst reason
  | copy (r : Retirement) : atStage s src r 4 → MayStep s src dst reason
  | finish (r : Retirement) : atStage s src r 5 → (∀ d < 13, ∀ n y, (s.die d).stack.get? n = some y → n / 512 ≠ src) → MayStep s src dst reason

/-- A cluster of an emptied die that leaves (R290): no launch that cannot be replayed has still to end on the die. -/
structure MayUnmap (s : State) (d cl : Nat) : Prop where
  leaving : (d, cl) ∈ s.leaving ∧ d < 4 ∧ cl < (s.die d).map.length ∧ (s.die d).map.getD cl 0 < 12
  empty   : s.launchesOn d = [] ∧ NoneWaits s
  ended   : ∀ e ∈ s.launches, e.2.replay = true ∨ d ∉ e.2.dies ∨ (e.2.phase ≠ .halting ∧ e.2.phase ≠ .running)
  events  : eventsWait s
/-- The island of a die that has the cluster leaving. -/
def islandLeft (s : State) (d cl : Nat) : Nat := d * 6 + (s.die d).map.getD cl 0 / 2
/-- The cores of the die whose cluster stands behind the one that has left have moved down by one cluster; those before it, and every other
die's, stand where they stood; `n` entries to a core. -/
def CoresMoved {α : Type} (d cl n : Nat) (old new : Tab α) : Prop :=
  (∀ c, ∀ row < n, dieOfCore c ≠ d ∨ c % 96 / 8 < cl → new.get? (c * n + row) = old.get? (c * n + row)) ∧
  ∀ c, ∀ row < n, dieOfCore c = d → cl ≤ c % 96 / 8 → c % 96 / 8 < 11 → new.get? (c * n + row) = old.get? ((c + 8) * n + row)
/-- The state after the new map is written: the clusters behind it move down by one, with their cores and their event counts (log entry 56);
an island without clusters is off; event kind 3 names the physical cluster. -/
structure Unmapped (s : State) (d cl : Nat) (t : State) : Prop where
  rest   : t = { s with dies := t.dies, cores := t.cores, leaving := t.leaving, evBacklog := t.evBacklog, counts := t.counts
                        acted := t.acted, islands := t.islands, launches := t.launches }
  same   : ∀ l, t.launches.get? l = s.launches.get? l
  die    : t.die d = { s.die d with map := (s.die d).map.eraseIdx cl } ∧ ∀ k, k ≠ d → t.dies.get? k = s.dies.get? k
  event  : t.evBacklog = s.evBacklog ++ [eventOf 3 (d * 12 + (s.die d).map.getD cl 0) 0]
  cores  : CoresMoved d cl 1 s.cores t.cores
  counts : CoresMoved d cl 4 s.counts t.counts ∧ CoresMoved d cl 4 s.acted t.acted
  island : islandNo t (islandLeft s d cl) = (if ∃ p ∈ (s.die d).map.eraseIdx cl, p / 2 = (s.die d).map.getD cl 0 / 2
      then islandNo s (islandLeft s d cl) else { islandNo s (islandLeft s d cl) with off := true }) ∧
    ∀ j, j ≠ islandLeft s d cl → islandNo t j = islandNo s j
  left   : ∀ e ∈ t.leaving, e.1 = d → e.2 < cl ∨ (d, e.2 + 1) ∈ s.leaving
/-- The count of a row of R291 as an event at a time comes, with earlier ones: those of the last hour, of the last 24 hours, of the last 30
days, or all of them. -/
def windowCount (row : Nat) (time : W64) (earlier : List W64) : Nat :=
  1 + (earlier.filter (fun t => decide (row = 3 ∨ time.toNat < t.toNat + [1, 24, 720].getD row 0 * 3600000000000))).length
/-- A count of R291 has reached its threshold, for rows 0 to 3 that of 8, 2, 2 and 1, times the factor of control 2, with an event that has come
since the row last acted; the newest stand first. -/
def countReached (s : State) (c row : Nat) : Prop :=
  row < 4 ∧ ∃ later time earlier, s.counts.getD (c * 4 + row) [] = later ++ time :: earlier ∧
    later.length < (s.counts.getD (c * 4 + row) []).length - s.acted.getD (c * 4 + row) 0 ∧
    windowCount row time earlier = [8, 2, 2, 1].getD row 1 * s.factors.getD row 1
/-- A cluster of a core's die that shares the core's island. -/
def sharesIsland (s : State) (c cl : Nat) : Prop :=
  cl < (s.die (dieOfCore c)).map.length ∧ (s.die (dieOfCore c)).map.getD cl 0 / 2 = (s.die (dieOfCore c)).map.getD (c % 96 / 8) 0 / 2
/-- The state after it has acted, on a die that holds no launch: the events that have come are acted on, and stay in the window; row 0 asks for a
re-plan of the core's island, unless control 3 has fixed its operating point (R304), rows 1 and 2 for the retirement of its cluster, row 3 for
that of its island's clusters. -/
structure Acted (s : State) (c row : Nat) (t : State) : Prop where
  rest   : t = { s with acted := t.acted, replans := t.replans, leaving := t.leaving }
  acted  : ∀ k, t.acted.getD k 0 = if k = c * 4 + row then (s.counts.getD k []).length else s.acted.getD k 0
  replan : row = 0 → t.leaving = s.leaving ∧ ∀ i, i ∈ t.replans ↔
    i ∈ s.replans ∨ (i = s.islandOf c ∧ (islandNo s i).fixed = none)
  leave  : row = 1 ∨ row = 2 → t.replans = s.replans ∧ t.leaving = s.leaving ++ [(dieOfCore c, c % 96 / 8)]
  both   : row = 3 → t.replans = s.replans ∧ ∀ e, e ∈ t.leaving ↔ e ∈ s.leaving ∨ (e.1 = dieOfCore c ∧ sharesIsland s c e.2)

/-! ## Ageing (R292 to R295) -/

/-- How much an oscillator has slowed against its baseline, in ppm; without a baseline it has not (log entry 60). -/
def ppmSlower (base now : Nat) : Int := if base = 0 then 0 else ((base : Int) - now) * 1000000 / base
/-- m is the median of a list, the mean of the two middle ones (log entry 60). -/
def MedianOf (l : List Int) (m : Int) : Prop :=
  ∃ o : List Int, o.Perm l ∧ o.Pairwise (· ≤ ·) ∧ m = (o.getD ((o.length - 1) / 2) 0 + o.getD (o.length / 2) 0) / 2
/-- The median slowdown of an island whose oscillators read `samples` (R295). -/
def SlowBy (x : Island) (samples : List Nat) (m : Int) : Prop :=
  MedianOf (List.zipWith ppmSlower x.baseline samples) m
/-- m is the least of a list. -/
def LeastOf (l : List Nat) (m : Nat) : Prop := m ∈ l ∧ ∀ x ∈ l, m ≤ x
/-- An ageing record (R295). -/
structure AgeingRecord (e : BitVec 256) (time : W64) (ro : Int) (margin : Nat) (offset : Int) (mhz island action : Nat) : Prop where
  time   : fieldN e 192 64 = time.toNat
  ro     : fieldN e 160 32 = (BitVec.ofInt 32 ro).toNat
  margin : fieldN e 144 16 = margin % 2 ^ 16
  offset : fieldN e 128 16 = (BitVec.ofInt 16 offset).toNat
  freq   : fieldN e 112 16 = mhz % 2 ^ 16
  island : fieldN e 104 8 = island % 2 ^ 8
  action : fieldN e 96 8 = action
  zero   : fieldN e 0 96 = 0
/-- What the 16 canary paths show after j steps of a sweep (R292). -/
def pathsAfter (margins : List Nat) (j : Nat) : List Nat := (margins.drop (16 * j)).take 16
/-- A sweep in which a canary path falls short k times and all are met after k steps of 5 mV, within +50 mV of nominal (R293 step 1). -/
structure CanarySwept (s : State) (i : Nat) (margins : List Nat) (k : Nat) : Prop where
  free  : (islandNo s i).fixed = none
  low   : 16 * (k + 1) ≤ margins.length ∧ ∀ j < k, ∃ m ∈ pathsAfter margins j, m < 25
  met   : ∀ m ∈ pathsAfter margins k, 25 ≤ m
  range : (islandNo s i).offset + 5 * k ≤ 50 ∧ -25 ≤ (islandNo s i).offset
/-- The oscillators' samples of an island after those of a window, if it took all 32 and the island is on (R292). -/
def samplesNow (s : State) (i : Nat) (samples : List Nat) : List Nat :=
  if samples.length = 32 ∧ (islandNo s i).off = false then samples else (islandNo s i).samples
/-- The state after it: the island's offset raised by the steps it took, its frequency as it was, its oscillators' samples and its canaries'
margins as measured, and an ageing record of it. -/
structure Replanned (s : State) (i : Nat) (margins samples : List Nat) (k : Nat) (t : State) : Prop where
  rest    : t = { s with islands := t.islands, ageing := t.ageing, replans := t.replans }
  island  : islandNo t i = { islandNo s i with
    offset := (islandNo s i).offset + 5 * k, samples := samplesNow s i samples, canaries := pathsAfter margins k }
  others  : ∀ j, j ≠ i → t.islands.get? j = s.islands.get? j
  ageing  : ∀ ro least, SlowBy (islandNo s i) (samplesNow s i samples) ro → LeastOf (pathsAfter margins k) least →
    ∃ e, t.ageing = s.ageing ++ [e] ∧ AgeingRecord e s.time ro least ((islandNo s i).offset + 5 * k)
      ((if i < 24 then 3000 else Config.uncoreMHz i) * ((islandNo s i).freq - (islandNo s i).cut) / 100) i (if k = 0 then 0 else 1)

/-- An island whose operating point control 3 has fixed is not re-planned (R304): its window leaves the oscillators' samples and the canaries'
margins as measured, and an ageing record with action 0 (R292, R295). -/
structure FixedLogged (s : State) (i : Nat) (samples canaries : List Nat) (t : State) : Prop where
  rest    : t = { s with islands := t.islands, ageing := t.ageing }
  island  : islandNo t i = { islandNo s i with samples := samplesNow s i samples, canaries := canaries }
  others  : ∀ j, j ≠ i → t.islands.get? j = s.islands.get? j
  ageing  : ∀ ro least, SlowBy (islandNo s i) (samplesNow s i samples) ro → LeastOf canaries least →
    ∃ e, t.ageing = s.ageing ++ [e] ∧ AgeingRecord e s.time ro least (islandNo s i).offset
      ((if i < 24 then 3000 else Config.uncoreMHz i) * ((islandNo s i).freq - (islandNo s i).cut) / 100) i 0
/-- No block is resident on the cores of an island. -/
def emptyIsland (s : State) (i : Nat) : Prop := ∀ e ∈ s.blocks, s.islandOf (coreOf e.1) ≠ i

/-! ## The drift exchange (R252, R254) -/

/-- A running launch on two dies, with a block resident or saved, one replica line of one type on both and none else, whose exchange goes
round the ring. -/
structure TwoReplicas (s : State) (l d e ln : Nat) (a b : Replica) (x : Launch) : Prop where
  alive : (∃ b y, s.blocks.get? b = some y ∧ y.launch = l) ∨ ∃ i ∈ s.images, i.launch = l
  clean : a.poison = 0 ∧ b.poison = 0
  here  : s.launches.get? l = some x ∧ x.phase = .running ∧ x.dies = [d, e] ∧ d ≠ e ∧ d < 4 ∧ e < 4
  sched : fieldN x.drift 0 2 = 0
  lines : ln < 2 ^ 39 ∧ x.replicas.length = 2 ∧ x.replicas.get? (d * 2 ^ 46 + ln) = some a ∧ x.replicas.get? (e * 2 ^ 46 + ln) = some b
  types : a.ltype = b.ltype ∧ 1 ≤ a.ltype ∧ a.ltype ≤ 7
/-- Each cell of a line is the join of two lines' cells; in a GCOUNT line each die's count is the greater one (R241, R252). -/
def JoinOf (a b c : Replica) : Prop :=
  c.ltype = a.ltype ∧
  (a.ltype ≠ 6 → ∀ i, (i + 1) * cellBytes a.ltype ≤ 128 →
    lineValue c.data (i * cellBytes a.ltype) (cellBytes a.ltype) = latJoin a.ltype (lineValue a.data (i * cellBytes a.ltype) (cellBytes a.ltype))
      (lineValue b.data (i * cellBytes a.ltype) (cellBytes a.ltype)) % 256 ^ cellBytes a.ltype) ∧
  (a.ltype = 6 → c.data = a.data ∧ ∀ k < 128, (c.slots.getD k 0).toNat = max (a.slots.getD k 0).toNat (b.slots.getD k 0).toNat)
/-- The state after the step: each die's line has joined the other's as it stood before. -/
structure Exchanged (s : State) (l d e ln : Nat) (a b : Replica) (x : Launch) (t : State) : Prop where
  rest   : t = { s with launches := t.launches }
  others : ∀ k, k ≠ l → t.launches.get? k = s.launches.get? k
  launch : ∃ y, t.launches.get? l = some y ∧ y = { x with driftStep := x.driftStep + 1, replicas := y.replicas } ∧
    (∃ c, y.replicas.get? (d * 2 ^ 46 + ln) = some c ∧ JoinOf a b c) ∧ ∃ c, y.replicas.get? (e * 2 ^ 46 + ln) = some c ∧ JoinOf b a c

/-! ## The steps of firmware -/

/-- The steps of firmware that carry operands: when they have their effect, and what it is. -/
def firmwareRule (s : State) : Instr → Option Event
  | .coreHalt c => some { when := MayHalt s c, next := Halted s c }
  | .saveImageWrite c => some
      { when := ∃ l, MaySave s c l
        next := fun t => ∀ l, MaySave s c l → ImageSaved s c l t }
  | .restorePlacement l => some
      { when := ∃ i, MayRestore s l i
        next := fun t => ∀ i, MayRestore s l i → Restored s l i t }
  | .rollback l => some
      { when := ∃ x, MayRollBack s l x
        next := fun t => ∀ x, MayRollBack s l x → RolledBack s l x t }
  | .launchReplay l => some
      { when := ∃ x r, MayReplay s l x r
        next := fun t => ∀ x r, MayReplay s l x r → Replaying s l x r t }
  | .linkRetryExhausted d => some
      { when := mayLoseLink s d ∨ mayUnmapDie s d
        next := fun t => (mayLoseLink s d → LinkLost s d t) ∧ (mayUnmapDie s d → DieUnmapped s d t) }
  | .frameRetirement src dst reason => some
      { when := MayStep s src dst reason
        next := RetireStep s src dst reason }
  | .clusterRetirement d cl => some { when := MayUnmap s d cl, next := Unmapped s d cl }
  | .escalationThreshold c row => some
      { when := countReached s c row ∧ (row ≠ 0 → s.launchesOn (dieOfCore c) = [] ∧
          c % 96 / 8 < (s.die (dieOfCore c)).map.length ∧ (dieOfCore c, c % 96 / 8) ∉ s.leaving ∧
          (s.die (dieOfCore c)).map.getD (c % 96 / 8) 0 < 12)
        next := Acted s c row }
  | .oscillatorSample i freqs => some
      { when := i < 32 ∧ freqs.length = 32 ∧ (islandNo s i).off = false
        next := fun t => t = { s with islands := t.islands } ∧ islandNo t i = { islandNo s i with samples := freqs } ∧
          ∀ j, j ≠ i → t.islands.get? j = s.islands.get? j }
  | .replanningWindow i margins samples => some
      { when := i < 24 ∧ (∃ cl < (s.die (i / 6)).map.length, (s.die (i / 6)).map.getD cl 0 / 2 = i % 6) ∧
          ((emptyIsland s i ∧ ∃ k, CanarySwept s i margins k) ∨ ((islandNo s i).fixed ≠ none ∧ 16 ≤ margins.length))
        next := fun t => (emptyIsland s i → ∀ k, CanarySwept s i margins k → Replanned s i margins samples k t ∧
            t.replans = s.replans.filter (fun x => x ≠ i)) ∧
          ((islandNo s i).fixed ≠ none → (emptyIsland s i → FixedLogged s i samples (margins.take 16) t) ∧
            (¬ emptyIsland s i → FixedLogged s i samples (islandNo s i).canaries t)) }
  | .uncoreCanarySweep i margins samples => some
      { when := 24 ≤ i ∧ i < 32 ∧ ((∃ k, CanarySwept s i margins k) ∨ ((islandNo s i).fixed ≠ none ∧ 16 ≤ margins.length))
        next := fun t => (∀ k, CanarySwept s i margins k → Replanned s i margins samples k t ∧ t.replans = s.replans) ∧
          ((islandNo s i).fixed ≠ none → FixedLogged s i samples (margins.take 16) t) }
  | .windowMissed i => some
      { when := i ∈ s.replans ∧ i < 24 ∧ eventsWait s
        next := fun t => t = { s with replans := s.replans.filter (fun x => x ≠ i), ageing := t.ageing
                                      evBacklog := s.evBacklog ++ [eventOf 4 i 0] } ∧
          ∀ ro least, SlowBy (islandNo s i) (islandNo s i).samples ro → LeastOf (islandNo s i).canaries least →
            ∃ e, t.ageing = s.ageing ++ [e] ∧ AgeingRecord e s.time ro least (islandNo s i).offset
              (3000 * ((islandNo s i).freq - (islandNo s i).cut) / 100) i 4 }
  | .garbageCollection stack lines used => some
      { when := stack < 8 ∧ s.spare.getD stack 0 ≤ used ∧ used < 2 ^ 37
        next := fun t => t = { s with firnHeld := t.firnHeld, spare := t.spare } ∧ t.spare.getD stack 0 = used ∧
          (∀ k, k ≠ stack → t.spare.getD k 0 = s.spare.getD k 0) ∧
          ∀ n, n ∈ t.firnHeld ↔ n ∈ s.firnHeld ∨
            (n ∈ lines ∧ paOk (n * 128) = true ∧ paTier (n * 128) = 2 ∧ n * 128 % 2 ^ 44 / 2 ^ 40 = stack) }
  | .powerCapControl watts i => some
      { when := i < 24 ∧ (islandNo s i).off = false
        next := fun t => t = { s with islands := t.islands } ∧ (∀ j, j ≠ i → t.islands.get? j = s.islands.get? j) ∧
          islandNo t i = { islandNo s i with
            cut := if s.powerCap < watts then min ((islandNo s i).cut + 1) (islandNo s i).freq else (islandNo s i).cut - 1 } }
  | .driftExchangeStep l => some
      { when := ∃ d e ln a b x, TwoReplicas s l d e ln a b x
        next := fun t => ∀ d e ln a b x, TwoReplicas s l d e ln a b x → Exchanged s l d e ln a b x t }
  | _ => none

end Sys2Proof.Claims
end

