-- ==== Sys2Proof/Claims/Floe.lean ====
section
/-!
DEFINITION. What the rules of the manual say of lanes that exit and of width changes (R21, R23, R42, R50 to R57, R363, R364).
-/
namespace Sys2Proof.Claims
open Sys2Proof.Machine

/-! ## EXIT (R21, R363, R364) -/

/-- The lanes that are live once the issuing fragment's active lanes have exited. -/
def liveAfter (s : State) : Mask := s.fl.live &&& ~~~s.fg.active
/-- No call record is live, or the fragment is no handler (R363). -/
def mayExit (s : State) : Prop := s.fg.handler = false ∨ s.fl.recs = []

/-- The state after an `EXIT` that leaves the floe live lanes: they alone are live; with an empty mask stack the fragment is gone and
the others stand where they stood; else its first deferred group goes on. -/
structure LanesExited (s t : State) : Prop where
  own   : OnlyFloe s s.cur.floe t
  floe  : t.fl = { s.fl with live := liveAfter s, frags := t.fl.frags, st := t.fl.st, readyAt := t.fl.readyAt }
  ends  : s.fg.stack = [] → (∀ g ∈ t.fl.frags, g.id ≠ s.cur.frag) ∧
    ∀ j, j ≠ s.cur.frag → (t.frag s.cur.floe j).pc = (s.frag s.cur.floe j).pc ∧
      (t.frag s.cur.floe j).active = (s.frag s.cur.floe j).active ∧ (t.frag s.cur.floe j).wait = (s.frag s.cur.floe j).wait
  pops  : ∀ e rest, s.fg.stack = e :: rest → s.fl.frags = [s.fg] →
    (∀ x ∈ e :: rest, x.mask &&& liveAfter s = x.mask ∧ x.mask ≠ 0) →
    t.fl.frags = [{ s.fg with pc := e.pc, active := e.mask, stack := rest, wait := .none, rb := none, left := none }]

/-- The state after the last lanes of a floe have exited: the floe has retired, holding no fragment, no queue and no standing; no
memory, cache or core has changed. -/
structure Retired (s t : State) : Prop where
  rest : t = { s with floes := t.floes, blocks := t.blocks }
  floe : t.fl = { s.fl with st := .retired, live := 0, frags := [], queues := [], standing := 0, cstanding := []
                            cmds := t.fl.cmds, readyAt := t.fl.readyAt }
  regs : t.blk.vregs = s.blk.vregs ∧ t.blk.preds = s.blk.preds ∧ t.blk.spad = s.blk.spad
  gone : ∀ x, s.fl.base ≤ x → x < s.fl.base + s.fl.width → ∀ q < 16, t.blk.qent x q = []

/-! ## SPLIT (R50, R51, R57) -/

/-- The lanes that a split makes of its width code. -/
def childWidth (w : BitVec 2) : Nat := 16 * 2 ^ w.toNat
/-- The live lanes of child j, renumbered from 0. -/
def childLive (s : State) (c j l : Nat) : Bool := decide (l < c) && s.fl.live.getLsbD (j * c + l)

/-- The conditions under which a floe splits at once: a child width narrower than its own and no narrower than maxsplit, no divergence,
no live record, every counter zero, no guarded stream held, and a live lane in every child. -/
structure CanSplit (s : State) (c : Nat) : Prop where
  narrower : c < s.fl.width ∧ s.blk.maxsplit ≤ c
  shape    : s.fl.width % c = 0 ∧ s.fl.width ≤ 128 ∧ s.fl.base % 16 = 0 ∧ floeKey (blockOf s.cur.floe) s.fl.base = s.cur.floe
  whole    : s.fl.frags = [s.fg] ∧ s.fg.stack = [] ∧ s.fl.recs = []
  idle     : s.fl.ops = [] ∧ s.fl.tile = 0 ∧ ∀ e ∈ s.fl.cmds, e.cls ≠ .copies ∧ e.cls ≠ .net
  streams  : ∀ e ∈ s.blk.streams, ¬(e.2.guardSt = .held ∧ (s.fl.queue e.2.queue).stream = some e.1)
  live     : ∀ j < s.fl.width / c, ∃ l < c, childLive s c j l = true

/-- The state after a split: each child holds the parent's registers, its own lanes at the next instruction, and of the network bit, the
reported causes and the release fences only child 0 anything. Vector registers, predicates and queues' entries stay where they are. -/
structure Split (s : State) (c : Nat) (t : State) : Prop where
  rest   : t = { s with floes := t.floes }
  others : ∀ g, (∀ j < s.fl.width / c, g ≠ floeKey (blockOf s.cur.floe) (s.fl.base + j * c)) → t.floes.get? g = s.floes.get? g
  child  : ∀ j < s.fl.width / c, ∃ k g, t.floes.get? (floeKey (blockOf s.cur.floe) (s.fl.base + j * c)) = some k ∧
    k.frags = [g] ∧ g.pc = behind s 4 ∧ g.active = k.live ∧ g.stack = [] ∧ g.wait = .none ∧
    (∀ l < 128, k.live.getLsbD l = childLive s c j l) ∧ k.st = (if j = 0 ∧ s.fl.st ≠ .waiting then s.fl.st else .ready) ∧
    k = { s.fl with
      width := c, base := s.fl.base + j * c, st := k.st, frags := k.frags, nextFrag := k.nextFrag, live := k.live
      readyAt := k.readyAt, uipend := if j = 0 then s.fl.uipend else s.fl.uipend &&& 5
      reports := if j = 0 then s.fl.reports else [], rels := if j = 0 then s.fl.rels else [] }

/-! ## FUSE (R53 to R57) -/

/-- The buddy of the issuing floe: the unretired floe of its block and width that covers the buddy range (R47, R53). -/
def IsBuddy (s : State) (g : Nat) : Prop :=
  s.unretired g = true ∧ blockOf g = blockOf s.cur.floe ∧ (s.floe g).width = s.fl.width ∧
    (s.floe g).base = (if s.fl.base / s.fl.width % 2 = 0 then s.fl.base + s.fl.width else s.fl.base - s.fl.width)
/-- A floe waits in a `FUSE`. -/
def fusing (s : State) (g : Nat) : Prop := ∃ x ∈ (s.floe g).frags, x.wait = .fuse
/-- Every outstanding counter of the issuing floe is zero. -/
def quiet (s : State) : Prop := s.fl.ops = [] ∧ s.fl.tile = 0 ∧ ∀ e ∈ s.fl.cmds, e.cls ≠ .copies ∧ e.cls ≠ .net
/-- One fragment with an empty mask stack. -/
def converged (s : State) : Prop := s.fl.frags.length = 1 ∧ s.fg.stack = [] ∧ s.fl.recs = []

/-- The first of R53's own checks that fails, with its status. -/
inductive OwnStatus (s : State) : Nat → Prop where
  | wide : 128 < 2 * s.fl.width → OwnStatus s 6
  | alone : 2 * s.fl.width ≤ 128 → (∀ g, ¬ IsBuddy s g) → OwnStatus s 1
  | diverged (g : Nat) : 2 * s.fl.width ≤ 128 → IsBuddy s g → ¬ converged s → OwnStatus s 3
  | busy (g : Nat) : 2 * s.fl.width ≤ 128 → IsBuddy s g → converged s → ¬ quiet s → OwnStatus s 4
/-- A `FUSE` that fails one of its own checks while no buddy waits: the status in sd and FUSEST, and the next instruction. -/
def fuseFails (s : State) (d : BitVec 6) (status : Nat) : Jump :=
  { target := behind s 4
    set := fun fl => { fl.setS d.toNat (BitVec.ofNat 64 status) with fusest := BitVec.ofNat 64 status }
    also := OwnStatus s status ∧ ∀ g, IsBuddy s g → ¬ fusing s g }

/-- The queue registers of two floes agree in mode, port and depth, and stream-fed ones were shared by one split (R53 check 6). -/
def sameQueues (x y : Floe) : Prop :=
  ∀ q < 16, (x.queue q).mode = (y.queue q).mode ∧ (x.queue q).port = (y.queue q).port ∧ (x.queue q).depth = (y.queue q).depth ∧
    ((x.queue q).mode = .stream → (x.queue q).tag = (y.queue q).tag ∧ (x.queue q).stream = (y.queue q).stream)
/-- The conditions under which a `FUSE` forms the fused floe: its own checks pass, its one buddy waits at the same address, and the pair
agrees. -/
structure CanFuse (s : State) (g : Nat) : Prop where
  width    : 2 * s.fl.width ≤ 128
  buddy    : g ≠ s.cur.floe ∧ IsBuddy s g ∧ ∀ h, IsBuddy s h → h = g
  own      : converged s ∧ quiet s
  waits    : ∃ x ∈ (s.floe g).frags, x.wait = .fuse ∧ x.pc = s.fg.pc ∧ ∀ y ∈ (s.floe g).frags, y = x
  rbase    : s.fl.rbase = (s.floe g).rbase
  queues   : sameQueues s.fl (s.floe g)
  standing : s.fl.standing = (s.floe g).standing ∧ ∀ c, c ∈ s.fl.cstanding ↔ c ∈ (s.floe g).cstanding
  reports  : s.fl.reports.length + (s.floe g).reports.length ≤ 8

/-- Two floes differ in a uniform register other than sd or in a guard slot (R56). -/
def differ (s : State) (d : BitVec 6) (l r : Nat) : Prop :=
  (∃ n < 64, n ≠ d.toNat ∧ (s.floe l).S n ≠ (s.floe r).S n) ∨ (s.floe l).guards ≠ (s.floe r).guards
/-- The state after two floes have fused: the left floe l holds both floes' lanes at the next instruction, the status word in sd and
FUSEST, both floes' pending interrupts, causes and release fences and the later acquire floor; the right floe r is gone. -/
structure Fused (s : State) (d : BitVec 6) (l r : Nat) (t : State) : Prop where
  rest   : t = { s with floes := t.floes }
  others : ∀ k, k ≠ l → k ≠ r → t.floes.get? k = s.floes.get? k
  right  : t.floes.get? r = none
  left   : ∃ k g status, t.floes.get? l = some k ∧ k.frags = [g] ∧ g.pc = behind s 4 ∧ g.active = k.live ∧ g.stack = [] ∧
    k.live = (s.floe l).live ||| ((s.floe r).live <<< (s.floe l).width) ∧
    (differ s d l r → status = 0x100) ∧ (¬ differ s d l r → status = 0) ∧
    k = { (s.floe l).setS d.toNat status with
      fusest := status, width := 2 * (s.floe l).width, st := k.st, readyAt := k.readyAt, frags := k.frags, nextFrag := k.nextFrag
      live := k.live, uipend := (s.floe l).uipend ||| (s.floe r).uipend, floor := laterOf (s.floe l).floor (s.floe r).floor
      reports := (s.floe l).reports ++ (s.floe r).reports, rels := (s.floe l).rels ++ (s.floe r).rels }

end Sys2Proof.Claims
end

