-- ==== Sys2Proof/Claims/Matrix.lean ====
section
/-!
DEFINITION. What the rules of the manual say of the block sequencer's words, the matrix engine, the drain and the store engine (R129, R131,
R141 to R149, R153 to R166, R400 to R409, R458).
-/
namespace Sys2Proof.Claims
open Sys2Proof.Machine

/-! ## Runs and descriptors -/

/-- Entry k of a run's descriptor table; entry 0 is the header (R144). -/
def entryOf (r : Run) (k : Nat) : BitVec 256 := r.table.getD k 0
/-- The initial value of loop counter k (R144). -/
def initOf (r : Run) (k : Nat) : Nat := (entryOf r 0).toNat / 2 ^ (16 * k) % 2 ^ 16
/-- The iteration indices i0 to i3: initial value less counter (R145). -/
def indices (r : Run) : List Nat := (List.range 4).map (fun k => initOf r k - (r.l.getD k 0).toNat)
/-- The barrier mask of a run holds barrier n (R144). -/
def counts (r : Run) (n : Nat) : Prop := (entryOf r 0).getLsbD (64 + n) = true
/-- The quanta of the unretired floes of a block (R42). -/
def floeQuanta (s : State) (b : Nat) : Nat := ((s.liveFloes b).map (fun f => quanta (s.floe f))).sum
/-- The arrival count of a barrier of a block. -/
def arrivedAt (s : State) (b n : Nat) : Nat := ((s.block b).bars.getD n Barrier.reset).count

/-- An operand descriptor that reads the issuing block's own scratchpad, for a format and K-block (R146): kind 1, self 1, no multicast,
reserved fields zero, aligned fields, lines no longer than the stride. -/
structure OwnOperand (e : BitVec 256) (f k : Nat) : Prop where
  kind     : fieldN e 0 3 = 1 ∧ fieldN e 7 1 = 1 ∧ fieldN e 8 8 = 0
  reserved : fieldN e 192 64 = 0 ∧ fieldN e 20 12 = 0 ∧ fieldN e 3 1 = 0
  aligned  : (∀ i < 4, fieldN e (96 + 16 * i) 16 % 8 = 0) ∧ fieldN e 80 16 % 8 = 0 ∧ fieldN e 64 16 % 8 = 0 ∧ fieldN e 32 32 % 8 = 0
  stride   : k * fmtWidth f / 8 ≤ fieldN e 64 16
/-- Where line r of K-block kb begins, from base (R147). -/
def lineFrom (e : BitVec 256) (is : List Nat) (kb r : Nat) : Int :=
  (is.getD 0 0 : Nat) * fieldI e 96 16 + (is.getD 1 0 : Nat) * fieldI e 112 16 + (is.getD 2 0 : Nat) * fieldI e 128 16 +
    (is.getD 3 0 : Nat) * fieldI e 144 16 + kb * fieldI e 80 16 + r * fieldN e 64 16
/-- Formats 2 to 8 carry scales (R120). -/
def scaled (f : Nat) : Prop := 2 ≤ f ∧ f ≤ 8
/-- Where the scale of group g of a line at an offset from base lies (R147). -/
def scaleOf (e : BitVec 256) (f : Nat) (off : Int) (g : Nat) : Nat :=
  fieldN e 160 32 + (off.toNat + g * (32 * fmtWidth f / 8)) / (32 * fmtWidth f / 8)
/-- Every line and scale of an operand of n K-blocks lies in a scratchpad of `limit` bytes (R148). -/
def Inside (limit : Nat) (e : BitVec 256) (f k n : Nat) (is : List Nat) : Prop :=
  ∀ kb < n, ∀ r < 128, 0 ≤ lineFrom e is kb r ∧ fieldN e 32 32 + (lineFrom e is kb r).toNat + k * fmtWidth f / 8 ≤ limit ∧
    (scaled f → ∀ g < k / min 32 k, scaleOf e f (lineFrom e is kb r) g < limit)

/-- Nothing but one core and one block has changed. -/
structure OnlyCoreBlock (s : State) (c b : Nat) (t : State) : Prop where
  rest   : t = { s with cores := t.cores, blocks := t.blocks }
  cores  : ∀ k, k ≠ c → t.cores.get? k = s.cores.get? k
  blocks : ∀ k, k ≠ b → t.blocks.get? k = s.blocks.get? k

/-- The core once a run's drained output is visible at block scope (R154): its copies of the lines that the run wrote are gone, and so are the
grants of them that were on their way. -/
def shown (k : Core) (r : Run) : Core :=
  { k with l1 := k.l1.filter (fun e => !(e.1 ∈ r.wrote)), grants := k.grants.filter (fun g => !(g.line ∈ r.wrote)) }

/-! ## MZERO, MLOOP (R153, R404, R409) -/

/-- A core's sequencer holds a run, and nothing holds the tiles of a range (R154). -/
structure TilesFree (s : State) (r : Run) (lo n : Nat) : Prop where
  run   : (s.core s.cur.core).run = some r
  issue : ∀ x ∈ (s.core s.cur.core).engine, x.tile < lo ∨ lo + n ≤ x.tile
  held  : ∀ i, lo ≤ i → i < lo + n → ((s.core s.cur.core).tiles.getD i Tile.reset).held = 0
/-- The state after `MZERO`: the tiles of the range are zero, every other one as before, and the word is passed. -/
structure Zeroed (s : State) (r : Run) (lo n : Nat) (t : State) : Prop where
  frame : OnlyCore s s.cur.core t
  core  : t.core s.cur.core = { s.core s.cur.core with tiles := (t.core s.cur.core).tiles, run := some { r with pc := r.pc + 4 } }
  zero  : ∀ i, lo ≤ i → i < lo + n → ∀ k, (((t.core s.cur.core).tiles.getD i Tile.reset).at k = 0) ∧
    ((t.core s.cur.core).tiles.getD i Tile.reset).csum k = 0 ∧ ((t.core s.cur.core).tiles.getD i Tile.reset).msum k = 0 ∧
    ((t.core s.cur.core).tiles.getD i Tile.reset).held = 0
  rest  : ∀ i, i < lo ∨ lo + n ≤ i → (t.core s.cur.core).tiles.getD i Tile.reset = (s.core s.cur.core).tiles.getD i Tile.reset
/-- The state after `MLOOP`: a counter above zero falls by one and the stream goes on `offset` words from this one; a counter at zero takes
its initial value and the next word follows. -/
structure Looped (s : State) (r : Run) (o : BitVec 20) (k : Nat) (t : State) : Prop where
  frame : OnlyCore s s.cur.core t
  core  : ∃ q, t.core s.cur.core = { s.core s.cur.core with run := some q } ∧ q = { r with pc := q.pc, l := q.l } ∧
    q.l.length = r.l.length ∧ (∀ j, j ≠ k → q.l.getD j 0 = r.l.getD j 0) ∧
    (q.l.getD k 0).toNat = (if (r.l.getD k 0).toNat = 0 then initOf r k else (r.l.getD k 0).toNat - 1) ∧
    q.pc = (if (r.l.getD k 0).toNat = 0 then r.pc + 4 else r.pc + BitVec.ofInt 64 (4 * o.toInt))

/-! ## MBAR, MEND (R153, R154, R401) -/

/-- A word at a barrier of the run's mask, with every earlier operand read and every earlier drain written, in a phase that the sequencer's
arrival leaves open. -/
structure SeqArrives (s : State) (r : Run) (n : Nat) : Prop where
  run     : (s.core s.cur.core).run = some r
  block   : coreOf r.blk = s.cur.core
  member  : counts r n
  moves   : r.standing = none
  engine  : (s.core s.cur.core).engine = []
  drains  : (∀ d, (s.core s.cur.core).drain = some d → d.run ≠ r.id) ∧ ∀ u ∈ (s.core s.cur.core).staging, u.job.run ≠ r.id
  fresh   : r.arrived.getLsbD n = false
  stays   : arrivedAt s r.blk n ≠ floeQuanta s r.blk
/-- The state after the sequencer's arrival: one quantum more at the barrier; the run stands at it, or passes the word; what it has
drained is visible to the block. -/
structure SeqArrived (s : State) (r : Run) (n : Nat) (waits : Bool) (t : State) : Prop where
  frame : OnlyCoreBlock s s.cur.core r.blk t
  core  : t.core s.cur.core = { shown (s.core s.cur.core) r with run := some { r with
    arrived := r.arrived ||| BitVec.ofNat 16 (2 ^ n), standing := if waits then some n else none, pc := if waits then r.pc else r.pc + 4
    wrote := [] } }
  bar   : (t.block r.blk).bars.getD n Barrier.reset =
    { (s.block r.blk).bars.getD n Barrier.reset with count := arrivedAt s r.blk n + 1 }
  bars  : ∀ k, k ≠ n → (t.block r.blk).bars.getD k Barrier.reset = (s.block r.blk).bars.getD k Barrier.reset
  block : t.block r.blk = { s.block r.blk with bars := (t.block r.blk).bars }

/-- The count of a barrier once the run's own quantum has left it. -/
def countWithout (s : State) (r : Run) (k : Nat) : Nat := arrivedAt s r.blk k - (if r.arrived.getLsbD k then 1 else 0)
/-- A `MEND` whose arrival and whose quantum's leaving complete no phase, of a run that no other ended run of its number precedes. -/
structure MayEnd (s : State) (r : Run) (n : Nat) : Prop where
  arrives : SeqArrives s r n
  stays   : ∀ k < 16, counts r k → countWithout s r k = 0 ∨ countWithout s r k ≠ floeQuanta s r.blk
  once    : ∀ e ∈ (s.core s.cur.core).ending, e.1 ≠ r.id
/-- The state after a run's end (R142): no run, the sequencer's quantum in no count, and one tile operation fewer for the floe that issued
the `MRUN`. -/
structure RunEnded (s : State) (r : Run) (t : State) : Prop where
  rest   : t = { s with cores := t.cores, blocks := t.blocks, floes := t.floes }
  cores  : ∀ k, k ≠ s.cur.core → t.cores.get? k = s.cores.get? k
  core   : t.core s.cur.core = { shown (s.core s.cur.core) r with run := none }
  blocks : ∀ k, k ≠ r.blk → t.blocks.get? k = s.blocks.get? k
  block  : t.block r.blk = { s.block r.blk with bars := (t.block r.blk).bars }
  bars   : ∀ k < 16, (t.block r.blk).bars.getD k Barrier.reset =
    { (s.block r.blk).bars.getD k Barrier.reset with count := countWithout s r k }
  floes  : ∀ g, g ≠ r.floe → t.floes.get? g = s.floes.get? g
  floe   : t.floe r.floe = { s.floe r.floe with tile := (s.floe r.floe).tile - 1 }

/-! ## MMA (R148, R149, R154, R405, R458) -/

/-- The format word that a run's words read: its block's format slot (R151, R405). -/
def formatOf (s : State) (r : Run) : W32 := (s.block r.blk).fmtSlot
/-- The A format, the B format and the K-block of a format word (R119, R120). -/
def formatA (w : W32) : Nat := w.toNat % 16
def formatB (w : W32) : Nat := w.toNat / 16 % 16
def kOf (w : W32) : Nat := (kBlock (formatA w) (formatB w)).getD 16
/-- An `MMA` of two operands in the block's own scratchpad that meets every check, with a place in the engine (R154, R458). -/
structure CanMma (s : State) (r : Run) (n db da t : Nat) : Prop where
  run   : (s.core s.cur.core).run = some r
  free  : r.held = false ∧ (s.core s.cur.core).engine.length < 2 ∧ ((s.core s.cur.core).tiles.getD t Tile.reset).held = 0
  descs : 1 ≤ da ∧ da ≤ 47 ∧ 1 ≤ db ∧ db ≤ 47
  a     : OwnOperand (entryOf r da) (formatA (formatOf s r)) (kOf (formatOf s r))
  b     : OwnOperand (entryOf r db) (formatB (formatOf s r)) (kOf (formatOf s r))
  inA   : Inside ((s.block r.blk).spadKiB * 1024) (entryOf r da) (formatA (formatOf s r)) (kOf (formatOf s r)) n (indices r)
  inB   : Inside ((s.block r.blk).spadKiB * 1024) (entryOf r db) (formatB (formatOf s r)) (kOf (formatOf s r)) n (indices r)
/-- The state after an `MMA` has issued: it stands last in the engine with the format word, its descriptors and the iteration indices of
that moment; the word is passed where the engine was idle, and held where it was not. -/
structure MmaIssued (s : State) (r : Run) (acc : Bool) (n db da t : Nat) (u : State) : Prop where
  frame : OnlyCore s s.cur.core u
  core  : ∃ x : Issued, u.core s.cur.core = { s.core s.cur.core with
      engine := (s.core s.cur.core).engine ++ [x]
      run := some (if (s.core s.cur.core).engine = [] then { r with pc := r.pc + 4 } else { r with held := true }) } ∧
    x.blk = r.blk ∧ x.tile = t ∧ x.acc = acc ∧ x.da = da ∧ x.db = db ∧ x.ea = entryOf r da ∧ x.eb = entryOf r db ∧ x.n = n ∧ x.kb = 0 ∧
    x.fmt = formatOf s r ∧ x.iters = indices r

/-! ## K_BLOCK_END (R129 to R131, R147, R153, R165) -/

/-- The words of n bytes of a scratchpad from an offset, lowest byte first (R63). -/
def spadNumber (b : Block) (off : Nat) : Nat → Nat
  | 0 => 0
  | n + 1 => (b.spad.getD off 0).toNat + 256 * spadNumber b (off + 1) n
/-- The value of element e of line r of K-block kb of an operand in a block's scratchpad, with its scale (R120, R129, R146, R147). -/
def operandValue (b : Block) (d : BitVec 256) (f k : Nat) (is : List Nat) (kb r e : Nat) : FVal :=
  let at_ := fieldN d 32 32 + (lineFrom d is kb r).toNat
  let v := codeVal f (spadNumber b at_ (k * fmtWidth f / 8) / 2 ^ (e * fmtWidth f) % 2 ^ fmtWidth f)
  if 2 ≤ f ∧ f ≤ 8 then
    (let sc := (b.spad.getD (scaleOf d f (lineFrom d is kb r) (e / 32)) 0).toNat
     if sc = 0xFF then .nan else v.scale ((sc : Int) - 127))
  else v
/-- An accumulator element after the groups of a K-block of k indices with products `p`, in ascending K: each group's exact sum is added
and the sum rounded to FP32 (R129, R130, R131). -/
def accumulated (k : Nat) (p : Nat → FVal) (old : Nat) : Nat :=
  (List.range (k / min 32 k)).foldl (fun a g => accAdd a (groupSum ((List.range (min 32 k)).map (fun i => p (g * min 32 k + i))))) old

/-- The engine's first word has operands in its own block's scratchpad, every byte of them in range and unpoisoned, and adds to no poisoned
element; a word behind it has operands of its own. -/
structure CanMultiply (s : State) (c : Nat) (x : Issued) (more : List Issued) : Prop where
  engine : (s.core c).engine = x :: more
  kb     : x.kb < x.n
  iters  : x.iters.length = 4
  formats : kBlock (formatA x.fmt) (formatB x.fmt) = some (kOf x.fmt)
  a      : OwnOperand x.ea (formatA x.fmt) (kOf x.fmt)
  b      : OwnOperand x.eb (formatB x.fmt) (kOf x.fmt)
  inA    : Inside ((s.block x.blk).spadKiB * 1024) x.ea (formatA x.fmt) (kOf x.fmt) x.n x.iters
  inB    : Inside ((s.block x.blk).spadKiB * 1024) x.eb (formatB x.fmt) (kOf x.fmt) x.n x.iters
  clean  : (s.block x.blk).badSpad = []
  here   : ∃ b, s.blocks.get? x.blk = some b
  sound  : ((s.core c).tiles.getD x.tile Tile.reset).bad = [] ∨ (x.acc = false ∧ x.kb = 0)
  next   : more = [] ∨ ∃ y, more = [y] ∧ fieldN y.ea 8 8 = 0 ∧ fieldN y.eb 8 8 = 0
/-- The state after a K-block of the engine's first word: each element of its tile has gained the K-block's groups, from +0 in the first
K-block of a word that does not accumulate; the word goes to its next K-block or leaves the engine, and a held word is passed. -/
structure Multiplied (s : State) (c : Nat) (x : Issued) (more : List Issued) (t : State) : Prop where
  frame : OnlyCore s c t
  core  : t.core c = { s.core c with
    tiles := (t.core c).tiles
    engine := if x.kb + 1 < x.n then { x with kb := x.kb + 1 } :: more else more
    run := if x.kb + 1 < x.n ∨ more = [] then (s.core c).run
      else (s.core c).run.map (fun r => if r.held then { r with held := false, pc := r.pc + 4 } else r) }
  tiles : ∀ i, i ≠ x.tile → (t.core c).tiles.getD i Tile.reset = (s.core c).tiles.getD i Tile.reset
  held  : ((t.core c).tiles.getD x.tile Tile.reset).held = ((s.core c).tiles.getD x.tile Tile.reset).held
  elems : ∀ r < 128, ∀ n < 128, (((t.core c).tiles.getD x.tile Tile.reset).at (r * 128 + n)) =
    BitVec.ofNat 32 (accumulated (kOf x.fmt)
      (fun e => (operandValue (s.block x.blk) x.ea (formatA x.fmt) (kOf x.fmt) x.iters x.kb r e).mul
        (operandValue (s.block x.blk) x.eb (formatB x.fmt) (kOf x.fmt) x.iters x.kb n e))
      (if x.kb = 0 ∧ x.acc = false then 0 else (((s.core c).tiles.getD x.tile Tile.reset).at (r * 128 + n)).toNat))

/-! ## MULTICAST_DELIVERY (R149) -/

/-- The cores of a cluster that a mask names. -/
def named (c mask : Nat) (m : Nat) : Prop := m / 8 = c / 8 ∧ mask / 2 ^ (m % 8) % 2 = 1
/-- A core of the group of a word's A operand. -/
def receives (c : Nat) (x : Issued) (m : Nat) : Prop := named c (fieldN x.ea 8 8) m
/-- The deliveries whose K-blocks stand in a buffer, the one that is being consumed among them. -/
def deliveries (buf : List KBlock) : Nat := (buf.filter (fun k => k.kb = 0)).length + (if buf.head?.any (fun k => k.kb ≠ 0) then 1 else 0)
/-- The buffer of a member for a word's launch and a descriptor number: in its core, or in the image of a saved one (R8, R149, R167). -/
def bufferOf (s : State) (x : Issued) (d m : Nat) : List KBlock := s.castBuffer (s.block x.blk).launch m d
/-- The engine's one word has an A operand in the block's own scratchpad, of a multicast group of which its core is the lowest member,
with K-blocks left to fetch; a delivery that begins finds room for it at every member. -/
structure CanDeliverTo (s : State) (c d : Nat) (x : Issued) : Prop where
  engine : (s.core c).engine = [x]
  word   : x.da = d ∧ d < 64 ∧ x.fa < x.n
  group  : fieldN x.ea 8 8 ≠ 0 ∧ fieldN x.ea 7 1 = 1 ∧ named c (fieldN x.ea 8 8) c ∧ ∀ m, named c (fieldN x.ea 8 8) m → c ≤ m
  here   : coreOf x.blk = c ∧ ∃ b, s.blocks.get? x.blk = some b
  room   : x.fa = 0 → ∀ m, receives c x m → deliveries (bufferOf s x d m) < 2
  still  : ∀ m, receives c x m → ∀ r, (s.core m).run = some r → r.held = false
/-- Line r of the K-block that a word fetches next for its A operand, read in a format. -/
def nextLine (s : State) (x : Issued) (f r : Nat) : Nat :=
  spadNumber (s.block x.blk) (fieldN x.ea 32 32 + (lineFrom x.ea x.iters x.fa r).toNat) (kOf x.fmt * fmtWidth f / 8)
/-- The state after a delivery: every member of the group, the fetcher among them and one that holds no block of the launch yet or is saved
too, holds the K-block last in its launch's buffer of the descriptor number; its lines are the fetcher's, once more for B where the word names
the descriptor for both; the fetcher goes on to its next. -/
structure DeliveredTo (s : State) (c d : Nat) (x : Issued) (t : State) : Prop where
  rest    : t = { s with cores := t.cores, images := t.images }
  others  : ∀ m, ¬ receives c x m → t.cores.get? m = s.cores.get? m
  images  : t.images.map (fun i => { i with image := { i.image with mcast := [] } }) =
    s.images.map (fun i => { i with image := { i.image with mcast := [] } })
  members : ∃ k : KBlock, k.count = x.n ∧ k.kb = x.fa ∧
    (∀ r < 128, 0 ≤ lineFrom x.ea x.iters x.fa r → x.iters.length = 4 → k.lines.getD r 0 = nextLine s x (formatA x.fmt) r) ∧
    (x.db = d → formatA x.fmt ≠ formatB x.fmt → ∃ z, k.twin = some z ∧ ∀ r < 128, 0 ≤ lineFrom x.ea x.iters x.fa r → x.iters.length = 4 →
      z.1.getD r 0 = nextLine s x (formatB x.fmt) r) ∧
    ∀ m, receives c x m → bufferOf t x d m = bufferOf s x d m ++ [k] ∧
      (∀ l j, j < 64 → (l, j) ≠ ((s.block x.blk).launch, d) → t.castBuffer l m j = s.castBuffer l m j) ∧
      t.core m = { s.core m with mcast := (t.core m).mcast, engine := (t.core m).engine } ∧
      (t.core m).engine = if m = c then [{ x with fa := x.fa + 1 }] else (s.core m).engine

/-! ## The start of a run (R141) -/

/-- The oldest waiting `MRUN` of a free sequencer, whose table the core holds in its L1, with a good header. -/
structure CanStart (s : State) (c f id : Nat) (va table : W64) (rest : List (Nat × Nat × W64 × W64)) (e : Nat → Nat) : Prop where
  idle   : (s.core c).run = none ∧ (s.core c).haltReq = false
  head   : (s.core c).mruns = (f, id, va, table) :: rest
  floe   : floeCore f = c ∧ (s.floe f).st ≠ .parked ∧ (s.floe f).ops = []
  frag   : (s.floe f).frags = [s.frag f id] ∧ (s.frag f id).stack = [] ∧ (s.frag f id).active &&& (s.floe f).live = (s.frag f id).active ∧
    (s.frag f id).active ≠ 0
  table  : ∀ i < 64, CoreHolds s 1 f (table.toNat + 32 * i) 32 (e i)
  header : e 0 / 2 ^ 80 = 0 ∧ e 0 / 2 ^ 64 ≠ 0
/-- The state after a run has begun: the sequencer stands at the stream's first word with the loop counters at their initial values, the
table is a copy, the floe has one tile operation more and goes on behind its `MRUN`. What the tiles hold is free (R143). -/
structure Started (s : State) (c f id : Nat) (va : W64) (rest : List (Nat × Nat × W64 × W64)) (e : Nat → Nat) (t : State) : Prop where
  rest_ : t = { s with cores := t.cores, floes := t.floes, free := t.free }
  cores : ∀ k, k ≠ c → t.cores.get? k = s.cores.get? k
  floes : ∀ g, g ≠ f → t.floes.get? g = s.floes.get? g
  core  : ∃ r, t.core c = { s.core c with
      run := some r, mruns := rest, nextRun := (s.core c).nextRun + 1, tiles := (t.core c).tiles } ∧
    r.blk = blockOf f ∧ r.floe = f ∧ r.pc = va ∧ r.id = (s.core c).nextRun ∧ r.arrived = 0 ∧ r.standing = none ∧ r.held = false ∧
    r.paused = false ∧ r.wrote = [] ∧ (∀ i < 64, (entryOf r i).toNat = e i) ∧
    r.l.length = 4 ∧ ∀ k < 4, (r.l.getD k 0).toNat = e 0 / 2 ^ (16 * k) % 2 ^ 16
  floe  : t.floe f = { s.floe f with tile := (s.floe f).tile + 1, frags := (t.floe f).frags, st := (t.floe f).st
                                     readyAt := (t.floe f).readyAt }
  frag  : (t.frag f id).pc = (s.frag f id).pc + 4 ∧ (t.frag f id).wait = .none

/-! ## MDRAIN, DRAIN_STAGING, STAGING_UNIT_WRITE (R159 to R166, R402) -/

/-- An output (kind 2, aligned to 16) or scale (kind 3, aligned to 4) descriptor in good form (R159). -/
structure GoodOut (e : BitVec 256) (kind al : Nat) : Prop where
  kind     : fieldN e 0 3 = kind
  reserved : fieldN e 88 8 = 0 ∧ fieldN e 4 28 = 0
  aligned  : (∀ i < 4, fieldN e (128 + 32 * i) 32 % al = 0) ∧ fieldN e 96 32 % al = 0 ∧ fieldN e 32 56 % al = 0
/-- An epilogue entry in good form: kind 4, reserved fields zero, an act code below 4 or 7, aligned vectors (R160). -/
structure GoodEpilogue (e : BitVec 256) : Prop where
  kind     : fieldN e 0 3 = 4
  reserved : fieldN e 8 120 = 0
  act      : fieldN e 5 3 < 4 ∨ fieldN e 5 3 = 7
  aligned  : fieldN e 160 32 % 16 = 0 ∧ fieldN e 128 32 % 16 = 0
/-- The bytes that a unit takes in staging (R162): its output, a scale or checksum descriptor's 512, and the carried checksums. -/
def unitSize (fw : W32) (scale : Bool) : Nat := 128 * 128 * fmtWidth (fieldN fw 12 4) / 8 + (if scale then 512 else 0) + 512
/-- An `MDRAIN` that begins at once: no `MMA` into the tile, no other drain, good descriptors, column vectors inside an unpoisoned
scratchpad, and staging with room for the whole unit. -/
structure CanDrain (s : State) (r : Run) (ep ds dout t : Nat) : Prop where
  run    : (s.core s.cur.core).run = some r
  idle   : (∀ x ∈ (s.core s.cur.core).engine, x.tile ≠ t) ∧ (s.core s.cur.core).drain = none
  out    : 1 ≤ dout ∧ dout ≤ 47 ∧ GoodOut (entryOf r dout) 2 16
  scale  : ds ≤ 47 ∧ (ds ≠ 0 → GoodOut (entryOf r ds) 3 4) ∧
    (2 ≤ fieldN (formatOf s r) 12 4 ∧ fieldN (formatOf s r) 12 4 ≤ 7 → ds ≠ 0)
  epi    : GoodEpilogue (entryOf r (48 + ep))
  vectors : (fieldN (entryOf r (48 + ep)) 3 1 = 1 → fieldN (entryOf r (48 + ep)) 128 32 + 512 ≤ (s.block r.blk).spadKiB * 1024) ∧
    (fieldN (entryOf r (48 + ep)) 4 1 = 1 → fieldN (entryOf r (48 + ep)) 160 32 + 512 ≤ (s.block r.blk).spadKiB * 1024)
  clean  : (s.block r.blk).badSpad = []
  room   : ((s.core s.cur.core).staging.map (fun u => unitSize u.job.fmt u.job.scale.isSome)).sum + unitSize (formatOf s r) (decide (ds ≠ 0)) ≤
    128 * 1024
/-- The state after a drain has begun: it holds the tile, the descriptors, the format word and the iteration indices of that moment; the
block has one drain more, and the word is passed. -/
structure DrainBegun (s : State) (r : Run) (rel : Bool) (ep ds dout tile : Nat) (t : State) : Prop where
  frame : OnlyCoreBlock s s.cur.core r.blk t
  core  : ∃ d, t.core s.cur.core = { s.core s.cur.core with
      drain := some d, tiles := (t.core s.cur.core).tiles, run := some { r with pc := r.pc + 4 } } ∧
    d.blk = r.blk ∧ d.floe = r.floe ∧ d.run = r.id ∧ d.tile = tile ∧ d.wordVa = r.pc ∧ d.release = rel ∧ d.out = entryOf r dout ∧
    d.scale = (if ds = 0 then none else some (entryOf r ds)) ∧ d.epi = entryOf r (48 + ep) ∧ d.fmt = formatOf s r ∧ d.iters = indices r ∧
    d.c1 = (s.block r.blk).drains ∧ d.repeats = 0
  tiles : ∀ i, (t.core s.cur.core).tiles.getD i Tile.reset = (if i = tile then
    { (s.core s.cur.core).tiles.getD i Tile.reset with held := ((s.core s.cur.core).tiles.getD i Tile.reset).held + 1 }
    else (s.core s.cur.core).tiles.getD i Tile.reset)
  block : t.block r.blk = { s.block r.blk with drains := (s.block r.blk).drains + 1 }

/-- The rows of a drain of a core. -/
def rowsOf (s : State) (c : Nat) (d : Drain) : List DrainRow :=
  (List.range 128).map (drainRow d (descSeed (s.launchOf d.blk).desc) (s.block d.blk).id ((s.core c).tiles.getD d.tile Tile.reset))
/-- The element of a drain after the scale and bias of its epilogue (R161 step 1), each result rounded once to FP32. -/
def biased (s : State) (c : Nat) (d : Drain) (r n : Nat) : Nat :=
  let acc := (((s.core c).tiles.getD d.tile Tile.reset).at (r * 128 + n)).toNat
  let scale := (d.sv.getD n 0).toNat
  let bias := (d.bv.getD n 0).toNat
  if fieldN d.epi 3 1 = 1 then (if fieldN d.epi 4 1 = 1 then fpFma fmt32 acc scale bias else fpMul fmt32 acc scale)
  else if fieldN d.epi 4 1 = 1 then fpAdd fmt32 acc bias else acc
/-- After the activation, by the entry's code or, for code 7, the format word's (R136, R160, R161 step 2). -/
def activated (s : State) (c : Nat) (d : Drain) (r n : Nat) : Nat :=
  activate (if fieldN d.epi 5 3 = 7 then fieldN d.fmt 19 3 else fieldN d.epi 5 3) (fieldN d.epi 192 32) (fieldN d.epi 224 32) (biased s c d r n)
/-- The drain format of a drain, and whether it is an MX format. -/
def drainFormat (d : Drain) : Nat := fieldN d.fmt 12 4
def drainsMx (d : Drain) : Prop := 2 ≤ drainFormat d ∧ drainFormat d ≤ 7
/-- The hash that rounds an element stochastically (R123, R124). -/
def drainHash (s : State) (d : Drain) (r n : Nat) : Nat :=
  stochHash (descSeed (s.launchOf d.blk).desc) ((s.block d.blk).id % 2 ^ 18 * 2 ^ 14 + r * 128 + n) d.c1.toNat
/-- Block j of 32 columns of a row in an MX format: its scale and its codes (R128, R161 step 3). -/
def drainedBlock (s : State) (c : Nat) (d : Drain) (r j : Nat) : Nat × List Nat :=
  mxBlock (drainFormat d) (fieldN d.fmt 16 2) (fun i => drainHash s d r (j * 32 + i)) ((List.range 32).map (fun i => activated s c d r (j * 32 + i)))
/-- The code of an element in another format (R161 step 3). -/
def drainedCode (s : State) (c : Nat) (d : Drain) (r n : Nat) : Nat :=
  roundTo (drainFormat d) (fieldN d.fmt 16 2) (d.fmt.getLsbD 18) (drainHash s d r n) (val32 (activated s c d r n))
/-- Where row r of an output or scale descriptor lies, its rows `step` bytes apart (R159). -/
def outputAt (e : BitVec 256) (is : List Nat) (r step : Nat) : Nat :=
  ((fieldN e 32 56 + (is.getD 0 0 : Nat) * fieldI e 128 32 + (is.getD 1 0 : Nat) * fieldI e 160 32 + (is.getD 2 0 : Nat) * fieldI e 192 32 +
    (is.getD 3 0 : Nat) * fieldI e 224 32 + r * step) % 2 ^ 64).toNat
/-- The writes of a drain's unit (R159, R161, R164): row by row the elements, packed from bit 0 up; behind them, where the word names a scale
descriptor, the rows' scales in an MX format, the rows' checksums in another. -/
structure DrainWrites (s : State) (c : Nat) (d : Drain) (ws : List StageWrite) : Prop where
  count  : ws.length = if d.scale = none then 128 else 256
  rows   : ∀ r < 128, ∃ w, ws[r]? = some w ∧ w.spad = d.out.getLsbD 3 ∧ w.addr = outputAt d.out d.iters r (fieldN d.out 96 32) ∧
    w.bytes.length = 16 * fmtWidth (drainFormat d) ∧ ∀ n < 128,
      (drainsMx d → ofBytes w.bytes / 2 ^ (n * fmtWidth (drainFormat d)) % 2 ^ fmtWidth (drainFormat d) =
        (drainedBlock s c d r (n / 32)).2.getD (n % 32) 0 % 2 ^ fmtWidth (drainFormat d)) ∧
      (¬ drainsMx d → ofBytes w.bytes / 2 ^ (n * fmtWidth (drainFormat d)) % 2 ^ fmtWidth (drainFormat d) =
        drainedCode s c d r n % 2 ^ fmtWidth (drainFormat d))
  scales : ∀ e, d.scale = some e → drainsMx d → ∀ r < 128, ws[128 + r]? = some ⟨e.getLsbD 3, outputAt e d.iters r (fieldN e 96 32),
    (List.range 4).map (fun j => BitVec.ofNat 8 (drainedBlock s c d r j).1)⟩
  sums   : ∀ e, d.scale = some e → ¬ drainsMx d → ∀ r < 128, ∃ w, ws[128 + r]? = some w ∧ w.spad = e.getLsbD 3 ∧
    w.addr = outputAt e d.iters r 4 ∧ w.bytes.length = 4 ∧
    ofBytes w.bytes = sum32 ((List.range 128).map (fun n => rn32 (codeVal (drainFormat d) (drainedCode s c d r n)))) % 2 ^ 32
/-- The state after a begun drain has passed its checks: its unit stands last in staging, and the tile is released where the word said so. -/
structure UnitStaged (s : State) (c : Nat) (d : Drain) (t : State) : Prop where
  frame : OnlyCore s c t
  core  : ∃ u, t.core c = { s.core c with drain := none, staging := (s.core c).staging ++ [u], tiles := (t.core c).tiles } ∧
    u.job = d ∧ u.paused = false ∧ u.bad = false ∧ DrainWrites s c d u.writes
  tiles : ∀ i, (t.core c).tiles.getD i Tile.reset = (if i = d.tile ∧ d.release = true then
    { (s.core c).tiles.getD i Tile.reset with held := ((s.core c).tiles.getD i Tile.reset).held - 1 } else (s.core c).tiles.getD i Tile.reset)

/-- The oldest unit of a core's staging, written to the block's own scratchpad by writes that lie inside it and do not overlap, with its
checksums intact, of a run that goes on. -/
structure CanWriteUnit (s : State) (c : Nat) (u : StageUnit) (more : List StageUnit) : Prop where
  head   : (s.core c).staging = u :: more
  free   : u.paused = false ∧ u.bad = false ∧ u.job.repeats = 0 ∧ s.invs = [] ∧ s.upsets = []
  inside : ∀ w ∈ u.writes, w.spad = true ∧ w.bytes ≠ [] ∧ w.addr + w.bytes.length ≤ (s.block u.job.blk).spadKiB * 1024
  apart  : u.writes.Pairwise (fun x y => x.addr + x.bytes.length ≤ y.addr ∨ y.addr + y.bytes.length ≤ x.addr)
  sums   : u.sumsHold = true
  goes   : ∀ e ∈ (s.core c).ending, e.1 ≠ u.job.run
/-- The state after it: the unit's bytes stand at their places with their granules full, and the unit has left staging; a tile held till now
is released. No line of memory was written, so the run has the lines it had. -/
structure UnitWritten (s : State) (c : Nat) (u : StageUnit) (more : List StageUnit) (t : State) : Prop where
  frame   : OnlyCoreBlock s c u.job.blk t
  core    : t.core c = { s.core c with staging := more, tiles := (t.core c).tiles, run := (t.core c).run }
  run     : (t.core c).run = (s.core c).run.map (fun r => { r with wrote := if r.id = u.job.run then dedupe r.wrote else r.wrote })
  tiles   : ∀ i, (t.core c).tiles.getD i Tile.reset = (if i = u.job.tile ∧ u.job.release = false then
    { (s.core c).tiles.getD i Tile.reset with held := ((s.core c).tiles.getD i Tile.reset).held - 1 }
    else (s.core c).tiles.getD i Tile.reset)
  block   : t.block u.job.blk = { s.block u.job.blk with
    spad := (t.block u.job.blk).spad, full := (t.block u.job.blk).full, badSpad := (t.block u.job.blk).badSpad }
  bytes   : ∀ w ∈ u.writes, ∀ i < w.bytes.length, (t.block u.job.blk).spad.getD (w.addr + i) 0 = w.bytes.getD i 0
  others  : ∀ a, (∀ w ∈ u.writes, a < w.addr ∨ w.addr + w.bytes.length ≤ a) →
    (t.block u.job.blk).spad.getD a 0 = (s.block u.job.blk).spad.getD a 0
  full    : ∀ g, (t.block u.job.blk).full.getD g false = true ↔ (s.block u.job.blk).full.getD g false = true ∨
    ∃ w ∈ u.writes, w.addr / 16 ≤ g ∧ g ≤ (w.addr + w.bytes.length - 1) / 16

end Sys2Proof.Claims
end

