-- ==== Sys2Proof/Claims/Numbers.lean ====
section
/-!
DEFINITION. What the rules of the manual say of the number that a result is: codes as rational numbers, the nearest member of a format, the
other rounding modes, and the bounds of the special functions (R111, R113, R115 to R117, R121, R122, R132, R133).
-/
namespace Sys2Proof.Claims
open Sys2Proof.Machine

/-! ## Codes as numbers (R111, R113, R115) -/

/-- The sign, exponent and fraction fields of a code. -/
def signOf (f : BinFmt) (c : Nat) : Nat := c / 2 ^ (f.eb + f.mb) % 2
def expOf (f : BinFmt) (c : Nat) : Nat := c / 2 ^ f.mb % 2 ^ f.eb
def fracOf (f : BinFmt) (c : Nat) : Nat := c % 2 ^ f.mb
/-- The number that the fields of a code stand for, subnormal or normal. -/
def ratOf (f : BinFmt) (c : Nat) : ℚ :=
  (-1) ^ signOf f c * (if expOf f c = 0 then (fracOf f c : ℚ) * 2 ^ (1 - f.bias - f.mb)
    else (2 ^ f.mb + fracOf f c : ℚ) * 2 ^ ((expOf f c : ℤ) - f.bias - f.mb))
/-- A finite code of an IEEE format. -/
def finiteCode (f : BinFmt) (c : Nat) : Prop := c < 2 ^ (1 + f.eb + f.mb) ∧ expOf f c ≠ 2 ^ f.eb - 1
/-- A NaN code of an IEEE format, and the canonical one (R111). -/
def nanCodeOf (f : BinFmt) (c : Nat) : Prop := c < 2 ^ (1 + f.eb + f.mb) ∧ expOf f c = 2 ^ f.eb - 1 ∧ fracOf f c ≠ 0
def canonicalNan (f : BinFmt) : Nat :=
  if f = fmt64 then 0x7FF8000000000000 else if f = fmt32 then 0x7FC00000 else if f = fmt16 then 0x7E00 else 0x7FC0
/-- The four formats of R111. -/
def ieeeFormat (f : BinFmt) : Prop := f = fmt64 ∨ f = fmt32 ∨ f = fmt16 ∨ f = fmtB16
/-- Halfway from the largest finite magnitude to the next power of two: from there on nearest-even overflows. -/
def halfPast (f : BinFmt) : ℚ := (2 ^ (f.mb + 2) - 1) * 2 ^ (f.bias - f.mb - 1)
/-- The infinity of a sign, or the largest finite code where the result saturates (R122). -/
def overflowCode (f : BinFmt) (sat neg : Bool) : Nat :=
  (2 ^ f.eb - 1) * 2 ^ f.mb - (if sat then 1 else 0) + (if neg then 2 ^ (f.eb + f.mb) else 0)

/-- A byte in two's complement. -/
def twosByte (c : Nat) : ℤ := if c % 256 < 128 then (c % 256 : ℕ) else (c % 256 : ℕ) - 256
/-- One term of a D2P8 code (R115). -/
def d2Part (sign shift : Nat) : ℚ := if shift = 7 then 0 else (-1) ^ sign / 2 ^ shift
/-- The IEEE layout of a format code, where it has one (R113, R118). -/
def layoutOfFormat (f : Nat) : Option BinFmt :=
  match f with
  | 0 => some fmtB16 | 1 => some fmt16 | 2 => some ⟨4, 3⟩ | 3 => some ⟨5, 2⟩ | 4 => some ⟨3, 2⟩ | 5 => some ⟨2, 3⟩ | 6 => some ⟨2, 1⟩
  | 0xA => some fmt32 | _ => none
/-- The formats BF16, FP16 and FP32. -/
def wide (f : Nat) : Prop := f = 0 ∨ f = 1 ∨ f = 0xA
/-- The finite members of a format (R113, R115, R118). -/
def member (f c : Nat) : Prop :=
  match f with
  | 0 => finiteCode fmtB16 c | 1 => finiteCode fmt16 c | 0xA => finiteCode fmt32 c
  | 2 => c < 256 ∧ c % 128 ≠ 127 | 3 => c < 256 ∧ c % 128 < 124
  | 4 => c < 64 | 5 => c < 64 | 6 => c < 16 | 7 => c < 256 | 8 => c < 256 | 9 => c < 256
  | _ => False
/-- The number that a member stands for. -/
def valueOf (f c : Nat) : ℚ :=
  match layoutOfFormat f with
  | some b => ratOf b c
  | none =>
    if f = 7 then twosByte c / 64
    else if f = 8 then d2Part (c / 128 % 2) (c / 16 % 8) + d2Part (c / 8 % 2) (c % 8)
    else twosByte c

/-! ## Rounding (R121, R122) -/

/-- A member of a set of codes that no other is nearer to x than, and that is preferred where another is as near. -/
structure Nearest (mem : Nat → Prop) (val : Nat → ℚ) (preferred : Nat → Nat → Prop) (x : ℝ) (c : Nat) : Prop where
  member : mem c
  near   : ∀ d, mem d → |(val c : ℝ) - x| ≤ |(val d : ℝ) - x|
  tie    : ∀ d, mem d → val d ≠ val c → |(val c : ℝ) - x| = |(val d : ℝ) - x| → preferred c d
/-- Rounding to nearest-even in an IEEE format: the nearest finite member, of x's own sign, or from halfway past the largest the infinity. -/
structure NearestEven (f : BinFmt) (x : ℝ) (c : Nat) : Prop where
  inside : |x| < halfPast f → Nearest (finiteCode f) (ratOf f) (fun c _ => c % 2 = 0) x c ∧ (x < 0 → signOf f c = 1) ∧ (0 < x → signOf f c = 0)
  above  : (halfPast f : ℝ) ≤ x → c = overflowCode f false false
  below  : x ≤ -(halfPast f : ℝ) → c = overflowCode f false true

/-- Which of two members that are as near is taken: the even one, in D2P8 the one of smaller magnitude. -/
def preferredIn (f c d : Nat) : Prop := if f = 8 then |valueOf f c| < |valueOf f d| else c % 2 = 0
/-- The largest member of a format that is no further from zero than x, on x's side. -/
structure TowardZero (f : Nat) (x : ℚ) (c : Nat) : Prop where
  member : member f c
  side   : 0 ≤ valueOf f c * x
  inside : |valueOf f c| ≤ |x|
  most   : ∀ d, Claims.member f d → 0 ≤ valueOf f d * x → |valueOf f d| ≤ |x| → |valueOf f d| ≤ |valueOf f c|
/-- The greatest member of a format that is not above x. -/
structure Downward (f : Nat) (x : ℚ) (c : Nat) : Prop where
  member : member f c
  inside : valueOf f c ≤ x
  most   : ∀ d, Claims.member f d → valueOf f d ≤ x → valueOf f d ≤ valueOf f c
/-- A magnitude that x may be rounded to: of a member on x's side, or in the wide formats the power of two above the largest. -/
def gridPoint (f : Nat) (x g : ℚ) : Prop :=
  (∃ d, member f d ∧ 0 ≤ valueOf f d * x ∧ g = |valueOf f d|) ∨ ∃ b, wide f ∧ layoutOfFormat f = some b ∧ g = 2 ^ (b.bias + 1)
/-- A code is x rounded to a magnitude; the power of two above the largest is an overflow. -/
def atMagnitude (f : Nat) (sat : Bool) (x : ℚ) (c : Nat) (g : ℚ) : Prop :=
  (member f c ∧ 0 ≤ valueOf f c * x ∧ |valueOf f c| = g) ∨
    ∃ b, wide f ∧ layoutOfFormat f = some b ∧ g = 2 ^ (b.bias + 1) ∧ c = overflowCode b sat (decide (x < 0))
/-- Stochastic rounding by a hash: between the magnitudes on either side of x's. -/
structure Stochastic (f : Nat) (sat : Bool) (h : Nat) (x : ℚ) (c : Nat) : Prop where
  member  : gridPoint f x |x| → atMagnitude f sat x c |x|
  between : ∀ lo hi, gridPoint f x lo → gridPoint f x hi → lo < |x| → |x| < hi → (∀ g, gridPoint f x g → g ≤ lo ∨ hi ≤ g) →
    atMagnitude f sat x c (if (h : ℚ) < (|x| - lo) / (hi - lo) * 2 ^ 32 then hi else lo)
  beyond  : ∀ g, gridPoint f x g → (∀ k, gridPoint f x k → k ≤ g) → g < |x| → atMagnitude f sat x c g
/-- The result of `round` for an exact number, by mode: 0 nearest-even, 1 toward zero, 2 toward -infinity, 3 stochastic. -/
def RoundsTo (f mode : Nat) (sat : Bool) (h : Nat) (x : ℚ) (c : Nat) : Prop :=
  match mode with
  | 0 => ((∀ b, wide f → layoutOfFormat f = some b → |x| < halfPast b) → Nearest (member f) (valueOf f) (preferredIn f) x c) ∧
      ∀ b, wide f → layoutOfFormat f = some b → halfPast b ≤ |x| → c = overflowCode b sat (decide (x < 0))
  | 1 => TowardZero f x c
  | 2 => ((∃ d, member f d ∧ valueOf f d ≤ x) → Downward f x c) ∧ ((∀ d, member f d → x < valueOf f d) →
      (∀ b, wide f → layoutOfFormat f = some b → c = overflowCode b sat true) ∧
      (¬ wide f → member f c ∧ ∀ d, member f d → valueOf f c ≤ valueOf f d))
  | _ => Stochastic f sat h x c
/-- The sign of a result that is a member (R116, R117): x's own in a format with a -0 code; elsewhere zero has one code; in D2P8 the smallest
code of the value. -/
structure SignsRight (f : Nat) (x : ℚ) (c : Nat) : Prop where
  signed : ∀ b, layoutOfFormat f = some b → (x < 0 → signOf b c = 1) ∧ (0 < x → signOf b c = 0)
  zero   : f = 8 → valueOf f c = 0 → c = 0x77
  least  : f = 8 → valueOf f c ≠ 0 → ∀ d < 256, valueOf f d = valueOf f c → c ≤ d
/-- The result of a NaN and of an infinity (R122), and of a signed zero (R117). -/
def nanTo (f : Nat) : Nat :=
  match f with
  | 0 => 0x7FC0 | 1 => 0x7E00 | 0xA => 0x7FC00000 | 2 => 0x7F | 3 => 0x7E | 8 => 0x77 | _ => 0
def infTo (f : Nat) (sat neg : Bool) : Nat :=
  match f with
  | 0 => overflowCode fmtB16 sat neg | 1 => overflowCode fmt16 sat neg | 0xA => overflowCode fmt32 sat neg
  | 2 => if neg then 0xFE else 0x7E
  | 3 => (if sat then 0x7B else 0x7C) + (if neg then 0x80 else 0)
  | 6 => if neg then 0xF else 0x7
  | 7 => if neg then 0x80 else 0x7F | 9 => if neg then 0x80 else 0x7F
  | 8 => if neg then 0x88 else 0x00
  | _ => if neg then 0x3F else 0x1F
def zeroTo (f : Nat) (neg : Bool) : Nat :=
  match layoutOfFormat f with
  | some b => if neg then 2 ^ (b.eb + b.mb) else 0
  | none => if f = 8 then 0x77 else 0

/-- The number of an exact value. -/
def numberOf (neg : Bool) (m : Nat) (e : ℤ) : ℚ := (if neg then -1 else 1) * m * 2 ^ e

/-! ## What the operations return -/

/-- Sums, differences, products and fused products of finite numbers are rounded once to nearest-even; a NaN gives the canonical NaN (R111,
R132, R366). -/
def SumsAreNearest : Prop :=
  ∀ f, ieeeFormat f → ∀ x y z, finiteCode f z →
    (finiteCode f x → finiteCode f y →
      NearestEven f ((ratOf f x + ratOf f y : ℚ) : ℝ) (fpAdd f x y) ∧ NearestEven f ((ratOf f x - ratOf f y : ℚ) : ℝ) (fpSub f x y) ∧
      NearestEven f ((ratOf f x * ratOf f y : ℚ) : ℝ) (fpMul f x y) ∧ NearestEven f ((ratOf f x * ratOf f y + ratOf f z : ℚ) : ℝ) (fpFma f x y z)) ∧
    (nanCodeOf f x ∨ nanCodeOf f y → fpAdd f x y = canonicalNan f ∧ fpSub f x y = canonicalNan f ∧ fpMul f x y = canonicalNan f ∧
      fpFma f x y z = canonicalNan f)
/-- `round` into each format, of an exact number, a NaN, an infinity and a signed zero (R117, R121, R122). -/
def RoundRounds : Prop :=
  ∀ f ≤ 10, ∀ mode < 4, ∀ (sat : Bool) (h : Nat), h < 2 ^ 32 →
    (∀ (neg : Bool) (m : Nat) (e : ℤ), RoundsTo f mode sat h (numberOf neg m e) (roundTo f mode sat h (.fin neg m e)) ∧
      SignsRight f (numberOf neg m e) (roundTo f mode sat h (.fin neg m e))) ∧
    roundTo f mode sat h .nan = nanTo f ∧ (∀ neg, roundTo f mode sat h (.inf neg) = infTo f sat neg) ∧
    ∀ (neg : Bool) (e : ℤ), roundTo f mode sat h (.fin neg 0 e) = zeroTo f neg
/-- The value that a conversion reads from a member of its source format is the member's number; a conversion rounds it, `QNT` after its
scale, and `DEQ` rounds an element times its scale to FP32 (R113, R114, R115, R126, R360, R361, R421). -/
def ConversionsRound : Prop :=
  (∀ f ≤ 10, ∀ c, member f c → ∃ neg m e, codeVal f c = .fin neg m e ∧ numberOf neg m e = valueOf f c) ∧
  (∀ (f m mode h c : Nat) (sat : Bool), cvtOne f m mode sat h c = roundTo f mode sat h (codeVal m c)) ∧
  (∀ (f mode h a s : Nat) (sat : Bool), f ≤ 10 → mode < 4 → h < 2 ^ 32 → finiteCode fmt32 a → s < 255 →
    RoundsTo f mode sat h (ratOf fmt32 a / 2 ^ ((s : ℤ) - 127)) (qntOne f mode sat h a s)) ∧
  ∀ (f c s : Nat), f ≤ 10 → member f c → s < 255 → NearestEven fmt32 ((valueOf f c * 2 ^ ((s : ℤ) - 127) : ℚ) : ℝ) (deqOne f c s)
/-- `FSQRT` is correctly rounded in every type; `FRCP` is correctly rounded in the paired types, and lies within one ULP in F32 and F64, exact
where its result can be (R132, R133, R369). -/
def RootsAndReciprocals : Prop :=
  ∀ (t x : Nat) (f : BinFmt), (t = 0 ∧ f = fmt32) ∨ (t = 1 ∧ f = fmt64) ∨ (t = 2 ∧ f = fmt16) ∨ (t = 3 ∧ f = fmtB16) → finiteCode f x →
    ratOf f x ≠ 0 →
    (0 < ratOf f x → NearestEven f (Real.sqrt (ratOf f x : ℝ)) (fpSpecial .sqrt t x)) ∧
    (2 ≤ t → NearestEven f ((1 / ratOf f x : ℚ) : ℝ) (fpSpecial .rcp t x)) ∧
    (t < 2 → (∀ d, finiteCode f d → |ratOf f d| < |1 / ratOf f x|) →
      fpSpecial .rcp t x = overflowCode f false (decide (ratOf f x < 0))) ∧
    (t < 2 → (∃ d, finiteCode f d ∧ |1 / ratOf f x| ≤ ratOf f d) → finiteCode f (fpSpecial .rcp t x) ∧
      (∀ e : ℤ, 2 ^ e ≤ |1 / ratOf f x| → |1 / ratOf f x| < 2 ^ (e + 1) →
        |ratOf f (fpSpecial .rcp t x) - 1 / ratOf f x| ≤ 2 ^ (max e (1 - f.bias) - f.mb)) ∧
      ∀ d, finiteCode f d → ratOf f d = 1 / ratOf f x → ratOf f (fpSpecial .rcp t x) = 1 / ratOf f x)

end Sys2Proof.Claims
end

