-- ==== Sys2Proof/Claims/Rules.lean ====
section
/-!
DEFINITION. What the rules of the manual make each computing instruction read and write, family by family.
-/
namespace Sys2Proof.Claims
open Sys2Proof.Machine

/-- Integer arithmetic (R385, R386, R397, R81). -/
def intRule (s : State) : Instr → Option Effect
  | .iaddR c b a d => some (onR s c b a d false (fun x y _ => x + y) (fun x y _ => x + y))
  | .iaddI i u a d => some (onI s i u a d (fun x y => x + y) (fun x y => x + y))
  | .iadd16 d r => some (on16 s d r (fun x y => x + y))
  | .iadd16Imm d i => some
      { srcs := [VGroup.one d], dsts := [VGroup.one d], vec := perLane d (fun l => s.V d.toNat l + i.signExtend 32), len := 2 }
  | .isubR c b a d => some (onR s c b a d false (fun x y _ => x - y) (fun x y _ => x - y))
  | .isub16 d r => some (on16 s d r (fun x y => x - y))
  | .imulR c b a d => some (onR s c b a d false (fun x y _ => x * y) (fun x y _ => x * y))
  | .imulI i u a d => some (onI s i u a d (fun x y => x * y) (fun x y => x * y))
  | .imul16 d r => some (on16 s d r (fun x y => x * y))
  | .imulhS c b a d => some (onR s c b a d false
      (fun x y _ => BitVec.ofInt 32 (x.toInt * y.toInt / 2 ^ 32)) (fun x y _ => BitVec.ofInt 64 (x.toInt * y.toInt / 2 ^ 64)))
  | .imulhU c b a d => some (onR s c b a d false
      (fun x y _ => BitVec.ofNat 32 (x.toNat * y.toNat / 2 ^ 32)) (fun x y _ => BitVec.ofNat 64 (x.toNat * y.toNat / 2 ^ 64)))
  | .imad c b a d => some (onR s c b a d true (fun x y z => x * y + z) (fun x y z => x * y + z))
  | .iminSR c b a d => some (onR s c b a d false
      (fun x y _ => if x.toInt ≤ y.toInt then x else y) (fun x y _ => if x.toInt ≤ y.toInt then x else y))
  | .iminUR c b a d => some (onR s c b a d false
      (fun x y _ => if x.toNat ≤ y.toNat then x else y) (fun x y _ => if x.toNat ≤ y.toNat then x else y))
  | .imaxSR c b a d => some (onR s c b a d false
      (fun x y _ => if x.toInt ≤ y.toInt then y else x) (fun x y _ => if x.toInt ≤ y.toInt then y else x))
  | .imaxUR c b a d => some (onR s c b a d false
      (fun x y _ => if x.toNat ≤ y.toNat then y else x) (fun x y _ => if x.toNat ≤ y.toNat then y else x))
  | .iminSI i u a d => some (onI s i u a d
      (fun x y => if x.toInt ≤ y.toInt then x else y) (fun x y => if x.toInt ≤ y.toInt then x else y))
  | .iminUI i u a d => some (onI s i u a d
      (fun x y => if x.toNat ≤ y.toNat then x else y) (fun x y => if x.toNat ≤ y.toNat then x else y))
  | .imaxSI i u a d => some (onI s i u a d
      (fun x y => if x.toInt ≤ y.toInt then y else x) (fun x y => if x.toInt ≤ y.toInt then y else x))
  | .imaxUI i u a d => some (onI s i u a d
      (fun x y => if x.toNat ≤ y.toNat then y else x) (fun x y => if x.toNat ≤ y.toNat then y else x))
  | .iabs c a d => some (onR1 s c a d (fun x => if x.toInt < 0 then -x else x) (fun x => if x.toInt < 0 then -x else x))
  | .lea h c b a d => some (onR s c b a d false (fun x y _ => x + (y <<< h.toNat)) (fun x y _ => x + (y <<< h.toNat)))
  | _ => none

/-- The carry instructions in the classes that R386 accepts: sum or difference in rd, carry or borrow in p6. -/
def carryRule (s : State) : Instr → Option Effect
  | .iaddc c b a d =>
    let t (l : Nat) : Nat := (s.A c a l).toNat + (s.B c b l).toNat + bit01 (s.P 6 l)
    if c = 2 then none
    else some
      { srcs := srcGroups c a b VGroup.one, dsts := [VGroup.one d], vec := perLane d (fun l => BitVec.ofNat 32 (t l))
        pnum := 6, pred := s.lanes.map (fun l => (l, decide (2 ^ 32 ≤ t l))) }
  | .isubb c b a d =>
    let t (l : Nat) : Int := ((s.A c a l).toNat : Int) - (s.B c b l).toNat - bit01 (s.P 6 l)
    if c = 2 then none
    else some
      { srcs := srcGroups c a b VGroup.one, dsts := [VGroup.one d], vec := perLane d (fun l => BitVec.ofInt 32 (t l))
        pnum := 6, pred := s.lanes.map (fun l => (l, decide (t l < 0))) }
  | _ => none

/-- Logic, shifts, bit counts, permutation and bit fields (R334, R345, R348, R377, R411, R414, R416, R435, R454, R81). -/
def logicRule (s : State) : Instr → Option Effect
  | .andR c b a d => some (onR s c b a d false (fun x y _ => x &&& y) (fun x y _ => x &&& y))
  | .andI i u a d => some (onI s i u a d (fun x y => x &&& y) (fun x y => x &&& y))
  | .and16 d r => some (on16 s d r (fun x y => x &&& y))
  | .orR c b a d => some (onR s c b a d false (fun x y _ => x ||| y) (fun x y _ => x ||| y))
  | .orI i u a d => some (onI s i u a d (fun x y => x ||| y) (fun x y => x ||| y))
  | .or16 d r => some (on16 s d r (fun x y => x ||| y))
  | .xorR c b a d => some (onR s c b a d false (fun x y _ => x ^^^ y) (fun x y _ => x ^^^ y))
  | .xorI i u a d => some (onI s i u a d (fun x y => x ^^^ y) (fun x y => x ^^^ y))
  | .xor16 d r => some (on16 s d r (fun x y => x ^^^ y))
  | .andn c b a d => some (onR s c b a d false (fun x y _ => x &&& ~~~y) (fun x y _ => x &&& ~~~y))
  | .shlR c b a d => some (onR s c b a d false (fun x y _ => x <<< (y.toNat % 32)) (fun x y _ => x <<< (y.toNat % 64)))
  | .shrR c b a d => some (onR s c b a d false (fun x y _ => x >>> (y.toNat % 32)) (fun x y _ => x >>> (y.toNat % 64)))
  | .sarR c b a d => some (onR s c b a d false
      (fun x y _ => x.sshiftRight (y.toNat % 32)) (fun x y _ => x.sshiftRight (y.toNat % 64)))
  | .shlI i u a d => some (onI s i u a d (fun x y => x <<< (y.toNat % 32)) (fun x y => x <<< (y.toNat % 64)))
  | .shrI i u a d => some (onI s i u a d (fun x y => x >>> (y.toNat % 32)) (fun x y => x >>> (y.toNat % 64)))
  | .sarI i u a d => some (onI s i u a d (fun x y => x.sshiftRight (y.toNat % 32)) (fun x y => x.sshiftRight (y.toNat % 64)))
  | .shl16 d r => some (on16 s d r (fun x y => x <<< (y.toNat % 32)))
  | .shr16 d r => some (on16 s d r (fun x y => x >>> (y.toNat % 32)))
  | .sar16 d r => some (on16 s d r (fun x y => x.sshiftRight (y.toNat % 32)))
  | .fshl c b a d => some (onR s c b a d true
      (fun x y n => BitVec.ofNat 32 ((x.toNat * 2 ^ 32 + y.toNat) * 2 ^ (n.toNat % 32) / 2 ^ 32))
      (fun x y n => BitVec.ofNat 64 ((x.toNat * 2 ^ 64 + y.toNat) * 2 ^ (n.toNat % 64) / 2 ^ 64)))
  | .fshr c b a d => some (onR s c b a d true
      (fun x y n => BitVec.ofNat 32 ((x.toNat * 2 ^ 32 + y.toNat) / 2 ^ (n.toNat % 32)))
      (fun x y n => BitVec.ofNat 64 ((x.toNat * 2 ^ 64 + y.toNat) / 2 ^ (n.toNat % 64))))
  | .popc c a d => some (onR1 s c a d popCount popCount)
  | .clz c a d => some (onR1 s c a d leadZeros leadZeros)
  | .ctz c a d => some (onR1 s c a d trailZeros trailZeros)
  | .brev c a d => some (onR1 s c a d revBits revBits)
  | .prmt c b a d => some (onR s c b a d false
      (fun x y _ => BitVec.ofNat 32 (prmt 4 x y)) (fun x y _ => BitVec.ofNat 64 (prmt 8 (x.setWidth 32) (y.setWidth 32))))
  | .bfx g l p a d => some (onV s a d (bitExtract (g = 1) p.toNat (if l = 0 then 32 else l.toNat)))
  | .bfi l p a d => some
      { srcs := [VGroup.one a, VGroup.one d], dsts := [VGroup.one d]
        vec := perLane d (fun k => bitInsert p.toNat (if l = 0 then 32 else l.toNat) (s.V a.toNat k) (s.V d.toNat k)) }
  | _ => none

/-- What the special registers hold (R73): uniform values; number 0 is a lane register. `LAUNCHID` holds the low 32 bits of the launch's
number (log entry 54). -/
def specials (s : State) : List (Nat × W64) :=
  [(0x01, BitVec.ofNat 64 s.fl.width), (0x02, BitVec.ofNat 64 (s.fl.base / 16)), (0x03, BitVec.ofNat 64 s.blk.id),
   (0x04, BitVec.ofNat 64 s.blk.floes), (0x05, BitVec.ofNat 64 (floeCore s.cur.floe)),
   (0x06, BitVec.ofNat 64 (floeCore s.cur.floe % 96 / 8)), (0x07, BitVec.ofNat 64 (floeCore s.cur.floe / 96)),
   (0x08, BitVec.ofNat 64 (s.blk.launch % 2 ^ 32)), (0x09, BitVec.ofNat 64 (fieldN s.lau.desc 416 32)), (0x0A, s.fl.rbase.setWidth 64),
   (0x0B, BitVec.ofNat 64 s.blk.nregs), (0x0C, s.cr.ctime.setWidth 64), (0x0D, s.fg.active.extractLsb' 0 64),
   (0x0E, s.fg.active.extractLsb' 64 64), (0x10, s.fl.epc.setWidth 64), (0x11, s.fl.fcause.setWidth 64), (0x12, s.fl.faddr),
   (0x13, s.fl.illop), (0x14, s.fl.illf0), (0x15, s.fl.illf1), (0x16, s.fl.illf2), (0x17, s.fl.illf3), (0x18, s.fl.uivec),
   (0x19, s.fl.uipend.setWidth 64), (0x1A, s.fl.uepc.setWidth 64), (0x1B, s.cycle), (0x1C, s.time),
   (0x1D, s.fl.fmtvote.setWidth 64), (0x1E, s.fl.fusest), (0x1F, s.fl.guards.setWidth 64)]
/-- `COHORTS`: the numbers of the block's cohorts in the four low bytes, unused bytes 0xFF (R28, R73). -/
def cohortBytes (s : State) : W64 :=
  let cs := s.lau.cohortsOf s.blk.id
  BitVec.ofNat 64 (cs.getD 0 0xFF % 2 ^ 8 + cs.getD 1 0xFF % 2 ^ 8 * 2 ^ 8 + cs.getD 2 0xFF % 2 ^ 8 * 2 ^ 16 + cs.getD 3 0xFF % 2 ^ 8 * 2 ^ 24)
/-- A special register other than LANEID. -/
def special (s : State) (n : Nat) : W64 :=
  if n = 0x0F then cohortBytes s else (((specials s).find? (fun e => e.1 = n)).map (fun e => e.2)).getD 0

/-- Moves, packs, selects (R81, R406, R407, R410, R412, R438, R451) and reads of special registers (R422); `UNPK` needs an even
uniform rd. -/
def moveRule (s : State) : Instr → Option Effect
  | .movR c a d => some (onR1 s c a d (fun x => x) (fun x => x))
  | .mov16 d r => some { srcs := [VGroup.one (r.setWidth 6)], dsts := [VGroup.one d], vec := perLane d (fun l => s.V r.toNat l), len := 2 }
  | .nop16 => some { len := 2 }
  | .nop => some {}
  | .pack2 c b a d => some (onR s c b a d false (fun x y _ => (y <<< 16) ||| (x &&& 0xFFFF))
      (fun x y _ => (((y.setWidth 32 : W32) <<< 16) ||| ((x.setWidth 32 : W32) &&& 0xFFFF)).setWidth 64))
  | .unpk c a d => some
      (if c = 2 then
        { uni := [(d.toNat, s.S a.toNat &&& 0xFFFF), (d.toNat + 1, (s.S a.toNat >>> 16) &&& 0xFFFF)], also := d.toNat % 2 = 0 }
      else
        { srcs := [VGroup.one a], dsts := [VGroup.pair d]
          vec := fun l => [(d.toNat, s.V a.toNat l &&& 0xFFFF), (d.toNat + 1, s.V a.toNat l >>> 16)] })
  | .sel k c b a d => some
      { srcs := srcGroups c a b VGroup.one, dsts := [VGroup.one d]
        vec := perLane d (fun l => if s.P k.toNat l then s.A c a l else s.B c b l) }
  | .rdsr c n d =>
    if c = 2 then (if n = 0 then none else some { uni := [(d.toNat, special s n.toNat)] })
    else some { dsts := [VGroup.one d]
                vec := perLane d (fun l => if n = 0 then BitVec.ofNat 32 l else (special s n.toNat).setWidth 32) }
  | .movi i u d => some
      (if u = 1 then { uni := [(d.toNat, i.signExtend 64)] }
      else { dsts := [VGroup.one d], vec := perLane d (fun _ => i.signExtend 32) })
  | .movh i u d => some
      (if u = 1 then { uni := [(d.toNat, (s.S d.toNat <<< 18) ||| i.setWidth 64)] }
      else { srcs := [VGroup.one d], dsts := [VGroup.one d], vec := perLane d (fun l => (s.V d.toNat l <<< 18) ||| i.setWidth 32) })
  | _ => none

/-- The lanes of the issuing floe that have not exited. -/
def liveLanes (s : State) : List Nat := Mask.lanes s.fl.live s.fl.width

/-- The condition of a compare of two values in an order (R371): 0 EQ, 1 NE, 2 LT, 3 LE, 4 GT, 5 GE. -/
def orderCond {α : Type} [LT α] [DecidableEq α] [DecidableLT α] (n : Nat) (x y : α) : Bool :=
  match n with
  | 0 => decide (x = y)
  | 1 => decide (x ≠ y)
  | 2 => decide (x < y)
  | 3 => !decide (y < x)
  | 4 => decide (y < x)
  | _ => !decide (x < y)

/-- A compare: each active lane's predicate, or in class 2 one result in every lane that has not exited (R372, R373). -/
def compare (s : State) (c : BitVec 2) (b a : BitVec 6) (k : BitVec 6 → VGroup) (p : BitVec 3) (f : Nat → Bool) (g : Bool) : Effect :=
  if c = 2 then { pnum := p.toNat, pred := (liveLanes s).map (fun l => (l, g)) }
  else { srcs := srcGroups c a b k, pnum := p.toNat, pred := s.lanes.map (fun l => (l, f l)) }

/-- Compares and predicate logic (R371 to R373, R413). -/
def compareRule (s : State) : Instr → Option Effect
  | .icmpS c b a n p => if 5 < n.toNat then none else some (compare s c b a VGroup.one p
      (fun l => orderCond n.toNat (s.A c a l).toInt (s.B c b l).toInt) (orderCond n.toNat (s.S a.toNat).toInt (s.S b.toNat).toInt))
  | .icmpU c b a n p => if 5 < n.toNat then none else some (compare s c b a VGroup.one p
      (fun l => orderCond n.toNat (s.A c a l).toNat (s.B c b l).toNat) (orderCond n.toNat (s.S a.toNat).toNat (s.S b.toNat).toNat))
  | .fcmpF32 c b a n p => some (compare s c b a VGroup.one p
      (fun l => fpCond fmt32 n.toNat (s.A c a l).toNat (s.B c b l).toNat)
      (fpCond fmt32 n.toNat ((s.S a.toNat).toNat % 2 ^ 32) ((s.S b.toNat).toNat % 2 ^ 32)))
  | .fcmpF64 c b a n p => some (compare s c b a VGroup.pair p
      (fun l => fpCond fmt64 n.toNat (s.A64 c a l).toNat (s.B64 c b l).toNat)
      (fpCond fmt64 n.toNat (s.S a.toNat).toNat (s.S b.toNat).toNat))
  | .fcmpF16 c b a n p => some (compare s c b a VGroup.one p
      (fun l => fpCond fmt16 n.toNat ((s.A c a l).toNat % 2 ^ 16) ((s.B c b l).toNat % 2 ^ 16))
      (fpCond fmt16 n.toNat ((s.S a.toNat).toNat % 2 ^ 16) ((s.S b.toNat).toNat % 2 ^ 16)))
  | .fcmpBf16 c b a n p => some (compare s c b a VGroup.one p
      (fun l => fpCond fmtB16 n.toNat ((s.A c a l).toNat % 2 ^ 16) ((s.B c b l).toNat % 2 ^ 16))
      (fpCond fmtB16 n.toNat ((s.S a.toNat).toNat % 2 ^ 16) ((s.S b.toNat).toNat % 2 ^ 16)))
  | .plog b a o d => some
      { pnum := d.toNat
        pred := s.lanes.map (fun l => (l,
          match o.toNat with
          | 0 => s.P a.toNat l && s.P b.toNat l
          | 1 => s.P a.toNat l || s.P b.toNat l
          | 2 => s.P a.toNat l != s.P b.toNat l
          | _ => s.P a.toNat l && !(s.P b.toNat l))) }
  | _ => none

/-! ## Floating point (R365 to R370, R132 to R138) -/

/-- The format of an FP type. -/
def fmtOf (t : BitVec 2) : BinFmt := if t = 0 then fmt32 else if t = 1 then fmt64 else if t = 2 then fmt16 else fmtB16
/-- A 32-bit word in the parts of a type: F32, or two halves. -/
def inParts (t : BitVec 2) (f : Nat → Nat → Nat → Nat) (x y z : W32) : W32 :=
  if t = 0 then BitVec.ofNat 32 (f x.toNat y.toNat z.toNat)
  else BitVec.ofNat 32 (f (x.toNat % 2 ^ 16) (y.toNat % 2 ^ 16) (z.toNat % 2 ^ 16) +
    2 ^ 16 * f (x.toNat / 2 ^ 16 % 2 ^ 16) (y.toNat / 2 ^ 16 % 2 ^ 16) (z.toNat / 2 ^ 16 % 2 ^ 16))
/-- The shadow units of the issuing lanes meet no error, where the operation has them (R137). -/
def NoError (s : State) (checked : Bool) : Prop := checked = true → ∀ l ∈ s.lanes, s.flipOf (floeCore s.cur.floe) l = none
/-- A vector FP-R operation; `checked` where each lane has a shadow unit (R137). -/
def onFp (s : State) (t c : BitVec 2) (b a d : BitVec 6) (old checked : Bool) (f : BinFmt → Nat → Nat → Nat → Nat) : Effect :=
  if c = 2 then
    (if t = 1 then
      { uni := [(d.toNat, BitVec.ofNat 64 (f fmt64 (s.S a.toNat).toNat (s.S b.toNat).toNat (s.S d.toNat).toNat))] }
    else
      { uni := [(d.toNat, (inParts t (f (fmtOf t)) ((s.S a.toNat).setWidth 32) ((s.S b.toNat).setWidth 32)
          ((s.S d.toNat).setWidth 32)).setWidth 64)] })
  else if t = 1 then
    { srcs := srcGroups c a b VGroup.pair ++ (if old then [VGroup.pair d] else [])
      dsts := [VGroup.pair d]
      vec := perLane64 d (fun l => BitVec.ofNat 64 (f fmt64 (s.A64 c a l).toNat (s.B64 c b l).toNat
        (if old then (s.V64 d.toNat l).toNat else 0))) }
  else
    { srcs := srcGroups c a b VGroup.one ++ (if old then [VGroup.one d] else [])
      dsts := [VGroup.one d]
      vec := perLane d (fun l => inParts t (f (fmtOf t)) (s.A c a l) (s.B c b l) (if old then s.V d.toNat l else 0))
      also := NoError s checked }
/-- A 16-bit FP32 form. -/
def onFp16 (s : State) (d : BitVec 6) (r : BitVec 5) (checked : Bool) (f : BinFmt → Nat → Nat → Nat) : Effect :=
  { srcs := [VGroup.one d, VGroup.one (r.setWidth 6)]
    dsts := [VGroup.one d]
    vec := perLane d (fun l => BitVec.ofNat 32 (f fmt32 (s.V d.toNat l).toNat (s.V r.toNat l).toNat))
    len := 2
    also := NoError s checked }

/-- Sums, products and their fused form, minimum and maximum (R366, R367, R81). -/
def fpRule (s : State) : Instr → Option Effect
  | .fadd t c b a d => some (onFp s t c b a d false true (fun f x y _ => fpAdd f x y))
  | .fsub t c b a d => some (onFp s t c b a d false true (fun f x y _ => fpSub f x y))
  | .fmul t c b a d => some (onFp s t c b a d false true (fun f x y _ => fpMul f x y))
  | .ffma t c b a d => some (onFp s t c b a d true true fpFma)
  | .fmin t c b a d => some (onFp s t c b a d false false (fun f x y _ => fpMinMax f false x y))
  | .fmax t c b a d => some (onFp s t c b a d false false (fun f x y _ => fpMinMax f true x y))
  | .fadd16 d r => some (onFp16 s d r true fpAdd)
  | .fsub16 d r => some (onFp16 s d r true fpSub)
  | .fmul16 d r => some (onFp16 s d r true fpMul)
  | .fmin16 d r => some (onFp16 s d r false (fun f x y => fpMinMax f false x y))
  | .fmax16 d r => some (onFp16 s d r false (fun f x y => fpMinMax f true x y))
  | _ => none

/-- A function of one source in the parts of a type; F64 reads a pair and writes a pair, or one register where `narrow`. -/
def onFp1 (s : State) (t c : BitVec 2) (a d : BitVec 6) (narrow : Bool) (f : Nat → Nat) : Effect :=
  if c = 2 then
    (if t = 1 then { uni := [(d.toNat, BitVec.ofNat 64 (f (s.S a.toNat).toNat))] }
    else { uni := [(d.toNat, (inParts t (fun x _ _ => f x) ((s.S a.toNat).setWidth 32) 0 0).setWidth 64)] })
  else if t = 1 then
    (if narrow then
      { srcs := [VGroup.pair a], dsts := [VGroup.one d], vec := perLane d (fun l => BitVec.ofNat 32 (f (s.V64 a.toNat l).toNat)) }
    else { srcs := [VGroup.pair a], dsts := [VGroup.pair d], vec := perLane64 d (fun l => BitVec.ofNat 64 (f (s.V64 a.toNat l).toNat)) })
  else
    { srcs := [VGroup.one a], dsts := [VGroup.one d], vec := perLane d (fun l => inParts t (fun x _ _ => f x) (s.V a.toNat l) 0 0) }

/-- The special functions and `FCLS` (R369, R370), in the classes that R86 accepts. -/
def specialRule (s : State) : Instr → Option Effect
  | .frcp t c a d => some (onFp1 s t c a d false (fpSpecial .rcp t.toNat))
  | .frsq t c a d => some (onFp1 s t c a d false (fpSpecial .rsq t.toNat))
  | .fsqrt t c a d => some (onFp1 s t c a d false (fpSpecial .sqrt t.toNat))
  | .fex2 t c a d => some (onFp1 s t c a d false (fpSpecial .ex2 t.toNat))
  | .flg2 t c a d => some (onFp1 s t c a d false (fpSpecial .lg2 t.toNat))
  | .fsin t c a d => some (onFp1 s t c a d false (fpSpecial .sin t.toNat))
  | .fcos t c a d => some (onFp1 s t c a d false (fpSpecial .cos t.toNat))
  | .fcls t c a d => some (onFp1 s t c a d true (fpClass (fmtOf t)))
  | _ => none

/-- The stochastic hash of a lane (R123, R124). -/
def hashOf (s : State) (l : Nat) : Nat :=
  stochHash (descSeed s.lau.desc) (s.blk.id % 2 ^ 20 * 2 ^ 12 + (s.fl.base + l)) s.fl.stoch.toNat
/-- Conversions (R360, R361, R421); stochastic rounding counts once per issue (R124). -/
def convertRule (s : State) : Instr → Option Effect
  | .cvt st r f m a d => some
      { onV s a d (fun _ => 0) with
        vec := perLane d (fun l => BitVec.ofNat 32 (cvtOne f.toNat m.toNat r.toNat (st = 1) (hashOf s l)
          ((s.V a.toNat l).toNat % 2 ^ fmtWidth m.toNat)))
        stoch := if r = 3 then 1 else 0 }
  | .qnt st r f b a d => some
      { srcs := [VGroup.one a, VGroup.one b], dsts := [VGroup.one d]
        vec := perLane d (fun l => BitVec.ofNat 32 (qntOne f.toNat r.toNat (st = 1) (hashOf s l) (s.V a.toNat l).toNat
          ((s.V b.toNat l).toNat % 2 ^ 8)))
        stoch := if r = 3 then 1 else 0 }
  | .deq f b a d => some
      { srcs := [VGroup.one a, VGroup.one b], dsts := [VGroup.one d]
        vec := perLane d (fun l => BitVec.ofNat 32 (deqOne f.toNat ((s.V a.toNat l).toNat % 2 ^ fmtWidth f.toNat)
          ((s.V b.toNat l).toNat % 2 ^ 8))) }
  | _ => none

/-! ## Cross-lane operations (R389, R399, R430, R431, R433) -/

/-- A lane mask as uniform registers: an even pair at width 128. -/
def maskUni (s : State) (d : BitVec 6) (m : Mask) : List (Nat × W64) :=
  if s.fl.width = 128 then [(d.toNat, m.setWidth 64), (d.toNat + 1, (m >>> 64).setWidth 64)] else [(d.toNat, m.setWidth 64)]
/-- The index operand of a `SHFL`. -/
def shflIdx (s : State) (c : BitVec 1) (b : BitVec 6) (l : Nat) : W32 :=
  if c = 1 then (s.S b.toNat).setWidth 32 else s.V b.toNat l
/-- A register that lanes read whatever queue is on: below N, backing no loop-carried queue, and no port (R60, R66, R419, R431). -/
def readable_ (s : State) (a : BitVec 6) : Prop :=
  s.absReg a.toNat < s.blk.nregs ∧ s.fl.backing (s.absReg a.toNat) = false ∧ s.portsOf [VGroup.one a] = []
/-- A `SHFL` that reads lane j l; the words read are not poisoned. -/
def shuffle (s : State) (c : BitVec 1) (b a d : BitVec 6) (j : Nat → W32 → Nat) : Effect :=
  { srcs := if c = 1 then [] else [VGroup.one b]
    dsts := [VGroup.one d]
    vec := perLane d (fun l => s.blk.reg (s.thread (j l (shflIdx s c b l))) (s.absReg a.toNat))
    also := readable_ s a ∧ ∀ l ∈ s.lanes,
      s.blk.regIdx (s.thread (j l (shflIdx s c b l))) (s.absReg a.toNat) ∉ s.blk.badRegs }
/-- A uniform register that takes lane j's stored register. -/
def fromLane (s : State) (a d : BitVec 6) (j : Nat) : Effect :=
  { uni := [(d.toNat, (s.blk.reg (s.thread j) (s.absReg a.toNat)).setWidth 64)]
    also := readable_ s a ∧ s.blk.regIdx (s.thread j) (s.absReg a.toNat) ∉ s.blk.badRegs }
/-- A combination of the active lanes, in ascending order. -/
def combine (s : State) (a d : BitVec 6) (f : List W32 → W32) : Effect :=
  { srcs := [VGroup.one a], uni := [(d.toNat, (f (s.lanes.map (fun l => s.V a.toNat l))).setWidth 64)] }
/-- The mask of the active lanes with a property. -/
def maskWhere (s : State) (f : Nat → Bool) : Mask := Mask.ofLanes (s.lanes.filter f)

/-- Cross-lane operations. -/
def laneRule (s : State) : Instr → Option Effect
  | .shflGet c b a d => some (shuffle s c b a d (fun _ x => x.toNat % s.fl.width))
  | .shflSlide c b a d => some (shuffle s c b a d (fun l x =>
      if 0 ≤ (l : Int) + x.toInt ∧ (l : Int) + x.toInt < s.fl.width then ((l : Int) + x.toInt).toNat else l))
  | .shflRot c b a d => some (shuffle s c b a d (fun l x => (l + x.toNat) % s.fl.width))
  | .shflXor c b a d => some (shuffle s c b a d (fun l x => Nat.xor l (x.toNat % s.fl.width)))
  | .lbc b a d => some (fromLane s a d ((s.S b.toNat).toNat % s.fl.width))
  | .rfa a d => some (fromLane s a d s.elected)
  | .voteAll k d => some { uni := [(d.toNat, if s.lanes.all (fun l => s.P k.toNat l) then 1 else 0)] }
  | .voteAny k d => some { uni := [(d.toNat, if s.lanes.any (fun l => s.P k.toNat l) then 1 else 0)] }
  | .voteBallot k d => some
      { uni := maskUni s d (maskWhere s (fun l => s.P k.toNat l)), also := s.fl.width = 128 → d.toNat % 2 = 0 }
  | .redxAdd a d => some (combine s a d (fun xs => xs.foldl (fun t x => t + x) 0))
  | .redxMin a d => some (combine s a d (fun xs => xs.foldl (fun t x => if x.toInt < t.toInt then x else t) (xs.headD 0)))
  | .redxMax a d => some (combine s a d (fun xs => xs.foldl (fun t x => if t.toInt < x.toInt then x else t) (xs.headD 0)))
  | .redxFadd a d => some (combine s a d (fun xs =>
      let t := (xs.drop 1).foldl (fun t x => fpAdd fmt32 t x.toNat) (xs.headD 0).toNat
      BitVec.ofNat 32 (if (ieeeVal fmt32 (t % 2 ^ 32)).isNan then 0x7FC00000 else t)))
  | .scanAdd a d => some
      { srcs := [VGroup.one a], dsts := [VGroup.one d]
        vec := perLane d (fun l => ((s.lanes.filter (fun j => j ≤ l)).map (fun j => s.V a.toNat j)).foldl (fun t x => t + x) 0) }
  | .scanAddx a d => some
      { srcs := [VGroup.one a], dsts := [VGroup.one d]
        vec := perLane d (fun l => ((s.lanes.filter (fun j => j < l)).map (fun j => s.V a.toNat j)).foldl (fun t x => t + x) 0) }
  | .matchLanes a d => some
      { srcs := [VGroup.one a], uni := maskUni s d (maskWhere s (fun l => s.V a.toNat l = s.V a.toNat s.elected))
        also := s.fl.width = 128 → d.toNat % 2 = 0 }
  | _ => none

end Sys2Proof.Claims
end

