-- ==== Sys2Proof/Claims/Handlers.lean ====
section
/-!
DEFINITION. What the rules of the manual say of entering a handler and of returning from one (R92, R257 to R268).
-/
namespace Sys2Proof.Claims
open Sys2Proof.Machine

/-- A fragment stands at an instruction boundary (R268): its floe is live, neither parked nor frozen, its launch runs, its core has no
halt request, and no call record holds the fragment back (R262). -/
structure AtBoundary (s : State) (f id : Nat) : Prop where
  floe    : ∃ fl, s.floes.get? f = some fl ∧ fl.st ≠ .retired ∧ fl.st ≠ .reserved ∧ fl.st ≠ .parked ∧ fl.hold = false
  running : (s.launch (s.block (blockOf f)).launch).phase = .running
  core    : (s.core (floeCore f)).haltReq = false ∧ (s.core (floeCore f)).halted = false
  frag    : ∃ g ∈ (s.floe f).frags, g.id = id ∧ ((s.floe f).recs = [] ∨ g.handler = true)

/-- A fragment is the one that its active floe issues next, and waits for nothing, not in the middle of a threshold read (R26, R45, R201). -/
def TakesNext (s : State) (f id : Nat) : Prop :=
  (s.frag f id).wait = .none ∧ (s.frag f id).left = none ∧ (s.floe f).st = .active ∧ (s.floe f).pick = some id
/-- The waits that an interrupt abandons (R266): `WAIT`, `WAITM`, a threshold read, an empty queue. -/
def abandonable (w : WaitFor) : Prop := w = .counters ∨ (∃ va limit, w = .memory va limit) ∨ w = .lattice ∨ w = .pop
/-- A fragment of a waiting floe stands in a wait that an interrupt abandons (R45, R266). -/
def Abandons (s : State) (f id : Nat) : Prop :=
  abandonable (s.frag f id).wait ∧ (s.frag f id).left = none ∧ (s.floe f).st = .waiting
/-- No write of a floe waits behind a release fence, which holds interrupts back until it completes (R376). -/
def noneBehindRel (s : State) (f : Nat) : Prop :=
  (∀ n ∈ (s.floe f).rels, ∀ o ∈ (s.floe f).ops, o.seq < n → ∀ a ∈ o.lanes, a.done = true) ∨ ∀ g ∈ (s.floe f).frags, g.wait ≠ .rel
/-- A fragment stands at an instruction that has not issued, where a reported cause reaches it: the next of its active floe, or one that an
order, a release fence or want of room holds back (R256, R268). -/
def AtIssue (s : State) (f id : Nat) : Prop :=
  TakesNext s f id ∨ (s.frag f id).wait = .room ∨ (s.frag f id).wait = .order ∨ (s.frag f id).wait = .rel

/-! ## Call records (R260) -/

/-- The address of a floe's next call record: 64 bytes below S(62) (R261). -/
def recordVa (s : State) (f : Nat) : W64 := (s.floe f).S 62 - 64
/-- Its physical address by a held translation. -/
def recordPa (s : State) (f : Nat) (x : Xlat) : Nat := x.pa + ((recordVa s f).toNat - x.va)

/-- The fields of a call record: what the floe's registers were, the entering fragment's active mask, kind, skip, and the number of
live records below it. -/
structure RecordHolds (v : BitVec 512) (fl : Floe) (g : Fragment) (kind skip : Bool) : Prop where
  faddr  : v.extractLsb' 448 64 = fl.faddr
  amask  : v.extractLsb' 320 128 = g.active
  zero   : v.extractLsb' 256 64 = 0
  epc    : v.extractLsb' 238 18 = fl.epc
  fcause : v.extractLsb' 230 8 = fl.fcause
  uepc   : v.extractLsb' 212 18 = fl.uepc
  mask   : v.extractLsb' 209 3 = fl.umask
  kind   : v.getLsbD 208 = kind
  skip   : v.getLsbD 207 = skip
  depth  : (v.extractLsb' 203 4).toNat = fl.recs.length
  low    : v.extractLsb' 0 203 = 0

/-- The conditions under which a floe can write its next call record (R261, R264): an aligned stack pointer, fewer than eight live
records, a held translation of a writable plain page of tier 0 or 1, and a line that the die's stack owns, whose new write stamp the
horizon lets the core's time rise to (R218). -/
structure CanEnter (s : State) (f id : Nat) (x : Xlat) (line : StackLine) : Prop where
  frag    : ∃ g ∈ (s.floe f).frags, g.id = id
  aligned : ((s.floe f).S 62).toNat % 64 = 0
  depth   : (s.floe f).recs.length < 8
  space   : (recordVa s f).toNat < 2 ^ 56 ∧ inAperture (recordVa s f).toNat = false
  held    : (s.core (floeCore f)).held (s.asidOf (blockOf f)) (recordVa s f).toNat = some x
  page    : bitN x.attr 2 = true ∧ fieldN x.attr 48 4 = 0 ∧ fieldN x.attr 16 2 ≤ 1
  whole   : recordPa s f x % 64 = 0
  own     : Owned s (dieOfCore (floeCore f)) (recordPa s f x / 128) (fieldN x.attr 52 12) line
  rises   : mayRise s (floeCore f) (laterOf (clamped s (dieOfCore (floeCore f)) line.rts) (s.core (floeCore f)).ctime + 1)

/-- The state after an entry (R261): the record stands in its line, S(62) points to it, the fragment goes on at the handler with its
lanes, and the floe's registers are as `set` has them. Every other register, fragment, floe, line and byte of memory is as before;
the core's logical time and its own copy of the line follow the write (R222). -/
structure Entered (s : State) (f id : Nat) (x : Xlat) (set : Floe → Floe) (pc : BitVec 18) (kind skip : Bool) (t : State) : Prop where
  frame  : OnlyLine { s with floes := t.floes } (floeCore f) (dieOfCore (floeCore f)) (recordPa s f x / 128) t
  floes  : ∀ g, g ≠ f → t.floes.get? g = s.floes.get? g
  floe   : t.floe f = { set ((s.floe f).setS 62 (recordVa s f)) with
    recs := (s.floe f).recs ++ [recordVa s f], frags := (t.floe f).frags, st := (t.floe f).st, readyAt := (t.floe f).readyAt }
  frag   : t.frag f id = { s.frag f id with pc := pc, wait := .none, handler := true, rb := none, left := none }
  others : ∀ j, j ≠ id → t.frag f j = s.frag f j
  record : ∃ y, (t.die (dieOfCore (floeCore f))).stack.get? (recordPa s f x / 128) = some y ∧
    RecordHolds (y.data.extractLsb' (8 * (recordPa s f x % 128)) 512) (s.floe f) (s.frag f id) kind skip ∧
    ∀ i < 128, (i < recordPa s f x % 128 ∨ recordPa s f x % 128 + 64 ≤ i) →
      ∃ line, (s.die (dieOfCore (floeCore f))).stack.get? (recordPa s f x / 128) = some line ∧ Line.byte y.data i = Line.byte line.data i

/-- The floe's registers after the emulation trap of an instruction (R92, R93): cause 0x0B, its word, its fields. -/
def trapped (s : State) (word : Nat) (f0 f1 f2 f3 : W64) (fl : Floe) : Floe :=
  { fl with epc := s.fg.pc, fcause := 0x0B, faddr := 0, illop := BitVec.ofNat 64 word, illf0 := f0, illf1 := f1, illf2 := f2, illf3 := f3 }
/-- `TRAP` takes the emulation trap with reason 11 (R449). -/
structure Trapped (s : State) (c : BitVec 18) (x : Xlat) (t : State) : Prop where
  entered : Entered s s.cur.floe s.cur.frag x (trapped s (encodeWord (.trap c)) t.fl.illf0 t.fl.illf1 t.fl.illf2 t.fl.illf3)
    (BitVec.ofNat 18 (fieldN s.fl.uivec 44 18)) false true t
  fields  : t.fl.illf0 = 0x0328810B
  code    : t.fl.illf2 = c.signExtend 64

/-- The floe's registers after its oldest reported cause has entered the trap handler (R257, R261). -/
def reported (s : State) (f id : Nat) (r : Report) (rest : List Report) (fl : Floe) : Floe :=
  { (if r.cause = 0x0B then { fl with illop := r.illop, illf0 := r.illf0, illf1 := 0, illf2 := 0, illf3 := r.illf3 } else fl) with
    reports := rest, epc := (s.frag f id).pc, fcause := r.cause, faddr := r.faddr }
/-- The floe's registers after an interrupt entry (R261). -/
def interrupted (s : State) (f id : Nat) (fl : Floe) : Floe := { fl with uepc := (s.frag f id).pc, umask := 7 }

/-! ## Returns (R263) -/

/-- The conditions under which a return reads its record from the core's own copy of a line: a live record, no other handler fragment,
no outstanding operation, and a held translation of a readable plain page. -/
structure CanReturn (s : State) (x : Xlat) (copy : L1Line) (rec_ : BitVec 512) (interrupt : Bool) : Prop where
  live    : s.fl.recs ≠ []
  alone   : Undivided s
  quiet   : s.fl.ops = []
  aligned : (s.S 62).toNat % 64 = 0
  space   : (s.S 62).toNat < 2 ^ 56 ∧ inAperture (s.S 62).toNat = false
  held    : s.cr.held s.asid (s.S 62).toNat = some x
  page    : bitN x.attr 1 = true ∧ fieldN x.attr 48 4 = 0 ∧ fieldN x.attr 16 2 ≤ 1 ∧ bitN x.attr 46 = false
  whole   : (x.pa + ((s.S 62).toNat - x.va)) % 64 = 0
  plain   : paTier (x.pa + ((s.S 62).toNat - x.va)) = 2 → (x.pa + ((s.S 62).toNat - x.va)) / 128 ∉ s.firnHeld
  hit     : Hit s s.cur.floe ((x.pa + ((s.S 62).toNat - x.va)) / 128) (fieldN x.attr 52 12) copy
  image   : rec_ = copy.data.extractLsb' (8 * ((x.pa + ((s.S 62).toNat - x.va)) % 128)) 512
  kind    : rec_.getLsbD 208 = interrupt
  lanes   : rec_.extractLsb' 320 128 &&& s.fl.live ≠ 0
  landed  : interrupt = false → rec_.getLsbD 207 = true → landedAt s s.fl.epc.toNat

/-- Where a return goes on: at `UEPC`, at `EPC`, or behind the word at `EPC` where the record's skip bit is 1. -/
def returnTarget (s : State) (rec_ : BitVec 512) (interrupt : Bool) : BitVec 18 :=
  if interrupt then s.fl.uepc
  else if rec_.getLsbD 207 then s.fl.epc + (if s.cr.halfword s.fl.epc.toNat % 2 = 1 then 4 else 2)
  else s.fl.epc

/-- The state after a return: the record's level of registers, S(62) above the record, the record's lanes but the exited ones, and the
target. Every other register, every block and cache and all of memory is as before. -/
structure Returned (s : State) (rec_ : BitVec 512) (interrupt : Bool) (t : State) : Prop where
  own  : OnlyFloe s s.cur.floe t
  floe : t.fl = { s.fl.setS 62 (s.S 62 + 64) with
    epc := rec_.extractLsb' 238 18, fcause := rec_.extractLsb' 230 8, faddr := rec_.extractLsb' 448 64,
    uepc := rec_.extractLsb' 212 18, umask := rec_.extractLsb' 209 3, recs := s.fl.recs.dropLast
    frags := t.fl.frags, st := t.fl.st, readyAt := t.fl.readyAt }
  frag : t.fl.frags = [{ s.fg with pc := returnTarget s rec_ interrupt, active := rec_.extractLsb' 320 128 &&& s.fl.live,
                                   handler := decide (1 < s.fl.recs.length), wait := .none, rb := none, left := none }]

end Sys2Proof.Claims
end

