-- ==== Sys2Proof/Claims/Network.lean ====
section
/-!
DEFINITION. What the rules of the manual say of peers, receive windows and packets, the fault ring and the event ring, and of the memory that
the host die writes for them (R175, R202 to R204, R214, R305, R308 to R311).
-/
namespace Sys2Proof.Claims
open Sys2Proof.Machine

/-! ## Memory by virtual address, for agents outside the compute dies -/

/-- n bytes at a virtual address lie in one line of plain memory of tier 0 or 1, at home, written under the page's key; they are mapped with every
right of a list (1 to read, 2 to write), whatever the lines of a list come to hold. -/
structure Reach (s : State) (rights : List Nat) (lines : List Nat) (asid va n pa key : Nat) : Prop where
  space  : va < 2 ^ 56 ∧ inAperture va = false ∧ va % 128 + n ≤ 128 ∧ 0 < n ∧ pa % 128 = va % 128 ∧ paTier pa ≤ 1
  home   : AtHome s (pa / 128)
  keyed  : s.memKeys.getD (pa / 128) key = key
  mapped : ∀ u : State, u.boot = s.boot → u.migrations = [] → (∀ a, a / 128 ∉ lines → u.peekByte a = s.peekByte a) →
    ∃ x r, u.walk asid va = .ok x r ∧ (∀ b ∈ rights, bitN x.attr b = true) ∧ fieldN x.attr 48 4 = 0 ∧ fieldN x.attr 16 2 ≤ 1 ∧
      fieldN x.attr 52 12 = key ∧ pa = x.pa + (va - x.va)
/-- Memory alone has changed, with the keys and poison of what was written. -/
def MemoryOnly (s t : State) : Prop := t = { s with mem := t.mem, memKeys := t.memKeys, badWords := t.badWords }

/-! ## Peers (R214) -/

/-- A peer's access of n aligned bytes that its home's translation allows. -/
structure PeerMay (s : State) (req : PeerReq) (rights : List Nat) (n pa key : Nat) : Prop where
  size  : 0 < n ∧ n ≤ 16 ∧ req.va % n = 0 ∧ req.asid < 2 ^ 16
  reach : Reach s rights [] req.asid req.va n pa key
/-- What a peer's access does, by what it asks: a read nothing, a write its bytes, an atomic its result. -/
inductive PeerDone (s : State) (req : PeerReq) : State → Prop where
  | read (n pa key : Nat) : req.op = .read n → PeerMay s req [1] n pa key → PeerDone s req s
  | write (bs : List Byte) (pa key : Nat) (t : State) : req.op = .write bs → PeerMay s req [2] bs.length pa key → MemoryOnly s t →
      Written s pa bs.length (ofBytes bs) t → PeerDone s req t
  | atom (op : AtomOp) (wide : Bool) (x cmp : W64) (n pa key : Nat) (new : BitVec (8 * n)) (t : State) :
      req.op = .atom op wide x cmp → n = (if wide then 8 else 4) → PeerMay s req [1, 2] n pa key →
      atomicResult op (BitVec.ofNat (8 * n) (memNumber s pa n)) (x.setWidth (8 * n)) (cmp.setWidth (8 * n)) = new → MemoryOnly s t →
      Written s pa n new.toNat t → PeerDone s req t
/-- A request of a peer that the home serves. -/
inductive PeerMayAsk (s : State) (req : PeerReq) : Prop where
  | read (n pa key : Nat) : req.op = .read n → PeerMay s req [1] n pa key → PeerMayAsk s req
  | write (bs : List Byte) (pa key : Nat) : req.op = .write bs → PeerMay s req [2] bs.length pa key → PeerMayAsk s req
  | atom (op : AtomOp) (wide : Bool) (x cmp : W64) (n pa key : Nat) : req.op = .atom op wide x cmp → n = (if wide then 8 else 4) →
      PeerMay s req [1, 2] n pa key → PeerMayAsk s req
/-- A lane that waits for the home of a tier-3 page, a peer package (R214). -/
def ofPeer (s : State) (f : Nat) (a : LaneAcc) : Bool :=
  !a.done && decide (a.place = .absent) &&
    (match s.walk (s.asidOf (blockOf f)) a.va.toNat with | .ok x _ => decide (fieldN x.attr 16 2 = 3) | .cause _ => false)
/-- A floe parked at an operation o of which lanes a and `rest` wait for a peer and every other lane has been reached, with no cause of a
lower lane kept, in a fragment that is no handler's. -/
structure Unanswered (s : State) (f : Nat) (p : Parked) (o : MemOp) (a : LaneAcc) (rest : List LaneAcc) : Prop where
  parked : (s.floe f).parked = some p ∧ p.op.lanes ≠ [] ∧ (∀ h, p.hard = some h → a.lane < h.1)
  here   : o ∈ (s.floe f).ops ∧ o.seq = p.op.seq ∧ ((s.floe f).ops.map (fun x => x.seq)).Nodup ∧ (o.lanes.map (fun x => x.lane)).Nodup
  lanes  : o.lanes.filter (ofPeer s f) = a :: rest ∧ ∀ b ∈ o.lanes, ofPeer s f b = false → reached b.place = true
  plain  : o.kind ≠ .joinStrict ∧ (s.floe f).recs = [] ∧ (s.frag f p.frag).handler = false ∧ (s.core (floeCore f)).haltReq = false ∧
    s.cur.halt = false
/-- The floe's registers after no peer has answered for 100 ms (R214, R256): the waiting lanes are gone, the parking has ended, and cause 0x10
names the lowest one's address. -/
def timedOut (s : State) (f : Nat) (p : Parked) (o : MemOp) (a : LaneAcc) (fl : Floe) : Floe :=
  { fl with
    ops := fl.ops.map (fun x => if x.seq = o.seq then { o with lanes := o.lanes.filter (fun l => !(ofPeer s f l)) } else x)
    parked := none, epc := (s.frag f p.frag).pc, fcause := 0x10, faddr := a.va }
/-- Such an operation of a floe that can enter its trap handler. -/
structure MayTimeOut (s : State) (f : Nat) (p : Parked) (o : MemOp) (a : LaneAcc) (rest : List LaneAcc) (x : Xlat) (line : StackLine) :
    Prop where
  late  : Unanswered s f p o a rest
  traps : (s.floe f).uivec.getLsbD 43 = true ∧ CanEnter s f p.frag x line

/-! ## Windows and packets (R308, R310) -/

/-- n bytes at a virtual address of an address space reach no mailbox (R37). -/
def noMail (s : State) (asid va n : Nat) : Prop :=
  (∀ e ∈ s.launches, dfield e.2.desc 400 16 = asid → dfield e.2.desc 320 56 + 64 ≤ va ∨ va + n ≤ dfield e.2.desc 320 56) ∧
  ∀ b ∈ s.bindings, b.asid = asid → b.mailbox + 64 ≤ va ∨ va + n ≤ b.mailbox
/-- A packet for an open window that is no mailbox's, inside it and of its kind, into one line at home; the window is not yet filled. -/
structure CanPlace (s : State) (n off : Nat) (idem : Bool) (bs : List Byte) (w : RecvWindow) (pa key : Nat) : Prop where
  window : s.windows.get? n = some w ∧ w.mailbox = false ∧ w.idem = idem
  inside : off + bs.length ≤ w.len ∧ bs.length ≤ 4096
  reach  : Reach s [2] [] w.asid (w.va + off) bs.length pa key
  mail   : noMail s w.asid (w.va + off) bs.length
  left   : if idem then ∃ x < w.len, (x < off ∨ off + bs.length ≤ x) ∧ ∀ r ∈ w.units, x < r.1 ∨ r.1 + r.2 ≤ x
           else w.placed + bs.length < w.len
/-- The state after its placement: its bytes stand in the buffer, and the window has as many bytes more, the range written, and the
message's tag, which is the peer's. -/
structure PacketPlaced (s : State) (n off : Nat) (bs : List Byte) (w : RecvWindow) (pa : Nat) (t : State) : Prop where
  rest    : t = { s with mem := t.mem, memKeys := t.memKeys, badWords := t.badWords, windows := t.windows, free := t.free }
  memory  : Written s pa bs.length (ofBytes bs) t
  window  : ∃ us tag, t.windows.get? n = some { w with placed := w.placed + bs.length, units := us, tag := tag } ∧
    ∀ u, u ∈ us ↔ u ∈ w.units ∨ u = (off, bs.length)
  others  : ∀ k, k ≠ n → t.windows.get? k = s.windows.get? k
/-- The oldest packet in flight of a send. -/
def OldestPacket (s : State) (f seq : Nat) (before after : List Packet) (p : Packet) : Prop :=
  s.packets = before ++ p :: after ∧ p.floe = f ∧ p.seq = seq ∧ (∀ q ∈ before, ¬(q.floe = f ∧ q.seq = seq)) ∧ p ∉ before

/-! ## The fault ring and the event ring (R202, R203, R305) -/

/-- A run of one record waits for an address space's ring, whose control words and slot can be reached, with room for it. -/
structure RingRoom (s : State) (asid : Nat) (w : Nat × List (BitVec 512)) (rec_ : BitVec 512) (prod cons pa paC key keyC : Nat) : Prop where
  waits : s.ringWaits.find? (fun x => x.1 = asid) = some w ∧ w.2 = [rec_]
  fresh : fieldN rec_ 64 32 = 0
  ctl   : fieldN (s.asRecord asid) 192 56 % 16 = 0 ∧
    Reach s [1, 2] [pa / 128, paC / 128] asid (fieldN (s.asRecord asid) 192 56) 16 paC keyC
  index : prod = memNumber s paC 8 ∧ cons = memNumber s (paC + 8) 8
  room  : (prod + 2 ^ 64 - cons) % 2 ^ 64 + 1 ≤ 2 ^ fieldN (s.asRecord asid) 184 8
  slot  : fieldN (s.asRecord asid) 128 56 % 64 = 0 ∧
    Reach s [2] [pa / 128, paC / 128] asid (fieldN (s.asRecord asid) 128 56 + prod % 2 ^ fieldN (s.asRecord asid) 184 8 * 64) 64 pa key
  apart : pa / 128 ≠ paC / 128
/-- The state after the record is written: it stands in its slot with the low 32 bits of its index, the producer index is one higher, and the
run waits no more. -/
structure RingWritten (s : State) (w : Nat × List (BitVec 512)) (rec_ : BitVec 512) (prod pa paC : Nat) (t : State) : Prop where
  rest   : t = { s with mem := t.mem, memKeys := t.memKeys, badWords := t.badWords, ringWaits := s.ringWaits.erase w }
  memory : ∀ a, t.memByte a =
    if paC ≤ a ∧ a < paC + 8 then BitVec.ofNat 8 ((prod + 1) / 256 ^ (a - paC))
    else if pa ≤ a ∧ a < pa + 64 then BitVec.ofNat 8 ((rec_.toNat + prod % 2 ^ 32 * 2 ^ 64) / 256 ^ (a - pa))
    else s.memByte a

/-- The event ring's base (R313). -/
def eventBase (s : State) : Nat := s.boot.toNat / 2 ^ 512 % 2 ^ 64
/-- The oldest held event record finds room in the ring, whose indices and slot stand at home, and none was dropped. -/
structure EventRoom (s : State) (r : BitVec 512) (rest : List (BitVec 512)) (prod cons : Nat) : Prop where
  head  : s.evBacklog = r :: rest ∧ s.evDropped = 0
  base  : eventBase s % 2 ^ 16 = 0
  home  : AtHome s (eventBase s / 128) ∧ AtHome s ((eventBase s + 64 + prod % 4096 * 64) / 128)
  index : prod = memNumber s (eventBase s) 8 ∧ cons = memNumber s (eventBase s + 8) 8
  room  : (prod + 2 ^ 64 - cons) % 2 ^ 64 < 4096
/-- The state after it is written: the record in its slot, the producer index one higher. -/
structure EventWritten (s : State) (r : BitVec 512) (rest : List (BitVec 512)) (prod : Nat) (t : State) : Prop where
  rest   : t = { s with mem := t.mem, memKeys := t.memKeys, badWords := t.badWords, evBacklog := rest }
  memory : ∀ a, t.memByte a =
    if eventBase s ≤ a ∧ a < eventBase s + 8 then BitVec.ofNat 8 ((prod + 1) / 256 ^ (a - eventBase s))
    else if eventBase s + 64 + prod % 4096 * 64 ≤ a ∧ a < eventBase s + 64 + prod % 4096 * 64 + 64 then
      BitVec.ofNat 8 (r.toNat / 256 ^ (a - (eventBase s + 64 + prod % 4096 * 64)))
    else s.memByte a

/-- The steps of peers, packets and rings that carry operands: when they have their effect, and what it is. -/
def netRule (s : State) : Instr → Option Event
  | .peerAccessRequest peer req => some { when := peer < 4096 ∧ PeerMayAsk s req, next := PeerDone s req }
  | .peerAccessTimeout f seq => some
      { when := ∃ p o a rest x line, o.seq = seq ∧ MayTimeOut s f p o a rest x line
        next := fun t => ∀ p o a rest x line, o.seq = seq → MayTimeOut s f p o a rest x line →
          Entered s f p.frag x (timedOut s f p o a) (BitVec.ofNat 18 (fieldN (s.floe f).uivec 44 18)) false false t }
  | .networkPacketPlacement asid n off idem bs => some
      { when := asid < 2 ^ 16 ∧ ∃ w pa key, CanPlace s n off idem bs w pa key
        next := fun t => ∀ w pa key, CanPlace s n off idem bs w pa key → PacketPlaced s n off bs w pa t }
  | .packetRetransmission f seq => some
      { when := ∃ before after p, OldestPacket s f seq before after p
        next := fun t => ∀ before after p, OldestPacket s f seq before after p → t = { s with packets := before ++ after ++ [p] } }
  | .faultRingWaitRelease asid => some
      { when := ∃ w rec_ prod cons pa paC key keyC, RingRoom s asid w rec_ prod cons pa paC key keyC
        next := fun t => ∀ w rec_ prod cons pa paC key keyC, RingRoom s asid w rec_ prod cons pa paC key keyC →
          RingWritten s w rec_ prod pa paC t }
  | _ => none

end Sys2Proof.Claims
end

