-- ==== Sys2Proof/Claims/Services.lean ====
section
/-!
DEFINITION. What the rules of the manual say of the management path: who calls, what each service does, and how it replies (R199, R203, R207,
R211, R251, R269 to R274, R280, R291 to R294, R298, R299, R302 to R304, R310, R312, R315).
-/
namespace Sys2Proof.Claims
open Sys2Proof.Machine

/-! ## Calls by the management queue (R304) -/

/-- The management record at the head of its queue: service number, address space, and the fields that must be zero. -/
structure Calls (s : State) (r : BitVec 1024) (rest : List (BitVec 1024)) (num asid : Nat) : Prop where
  head   : s.mgmt = r :: rest
  number : fieldN r 0 8 = num
  asid   : fieldN r 16 16 = asid
  zero   : fieldN r 8 8 = 0 ∧ fieldN r 32 32 = 0 ∧ fieldN r 384 640 = 0
/-- Argument i of a management record. -/
def argOf (r : BitVec 1024) (i : Nat) : Nat := fieldN r (64 + 64 * i) 64
/-- The 24 bytes at a record's completion counter can be written for its address space. -/
structure CanReply (s : State) (r : BitVec 1024) (pa key : Nat) : Prop where
  aligned : fieldN r 320 64 % 8 = 0 ∧ fieldN r 320 64 % 128 + 24 ≤ 128
  counter : Reach s [1, 2] [pa / 128] (fieldN r 16 16) (fieldN r 320 64) 8 pa key
  status  : Reach s [2] [pa / 128] (fieldN r 16 16) (fieldN r 320 64 + 8) 8 (pa + 8) key
  result  : Reach s [2] [pa / 128] (fieldN r 16 16) (fieldN r 320 64 + 16) 8 (pa + 16) key
/-- The state after a reply, from the state u that the service has left: the record has gone from its queue, the counter is one higher, the status
word follows it, then the result. -/
structure Replied (u : State) (rest : List (BitVec 1024)) (pa status : Nat) (result : W64) (t : State) : Prop where
  rest_  : t = { u with mgmt := rest, mem := t.mem, memKeys := t.memKeys, badWords := t.badWords }
  memory : ∀ a, t.memByte a =
    if pa ≤ a ∧ a < pa + 8 then BitVec.ofNat 8 ((memNumber u pa 8 + 1) / 256 ^ (a - pa))
    else if pa + 8 ≤ a ∧ a < pa + 16 then BitVec.ofNat 8 ((status % 256 + result.toNat % 2 ^ 32 * 2 ^ 32) / 256 ^ (a - (pa + 8)))
    else if pa + 16 ≤ a ∧ a < pa + 24 then BitVec.ofNat 8 (result.toNat / 256 ^ (a - (pa + 16)))
    else u.memByte a

/-- What a service comes to: its number, the conditions of a status and a result, and the state it leaves before the reply. -/
structure Service where
  num    : Nat
  when   : Prop := True
  status : Nat := 0
  result : W64 := 0
  leaves : State → Prop

/-- A service that has no effect but its reply. -/
def onlyReply (s : State) (num : Nat) (when : Prop) (status : Nat) : Service :=
  { num := num, when := when, status := status, leaves := fun u => u = s }

/-! ## What services do -/

/-- A floe is parked at a load or store of one lane, untranslated, whose address the walk now maps with the right it needs to plain memory of
tier 0 or 1, so that its instruction retires: an undivided fragment, no other cause kept, and no queue to pop (R201, R203). -/
structure Retries (s : State) (f : Nat) (p : Parked) (g : Fragment) (o : MemOp) (a : LaneAcc) (x : Xlat) : Prop where
  parked : (s.floe f).parked = some p ∧ p.frag = g.id ∧ p.hard = none ∧ p.pops = [] ∧ p.op.lanes ≠ []
  whole  : (s.floe f).frags = [g] ∧ g.stack = [] ∧ g.active &&& (s.floe f).live = g.active ∧ g.active ≠ 0 ∧ (s.floe f).recs = []
  op     : (s.floe f).ops = [o] ∧ o.seq = p.op.seq ∧ o.kind ∈ [.load, .store] ∧ o.lanes = [a] ∧ a.place = .absent
  plain  : (o.size ≠ 0 → a.va.toNat % o.size = 0) ∧ a.va.toNat < 2 ^ 56 ∧ inAperture a.va.toNat = false ∧
    (s.core (floeCore f)).held (s.asidOf (blockOf f)) a.va.toNat = none
  maps   : ∃ range, s.walk (s.asidOf (blockOf f)) a.va.toNat = .ok x range
  rights : (o.kind = .load → bitN x.attr 1 = true) ∧ (o.kind = .store → bitN x.attr 2 = true) ∧ fieldN x.attr 48 4 = 0 ∧
    fieldN x.attr 16 2 ≤ 1 ∧ paTier (x.pa + (a.va.toNat - x.va)) ≤ 1
/-- A floe has nothing parked, or is parked at an instruction that repeats whole. -/
def repeats (s : State) (f : Nat) : Prop := ∀ p, (s.floe f).parked = some p → p.op.lanes = []
/-- What the end of an absence comes to in a floe (R203): its engine commands translate again; a parked floe is ready, with its instruction to
run again whole, or with its one lane at its place and its fragment behind the instruction. -/
structure Goes (s : State) (f : Nat) (fl y : Floe) : Prop where
  free    : fl.parked = none → y = { fl with cmds := y.cmds }
  again   : fl.parked ≠ none → repeats s f → y = { fl with cmds := y.cmds, parked := none, st := .ready, readyAt := s.now }
  retries : ∀ p g o a x, Retries s f p g o a x → y = { fl with
    cmds := y.cmds, parked := none, st := .ready, readyAt := s.now
    frags := [{ g with pc := g.pc + 4, wait := .none, rb := none, left := none }]
    ops := [{ o with lanes := [{ a with place := .phys (x.pa + (a.va.toNat - x.va)) (fieldN x.attr 52 12) (bitN x.attr 46) }] }] }
  cmds    : y.cmds = fl.cmds.map (fun c => { c with pausedAt := none })
/-- Each floe of an address space can go on; at most one is parked at lanes that have to translate. -/
def MayResolve (s : State) (asid : Nat) : Prop :=
  (∀ f, s.asidOf (blockOf f) = asid → repeats s f ∨ ∃ p g o a x, Retries s f p g o a x) ∧
  ∀ f h, s.asidOf (blockOf f) = asid → s.asidOf (blockOf h) = asid → ¬ repeats s f → ¬ repeats s h → f = h

/-- The engines, sequencers and parked floes of an address space translate again (R203). -/
structure Resolved (s : State) (asid : Nat) (u : State) : Prop where
  rest    : u = { s with blocks := u.blocks, cores := u.cores, floes := u.floes }
  blocks  : ∀ b, u.block b = { s.block b with streams := (u.block b).streams }
  streams : ∀ b x, s.blocks.get? b = some x → s.asidOf b = asid → ∀ k y, x.streams.get? k = some y →
    (u.block b).streams.get? k = some { y with paused := none }
  floes   : ∀ f fl, s.floes.get? f = some fl → s.asidOf (blockOf f) = asid → ∃ y, u.floes.get? f = some y ∧ Goes s f fl y
  others  : ∀ f, s.asidOf (blockOf f) ≠ asid → u.floe f = s.floe f
  held    : ∀ c x, x ∈ (u.core c).pages ++ (u.core c).ranges → x ∈ (s.core c).pages ++ (s.core c).ranges ∨ x.asid = asid
  cores   : ∀ c, u.core c = { s.core c with run := (u.core c).run, staging := (u.core c).staging
                                            pages := (u.core c).pages, ranges := (u.core c).ranges } ∧
    ∀ r, (s.core c).run = some r → s.asidOf r.blk = asid → s.cores.get? c ≠ none → (u.core c).run = some { r with paused := false }
/-- A launch of an address space. -/
def ownLaunch (s : State) (asid l : Nat) (x : Launch) : Prop := s.launches.get? l = some x ∧ dfield x.desc 400 16 = asid
/-- The resident blocks of a launch that a request names (R269): from a first block, `count` of them, or all from there on where it is 0. -/
def namedBlock (s : State) (l first count b : Nat) : Prop :=
  ∃ x, s.blocks.get? b = some x ∧ x.launch = l ∧ first ≤ x.id ∧ (count = 0 ∨ x.id < first + count) ∧ (s.core (coreOf b)).haltReq = false
/-- A pre-emption that the save area can hold, of named blocks that read no operand by multicast. -/
structure CanPreempt (s : State) (asid l first count : Nat) (x : Launch) : Prop where
  own    : ownLaunch s asid l x
  area   : s.boot.toNat / 2 ^ 320 % 2 ^ 64 ≠ 0
  some_  : ∃ b, namedBlock s l first count b
  plain  : ∀ b, namedBlock s l first count b → s.multicasts b = false
  room   : s.saveUsed + ((s.reach l first count).map (fun c => s.coreBytes l c)).sum ≤ s.boot.toNat / 2 ^ 320 % 2 ^ 64
/-- Every core of a named block has its halt request; no other core has changed. -/
structure HaltAsked (s : State) (l first count : Nat) (u : State) : Prop where
  rest  : u = { s with cores := u.cores, preempts := u.preempts }
  cores : ∀ c, u.core c = { s.core c with haltReq := (u.core c).haltReq } ∧
    ((u.core c).haltReq = true ↔ (s.core c).haltReq = true ∨ ∃ b, namedBlock s l first count b ∧ coreOf b = c)
/-- The lowest log number that is free, 4096 where none is (R207; that it is the lowest is the model's choice, log entry 68). -/
def freeLog (s : State) : Nat := ((List.range 4096).find? (fun k => (s.logs.get? k).isNone)).getD 4096
/-- A range of VAs mapped for reading, under one key, to one run of tier 2 of which no agent holds a line (R205, R207, R215). -/
structure OneExtent (s : State) (asid va n pa key : Nat) : Prop where
  space : 0 < n ∧ n ≤ 2 ^ 44 ∧ va < 2 ^ 56 ∧ paTier pa = 2
  bytes : ∀ i < n, va + i < 2 ^ 56 ∧ inAperture (va + i) = false ∧ ∃ x r, s.walk asid (va + i) = .ok x r ∧ bitN x.attr 1 = true ∧
    fieldN x.attr 48 4 = 0 ∧ fieldN x.attr 16 2 = 2 ∧ fieldN x.attr 52 12 = key ∧ pa + i = x.pa + (va + i - x.va)
  cold  : ∀ d < 13, ∀ ln x, (s.die d).stack.get? ln = some x → ln * 128 + 128 ≤ pa ∨ pa + n ≤ ln * 128
/-- An append of the host's (R211, R304, R307): a log of the address space whose records are all committed, room in it and in the spare of
every stack that the record touches, and n bytes that can be read. -/
structure HostAppends (s : State) (asid k va n value : Nat) (g : Log) : Prop where
  log   : s.logs.get? k = some g ∧ g.asid = asid ∧ g.stager = none ∧ g.commit ≤ g.nextOff ∧ ∀ r ∈ g.recs, r.off < g.commit
  size  : 16 ≤ n ∧ n ≤ 262144 ∧ n % 16 = 0 ∧ g.nextOff + 32 + n ≤ g.len
  spare : ∀ i < 8, i * 2 ^ 40 < (g.pa + g.nextOff) % 2 ^ 44 + (32 + n) → (g.pa + g.nextOff) % 2 ^ 44 < (i + 1) * 2 ^ 40 →
    s.spare.getD i 0 < 2 ^ 37
  reach : ∃ pa key, Reach s [1] [] asid va n pa key ∧ value = memNumber s pa n
/-- The record stands last in its log, with tag 0 and launch 0, durable-form, and the log's commit tail is behind it. -/
structure HostAppended (s : State) (asid k n value : Nat) (g : Log) (u : State) : Prop where
  rest : u = { s with logs := u.logs, dies := u.dies, mem := u.mem, memKeys := u.memKeys, badWords := u.badWords, dir := u.dir
                      floes := u.floes }
  logs : ∀ j, j ≠ k → u.logs.get? j = s.logs.get? j
  log  : ∃ r, u.logs.get? k = some { g with
      recs := g.recs ++ [r], nextSeq := g.nextSeq + 1, nextOff := g.nextOff + 32 + n, commit := g.nextOff + 32 + n
      commitSeq := g.nextSeq + 1, stager := none } ∧
    r.seq = g.nextSeq ∧ r.off = g.nextOff ∧ r.stager = none ∧ r.flash = false ∧ r.bad = [] ∧ r.bytes.length = 32 + n ∧
    ofBytes (r.bytes.take 28) = n + g.nextSeq % 2 ^ 64 * 2 ^ 64 + 2 ^ 128 + asid % 2 ^ 16 * 2 ^ 144 ∧ ofBytes (r.bytes.drop 32) = value ∧
    ∀ i < 32 + n, u.memByte (g.pa + g.nextOff + i) = r.bytes.getD i 0
/-- A descriptor that service 12 can read. -/
def readable (s : State) (asid va value : Nat) : Prop :=
  va % 128 = 0 ∧ ∃ pa key, Reach s [1] [] asid va 128 pa key ∧ value = memNumber s pa 128
/-- A queue with other contents. -/
def withQueue (s : State) (q : Nat) (x : SubQueue) : State := { s with subq := s.subq.put q x }
def queueNo (s : State) (q : Nat) : SubQueue := s.subq.getD q SubQueue.reset
/-- The state after a teardown with no launch left: mailboxes unbound, queues of the address space going on, its logs and windows closed. -/
structure TornDown (s : State) (asid : Nat) (u : State) : Prop where
  rest  : u = { s with bindings := s.bindings.filter (fun b => b.asid ≠ asid), subq := u.subq
                       logs := s.logs.filter (fun e => e.2.asid ≠ asid), windows := s.windows.filter (fun e => e.2.asid ≠ asid) }
  queues : ∀ q x, s.subq.get? q = some x → u.subq.get? q = some (if x.asid = some asid then { x with suspended := false } else x)
/-- The state of a teardown that waits for the address space's launches to end (R304): its mailboxes are unbound, its queues suspended
(R299), each of its launches that was not already ending ends with status 3 and cause 0x10; the caller has no reply yet. -/
structure TearsDown (s : State) (asid : Nat) (t : State) : Prop where
  rest     : t = { s with bindings := s.bindings.filter (fun b => b.asid ≠ asid), subq := t.subq, launches := t.launches }
  queues   : ∀ q x, s.subq.get? q = some x → t.subq.get? q = some (if x.asid = some asid then { x with suspended := true } else x)
  launches : ∀ l x, s.launches.get? l = some x → t.launches.get? l =
    some (if dfield x.desc 400 16 = asid ∧ x.phase ≠ .halting then
      { x with phase := .halting, status := 3, cause := 0x10, causeBlk := none } else x)
/-- The port, drive and queue pair of services 16 and 17, in range. -/
def pairOk (r : BitVec 1024) : Prop := argOf r 0 % 2 ^ 8 ≤ 1 ∧ argOf r 0 < 2 ^ 24 ∧ 1 ≤ argOf r 1 ∧ argOf r 1 ≤ 65535
/-- The bindings but that of the pair that a record names. -/
def otherPairs (s : State) (r : BitVec 1024) : List NvmeBind :=
  s.nvme.filter (fun b => !(b.port = argOf r 0 % 2 ^ 8 && b.drive = argOf r 0 / 2 ^ 8 % 2 ^ 16 && b.qp = argOf r 1))
/-- All ones: the basic value of an expert control (R304). -/
def restores (r : BitVec 1024) : Prop := argOf r 1 = 2 ^ 64 - 1
/-- Expert controls are accepted (R313). -/
def expertOn (s : State) : Prop := s.boot.getLsbD 1 = true
/-- An offset in mV as a signed number. -/
def offsetOf (r : BitVec 1024) : Int := (BitVec.ofNat 64 (argOf r 2)).toInt

/-- The island of control 3 with its operating point fixed at the offset. -/
def held (s : State) (r : BitVec 1024) : Island :=
  { s.islands.getD (argOf r 1) Island.reset with fixed := some (offsetOf r), offset := offsetOf r }
/-- The state after control 3 (R292, R304): with all ones every island that was fixed is at the offset 0 and is planned again; else the island's
operating point is fixed, and a re-planning of it that waits is given up. -/
structure PointSet (s : State) (r : BitVec 1024) (u : State) : Prop where
  rest   : u = { s with islands := u.islands, replans := u.replans }
  fixes  : ¬ restores r → u.islands = s.islands.put (argOf r 1) (held s r) ∧ u.replans = s.replans.filter (fun x => x ≠ argOf r 1)
  frees  : restores r → u.replans = s.replans ∧ ∀ k i, s.islands.get? k = some i →
    u.islands.get? k = some (if i.fixed = none then i else { i with fixed := none, offset := 0 })

/-- The services of the management path on a record of an address space: each where it does its work (R304, R315). -/
def serviceRule (s : State) (r : BitVec 1024) (asid : Nat) : Instr → Option Service
  | .serviceEcho .mgmt => some (onlyReply s 0 True 0)
  | .faultResolve .mgmt => some { num := 2, when := MayResolve s asid, leaves := Resolved s asid }
  | .preempt .mgmt => some
      { num := 3, when := ∃ x, CanPreempt s asid (argOf r 0) (argOf r 1) (argOf r 2) x
        leaves := HaltAsked s (argOf r 0) (argOf r 1) (argOf r 2) }
  | .restore .mgmt => some
      { num := 4
        when := (∃ x, ownLaunch s asid (argOf r 0) x) ∧ (∃ i ∈ s.images, i.launch = argOf r 0) ∧ argOf r 0 ∉ s.restores
        leaves := fun u => u = { s with restores := s.restores ++ [argOf r 0] } }
  | .openLog .mgmt => some
      { num := 5, when := freeLog s < 4096 ∧ ∃ pa key, OneExtent s asid (argOf r 0) (argOf r 1) pa key
        result := BitVec.ofNat 64 (freeLog s)
        leaves := fun u => ∀ pa key, OneExtent s asid (argOf r 0) (argOf r 1) pa key →
          u = { s with logs := s.logs.put (freeLog s) ⟨asid, pa, argOf r 1, 0, 0, 0, 0, 0, none, [], key⟩ } }
  | .closeLog .mgmt => some
      { num := 6, when := ∃ g, s.logs.get? (argOf r 0) = some g ∧ g.asid = asid
        leaves := fun u => u = { s with logs := s.logs.del (argOf r 0) } }
  | .driftControl .mgmt => some
      { num := 8, when := expertOn s ∧ argOf r 0 < 2 ^ 12 ∧ argOf r 0 % 4 ≠ 3
        leaves := fun u => u = { s with drift := BitVec.ofNat 32 (argOf r 0) } }
  | .openMailboxWindow .mgmt => some
      { num := 9
        when := argOf r 0 ≤ 4095 ∧ argOf r 1 % 64 = 0 ∧ argOf r 2 ≤ 1 ∧ s.windows.get? (argOf r 0) = none ∧
          ∃ pa key, Reach s [2] [] asid (argOf r 1) 64 pa key
        leaves := fun u => u = { s with
          windows := s.windows.put (argOf r 0) ⟨asid, argOf r 1, 64, argOf r 2 = 1, true, 0, 0, 0, 0, [], false, 0⟩ } }
  | .closeWindow .mgmt => some
      { num := 10, when := ∃ w, s.windows.get? (argOf r 0) = some w ∧ w.asid = asid
        leaves := fun u => u = { s with windows := s.windows.del (argOf r 0) } }
  | .remapDone .mgmt => some
      { num := 11, when := ∃ x ∈ s.retiring, x.src * 2 ^ 16 = argOf r 0 ∧ x.stage = 2
        leaves := fun u => u = { s with retiring := s.retiring.map (fun x =>
          if x.src * 2 ^ 16 = argOf r 0 ∧ x.stage = 2 then { x with stage := 3 } else x) } }
  | .submitLaunch .mgmt => some
      { num := 12
        when := argOf r 1 ≤ 1023 ∧ takes_ (queueNo s (argOf r 1)) ∧ ∃ value, readable s asid (argOf r 0) value
        result := ((queueNo s (argOf r 1)).seq + 1).setWidth 64
        leaves := fun u => ∀ value, readable s asid (argOf r 0) value → u = withQueue s (argOf r 1) { queueNo s (argOf r 1) with
          seq := (queueNo s (argOf r 1)).seq + 1, items := (queueNo s (argOf r 1)).items ++ [BitVec.ofNat 1024 value] } }
  | .asidTeardown .mgmt => some
      { num := 13, when := ∀ e ∈ s.launches, dfield e.2.desc 400 16 ≠ asid, leaves := TornDown s asid }
  | .bindQueue .mgmt => some
      { num := 14, when := argOf r 0 ≤ 1023 ∧ argOf r 1 = argOf r 0 / 32 + 1 ∧ 16 ≤ argOf r 2 ∧ argOf r 2 ≤ 4096
        leaves := fun u => u = withQueue s (argOf r 0) { queueNo s (argOf r 0) with
          asid := some asid, page := argOf r 1, depth := argOf r 2, seq := 0, suspended := false } }
  | .expertPowerCap .mgmt => some
      { num := 15
        when := expertOn s ∧ argOf r 0 = 0 ∧
          (restores r ∨ (2000 ≤ argOf r 1 ∧ argOf r 1 ≤ 3800 ∧ argOf r 1 % 50 = 0 ∧ argOf r 2 = 0))
        leaves := fun u => (restores r → u = { s with powerCap := 3800 }) ∧ (¬ restores r → u = { s with powerCap := argOf r 1 }) }
  | .expertReplanningPeriod .mgmt => some
      { num := 15
        when := expertOn s ∧ argOf r 0 = 1 ∧ (restores r ∨ (24 ≤ argOf r 1 ∧ argOf r 1 ≤ 2016 ∧ argOf r 2 = 0))
        leaves := fun u => (restores r → u = { s with replanH := 168 }) ∧ (¬ restores r → u = { s with replanH := argOf r 1 }) }
  | .expertEscalationThreshold .mgmt => some
      { num := 15
        when := expertOn s ∧ argOf r 0 = 2 ∧ (restores r ∨ (argOf r 1 ≤ 3 ∧ 1 ≤ argOf r 2 ∧ argOf r 2 ≤ 4))
        leaves := fun u => (restores r → u = { s with factors := [] }) ∧
          (¬ restores r → u = { s with factors := s.factors.put (argOf r 1) (argOf r 2) }) }
  | .expertIslandOperatingPoint .mgmt => some
      { num := 15
        when := expertOn s ∧ argOf r 0 = 3 ∧ (restores r ∨ (argOf r 1 ≤ 31 ∧ -25 ≤ offsetOf r ∧ offsetOf r ≤ 50))
        leaves := PointSet s r }
  | .bindNvmeQueuePair .mgmt => some
      { num := 16, when := pairOk r
        leaves := fun u => u = { s with
          nvme := otherPairs s r ++ [⟨argOf r 0 % 2 ^ 8, argOf r 0 / 2 ^ 8 % 2 ^ 16, argOf r 1, asid⟩] } }
  | .unbindNvmeQueuePair .mgmt => some
      { num := 17, when := pairOk r, leaves := fun u => u = { s with nvme := otherPairs s r } }
  | _ => none

/-! ## Services with more to say -/

/-- The state after an invalidation request (R199): no core holds a translation of its range, and the request stands with its counter. -/
structure Invalidating (s : State) (r : BitVec 1024) (rest : List (BitVec 1024)) (asid : Nat) (t : State) : Prop where
  rest_ : t = { s with mgmt := rest, cores := t.cores, invs := s.invs ++ [⟨asid, argOf r 0, argOf r 1, BitVec.ofNat 64 (fieldN r 320 64)⟩] }
  cores : ∀ c, t.core c = { s.core c with pages := (t.core c).pages, ranges := (t.core c).ranges }
  gone  : ∀ c x, x ∈ (t.core c).pages ++ (t.core c).ranges →
    x ∈ (s.core c).pages ++ (s.core c).ranges ∧
    ¬(x.asid = asid ∧ (argOf r 1 = 0 ∨ (x.va < argOf r 0 + argOf r 1 ∧ argOf r 0 < x.va + x.len)))
  kept  : ∀ c x, x ∈ (s.core c).pages → ¬(x.asid = asid ∧ (argOf r 1 = 0 ∨ (x.va < argOf r 0 + argOf r 1 ∧ argOf r 0 < x.va + x.len))) →
    x ∈ (t.core c).pages
/-- A pending invalidation whose address space has no access outstanding, no record read that waits for the firn, no engine command, and no
stream that stands within a frame and can go on (R199, R200). -/
structure CanComplete (s : State) (n : Nat) (i : InvReq) (pa key : Nat) : Prop where
  here    : s.invs[n]? = some i
  quiet   : ∀ e ∈ s.floes, s.asidOf (blockOf e.1) = i.asid → e.2.ops = [] ∧ e.2.cmds = [] ∧ ∀ p, e.2.parked = some p → p.held = []
  streams : ∀ e ∈ s.blocks, s.asidOf e.1 = i.asid → ∀ x ∈ e.2.streams,
    x.2.ended = true ∨ x.2.paused ≠ none ∨ x.2.held = [] ∨ x.2.atFrame = true ∨ s.streamRoom e.1 x.1 x.2 = false
  narrow  : i.asid < 2 ^ 16
  aligned : i.ctr.toNat % 8 = 0 ∧ i.ctr.toNat % 128 + 24 ≤ 128
  counter : Reach s [1, 2] [pa / 128] i.asid i.ctr.toNat 8 pa key
  status  : Reach s [2] [pa / 128] i.asid (i.ctr.toNat + 8) 8 (pa + 8) key
  result  : Reach s [2] [pa / 128] i.asid (i.ctr.toNat + 16) 8 (pa + 16) key
/-- The state after its completion: the request is gone, its counter one higher with status 0, no core holds a translation of its range, and
the streams of the address space translate afresh. -/
structure Completed (s : State) (n : Nat) (i : InvReq) (pa : Nat) (t : State) : Prop where
  reply : ∃ u, u = { s with cores := t.cores, blocks := t.blocks, invs := s.invs.eraseIdx n } ∧ Replied u s.mgmt pa 0 0 t
  fresh : ∀ b x, s.blocks.get? b = some x → ∃ y, t.blocks.get? b = some y ∧ y = { x with streams := y.streams } ∧
    ∀ k st, x.streams.get? k = some st → y.streams.get? k = some (if s.asidOf b = i.asid then { st with held := [] } else st)
  gone  : ∀ c x, x ∈ (t.core c).pages ++ (t.core c).ranges →
    ¬(x.asid = i.asid ∧ (i.len = 0 ∨ (x.va < i.va + i.len ∧ i.va < x.va + x.len)))

/-- A drive's transfer through a bound queue pair of a root port, to or from one line at home (R312). -/
structure DriveMay (s : State) (port drive qp va n : Nat) (right pa key : Nat) (b : NvmeBind) : Prop where
  root  : s.boot.toNat / 2 ^ 2 % 4 / 2 ^ port % 2 = 0
  bound : s.nvme.find? (fun x => x.port = port && x.drive = drive && x.qp = qp) = some b
  reach : Reach s [right] [] b.asid va n pa key

/-- What a drive's transfer does: a write its bytes, a read nothing. -/
inductive DriveDone (s : State) (port drive qp va : Nat) : DriveXfer → State → Prop where
  | read (n pa key : Nat) (b : NvmeBind) : DriveMay s port drive qp va n 1 pa key b → DriveDone s port drive qp va (.read n) s
  | write (bs : List Byte) (pa key : Nat) (b : NvmeBind) (t : State) : DriveMay s port drive qp va bs.length 2 pa key b → MemoryOnly s t →
      Written s pa bs.length (ofBytes bs) t → DriveDone s port drive qp va (.write bs) t
/-- A transfer that its binding and its address space allow. -/
inductive DriveMayMove (s : State) (port drive qp va : Nat) : DriveXfer → Prop where
  | read (n pa key : Nat) (b : NvmeBind) : DriveMay s port drive qp va n 1 pa key b → DriveMayMove s port drive qp va (.read n)
  | write (bs : List Byte) (pa key : Nat) (b : NvmeBind) : DriveMay s port drive qp va bs.length 2 pa key b →
      DriveMayMove s port drive qp va (.write bs)

/-- A user-mode hart calls a service in service mode, with no completion interrupt due (R301, R302). -/
structure HartCalls (s : State) (h num : Nat) : Prop where
  due  : s.hostUiDue h = false
  mode : s.boot.getLsbD 0 = true ∧ s.harts.get? h ≠ none ∧ (s.hart h).user = true
  num  : (s.hart h).x.getD 17 0 = BitVec.ofNat 64 num ∧ num < 256
/-- A hart after a reply: status in x10, result in x11, and the next instruction. -/
structure HartReplied (s : State) (h : Nat) (status : Nat) (result : W64) (t : State) : Prop where
  rest : t = { s with harts := t.harts }
  hart : t.hart h = { s.hart h with x := (t.hart h).x, pc := (s.hart h).pc + 4 }
  regs : ∀ r, (t.hart h).x.getD r 0 = if r = 10 then BitVec.ofNat 64 status else if r = 11 then result else (s.hart h).x.getD r 0
  others : ∀ g, g ≠ h → t.harts.get? g = s.harts.get? g
/-- The services marked K, with their numbers; the control of service 15 is its argument 0, and one above 3 has no step of its own. -/
inductive KernelOnly (c : Caller) (arg0 : Nat) : Nat → Instr → Prop
  | invalidate : KernelOnly c arg0 1 (.invalidationRequest c)
  | cap : arg0 = 0 ∨ 3 < arg0 → KernelOnly c arg0 15 (.expertPowerCap c)
  | period : arg0 = 1 → KernelOnly c arg0 15 (.expertReplanningPeriod c)
  | threshold : arg0 = 2 → KernelOnly c arg0 15 (.expertEscalationThreshold c)
  | point : arg0 = 3 → KernelOnly c arg0 15 (.expertIslandOperatingPoint c)
  | resolve : KernelOnly c arg0 2 (.faultResolve c)
  | preempt : KernelOnly c arg0 3 (.preempt c)
  | restore : KernelOnly c arg0 4 (.restore c)
  | drift : KernelOnly c arg0 8 (.driftControl c)
  | remap : KernelOnly c arg0 11 (.remapDone c)
  | teardown : KernelOnly c arg0 13 (.asidTeardown c)
  | queue : KernelOnly c arg0 14 (.bindQueue c)
  | bind : KernelOnly c arg0 16 (.bindNvmeQueuePair c)
  | unbind : KernelOnly c arg0 17 (.unbindNvmeQueuePair c)

end Sys2Proof.Claims
end

