-- ==== Sys2Proof/Claims/Turns.lean ====
section
/-!
DEFINITION. What the rules of the manual say of a turn: which instruction it runs, and which traps and faults an instruction takes
instead of its effect (R66, R80, R87, R90, R91, R92, R187, R188, R256, R261, R349, R388, R400).
-/
namespace Sys2Proof.Claims
open Sys2Proof.Machine

/-! ## Fetch and issue -/

/-- The state in which the first agent of the agenda takes its turn: time has passed, the physical errors that are due have struck (R276), and
the turn has left the agenda. -/
def awake (s : State) (ts : List Turn) : State := { s.passTime with agenda := ts }
/-- A booted package whose agenda begins with a turn. -/
def NextTurn (s : State) (t : Turn) (ts : List Turn) : Prop := s.bootBad = false ∧ s.booted = true ∧ s.agenda = t :: ts
/-- The halfwords at a code address of a core, `n` of them, landed and unpoisoned, in one slot (R80, R188). -/
structure Landed (k : Core) (pc n : Nat) : Prop where
  landed : ∀ j < n, k.landed (pc + 2 * j) = true
  clean  : ∀ j < n, k.badHalf (pc + 2 * j) = false
  inSlot : n = 2 → pc % 4096 ≠ 0xFFE
/-- Fragment `id` of floe f, awake, may issue: it waits for nothing, its floe is active and picks it, no active floe of its quadrant with an
older age stamp issues instead (R169), no reported cause and no interrupt comes first (R26, R268), and no fence window is open. -/
structure MayIssue (u : State) (f id : Nat) : Prop where
  boundary : AtBoundary u f id
  active   : (u.floe f).st = .active ∧ (u.floe f).pick = some id ∧ (u.frag f id).wait = .none
  oldest   : u.oldest f = true
  first    : u.dueReport f id = none ∧ u.interruptDue f id = false
  window   : (u.floe f).fence = none
/-- The state in which an instruction of a fragment runs: the cursor names it, and of its floe only the age stamp and the fragments' wait
counts and expiries have changed (R26, R169). -/
structure Issuing (u : State) (f id : Nat) (v : State) : Prop where
  rest  : v = { u with cur := v.cur, floes := v.floes }
  cur   : v.cur.floe = f ∧ v.cur.frag = id ∧ v.cur.core = floeCore f ∧ v.cur.hart = u.cur.hart ∧ v.cur.halt = u.cur.halt
  floes : ∀ g, g ≠ f → v.floes.get? g = u.floes.get? g
  floe  : v.floe f = { u.floe f with frags := (v.floe f).frags, expired := (v.floe f).expired, age := u.now }
  frags : ∀ j, (v.frag f j).pc = (u.frag f j).pc ∧ (v.frag f j).active = (u.frag f j).active ∧ (v.frag f j).stack = (u.frag f j).stack ∧
    (v.frag f j).wait = (u.frag f j).wait ∧ (v.frag f j).handler = (u.frag f j).handler

/-- A wait at an instruction that has not issued: an order, a release fence, want of room, an empty queue, or older operations hold it back
(R45). -/
def heldBackAt (t : State) (f id : Nat) : Prop :=
  (t.frag f id).wait = .room ∨ (t.frag f id).wait = .order ∨ (t.frag f id).wait = .rel ∨ (t.frag f id).wait = .pop ∨
    (t.frag f id).wait = .drainCounters
/-- The state w after a turn of a fragment of u whose instruction, held back from issuing, leaves t: the floe's age stamp, wait counts,
expiries and debts of a `YIELD` are those before the turn (R26, R169). -/
structure NotIssued (u : State) (f : Nat) (t w : State) : Prop where
  rest  : w = { t with floes := w.floes }
  floes : ∀ g, g ≠ f → w.floes.get? g = t.floes.get? g
  floe  : w.floe f = { t.floe f with
    age := (u.floe f).age, expired := (u.floe f).expired
    frags := (t.floe f).frags.map (fun g => { g with waitCount := (u.frag f g.id).waitCount, owes := (u.frag f g.id).owes }) }
/-- How a turn in u ends, with `a`, whose instruction answers o. -/
def Ends (u : State) (f id : Nat) (o a : Host.Outcome State Fault Refusal) : Prop :=
  (∀ t, o = .next t → heldBackAt t f id → ∃ w, a = .next w ∧ NotIssued u f t w) ∧ ((∀ t, o = .next t → ¬ heldBackAt t f id) → a = o)

/-- The words at a code address as the decoder reads them. -/
def wordsAt (k : Core) (pc : Nat) : List Nat := [k.halfword pc, k.halfword (pc + 2)]
/-- A 32-bit word at a code address. -/
def wordAt32 (k : Core) (pc : Nat) : Nat := k.halfword pc + 0x10000 * k.halfword (pc + 2)

/-- A sequencer's turn: its run goes on and stands before a word; the core holds a translation with execute permission of it and, as for a
floe's loads (R220, R239, R400), its own copy of the line, which has the word `w` there. -/
structure SeqMay (u : State) (c : Nat) (r : Run) (w : Nat) : Prop where
  run   : (u.core c).run = some r ∧ r.held = false ∧ r.paused = false ∧ r.standing = none ∧ (u.core c).haltReq = false
  floe  : floeCore r.floe = c ∧ blockOf r.floe = r.blk
  phase : (u.launchOf r.blk).phase = .running
  held  : CoreHolds u 3 r.floe r.pc.toNat 4 w

/-- The words that the sequencer reads (R89), and those that the host die's harts read (R299, R301). -/
def ofMatrix : Instr → Bool
  | .mma .. => true
  | .mzero .. => true
  | .mdrain .. => true
  | .mloop .. => true
  | .mbar .. => true
  | .mbarArrive .. => true
  | .mend .. => true
  | _ => false
def ofHost : Instr → Bool
  | .ksubmit .. => true
  | .kuiret => true
  | _ => false

/-! ## Traps and faults -/

/-- The state after an emulation trap of the issuing fragment (R92): cause 0x0B, the raw word, the reason in the low byte of ILLF0, and a
record that asks the return to pass the word where the reason is at most 11. -/
structure TrapTaken (s : State) (word reason : Nat) (x : Xlat) (t : State) : Prop where
  entered : Entered s s.cur.floe s.cur.frag x (trapped s word t.fl.illf0 t.fl.illf1 t.fl.illf2 t.fl.illf3)
    (BitVec.ofNat 18 (fieldN s.fl.uivec 44 18)) false (decide (reason ≤ 11)) t
  reason  : t.fl.illf0.toNat % 256 = reason
/-- The floe's registers after a precise fault (R256). -/
def faulted (s : State) (cause : BitVec 8) (addr : W64) (fl : Floe) : Floe := { fl with epc := s.fg.pc, fcause := cause, faddr := addr }
/-- The state after a precise fault of the issuing fragment. -/
def FaultTaken (s : State) (cause : BitVec 8) (addr : W64) (x : Xlat) (t : State) : Prop :=
  Entered s s.cur.floe s.cur.frag x (faulted s cause addr) (BitVec.ofNat 18 (fieldN s.fl.uivec 44 18)) false false t
/-- A cause of the issuing fragment enters the handler at once: no pre-emption has been requested, none with its instruction (R46), and no
live call record of another fragment is in the way (R262). -/
def TrapsNow (s : State) : Prop := s.cr.haltReq = false ∧ s.cur.halt = false ∧ (s.fl.recs = [] ∨ s.fg.handler = true)
/-- A cause of the issuing fragment stays pending: a pre-emption has been requested, before its instruction or with it (R46), or another
fragment's call record is live (R262). -/
def TrapWaits (s : State) : Prop :=
  s.cr.haltReq = true ∨ (s.cur.halt = true ∧ s.cur.core = floeCore s.cur.floe) ∨ (s.fl.recs ≠ [] ∧ s.fg.handler = false)
/-- The state once a cause of the issuing fragment is pending: the floe keeps it, the fragment stands at its instruction, and nothing else
has changed (R46, R268). -/
structure TrapPends (s : State) (cause : BitVec 8) (t : State) : Prop where
  own    : OnlyFloe s s.cur.floe t
  floe   : t.fl = { s.fl with due := t.fl.due, frags := t.fl.frags, st := t.fl.st, readyAt := t.fl.readyAt }
  due    : ∃ d, t.fl.due = s.fl.due ++ [d] ∧ d.frag = s.cur.frag ∧ d.cause = cause.toNat
  frag   : t.fg = { s.fg with wait := .trap, rb := none, left := none }
  others : ∀ j, j ≠ s.cur.frag → t.frag s.cur.floe j = s.frag s.cur.floe j
/-- The trap handler can be entered: nothing holds the cause back, trap-enable is set, and the next call record can be written. -/
def MayTrap (s : State) (x : Xlat) (line : StackLine) : Prop :=
  TrapsNow s ∧ s.fl.uivec.getLsbD 43 = true ∧ CanEnter s s.cur.floe s.cur.frag x line

/-- A group of registers that R66 refuses: one of them at or beyond N, or its first not aligned. -/
def refused (s : State) (g : VGroup) : Prop := s.blk.nregs < s.absReg g.n + g.count ∨ s.absReg g.n % g.align ≠ 0
/-- The branches with a relative target. -/
def relOffset : Instr → Option (BitVec 19)
  | .bra o => some o
  | .callRel o => some o
  | .brc o _ _ _ => some o
  | _ => none
/-- The jumps to a register target. -/
def regTarget (s : State) : Instr → Option W64
  | .brx a => some (s.S a.toNat)
  | .callReg a => some (s.S a.toNat)
  | .ret => some (s.S 63)
  | _ => none
/-- The cause of a bad target (R349): an odd one, one outside the code space, one that has not landed. -/
inductive BadTarget (s : State) (t : W64) : BitVec 8 → Prop where
  | odd : t.toNat % 2 = 1 → BadTarget s t 3
  | far : t.toNat % 2 = 0 → 2 ^ 18 ≤ t.toNat → BadTarget s t 2
  | absent : t.toNat % 2 = 0 → t.toNat < 2 ^ 18 → ¬ landedAt s t.toNat → BadTarget s t 0x0C

/-! ## What every state keeps, and what reset leaves -/

/-- A booted, started package has nothing in it: no launch, block, floe, core, line in a cache stack, or listed byte of memory. -/
def Bare (s : State) : Prop :=
  (∀ d, (s.die d).stack = []) ∧ s.floes = [] ∧ s.blocks = [] ∧ s.cores = [] ∧ s.launches = [] ∧ s.logs = [] ∧ s.windows = [] ∧ s.snapshots = [] ∧ s.migrations = [] ∧
  s.subq = [] ∧ s.mgmt = [] ∧ s.harts = [] ∧ s.mem = [] ∧ s.badWords = [] ∧ s.dir = [] ∧ s.packets = []

/-- Serial order of two stamps (R218). -/
def serialBefore (a b : BitVec 16) : Prop := 1 ≤ (b.toNat + 2 ^ 16 - a.toNat) % 2 ^ 16 ∧ (b.toNat + 2 ^ 16 - a.toNat) % 2 ^ 16 ≤ 2 ^ 15 - 1

end Sys2Proof.Claims
end

