-- ==== Sys2Proof/Safety.lean ====
section
/-!
DEFINITION. What counts as a safe run: steps that answer a next state, over states that keep what every state keeps.
-/
namespace Sys2Proof.Machine

/-- What every step keeps: memory in its canonical form. -/
def State.Inv (s : State) : Prop := Memory.wf s.mem = true

/-- A step from here goes on: no fault and no refusal. -/
def State.goesOn (s : State) : Prop := ∃ t, step s = .next t

/-- The states that steps reach from a state. -/
inductive Reaches : State → State → Prop where
  | refl (s : State) : Reaches s s
  | step {s t u : State} : Reaches s t → step t = .next u → Reaches s u

/-- A safe run from a state: wherever it leads, the next step goes on and the invariant holds. -/
def State.safe (s : State) : Prop := ∀ t, Reaches s t → t.goesOn ∧ t.Inv

end Sys2Proof.Machine
end

