-- ==== Sys2Proof/Certificates/Slice0/Obligations.lean ====
section
/-!
DEFINITION. The statements about the machine, for the provers. What their words mean stands under Sys2Proof/Claims.
-/
open Sys2Proof Sys2Proof.Machine Sys2Proof.Claims

/-- Right after reset nothing is resident, no line is cached in any core or die's stack, the package has not booted, and memory is in its
canonical form (R191, R313, R314). -/
def Obligations.ResetIsBare : Prop :=
  Bare State.reset ∧ State.reset.booted = false ∧ State.reset.bootBad = false ∧ State.reset.Inv

/-- Sums and products are rounded to nearest-even, conversions by mode with their overflow and special results; FSQRT is correctly rounded, FRCP within its bound (R111, R113, R115, R117, R121, R122, R126, R132, R133, R360, R361, R421). -/
def Obligations.ResultsAreRounded : Prop :=
  SumsAreNearest ∧ RoundRounds ∧ ConversionsRound ∧ RootsAndReciprocals

/-- Every step keeps memory in its canonical form (R191, R213, R222). -/
def Obligations.StepsKeepMemoryCanonical : Prop :=
  ∀ s t : State, s.Inv → step s = .next t → t.Inv

/-- Decoding the encoding of any well-formed floe instruction gives it back (R79, R81, R82, R85, R86, R90). -/
def Obligations.FloeWordsRoundTrip : Prop :=
  ∀ i : Instr, i.wf = true → 0 < i.halfwords → ofMatrix i = false → ofHost i = false → decode (encode i) = .ok (i, i.halfwords)

/-- Decoding the word of any well-formed matrix stream or host instruction gives it back (R89, R299, R301). -/
def Obligations.OtherWordsRoundTrip : Prop :=
  (∀ i : Instr, i.wf = true → ofMatrix i = true → decodeMatrix (encodeWord i) = some i) ∧
  ∀ i : Instr, ofHost i = true → decodeHost (encodeWord i) = some i

/-- A word that decodes is the encoding of what it decodes to (R79, R81, R85, R86, R89, R90). -/
def Obligations.EveryWordHasOneMeaning : Prop :=
  (∀ w i, w < 2 ^ 32 → w % 2 = 1 → decode32 w = .ok i → i.wf = true ∧ i.halfwords = 2 ∧ encodeWord i = w) ∧
  (∀ h i, h < 2 ^ 16 → h % 2 = 0 → decode16 h = .ok i → i.wf = true ∧ i.halfwords = 1 ∧ encodeWord i = h) ∧
  (∀ w i, w < 2 ^ 32 → decodeMatrix w = some i → i.wf = true ∧ i.halfwords = 2 ∧ encodeWord i = w) ∧
  ∀ w i, w < 2 ^ 32 → decodeHost w = some i → i.halfwords = 2 ∧ encodeWord i = w

/-- Words that the manual gives decode to the instructions that it gives them for (R299, R347, R352, R363, R386, R404, R407, R409, R410, R414,
R451, R455). -/
def Obligations.WordsOfTheManual : Prop :=
  decode32 0x58184083 = .ok (.iaddc 0 3 2 1) ∧ decode32 0x60184083 = .ok (.isubb 0 3 2 1) ∧
  decode32 0x4C01E787 = .ok (.popc 2 15 15) ∧ decode32 0x00004893 = .ok (.movi 1 0 17) ∧ decode32 0x002C6A13 = .ok (.movi 177 1 20) ∧
  decode32 0x48D16315 = .ok (.movh 0x12345 1 6) ∧ decode32 0x2800A211 = .ok (.unpk 0 5 4) ∧ decode32 0x0000004B = .ok .nop ∧
  decode16 0x9000 = .ok .nop16 ∧ decode32 0x14000023 = .ok .yield ∧ decode32 0x00040627 = .ok (.brc 0x20 0 1 4) ∧
  decode32 0x0C028029 = .ok (.callReg 20) ∧ decode32 0x18000029 = .ok .exit ∧ decodeMatrix 0xFFFFD067 = some (.mloop 0xFFFFD 0) ∧
  decodeMatrix 0x0000F463 = some (.mzero 15 8) ∧ decodeHost 0x00C5850B = some (.ksubmit 12 11 10)

/-- A step runs the instruction that the word at the program counter decodes to; one that is held back has not issued (model's: logs 1, 5, 8,
50). The agenda, the passing of time, the errors that strike, and what is put back for an instruction held back are the model's (R26, R80, R169,
R188, R268, R400, R299). -/
def Obligations.StepRunsTheDecodedWord : Prop :=
  (∀ (s : State) (ts : List Turn) (f id n : Nat) (i : Instr), NextTurn s (.issue f id) ts → MayIssue (awake s ts) f id →
    Landed ((awake s ts).core (floeCore f)) ((awake s ts).frag f id).pc.toNat n →
    decode (wordsAt ((awake s ts).core (floeCore f)) ((awake s ts).frag f id).pc.toNat) = .ok (i, n) →
    ∃ v, Issuing (awake s ts) f id v ∧ Ends (awake s ts) f id (exec i v) (step s)) ∧
  (∀ (s : State) (ts : List Turn) (c w : Nat) (r : Run) (i : Instr), NextTurn s (.sequencer c) ts → SeqMay (awake s ts) c r w →
    decodeMatrix w = some i → step s = exec i { awake s ts with cur := { (awake s ts).cur with core := c } }) ∧
  (∀ (s : State) (ts : List Turn) (h : Nat) (w : W32) (i : Instr), NextTurn s (.hart h w) ts → h < 64 → (awake s ts).hostUiDue h = false →
    decodeHost w.toNat = some i → step s = exec i { awake s ts with cur := { (awake s ts).cur with hart := h } }) ∧
  (∀ (s : State) (ts : List Turn) (i : Instr), NextTurn s (.event i) ts → i.halfwords = 0 → step s = exec i (awake s ts)) ∧
  ∀ (s : State) (ts : List Turn) (f id : Nat), NextTurn s (.issueHalt f id) ts → s.mgmt = [] → step s = step { s with agenda := .issue f id :: ts }

/-- A word that no rule lets decode takes the emulation trap with its reason (R85, R90, R91, R92, R93). -/
def Obligations.RejectedWordsTrap : Prop :=
  (∀ w, (w / 2 % 64 = 0 ∨ (0x26 ≤ w / 2 % 64 ∧ w / 2 % 64 ≤ 0x2F) ∨ 0x36 ≤ w / 2 % 64) → decode32 w = .error 2) ∧
  (∀ w, 0x30 ≤ w / 2 % 64 → w / 2 % 64 ≤ 0x35 → decode32 w = .error 3) ∧ decode16 0 = .error 0 ∧
  ∀ (s : State) (ts : List Turn) (f id r : Nat), NextTurn s (.issue f id) ts → MayIssue (awake s ts) f id →
    Landed ((awake s ts).core (floeCore f)) ((awake s ts).frag f id).pc.toNat 2 →
    ((awake s ts).core (floeCore f)).halfword ((awake s ts).frag f id).pc.toNat % 2 = 1 →
    decode32 (wordAt32 ((awake s ts).core (floeCore f)) ((awake s ts).frag f id).pc.toNat) = .error r →
    ∃ v, Issuing (awake s ts) f id v ∧ ∀ x line, MayTrap v x line → ∃ t, step s = .next t ∧
      TrapTaken v (wordAt32 ((awake s ts).core (floeCore f)) ((awake s ts).frag f id).pc.toNat) r x t

/-- Integer arithmetic: results, and what stays (R385, R397, R81, R66, R75, R76, R84). -/
def Obligations.IntegerResults : Prop :=
  ∀ (s : State) (i : Instr) (e : Effect), i.wf = true → intRule s i = some e → CanRun s e → Completes i s (After s e)

/-- IADDC and ISUBB: sum or difference in rd, carry or borrow in p6 of each active lane; class 2 is refused (R386). -/
def Obligations.CarryResults : Prop :=
  (∀ (s : State) (i : Instr) (e : Effect), i.wf = true → carryRule s i = some e → CanRun s e → Completes i s (After s e)) ∧
  (∀ b a d : BitVec 6, decode32 (encodeWord (.iaddc 2 b a d)) = .error 5 ∧ decode32 (encodeWord (.isubb 2 b a d)) = .error 5) ∧
  decode32 0x58184083 = .ok (.iaddc 0 3 2 1) ∧ decode32 0x60184083 = .ok (.isubb 0 3 2 1)

/-- Logic, shifts, bit counts, permutation, bit fields: results, and what stays (R334, R345, R348, R377, R411, R414, R416, R435,
R454, R81). -/
def Obligations.LogicResults : Prop :=
  ∀ (s : State) (i : Instr) (e : Effect), i.wf = true → logicRule s i = some e → CanRun s e → Completes i s (After s e)

/-- Moves, packs, selects and reads of special registers: results, and what stays (R406, R407, R410, R412, R422, R438, R451, R73,
R81). -/
def Obligations.MoveResults : Prop :=
  ∀ (s : State) (i : Instr) (e : Effect), i.wf = true → moveRule s i = some e → CanRun s e → Completes i s (After s e)

/-- Compares and predicate logic: the predicate written, and what stays (R371, R372, R373, R413, R70). -/
def Obligations.CompareResults : Prop :=
  ∀ (s : State) (i : Instr) (e : Effect), i.wf = true → compareRule s i = some e → CanRun s e → Completes i s (After s e)

/-- Floating-point sums, products, FMA, minimum, maximum: results, and what stays (R111, R112, R132, R365, R366, R367, R368, R81). -/
def Obligations.FloatResults : Prop :=
  ∀ (s : State) (i : Instr) (e : Effect), i.wf = true → fpRule s i = some e → CanRun s e → Completes i s (After s e)

/-- Special functions and FCLS: results, and what stays (R133, R134, R369, R370, R86). -/
def Obligations.SpecialFunctionResults : Prop :=
  ∀ (s : State) (i : Instr) (e : Effect), i.wf = true → specialRule s i = some e → CanRun s e → Completes i s (After s e)

/-- Conversions: results, the stochastic count, and what stays (R95, R114, R117, R123, R124, R360, R361, R421). -/
def Obligations.ConversionResults : Prop :=
  ∀ (s : State) (i : Instr) (e : Effect), i.wf = true → convertRule s i = some e → CanRun s e → Completes i s (After s e)

/-- Cross-lane operations: results, and what stays (R60, R389, R399, R430, R431, R433). -/
def Obligations.CrossLaneResults : Prop :=
  ∀ (s : State) (i : Instr) (e : Effect), i.wf = true → laneRule s i = some e → CanRun s e → Completes i s (After s e)

/-- An instruction that names a register at or beyond N, or a misaligned pair, takes the emulation trap with reason 9 (R66, R90,
R92). -/
def Obligations.RefusedRegistersTrap : Prop :=
  ∀ (s : State) (i : Instr) (e : Effect) (g : VGroup) (x : Xlat) (line : StackLine), i.wf = true →
    (intRule s i = some e ∨ carryRule s i = some e ∨ logicRule s i = some e ∨ compareRule s i = some e ∨ fpRule s i = some e ∨
      specialRule s i = some e ∨ convertRule s i = some e) →
    g ∈ e.srcs ++ e.dsts → refused s g → MayTrap s x line → Completes i s (TrapTaken s (encodeWord i) 9 x)

/-- BRA, BRX, both CALLs, JSEG and RET go to their targets and change nothing else but s63 (R87, R346, R349, R352, R388, R432). -/
def Obligations.JumpsGoToTheirTargets : Prop :=
  (∀ (s : State) (i : Instr) (m : Jump), i.wf = true → branchRule s i = some m → m.also → Completes i s (Moved s m)) ∧
  ∀ (s : State), goodTarget s (linkReg s) → Completes .ret s (Moved s (toReg s (linkReg s) id))

/-- BRC takes its lanes to the target, leaves them, or divides the fragment (R22, R347). -/
def Obligations.ConditionalBranches : Prop :=
  (∀ (s : State) (i : Instr) (taken : Bool) (m : Jump), i.wf = true → agreeRule s taken i = some m → m.also → Completes i s (Moved s m)) ∧
  ∀ (s : State) (o : BitVec 19) (h n : BitVec 1) (p : BitVec 3), Undivided s → inSlot s o → s.fl.width ≤ 128 →
    (∀ x ∈ s.fl.frags, x.id < s.fl.nextFrag) →
    BitVec.ofInt 18 (relative s o) ≠ behind s 4 → (∃ l ∈ s.lanes, takes s p n l) → (∃ l ∈ s.lanes, ¬ takes s p n l) →
    Completes (.brc o h n p) s (Divided s o p n)

/-- WRSR writes each special register as the manual gives it, UIMASK swaps the mask; RET, YIELD, WAIT, BAR.ARRIVE and BAR.WAIT with nothing to
wait for go on (R43, R65, R174, R263, R265, R343, R423, R432, R450, R455). -/
def Obligations.SpecialRegisterWrites : Prop :=
  ∀ (s : State) (i : Instr) (m : Jump), i.wf = true → plainRule s i = some m → m.also → Completes i s (Moved s m)

/-- A relative target outside the slot takes reason 8; a bad register target takes cause 0x03, 0x02 or 0x0C (R87, R349, R388, R432,
R256, R90). -/
def Obligations.BadTargetsTrap : Prop :=
  (∀ (s : State) (i : Instr) (o : BitVec 19) (x : Xlat) (line : StackLine), relOffset i = some o → ¬ inSlot s o → MayTrap s x line →
    Completes i s (TrapTaken s (encodeWord i) 8 x)) ∧
  (∀ (s : State) (i : Instr) (a : W64) (c : BitVec 8) (x : Xlat) (line : StackLine), regTarget s i = some a → BadTarget s a c →
    MayTrap s x line → Completes i s (FaultTaken s c a x)) ∧
  ∀ (s : State) (l : BitVec 1) (o : BitVec 11) (k : BitVec 6) (x : Xlat) (line : StackLine), ¬ landedAt s (segTarget k o) →
    MayTrap s x line → Completes (.jseg l o k) s (FaultTaken s 0x0C (BitVec.ofNat 64 (segTarget k o)) x)

/-- A load, store, line operation or join with translations held issues as one outstanding operation; memory and registers are as before
(model's: logs 14, 55). That the destination keeps its value till completion, and the nibble of an access without index, are the model's (R83,
R171, R172, R196, R232, R391, R392, R441, R442, R350, R246). -/
def Obligations.LoadsAndStoresIssue : Prop :=
  ∀ (s : State) (i : Instr) (a : Access) (place : LaneAcc → Place), i.wf = true → loadRule s i = some a → CanIssue s a place →
    Completes i s (Issues s a place)

/-- An ATOM or RED issues as one outstanding operation; memory and registers are as before, the registers till completion by the model's choice
(log 14) (R171, R230, R339, R340, R341, R427). -/
def Obligations.AtomicsIssue : Prop :=
  ∀ (s : State) (i : Instr) (a : Access) (place : LaneAcc → Place), i.wf = true → atomRule s i = some a → CanIssue s a place →
    Completes i s (Issues s a place)

/-- A floe's oldest store writes its lanes' bytes into one line, with a stamp later than every read; nothing else of memory changes
(R97, R218, R222, R323, R441). -/
def Obligations.StoresReachTheirBank : Prop :=
  ∀ (s : State) (f ln : Nat) (o : MemOp) (x : StackLine), OldestWrite s f o → o.kind = .store → o.cls = .stores → o.dest = .none →
    InLine o ln x.key → Owned s (dieOfCore (floeCore f)) ln x.key x → mayStamp s (floeCore f) (stampOf s (dieOfCore (floeCore f)) x o) →
    Completes (.stackWrite f) s (Stored s f o ln x)

/-- The oldest load whose lines the L1 holds returns their bytes; the oldest store that is performed leaves its class (R172, R220,
R391, R4). -/
def Obligations.OperationsComplete : Prop :=
  (∀ (s : State) (f r : Nat) (o : MemOp) (value : Nat → Nat), HitLoad s f o r value →
    Completes (.memoryOpCompletion f .loads) s (Loaded s f o r value)) ∧
  ∀ (s : State) (f : Nat) (o : MemOp), DoneStore s f o → Completes (.memoryOpCompletion f .stores) s (StoreGone s f o)

/-- An atomic or reduction leaves its result in its location and, for an atomic, the old value in its registers (R218, R222, R228,
R339). -/
def Obligations.AtomicsChangeTheirLocation : Prop :=
  ∀ (s : State) (f pa old new : Nat) (o : MemOp) (a : LaneAcc) (x : StackLine) (op : AtomOp) (r : Option Nat),
    OneAtomic s f o a pa x op old new r → Completes (.stackWrite f) s (Changed s f o a pa x old new r)

/-- LDS and LDFE read the scratchpad; LDFE.CLR empties the granules it read (R64, R77, R78, R391, R393, R394, R395). -/
def Obligations.ScratchpadLoads : Prop :=
  (∀ (s : State) (i : Instr) (e : Effect), i.wf = true → scratchLoadRule s i = some e → CanRun s e → Completes i s (After s e)) ∧
  ∀ (s : State) (clr : Bool) (z : BitVec 3) (m b d : BitVec 6), (Instr.ldfeClr z m b d).wf = true → CanRun s (scratchLoad s z 0 m b d) →
    s.portsOf (scratchLoad s z 0 m b d).dsts = [] → mayTake s clr z m b →
    Completes (if clr then .ldfeClr z m b d else .ldfeKeep z m b d) s (Taken s clr z m b d)

/-- STS and STFE write the scratchpad; STFE fills the granules it writes (R64, R77, R78, R97, R443, R444, R447, R277). -/
def Obligations.ScratchpadStores : Prop :=
  ∀ (s : State) (i : Instr) (a : ScratchStore), i.wf = true → scratchStoreRule s i = some a → CanRun s { srcs := a.srcs, also := a.also } →
    Completes i s (ScratchStored s a)

/-- A fence whose older operations are done ticks logical time as the horizon allows; with some left an acquire or full fence opens its window
(R217, R218, R236, R237, R238, R375). -/
def Obligations.FencesOrderAndTick : Prop :=
  (∀ (s : State) (i : Instr) (set : Floe → Floe), i.wf = true → fenceRule s i = some set → s.fl.fence = none →
    (∀ o ∈ s.fl.ops, o.cls = .loads ∨ (∀ x, i ≠ .fenceAcq x) → ¬ undone o) → mayTick s (floeCore s.cur.floe) →
    Completes i s (Ticked s s.cur.floe s.cur.frag set (some (behind s 4)))) ∧
  (∀ (s : State) (x : BitVec 3), s.fl.fence = none → (∃ o ∈ s.fl.ops, o.seq < s.fl.opSeq ∧ undone o) ∨ ¬ mayTick s (floeCore s.cur.floe) →
    Completes (.fenceFull x) s (FenceOpens s true x) ∧
    Completes (.fenceRel x) s (Moved s { target := behind s 4, set := fun fl => { fl with rels := fl.rels ++ [fl.opSeq] } })) ∧
  (∀ (s : State) (x : BitVec 3), s.fl.fence = none →
    (∃ o ∈ s.fl.ops, o.cls = .loads ∧ o.seq < s.fl.opSeq ∧ undone o) ∨ ¬ mayTick s (floeCore s.cur.floe) →
    Completes (.fenceAcq x) s (FenceOpens s false x)) ∧
  ∀ (s : State) (f : Nat) (w : Fence), FenceReady s f w → mayTick s (floeCore f) → Completes (.fenceCompletion f) s
    (Ticked s f 0 (fun fl => { (if 3 ≤ w.scope then withFloor s f id fl else fl) with fence := none }) none)

/-- LLDT returns cells that pass, LJOIN.STRICT raises a cell, PREF with nothing to do does nothing (R236, R241, R244, R247, R248,
R250, R415). -/
def Obligations.LatticeReadsAndJoins : Prop :=
  (∀ (s : State) (z : BitVec 1) (m b d : BitVec 6) (cell : Nat → Nat × Replica), CanRead s z m b d cell → (∀ l ∈ s.lanes, passes s z d cell l) →
    mayTick s (floeCore s.cur.floe) → Completes (.lldt z m b d) s (CellsRead s z m d cell false true)) ∧
  (∀ (s : State) (z : BitVec 1) (m b d : BitVec 6) (l pa : Nat) (r : Replica), CanJoin s z m b d l pa r →
    Completes (.ljoinStrict z m b d) s (Joined s z d l pa r)) ∧
  ∀ (s : State) (m b : BitVec 6), CanRun s { srcs := index m } → (∀ l ∈ s.lanes, prefetchIdle s (address s 0 m b l).toNat) →
    Completes (.pref m b) s (Prefetched s m)

/-- LLDT.POLL reads each lane's cell at once and sets p6 to whether it passes (R249). -/
def Obligations.ThresholdPolls : Prop :=
  ∀ (s : State) (z : BitVec 1) (m b d : BitVec 6) (cell : Nat → Nat × Replica) (all : Bool), CanRead s z m b d cell →
    (all = true ↔ ∀ l ∈ s.lanes, passes s z d cell l) → (all = true → mayTick s (floeCore s.cur.floe)) →
    Completes (.lldtPoll z m b d) s (CellsRead s z m d cell true all)

/-- QCFG sets a queue and empties it, STRM starts a stream on it, and a delivery adds one entry to each thread (R74, R185, R186,
R418, R445). -/
def Obligations.QueuesAndStreams : Prop :=
  (∀ (s : State) (i : Instr) (q : Nat) (c : QueueCfg), i.wf = true → queueRule s i = some (q, c) → CanSetQueue s q c →
    Completes i s (QueueSet s q c)) ∧
  (∀ (s : State) (g : BitVec 4) (t c q : BitVec 6) (x : BitVec 512), (Instr.strm g t c q).wf = true → CanStream s t q x →
    Completes (.strm g t c q) s (Streaming s g t c x)) ∧
  ∀ (s : State) (b k f : Nat) (st : Stream) (value : Nat → Nat), CanDeliver s b k f st value →
    Completes (.streamEntryDelivery b k) s (Delivered s b k f st value)

/-- An engine command issues with its operands captured; nothing moves yet (R171, R177, R187, R285, R336, R338, R355, R358, R381,
R437, R311). -/
def Obligations.EngineCommandsIssue : Prop :=
  ∀ (s : State) (i : Instr) (m : Command), i.wf = true → commandRule s i = some m → mayIssue s m → Completes i s (Enqueued s m)

/-- Engines copy an element, fetch a code segment, accept a record and make one durable (model's: logs 15, 26, 53). The units of a copy, its
granule, and the durable tail are the model's (R77, R180, R181, R187, R208, R209, R210, R211, R355). -/
def Obligations.EnginesMove : Prop :=
  (∀ (s : State) (f src dst n : Nat) (c : EngCmd) (r : BitVec 512), OneElement s f c r src dst n →
    Completes (.engineStackWrite f c.seq) s (Moved1 s f c r src dst n) ∧ Completes (.engineFrameBoundary f c.seq) s (Moved1 s f c r src dst n)) ∧
  (∀ (s : State) (f k n value : Nat) (c : EngCmd), CanLand s f c k n value → Completes (.codeSlotLanding f c.seq) s (SlotFetched s f c k n value)) ∧
  (∀ (s : State) (f n value : Nat) (c : EngCmd) (g : Log), CanAppend s f c g n value →
    Completes (.recordAcceptance f c.seq) s (Accepted s f c g n value)) ∧
  ∀ (s : State) (k : Nat) (g : Log) (r : LogRec), s.logs.get? k = some g → NextDurable g r → Completes (.recordDurable k) s (fun t =>
    (∀ j, j ≠ k → t.logs.get? j = s.logs.get? j) ∧ t = { s with logs := t.logs } ∧ t.logs.get? k = some { g with
      durable := r.off + r.bytes.length, recs := g.recs.map (fun x => if x.seq = r.seq then { x with flash := true } else x) })

/-- A finished command leaves its class, a code fetch's slot lands; a send is acknowledged, or fails with cause 0x10 (model's: logs 5, 9). The
peer's answer as a number and a timeout without a check of time are the model's (R172, R179, R187, R265, R308, R311). -/
def Obligations.CommandsEnd : Prop :=
  (∀ (s : State) (f : Nat) (cls : OpClass) (c : EngCmd), CanLeave s f cls c → Completes (.engineCommandCompletion f cls) s (CommandGone s f c)) ∧
  (∀ (s : State) (f : Nat) (c : EngCmd) (r : BitVec 512) (v : W64) (rest : List W64), AllSent s f c r → s.peerIn = v :: rest →
    (v.toNat % 4 = 0 ∨ v.toNat % 4 = 3) → Completes (.peerNotReadyRetry f c.seq) s (Acknowledged s f c r rest)) ∧
  ∀ (s : State) (f : Nat) (c : EngCmd), c ∈ (s.floe f).cmds → ((s.floe f).cmds.map (fun d => d.seq)).Nodup → c.kind = .send → c.finished = false →
    c.guardSt = .free → c.pausedAt = none → s.unretired f = true → (s.floe f).reports.length < 8 →
    Completes (.sendAckTimeout f c.seq) s (SendFailed s f c)

/-- MZERO, MLOOP, MBAR, MEND and MMA at the sequencer: what each does, and what stays (R142, R145, R148, R149, R153, R154, R401,
R404, R405, R409, R458). -/
def Obligations.MatrixWordsTakeEffect : Prop :=
  (∀ (s : State) (r : Run) (n t : BitVec 5), (Instr.mzero n t).wf = true → TilesFree s r t.toNat (n.toNat + 1) →
    Completes (.mzero n t) s (Zeroed s r t.toNat (n.toNat + 1))) ∧
  (∀ (s : State) (r : Run) (o : BitVec 20) (k : BitVec 2), (s.core s.cur.core).run = some r → r.l.length = 4 →
    Completes (.mloop o k) s (Looped s r o k.toNat)) ∧
  (∀ (s : State) (r : Run) (n : BitVec 4), SeqArrives s r n.toNat → Completes (.mbar n) s (SeqArrived s r n.toNat true) ∧
    Completes (.mbarArrive n) s (SeqArrived s r n.toNat false)) ∧
  (∀ (s : State) (r : Run) (n : BitVec 4), MayEnd s r n.toNat → Completes (.mend n) s (RunEnded s r)) ∧
  ∀ (s : State) (r : Run) (c : BitVec 1) (k : BitVec 4) (b a : BitVec 6) (t : BitVec 5), (Instr.mma c k b a t).wf = true →
    CanMma s r (k.toNat + 1) b.toNat a.toNat t.toNat →
    Completes (.mma c k b a t) s (MmaIssued s r (decide (c = 1)) (k.toNat + 1) b.toNat a.toNat t.toNat)

/-- A K-block adds its exact group sums to every element of its tile; runs begin; operands are multicast (R129, R130, R131, R141,
R143, R147, R149, R153, R165). -/
def Obligations.MatrixEngineWorks : Prop :=
  (∀ (s : State) (c : Nat) (x : Issued) (more : List Issued), CanMultiply s c x more → Completes (.kBlockEnd c) s (Multiplied s c x more)) ∧
  (∀ (s : State) (c f id : Nat) (va table : W64) (rest : List (Nat × Nat × W64 × W64)) (e : Nat → Nat), CanStart s c f id va table rest e →
    Completes (.sequencerRunStart c) s (Started s c f id va rest e)) ∧
  ∀ (s : State) (c d : Nat) (x : Issued), CanDeliverTo s c d x → Completes (.multicastDelivery c d) s (DeliveredTo s c d x)

/-- MDRAIN begins a drain, its unit is staged with the values that the epilogue gives, and the store engine writes it (model's: log 28). That the
stochastic count begins at 0 is the model's (R159, R160, R161, R162, R163, R164, R166, R402). -/
def Obligations.DrainsAndUnits : Prop :=
  (∀ (s : State) (r : Run) (rel : BitVec 1) (e : BitVec 4) (ds dout : BitVec 6) (t : BitVec 5), (Instr.mdrain rel e ds dout t).wf = true →
    CanDrain s r e.toNat ds.toNat dout.toNat t.toNat →
    Completes (.mdrain rel e ds dout t) s (DrainBegun s r (decide (rel = 1)) e.toNat ds.toNat dout.toNat t.toNat)) ∧
  (∀ (s : State) (c : Nat) (d : Drain), (s.core c).drain = some d → s.upsets = [] → d.repeats = 0 →
    ((s.core c).tiles.getD d.tile Tile.reset).bad = [] → (∀ row ∈ rowsOf s c d, row.ok = true) →
    Completes (.drainStaging c) s (UnitStaged s c d)) ∧
  ∀ (s : State) (c : Nat) (u : StageUnit) (more : List StageUnit), CanWriteUnit s c u more →
    Completes (.stagingUnitWrite c) s (UnitWritten s c u more)

/-- TRAP enters the trap handler with cause 0x0B and its operand in ILLF2 (R92, R93, R260, R261, R449). -/
def Obligations.TrapEntersTheHandler : Prop :=
  (∀ (s : State) (c : BitVec 18) (x : Xlat) (line : StackLine), MayTrap s x line → Completes (.trap c) s (Trapped s c x)) ∧
  (∀ (s : State) (c : BitVec 18), TrapsNow s → s.fl.uivec.getLsbD 43 = false → (s.launch s.blk.launch).phase = .running →
    Completes (.trap c) s (fun t => (t.launch s.blk.launch).phase = .halting ∧ (t.launch s.blk.launch).status = 3 ∧
      (t.launch s.blk.launch).cause = 0x0B ∧ t.mem = s.mem ∧ t.blocks = s.blocks)) ∧
  ∀ (s : State) (c : BitVec 18), Here s → TrapWaits s → Completes (.trap c) s (TrapPends s 0x0B)

/-- A reported cause enters the trap handler; a pending, unmasked interrupt enters the interrupt handler (model's: log 20). That ILLF1 and ILLF2
are 0 for a matrix word is the model's (R93, R179, R257, R260, R261, R266, R268). -/
def Obligations.HandlerEntries : Prop :=
  (∀ (s : State) (f id : Nat) (x : Xlat) (line : StackLine) (r : Report) (rest : List Report), CanEnter s f id x line → AtBoundary s f id →
    (s.floe f).reports = r :: rest → (s.floe f).recs = [] → (s.floe f).fence = none → AtIssue s f id → s.cur.halt = false →
    (s.floe f).uivec.getLsbD 43 = true →
    Completes (.trapHandlerEntry f id) s (Entered s f id x (reported s f id r rest) (BitVec.ofNat 18 (fieldN (s.floe f).uivec 44 18)) false false)) ∧
  ∀ (s : State) (f id : Nat) (x : Xlat) (line : StackLine), CanEnter s f id x line → AtBoundary s f id →
    (s.floe f).uipend &&& ~~~(s.floe f).umask ≠ 0 → (s.floe f).recs = [] → (s.floe f).fence = none → (s.floe f).reports = [] →
    noneBehindRel s f → TakesNext s f id ∨ Abandons s f id →
    Completes (.interruptEntry f id) s (Entered s f id x (interrupted s f id) (BitVec.ofNat 18 (fieldN (s.floe f).uivec 0 18)) true false)

/-- EMRET and UIRET restore the record's registers, raise S(62) by 64, and go on where it was left (R260, R263, R362). -/
def Obligations.HandlersReturn : Prop :=
  ∀ (s : State) (x : Xlat) (copy : L1Line) (r : BitVec 512) (k : Bool), CanReturn s x copy r k →
    Completes (if k then .uiret else .emret) s (Returned s r k)

/-- EXIT clears its lanes; a floe whose last lanes exit retires (R21, R23, R27, R45, R363). -/
def Obligations.LanesExit : Prop :=
  (∀ s : State, mayExit s → liveAfter s ≠ 0 → Here s → Completes .exit s (LanesExited s)) ∧
  ∀ s : State, mayExit s → liveAfter s = 0 → s.fl.frags = [s.fg] → s.fg.stack = [] → s.fl.cmds = [] → (∀ k x, s.blk.streams.get? k = some x → False) →
    s.fl.standing = 0 → s.fl.cstanding = [] → (∀ n < 16, arrivals s n = 0) → s.lau.cohortsOf s.blk.id = [] →
    (∀ g, IsBuddy s g → ¬ fusing s g) → Completes .exit s (Retired s)

/-- SPLIT makes child floes that hold the parent's registers and their own lanes (model's: log 51). The children's ILLOP and ILLF0 to ILLF3, and
child 0's release fences, are the model's (R47, R50, R51, R57). -/
def Obligations.FloesSplit : Prop :=
  ∀ (s : State) (w : BitVec 2), (Instr.split w).wf = true → CanSplit s (childWidth w) → Completes (.split w) s (Split s (childWidth w))

/-- FUSE joins two waiting buddies, or ends with the status of the first check that fails (model's: log 51). The fused floe's ILLOP and ILLF0 to
ILLF3, and its release fences, are the model's (R53, R54, R55, R56, R57). -/
def Obligations.FloesFuse : Prop :=
  (∀ (s : State) (d : BitVec 6) (status : Nat), (fuseFails s d status).also → Completes (.fuse d) s (Moved s (fuseFails s d status))) ∧
  ∀ (s : State) (d : BitVec 6) (g l r : Nat), CanFuse s g → (if (s.floe g).base < s.fl.base then l = g ∧ r = s.cur.floe else l = s.cur.floe ∧ r = g) →
    Completes (.fuse d) s (Fused s d l r)

/-- BAR.ARRIVE, BAR.SYNC, MFMT and CBAR add the floe's quanta and leave an open phase open (R42, R43, R157, R235, R343, R353). -/
def Obligations.BarrierArrivals : Prop :=
  (∀ (s : State) (n : BitVec 4), CanArrive s n.toNat → arrivals s n.toNat + quanta s.fl ≠ expectedCount s n.toNat →
    Completes (.barArrive n) s (Arrived s n.toNat .none []) ∧ Completes (.barSync n) s (Arrived s n.toNat (.bar n.toNat) [])) ∧
  (∀ (s : State) (a : BitVec 6) (n : BitVec 4), CanArrive s n.toNat → CanRun s { srcs := [VGroup.one a] } →
    arrivals s n.toNat + quanta s.fl ≠ expectedCount s n.toNat →
    Completes (.mfmt a n) s (Arrived s n.toNat (.vote n.toNat) [(s.cur.floe, s.cur.frag, s.lanes.map (fun l => s.V a.toNat l))])) ∧
  ∀ (s : State) (a : BitVec 6), CohortOpen s a → Completes (.cbar a) s
    (Waits s (.cohort (s.S a.toNat).toNat) (fun fl => { fl with cstanding := fl.cstanding ++ [(s.S a.toNat).toNat] }))

/-- The arrival that reaches the expected count completes the phase; a vote that agrees sets the format (R43, R119, R120, R157,
R158, R343). -/
def Obligations.PhasesComplete : Prop :=
  (∀ (s : State) (n : BitVec 4), CanArrive s n.toNat → Alone s n.toNat → Completes (.barSync n) s (PhaseDone s n.toNat none) ∧
    Completes (.barArrive n) s (PhaseDone s n.toNat none)) ∧
  ∀ (s : State) (a : BitVec 6) (n : BitVec 4) (w : W32), CanArrive s n.toNat → Alone s n.toNat → CanRun s { srcs := [VGroup.one a] } →
    s.lanes ≠ [] → (∀ l ∈ s.lanes, s.V a.toNat l = w) → goodFormat w → Completes (.mfmt a n) s (PhaseDone s n.toNat (some w))

/-- WAITM, SYSC, MRUN, WAIT and BAR.WAIT wait, and go on when what they wait for has come (R45, R141, R174, R176, R218, R303, R304,
R408, R448, R453). -/
def Obligations.WaitsAndCalls : Prop :=
  (∀ (s : State) (b a : BitVec 6) (value : Nat), MemWait s b a value → ((s.S b.toNat).toNat ≤ value → mayTick s (floeCore s.cur.floe) →
      Completes (.waitm b a) s (Acquires s s.cur.floe s.cur.frag id (behind s 4))) ∧
    (value < (s.S b.toNat).toNat ∨ ¬ mayTick s (floeCore s.cur.floe) → Completes (.waitm b a) s (Waits s (.memory (s.S a.toNat) (s.S b.toNat)) id))) ∧
  (∀ (s : State) (b a d : BitVec 6) (record : Nat), CanCall s b record → allDone s → Completes (.sysc b a d) s
    (Waits s .sysc (fun fl => { fl with syscs := fl.syscs ++ [requestOf s a d record] }))) ∧
  (∀ (s : State) (f id st : Nat) (v : W64) (r : SyscReq), (s.floe f).syscs.filter (fun x => x.frag = id) = [r] → Answer r st v →
    mayTick s (floeCore f) → Completes (.syscReply f id) s (Acquires s f id (replied r st v) ((s.frag f id).pc + 4))) ∧
  (∀ (s : State) (b a : BitVec 6), Here s → s.fl.tile < 15 → (s.S a.toNat).toNat % 4 = 0 → (s.S b.toNat).toNat % 256 = 0 →
    Completes (.mrun b a) s (Queued s (s.S a.toNat) (s.S b.toNat))) ∧
  (∀ (s : State) (n t p : BitVec 4) (st ld : BitVec 5), Here s → ¬(lets s .loads 5 ld.toNat ∧ lets s .stores 5 st.toNat ∧ lets s .copies 4 p.toNat ∧
      lets s .tile 4 t.toNat ∧ lets s .net 4 n.toNat) → Completes (.wait n t p st ld) s (Waits s .counters id)) ∧
  ∀ (s : State) (n : BitVec 4), Here s → s.fl.standing.getLsbD n.toNat = true → Completes (.barWait n) s (Waits s (.bar n.toNat) id)

/-- A fragment that waits in WAITM goes on as an acquire once its location holds the value and the horizon allows its tick (R176, R218,
R236, R453). -/
def Obligations.MemoryWaitsReread : Prop :=
  ∀ (s : State) (f id value : Nat) (va limit : W64), (∃ g ∈ (s.floe f).frags, g.id = id) → (s.frag f id).wait = .memory va limit →
    (s.floe f).st ≠ .parked → ((s.floe f).recs = [] ∨ (s.frag f id).handler = true) → va.toNat % 8 = 0 → (s.floe f).ops = [] →
    (∀ g ∈ (s.floe f).frags, g.id ≠ id → g.wait ≠ .lattice ∧ g.left = none) → WaitReads s f va value →
    (limit.toNat ≤ value → mayTick s (floeCore f) → Completes (.waitmReread f id) s (Acquires s f id (fun fl => fl) ((s.frag f id).pc + 4))) ∧
    (value < limit.toNat ∨ ¬ mayTick s (floeCore f) → Completes (.waitmReread f id) s (fun t => t = { s with cur := t.cur, floes := t.floes } ∧
      (∀ g, g ≠ f → t.floes.get? g = s.floes.get? g) ∧ t.frag f id = { s.frag f id with rb := none } ∧
      t.floe f = { s.floe f with frags := (t.floe f).frags, st := (t.floe f).st, readyAt := (t.floe f).readyAt }))

/-- GSET resolves a guard: its commands and streams go on or are discarded (R184, R382, R383). -/
def Obligations.GuardsResolve : Prop :=
  ∀ (s : State) (a : BitVec 6) (g : BitVec 3), (s.blk.streams.map (fun e => e.1)).Nodup →
    Completes (.gset a g) s (GuardSet s g.toNat (decide (s.S a.toNat ≠ 0)))

/-- Host harts' accesses, completion interrupts, external hosts, boot and loss of power (model's: logs 3, 34, 40, 42). What survives power loss
beyond R212, the zeros of memory lost, the management queue without a bound and reads from outside without effect are the model's (R12, R212,
R226, R228, R277, R282, R284, R300, R301, R306, R312, R313). -/
def Obligations.HostStepsTakeEffect : Prop :=
  (∀ (s : State) (i : Instr) (e : Event), i.wf = true → hostRule s i = some e → e.when → Completes i s e.next) ∧
  (∀ s : State, (s.hart s.cur.hart).user = true → Completes .kuiret s (HartNow s s.cur.hart
    { s.hart s.cur.hart with pc := (s.hart s.cur.hart).kuiepc, kuien := true })) ∧
  (∀ (s : State) (h e : Nat) (i : Instr), h < 64 → Interrupts s h e → HartOwn h i → Completes i s (HartNow s h (uiEntered (s.hart h)))) ∧
  (∀ s : State, s.booted = false → GoodBoot s → Completes .boot s (Booted s)) ∧
  ∀ s : State, s.logs = [] → Completes .powerLoss s (PowerLost s)

/-- ksubmit enqueues its 128 bytes with the next sequence number, or answers a retry code and changes nothing else (R298, R299,
R304). -/
def Obligations.HartsSubmit : Prop :=
  (∀ (s : State) (b a d : BitVec 5) (page slot value : Nat), CanSubmit s (xreg s s.cur.hart a.toNat) (xreg s s.cur.hart b.toNat) page slot value →
    1 ≤ page → takes_ (queueAt s page slot) →
      Completes (.ksubmit b a d) s (Submitted_ s s.cur.hart d.toNat (xreg s s.cur.hart b.toNat) page slot value)) ∧
  (∀ (s : State) (b a d : BitVec 5) (page slot value code : Nat),
    CanSubmit s (xreg s s.cur.hart a.toNat) (xreg s s.cur.hart b.toNat) page slot value →
    1 ≤ page → RetryCode (queueAt s page slot) code → Completes (.ksubmit b a d) s (Retried s s.cur.hart d.toNat (xreg s s.cur.hart b.toNat) code)) ∧
  ∀ (s : State) (b a d : BitVec 5) (value : Nat), CanSubmit s (xreg s s.cur.hart a.toNat) (xreg s s.cur.hart b.toNat) 0 0 value →
    Completes (.ksubmit b a d) s (fun t =>
      t = { s with harts := t.harts, mgmt := s.mgmt ++ [BitVec.ofNat 1024 value], dies := t.dies, dir := t.dir } ∧
      ReadIn s s.cur.hart (xreg s s.cur.hart b.toNat / 128) t ∧ HartDone s s.cur.hart d.toNat 0 t)

/-- Logical time, cache stacks, homes and memory controllers: each step's effect, and what stays (R206, R213, R217, R218, R219,
R221, R223, R226, R227, R276, R278, R284). -/
def Obligations.CachesAndTime : Prop :=
  (∀ (s : State) (i : Instr) (e : Event), i.wf = true → cacheRule s i = some e → e.when → Completes i s e.next) ∧
  ∀ a b : BitVec 16, earlier a b = true ↔ serialBefore a b

/-- Descriptors are accepted or bound, blocks placed and finished, launches ended with their completion record (model's: logs 35, 39, 52, 64).
How LAUNCHID counts, whose reads and writes these are, and which cohort values are bad are the model's (R27, R28, R29, R30, R31, R32, R33, R35,
R36, R168, R275, R459). -/
def Obligations.LaunchesRun : Prop :=
  (∀ (s : State) (i : Instr) (e : Event), i.wf = true → launchRule s i = some e → e.when → Completes i s e.next) ∧
  ∀ (s : State) (l : Launch) (c pos : Nat), Chosen s l c pos → Completes .blockPlacement s (BlockPlaced s l c pos)

/-- Wait counts expire, floes enter and leave active sets, timers set their bit (R26, R169, R170, R258, R265). -/
def Obligations.SchedulersAndTimers : Prop :=
  ∀ (s : State) (i : Instr) (e : Event), i.wf = true → schedRule s i = some e → e.when → Completes i s e.next

/-- Peers' accesses, packets, the fault ring and the event ring: the bytes written, and what stays (R175, R202, R203, R214,
R256, R305, R308, R309, R310, R311). -/
def Obligations.PeersAndRings : Prop :=
  (∀ (s : State) (i : Instr) (e : Event), i.wf = true → netRule s i = some e → e.when → Completes i s e.next) ∧
  ∀ (s : State) (r : BitVec 512) (rest : List (BitVec 512)) (prod cons : Nat), EventRoom s r rest prod cons →
    Completes .eventRingDeferredWrite s (EventWritten s r rest prod)

/-- Each service of the management path does its work and writes status, result and counter (model's: logs 27, 61, 68). That a new log is empty,
that it takes the lowest free number, and the page of a queue are the model's (R203, R207, R251, R269, R280, R291, R298, R303, R304, R310, R312,
R315). -/
def Obligations.ServicesReply : Prop :=
  (∀ (s : State) (r : BitVec 1024) (rest : List (BitVec 1024)) (num asid pa key : Nat) (i : Instr) (o : Service), serviceRule s r asid i = some o →
    o.num = num → Calls s r rest num asid → CanReply s r pa key → o.when →
    Completes i s (fun t => ∃ u, o.leaves u ∧ Replied u rest pa o.status o.result t)) ∧
  ∀ (s : State) (r : BitVec 1024) (rest : List (BitVec 1024)) (asid : Nat), Calls s r rest 13 asid →
    (∃ l x, ownLaunch s asid l x) → (∀ e ∈ s.launches, s.launches.get? e.1 = some e.2) → Completes (.asidTeardown .mgmt) s (TearsDown s asid)

/-- Invalidations drop translations and complete; a hart's append is committed; a user hart may not call kernel services; drives
move bytes (R199, R200, R211, R302, R304, R312). -/
def Obligations.InvalidationsAndAppends : Prop :=
  (∀ (s : State) (r : BitVec 1024) (rest : List (BitVec 1024)) (asid : Nat), Calls s r rest 1 asid →
    Completes (.invalidationRequest .mgmt) s (Invalidating s r rest asid)) ∧
  (∀ (s : State) (n pa key : Nat) (i : InvReq), CanComplete s n i pa key → Completes (.invalidationCompletion n) s (Completed s n i pa)) ∧
  (∀ (s : State) (h n value : Nat) (g : Log), HartCalls s h 7 → HostAppends s (s.hart h).asid ((s.hart h).x.getD 10 0).toNat
      ((s.hart h).x.getD 11 0).toNat n value g → n = ((s.hart h).x.getD 12 0).toNat →
    Completes (.hostAppend (.hart h)) s (fun t => ∃ u, HostAppended s (s.hart h).asid ((s.hart h).x.getD 10 0).toNat n value g u ∧
      HartReplied u h 0 (BitVec.ofNat 64 g.nextSeq) t)) ∧
  (∀ (s : State) (h num : Nat) (i : Instr), KernelOnly (.hart h) ((s.hart h).x.getD 10 0).toNat num i → HartCalls s h num → Completes i s (HartReplied s h 3 0)) ∧
  ∀ (s : State) (port drive qp va : Nat) (x : DriveXfer), DriveMayMove s port drive qp va x →
    Completes (.driveTransfer port drive qp va x) s (DriveDone s port drive qp va x)

/-- Firmware's steps: saving, restoring, rollback, replay, retirement, ageing, drift exchange, upkeep, power cap (model's: logs 43, 47, 48, 56,
60). That the saved image is held as state, that readings are operands, and the spare of a stack are the model's (R213, R252, R280, R287, R290,
R291, R292, R293, R295, R307, R316; chapter 13). -/
def Obligations.FirmwareWorks : Prop :=
  ∀ (s : State) (i : Instr) (e : Event), i.wf = true → firmwareRule s i = some e → e.when → Completes i s e.next
end

