-- ==== Sys2Proof/Laws/Tab.lean ====
section
/-!
SUPPORT. Laws of sparse tables: reading after writing, and the canonical form kept.
-/
namespace Sys2Proof.Tab

variable {α : Type}

@[simp] theorem get?_put_self (t : Tab α) (k : Nat) (v : α) : (t.put k v).get? k = some v := by
  induction t with
  | nil => simp [put, get?]
  | cons e t ih =>
    obtain ⟨a, x⟩ := e
    simp only [put]
    split
    · simp [get?]
    · split
      · simp [get?]
      · rename_i h
        simp [get?, Ne.symm h, ih]

theorem get?_put_ne (t : Tab α) {k j : Nat} (v : α) (h : j ≠ k) : (t.put k v).get? j = t.get? j := by
  induction t with
  | nil => simp [put, get?, Ne.symm h]
  | cons e t ih =>
    obtain ⟨a, x⟩ := e
    simp only [put]
    split
    · simp [get?, Ne.symm h]
    · split
      · rename_i hk
        subst hk
        simp [get?, Ne.symm h]
      · simp [get?, ih]

@[simp] theorem get?_del_self (t : Tab α) (k : Nat) : (t.del k).get? k = none := by
  induction t with
  | nil => rfl
  | cons e t ih =>
    obtain ⟨a, x⟩ := e
    simp only [del]
    split
    · exact ih
    · rename_i h
      simp [get?, h, ih]

theorem get?_del_ne (t : Tab α) {k j : Nat} (h : j ≠ k) : (t.del k).get? j = t.get? j := by
  induction t with
  | nil => rfl
  | cons e t ih =>
    obtain ⟨a, x⟩ := e
    simp only [del]
    split
    · rename_i hk
      simp [get?, ih, hk, Ne.symm h]
    · simp [get?, ih]

theorem get?_put (t : Tab α) (k j : Nat) (v : α) : (t.put k v).get? j = if j = k then some v else t.get? j := by
  split
  · rename_i h; subst h; simp
  · rename_i h; exact get?_put_ne t v h

@[simp] theorem getD_put_self (t : Tab α) (k : Nat) (v d : α) : (t.put k v).getD k d = v := by simp [getD]

theorem getD_put_ne (t : Tab α) {k j : Nat} (v d : α) (h : j ≠ k) : (t.put k v).getD j d = t.getD j d := by
  simp [getD, get?_put_ne t v h]

theorem getD_put (t : Tab α) (k j : Nat) (v d : α) : (t.put k v).getD j d = if j = k then v else t.getD j d := by
  split
  · rename_i h; subst h; simp
  · rename_i h; exact getD_put_ne t v d h

section
variable [DecidableEq α]

@[simp] theorem getD_set_self (d : α) (t : Tab α) (k : Nat) (v : α) : (t.set d k v).getD k d = v := by
  unfold set
  split
  · rename_i h; simp [getD, h]
  · simp

theorem getD_set_ne (d e : α) (t : Tab α) {k j : Nat} (v : α) (h : j ≠ k) : (t.set d k v).getD j e = t.getD j e := by
  unfold set
  split
  · simp [getD, get?_del_ne t h]
  · exact getD_put_ne t v e h

theorem getD_set (d : α) (t : Tab α) (k j : Nat) (v : α) : (t.set d k v).getD j d = if j = k then v else t.getD j d := by
  split
  · rename_i h; subst h; simp
  · rename_i h; exact getD_set_ne d d t v h

theorem get?_set_ne (d : α) (t : Tab α) {k j : Nat} (v : α) (h : j ≠ k) : (t.set d k v).get? j = t.get? j := by
  unfold set
  split
  · exact get?_del_ne t h
  · exact get?_put_ne t v h

end

/-! ## The canonical form -/

theorem mem_put {t : Tab α} {k : Nat} {v : α} {e : Nat × α} (h : e ∈ t.put k v) : e = (k, v) ∨ e ∈ t := by
  induction t with
  | nil => simpa [put] using h
  | cons x t ih =>
    obtain ⟨a, y⟩ := x
    simp only [put] at h
    split at h
    · simpa using h
    · split at h
      · simp only [List.mem_cons] at h ⊢; tauto
      · simp only [List.mem_cons] at h ⊢
        rcases h with h | h
        · exact .inr (.inl h)
        · rcases ih h with h | h <;> tauto

theorem mem_del {t : Tab α} {k : Nat} {e : Nat × α} (h : e ∈ t.del k) : e ∈ t := by
  induction t with
  | nil => exact h
  | cons x t ih =>
    obtain ⟨a, y⟩ := x
    simp only [del] at h
    split at h
    · exact List.mem_cons_of_mem _ (ih h)
    · simp only [List.mem_cons] at h ⊢
      exact h.imp id ih

variable [DecidableEq α]

theorem wf_cons {d : α} {a : Nat} {x : α} {t : Tab α} :
    wf d ((a, x) :: t) = true ↔ (x ≠ d ∧ ∀ e ∈ t, a < e.1) ∧ wf d t = true := by
  simp [wf, List.all_eq_true]

theorem wf_put {d : α} {t : Tab α} {k : Nat} {v : α} (h : wf d t = true) (hv : v ≠ d) : wf d (t.put k v) = true := by
  induction t with
  | nil => simp [put, wf, hv]
  | cons e t ih =>
    obtain ⟨a, x⟩ := e
    have h' := wf_cons.1 h
    simp only [put]
    split
    · rename_i hk
      refine wf_cons.2 ⟨⟨hv, fun e he => ?_⟩, h⟩
      rcases List.mem_cons.1 he with rfl | he
      · exact hk
      · exact lt_trans hk (h'.1.2 e he)
    · split
      · rename_i hk
        subst hk
        exact wf_cons.2 ⟨⟨hv, h'.1.2⟩, h'.2⟩
      · rename_i h1 h2
        refine wf_cons.2 ⟨⟨h'.1.1, fun e he => ?_⟩, ih h'.2⟩
        rcases mem_put he with rfl | he
        · simp only; omega
        · exact h'.1.2 e he

theorem wf_del {d : α} {t : Tab α} {k : Nat} (h : wf d t = true) : wf d (t.del k) = true := by
  induction t with
  | nil => exact h
  | cons e t ih =>
    obtain ⟨a, x⟩ := e
    have h' := wf_cons.1 h
    simp only [del]
    split
    · exact ih h'.2
    · exact wf_cons.2 ⟨⟨h'.1.1, fun e he => h'.1.2 e (mem_del he)⟩, ih h'.2⟩

/-- A write keeps the canonical form. -/
theorem wf_set {d : α} {t : Tab α} (k : Nat) (v : α) (h : wf d t = true) : wf d (t.set d k v) = true := by
  unfold set
  split
  · exact wf_del h
  · rename_i hv; exact wf_put h hv

/-- Leaving entries out keeps the canonical form. -/
theorem wf_filter {d : α} {t : Tab α} (p : Nat × α → Bool) (h : wf d t = true) : wf d (t.filter p) = true := by
  induction t with
  | nil => exact h
  | cons e t ih =>
    obtain ⟨a, x⟩ := e
    have h' := wf_cons.1 h
    simp only [List.filter_cons]
    split
    · exact wf_cons.2 ⟨⟨h'.1.1, fun e he => h'.1.2 e (List.mem_filter.1 he).1⟩, ih h'.2⟩
    · exact ih h'.2

/-- A run of writes keeps the canonical form. -/
theorem wf_foldl_set {β : Type} {d : α} (k : β → Nat) (v : β → α) (l : List β) :
    ∀ t : Tab α, wf d t = true → wf d (l.foldl (fun t b => t.set d (k b) (v b)) t) = true := by
  induction l with
  | nil => intro t h; exact h
  | cons b l ih => intro t h; exact ih _ (wf_set _ _ h)

/-- A second write to a key replaces the first. -/
theorem put_put {α : Type} (t : Tab α) (k : Nat) (v w : α) : put (put t k v) k w = put t k w := by
  induction t with
  | nil => simp [put]
  | cons e t ih =>
    obtain ⟨a, x⟩ := e
    simp only [put]
    split
    · simp [put]
    · split
      · rename_i h; subst h; simp [put]
      · rename_i h1 h2; simp only [put, if_neg h1, if_neg h2, ih]

end Sys2Proof.Tab
end

