-- ==== Sys2Proof/Laws/State.lean ====
section
/-!
SUPPORT. What the updates of one piece of `State` leave: one lemma per field per update, and the piece itself.
-/
namespace Sys2Proof.Machine


/-! ## updFloe -/

@[simp] theorem State.updFloe_agenda (s : State) (f : Nat) (g : Floe → Floe) : (s.updFloe f g).agenda = s.agenda := rfl
@[simp] theorem State.updFloe_cur (s : State) (f : Nat) (g : Floe → Floe) : (s.updFloe f g).cur = s.cur := rfl
@[simp] theorem State.updFloe_free (s : State) (f : Nat) (g : Floe → Floe) : (s.updFloe f g).free = s.free := rfl
@[simp] theorem State.updFloe_upsets (s : State) (f : Nat) (g : Floe → Floe) : (s.updFloe f g).upsets = s.upsets := rfl
@[simp] theorem State.updFloe_peerIn (s : State) (f : Nat) (g : Floe → Floe) : (s.updFloe f g).peerIn = s.peerIn := rfl
@[simp] theorem State.updFloe_homeIn (s : State) (f : Nat) (g : Floe → Floe) : (s.updFloe f g).homeIn = s.homeIn := rfl
@[simp] theorem State.updFloe_cycle (s : State) (f : Nat) (g : Floe → Floe) : (s.updFloe f g).cycle = s.cycle := rfl
@[simp] theorem State.updFloe_time (s : State) (f : Nat) (g : Floe → Floe) : (s.updFloe f g).time = s.time := rfl
@[simp] theorem State.updFloe_now (s : State) (f : Nat) (g : Floe → Floe) : (s.updFloe f g).now = s.now := rfl
@[simp] theorem State.updFloe_blocks (s : State) (f : Nat) (g : Floe → Floe) : (s.updFloe f g).blocks = s.blocks := rfl
@[simp] theorem State.updFloe_cores (s : State) (f : Nat) (g : Floe → Floe) : (s.updFloe f g).cores = s.cores := rfl
@[simp] theorem State.updFloe_dies (s : State) (f : Nat) (g : Floe → Floe) : (s.updFloe f g).dies = s.dies := rfl
@[simp] theorem State.updFloe_mem (s : State) (f : Nat) (g : Floe → Floe) : (s.updFloe f g).mem = s.mem := rfl
@[simp] theorem State.updFloe_badWords (s : State) (f : Nat) (g : Floe → Floe) : (s.updFloe f g).badWords = s.badWords := rfl
@[simp] theorem State.updFloe_memKeys (s : State) (f : Nat) (g : Floe → Floe) : (s.updFloe f g).memKeys = s.memKeys := rfl
@[simp] theorem State.updFloe_dir (s : State) (f : Nat) (g : Floe → Floe) : (s.updFloe f g).dir = s.dir := rfl
@[simp] theorem State.updFloe_rotor (s : State) (f : Nat) (g : Floe → Floe) : (s.updFloe f g).rotor = s.rotor := rfl
@[simp] theorem State.updFloe_migrations (s : State) (f : Nat) (g : Floe → Floe) : (s.updFloe f g).migrations = s.migrations := rfl
@[simp] theorem State.updFloe_retiring (s : State) (f : Nat) (g : Floe → Floe) : (s.updFloe f g).retiring = s.retiring := rfl
@[simp] theorem State.updFloe_leaving (s : State) (f : Nat) (g : Floe → Floe) : (s.updFloe f g).leaving = s.leaving := rfl
@[simp] theorem State.updFloe_snapshots (s : State) (f : Nat) (g : Floe → Floe) : (s.updFloe f g).snapshots = s.snapshots := rfl
@[simp] theorem State.updFloe_moraine (s : State) (f : Nat) (g : Floe → Floe) : (s.updFloe f g).moraine = s.moraine := rfl
@[simp] theorem State.updFloe_moraine2 (s : State) (f : Nat) (g : Floe → Floe) : (s.updFloe f g).moraine2 = s.moraine2 := rfl
@[simp] theorem State.updFloe_frameErrs (s : State) (f : Nat) (g : Floe → Floe) : (s.updFloe f g).frameErrs = s.frameErrs := rfl
@[simp] theorem State.updFloe_firnHeld (s : State) (f : Nat) (g : Floe → Floe) : (s.updFloe f g).firnHeld = s.firnHeld := rfl
@[simp] theorem State.updFloe_launches (s : State) (f : Nat) (g : Floe → Floe) : (s.updFloe f g).launches = s.launches := rfl
@[simp] theorem State.updFloe_nextLaunch (s : State) (f : Nat) (g : Floe → Floe) : (s.updFloe f g).nextLaunch = s.nextLaunch := rfl
@[simp] theorem State.updFloe_bindings (s : State) (f : Nat) (g : Floe → Floe) : (s.updFloe f g).bindings = s.bindings := rfl
@[simp] theorem State.updFloe_subq (s : State) (f : Nat) (g : Floe → Floe) : (s.updFloe f g).subq = s.subq := rfl
@[simp] theorem State.updFloe_mgmt (s : State) (f : Nat) (g : Floe → Floe) : (s.updFloe f g).mgmt = s.mgmt := rfl
@[simp] theorem State.updFloe_invs (s : State) (f : Nat) (g : Floe → Floe) : (s.updFloe f g).invs = s.invs := rfl
@[simp] theorem State.updFloe_preempts (s : State) (f : Nat) (g : Floe → Floe) : (s.updFloe f g).preempts = s.preempts := rfl
@[simp] theorem State.updFloe_restores (s : State) (f : Nat) (g : Floe → Floe) : (s.updFloe f g).restores = s.restores := rfl
@[simp] theorem State.updFloe_images (s : State) (f : Nat) (g : Floe → Floe) : (s.updFloe f g).images = s.images := rfl
@[simp] theorem State.updFloe_evBacklog (s : State) (f : Nat) (g : Floe → Floe) : (s.updFloe f g).evBacklog = s.evBacklog := rfl
@[simp] theorem State.updFloe_evDropped (s : State) (f : Nat) (g : Floe → Floe) : (s.updFloe f g).evDropped = s.evDropped := rfl
@[simp] theorem State.updFloe_ringWaits (s : State) (f : Nat) (g : Floe → Floe) : (s.updFloe f g).ringWaits = s.ringWaits := rfl
@[simp] theorem State.updFloe_drift (s : State) (f : Nat) (g : Floe → Floe) : (s.updFloe f g).drift = s.drift := rfl
@[simp] theorem State.updFloe_logs (s : State) (f : Nat) (g : Floe → Floe) : (s.updFloe f g).logs = s.logs := rfl
@[simp] theorem State.updFloe_windows (s : State) (f : Nat) (g : Floe → Floe) : (s.updFloe f g).windows = s.windows := rfl
@[simp] theorem State.updFloe_recvLog (s : State) (f : Nat) (g : Floe → Floe) : (s.updFloe f g).recvLog = s.recvLog := rfl
@[simp] theorem State.updFloe_acted (s : State) (f : Nat) (g : Floe → Floe) : (s.updFloe f g).acted = s.acted := rfl
@[simp] theorem State.updFloe_nvme (s : State) (f : Nat) (g : Floe → Floe) : (s.updFloe f g).nvme = s.nvme := rfl
@[simp] theorem State.updFloe_packets (s : State) (f : Nat) (g : Floe → Floe) : (s.updFloe f g).packets = s.packets := rfl
@[simp] theorem State.updFloe_routes (s : State) (f : Nat) (g : Floe → Floe) : (s.updFloe f g).routes = s.routes := rfl
@[simp] theorem State.updFloe_selfPeer (s : State) (f : Nat) (g : Floe → Floe) : (s.updFloe f g).selfPeer = s.selfPeer := rfl
@[simp] theorem State.updFloe_spare (s : State) (f : Nat) (g : Floe → Floe) : (s.updFloe f g).spare = s.spare := rfl
@[simp] theorem State.updFloe_harts (s : State) (f : Nat) (g : Floe → Floe) : (s.updFloe f g).harts = s.harts := rfl
@[simp] theorem State.updFloe_boot (s : State) (f : Nat) (g : Floe → Floe) : (s.updFloe f g).boot = s.boot := rfl
@[simp] theorem State.updFloe_booted (s : State) (f : Nat) (g : Floe → Floe) : (s.updFloe f g).booted = s.booted := rfl
@[simp] theorem State.updFloe_keysLoaded (s : State) (f : Nat) (g : Floe → Floe) : (s.updFloe f g).keysLoaded = s.keysLoaded := rfl
@[simp] theorem State.updFloe_bootBad (s : State) (f : Nat) (g : Floe → Floe) : (s.updFloe f g).bootBad = s.bootBad := rfl
@[simp] theorem State.updFloe_islands (s : State) (f : Nat) (g : Floe → Floe) : (s.updFloe f g).islands = s.islands := rfl
@[simp] theorem State.updFloe_ageing (s : State) (f : Nat) (g : Floe → Floe) : (s.updFloe f g).ageing = s.ageing := rfl
@[simp] theorem State.updFloe_counts (s : State) (f : Nat) (g : Floe → Floe) : (s.updFloe f g).counts = s.counts := rfl
@[simp] theorem State.updFloe_factors (s : State) (f : Nat) (g : Floe → Floe) : (s.updFloe f g).factors = s.factors := rfl
@[simp] theorem State.updFloe_powerCap (s : State) (f : Nat) (g : Floe → Floe) : (s.updFloe f g).powerCap = s.powerCap := rfl
@[simp] theorem State.updFloe_replanH (s : State) (f : Nat) (g : Floe → Floe) : (s.updFloe f g).replanH = s.replanH := rfl
@[simp] theorem State.updFloe_replans (s : State) (f : Nat) (g : Floe → Floe) : (s.updFloe f g).replans = s.replans := rfl
@[simp] theorem State.updFloe_corrected (s : State) (f : Nat) (g : Floe → Floe) : (s.updFloe f g).corrected = s.corrected := rfl
@[simp] theorem State.updFloe_intDrops (s : State) (f : Nat) (g : Floe → Floe) : (s.updFloe f g).intDrops = s.intDrops := rfl
@[simp] theorem State.updFloe_freePool (s : State) (f : Nat) (g : Floe → Floe) : (s.updFloe f g).freePool = s.freePool := rfl
@[simp] theorem State.updFloe_condemned (s : State) (f : Nat) (g : Floe → Floe) : (s.updFloe f g).condemned = s.condemned := rfl

/-! ## updBlock -/

@[simp] theorem State.updBlock_agenda (s : State) (b : Nat) (g : Block → Block) : (s.updBlock b g).agenda = s.agenda := rfl
@[simp] theorem State.updBlock_cur (s : State) (b : Nat) (g : Block → Block) : (s.updBlock b g).cur = s.cur := rfl
@[simp] theorem State.updBlock_free (s : State) (b : Nat) (g : Block → Block) : (s.updBlock b g).free = s.free := rfl
@[simp] theorem State.updBlock_upsets (s : State) (b : Nat) (g : Block → Block) : (s.updBlock b g).upsets = s.upsets := rfl
@[simp] theorem State.updBlock_peerIn (s : State) (b : Nat) (g : Block → Block) : (s.updBlock b g).peerIn = s.peerIn := rfl
@[simp] theorem State.updBlock_homeIn (s : State) (b : Nat) (g : Block → Block) : (s.updBlock b g).homeIn = s.homeIn := rfl
@[simp] theorem State.updBlock_cycle (s : State) (b : Nat) (g : Block → Block) : (s.updBlock b g).cycle = s.cycle := rfl
@[simp] theorem State.updBlock_time (s : State) (b : Nat) (g : Block → Block) : (s.updBlock b g).time = s.time := rfl
@[simp] theorem State.updBlock_now (s : State) (b : Nat) (g : Block → Block) : (s.updBlock b g).now = s.now := rfl
@[simp] theorem State.updBlock_floes (s : State) (b : Nat) (g : Block → Block) : (s.updBlock b g).floes = s.floes := rfl
@[simp] theorem State.updBlock_cores (s : State) (b : Nat) (g : Block → Block) : (s.updBlock b g).cores = s.cores := rfl
@[simp] theorem State.updBlock_dies (s : State) (b : Nat) (g : Block → Block) : (s.updBlock b g).dies = s.dies := rfl
@[simp] theorem State.updBlock_mem (s : State) (b : Nat) (g : Block → Block) : (s.updBlock b g).mem = s.mem := rfl
@[simp] theorem State.updBlock_badWords (s : State) (b : Nat) (g : Block → Block) : (s.updBlock b g).badWords = s.badWords := rfl
@[simp] theorem State.updBlock_memKeys (s : State) (b : Nat) (g : Block → Block) : (s.updBlock b g).memKeys = s.memKeys := rfl
@[simp] theorem State.updBlock_dir (s : State) (b : Nat) (g : Block → Block) : (s.updBlock b g).dir = s.dir := rfl
@[simp] theorem State.updBlock_rotor (s : State) (b : Nat) (g : Block → Block) : (s.updBlock b g).rotor = s.rotor := rfl
@[simp] theorem State.updBlock_migrations (s : State) (b : Nat) (g : Block → Block) : (s.updBlock b g).migrations = s.migrations := rfl
@[simp] theorem State.updBlock_retiring (s : State) (b : Nat) (g : Block → Block) : (s.updBlock b g).retiring = s.retiring := rfl
@[simp] theorem State.updBlock_leaving (s : State) (b : Nat) (g : Block → Block) : (s.updBlock b g).leaving = s.leaving := rfl
@[simp] theorem State.updBlock_snapshots (s : State) (b : Nat) (g : Block → Block) : (s.updBlock b g).snapshots = s.snapshots := rfl
@[simp] theorem State.updBlock_moraine (s : State) (b : Nat) (g : Block → Block) : (s.updBlock b g).moraine = s.moraine := rfl
@[simp] theorem State.updBlock_moraine2 (s : State) (b : Nat) (g : Block → Block) : (s.updBlock b g).moraine2 = s.moraine2 := rfl
@[simp] theorem State.updBlock_frameErrs (s : State) (b : Nat) (g : Block → Block) : (s.updBlock b g).frameErrs = s.frameErrs := rfl
@[simp] theorem State.updBlock_firnHeld (s : State) (b : Nat) (g : Block → Block) : (s.updBlock b g).firnHeld = s.firnHeld := rfl
@[simp] theorem State.updBlock_launches (s : State) (b : Nat) (g : Block → Block) : (s.updBlock b g).launches = s.launches := rfl
@[simp] theorem State.updBlock_nextLaunch (s : State) (b : Nat) (g : Block → Block) : (s.updBlock b g).nextLaunch = s.nextLaunch := rfl
@[simp] theorem State.updBlock_bindings (s : State) (b : Nat) (g : Block → Block) : (s.updBlock b g).bindings = s.bindings := rfl
@[simp] theorem State.updBlock_subq (s : State) (b : Nat) (g : Block → Block) : (s.updBlock b g).subq = s.subq := rfl
@[simp] theorem State.updBlock_mgmt (s : State) (b : Nat) (g : Block → Block) : (s.updBlock b g).mgmt = s.mgmt := rfl
@[simp] theorem State.updBlock_invs (s : State) (b : Nat) (g : Block → Block) : (s.updBlock b g).invs = s.invs := rfl
@[simp] theorem State.updBlock_preempts (s : State) (b : Nat) (g : Block → Block) : (s.updBlock b g).preempts = s.preempts := rfl
@[simp] theorem State.updBlock_restores (s : State) (b : Nat) (g : Block → Block) : (s.updBlock b g).restores = s.restores := rfl
@[simp] theorem State.updBlock_images (s : State) (b : Nat) (g : Block → Block) : (s.updBlock b g).images = s.images := rfl
@[simp] theorem State.updBlock_evBacklog (s : State) (b : Nat) (g : Block → Block) : (s.updBlock b g).evBacklog = s.evBacklog := rfl
@[simp] theorem State.updBlock_evDropped (s : State) (b : Nat) (g : Block → Block) : (s.updBlock b g).evDropped = s.evDropped := rfl
@[simp] theorem State.updBlock_ringWaits (s : State) (b : Nat) (g : Block → Block) : (s.updBlock b g).ringWaits = s.ringWaits := rfl
@[simp] theorem State.updBlock_drift (s : State) (b : Nat) (g : Block → Block) : (s.updBlock b g).drift = s.drift := rfl
@[simp] theorem State.updBlock_logs (s : State) (b : Nat) (g : Block → Block) : (s.updBlock b g).logs = s.logs := rfl
@[simp] theorem State.updBlock_windows (s : State) (b : Nat) (g : Block → Block) : (s.updBlock b g).windows = s.windows := rfl
@[simp] theorem State.updBlock_recvLog (s : State) (b : Nat) (g : Block → Block) : (s.updBlock b g).recvLog = s.recvLog := rfl
@[simp] theorem State.updBlock_acted (s : State) (b : Nat) (g : Block → Block) : (s.updBlock b g).acted = s.acted := rfl
@[simp] theorem State.updBlock_nvme (s : State) (b : Nat) (g : Block → Block) : (s.updBlock b g).nvme = s.nvme := rfl
@[simp] theorem State.updBlock_packets (s : State) (b : Nat) (g : Block → Block) : (s.updBlock b g).packets = s.packets := rfl
@[simp] theorem State.updBlock_routes (s : State) (b : Nat) (g : Block → Block) : (s.updBlock b g).routes = s.routes := rfl
@[simp] theorem State.updBlock_selfPeer (s : State) (b : Nat) (g : Block → Block) : (s.updBlock b g).selfPeer = s.selfPeer := rfl
@[simp] theorem State.updBlock_spare (s : State) (b : Nat) (g : Block → Block) : (s.updBlock b g).spare = s.spare := rfl
@[simp] theorem State.updBlock_harts (s : State) (b : Nat) (g : Block → Block) : (s.updBlock b g).harts = s.harts := rfl
@[simp] theorem State.updBlock_boot (s : State) (b : Nat) (g : Block → Block) : (s.updBlock b g).boot = s.boot := rfl
@[simp] theorem State.updBlock_booted (s : State) (b : Nat) (g : Block → Block) : (s.updBlock b g).booted = s.booted := rfl
@[simp] theorem State.updBlock_keysLoaded (s : State) (b : Nat) (g : Block → Block) : (s.updBlock b g).keysLoaded = s.keysLoaded := rfl
@[simp] theorem State.updBlock_bootBad (s : State) (b : Nat) (g : Block → Block) : (s.updBlock b g).bootBad = s.bootBad := rfl
@[simp] theorem State.updBlock_islands (s : State) (b : Nat) (g : Block → Block) : (s.updBlock b g).islands = s.islands := rfl
@[simp] theorem State.updBlock_ageing (s : State) (b : Nat) (g : Block → Block) : (s.updBlock b g).ageing = s.ageing := rfl
@[simp] theorem State.updBlock_counts (s : State) (b : Nat) (g : Block → Block) : (s.updBlock b g).counts = s.counts := rfl
@[simp] theorem State.updBlock_factors (s : State) (b : Nat) (g : Block → Block) : (s.updBlock b g).factors = s.factors := rfl
@[simp] theorem State.updBlock_powerCap (s : State) (b : Nat) (g : Block → Block) : (s.updBlock b g).powerCap = s.powerCap := rfl
@[simp] theorem State.updBlock_replanH (s : State) (b : Nat) (g : Block → Block) : (s.updBlock b g).replanH = s.replanH := rfl
@[simp] theorem State.updBlock_replans (s : State) (b : Nat) (g : Block → Block) : (s.updBlock b g).replans = s.replans := rfl
@[simp] theorem State.updBlock_corrected (s : State) (b : Nat) (g : Block → Block) : (s.updBlock b g).corrected = s.corrected := rfl
@[simp] theorem State.updBlock_intDrops (s : State) (b : Nat) (g : Block → Block) : (s.updBlock b g).intDrops = s.intDrops := rfl
@[simp] theorem State.updBlock_freePool (s : State) (b : Nat) (g : Block → Block) : (s.updBlock b g).freePool = s.freePool := rfl
@[simp] theorem State.updBlock_condemned (s : State) (b : Nat) (g : Block → Block) : (s.updBlock b g).condemned = s.condemned := rfl

/-! ## updCore -/

@[simp] theorem State.updCore_agenda (s : State) (c : Nat) (g : Core → Core) : (s.updCore c g).agenda = s.agenda := rfl
@[simp] theorem State.updCore_cur (s : State) (c : Nat) (g : Core → Core) : (s.updCore c g).cur = s.cur := rfl
@[simp] theorem State.updCore_free (s : State) (c : Nat) (g : Core → Core) : (s.updCore c g).free = s.free := rfl
@[simp] theorem State.updCore_upsets (s : State) (c : Nat) (g : Core → Core) : (s.updCore c g).upsets = s.upsets := rfl
@[simp] theorem State.updCore_peerIn (s : State) (c : Nat) (g : Core → Core) : (s.updCore c g).peerIn = s.peerIn := rfl
@[simp] theorem State.updCore_homeIn (s : State) (c : Nat) (g : Core → Core) : (s.updCore c g).homeIn = s.homeIn := rfl
@[simp] theorem State.updCore_cycle (s : State) (c : Nat) (g : Core → Core) : (s.updCore c g).cycle = s.cycle := rfl
@[simp] theorem State.updCore_time (s : State) (c : Nat) (g : Core → Core) : (s.updCore c g).time = s.time := rfl
@[simp] theorem State.updCore_now (s : State) (c : Nat) (g : Core → Core) : (s.updCore c g).now = s.now := rfl
@[simp] theorem State.updCore_floes (s : State) (c : Nat) (g : Core → Core) : (s.updCore c g).floes = s.floes := rfl
@[simp] theorem State.updCore_blocks (s : State) (c : Nat) (g : Core → Core) : (s.updCore c g).blocks = s.blocks := rfl
@[simp] theorem State.updCore_dies (s : State) (c : Nat) (g : Core → Core) : (s.updCore c g).dies = s.dies := rfl
@[simp] theorem State.updCore_mem (s : State) (c : Nat) (g : Core → Core) : (s.updCore c g).mem = s.mem := rfl
@[simp] theorem State.updCore_badWords (s : State) (c : Nat) (g : Core → Core) : (s.updCore c g).badWords = s.badWords := rfl
@[simp] theorem State.updCore_memKeys (s : State) (c : Nat) (g : Core → Core) : (s.updCore c g).memKeys = s.memKeys := rfl
@[simp] theorem State.updCore_dir (s : State) (c : Nat) (g : Core → Core) : (s.updCore c g).dir = s.dir := rfl
@[simp] theorem State.updCore_rotor (s : State) (c : Nat) (g : Core → Core) : (s.updCore c g).rotor = s.rotor := rfl
@[simp] theorem State.updCore_migrations (s : State) (c : Nat) (g : Core → Core) : (s.updCore c g).migrations = s.migrations := rfl
@[simp] theorem State.updCore_retiring (s : State) (c : Nat) (g : Core → Core) : (s.updCore c g).retiring = s.retiring := rfl
@[simp] theorem State.updCore_leaving (s : State) (c : Nat) (g : Core → Core) : (s.updCore c g).leaving = s.leaving := rfl
@[simp] theorem State.updCore_snapshots (s : State) (c : Nat) (g : Core → Core) : (s.updCore c g).snapshots = s.snapshots := rfl
@[simp] theorem State.updCore_moraine (s : State) (c : Nat) (g : Core → Core) : (s.updCore c g).moraine = s.moraine := rfl
@[simp] theorem State.updCore_moraine2 (s : State) (c : Nat) (g : Core → Core) : (s.updCore c g).moraine2 = s.moraine2 := rfl
@[simp] theorem State.updCore_frameErrs (s : State) (c : Nat) (g : Core → Core) : (s.updCore c g).frameErrs = s.frameErrs := rfl
@[simp] theorem State.updCore_firnHeld (s : State) (c : Nat) (g : Core → Core) : (s.updCore c g).firnHeld = s.firnHeld := rfl
@[simp] theorem State.updCore_launches (s : State) (c : Nat) (g : Core → Core) : (s.updCore c g).launches = s.launches := rfl
@[simp] theorem State.updCore_nextLaunch (s : State) (c : Nat) (g : Core → Core) : (s.updCore c g).nextLaunch = s.nextLaunch := rfl
@[simp] theorem State.updCore_bindings (s : State) (c : Nat) (g : Core → Core) : (s.updCore c g).bindings = s.bindings := rfl
@[simp] theorem State.updCore_subq (s : State) (c : Nat) (g : Core → Core) : (s.updCore c g).subq = s.subq := rfl
@[simp] theorem State.updCore_mgmt (s : State) (c : Nat) (g : Core → Core) : (s.updCore c g).mgmt = s.mgmt := rfl
@[simp] theorem State.updCore_invs (s : State) (c : Nat) (g : Core → Core) : (s.updCore c g).invs = s.invs := rfl
@[simp] theorem State.updCore_preempts (s : State) (c : Nat) (g : Core → Core) : (s.updCore c g).preempts = s.preempts := rfl
@[simp] theorem State.updCore_restores (s : State) (c : Nat) (g : Core → Core) : (s.updCore c g).restores = s.restores := rfl
@[simp] theorem State.updCore_images (s : State) (c : Nat) (g : Core → Core) : (s.updCore c g).images = s.images := rfl
@[simp] theorem State.updCore_evBacklog (s : State) (c : Nat) (g : Core → Core) : (s.updCore c g).evBacklog = s.evBacklog := rfl
@[simp] theorem State.updCore_evDropped (s : State) (c : Nat) (g : Core → Core) : (s.updCore c g).evDropped = s.evDropped := rfl
@[simp] theorem State.updCore_ringWaits (s : State) (c : Nat) (g : Core → Core) : (s.updCore c g).ringWaits = s.ringWaits := rfl
@[simp] theorem State.updCore_drift (s : State) (c : Nat) (g : Core → Core) : (s.updCore c g).drift = s.drift := rfl
@[simp] theorem State.updCore_logs (s : State) (c : Nat) (g : Core → Core) : (s.updCore c g).logs = s.logs := rfl
@[simp] theorem State.updCore_windows (s : State) (c : Nat) (g : Core → Core) : (s.updCore c g).windows = s.windows := rfl
@[simp] theorem State.updCore_recvLog (s : State) (c : Nat) (g : Core → Core) : (s.updCore c g).recvLog = s.recvLog := rfl
@[simp] theorem State.updCore_acted (s : State) (c : Nat) (g : Core → Core) : (s.updCore c g).acted = s.acted := rfl
@[simp] theorem State.updCore_nvme (s : State) (c : Nat) (g : Core → Core) : (s.updCore c g).nvme = s.nvme := rfl
@[simp] theorem State.updCore_packets (s : State) (c : Nat) (g : Core → Core) : (s.updCore c g).packets = s.packets := rfl
@[simp] theorem State.updCore_routes (s : State) (c : Nat) (g : Core → Core) : (s.updCore c g).routes = s.routes := rfl
@[simp] theorem State.updCore_selfPeer (s : State) (c : Nat) (g : Core → Core) : (s.updCore c g).selfPeer = s.selfPeer := rfl
@[simp] theorem State.updCore_spare (s : State) (c : Nat) (g : Core → Core) : (s.updCore c g).spare = s.spare := rfl
@[simp] theorem State.updCore_harts (s : State) (c : Nat) (g : Core → Core) : (s.updCore c g).harts = s.harts := rfl
@[simp] theorem State.updCore_boot (s : State) (c : Nat) (g : Core → Core) : (s.updCore c g).boot = s.boot := rfl
@[simp] theorem State.updCore_booted (s : State) (c : Nat) (g : Core → Core) : (s.updCore c g).booted = s.booted := rfl
@[simp] theorem State.updCore_keysLoaded (s : State) (c : Nat) (g : Core → Core) : (s.updCore c g).keysLoaded = s.keysLoaded := rfl
@[simp] theorem State.updCore_bootBad (s : State) (c : Nat) (g : Core → Core) : (s.updCore c g).bootBad = s.bootBad := rfl
@[simp] theorem State.updCore_islands (s : State) (c : Nat) (g : Core → Core) : (s.updCore c g).islands = s.islands := rfl
@[simp] theorem State.updCore_ageing (s : State) (c : Nat) (g : Core → Core) : (s.updCore c g).ageing = s.ageing := rfl
@[simp] theorem State.updCore_counts (s : State) (c : Nat) (g : Core → Core) : (s.updCore c g).counts = s.counts := rfl
@[simp] theorem State.updCore_factors (s : State) (c : Nat) (g : Core → Core) : (s.updCore c g).factors = s.factors := rfl
@[simp] theorem State.updCore_powerCap (s : State) (c : Nat) (g : Core → Core) : (s.updCore c g).powerCap = s.powerCap := rfl
@[simp] theorem State.updCore_replanH (s : State) (c : Nat) (g : Core → Core) : (s.updCore c g).replanH = s.replanH := rfl
@[simp] theorem State.updCore_replans (s : State) (c : Nat) (g : Core → Core) : (s.updCore c g).replans = s.replans := rfl
@[simp] theorem State.updCore_corrected (s : State) (c : Nat) (g : Core → Core) : (s.updCore c g).corrected = s.corrected := rfl
@[simp] theorem State.updCore_intDrops (s : State) (c : Nat) (g : Core → Core) : (s.updCore c g).intDrops = s.intDrops := rfl
@[simp] theorem State.updCore_freePool (s : State) (c : Nat) (g : Core → Core) : (s.updCore c g).freePool = s.freePool := rfl
@[simp] theorem State.updCore_condemned (s : State) (c : Nat) (g : Core → Core) : (s.updCore c g).condemned = s.condemned := rfl

/-! ## updDie -/

@[simp] theorem State.updDie_agenda (s : State) (d : Nat) (g : Die → Die) : (s.updDie d g).agenda = s.agenda := rfl
@[simp] theorem State.updDie_cur (s : State) (d : Nat) (g : Die → Die) : (s.updDie d g).cur = s.cur := rfl
@[simp] theorem State.updDie_free (s : State) (d : Nat) (g : Die → Die) : (s.updDie d g).free = s.free := rfl
@[simp] theorem State.updDie_upsets (s : State) (d : Nat) (g : Die → Die) : (s.updDie d g).upsets = s.upsets := rfl
@[simp] theorem State.updDie_peerIn (s : State) (d : Nat) (g : Die → Die) : (s.updDie d g).peerIn = s.peerIn := rfl
@[simp] theorem State.updDie_homeIn (s : State) (d : Nat) (g : Die → Die) : (s.updDie d g).homeIn = s.homeIn := rfl
@[simp] theorem State.updDie_cycle (s : State) (d : Nat) (g : Die → Die) : (s.updDie d g).cycle = s.cycle := rfl
@[simp] theorem State.updDie_time (s : State) (d : Nat) (g : Die → Die) : (s.updDie d g).time = s.time := rfl
@[simp] theorem State.updDie_now (s : State) (d : Nat) (g : Die → Die) : (s.updDie d g).now = s.now := rfl
@[simp] theorem State.updDie_floes (s : State) (d : Nat) (g : Die → Die) : (s.updDie d g).floes = s.floes := rfl
@[simp] theorem State.updDie_blocks (s : State) (d : Nat) (g : Die → Die) : (s.updDie d g).blocks = s.blocks := rfl
@[simp] theorem State.updDie_cores (s : State) (d : Nat) (g : Die → Die) : (s.updDie d g).cores = s.cores := rfl
@[simp] theorem State.updDie_mem (s : State) (d : Nat) (g : Die → Die) : (s.updDie d g).mem = s.mem := rfl
@[simp] theorem State.updDie_badWords (s : State) (d : Nat) (g : Die → Die) : (s.updDie d g).badWords = s.badWords := rfl
@[simp] theorem State.updDie_memKeys (s : State) (d : Nat) (g : Die → Die) : (s.updDie d g).memKeys = s.memKeys := rfl
@[simp] theorem State.updDie_dir (s : State) (d : Nat) (g : Die → Die) : (s.updDie d g).dir = s.dir := rfl
@[simp] theorem State.updDie_rotor (s : State) (d : Nat) (g : Die → Die) : (s.updDie d g).rotor = s.rotor := rfl
@[simp] theorem State.updDie_migrations (s : State) (d : Nat) (g : Die → Die) : (s.updDie d g).migrations = s.migrations := rfl
@[simp] theorem State.updDie_retiring (s : State) (d : Nat) (g : Die → Die) : (s.updDie d g).retiring = s.retiring := rfl
@[simp] theorem State.updDie_leaving (s : State) (d : Nat) (g : Die → Die) : (s.updDie d g).leaving = s.leaving := rfl
@[simp] theorem State.updDie_snapshots (s : State) (d : Nat) (g : Die → Die) : (s.updDie d g).snapshots = s.snapshots := rfl
@[simp] theorem State.updDie_moraine (s : State) (d : Nat) (g : Die → Die) : (s.updDie d g).moraine = s.moraine := rfl
@[simp] theorem State.updDie_moraine2 (s : State) (d : Nat) (g : Die → Die) : (s.updDie d g).moraine2 = s.moraine2 := rfl
@[simp] theorem State.updDie_frameErrs (s : State) (d : Nat) (g : Die → Die) : (s.updDie d g).frameErrs = s.frameErrs := rfl
@[simp] theorem State.updDie_firnHeld (s : State) (d : Nat) (g : Die → Die) : (s.updDie d g).firnHeld = s.firnHeld := rfl
@[simp] theorem State.updDie_launches (s : State) (d : Nat) (g : Die → Die) : (s.updDie d g).launches = s.launches := rfl
@[simp] theorem State.updDie_nextLaunch (s : State) (d : Nat) (g : Die → Die) : (s.updDie d g).nextLaunch = s.nextLaunch := rfl
@[simp] theorem State.updDie_bindings (s : State) (d : Nat) (g : Die → Die) : (s.updDie d g).bindings = s.bindings := rfl
@[simp] theorem State.updDie_subq (s : State) (d : Nat) (g : Die → Die) : (s.updDie d g).subq = s.subq := rfl
@[simp] theorem State.updDie_mgmt (s : State) (d : Nat) (g : Die → Die) : (s.updDie d g).mgmt = s.mgmt := rfl
@[simp] theorem State.updDie_invs (s : State) (d : Nat) (g : Die → Die) : (s.updDie d g).invs = s.invs := rfl
@[simp] theorem State.updDie_preempts (s : State) (d : Nat) (g : Die → Die) : (s.updDie d g).preempts = s.preempts := rfl
@[simp] theorem State.updDie_restores (s : State) (d : Nat) (g : Die → Die) : (s.updDie d g).restores = s.restores := rfl
@[simp] theorem State.updDie_images (s : State) (d : Nat) (g : Die → Die) : (s.updDie d g).images = s.images := rfl
@[simp] theorem State.updDie_evBacklog (s : State) (d : Nat) (g : Die → Die) : (s.updDie d g).evBacklog = s.evBacklog := rfl
@[simp] theorem State.updDie_evDropped (s : State) (d : Nat) (g : Die → Die) : (s.updDie d g).evDropped = s.evDropped := rfl
@[simp] theorem State.updDie_ringWaits (s : State) (d : Nat) (g : Die → Die) : (s.updDie d g).ringWaits = s.ringWaits := rfl
@[simp] theorem State.updDie_drift (s : State) (d : Nat) (g : Die → Die) : (s.updDie d g).drift = s.drift := rfl
@[simp] theorem State.updDie_logs (s : State) (d : Nat) (g : Die → Die) : (s.updDie d g).logs = s.logs := rfl
@[simp] theorem State.updDie_windows (s : State) (d : Nat) (g : Die → Die) : (s.updDie d g).windows = s.windows := rfl
@[simp] theorem State.updDie_recvLog (s : State) (d : Nat) (g : Die → Die) : (s.updDie d g).recvLog = s.recvLog := rfl
@[simp] theorem State.updDie_acted (s : State) (d : Nat) (g : Die → Die) : (s.updDie d g).acted = s.acted := rfl
@[simp] theorem State.updDie_nvme (s : State) (d : Nat) (g : Die → Die) : (s.updDie d g).nvme = s.nvme := rfl
@[simp] theorem State.updDie_packets (s : State) (d : Nat) (g : Die → Die) : (s.updDie d g).packets = s.packets := rfl
@[simp] theorem State.updDie_routes (s : State) (d : Nat) (g : Die → Die) : (s.updDie d g).routes = s.routes := rfl
@[simp] theorem State.updDie_selfPeer (s : State) (d : Nat) (g : Die → Die) : (s.updDie d g).selfPeer = s.selfPeer := rfl
@[simp] theorem State.updDie_spare (s : State) (d : Nat) (g : Die → Die) : (s.updDie d g).spare = s.spare := rfl
@[simp] theorem State.updDie_harts (s : State) (d : Nat) (g : Die → Die) : (s.updDie d g).harts = s.harts := rfl
@[simp] theorem State.updDie_boot (s : State) (d : Nat) (g : Die → Die) : (s.updDie d g).boot = s.boot := rfl
@[simp] theorem State.updDie_booted (s : State) (d : Nat) (g : Die → Die) : (s.updDie d g).booted = s.booted := rfl
@[simp] theorem State.updDie_keysLoaded (s : State) (d : Nat) (g : Die → Die) : (s.updDie d g).keysLoaded = s.keysLoaded := rfl
@[simp] theorem State.updDie_bootBad (s : State) (d : Nat) (g : Die → Die) : (s.updDie d g).bootBad = s.bootBad := rfl
@[simp] theorem State.updDie_islands (s : State) (d : Nat) (g : Die → Die) : (s.updDie d g).islands = s.islands := rfl
@[simp] theorem State.updDie_ageing (s : State) (d : Nat) (g : Die → Die) : (s.updDie d g).ageing = s.ageing := rfl
@[simp] theorem State.updDie_counts (s : State) (d : Nat) (g : Die → Die) : (s.updDie d g).counts = s.counts := rfl
@[simp] theorem State.updDie_factors (s : State) (d : Nat) (g : Die → Die) : (s.updDie d g).factors = s.factors := rfl
@[simp] theorem State.updDie_powerCap (s : State) (d : Nat) (g : Die → Die) : (s.updDie d g).powerCap = s.powerCap := rfl
@[simp] theorem State.updDie_replanH (s : State) (d : Nat) (g : Die → Die) : (s.updDie d g).replanH = s.replanH := rfl
@[simp] theorem State.updDie_replans (s : State) (d : Nat) (g : Die → Die) : (s.updDie d g).replans = s.replans := rfl
@[simp] theorem State.updDie_corrected (s : State) (d : Nat) (g : Die → Die) : (s.updDie d g).corrected = s.corrected := rfl
@[simp] theorem State.updDie_intDrops (s : State) (d : Nat) (g : Die → Die) : (s.updDie d g).intDrops = s.intDrops := rfl
@[simp] theorem State.updDie_freePool (s : State) (d : Nat) (g : Die → Die) : (s.updDie d g).freePool = s.freePool := rfl
@[simp] theorem State.updDie_condemned (s : State) (d : Nat) (g : Die → Die) : (s.updDie d g).condemned = s.condemned := rfl

/-! ## updLaunch -/

@[simp] theorem State.updLaunch_agenda (s : State) (l : Nat) (g : Launch → Launch) : (s.updLaunch l g).agenda = s.agenda := by
  unfold State.updLaunch; split <;> rfl
@[simp] theorem State.updLaunch_cur (s : State) (l : Nat) (g : Launch → Launch) : (s.updLaunch l g).cur = s.cur := by
  unfold State.updLaunch; split <;> rfl
@[simp] theorem State.updLaunch_free (s : State) (l : Nat) (g : Launch → Launch) : (s.updLaunch l g).free = s.free := by
  unfold State.updLaunch; split <;> rfl
@[simp] theorem State.updLaunch_upsets (s : State) (l : Nat) (g : Launch → Launch) : (s.updLaunch l g).upsets = s.upsets := by
  unfold State.updLaunch; split <;> rfl
@[simp] theorem State.updLaunch_peerIn (s : State) (l : Nat) (g : Launch → Launch) : (s.updLaunch l g).peerIn = s.peerIn := by
  unfold State.updLaunch; split <;> rfl
@[simp] theorem State.updLaunch_cycle (s : State) (l : Nat) (g : Launch → Launch) : (s.updLaunch l g).cycle = s.cycle := by
  unfold State.updLaunch; split <;> rfl
@[simp] theorem State.updLaunch_time (s : State) (l : Nat) (g : Launch → Launch) : (s.updLaunch l g).time = s.time := by
  unfold State.updLaunch; split <;> rfl
@[simp] theorem State.updLaunch_now (s : State) (l : Nat) (g : Launch → Launch) : (s.updLaunch l g).now = s.now := by
  unfold State.updLaunch; split <;> rfl
@[simp] theorem State.updLaunch_floes (s : State) (l : Nat) (g : Launch → Launch) : (s.updLaunch l g).floes = s.floes := by
  unfold State.updLaunch; split <;> rfl
@[simp] theorem State.updLaunch_blocks (s : State) (l : Nat) (g : Launch → Launch) : (s.updLaunch l g).blocks = s.blocks := by
  unfold State.updLaunch; split <;> rfl
@[simp] theorem State.updLaunch_cores (s : State) (l : Nat) (g : Launch → Launch) : (s.updLaunch l g).cores = s.cores := by
  unfold State.updLaunch; split <;> rfl
@[simp] theorem State.updLaunch_dies (s : State) (l : Nat) (g : Launch → Launch) : (s.updLaunch l g).dies = s.dies := by
  unfold State.updLaunch; split <;> rfl
@[simp] theorem State.updLaunch_mem (s : State) (l : Nat) (g : Launch → Launch) : (s.updLaunch l g).mem = s.mem := by
  unfold State.updLaunch; split <;> rfl
@[simp] theorem State.updLaunch_badWords (s : State) (l : Nat) (g : Launch → Launch) : (s.updLaunch l g).badWords = s.badWords := by
  unfold State.updLaunch; split <;> rfl
@[simp] theorem State.updLaunch_memKeys (s : State) (l : Nat) (g : Launch → Launch) : (s.updLaunch l g).memKeys = s.memKeys := by
  unfold State.updLaunch; split <;> rfl
@[simp] theorem State.updLaunch_dir (s : State) (l : Nat) (g : Launch → Launch) : (s.updLaunch l g).dir = s.dir := by
  unfold State.updLaunch; split <;> rfl
@[simp] theorem State.updLaunch_rotor (s : State) (l : Nat) (g : Launch → Launch) : (s.updLaunch l g).rotor = s.rotor := by
  unfold State.updLaunch; split <;> rfl
@[simp] theorem State.updLaunch_migrations (s : State) (l : Nat) (g : Launch → Launch) : (s.updLaunch l g).migrations = s.migrations := by
  unfold State.updLaunch; split <;> rfl
@[simp] theorem State.updLaunch_retiring (s : State) (l : Nat) (g : Launch → Launch) : (s.updLaunch l g).retiring = s.retiring := by
  unfold State.updLaunch; split <;> rfl
@[simp] theorem State.updLaunch_leaving (s : State) (l : Nat) (g : Launch → Launch) : (s.updLaunch l g).leaving = s.leaving := by
  unfold State.updLaunch; split <;> rfl
@[simp] theorem State.updLaunch_snapshots (s : State) (l : Nat) (g : Launch → Launch) : (s.updLaunch l g).snapshots = s.snapshots := by
  unfold State.updLaunch; split <;> rfl
@[simp] theorem State.updLaunch_moraine (s : State) (l : Nat) (g : Launch → Launch) : (s.updLaunch l g).moraine = s.moraine := by
  unfold State.updLaunch; split <;> rfl
@[simp] theorem State.updLaunch_firnHeld (s : State) (l : Nat) (g : Launch → Launch) : (s.updLaunch l g).firnHeld = s.firnHeld := by
  unfold State.updLaunch; split <;> rfl
@[simp] theorem State.updLaunch_nextLaunch (s : State) (l : Nat) (g : Launch → Launch) : (s.updLaunch l g).nextLaunch = s.nextLaunch := by
  unfold State.updLaunch; split <;> rfl
@[simp] theorem State.updLaunch_bindings (s : State) (l : Nat) (g : Launch → Launch) : (s.updLaunch l g).bindings = s.bindings := by
  unfold State.updLaunch; split <;> rfl
@[simp] theorem State.updLaunch_subq (s : State) (l : Nat) (g : Launch → Launch) : (s.updLaunch l g).subq = s.subq := by
  unfold State.updLaunch; split <;> rfl
@[simp] theorem State.updLaunch_mgmt (s : State) (l : Nat) (g : Launch → Launch) : (s.updLaunch l g).mgmt = s.mgmt := by
  unfold State.updLaunch; split <;> rfl
@[simp] theorem State.updLaunch_invs (s : State) (l : Nat) (g : Launch → Launch) : (s.updLaunch l g).invs = s.invs := by
  unfold State.updLaunch; split <;> rfl
@[simp] theorem State.updLaunch_preempts (s : State) (l : Nat) (g : Launch → Launch) : (s.updLaunch l g).preempts = s.preempts := by
  unfold State.updLaunch; split <;> rfl
@[simp] theorem State.updLaunch_restores (s : State) (l : Nat) (g : Launch → Launch) : (s.updLaunch l g).restores = s.restores := by
  unfold State.updLaunch; split <;> rfl
@[simp] theorem State.updLaunch_images (s : State) (l : Nat) (g : Launch → Launch) : (s.updLaunch l g).images = s.images := by
  unfold State.updLaunch; split <;> rfl
@[simp] theorem State.updLaunch_evBacklog (s : State) (l : Nat) (g : Launch → Launch) : (s.updLaunch l g).evBacklog = s.evBacklog := by
  unfold State.updLaunch; split <;> rfl
@[simp] theorem State.updLaunch_evDropped (s : State) (l : Nat) (g : Launch → Launch) : (s.updLaunch l g).evDropped = s.evDropped := by
  unfold State.updLaunch; split <;> rfl
@[simp] theorem State.updLaunch_ringWaits (s : State) (l : Nat) (g : Launch → Launch) : (s.updLaunch l g).ringWaits = s.ringWaits := by
  unfold State.updLaunch; split <;> rfl
@[simp] theorem State.updLaunch_drift (s : State) (l : Nat) (g : Launch → Launch) : (s.updLaunch l g).drift = s.drift := by
  unfold State.updLaunch; split <;> rfl
@[simp] theorem State.updLaunch_logs (s : State) (l : Nat) (g : Launch → Launch) : (s.updLaunch l g).logs = s.logs := by
  unfold State.updLaunch; split <;> rfl
@[simp] theorem State.updLaunch_windows (s : State) (l : Nat) (g : Launch → Launch) : (s.updLaunch l g).windows = s.windows := by
  unfold State.updLaunch; split <;> rfl
@[simp] theorem State.updLaunch_homeIn (s : State) (l : Nat) (g : Launch → Launch) : (s.updLaunch l g).homeIn = s.homeIn := by
  unfold State.updLaunch; split <;> rfl
@[simp] theorem State.updLaunch_moraine2 (s : State) (l : Nat) (g : Launch → Launch) : (s.updLaunch l g).moraine2 = s.moraine2 := by
  unfold State.updLaunch; split <;> rfl
@[simp] theorem State.updLaunch_frameErrs (s : State) (l : Nat) (g : Launch → Launch) : (s.updLaunch l g).frameErrs = s.frameErrs := by
  unfold State.updLaunch; split <;> rfl
@[simp] theorem State.updLaunch_intDrops (s : State) (l : Nat) (g : Launch → Launch) : (s.updLaunch l g).intDrops = s.intDrops := by
  unfold State.updLaunch; split <;> rfl
@[simp] theorem State.updLaunch_freePool (s : State) (l : Nat) (g : Launch → Launch) : (s.updLaunch l g).freePool = s.freePool := by
  unfold State.updLaunch; split <;> rfl
@[simp] theorem State.updLaunch_condemned (s : State) (l : Nat) (g : Launch → Launch) : (s.updLaunch l g).condemned = s.condemned := by
  unfold State.updLaunch; split <;> rfl
@[simp] theorem State.updLaunch_recvLog (s : State) (l : Nat) (g : Launch → Launch) : (s.updLaunch l g).recvLog = s.recvLog := by
  unfold State.updLaunch; split <;> rfl
@[simp] theorem State.updLaunch_acted (s : State) (l : Nat) (g : Launch → Launch) : (s.updLaunch l g).acted = s.acted := by
  unfold State.updLaunch; split <;> rfl
@[simp] theorem State.updLaunch_nvme (s : State) (l : Nat) (g : Launch → Launch) : (s.updLaunch l g).nvme = s.nvme := by
  unfold State.updLaunch; split <;> rfl
@[simp] theorem State.updLaunch_packets (s : State) (l : Nat) (g : Launch → Launch) : (s.updLaunch l g).packets = s.packets := by
  unfold State.updLaunch; split <;> rfl
@[simp] theorem State.updLaunch_routes (s : State) (l : Nat) (g : Launch → Launch) : (s.updLaunch l g).routes = s.routes := by
  unfold State.updLaunch; split <;> rfl
@[simp] theorem State.updLaunch_selfPeer (s : State) (l : Nat) (g : Launch → Launch) : (s.updLaunch l g).selfPeer = s.selfPeer := by
  unfold State.updLaunch; split <;> rfl
@[simp] theorem State.updLaunch_spare (s : State) (l : Nat) (g : Launch → Launch) : (s.updLaunch l g).spare = s.spare := by
  unfold State.updLaunch; split <;> rfl
@[simp] theorem State.updLaunch_harts (s : State) (l : Nat) (g : Launch → Launch) : (s.updLaunch l g).harts = s.harts := by
  unfold State.updLaunch; split <;> rfl
@[simp] theorem State.updLaunch_boot (s : State) (l : Nat) (g : Launch → Launch) : (s.updLaunch l g).boot = s.boot := by
  unfold State.updLaunch; split <;> rfl
@[simp] theorem State.updLaunch_booted (s : State) (l : Nat) (g : Launch → Launch) : (s.updLaunch l g).booted = s.booted := by
  unfold State.updLaunch; split <;> rfl
@[simp] theorem State.updLaunch_keysLoaded (s : State) (l : Nat) (g : Launch → Launch) : (s.updLaunch l g).keysLoaded = s.keysLoaded := by
  unfold State.updLaunch; split <;> rfl
@[simp] theorem State.updLaunch_bootBad (s : State) (l : Nat) (g : Launch → Launch) : (s.updLaunch l g).bootBad = s.bootBad := by
  unfold State.updLaunch; split <;> rfl
@[simp] theorem State.updLaunch_islands (s : State) (l : Nat) (g : Launch → Launch) : (s.updLaunch l g).islands = s.islands := by
  unfold State.updLaunch; split <;> rfl
@[simp] theorem State.updLaunch_ageing (s : State) (l : Nat) (g : Launch → Launch) : (s.updLaunch l g).ageing = s.ageing := by
  unfold State.updLaunch; split <;> rfl
@[simp] theorem State.updLaunch_counts (s : State) (l : Nat) (g : Launch → Launch) : (s.updLaunch l g).counts = s.counts := by
  unfold State.updLaunch; split <;> rfl
@[simp] theorem State.updLaunch_factors (s : State) (l : Nat) (g : Launch → Launch) : (s.updLaunch l g).factors = s.factors := by
  unfold State.updLaunch; split <;> rfl
@[simp] theorem State.updLaunch_powerCap (s : State) (l : Nat) (g : Launch → Launch) : (s.updLaunch l g).powerCap = s.powerCap := by
  unfold State.updLaunch; split <;> rfl
@[simp] theorem State.updLaunch_replanH (s : State) (l : Nat) (g : Launch → Launch) : (s.updLaunch l g).replanH = s.replanH := by
  unfold State.updLaunch; split <;> rfl
@[simp] theorem State.updLaunch_replans (s : State) (l : Nat) (g : Launch → Launch) : (s.updLaunch l g).replans = s.replans := by
  unfold State.updLaunch; split <;> rfl
@[simp] theorem State.updLaunch_corrected (s : State) (l : Nat) (g : Launch → Launch) : (s.updLaunch l g).corrected = s.corrected := by
  unfold State.updLaunch; split <;> rfl

/-! ## The piece updated -/

@[simp] theorem State.updFloe_floe_self (s : State) (f : Nat) (g : Floe → Floe) : (s.updFloe f g).floe f = g (s.floe f) := Tab.getD_put_self _ _ _ _
theorem State.updFloe_floe_ne (s : State) (f : Nat) (g : Floe → Floe) {k : Nat} (h : k ≠ f) : (s.updFloe f g).floe k = s.floe k :=
  Tab.getD_put_ne _ _ _ h
theorem State.updFloe_floe (s : State) (f : Nat) (g : Floe → Floe) (k : Nat) : (s.updFloe f g).floe k = if k = f then g (s.floe f) else s.floe k :=
  Tab.getD_put _ _ _ _ _
theorem State.updFloe_floes_ne (s : State) (f : Nat) (g : Floe → Floe) {k : Nat} (h : k ≠ f) : (s.updFloe f g).floes.get? k = s.floes.get? k :=
  Tab.get?_put_ne _ _ h
@[simp] theorem State.updFloe_floes_self (s : State) (f : Nat) (g : Floe → Floe) : (s.updFloe f g).floes.get? f = some (g (s.floe f)) :=
  Tab.get?_put_self _ _ _
@[simp] theorem State.updFloe_block_same (s : State) (f : Nat) (g : Floe → Floe) (k : Nat) : (s.updFloe f g).block k = s.block k := rfl
@[simp] theorem State.updFloe_core_same (s : State) (f : Nat) (g : Floe → Floe) (k : Nat) : (s.updFloe f g).core k = s.core k := rfl
@[simp] theorem State.updFloe_die_same (s : State) (f : Nat) (g : Floe → Floe) (k : Nat) : (s.updFloe f g).die k = s.die k := rfl
@[simp] theorem State.updFloe_launch_same (s : State) (f : Nat) (g : Floe → Floe) (k : Nat) : (s.updFloe f g).launch k = s.launch k := rfl
@[simp] theorem State.updBlock_block_self (s : State) (b : Nat) (g : Block → Block) : (s.updBlock b g).block b = g (s.block b) :=
  Tab.getD_put_self _ _ _ _
theorem State.updBlock_block_ne (s : State) (b : Nat) (g : Block → Block) {k : Nat} (h : k ≠ b) : (s.updBlock b g).block k = s.block k :=
  Tab.getD_put_ne _ _ _ h
theorem State.updBlock_block (s : State) (b : Nat) (g : Block → Block) (k : Nat) :
    (s.updBlock b g).block k = if k = b then g (s.block b) else s.block k :=
  Tab.getD_put _ _ _ _ _
theorem State.updBlock_blocks_ne (s : State) (b : Nat) (g : Block → Block) {k : Nat} (h : k ≠ b) : (s.updBlock b g).blocks.get? k = s.blocks.get? k :=
  Tab.get?_put_ne _ _ h
@[simp] theorem State.updBlock_blocks_self (s : State) (b : Nat) (g : Block → Block) : (s.updBlock b g).blocks.get? b = some (g (s.block b)) :=
  Tab.get?_put_self _ _ _
@[simp] theorem State.updBlock_floe_same (s : State) (b : Nat) (g : Block → Block) (k : Nat) : (s.updBlock b g).floe k = s.floe k := rfl
@[simp] theorem State.updBlock_core_same (s : State) (b : Nat) (g : Block → Block) (k : Nat) : (s.updBlock b g).core k = s.core k := rfl
@[simp] theorem State.updBlock_die_same (s : State) (b : Nat) (g : Block → Block) (k : Nat) : (s.updBlock b g).die k = s.die k := rfl
@[simp] theorem State.updBlock_launch_same (s : State) (b : Nat) (g : Block → Block) (k : Nat) : (s.updBlock b g).launch k = s.launch k := rfl
@[simp] theorem State.updCore_core_self (s : State) (c : Nat) (g : Core → Core) : (s.updCore c g).core c = g (s.core c) := Tab.getD_put_self _ _ _ _
theorem State.updCore_core_ne (s : State) (c : Nat) (g : Core → Core) {k : Nat} (h : k ≠ c) : (s.updCore c g).core k = s.core k :=
  Tab.getD_put_ne _ _ _ h
theorem State.updCore_core (s : State) (c : Nat) (g : Core → Core) (k : Nat) : (s.updCore c g).core k = if k = c then g (s.core c) else s.core k :=
  Tab.getD_put _ _ _ _ _
theorem State.updCore_cores_ne (s : State) (c : Nat) (g : Core → Core) {k : Nat} (h : k ≠ c) : (s.updCore c g).cores.get? k = s.cores.get? k :=
  Tab.get?_put_ne _ _ h
@[simp] theorem State.updCore_cores_self (s : State) (c : Nat) (g : Core → Core) : (s.updCore c g).cores.get? c = some (g (s.core c)) :=
  Tab.get?_put_self _ _ _
@[simp] theorem State.updCore_floe_same (s : State) (c : Nat) (g : Core → Core) (k : Nat) : (s.updCore c g).floe k = s.floe k := rfl
@[simp] theorem State.updCore_block_same (s : State) (c : Nat) (g : Core → Core) (k : Nat) : (s.updCore c g).block k = s.block k := rfl
@[simp] theorem State.updCore_die_same (s : State) (c : Nat) (g : Core → Core) (k : Nat) : (s.updCore c g).die k = s.die k := rfl
@[simp] theorem State.updCore_launch_same (s : State) (c : Nat) (g : Core → Core) (k : Nat) : (s.updCore c g).launch k = s.launch k := rfl
@[simp] theorem State.updDie_die_self (s : State) (d : Nat) (g : Die → Die) : (s.updDie d g).die d = g (s.die d) := Tab.getD_put_self _ _ _ _
theorem State.updDie_die_ne (s : State) (d : Nat) (g : Die → Die) {k : Nat} (h : k ≠ d) : (s.updDie d g).die k = s.die k := Tab.getD_put_ne _ _ _ h
theorem State.updDie_die (s : State) (d : Nat) (g : Die → Die) (k : Nat) : (s.updDie d g).die k = if k = d then g (s.die d) else s.die k :=
  Tab.getD_put _ _ _ _ _
theorem State.updDie_dies_ne (s : State) (d : Nat) (g : Die → Die) {k : Nat} (h : k ≠ d) : (s.updDie d g).dies.get? k = s.dies.get? k :=
  Tab.get?_put_ne _ _ h
@[simp] theorem State.updDie_dies_self (s : State) (d : Nat) (g : Die → Die) : (s.updDie d g).dies.get? d = some (g (s.die d)) :=
  Tab.get?_put_self _ _ _
@[simp] theorem State.updDie_floe_same (s : State) (d : Nat) (g : Die → Die) (k : Nat) : (s.updDie d g).floe k = s.floe k := rfl
@[simp] theorem State.updDie_block_same (s : State) (d : Nat) (g : Die → Die) (k : Nat) : (s.updDie d g).block k = s.block k := rfl
@[simp] theorem State.updDie_core_same (s : State) (d : Nat) (g : Die → Die) (k : Nat) : (s.updDie d g).core k = s.core k := rfl
@[simp] theorem State.updDie_launch_same (s : State) (d : Nat) (g : Die → Die) (k : Nat) : (s.updDie d g).launch k = s.launch k := rfl
@[simp] theorem State.updLaunch_floe_same (s : State) (l : Nat) (g : Launch → Launch) (k : Nat) : (s.updLaunch l g).floe k = s.floe k := by
  unfold State.updLaunch; split <;> rfl
@[simp] theorem State.updLaunch_block_same (s : State) (l : Nat) (g : Launch → Launch) (k : Nat) : (s.updLaunch l g).block k = s.block k := by
  unfold State.updLaunch; split <;> rfl
@[simp] theorem State.updLaunch_core_same (s : State) (l : Nat) (g : Launch → Launch) (k : Nat) : (s.updLaunch l g).core k = s.core k := by
  unfold State.updLaunch; split <;> rfl
@[simp] theorem State.updLaunch_die_same (s : State) (l : Nat) (g : Launch → Launch) (k : Nat) : (s.updLaunch l g).die k = s.die k := by
  unfold State.updLaunch; split <;> rfl
theorem State.updLaunch_launch_ne (s : State) (l : Nat) (g : Launch → Launch) {k : Nat} (h : k ≠ l) :
    (s.updLaunch l g).launch k = s.launch k := by
  unfold State.updLaunch
  split
  · rfl
  · exact Tab.getD_put_ne _ _ _ h
theorem State.updLaunch_launch_self (s : State) {l : Nat} (g : Launch → Launch) {x : Launch} (h : s.launches.get? l = some x) :
    (s.updLaunch l g).launch l = g x := by
  unfold State.updLaunch
  rw [h]
  exact Tab.getD_put_self _ _ _ _

/-! ## The issuing floe, block and core -/

theorem State.updFl_eq (s : State) (g : Floe → Floe) : s.updFl g = s.updFloe s.cur.floe g := rfl
theorem State.updFloe_updFloe (s : State) (f : Nat) (g h : Floe → Floe) :
    (s.updFloe f g).updFloe f h = s.updFloe f (fun x => h (g x)) := by
  have h1 : (s.updFloe f g).floe f = g (s.floe f) := Tab.getD_put_self _ _ _ _
  show ({ s with floes := (s.floes.put f (g (s.floe f))).put f (h ((s.updFloe f g).floe f)) } : State) = _
  rw [h1, Tab.put_put]
  rfl
theorem State.updFl_updFl (s : State) (g h : Floe → Floe) : (s.updFl g).updFl h = s.updFl (fun x => h (g x)) :=
  State.updFloe_updFloe s s.cur.floe g h
theorem State.updBlk_eq (s : State) (g : Block → Block) : s.updBlk g = s.updBlock (blockOf s.cur.floe) g := rfl
theorem State.updCr_eq (s : State) (g : Core → Core) : s.updCr g = s.updCore (floeCore s.cur.floe) g := rfl

@[simp] theorem State.updFl_agenda (s : State) (g : Floe → Floe) : (s.updFl g).agenda = s.agenda := rfl
@[simp] theorem State.updFl_cur (s : State) (g : Floe → Floe) : (s.updFl g).cur = s.cur := rfl
@[simp] theorem State.updFl_free (s : State) (g : Floe → Floe) : (s.updFl g).free = s.free := rfl
@[simp] theorem State.updFl_upsets (s : State) (g : Floe → Floe) : (s.updFl g).upsets = s.upsets := rfl
@[simp] theorem State.updFl_peerIn (s : State) (g : Floe → Floe) : (s.updFl g).peerIn = s.peerIn := rfl
@[simp] theorem State.updFl_homeIn (s : State) (g : Floe → Floe) : (s.updFl g).homeIn = s.homeIn := rfl
@[simp] theorem State.updFl_cycle (s : State) (g : Floe → Floe) : (s.updFl g).cycle = s.cycle := rfl
@[simp] theorem State.updFl_time (s : State) (g : Floe → Floe) : (s.updFl g).time = s.time := rfl
@[simp] theorem State.updFl_now (s : State) (g : Floe → Floe) : (s.updFl g).now = s.now := rfl
@[simp] theorem State.updFl_blocks (s : State) (g : Floe → Floe) : (s.updFl g).blocks = s.blocks := rfl
@[simp] theorem State.updFl_cores (s : State) (g : Floe → Floe) : (s.updFl g).cores = s.cores := rfl
@[simp] theorem State.updFl_dies (s : State) (g : Floe → Floe) : (s.updFl g).dies = s.dies := rfl
@[simp] theorem State.updFl_mem (s : State) (g : Floe → Floe) : (s.updFl g).mem = s.mem := rfl
@[simp] theorem State.updFl_badWords (s : State) (g : Floe → Floe) : (s.updFl g).badWords = s.badWords := rfl
@[simp] theorem State.updFl_memKeys (s : State) (g : Floe → Floe) : (s.updFl g).memKeys = s.memKeys := rfl
@[simp] theorem State.updFl_dir (s : State) (g : Floe → Floe) : (s.updFl g).dir = s.dir := rfl
@[simp] theorem State.updFl_rotor (s : State) (g : Floe → Floe) : (s.updFl g).rotor = s.rotor := rfl
@[simp] theorem State.updFl_migrations (s : State) (g : Floe → Floe) : (s.updFl g).migrations = s.migrations := rfl
@[simp] theorem State.updFl_retiring (s : State) (g : Floe → Floe) : (s.updFl g).retiring = s.retiring := rfl
@[simp] theorem State.updFl_leaving (s : State) (g : Floe → Floe) : (s.updFl g).leaving = s.leaving := rfl
@[simp] theorem State.updFl_snapshots (s : State) (g : Floe → Floe) : (s.updFl g).snapshots = s.snapshots := rfl
@[simp] theorem State.updFl_moraine (s : State) (g : Floe → Floe) : (s.updFl g).moraine = s.moraine := rfl
@[simp] theorem State.updFl_moraine2 (s : State) (g : Floe → Floe) : (s.updFl g).moraine2 = s.moraine2 := rfl
@[simp] theorem State.updFl_frameErrs (s : State) (g : Floe → Floe) : (s.updFl g).frameErrs = s.frameErrs := rfl
@[simp] theorem State.updFl_firnHeld (s : State) (g : Floe → Floe) : (s.updFl g).firnHeld = s.firnHeld := rfl
@[simp] theorem State.updFl_launches (s : State) (g : Floe → Floe) : (s.updFl g).launches = s.launches := rfl
@[simp] theorem State.updFl_nextLaunch (s : State) (g : Floe → Floe) : (s.updFl g).nextLaunch = s.nextLaunch := rfl
@[simp] theorem State.updFl_bindings (s : State) (g : Floe → Floe) : (s.updFl g).bindings = s.bindings := rfl
@[simp] theorem State.updFl_subq (s : State) (g : Floe → Floe) : (s.updFl g).subq = s.subq := rfl
@[simp] theorem State.updFl_mgmt (s : State) (g : Floe → Floe) : (s.updFl g).mgmt = s.mgmt := rfl
@[simp] theorem State.updFl_invs (s : State) (g : Floe → Floe) : (s.updFl g).invs = s.invs := rfl
@[simp] theorem State.updFl_preempts (s : State) (g : Floe → Floe) : (s.updFl g).preempts = s.preempts := rfl
@[simp] theorem State.updFl_restores (s : State) (g : Floe → Floe) : (s.updFl g).restores = s.restores := rfl
@[simp] theorem State.updFl_images (s : State) (g : Floe → Floe) : (s.updFl g).images = s.images := rfl
@[simp] theorem State.updFl_evBacklog (s : State) (g : Floe → Floe) : (s.updFl g).evBacklog = s.evBacklog := rfl
@[simp] theorem State.updFl_evDropped (s : State) (g : Floe → Floe) : (s.updFl g).evDropped = s.evDropped := rfl
@[simp] theorem State.updFl_ringWaits (s : State) (g : Floe → Floe) : (s.updFl g).ringWaits = s.ringWaits := rfl
@[simp] theorem State.updFl_drift (s : State) (g : Floe → Floe) : (s.updFl g).drift = s.drift := rfl
@[simp] theorem State.updFl_logs (s : State) (g : Floe → Floe) : (s.updFl g).logs = s.logs := rfl
@[simp] theorem State.updFl_windows (s : State) (g : Floe → Floe) : (s.updFl g).windows = s.windows := rfl
@[simp] theorem State.updFl_recvLog (s : State) (g : Floe → Floe) : (s.updFl g).recvLog = s.recvLog := rfl
@[simp] theorem State.updFl_acted (s : State) (g : Floe → Floe) : (s.updFl g).acted = s.acted := rfl
@[simp] theorem State.updFl_nvme (s : State) (g : Floe → Floe) : (s.updFl g).nvme = s.nvme := rfl
@[simp] theorem State.updFl_packets (s : State) (g : Floe → Floe) : (s.updFl g).packets = s.packets := rfl
@[simp] theorem State.updFl_routes (s : State) (g : Floe → Floe) : (s.updFl g).routes = s.routes := rfl
@[simp] theorem State.updFl_selfPeer (s : State) (g : Floe → Floe) : (s.updFl g).selfPeer = s.selfPeer := rfl
@[simp] theorem State.updFl_spare (s : State) (g : Floe → Floe) : (s.updFl g).spare = s.spare := rfl
@[simp] theorem State.updFl_harts (s : State) (g : Floe → Floe) : (s.updFl g).harts = s.harts := rfl
@[simp] theorem State.updFl_boot (s : State) (g : Floe → Floe) : (s.updFl g).boot = s.boot := rfl
@[simp] theorem State.updFl_booted (s : State) (g : Floe → Floe) : (s.updFl g).booted = s.booted := rfl
@[simp] theorem State.updFl_keysLoaded (s : State) (g : Floe → Floe) : (s.updFl g).keysLoaded = s.keysLoaded := rfl
@[simp] theorem State.updFl_bootBad (s : State) (g : Floe → Floe) : (s.updFl g).bootBad = s.bootBad := rfl
@[simp] theorem State.updFl_islands (s : State) (g : Floe → Floe) : (s.updFl g).islands = s.islands := rfl
@[simp] theorem State.updFl_ageing (s : State) (g : Floe → Floe) : (s.updFl g).ageing = s.ageing := rfl
@[simp] theorem State.updFl_counts (s : State) (g : Floe → Floe) : (s.updFl g).counts = s.counts := rfl
@[simp] theorem State.updFl_factors (s : State) (g : Floe → Floe) : (s.updFl g).factors = s.factors := rfl
@[simp] theorem State.updFl_powerCap (s : State) (g : Floe → Floe) : (s.updFl g).powerCap = s.powerCap := rfl
@[simp] theorem State.updFl_replanH (s : State) (g : Floe → Floe) : (s.updFl g).replanH = s.replanH := rfl
@[simp] theorem State.updFl_replans (s : State) (g : Floe → Floe) : (s.updFl g).replans = s.replans := rfl
@[simp] theorem State.updFl_corrected (s : State) (g : Floe → Floe) : (s.updFl g).corrected = s.corrected := rfl
@[simp] theorem State.updFl_intDrops (s : State) (g : Floe → Floe) : (s.updFl g).intDrops = s.intDrops := rfl
@[simp] theorem State.updFl_freePool (s : State) (g : Floe → Floe) : (s.updFl g).freePool = s.freePool := rfl
@[simp] theorem State.updFl_condemned (s : State) (g : Floe → Floe) : (s.updFl g).condemned = s.condemned := rfl
@[simp] theorem State.updBlk_agenda (s : State) (g : Block → Block) : (s.updBlk g).agenda = s.agenda := rfl
@[simp] theorem State.updBlk_cur (s : State) (g : Block → Block) : (s.updBlk g).cur = s.cur := rfl
@[simp] theorem State.updBlk_free (s : State) (g : Block → Block) : (s.updBlk g).free = s.free := rfl
@[simp] theorem State.updBlk_upsets (s : State) (g : Block → Block) : (s.updBlk g).upsets = s.upsets := rfl
@[simp] theorem State.updBlk_peerIn (s : State) (g : Block → Block) : (s.updBlk g).peerIn = s.peerIn := rfl
@[simp] theorem State.updBlk_homeIn (s : State) (g : Block → Block) : (s.updBlk g).homeIn = s.homeIn := rfl
@[simp] theorem State.updBlk_cycle (s : State) (g : Block → Block) : (s.updBlk g).cycle = s.cycle := rfl
@[simp] theorem State.updBlk_time (s : State) (g : Block → Block) : (s.updBlk g).time = s.time := rfl
@[simp] theorem State.updBlk_now (s : State) (g : Block → Block) : (s.updBlk g).now = s.now := rfl
@[simp] theorem State.updBlk_floes (s : State) (g : Block → Block) : (s.updBlk g).floes = s.floes := rfl
@[simp] theorem State.updBlk_cores (s : State) (g : Block → Block) : (s.updBlk g).cores = s.cores := rfl
@[simp] theorem State.updBlk_dies (s : State) (g : Block → Block) : (s.updBlk g).dies = s.dies := rfl
@[simp] theorem State.updBlk_mem (s : State) (g : Block → Block) : (s.updBlk g).mem = s.mem := rfl
@[simp] theorem State.updBlk_badWords (s : State) (g : Block → Block) : (s.updBlk g).badWords = s.badWords := rfl
@[simp] theorem State.updBlk_memKeys (s : State) (g : Block → Block) : (s.updBlk g).memKeys = s.memKeys := rfl
@[simp] theorem State.updBlk_dir (s : State) (g : Block → Block) : (s.updBlk g).dir = s.dir := rfl
@[simp] theorem State.updBlk_rotor (s : State) (g : Block → Block) : (s.updBlk g).rotor = s.rotor := rfl
@[simp] theorem State.updBlk_migrations (s : State) (g : Block → Block) : (s.updBlk g).migrations = s.migrations := rfl
@[simp] theorem State.updBlk_retiring (s : State) (g : Block → Block) : (s.updBlk g).retiring = s.retiring := rfl
@[simp] theorem State.updBlk_leaving (s : State) (g : Block → Block) : (s.updBlk g).leaving = s.leaving := rfl
@[simp] theorem State.updBlk_snapshots (s : State) (g : Block → Block) : (s.updBlk g).snapshots = s.snapshots := rfl
@[simp] theorem State.updBlk_moraine (s : State) (g : Block → Block) : (s.updBlk g).moraine = s.moraine := rfl
@[simp] theorem State.updBlk_moraine2 (s : State) (g : Block → Block) : (s.updBlk g).moraine2 = s.moraine2 := rfl
@[simp] theorem State.updBlk_frameErrs (s : State) (g : Block → Block) : (s.updBlk g).frameErrs = s.frameErrs := rfl
@[simp] theorem State.updBlk_firnHeld (s : State) (g : Block → Block) : (s.updBlk g).firnHeld = s.firnHeld := rfl
@[simp] theorem State.updBlk_launches (s : State) (g : Block → Block) : (s.updBlk g).launches = s.launches := rfl
@[simp] theorem State.updBlk_nextLaunch (s : State) (g : Block → Block) : (s.updBlk g).nextLaunch = s.nextLaunch := rfl
@[simp] theorem State.updBlk_bindings (s : State) (g : Block → Block) : (s.updBlk g).bindings = s.bindings := rfl
@[simp] theorem State.updBlk_subq (s : State) (g : Block → Block) : (s.updBlk g).subq = s.subq := rfl
@[simp] theorem State.updBlk_mgmt (s : State) (g : Block → Block) : (s.updBlk g).mgmt = s.mgmt := rfl
@[simp] theorem State.updBlk_invs (s : State) (g : Block → Block) : (s.updBlk g).invs = s.invs := rfl
@[simp] theorem State.updBlk_preempts (s : State) (g : Block → Block) : (s.updBlk g).preempts = s.preempts := rfl
@[simp] theorem State.updBlk_restores (s : State) (g : Block → Block) : (s.updBlk g).restores = s.restores := rfl
@[simp] theorem State.updBlk_images (s : State) (g : Block → Block) : (s.updBlk g).images = s.images := rfl
@[simp] theorem State.updBlk_evBacklog (s : State) (g : Block → Block) : (s.updBlk g).evBacklog = s.evBacklog := rfl
@[simp] theorem State.updBlk_evDropped (s : State) (g : Block → Block) : (s.updBlk g).evDropped = s.evDropped := rfl
@[simp] theorem State.updBlk_ringWaits (s : State) (g : Block → Block) : (s.updBlk g).ringWaits = s.ringWaits := rfl
@[simp] theorem State.updBlk_drift (s : State) (g : Block → Block) : (s.updBlk g).drift = s.drift := rfl
@[simp] theorem State.updBlk_logs (s : State) (g : Block → Block) : (s.updBlk g).logs = s.logs := rfl
@[simp] theorem State.updBlk_windows (s : State) (g : Block → Block) : (s.updBlk g).windows = s.windows := rfl
@[simp] theorem State.updBlk_recvLog (s : State) (g : Block → Block) : (s.updBlk g).recvLog = s.recvLog := rfl
@[simp] theorem State.updBlk_acted (s : State) (g : Block → Block) : (s.updBlk g).acted = s.acted := rfl
@[simp] theorem State.updBlk_nvme (s : State) (g : Block → Block) : (s.updBlk g).nvme = s.nvme := rfl
@[simp] theorem State.updBlk_packets (s : State) (g : Block → Block) : (s.updBlk g).packets = s.packets := rfl
@[simp] theorem State.updBlk_routes (s : State) (g : Block → Block) : (s.updBlk g).routes = s.routes := rfl
@[simp] theorem State.updBlk_selfPeer (s : State) (g : Block → Block) : (s.updBlk g).selfPeer = s.selfPeer := rfl
@[simp] theorem State.updBlk_spare (s : State) (g : Block → Block) : (s.updBlk g).spare = s.spare := rfl
@[simp] theorem State.updBlk_harts (s : State) (g : Block → Block) : (s.updBlk g).harts = s.harts := rfl
@[simp] theorem State.updBlk_boot (s : State) (g : Block → Block) : (s.updBlk g).boot = s.boot := rfl
@[simp] theorem State.updBlk_booted (s : State) (g : Block → Block) : (s.updBlk g).booted = s.booted := rfl
@[simp] theorem State.updBlk_keysLoaded (s : State) (g : Block → Block) : (s.updBlk g).keysLoaded = s.keysLoaded := rfl
@[simp] theorem State.updBlk_bootBad (s : State) (g : Block → Block) : (s.updBlk g).bootBad = s.bootBad := rfl
@[simp] theorem State.updBlk_islands (s : State) (g : Block → Block) : (s.updBlk g).islands = s.islands := rfl
@[simp] theorem State.updBlk_ageing (s : State) (g : Block → Block) : (s.updBlk g).ageing = s.ageing := rfl
@[simp] theorem State.updBlk_counts (s : State) (g : Block → Block) : (s.updBlk g).counts = s.counts := rfl
@[simp] theorem State.updBlk_factors (s : State) (g : Block → Block) : (s.updBlk g).factors = s.factors := rfl
@[simp] theorem State.updBlk_powerCap (s : State) (g : Block → Block) : (s.updBlk g).powerCap = s.powerCap := rfl
@[simp] theorem State.updBlk_replanH (s : State) (g : Block → Block) : (s.updBlk g).replanH = s.replanH := rfl
@[simp] theorem State.updBlk_replans (s : State) (g : Block → Block) : (s.updBlk g).replans = s.replans := rfl
@[simp] theorem State.updBlk_corrected (s : State) (g : Block → Block) : (s.updBlk g).corrected = s.corrected := rfl
@[simp] theorem State.updBlk_intDrops (s : State) (g : Block → Block) : (s.updBlk g).intDrops = s.intDrops := rfl
@[simp] theorem State.updBlk_freePool (s : State) (g : Block → Block) : (s.updBlk g).freePool = s.freePool := rfl
@[simp] theorem State.updBlk_condemned (s : State) (g : Block → Block) : (s.updBlk g).condemned = s.condemned := rfl
@[simp] theorem State.updCr_agenda (s : State) (g : Core → Core) : (s.updCr g).agenda = s.agenda := rfl
@[simp] theorem State.updCr_cur (s : State) (g : Core → Core) : (s.updCr g).cur = s.cur := rfl
@[simp] theorem State.updCr_free (s : State) (g : Core → Core) : (s.updCr g).free = s.free := rfl
@[simp] theorem State.updCr_upsets (s : State) (g : Core → Core) : (s.updCr g).upsets = s.upsets := rfl
@[simp] theorem State.updCr_peerIn (s : State) (g : Core → Core) : (s.updCr g).peerIn = s.peerIn := rfl
@[simp] theorem State.updCr_homeIn (s : State) (g : Core → Core) : (s.updCr g).homeIn = s.homeIn := rfl
@[simp] theorem State.updCr_cycle (s : State) (g : Core → Core) : (s.updCr g).cycle = s.cycle := rfl
@[simp] theorem State.updCr_time (s : State) (g : Core → Core) : (s.updCr g).time = s.time := rfl
@[simp] theorem State.updCr_now (s : State) (g : Core → Core) : (s.updCr g).now = s.now := rfl
@[simp] theorem State.updCr_floes (s : State) (g : Core → Core) : (s.updCr g).floes = s.floes := rfl
@[simp] theorem State.updCr_blocks (s : State) (g : Core → Core) : (s.updCr g).blocks = s.blocks := rfl
@[simp] theorem State.updCr_dies (s : State) (g : Core → Core) : (s.updCr g).dies = s.dies := rfl
@[simp] theorem State.updCr_mem (s : State) (g : Core → Core) : (s.updCr g).mem = s.mem := rfl
@[simp] theorem State.updCr_badWords (s : State) (g : Core → Core) : (s.updCr g).badWords = s.badWords := rfl
@[simp] theorem State.updCr_memKeys (s : State) (g : Core → Core) : (s.updCr g).memKeys = s.memKeys := rfl
@[simp] theorem State.updCr_dir (s : State) (g : Core → Core) : (s.updCr g).dir = s.dir := rfl
@[simp] theorem State.updCr_rotor (s : State) (g : Core → Core) : (s.updCr g).rotor = s.rotor := rfl
@[simp] theorem State.updCr_migrations (s : State) (g : Core → Core) : (s.updCr g).migrations = s.migrations := rfl
@[simp] theorem State.updCr_retiring (s : State) (g : Core → Core) : (s.updCr g).retiring = s.retiring := rfl
@[simp] theorem State.updCr_leaving (s : State) (g : Core → Core) : (s.updCr g).leaving = s.leaving := rfl
@[simp] theorem State.updCr_snapshots (s : State) (g : Core → Core) : (s.updCr g).snapshots = s.snapshots := rfl
@[simp] theorem State.updCr_moraine (s : State) (g : Core → Core) : (s.updCr g).moraine = s.moraine := rfl
@[simp] theorem State.updCr_moraine2 (s : State) (g : Core → Core) : (s.updCr g).moraine2 = s.moraine2 := rfl
@[simp] theorem State.updCr_frameErrs (s : State) (g : Core → Core) : (s.updCr g).frameErrs = s.frameErrs := rfl
@[simp] theorem State.updCr_firnHeld (s : State) (g : Core → Core) : (s.updCr g).firnHeld = s.firnHeld := rfl
@[simp] theorem State.updCr_launches (s : State) (g : Core → Core) : (s.updCr g).launches = s.launches := rfl
@[simp] theorem State.updCr_nextLaunch (s : State) (g : Core → Core) : (s.updCr g).nextLaunch = s.nextLaunch := rfl
@[simp] theorem State.updCr_bindings (s : State) (g : Core → Core) : (s.updCr g).bindings = s.bindings := rfl
@[simp] theorem State.updCr_subq (s : State) (g : Core → Core) : (s.updCr g).subq = s.subq := rfl
@[simp] theorem State.updCr_mgmt (s : State) (g : Core → Core) : (s.updCr g).mgmt = s.mgmt := rfl
@[simp] theorem State.updCr_invs (s : State) (g : Core → Core) : (s.updCr g).invs = s.invs := rfl
@[simp] theorem State.updCr_preempts (s : State) (g : Core → Core) : (s.updCr g).preempts = s.preempts := rfl
@[simp] theorem State.updCr_restores (s : State) (g : Core → Core) : (s.updCr g).restores = s.restores := rfl
@[simp] theorem State.updCr_images (s : State) (g : Core → Core) : (s.updCr g).images = s.images := rfl
@[simp] theorem State.updCr_evBacklog (s : State) (g : Core → Core) : (s.updCr g).evBacklog = s.evBacklog := rfl
@[simp] theorem State.updCr_evDropped (s : State) (g : Core → Core) : (s.updCr g).evDropped = s.evDropped := rfl
@[simp] theorem State.updCr_ringWaits (s : State) (g : Core → Core) : (s.updCr g).ringWaits = s.ringWaits := rfl
@[simp] theorem State.updCr_drift (s : State) (g : Core → Core) : (s.updCr g).drift = s.drift := rfl
@[simp] theorem State.updCr_logs (s : State) (g : Core → Core) : (s.updCr g).logs = s.logs := rfl
@[simp] theorem State.updCr_windows (s : State) (g : Core → Core) : (s.updCr g).windows = s.windows := rfl
@[simp] theorem State.updCr_recvLog (s : State) (g : Core → Core) : (s.updCr g).recvLog = s.recvLog := rfl
@[simp] theorem State.updCr_acted (s : State) (g : Core → Core) : (s.updCr g).acted = s.acted := rfl
@[simp] theorem State.updCr_nvme (s : State) (g : Core → Core) : (s.updCr g).nvme = s.nvme := rfl
@[simp] theorem State.updCr_packets (s : State) (g : Core → Core) : (s.updCr g).packets = s.packets := rfl
@[simp] theorem State.updCr_routes (s : State) (g : Core → Core) : (s.updCr g).routes = s.routes := rfl
@[simp] theorem State.updCr_selfPeer (s : State) (g : Core → Core) : (s.updCr g).selfPeer = s.selfPeer := rfl
@[simp] theorem State.updCr_spare (s : State) (g : Core → Core) : (s.updCr g).spare = s.spare := rfl
@[simp] theorem State.updCr_harts (s : State) (g : Core → Core) : (s.updCr g).harts = s.harts := rfl
@[simp] theorem State.updCr_boot (s : State) (g : Core → Core) : (s.updCr g).boot = s.boot := rfl
@[simp] theorem State.updCr_booted (s : State) (g : Core → Core) : (s.updCr g).booted = s.booted := rfl
@[simp] theorem State.updCr_keysLoaded (s : State) (g : Core → Core) : (s.updCr g).keysLoaded = s.keysLoaded := rfl
@[simp] theorem State.updCr_bootBad (s : State) (g : Core → Core) : (s.updCr g).bootBad = s.bootBad := rfl
@[simp] theorem State.updCr_islands (s : State) (g : Core → Core) : (s.updCr g).islands = s.islands := rfl
@[simp] theorem State.updCr_ageing (s : State) (g : Core → Core) : (s.updCr g).ageing = s.ageing := rfl
@[simp] theorem State.updCr_counts (s : State) (g : Core → Core) : (s.updCr g).counts = s.counts := rfl
@[simp] theorem State.updCr_factors (s : State) (g : Core → Core) : (s.updCr g).factors = s.factors := rfl
@[simp] theorem State.updCr_powerCap (s : State) (g : Core → Core) : (s.updCr g).powerCap = s.powerCap := rfl
@[simp] theorem State.updCr_replanH (s : State) (g : Core → Core) : (s.updCr g).replanH = s.replanH := rfl
@[simp] theorem State.updCr_replans (s : State) (g : Core → Core) : (s.updCr g).replans = s.replans := rfl
@[simp] theorem State.updCr_corrected (s : State) (g : Core → Core) : (s.updCr g).corrected = s.corrected := rfl
@[simp] theorem State.updCr_intDrops (s : State) (g : Core → Core) : (s.updCr g).intDrops = s.intDrops := rfl
@[simp] theorem State.updCr_freePool (s : State) (g : Core → Core) : (s.updCr g).freePool = s.freePool := rfl
@[simp] theorem State.updCr_condemned (s : State) (g : Core → Core) : (s.updCr g).condemned = s.condemned := rfl
@[simp] theorem State.updFl_fl (s : State) (g : Floe → Floe) : (s.updFl g).fl = g s.fl := Tab.getD_put_self _ _ _ _
@[simp] theorem State.updFl_blk (s : State) (g : Floe → Floe) : (s.updFl g).blk = s.blk := rfl
@[simp] theorem State.updFl_cr (s : State) (g : Floe → Floe) : (s.updFl g).cr = s.cr := rfl
@[simp] theorem State.updFl_lau (s : State) (g : Floe → Floe) : (s.updFl g).lau = s.lau := rfl
@[simp] theorem State.updBlk_fl (s : State) (g : Block → Block) : (s.updBlk g).fl = s.fl := rfl
@[simp] theorem State.updBlk_fg (s : State) (g : Block → Block) : (s.updBlk g).fg = s.fg := rfl
@[simp] theorem State.updBlk_blk (s : State) (g : Block → Block) : (s.updBlk g).blk = g s.blk := Tab.getD_put_self _ _ _ _
@[simp] theorem State.updBlk_cr (s : State) (g : Block → Block) : (s.updBlk g).cr = s.cr := rfl
@[simp] theorem State.updBlk_lanes (s : State) (g : Block → Block) : (s.updBlk g).lanes = s.lanes := rfl
@[simp] theorem State.updBlk_thread (s : State) (g : Block → Block) (l : Nat) : (s.updBlk g).thread l = s.thread l := rfl
@[simp] theorem State.updBlk_absReg (s : State) (g : Block → Block) (n : Nat) : (s.updBlk g).absReg n = s.absReg n := rfl
@[simp] theorem State.updBlk_S (s : State) (g : Block → Block) (n : Nat) : (s.updBlk g).S n = s.S n := rfl
@[simp] theorem State.updCr_fl (s : State) (g : Core → Core) : (s.updCr g).fl = s.fl := rfl
@[simp] theorem State.updCr_blk (s : State) (g : Core → Core) : (s.updCr g).blk = s.blk := rfl
@[simp] theorem State.updCr_cr (s : State) (g : Core → Core) : (s.updCr g).cr = g s.cr := Tab.getD_put_self _ _ _ _

/-! ## Registers -/

@[simp] theorem Floe.setS_S_self (fl : Floe) (n : Nat) (v : W64) : (fl.setS n v).S n = v := Tab.getD_set_self _ _ _ _
theorem Floe.setS_S_ne (fl : Floe) {n k : Nat} (v : W64) (h : k ≠ n) : (fl.setS n v).S k = fl.S k := Tab.getD_set_ne _ _ _ _ h
theorem Floe.setS_S (fl : Floe) (n k : Nat) (v : W64) : (fl.setS n v).S k = if k = n then v else fl.S k :=
  Tab.getD_set _ _ _ _ _
@[simp] theorem State.setS_fl (s : State) (n : Nat) (v : W64) : (s.setS n v).fl = s.fl.setS n v := Tab.getD_put_self _ _ _ _
theorem State.setS_S (s : State) (n k : Nat) (v : W64) : (s.setS n v).S k = if k = n then v else s.S k := by
  simp [State.S, Floe.setS_S]
@[simp] theorem Block.setReg_reg_self (b : Block) (t j : Nat) (v : W32) : (b.setReg t j v).reg t j = v := Tab.getD_set_self _ _ _ _
theorem Block.setReg_vregs_ne (b : Block) {t j k : Nat} (v : W32) (h : k ≠ b.regIdx t j) :
    (b.setReg t j v).vregs.getD k 0 = b.vregs.getD k 0 := Tab.getD_set_ne _ _ _ _ h
@[simp] theorem Block.setQueueAt_self (b : Block) (t q : Nat) (x : ThreadQueue) : (b.setQueueAt t q x).queueAt t q = x :=
  Tab.getD_set_self _ _ _ _
theorem Block.setQueueAt_ne (b : Block) {t q u r : Nat} (x : ThreadQueue) (h : u * 16 + r ≠ t * 16 + q) :
    (b.setQueueAt t q x).queueAt u r = b.queueAt u r := Tab.getD_set_ne _ _ _ _ h
theorem Block.setQueueAt_qents_ne (b : Block) {t q k : Nat} (x : ThreadQueue) (h : k ≠ t * 16 + q) :
    (b.setQueueAt t q x).qents.getD k ThreadQueue.empty = b.qents.getD k ThreadQueue.empty := Tab.getD_set_ne _ _ _ _ h
theorem Block.setPred_seven (b : Block) (t : Nat) (v : Bool) : b.setPred t 7 v = b := by simp [Block.setPred]
theorem Block.pred_seven (b : Block) (t : Nat) : b.pred t 7 = true := by simp [Block.pred]
theorem Block.setPred_pred_self (b : Block) (t k : Nat) (v : Bool) (h : k ≠ 7) : (b.setPred t k v).pred t k = v := by
  simp [Block.setPred, Block.pred, h]

end Sys2Proof.Machine
end

