-- ==== Sys2Proof/Laws/Retire.lean ====
section
/-!
SUPPORT. What retiring an instruction, waiting, and going on at a program counter change of a floe.
-/
namespace Sys2Proof.Machine

theorem Floe.updFrag_frame (fl : Floe) (id : Nat) (g : Fragment → Fragment) :
    fl.updFrag id g = { fl with frags := (fl.updFrag id g).frags } := rfl

theorem Floe.dropFrag_frame (fl : Floe) (id : Nat) : fl.dropFrag id = { fl with frags := (fl.dropFrag id).frags } := rfl

theorem Floe.mergeAt_frame (fl : Floe) (id : Nat) : fl.mergeAt id = { fl with frags := (fl.mergeAt id).frags } := by
  unfold Floe.mergeAt
  simp only
  split <;> rfl

theorem Floe.settleState_frame (fl : Floe) (now : Nat) :
    fl.settleState now = { fl with st := (fl.settleState now).st, readyAt := (fl.settleState now).readyAt } := by
  unfold Floe.settleState
  simp only
  split <;> first | rfl | (split <;> rfl)

/-- Going on at a program counter changes the fragments, the scheduling state and the ready time of a floe, nothing else. -/
theorem Floe.goTo_frame (fl : Floe) (id : Nat) (t : BitVec 18) (now : Nat) :
    fl.goTo id t now = { fl with frags := (fl.goTo id t now).frags, st := (fl.goTo id t now).st,
                                 readyAt := (fl.goTo id t now).readyAt } := by
  unfold Floe.goTo
  simp only
  split
  · rw [Floe.settleState_frame]; rfl
  · rw [Floe.settleState_frame, Floe.mergeAt_frame]; rfl

/-- Retiring touches only the floe that issues. -/
theorem State.retireFrag_frame (s : State) (f id len : Nat) :
    (s.retireFrag f id len).floe f = { s.floe f with
      frags := ((s.retireFrag f id len).floe f).frags, st := ((s.retireFrag f id len).floe f).st,
      readyAt := ((s.retireFrag f id len).floe f).readyAt } := by
  unfold State.retireFrag
  rw [State.updFloe_floe_self, Floe.goTo_frame]

theorem Floe.settleState_frags (fl : Floe) (now : Nat) : (fl.settleState now).frags = fl.frags := by
  rw [Floe.settleState_frame]

theorem Floe.frag_of_single {fl : Floe} {g : Fragment} (h : fl.frags = [g]) : fl.frag g.id = g := by
  simp [Floe.frag, h]

/-- An undivided floe with an empty mask stack and a live active lane goes on at the target. -/
theorem Floe.goTo_single {fl : Floe} {g : Fragment} (h : fl.frags = [g]) (hs : g.stack = []) (ha : g.active &&& fl.live = g.active)
    (hn : g.active ≠ 0) (t : BitVec 18) (now : Nat) :
    (fl.goTo g.id t now).frags = [{ g with pc := t, wait := .none, rb := none, left := none }] := by
  generalize hx : ({ g with pc := t, wait := .none, rb := none, left := none } : Fragment) = x
  have hset : x.settle fl.live = some x := by
    have hn' : ¬ g.active = 0#128 := hn
    subst hx; simp [Fragment.settle, hs, ha, hn']
  have hid : x.id = g.id := by subst hx; rfl
  unfold Floe.goTo
  simp only [Floe.settleState_frags]
  have h1 : (fl.updFrag g.id (fun y => { y with pc := t, wait := .none, rb := none, left := none })).frags = [x] := by
    simp [Floe.updFrag, h, hx]
  have h2 : (fl.updFrag g.id (fun y => { y with pc := t, wait := .none, rb := none, left := none })).frag g.id = x := by
    simp [Floe.frag, h1, hid]
  have h3 : (fl.updFrag g.id (fun y => { y with pc := t, wait := .none, rb := none, left := none })).live = fl.live := rfl
  rw [h2, h3, hset]
  have h4 : ((fl.updFrag g.id (fun y => { y with pc := t, wait := .none, rb := none, left := none })).updFrag g.id
      (fun _ => x)).frags = [x] := by
    simp [Floe.updFrag, h]
  unfold Floe.mergeAt
  simp [h4, hid]

end Sys2Proof.Machine
end

