-- ==== Sys2Proof/Laws/Block.lean ====
section
/-!
SUPPORT. What writing, popping and pushing do to the issuing block: register words, queue entries, predicates, and all else
unchanged.
-/
namespace Sys2Proof.Machine

/-! ## Lists -/

theorem mem_dedupe_aux {α : Type} [DecidableEq α] (l : List α) : ∀ (acc : List α) (x : α),
    x ∈ l.foldl (fun acc x => if x ∈ acc then acc else x :: acc) acc ↔ x ∈ acc ∨ x ∈ l := by
  induction l with
  | nil => simp
  | cons y l ih =>
    intro acc x
    simp only [List.foldl_cons, ih, List.mem_cons]
    split
    · rename_i h
      constructor
      · rintro (h1 | h1) <;> tauto
      · rintro (h1 | rfl | h1) <;> tauto
    · simp only [List.mem_cons]; tauto

@[simp] theorem mem_dedupe {α : Type} [DecidableEq α] (l : List α) (x : α) : x ∈ dedupe l ↔ x ∈ l := by
  simp [dedupe, mem_dedupe_aux]

theorem nodup_dedupe_aux {α : Type} [DecidableEq α] (l : List α) : ∀ acc : List α, acc.Nodup →
    (l.foldl (fun acc x => if x ∈ acc then acc else x :: acc) acc).Nodup := by
  induction l with
  | nil => intro acc h; exact h
  | cons y l ih =>
    intro acc h
    simp only [List.foldl_cons]
    apply ih
    split
    · exact h
    · rename_i hy; exact List.nodup_cons.2 ⟨hy, h⟩

theorem nodup_dedupe {α : Type} [DecidableEq α] (l : List α) : (dedupe l).Nodup := by
  simp only [dedupe, List.nodup_reverse]
  exact nodup_dedupe_aux l [] List.nodup_nil

theorem Mask.lanes_nodup (m : Mask) (w : Nat) : (Mask.lanes m w).Nodup := List.Nodup.filter _ List.nodup_range
theorem State.lanes_nodup (s : State) : s.lanes.Nodup := Mask.lanes_nodup _ _
theorem State.portsOf_nodup (s : State) (gs : List VGroup) : (s.portsOf gs).Nodup := nodup_dedupe _

/-- A port belongs to a queue of the sixteen. -/
theorem Floe.portOf_lt {fl : Floe} {j q : Nat} (h : fl.portOf j = some q) : q < 16 := by
  have := List.mem_of_find?_eq_some h
  simp only [Floe.queuesOn, upTo, List.mem_filter, List.mem_range] at this
  exact this.1
theorem State.portsOf_lt {s : State} {gs : List VGroup} {q : Nat} (h : q ∈ s.portsOf gs) : q < 16 := by
  simp only [State.portsOf, mem_dedupe, List.mem_filterMap] at h
  obtain ⟨j, _, hj⟩ := h
  exact Floe.portOf_lt hj

/-! ## Only the issuing block changes -/

/-- `t` differs from `s` in the issuing block alone. -/
structure BlkOnly (s t : State) : Prop where
  rest   : t = { s with blocks := t.blocks }
  others : ∀ b, b ≠ blockOf s.cur.floe → t.blocks.get? b = s.blocks.get? b

theorem BlkOnly.refl (s : State) : BlkOnly s s := ⟨rfl, fun _ _ => rfl⟩
theorem BlkOnly.cur {s t : State} (h : BlkOnly s t) : t.cur = s.cur := by rw [h.rest]
theorem BlkOnly.floes {s t : State} (h : BlkOnly s t) : t.floes = s.floes := by rw [h.rest]
theorem BlkOnly.now {s t : State} (h : BlkOnly s t) : t.now = s.now := by rw [h.rest]
theorem BlkOnly.fl {s t : State} (h : BlkOnly s t) : t.fl = s.fl := by
  unfold State.fl State.floe; rw [h.floes, h.cur]
theorem BlkOnly.fg {s t : State} (h : BlkOnly s t) : t.fg = s.fg := by
  unfold State.fg State.frag State.floe; rw [h.floes, h.cur]
theorem BlkOnly.trans {s t u : State} (h : BlkOnly s t) (k : BlkOnly t u) : BlkOnly s u where
  rest := by rw [k.rest, h.rest]
  others := fun b hb => by rw [k.others b (by rw [h.cur]; exact hb), h.others b hb]
theorem BlkOnly.updBlk (s : State) (g : Block → Block) : BlkOnly s (s.updBlk g) :=
  ⟨rfl, fun _ hb => Tab.get?_put_ne _ _ hb⟩

/-! ## Writing registers and pushing queues -/

/-- One register write on a block, as the floe's queues direct it. -/
def Block.vwrite (fl : Floe) (rb : Nat) (b : Block) (w : VWrite) : Block :=
  match fl.portOf (rb + w.n) with
  | some q => b.pushQ (fl.base + w.lane) q (fl.queue q).depth w.v
  | none => b.setReg (fl.base + w.lane) (rb + w.n) w.v

/-- The register number at which the issuing fragment's registers begin: RBASE, or what the instruction that waits read of it (R67). -/
def State.regBase (s : State) : Nat := (s.fg.rb.getD s.fl.rbase).toNat
theorem BlkOnly.regBase {s t : State} (h : BlkOnly s t) : t.regBase = s.regBase := by unfold State.regBase; rw [h.fg, h.fl]

theorem State.setV_eq (s : State) (w : VWrite) : s.setV w = s.updBlk (fun b => b.vwrite s.fl s.regBase w) := by
  unfold State.setV Block.vwrite State.absReg State.thread
  simp only
  show _ = s.updBlk _
  unfold State.regBase
  cases s.fl.portOf ((s.fg.rb.getD s.fl.rbase).toNat + w.n) <;> rfl

/-- A run of register writes changes the issuing block alone, write by write. -/
theorem State.setVs_spec (ws : List VWrite) : ∀ s : State,
    BlkOnly s (s.setVs ws) ∧ (s.setVs ws).blk = ws.foldl (Block.vwrite s.fl s.regBase) s.blk := by
  induction ws with
  | nil => intro s; exact ⟨BlkOnly.refl s, rfl⟩
  | cons w ws ih =>
    intro s
    have h1 : BlkOnly s (s.setV w) := by rw [State.setV_eq]; exact BlkOnly.updBlk _ _
    obtain ⟨h2, h3⟩ := ih (s.setV w)
    refine ⟨h1.trans h2, ?_⟩
    show ((s.setV w).setVs ws).blk = _
    rw [h3, h1.fl, h1.regBase, List.foldl_cons, State.setV_eq, State.updBlk_blk]

/-- The table key of the queue that a write pushes. -/
def VWrite.qkey (fl : Floe) (rb : Nat) (w : VWrite) : Option Nat :=
  (fl.portOf (rb + w.n)).map (fun q => (fl.base + w.lane) * 16 + q)
/-- The register word that a write names. -/
def VWrite.rkey (fl : Floe) (rb : Nat) (b : Block) (w : VWrite) : Nat := b.regIdx (fl.base + w.lane) (rb + w.n)

theorem Block.vwrite_frame (fl : Floe) (rb : Nat) (b : Block) (w : VWrite) :
    b.vwrite fl rb w = { b with vregs := (b.vwrite fl rb w).vregs, badRegs := (b.vwrite fl rb w).badRegs, qents := (b.vwrite fl rb w).qents } := by
  unfold Block.vwrite
  split <;> rfl

theorem Block.vwrites_frame (fl : Floe) (rb : Nat) (ws : List VWrite) : ∀ b : Block,
    ws.foldl (Block.vwrite fl rb) b = { b with
      vregs := (ws.foldl (Block.vwrite fl rb) b).vregs, badRegs := (ws.foldl (Block.vwrite fl rb) b).badRegs,
      qents := (ws.foldl (Block.vwrite fl rb) b).qents } := by
  induction ws with
  | nil => intro b; rfl
  | cons w ws ih =>
    intro b
    rw [List.foldl_cons, ih, Block.vwrite_frame]

theorem Block.vwrite_nregs (fl : Floe) (rb : Nat) (b : Block) (w : VWrite) : (b.vwrite fl rb w).nregs = b.nregs := by
  rw [Block.vwrite_frame]
theorem Block.vwrites_nregs (fl : Floe) (rb : Nat) (ws : List VWrite) (b : Block) : (ws.foldl (Block.vwrite fl rb) b).nregs = b.nregs := by
  rw [Block.vwrites_frame]

/-- The queue of a table key. -/
def Block.keyQ (b : Block) (k : Nat) : ThreadQueue := b.qents.getD k ThreadQueue.empty

theorem Block.keyQ_qent (b : Block) (t q : Nat) : b.qent t q = (b.keyQ (t * 16 + q)).vals := rfl
theorem ThreadQueue.push_vals (x : ThreadQueue) (d : Nat) (v : W32) : (x.push d v).vals = x.vals ++ [v] := by
  simp [ThreadQueue.push, ThreadQueue.vals]
theorem ThreadQueue.pop_vals (x : ThreadQueue) : x.pop.vals = x.vals.drop 1 := by
  unfold ThreadQueue.pop ThreadQueue.vals
  split <;> simp [*]

theorem Block.vwrite_keyQ_ne (fl : Floe) (rb : Nat) (b : Block) (w : VWrite) {k : Nat} (h : w.qkey fl rb ≠ some k) :
    (b.vwrite fl rb w).keyQ k = b.keyQ k := by
  unfold Block.vwrite VWrite.qkey at *
  split
  · rename_i q hq
    exact Tab.getD_set_ne _ _ _ _ (fun hk => h (by simp [hq, hk]))
  · rfl
theorem Block.vwrite_vals (fl : Floe) (rb : Nat) (b : Block) (w : VWrite) (k : Nat) :
    ((b.vwrite fl rb w).keyQ k).vals = (b.keyQ k).vals ++ (if w.qkey fl rb = some k then [w.v] else []) := by
  by_cases h : w.qkey fl rb = some k
  · rw [if_pos h]
    obtain ⟨q, hq, rfl⟩ := Option.map_eq_some_iff.1 h
    unfold Block.vwrite
    rw [hq]
    show ThreadQueue.vals (Tab.getD (Tab.set ..) ..) = _
    rw [Tab.getD_set_self]
    exact ThreadQueue.push_vals _ _ _
  · rw [if_neg h, Block.vwrite_keyQ_ne fl rb b w h, List.append_nil]

/-- A queue that no write of a run names is unchanged. -/
theorem Block.vwrites_keyQ_ne (fl : Floe) (rb : Nat) {k : Nat} (ws : List VWrite) : ∀ b : Block, (∀ w ∈ ws, w.qkey fl rb ≠ some k) →
    (ws.foldl (Block.vwrite fl rb) b).keyQ k = b.keyQ k := by
  induction ws with
  | nil => intro b _; rfl
  | cons w ws ih =>
    intro b h
    rw [List.foldl_cons, ih _ (fun x hx => h x (List.mem_cons_of_mem _ hx)), Block.vwrite_keyQ_ne _ _ _ _ (h w (List.mem_cons_self ..))]

/-- A run of writes leaves each queue's values followed by what was pushed to it. -/
theorem Block.vwrites_vals (fl : Floe) (rb : Nat) (k : Nat) (ws : List VWrite) : ∀ b : Block,
    ((ws.foldl (Block.vwrite fl rb) b).keyQ k).vals =
      (b.keyQ k).vals ++ ((ws.filter (fun w => w.qkey fl rb = some k)).map (fun w => w.v)) := by
  induction ws with
  | nil => intro b; simp
  | cons w ws ih =>
    intro b
    rw [List.foldl_cons, ih, Block.vwrite_vals]
    by_cases h : w.qkey fl rb = some k <;> simp [h]

theorem Block.vwrite_other (fl : Floe) (rb : Nat) (b : Block) (w : VWrite) {n : Nat} (h : n ≠ w.rkey fl rb b) :
    (b.vwrite fl rb w).vregs.getD n 0 = b.vregs.getD n 0 ∧ (n ∈ (b.vwrite fl rb w).badRegs ↔ n ∈ b.badRegs) := by
  unfold Block.vwrite
  split
  · exact ⟨rfl, Iff.rfl⟩
  · refine ⟨Tab.getD_set_ne _ _ _ _ h, ?_⟩
    simp only [Block.setReg, List.mem_filter, decide_not, Bool.not_eq_eq_eq_not, Bool.not_true, decide_eq_false_iff_not,
      and_iff_left_iff_imp]
    exact fun _ => h

/-- A register word that no write names is unchanged, and so is its poison. -/
theorem Block.vwrites_other (fl : Floe) (rb : Nat) {n : Nat} (ws : List VWrite) : ∀ b : Block, (∀ w ∈ ws, n ≠ w.rkey fl rb b) →
    (ws.foldl (Block.vwrite fl rb) b).vregs.getD n 0 = b.vregs.getD n 0 ∧
      (n ∈ (ws.foldl (Block.vwrite fl rb) b).badRegs ↔ n ∈ b.badRegs) := by
  induction ws with
  | nil => intro b _; exact ⟨rfl, Iff.rfl⟩
  | cons w ws ih =>
    intro b h
    have h1 := Block.vwrite_other fl rb b w (h w (List.mem_cons_self ..))
    have h2 := ih (b.vwrite fl rb w) (fun x hx => by
      have := h x (List.mem_cons_of_mem _ hx)
      unfold VWrite.rkey Block.regIdx at *
      rwa [Block.vwrite_nregs])
    rw [List.foldl_cons]
    exact ⟨h2.1.trans h1.1, h2.2.trans h1.2⟩

/-- Where the writes name different words, each word that is no port ends with its write. -/
theorem Block.vwrites_mem (fl : Floe) (rb : Nat) (ws : List VWrite) : ∀ b : Block,
    ws.Pairwise (fun x y => x.rkey fl rb b ≠ y.rkey fl rb b) → ∀ w ∈ ws, fl.portOf (rb + w.n) = none →
    (ws.foldl (Block.vwrite fl rb) b).vregs.getD (w.rkey fl rb b) 0 = w.v := by
  induction ws with
  | nil => intro b _ w hw; exact absurd hw (List.not_mem_nil)
  | cons x ws ih =>
    intro b hp w hw hport
    have hk (y : VWrite) : y.rkey fl rb (b.vwrite fl rb x) = y.rkey fl rb b := by
      unfold VWrite.rkey Block.regIdx; rw [Block.vwrite_nregs]
    rw [List.pairwise_cons] at hp
    rw [List.foldl_cons]
    rcases List.mem_cons.1 hw with rfl | hw
    · rw [(Block.vwrites_other fl rb ws (b.vwrite fl rb w) (fun y hy => by rw [hk]; exact hp.1 y hy)).1]
      unfold Block.vwrite
      rw [hport]
      exact Tab.getD_set_self _ _ _ _
    · rw [← hk]
      exact ih _ (by simpa only [hk] using hp.2) w hw hport

/-! ## Popping queues -/

/-- Pop the queue of one key. -/
def Block.popKey (b : Block) (k : Nat) : Block := { b with qents := b.qents.set ThreadQueue.empty k (b.keyQ k).pop }
/-- The keys that an instruction's sources pop. -/
def State.popKeys (s : State) (gs : List VGroup) : List Nat :=
  (s.portsOf gs).flatMap (fun q => s.lanes.map (fun l => s.thread l * 16 + q))

theorem State.popPort_spec (q : Nat) (f : State) (ls : List Nat) : ∀ s : State, s.fl = f.fl →
    BlkOnly s (ls.foldl (fun s l => s.updBlk (fun b => b.popQ (s.thread l) q)) s) ∧
    (ls.foldl (fun s l => s.updBlk (fun b => b.popQ (s.thread l) q)) s).blk =
      (ls.map (fun l => f.thread l * 16 + q)).foldl Block.popKey s.blk := by
  induction ls with
  | nil => intro s _; exact ⟨BlkOnly.refl s, rfl⟩
  | cons l ls ih =>
    intro s hs
    have h1 := BlkOnly.updBlk s (fun b => b.popQ (s.thread l) q)
    obtain ⟨h2, h3⟩ := ih _ (h1.fl.trans hs)
    refine ⟨h1.trans h2, ?_⟩
    rw [List.foldl_cons, h3, List.map_cons, List.foldl_cons, State.updBlk_blk]
    have : s.thread l = f.thread l := by unfold State.thread; rw [hs]
    rw [this]
    rfl

theorem State.popPorts_aux (f : State) (ps : List Nat) : ∀ s : State, s.fl = f.fl → s.lanes = f.lanes →
    BlkOnly s (ps.foldl (fun s q => s.lanes.foldl (fun s l =>
      s.updBlk (fun b => b.popQ (s.thread l) q)) s) s) ∧
    (ps.foldl (fun s q => s.lanes.foldl (fun s l =>
      s.updBlk (fun b => b.popQ (s.thread l) q)) s) s).blk =
      (ps.flatMap (fun q => f.lanes.map (fun l => f.thread l * 16 + q))).foldl Block.popKey s.blk := by
  induction ps with
  | nil => intro s _ _; exact ⟨BlkOnly.refl s, rfl⟩
  | cons q ps ih =>
    intro s hs hl
    obtain ⟨h1, h1'⟩ := State.popPort_spec q f s.lanes s hs
    obtain ⟨h2, h3⟩ := ih _ (h1.fl.trans hs) (by
      unfold State.lanes at *
      rw [h1.fg, h1.fl]; exact hl)
    refine ⟨h1.trans h2, ?_⟩
    rw [List.foldl_cons, h3, h1', List.flatMap_cons, List.foldl_append, hl]

/-- Popping changes the issuing block alone: one entry fewer at each key popped. -/
theorem State.popPorts_spec (s : State) (gs : List VGroup) :
    BlkOnly s (s.popPorts gs) ∧ (s.popPorts gs).blk = (s.popKeys gs).foldl Block.popKey s.blk :=
  State.popPorts_aux s (s.portsOf gs) s rfl rfl

theorem Block.popKeys_frame (ks : List Nat) : ∀ b : Block,
    ks.foldl Block.popKey b = { b with qents := (ks.foldl Block.popKey b).qents } := by
  induction ks with
  | nil => intro b; rfl
  | cons k ks ih => intro b; rw [List.foldl_cons, ih]; rfl

theorem Block.popKeys_keyQ (ks : List Nat) : ∀ b : Block, ks.Nodup → ∀ k,
    (ks.foldl Block.popKey b).keyQ k = if k ∈ ks then (b.keyQ k).pop else b.keyQ k := by
  induction ks with
  | nil => intro b _ k; simp
  | cons x ks ih =>
    intro b hn k
    rw [List.nodup_cons] at hn
    rw [List.foldl_cons, ih _ hn.2]
    simp only [Block.keyQ, Block.popKey, List.mem_cons, Tab.getD_set]
    by_cases hkx : k = x
    · subst hkx; simp [hn.1]
    · simp [hkx]

theorem State.popKeys_mem (s : State) (gs : List VGroup) (x q : Nat) (hq : q < 16) :
    x * 16 + q ∈ s.popKeys gs ↔ q ∈ s.portsOf gs ∧ ∃ l ∈ s.lanes, s.thread l = x := by
  simp only [State.popKeys, List.mem_flatMap, List.mem_map]
  constructor
  · rintro ⟨p, hp, l, hl, h⟩
    have := State.portsOf_lt hp
    have h1 : p = q := by omega
    have h2 : s.thread l = x := by omega
    exact ⟨h1 ▸ hp, l, hl, h2⟩
  · rintro ⟨hp, l, hl, rfl⟩
    exact ⟨q, hp, l, hl, rfl⟩

theorem State.thread_inj (s : State) {a b : Nat} (h : s.thread a = s.thread b) : a = b := by
  unfold State.thread at h; omega

theorem State.popKeys_nodup (s : State) (gs : List VGroup) : (s.popKeys gs).Nodup := by
  unfold State.popKeys
  rw [List.nodup_flatMap]
  refine ⟨fun q _ => ?_, ?_⟩
  · refine (List.nodup_map_iff_inj_on s.lanes_nodup).2 (fun a _ b _ h => s.thread_inj (by omega))
  · have hp := s.portsOf_nodup gs
    refine (List.Pairwise.imp_of_mem ?_ hp)
    intro p q hp hq hne
    simp only [Function.onFun, List.disjoint_left, List.mem_map, not_exists, not_and]
    rintro _ ⟨l, _, rfl⟩ m _
    have := State.portsOf_lt hp
    have := State.portsOf_lt hq
    omega

end Sys2Proof.Machine
end

