-- ==== Sys2Proof/Laws/Effect.lean ====
section
/-!
SUPPORT. The shared bodies of floe instructions, seen as effects: what their checks pass, and that pops, writes and retiring leave
what an effect says.
-/
namespace Sys2Proof.Claims
open Sys2Proof.Machine

theorem OnlyOwn.refl (s : State) : OnlyOwn s s := ⟨rfl, fun _ _ => rfl, fun _ _ => rfl⟩
theorem OnlyOwn.ofBlk {s t : State} (h : BlkOnly s t) : OnlyOwn s t :=
  ⟨by rw [h.rest], fun f _ => by rw [h.floes], h.others⟩
theorem OnlyOwn.cur {s t : State} (h : OnlyOwn s t) : t.cur = s.cur := by rw [h.rest]
theorem OnlyOwn.now {s t : State} (h : OnlyOwn s t) : t.now = s.now := by rw [h.rest]
theorem OnlyOwn.trans {s t u : State} (h : OnlyOwn s t) (k : OnlyOwn t u) : OnlyOwn s u where
  rest := by rw [k.rest, h.rest]
  floes := fun f hf => by rw [k.floes f (by rw [h.cur]; exact hf), h.floes f hf]
  blocks := fun b hb => by rw [k.blocks b (by rw [h.cur]; exact hb), h.blocks b hb]
theorem OnlyOwn.updFl (s : State) (g : Floe → Floe) : OnlyOwn s (s.updFl g) :=
  ⟨rfl, fun _ hf => Tab.get?_put_ne _ _ hf, fun _ _ => rfl⟩

/-- What the body of an instruction leaves before it retires: an effect without the retiring. -/
structure BodyAfter (s : State) (e : Effect) (u : State) : Prop where
  own        : OnlyOwn s u
  regs       : ∀ l ∈ s.lanes, ∀ w ∈ e.vec l, s.fl.portOf (s.absReg w.1) = none →
    u.blk.reg (s.thread l) (s.absReg w.1) = w.2
  otherRegs  : ∀ n, (∀ l ∈ s.lanes, ∀ w ∈ e.vec l, n ≠ s.blk.regIdx (s.thread l) (s.absReg w.1)) →
    u.blk.vregs.getD n 0 = s.blk.vregs.getD n 0 ∧ (n ∈ u.blk.badRegs ↔ n ∈ s.blk.badRegs)
  queues     : ∀ l ∈ s.lanes, ∀ q < 16, u.blk.qent (s.thread l) q = popped s e.srcs l q ++ pushed s e l q
  otherQueues : ∀ x, ∀ q < 16, (∀ l ∈ s.lanes, x = s.thread l → q ∉ s.portsOf e.srcs ∧ pushed s e l q = []) →
    u.blk.queueAt x q = s.blk.queueAt x q
  preds      : e.pnum ≠ 7 → ∀ w ∈ e.pred, u.blk.pred (s.thread w.1) e.pnum = w.2
  otherPreds : ∀ x k, k < 8 → (e.pnum = 7 ∨ ∀ w ∈ e.pred, ¬(x = s.thread w.1 ∧ k = e.pnum)) →
    u.blk.pred x k = s.blk.pred x k
  block      : u.blk = { s.blk with vregs := u.blk.vregs, badRegs := u.blk.badRegs, qents := u.blk.qents, preds := u.blk.preds }
  unis       : ∀ n, u.S n = uniAfter s e n
  floe       : u.fl = { s.fl with sregs := u.fl.sregs, stoch := s.fl.stoch + e.stoch }

/-- Retiring turns what the body leaves into the effect. -/
theorem BodyAfter.retire {s : State} {e : Effect} {u : State} (h : BodyAfter s e u) :
    After s e (u.retireFrag s.cur.floe s.cur.frag e.len) := by
  have hc := h.own.cur
  set t := u.retireFrag s.cur.floe s.cur.frag e.len with ht
  have hown : OnlyOwn u t := by
    rw [ht, ← hc]
    exact OnlyOwn.updFl u _
  have hblk : t.blk = u.blk := rfl
  have hfl : t.fl = { u.fl with frags := t.fl.frags, st := t.fl.st, readyAt := t.fl.readyAt } := by
    have := State.retireFrag_frame u s.cur.floe s.cur.frag e.len
    unfold State.fl
    rw [hown.cur, hc]
    exact this
  have hS (n : Nat) : t.S n = u.S n := by
    unfold State.S; rw [hfl]; rfl
  refine ⟨h.own.trans hown, ?_, ?_, ?_, ?_, ?_, ?_, ?_, ?_, ?_, ?_⟩
  · rw [hblk]; exact h.regs
  · rw [hblk]; exact h.otherRegs
  · rw [hblk]; exact h.queues
  · rw [hblk]; exact h.otherQueues
  · rw [hblk]; exact h.preds
  · rw [hblk]; exact h.otherPreds
  · rw [hblk]; exact h.block
  · intro n; rw [hS]; exact h.unis n
  · rw [hfl, h.floe]
  · intro h1 h2 h3 h4
    have hid : s.fg.id = s.cur.frag := by
      by_contra hne
      have : s.fg = Fragment.reset := by
        show ((s.fl.frags.find? (fun g => g.id = s.cur.frag)).getD Fragment.reset) = _
        rw [h1]; simp [hne]
      rw [this] at h4
      exact h4 rfl
    have hfr : u.fl.frags = [s.fg] := by rw [h.floe]; exact h1
    have hlive : u.fl.live = s.fl.live := by rw [h.floe]
    have hgo : t.fl.frags = [{ s.fg with pc := nextPc s.fg.pc e.len, wait := .none, rb := none, left := none }] := by
      have hfg : (u.floe s.cur.floe).frag s.cur.frag = s.fg := by
        have h5 := Floe.frag_of_single hfr
        rw [hid] at h5
        unfold State.fl at h5; rw [hc] at h5; exact h5
      have h6 := Floe.goTo_single (fl := u.fl) hfr h2 (by rw [hlive]; exact h3) h4 (nextPc s.fg.pc e.len) u.now
      unfold State.fl at h6 ⊢
      rw [hown.cur]
      rw [hc] at h6 ⊢
      rw [ht]; unfold State.retireFrag
      rw [State.updFloe_floe_self, hfg, ← hid]
      exact h6
    show (t.fl.frag t.cur.frag).pc = _
    rw [hown.cur, hc]
    simp [Floe.frag, hgo, hid, nextPc]

/-! ## The checks -/

theorem worstStop_none {l : List (Option QueueStop)} (h : ∀ x ∈ l, x = none) : worstStop l = none := by
  unfold worstStop
  split
  · rename_i x hx; exact h x (List.mem_of_find?_eq_some hx)
  · cases hf : l.find? (fun x => x.isSome) with
    | none => rfl
    | some x => simpa using h x (List.mem_of_find?_eq_some hf)

theorem State.mem_absRegs {s : State} {gs : List VGroup} {j : Nat} :
    j ∈ s.absRegs gs ↔ ∃ g ∈ gs, ∃ i < g.count, s.absReg (g.n + i) = j := by
  simp only [State.absRegs, upTo, List.mem_flatten, List.mem_map]
  constructor
  · rintro ⟨l, ⟨g, hg, rfl⟩, hj⟩
    simp only [List.mem_map, List.mem_range] at hj
    obtain ⟨i, hi, rfl⟩ := hj
    exact ⟨g, hg, i, hi, rfl⟩
  · rintro ⟨g, hg, i, hi, rfl⟩
    exact ⟨_, ⟨g, hg, rfl⟩, List.mem_map.2 ⟨i, List.mem_range.2 hi, rfl⟩⟩

/-- Where an instruction can run, its checks pass. -/
theorem CanRun.gate {s : State} {e : Effect} (h : CanRun s e) {nine conflict : Bool} (hn : nine = false)
    (hc : conflict = false) : s.gate e.srcs e.dsts nine conflict = none := by
  subst hn hc
  unfold State.gate
  have h1 : s.groupBad (e.srcs ++ e.dsts) = false := by
    simp only [State.groupBad, List.any_eq_false]
    intro g hg
    have := h.inRange g hg
    simp [this.2, this.1]
  have h2 : s.namesBacking (e.srcs ++ e.dsts) = false := by
    simp only [State.namesBacking, List.any_eq_false]
    intro j hj
    obtain ⟨g, hg, i, hi, rfl⟩ := State.mem_absRegs.1 hj
    simp [h.noBacking g hg i hi]
  have h3 : worstStop ((s.portsOf e.srcs).map (fun q => s.popStop q) ++
      (s.portsOf e.dsts).map (fun q => s.pushStop (s.portsOf e.srcs) q)) = none := by
    apply worstStop_none
    intro x hx
    rw [List.mem_append, List.mem_map, List.mem_map] at hx
    rcases hx with ⟨q, hq, rfl⟩ | ⟨q, hq, rfl⟩
    · have : (s.lanes.any fun l => (s.blk.qent (s.thread l) q).isEmpty) = false := by
        rw [List.any_eq_false]
        intro l hl
        simpa using h.hasEntry q hq l hl
      simp [State.popStop, this]
    · have hr := h.hasRoom q hq
      have : (s.lanes.any fun l => decide ((s.fl.queue q).depth ≤
          (s.blk.qent (s.thread l) q).length - bit01 (decide (q ∈ s.portsOf e.srcs)))) = false := by
        rw [List.any_eq_false]
        intro l hl
        have := hr.2 l hl
        unfold popped at this
        split at this
        · rename_i hp; simp only [hp, decide_true, bit01, if_true]; simp at this ⊢; omega
        · rename_i hp; simp only [hp, decide_false, bit01]; simp at this ⊢; omega
      simp [State.pushStop, hr.1, this]
  have h4 : s.lanes.any (fun l => s.operandBad e.srcs l) = false := by
    rw [List.any_eq_false]
    intro l hl
    simp [h.clean l hl]
  simp [State.gateForm, h1, h2, h3, h4]

/-! ## Bodies -/

/-- The writes of an effect. -/
def Effect.writes (s : State) (e : Effect) : List VWrite :=
  (s.lanes.map (fun l => (e.vec l).map (fun w => (⟨w.1, l, w.2⟩ : VWrite)))).flatten

/-- The registers that an effect writes in a lane differ, and are those of its destinations. -/
structure WritesOk (s : State) (e : Effect) : Prop where
  differ : ∀ l ∈ s.lanes, (e.vec l).Pairwise (fun x y => x.1 ≠ y.1)
  named  : ∀ l ∈ s.lanes, ∀ w ∈ e.vec l, ∃ g ∈ e.dsts, ∃ i < g.count, w.1 = g.n + i

theorem Effect.mem_writes {s : State} {e : Effect} {w : VWrite} :
    w ∈ e.writes s ↔ w.lane ∈ s.lanes ∧ (w.n, w.v) ∈ e.vec w.lane := by
  simp only [Effect.writes, List.mem_flatten, List.mem_map]
  constructor
  · rintro ⟨_, ⟨l, hl, rfl⟩, hw⟩
    simp only [List.mem_map] at hw
    obtain ⟨x, hx, rfl⟩ := hw
    exact ⟨hl, hx⟩
  · rintro ⟨hl, hw⟩
    exact ⟨_, ⟨w.lane, hl, rfl⟩, List.mem_map.2 ⟨_, hw, rfl⟩⟩

/-- A destination lies below N. -/
theorem CanRun.below {s : State} {e : Effect} (h : CanRun s e) (hw : WritesOk s e) {l : Nat} (hl : l ∈ s.lanes)
    {w : Nat × W32} (hm : w ∈ e.vec l) : s.absReg w.1 < s.blk.nregs := by
  obtain ⟨g, hg, i, hi, h1⟩ := hw.named l hl w hm
  have := (h.inRange g (List.mem_append_right _ hg)).1
  unfold State.absReg at *
  omega

theorem regIdx_inj {b : Block} {t u j k : Nat} (hj : j < b.nregs) (hk : k < b.nregs) (h : b.regIdx t j = b.regIdx u k) :
    t = u ∧ j = k := by
  unfold Block.regIdx at h
  have h1 : t = u := by
    have a := Nat.add_mul_div_left j t (Nat.lt_of_le_of_lt (Nat.zero_le _) hj)
    have b' := Nat.add_mul_div_left k u (Nat.lt_of_le_of_lt (Nat.zero_le _) hk)
    rw [Nat.div_eq_of_lt hj] at a
    rw [Nat.div_eq_of_lt hk] at b'
    rw [Nat.mul_comm t, Nat.mul_comm u, Nat.add_comm, Nat.add_comm _ k] at h
    rw [h] at a
    omega
  subst h1
  exact ⟨rfl, by omega⟩

theorem Effect.writes_pairwise {s : State} {e : Effect} (h : CanRun s e) (hw : WritesOk s e) :
    (e.writes s).Pairwise (fun x y => x.rkey s.fl s.regBase s.blk ≠ y.rkey s.fl s.regBase s.blk) := by
  unfold Effect.writes
  rw [List.pairwise_flatten]
  constructor
  · intro ws hws
    obtain ⟨l, hl, rfl⟩ := List.mem_map.1 hws
    rw [List.pairwise_map]
    refine List.Pairwise.imp_of_mem ?_ (hw.differ l hl)
    intro x y hx hy hne heq
    have := (regIdx_inj (h.below hw hl hx) (h.below hw hl hy) heq).2
    exact hne (by unfold State.absReg at this; omega)
  · rw [List.pairwise_map]
    refine List.Pairwise.imp_of_mem ?_ s.lanes_nodup
    intro a b ha hb hne x hx y hy heq
    obtain ⟨x', hx', rfl⟩ := List.mem_map.1 hx
    obtain ⟨y', hy', rfl⟩ := List.mem_map.1 hy
    have := (regIdx_inj (h.below hw ha hx') (h.below hw hb hy') heq).1
    exact hne (s.thread_inj this)

/-- The pushes of one lane's queue among all the writes. -/
theorem Effect.pushes {s : State} (e : Effect) {l q : Nat} (hl : l ∈ s.lanes) (hq : q < 16) :
    ((e.writes s).filter (fun w => w.qkey s.fl s.regBase = some (s.thread l * 16 + q))).map (fun w => w.v) = pushed s e l q := by
  have key : ∀ ls : List Nat, ls.Nodup →
      ((ls.map (fun l => (e.vec l).map (fun w => (⟨w.1, l, w.2⟩ : VWrite)))).flatten.filter
        (fun w => w.qkey s.fl s.regBase = some (s.thread l * 16 + q))).map (fun w => w.v) =
      if l ∈ ls then pushed s e l q else [] := by
    intro ls
    induction ls with
    | nil => intro _; rfl
    | cons a ls ih =>
      intro hn
      rw [List.nodup_cons] at hn
      rw [List.map_cons, List.flatten_cons, List.filter_append, List.map_append, ih hn.2]
      have hone : (((e.vec a).map (fun w => (⟨w.1, a, w.2⟩ : VWrite))).filter
          (fun w => w.qkey s.fl s.regBase = some (s.thread l * 16 + q))).map (fun w => w.v) = if l = a then pushed s e l q else [] := by
        rw [List.filter_map, List.map_map]
        have hcond : ∀ w : Nat × W32, (decide ((⟨w.1, a, w.2⟩ : VWrite).qkey s.fl s.regBase = some (s.thread l * 16 + q))) =
            (decide (l = a) && decide (s.fl.portOf (s.absReg w.1) = some q)) := by
          intro w
          rw [show s.absReg w.1 = s.regBase + w.1 from rfl]
          unfold VWrite.qkey State.thread
          dsimp only
          cases hp : s.fl.portOf (s.regBase + w.1) with
          | none => simp
          | some p =>
            have hp' := Floe.portOf_lt hp
            have hiff : (s.fl.base + a) * 16 + p = (s.fl.base + l) * 16 + q ↔ l = a ∧ p = q := by
              constructor
              · intro h; constructor <;> omega
              · rintro ⟨rfl, rfl⟩; rfl
            simp only [Option.map_some, Option.some.injEq, hiff, Bool.decide_and]
        split
        · rename_i hla
          subst hla
          unfold pushed
          have : ((fun w : VWrite => decide (w.qkey s.fl s.regBase = some (s.thread l * 16 + q))) ∘
              fun w : Nat × W32 => (⟨w.1, l, w.2⟩ : VWrite)) = fun w => decide (s.fl.portOf (s.absReg w.1) = some q) := by
            funext w
            simpa using hcond w
          rw [this]
          rfl
        · rename_i hla
          rw [List.map_eq_nil_iff, List.filter_eq_nil_iff]
          intro w _
          simp only [Function.comp, hcond w, hla]
          simp
      rw [hone]
      by_cases hla : l = a
      · subst hla; simp [hn.1]
      · simp [hla]
  have := key s.lanes s.lanes_nodup
  rw [if_pos hl] at this
  exact this

theorem Effect.no_pushes {s : State} (e : Effect) {x q : Nat} (hq : q < 16) (hx : ∀ l ∈ s.lanes, x = s.thread l → pushed s e l q = []) :
    ∀ w ∈ e.writes s, w.qkey s.fl s.regBase ≠ some (x * 16 + q) := by
  intro w hw h
  obtain ⟨hl, hm⟩ := Effect.mem_writes.1 hw
  obtain ⟨p, hp, hk⟩ := Option.map_eq_some_iff.1 h
  have hp' := Floe.portOf_lt hp
  have hpq : p = q := by omega
  have hxl : x = s.thread w.lane := by unfold State.thread; omega
  have := hx _ hl hxl
  unfold pushed at this
  rw [List.map_eq_nil_iff, List.filter_eq_nil_iff] at this
  exact this _ hm (by rw [← hpq]; exact decide_eq_true hp)

/-- What pops leave in a queue of an active lane. -/
theorem popped_keyQ (s : State) (gs : List VGroup) {l q : Nat} (hl : l ∈ s.lanes) (hq : q < 16) :
    popped s gs l q = (if s.thread l * 16 + q ∈ s.popKeys gs then (s.blk.keyQ (s.thread l * 16 + q)).pop
      else s.blk.keyQ (s.thread l * 16 + q)).vals := by
  unfold popped
  by_cases h : q ∈ s.portsOf gs
  · rw [if_pos ((s.popKeys_mem gs _ q hq).2 ⟨h, l, hl, rfl⟩), if_pos h, ThreadQueue.pop_vals]
    rfl
  · rw [if_neg (fun hc => h ((s.popKeys_mem gs _ q hq).1 hc).1), if_neg h]
    rfl

/-- Predicates written in lanes of a block. -/
def predWrites (base k : Nat) (ws : List (Nat × Bool)) (b : Block) : Block := ws.foldl (fun b w => b.setPred (base + w.1) k w.2) b

theorem predWrites_frame (base k : Nat) (ws : List (Nat × Bool)) : ∀ b : Block,
    predWrites base k ws b = { b with preds := (predWrites base k ws b).preds } := by
  induction ws with
  | nil => intro b; rfl
  | cons w ws ih =>
    intro b
    show predWrites base k ws (b.setPred (base + w.1) k w.2) = { b with preds := (predWrites base k ws (b.setPred (base + w.1) k w.2)).preds }
    rw [ih]
    unfold Block.setPred
    split <;> rfl

theorem setPred_pred_ne (b : Block) {t k x j : Nat} (v : Bool) (hk : k < 8) (hj : j < 8) (h : ¬(x = t ∧ j = k)) :
    (b.setPred t k v).pred x j = b.pred x j := by
  unfold Block.setPred
  split
  · rfl
  · unfold Block.pred
    have : x * 8 + j ≠ t * 8 + k := by omega
    rw [Tab.getD_set_ne _ _ _ _ this]

theorem predWrites_other (base k : Nat) (hk : k < 8) {x j : Nat} (hj : j < 8) (ws : List (Nat × Bool)) : ∀ b : Block,
    (k = 7 ∨ ∀ w ∈ ws, ¬(x = base + w.1 ∧ j = k)) → (predWrites base k ws b).pred x j = b.pred x j := by
  induction ws with
  | nil => intro b _; rfl
  | cons w ws ih =>
    intro b h
    show (predWrites base k ws (b.setPred (base + w.1) k w.2)).pred x j = _
    rw [ih _ (h.imp id (fun h w' hw' => h w' (List.mem_cons_of_mem _ hw')))]
    rcases h with rfl | h
    · rw [Block.setPred_seven]
    · exact setPred_pred_ne b w.2 hk hj (h w (List.mem_cons_self ..))

theorem predWrites_mem (base k : Nat) (hk : k < 7) (ws : List (Nat × Bool)) : ∀ b : Block,
    (ws.map (fun w => w.1)).Nodup → ∀ w ∈ ws, (predWrites base k ws b).pred (base + w.1) k = w.2 := by
  induction ws with
  | nil => intro b _ w hw; exact absurd hw (List.not_mem_nil)
  | cons x ws ih =>
    intro b hn w hw
    rw [List.map_cons, List.nodup_cons] at hn
    show (predWrites base k ws (b.setPred (base + x.1) k x.2)).pred (base + w.1) k = _
    rcases List.mem_cons.1 hw with rfl | hw
    · rw [predWrites_other base k (by omega) (by omega) ws _ (.inr ?_)]
      · exact Block.setPred_pred_self _ _ _ _ (by omega)
      · rintro y hy ⟨h1, _⟩
        apply hn.1
        have : w.1 = y.1 := by omega
        exact this ▸ List.mem_map_of_mem hy
    · exact ih _ hn.2 w hw

/-- Popping, writing registers and writing a predicate leave the effect's registers, queues and predicates. -/
theorem vec_body {s : State} {e : Effect} (h : CanRun s e) (hw : WritesOk s e) (hu : e.uni = []) (hk : e.pnum < 8)
    (hn : (e.pred.map (fun w => w.1)).Nodup) (hs : e.stoch = 0) {u : State}
    (hB : BlkOnly ((s.popPorts e.srcs).setVs (e.writes s)) u)
    (hu2 : u.blk = predWrites s.fl.base e.pnum e.pred ((s.popPorts e.srcs).setVs (e.writes s)).blk) : BodyAfter s e u := by
  obtain ⟨p1, p2⟩ := State.popPorts_spec s e.srcs
  obtain ⟨w1, w2⟩ := State.setVs_spec (e.writes s) (s.popPorts e.srcs)
  have hB0 := p1.trans w1
  set v := (s.popPorts e.srcs).setVs (e.writes s)
  replace hB : BlkOnly s u := hB0.trans hB
  have hu3 := predWrites_frame s.fl.base e.pnum e.pred v.blk
  rw [← hu2] at hu3
  have hv1 : u.blk.vregs = v.blk.vregs := by rw [hu3]
  have hv2 : u.blk.badRegs = v.blk.badRegs := by rw [hu3]
  have hv3 : u.blk.qents = v.blk.qents := by rw [hu3]
  rw [p1.fl, p1.regBase, p2] at w2
  have hpop := Block.popKeys_frame (s.popKeys e.srcs) s.blk
  set b1 := (s.popKeys e.srcs).foldl Block.popKey s.blk with hb1
  have hnr : b1.nregs = s.blk.nregs := by rw [hpop]
  have hrk (w : VWrite) : w.rkey s.fl s.regBase b1 = w.rkey s.fl s.regBase s.blk := by unfold VWrite.rkey Block.regIdx; rw [hnr]
  have hvr : b1.vregs = s.blk.vregs := by rw [hpop]
  have hbr : b1.badRegs = s.blk.badRegs := by rw [hpop]
  have hvb : v.blk = { s.blk with vregs := v.blk.vregs, badRegs := v.blk.badRegs, qents := v.blk.qents } := by
    rw [w2, Block.vwrites_frame, hpop]
  have hblk : u.blk = { s.blk with vregs := u.blk.vregs, badRegs := u.blk.badRegs, qents := u.blk.qents, preds := u.blk.preds } := by
    rw [hv1, hv2, hv3]
    rw [hu3, hvb]
  have hreg (t j : Nat) : u.blk.regIdx t j = s.blk.regIdx t j := by rw [hblk]; rfl
  have hpreds (x k : Nat) : v.blk.pred x k = s.blk.pred x k := by rw [hvb]; rfl
  refine ⟨OnlyOwn.ofBlk hB, ?_, ?_, ?_, ?_, ?_, ?_, hblk, ?_, ?_⟩
  · intro l hl w hm hport
    show u.blk.vregs.getD (u.blk.regIdx _ _) 0 = _
    rw [hreg, hv1, w2]
    have hmem : (⟨w.1, l, w.2⟩ : VWrite) ∈ e.writes s := Effect.mem_writes.2 ⟨hl, hm⟩
    have := Block.vwrites_mem s.fl s.regBase (e.writes s) b1 (by simp only [hrk]; exact Effect.writes_pairwise h hw) _ hmem hport
    rw [hrk] at this
    exact this
  · intro n hn
    have := Block.vwrites_other s.fl s.regBase (n := n) (e.writes s) b1 (by
      intro w hm
      rw [hrk]
      obtain ⟨hl, hx⟩ := Effect.mem_writes.1 hm
      exact hn _ hl _ hx)
    rw [← w2, hvr, hbr] at this
    rw [hv1, hv2]
    exact this
  · intro l hl q hq
    rw [Block.keyQ_qent, Block.keyQ, hv3, ← Block.keyQ, w2, Block.vwrites_vals, Effect.pushes e hl hq, hb1,
      Block.popKeys_keyQ _ _ (s.popKeys_nodup _)]
    congr 1
    rw [popped_keyQ s e.srcs hl hq]
  · intro x q hq hx
    show u.blk.keyQ _ = _
    rw [Block.keyQ, hv3, ← Block.keyQ, w2, Block.vwrites_keyQ_ne _ _ _ _ (Effect.no_pushes e hq (fun l hl h => (hx l hl h).2)), hb1,
      Block.popKeys_keyQ _ _ (s.popKeys_nodup _),
      if_neg (fun hc => by obtain ⟨hq', l, hl, h1⟩ := (s.popKeys_mem e.srcs _ q hq).1 hc; exact (hx l hl h1.symm).1 hq')]
    rfl
  · intro h7 w hm
    rw [hu2]
    exact predWrites_mem s.fl.base e.pnum (by omega) e.pred v.blk hn w hm
  · intro x k hk8 hc
    rw [hu2, predWrites_other s.fl.base e.pnum hk hk8 e.pred v.blk hc, hpreds]
  · intro n
    unfold uniAfter State.S
    rw [hB.fl, hu]
    rfl
  · rw [hB.fl, hs]
    simp

/-- What a body leaves, with uniform registers written after it. -/
theorem BodyAfter.setS {s : State} {e : Effect} {u : State} (h : BodyAfter s e u) (n : Nat) (v : W64)
    (hn : e.uni.find? (fun w => w.1 = n) = none) : BodyAfter s { e with uni := e.uni ++ [(n, v)] } (u.setS n v) := by
  have hS : (u.setS n v).blk = u.blk := rfl
  refine ⟨h.own.trans (OnlyOwn.updFl u _), h.regs, h.otherRegs, h.queues, h.otherQueues, h.preds, h.otherPreds, h.block, ?_, ?_⟩
  · intro k
    rw [State.setS_S, h.unis]
    unfold uniAfter
    simp only [List.find?_append]
    by_cases hk : k = n
    · subst hk; simp [hn]
    · simp [hk, Ne.symm hk]
  · rw [State.setS_fl, h.floe]
    rfl

/-- What a body leaves, with `STOCHCTR` gone on. -/
theorem BodyAfter.count {s : State} {e : Effect} {u : State} (h : BodyAfter s e u) (he : e.stoch = 0) (n : W32) :
    BodyAfter s { e with stoch := n } (u.updFl (fun fl => { fl with stoch := fl.stoch + n })) := by
  refine ⟨h.own.trans (OnlyOwn.updFl u _), h.regs, h.otherRegs, h.queues, h.otherQueues, h.preds, h.otherPreds, h.block, ?_, ?_⟩
  · intro k
    have := h.unis k
    unfold State.S at *
    rw [State.updFl_fl]
    exact this
  · rw [State.updFl_fl, h.floe, he]
    simp

/-- An instruction that does nothing but retire. -/
theorem nothing_body (s : State) (e : Effect) (hv : e.vec = fun _ => []) (hu : e.uni = []) (hp : e.pred = []) (hsrc : e.srcs = [])
    (hs : e.stoch = 0) : BodyAfter s e s := by
  refine ⟨OnlyOwn.refl s, ?_, ?_, ?_, ?_, ?_, ?_, rfl, ?_, ?_⟩
  · intro l _ w hw; rw [hv] at hw; exact absurd hw (List.not_mem_nil)
  · intro n _; exact ⟨rfl, Iff.rfl⟩
  · intro l _ q _
    unfold popped pushed
    rw [hv, hsrc]
    simp [State.portsOf, State.absRegs, dedupe]
  · intro x q _ _; rfl
  · rw [hp]; intro _ w hw; exact absurd hw (List.not_mem_nil)
  · intro x k _ _; rfl
  · intro n; unfold uniAfter; rw [hu]; rfl
  · rw [hs]; simp

/-- An effect without vector results writes no register word. -/
theorem writes_nil {s : State} {e : Effect} (h : e.vec = fun _ => []) : e.writes s = [] := by
  unfold Effect.writes
  rw [h]
  simp

/-! ## From bodies to instructions -/

/-- An instruction whose body goes on completes in its effect. -/
theorem completes_of_body {i : Instr} {s : State} {e : Effect} {body : State → Res} {u : State}
    (hx : exec i s = floeOp i s body) (hb : body s = .go u) (hu : BodyAfter s e u) (hl : i.halfwords * 2 = e.len) :
    Completes i s (After s e) := by
  refine ⟨_, hx, ?_⟩
  rw [hb]
  show After s e (u.retireFrag s.cur.floe s.cur.frag (i.halfwords * 2))
  rw [hl]
  exact hu.retire

/-- The writes that a vector body computes are those of an effect. -/
theorem writes_of {s : State} {e : Effect} {f : Nat → List VWrite} (hf : ∀ l, f l = (e.vec l).map (fun w => ⟨w.1, l, w.2⟩)) :
    (s.lanes.map (fun l => f l)).flatten = e.writes s := by
  unfold Effect.writes
  congr 1
  exact List.map_congr_left (fun l _ => hf l)

/-- A vector instruction that can run completes in its effect. -/
theorem completes_vec {i : Instr} {s : State} {e : Effect} {body : State → Res} {f : State → Nat → List VWrite}
    (hx : exec i s = floeOp i s body) (hb : body s = vecOp e.srcs e.dsts f s) (h : CanRun s e) (hw : WritesOk s e)
    (hf : ∀ l, f s l = (e.vec l).map (fun w => ⟨w.1, l, w.2⟩)) (hu : e.uni = []) (hp : e.pred = []) (hk : e.pnum < 8)
    (hs : e.stoch = 0) (hl : i.halfwords * 2 = e.len) : Completes i s (After s e) := by
  have hbody : BodyAfter s e ((s.popPorts e.srcs).setVs (e.writes s)) :=
    vec_body h hw hu hk (by rw [hp]; exact List.nodup_nil) hs (BlkOnly.refl _) (by rw [hp]; rfl)
  refine completes_of_body hx ?_ hbody hl
  rw [hb]
  unfold vecOp
  rw [h.gate rfl rfl]
  simp only
  rw [writes_of hf]

/-- One register per lane is written without clash. -/
theorem perLane_ok (s : State) (e : Effect) (d : BitVec 6) (v : Nat → W32) (hv : e.vec = perLane d v) (hd : e.dsts = [VGroup.one d]) :
    WritesOk s e := by
  constructor
  · intro l _; rw [hv]; simp [perLane]
  · intro l _ w hw
    rw [hv] at hw
    simp only [perLane, List.mem_singleton] at hw
    exact ⟨VGroup.one d, by rw [hd]; simp, 0, by simp [VGroup.one], by rw [hw]; simp [VGroup.one]⟩

/-- An even pair per lane is written without clash. -/
theorem pair_ok (s : State) (e : Effect) (d : BitVec 6) (v w : Nat → W32) (hv : ∀ l, e.vec l = [(d.toNat, v l), (d.toNat + 1, w l)])
    (hd : e.dsts = [VGroup.pair d]) : WritesOk s e := by
  constructor
  · intro l _; rw [hv]; simp
  · intro l _ x hx
    rw [hv] at hx
    simp only [List.mem_cons, List.not_mem_nil, or_false] at hx
    rcases hx with rfl | rfl
    · exact ⟨VGroup.pair d, by rw [hd]; simp, 0, by simp [VGroup.pair], by simp [VGroup.pair]⟩
    · exact ⟨VGroup.pair d, by rw [hd]; simp, 1, by simp [VGroup.pair], by simp [VGroup.pair]⟩

end Sys2Proof.Claims
end

