-- ==== Sys2Proof/Laws/Control.lean ====
section
/-!
SUPPORT. Floe instructions that change their own floe only: from what their bodies do to where they go.
-/
namespace Sys2Proof.Claims
open Sys2Proof.Machine

theorem OnlyFloe.updFloe (s : State) (f : Nat) (g : Floe → Floe) : OnlyFloe s f (s.updFloe f g) :=
  ⟨rfl, fun _ hf => Tab.get?_put_ne _ _ hf⟩
theorem OnlyFloe.refl (s : State) (f : Nat) : OnlyFloe s f s := ⟨rfl, fun _ _ => rfl⟩
theorem OnlyFloe.cur {s t : State} {f : Nat} (h : OnlyFloe s f t) : t.cur = s.cur := by rw [h.rest]
theorem OnlyFloe.trans {s t u : State} {f : Nat} (h : OnlyFloe s f t) (k : OnlyFloe t f u) : OnlyFloe s f u where
  rest := by rw [k.rest, h.rest]
  floes := fun g hg => by rw [k.floes g hg, h.floes g hg]

/-- The issuing fragment of an undivided floe bears the cursor's identity. -/
theorem Undivided.id {s : State} (h : Undivided s) : s.fg.id = s.cur.frag := by
  by_contra hne
  have : s.fg = Fragment.reset := by
    show ((s.fl.frags.find? (fun g => g.id = s.cur.frag)).getD Fragment.reset) = _
    rw [h.1]; simp [hne]
  have h4 := h.2.2.2
  rw [this] at h4
  exact h4 rfl

/-- Going on at a target after the floe's registers have changed. -/
theorem moved_of_goTo (s : State) (m : Jump) (g : Floe → Floe)
    (hg : g s.fl = m.set s.fl) (hf : (m.set s.fl).frags = s.fl.frags) (hl : (m.set s.fl).live = s.fl.live) {now : Nat} :
    Moved s m (s.updFl (fun fl => (g fl).goTo s.cur.frag m.target now)) := by
  have hfl : (s.updFl (fun fl => (g fl).goTo s.cur.frag m.target now)).fl = (m.set s.fl).goTo s.cur.frag m.target now := by
    rw [State.updFl_fl, hg]
  refine ⟨OnlyFloe.updFloe s _ _, ?_, ?_⟩
  · rw [hfl, Floe.goTo_frame]
  · intro hu
    have hid := hu.id
    have h1 := Floe.goTo_single (fl := m.set s.fl) (hf.trans hu.1) hu.2.1 (by rw [hl]; exact hu.2.2.1) hu.2.2.2 m.target now
    rw [hid, ← hfl] at h1
    have h2 : (s.updFl (fun fl => (g fl).goTo s.cur.frag m.target now)).fg =
        { s.fg with pc := m.target, wait := .none, rb := none, left := none } := by
      show ((s.updFl (fun fl => (g fl).goTo s.cur.frag m.target now)).fl.frags.find? (fun x => x.id = s.cur.frag)).getD _ = _
      rw [h1]; simp [hid]
    exact ⟨by rw [h2], by rw [h2], by rw [h1, h2]; simp [hid]⟩

/-- An instruction whose body jumps after changing its floe. -/
theorem completes_jump {i : Instr} {s : State} {m : Jump} {body : State → Res} {g : Floe → Floe}
    (hx : exec i s = floeOp i s body) (hb : body s = .jump m.target (s.updFl g)) (hg : g s.fl = m.set s.fl)
    (hf : (m.set s.fl).frags = s.fl.frags) (hl : (m.set s.fl).live = s.fl.live) : Completes i s (Moved s m) := by
  refine ⟨_, hx, ?_⟩
  rw [hb]
  show Moved s m ((s.updFl g).updFl (fun fl => fl.goTo s.cur.frag m.target s.now))
  rw [show (s.updFl g).updFl (fun fl => fl.goTo s.cur.frag m.target s.now) =
    s.updFl (fun fl => (g fl).goTo s.cur.frag m.target s.now) from State.updFl_updFl ..]
  exact moved_of_goTo s m g hg hf hl

/-- An instruction whose body jumps and changes nothing else. -/
theorem completes_jump_id {i : Instr} {s : State} {m : Jump} {body : State → Res}
    (hx : exec i s = floeOp i s body) (hb : body s = .jump m.target s) (hm : m.set s.fl = s.fl) : Completes i s (Moved s m) := by
  refine ⟨_, hx, ?_⟩
  rw [hb]
  exact moved_of_goTo s m (fun fl => fl) hm.symm (by rw [hm]) (by rw [hm])

/-- An instruction whose body goes on behind it after changing its floe. -/
theorem completes_go {i : Instr} {s : State} {m : Jump} {body : State → Res} {g : Floe → Floe}
    (hx : exec i s = floeOp i s body) (hb : body s = .go (s.updFl g)) (hw : i.halfwords = 2) (ht : m.target = behind s 4)
    (hg : g s.fl = m.set s.fl) (hf : (m.set s.fl).frags = s.fl.frags) (hl : (m.set s.fl).live = s.fl.live) :
    Completes i s (Moved s m) := by
  refine ⟨_, hx, ?_⟩
  rw [hb]
  show Moved s m ((s.updFl g).updFl (fun fl => fl.goTo s.cur.frag (nextPc (fl.frag s.cur.frag).pc (i.halfwords * 2)) s.now))
  have h1 := moved_of_goTo s m g hg hf hl (now := s.now)
  rw [show (s.updFl g).updFl (fun fl => fl.goTo s.cur.frag (nextPc (fl.frag s.cur.frag).pc (i.halfwords * 2)) s.now) =
    s.updFl (fun fl => (g fl).goTo s.cur.frag (nextPc ((g fl).frag s.cur.frag).pc (i.halfwords * 2)) s.now) from
      State.updFl_updFl ..]
  have h2 : nextPc ((g s.fl).frag s.cur.frag).pc (i.halfwords * 2) = m.target := by
    rw [hw, ht]
    show nextPc (((g s.fl).frags.find? _).getD _).pc _ = _
    rw [hg, hf]
    rfl
  have h3 : s.updFl (fun fl => (g fl).goTo s.cur.frag (nextPc ((g fl).frag s.cur.frag).pc (i.halfwords * 2)) s.now) =
      s.updFl (fun fl => (g fl).goTo s.cur.frag m.target s.now) := by
    unfold State.updFl State.updFloe
    rw [show s.floe s.cur.floe = s.fl from rfl]
    simp only [h2]
  rw [h3]
  exact h1

/-- An instruction whose body goes on behind it and changes nothing else. -/
theorem completes_go_id {i : Instr} {s : State} {m : Jump} {body : State → Res}
    (hx : exec i s = floeOp i s body) (hb : body s = .go s) (hw : i.halfwords = 2) (ht : m.target = behind s 4)
    (hm : m.set s.fl = s.fl) : Completes i s (Moved s m) := by
  refine ⟨_, hx, ?_⟩
  rw [hb]
  have h1 := moved_of_goTo s m (fun fl => fl) hm.symm (by rw [hm]) (by rw [hm]) (now := s.now)
  show Moved s m (s.updFl (fun fl => fl.goTo s.cur.frag (nextPc (fl.frag s.cur.frag).pc (i.halfwords * 2)) s.now))
  have h3 : s.updFl (fun fl => fl.goTo s.cur.frag (nextPc (fl.frag s.cur.frag).pc (i.halfwords * 2)) s.now) =
      s.updFl (fun fl => fl.goTo s.cur.frag m.target s.now) := by
    unfold State.updFl State.updFloe
    rw [show s.floe s.cur.floe = s.fl from rfl, hw, ht]
    rfl
  rw [h3]
  exact h1

/-- Retiring a 4-byte instruction whose body ends with a change of its floe is going on behind it. -/
theorem conclude_go (i : Instr) (s u : State) (g : Floe → Floe) (hw : i.halfwords = 2) (hc : u.cur = s.cur)
    (hf : (g u.fl).frags = u.fl.frags) :
    conclude i s (.go (u.updFl g)) = u.updFl (fun fl => (g fl).goTo u.cur.frag (behind u 4) u.now) := by
  have h1 : conclude i s (.go (u.updFl g)) =
      (u.updFl g).updFl (fun fl => fl.goTo u.cur.frag (nextPc (fl.frag u.cur.frag).pc (i.halfwords * 2)) u.now) := by
    unfold conclude State.retireFrag
    rw [← hc]
    rfl
  rw [h1, State.updFl_updFl]
  have h2 : nextPc ((g u.fl).frag u.cur.frag).pc (i.halfwords * 2) = behind u 4 := by
    rw [hw]
    show nextPc (((g u.fl).frags.find? _).getD _).pc _ = _
    rw [hf]
    rfl
  unfold State.updFl State.updFloe
  rw [show u.floe u.cur.floe = u.fl from rfl]
  simp only [h2]

end Sys2Proof.Claims
end

