-- ==== Sys2Proof/Laws/Issue.lean ====
section
/-!
SUPPORT. Issuing a memory operation: what its checks pass, and what it leaves.
-/
namespace Sys2Proof.Claims
open Sys2Proof.Machine

/-- A state that agrees with `s` on what a lane's checks read. -/
structure SameChecks (s u : State) : Prop where
  cur : u.cur = s.cur
  cores : u.cores = s.cores
  launches : u.launches = s.launches
  firn : u.firnHeld = s.firnHeld
  launch : u.blk.launch = s.blk.launch
  floes : u.blk.floes = s.blk.floes
  width : u.blk.width = s.blk.width
  nregs : u.blk.nregs = s.blk.nregs

theorem SameChecks.refl (s : State) : SameChecks s s := ⟨rfl, rfl, rfl, rfl, rfl, rfl, rfl, rfl⟩

theorem SameChecks.held {s u : State} (h : SameChecks s u) {va : Nat} {x : Xlat} (hx : s.cr.held s.asid va = some x) :
    u.translate (coreOf (blockOf s.cur.floe)) (u.asidOf (blockOf s.cur.floe)) va = .ok x false ∧
    u.holdXlat (coreOf (blockOf s.cur.floe)) (u.asidOf (blockOf s.cur.floe)) va = u := by
  have h1 : (u.core (coreOf (blockOf s.cur.floe))).held (u.asidOf (blockOf s.cur.floe)) va = some x := by
    have hb : u.block (blockOf s.cur.floe) = u.blk := by unfold State.blk; rw [h.cur]
    unfold State.asidOf State.launchOf State.launch State.core
    rw [h.cores, h.launches, hb, h.launch]
    exact hx
  constructor
  · unfold State.translate; rw [h1]
  · unfold State.holdXlat; rw [h1]

theorem placeOf_maps {s : State} {k : OpKind} {size va : Nat} {data : BitVec 128} {x : Xlat} {p : Place}
    (hr : reads k = true → bitN x.attr 1 = true) (hw : writes k = true → bitN x.attr 2 = true) (hm : Maps s k size data va x p) :
    placeOf k.acc size va (.ok x false) = .ok p := by
  have e1 : k.acc.needsRead = reads k := by cases k <;> rfl
  have e2 : k.acc.needsWrite = writes k := by cases k <;> rfl
  have e3 : ¬ k.acc = .exec := by cases k <;> simp [OpKind.acc]
  have e4 : ¬ k.acc = .threshold := by cases k <;> simp [OpKind.acc]
  unfold placeOf
  simp only [e1, e2]
  rw [if_neg]
  swap
  · simp only [attrRead, attrWrite, e3, decide_false, Bool.false_and, Bool.or_false, Bool.or_eq_true, Bool.and_eq_true,
      Bool.not_eq_true', not_or, not_and]
    exact ⟨fun h => by simp [hr h], fun h => by simp [hw h]⟩
  cases hm with
  | plain h1 h2 h3 h4 h5 =>
    have e5 : ¬ k.acc = .join := by cases k <;> simp [OpKind.acc, joins] at h4 ⊢
    replace h1 : attrLtype x.attr = 0 := h1
    replace h2 : attrTier x.attr ≠ 3 := h2
    replace h3 : attrTier x.attr = 2 → writes k = false := h3
    rw [if_neg (by
      intro hc
      simp only [Bool.and_eq_true, decide_eq_true_eq] at hc
      rw [h3 hc.1] at hc
      exact absurd hc.2 (by simp)), if_neg (by simp [h1]), if_neg (by simp [e4, e5]), if_neg h2]
    rfl
  | peer h1 h2 h4 =>
    have e5 : ¬ k.acc = .join := by cases k <;> simp [OpKind.acc, joins] at h4 ⊢
    replace h1 : attrLtype x.attr = 0 := h1
    replace h2 : attrTier x.attr = 3 := h2
    rw [if_neg (by simp [h2]), if_neg (by simp [h1]), if_neg (by simp [e4, e5]), if_pos h2]
  | cell h1 h2 h3 h4 =>
    replace h1 : attrLtype x.attr ≠ 0 := h1
    replace h2 : attrTier x.attr = 2 → writes k = false := h2
    rw [if_neg (by
      intro hc
      simp only [Bool.and_eq_true, decide_eq_true_eq] at hc
      rw [h2 hc.1] at hc
      exact absurd hc.2 (by simp)), if_pos h1]
    rcases h3 with rfl | ⟨rfl, h5, _⟩
    · rfl
    · exact if_pos h5
  | line h1 h2 =>
    obtain ⟨op, rfl⟩ := h2
    replace h1 : attrLtype x.attr ≠ 0 := h1
    rw [if_neg (by simp [writes]), if_pos h1]
    rfl

theorem joinCause_none {r : Replica} {die off x : Nat} (h : r.ltype = 4 → isNan32 x = false) : r.joinCause die off x false = none := by
  unfold Replica.joinCause
  by_cases h4 : r.ltype = 4
  · simp [h4, h h4]
  · simp [h4]

/-- A lane that reaches a place passes its checks, and they change nothing. -/
theorem SameChecks.lane {s u : State} (h : SameChecks s u) {a : Access} {l : LaneAcc} {p : Place}
    (hr : Reaches s a l p) :
    u.laneCheck (blockOf s.cur.floe) a.kind a.size a.aperture l = .ok p ∧
    u.laneTouch (blockOf s.cur.floe) a.kind l.va (.ok p) = u := by
  have hb : u.block (blockOf s.cur.floe) = u.blk := by unfold State.blk; rw [h.cur]
  obtain ⟨h1, h2, h3⟩ := hr
  have hal : (a.size ≠ 0 && l.va.toNat % a.size ≠ 0) = false := by
    by_cases hz : a.size = 0
    · simp [hz]
    · simp [h1 hz]
  rcases h3 with ⟨ha, hap, hlt, rfl⟩ | ⟨ha, x, hx, hrd, hwr, hm⟩
  · have hc : u.checkLane (blockOf s.cur.floe) a.kind.acc a.size a.aperture l.va = .ok (.regs (l.va.toNat - apertureBase)) := by
      unfold State.checkLane
      simp only
      rw [if_pos ha, hb, h.floes, h.width, h.nregs, if_neg (by simp [hap, hlt]), if_neg (by simpa using hal)]
    constructor
    · unfold State.laneCheck
      rw [hc]
      simp [State.firnHolds]
    · unfold State.laneTouch
      simp [ha]
  · obtain ⟨hx1, hx2⟩ := h.held hx
    have hp := placeOf_maps hrd hwr hm
    have hc : u.checkLane (blockOf s.cur.floe) a.kind.acc a.size a.aperture l.va = .ok p := by
      unfold State.checkLane
      simp only
      rw [if_neg (by simp [ha]), if_neg (by simpa using hal), if_neg (by omega), hx1, hp]
    have hlau : u.launch u.blk.launch = s.launch s.blk.launch := by unfold State.launch; rw [h.launches, h.launch]
    unfold State.laneCheck State.laneTouch
    rw [hc]
    simp only [ha, Bool.false_eq_true, if_false]
    rw [hx2]
    cases hm with
    | plain g1 g2 g3 g4 g5 =>
      refine ⟨?_, rfl⟩
      rw [if_neg]
      simp only [State.firnHolds, h.firn, Bool.and_eq_true, decide_eq_true_eq, not_and]
      exact g5
    | peer g1 g2 g4 => exact ⟨by simp [State.firnHolds], rfl⟩
    | line g1 g2 =>
      obtain ⟨op, g2⟩ := g2
      simp only [g2, OpKind.acc, if_true]
      exact ⟨by simp [State.firnHolds], trivial⟩
    | cell g1 g2 g3 g4 =>
      obtain ⟨r, g4, g5⟩ := g4
      have hok : u.replicaOk u.blk.launch (dieOfCore (coreOf (blockOf s.cur.floe))) ((x.pa + (l.va.toNat - x.va)) / 128)
          (fieldN x.attr 48 4) = true := by
        unfold State.replicaOk
        rw [hlau]
        show (Option.isSome (Tab.get? _ (replicaKey (dieOfCore (floeCore s.cur.floe)) _)) || _) = true
        rw [g4]; rfl
      have hfill : u.replicaFill u.blk.launch (dieOfCore (coreOf (blockOf s.cur.floe))) ((x.pa + (l.va.toNat - x.va)) / 128)
          (fieldN x.attr 48 4) = u := by
        unfold State.replicaFill
        rw [hlau]
        have g6 : (s.launch s.blk.launch).replicas.get? (replicaKey (dieOfCore (coreOf (blockOf s.cur.floe)))
          ((x.pa + (l.va.toNat - x.va)) / 128)) = some r := g4
        rw [g6]
      have hrep : u.replica u.blk.launch (dieOfCore (coreOf (blockOf s.cur.floe))) ((x.pa + (l.va.toNat - x.va)) / 128) = r := by
        show (u.launch u.blk.launch).replicas.getD _ _ = r
        unfold Tab.getD
        rw [hlau]
        show Option.getD (Tab.get? _ (replicaKey (dieOfCore (floeCore s.cur.floe)) _)) _ = r
        rw [g4]; rfl
      have hnc : ¬ a.kind.acc = .cache := by
        rcases g3 with g | ⟨g, _⟩ <;> simp [g, OpKind.acc]
      simp only [hb, hnc, if_false, hok, hfill, hrep, State.firnHolds, Bool.false_eq_true, Bool.not_true]
      refine ⟨?_, trivial⟩
      rcases g3 with g | ⟨g, gs, gn⟩
      · simp [g, OpKind.acc]
      · simp only [g, OpKind.acc, if_true]
        have : (decide ((OpKind.join) = .joinStrict)) = false := by decide
        rw [this, joinCause_none]
        intro h4
        rw [g5] at h4
        have := gn h4
        rw [h4] at gs
        simp at gs
        rw [gs]
        exact this

theorem SameChecks.answer {s u : State} (h : SameChecks s u) : SameChecks s u.homeAnswer.2 := by
  obtain ⟨h1, h2, h3, h4, h5, h6, h7, h8⟩ := h
  unfold State.homeAnswer
  split
  · exact ⟨h1, h2, h3, h4, h5, h6, h7, h8⟩
  · exact ⟨h1, h2, h3, h4, h5, h6, h7, h8⟩

/-- An operation's lanes at their places, each with no cause. -/
def placed (ls : List LaneAcc) : List (LaneAcc × Checked) := ls.map (fun l => (l, .ok l.place))

/-- Lanes that all reach a place are placed, and the checks change nothing but the answers that homes have given. -/
theorem checkLanes_reach {s : State} {a : Access} (o : MemOp) (ho : o.kind = a.kind) (hz : o.size = a.size)
    (hk : a.kind ≠ .joinStrict) (place : LaneAcc → Place) (ls : List LaneAcc) (hl : ∀ l ∈ ls, Reaches s a l (place l)) :
    ∀ u : State, SameChecks s u → HomesAnswer place ls u →
    u.checkLanes s.cur.floe o a.aperture ls = (placed (answered a.kind place ls u).1, (answered a.kind place ls u).2) := by
  have hrd : a.kind.reads = returns a.kind := by cases a.kind <;> rfl
  have key : ∀ (ls : List LaneAcc), (∀ l ∈ ls, Reaches s a l (place l)) → ∀ (acc : List (LaneAcc × Checked)) (u : State),
      SameChecks s u → HomesAnswer place ls u →
      ls.foldl (fun (acc : List (LaneAcc × Checked) × State) x =>
        let c := acc.2.laneCheck (blockOf s.cur.floe) o.kind o.size a.aperture x
        let s1 := acc.2.laneTouch (blockOf s.cur.floe) o.kind x.va c
        match c with
        | .cause e => (acc.1 ++ [(if e = 0x05 then acc.2.heldPlace (blockOf s.cur.floe) o.kind o.size a.aperture x else x, c)], s1)
        | .ok (.peer n v) =>
          let h := s1.askHome x o.kind.reads (.peer n v)
          (acc.1 ++ [(h.1, h.2.1)], h.2.2)
        | .ok p =>
          if o.kind = .joinStrict then
            let b := { x with place := p }
            (acc.1 ++ [({ b with done := true }, c)], s1.performBind (s1.reqNow (floeCore s.cur.floe)) s.cur.floe o b)
          else (acc.1 ++ [({ x with place := p }, c)], s1)) (acc, u) =
      (acc ++ placed (answered a.kind place ls u).1, (answered a.kind place ls u).2) := by
    intro ls
    induction ls with
    | nil => intro _ acc u _ _; simp [placed, answered]
    | cons l ls ih =>
      intro hl acc u hu hh
      obtain ⟨h1, h2⟩ := hu.lane (hl l (List.mem_cons_self ..))
      have ih' := ih (fun x hx => hl x (List.mem_cons_of_mem _ hx))
      rw [List.foldl_cons]
      simp only [ho, hz, hk, if_false] at ih' ⊢
      rw [h1, h2]
      cases hp : place l with
      | peer n va =>
        simp only [HomesAnswer, hp] at hh
        obtain ⟨⟨v, hv⟩, hh⟩ := hh
        have hask : u.askHome l a.kind.reads (.peer n va) =
            ({ l with place := .peer n va, data := if returns a.kind then v else l.data }, .ok (.peer n va), u.homeAnswer.2) := by
          unfold State.askHome
          rw [← hrd]
          generalize hg : u.homeAnswer = g at hv
          obtain ⟨g1, g2⟩ := g
          simp only at hv
          subst hv
          rfl
        simp only [hask]
        rw [ih' _ _ hu.answer hh]
        simp [answered, hp, placed, hv]
      | absent => simp only [HomesAnswer, hp] at hh; rw [ih' _ _ hu hh]; simp [answered, hp, placed]
      | firn x y z => simp only [HomesAnswer, hp] at hh; rw [ih' _ _ hu hh]; simp [answered, hp, placed]
      | phys x y z => simp only [HomesAnswer, hp] at hh; rw [ih' _ _ hu hh]; simp [answered, hp, placed]
      | regs x => simp only [HomesAnswer, hp] at hh; rw [ih' _ _ hu hh]; simp [answered, hp, placed]
      | cell x y => simp only [HomesAnswer, hp] at hh; rw [ih' _ _ hu hh]; simp [answered, hp, placed]
  intro u hu hh
  have := key ls hl [] u hu hh
  rw [List.nil_append] at this
  unfold State.checkLanes
  exact this

theorem goingLanes_ok (ls : List LaneAcc) : goingLanes (placed ls) = ls := by
  unfold goingLanes placed
  rw [List.filter_eq_self.2 (by intro x hx; obtain ⟨l, _, rfl⟩ := List.mem_map.1 hx; rfl), List.map_map]
  exact List.map_id _
theorem lanesWith_ok (ls : List LaneAcc) (c : Nat) : lanesWith (placed ls) c = [] := by
  unfold lanesWith placed
  rw [List.filter_eq_nil_iff.2 (by intro x hx; obtain ⟨l, _, rfl⟩ := List.mem_map.1 hx; simp [Checked.causeOf])]
  rfl
theorem hardLane_ok (ls : List LaneAcc) : hardLane (placed ls) = none := by
  unfold hardLane placed
  rw [List.findSome?_eq_none_iff]
  intro x hx
  obtain ⟨l, _, rfl⟩ := List.mem_map.1 hx
  rfl

/-- The answers of homes change nothing else. -/
theorem answered_rest (k : OpKind) (place : LaneAcc → Place) (ls : List LaneAcc) : ∀ s : State,
    (answered k place ls s).2 = { s with homeIn := (answered k place ls s).2.homeIn, free := (answered k place ls s).2.free } := by
  have hans : ∀ s : State, s.homeAnswer.2 = { s with homeIn := s.homeAnswer.2.homeIn, free := s.homeAnswer.2.free } := by
    intro s
    unfold State.homeAnswer
    split <;> rfl
  induction ls with
  | nil => intro s; rfl
  | cons l t ih =>
    intro s
    unfold answered
    split
    · simp only
      refine (ih s.homeAnswer.2).trans ?_
      have h := hans s
      revert h
      generalize s.homeAnswer.2 = x
      generalize (answered k place t x).2.homeIn = y
      generalize (answered k place t x).2.free = z
      intro h
      rw [h]
    · exact ih s
/-- A memory instruction that can issue puts its operation among the outstanding ones. -/
theorem completes_access {i : Instr} {s : State} {a : Access} {place : LaneAcc → Place} {body : State → Res} {p : MemPlan}
    {nine conflict : Bool} {lanes : State → List LaneAcc}
    (hx : exec i s = floeOp i s body) (hb : body s = memIssue p a.srcs a.dsts nine conflict lanes s)
    (hp : p = ⟨a.cls, a.kind, a.size, a.aperture, a.dest, a.acquire, a.scope, a.noAlloc, a.release⟩)
    (hn : nine = false) (hc : conflict = false) (hl : lanes s = a.lanes) (hw : i.halfwords = 2) (hk : a.kind ≠ .joinStrict)
    (hlim : a.cls = .loads ∨ a.cls = .stores) (h : CanIssue s a place) : Completes i s (Issues s a place) := by
  have hgate := h.operands.gate hn hc
  simp only at hgate
  have hlim' : counterLimit a.cls = 63 := by rcases hlim with e | e <;> rw [e] <;> rfl
  have h1 : s.fl.acquiring s.cur.frag = false := by
    unfold Floe.acquiring
    rw [Bool.or_eq_false_iff, List.any_eq_false, List.any_eq_false]
    refine ⟨fun o ho => by simp [h.acquires o ho], fun g hg => ?_⟩
    by_cases hid : g.id = s.cur.frag
    · simp [hid]
    · simp [h.reads g hg hid]
  have hord : a.kind.isWrite = ordered a.kind := by cases a.kind <;> rfl
  have h2 : (a.kind.isWrite && s.fl.relHolds) = false := by
    rw [hord]
    cases ho : ordered a.kind with
    | false => rfl
    | true =>
      rw [Bool.true_and]
      unfold Floe.relHolds
      rw [List.any_eq_false]
      intro n hn
      simp only [Floe.doneBefore, Bool.not_eq_true', Bool.not_eq_false, List.all_eq_true, Bool.or_eq_true, decide_eq_true_eq]
      intro o ho2
      by_cases hlt : n ≤ o.seq
      · exact .inl hlt
      · exact .inr (fun x hx => h.fences ho n hn o ho2 (by omega) x hx)
  have h3 : ((a.release || decide (a.kind = .joinStrict)) && !s.fl.opsDone) = false := by
    have : decide (a.kind = .joinStrict) = false := by simpa using hk
    rw [this, Bool.or_false]
    cases hr : a.release with
    | false => rfl
    | true =>
      have : s.fl.opsDone = true := by
        unfold Floe.opsDone
        simp only [List.all_eq_true]
        exact fun o ho x hx => h.older hr o ho x hx
      simp [this]
  have h4 : (s.fl.ops.any (fun o => o.kind = .join && o.lanes.any (fun x => !x.done &&
      a.lanes.any (fun y => x.va.toNat < y.va.toNat + Nat.max a.size 1 && y.va.toNat < x.va.toNat + Nat.max o.size 1)))) = false := by
    rw [List.any_eq_false]
    intro o ho
    by_cases hj : o.kind = .join
    · simp only [hj, decide_true, Bool.true_and, List.any_eq_true, not_exists, not_and, Bool.and_eq_true, Bool.not_eq_true',
        decide_eq_true_eq]
      intro x hx hd y hy hlt
      have := h.joins o ho hj x hx hd y hy
      omega
    · simp [hj]
  have h5 := checkLanes_reach (s := s) (a := a)
    ⟨s.fl.opSeq, a.cls, a.kind, a.size, [], a.dest, a.acquire, a.scope, a.noAlloc, (s.core (floeCore s.cur.floe)).ctime, none⟩ rfl rfl hk
    place a.lanes h.places s (SameChecks.refl s) h.homes
  rw [answered_rest] at h5
  set w : State := { s with homeIn := (answered a.kind place a.lanes s).2.homeIn, free := (answered a.kind place a.lanes s).2.free } with hws
  obtain ⟨p1, p2⟩ := State.popPorts_spec w a.srcs
  have hks : w.popKeys a.srcs = s.popKeys a.srcs := rfl
  have hwb : w.blk = s.blk := rfl
  rw [hks, hwb] at p2
  have hpop := Block.popKeys_frame (s.popKeys a.srcs) s.blk
  set v := w.popPorts a.srcs with hv
  set op : MemOp := ⟨s.fl.opSeq, a.cls, a.kind, a.size, (answered a.kind place a.lanes s).1, a.dest, a.acquire,
    a.scope, a.noAlloc, s.cr.ctime, none⟩ with hop
  have hbody : body s = .go (v.addOp s.cur.floe op) := by
    rw [hb, hp]
    unfold memIssue
    rw [hgate]
    simp only [hl, hlim', h1, h2, h3, h4, Bool.false_eq_true, if_false]
    rw [if_neg (by have := h.room; omega), h5]
    simp only [goingLanes_ok, lanesWith_ok, hardLane_ok, hk, if_false]
    rfl
  refine ⟨_, hx, ?_⟩
  rw [hbody]
  have hvc : v.cur = s.cur := p1.cur
  have hvn : v.now = s.now := p1.now
  have hvf : v.fl = s.fl := p1.fl
  have hvg : v.fg = s.fg := p1.fg
  have hmv := moved_of_goTo v { target := behind s 4, set := fun fl => { fl with ops := fl.ops ++ [op], opSeq := fl.opSeq + 1 } }
    (fun fl => { fl with ops := fl.ops ++ [op], opSeq := fl.opSeq + 1 }) rfl rfl rfl (now := s.now)
  have hb4 : behind v 4 = behind s 4 := by unfold behind; rw [hvg]
  have ht : conclude i s (.go (v.addOp s.cur.floe op)) =
      v.updFl (fun fl => ({ fl with ops := fl.ops ++ [op], opSeq := fl.opSeq + 1 } : Floe).goTo v.cur.frag (behind s 4) s.now) := by
    have h6 := conclude_go i s v (fun fl => { fl with ops := fl.ops ++ [op], opSeq := fl.opSeq + 1 }) hw hvc rfl
    rw [hb4, hvn] at h6
    rw [← h6]
    unfold State.updFl State.addOp
    rw [hvc]
  rw [ht]
  set t := v.updFl (fun fl => ({ fl with ops := fl.ops ++ [op], opSeq := fl.opSeq + 1 } : Floe).goTo v.cur.frag (behind s 4) s.now)
  have hblk : t.blk = v.blk := rfl
  refine ⟨?_, ?_, ?_, ?_, ?_, ?_⟩
  · exact (OnlyOwn.ofBlk p1).trans (OnlyOwn.updFl v _)
  · have := hmv.floe
    rw [hvf] at this
    exact this
  · rw [hblk, p2, hpop]
  · intro l hl q hq
    rw [hblk, p2, Block.keyQ_qent, Block.popKeys_keyQ _ _ (s.popKeys_nodup _), popped_keyQ s a.srcs hl hq]
  · intro x q hq hx
    rw [hblk, p2]
    show ((s.popKeys a.srcs).foldl Block.popKey s.blk).keyQ _ = _
    rw [Block.popKeys_keyQ _ _ (s.popKeys_nodup _),
      if_neg (fun hc => by obtain ⟨hq', l, hl, h1⟩ := (s.popKeys_mem a.srcs _ q hq).1 hc; exact hx l hl h1.symm hq')]
    rfl
  · intro hud
    have : Undivided v := by
      unfold Undivided
      rw [hvf, hvg]
      exact hud
    exact (hmv.goes this).1

end Sys2Proof.Claims
end

