-- ==== Sys2Proof/Laws/Access.lean ====
section
/-!
SUPPORT. The operand forms of memory instructions agree with the rules as Claims/Memory.lean writes them.
-/
namespace Sys2Proof.Claims
open Sys2Proof.Machine

theorem sizeRegs_eq (z : BitVec 3) : sizeRegs z = regsOf z := by revert z; decide
theorem sizeBytes_eq (z : BitVec 3) : sizeBytes z = bytesOf z := by revert z; decide
theorem dataGroup_eq (z : BitVec 3) (u : BitVec 1) (d : BitVec 6) :
    dataGroup z u d = if u = 1 then [] else [VGroup.ofCount d (regsOf z)] := by
  unfold dataGroup; rw [sizeRegs_eq]
theorem scopeA_eq (x : BitVec 2) : scopeA x = scopeOf x := rfl

/-- The scale of an index is the size code (R83). -/
theorem addrM_eq (s : State) (z : BitVec 3) (m b : BitVec 6) (l : Nat) (hz : z.toNat ≤ 5) :
    s.addrM z m b l = if z = 5 then nibbleAt s m b l else (address s z.toNat m b l, false) := by
  unfold State.addrM nibbleAt
  split
  · rfl
  · rename_i h
    have h5 : z.toNat ≠ 5 := by intro hc; apply h; apply BitVec.eq_of_toNat_eq; rw [hc]; rfl
    have hlt : z.toNat < 5 := by omega
    clear h hz h5
    generalize z.toNat = n at *
    match n, hlt with
    | 0, _ => rfl
    | 1, _ => rfl
    | 2, _ => rfl
    | 3, _ => rfl
    | 4, _ => rfl

theorem append_toNat {m n : Nat} (x : BitVec m) (y : BitVec n) : (x ++ y).toNat = x.toNat * 2 ^ n + y.toNat := by
  rw [BitVec.toNat_append, Nat.shiftLeft_eq, ← Nat.shiftLeft_eq, Nat.shiftLeft_add_eq_or_of_lt y.isLt]

theorem joined_four (a b c e : W32) :
    BitVec.ofNat 128 (a.toNat + b.toNat * 4294967296 + c.toNat * 18446744073709551616 + e.toNat * 79228162514264337593543950336) =
      e ++ c ++ b ++ a := by
  apply BitVec.eq_of_toNat_eq
  simp only [BitVec.toNat_ofNat, append_toNat]
  have ha := a.isLt; have hb := b.isLt; have hc := c.isLt; have he := e.isLt
  generalize a.toNat = x at *; generalize b.toNat = y at *; generalize c.toNat = z at *; generalize e.toNat = w at *
  omega
theorem joined_two (a b : W32) : BitVec.ofNat 128 (a.toNat + b.toNat * 4294967296) = (b ++ a).setWidth 128 := by
  apply BitVec.eq_of_toNat_eq
  simp only [BitVec.toNat_ofNat, append_toNat, BitVec.toNat_setWidth]
  generalize a.toNat = x; generalize b.toNat = y
  omega

theorem foldl_four (g : Nat → Nat → Nat) : (List.range 4).foldl g 0 = g (g (g (g 0 0) 1) 2) 3 := rfl
theorem foldl_two (g : Nat → Nat → Nat) : (List.range 2).foldl g 0 = g (g 0 0) 1 := rfl
theorem foldl_one (g : Nat → Nat → Nat) : (List.range 1).foldl g 0 = g 0 0 := rfl
theorem pow_zero_words : (2 : Nat) ^ (32 * 0) = 1 := by norm_num
theorem pow_one_word : (2 : Nat) ^ (32 * 1) = 4294967296 := by norm_num
theorem pow_two_words : (2 : Nat) ^ (32 * 2) = 18446744073709551616 := by norm_num
theorem pow_three_words : (2 : Nat) ^ (32 * 3) = 79228162514264337593543950336 := by norm_num

/-- The vector data of a size, joined from its registers (R391). -/
theorem dataM_eq (s : State) (z : BitVec 3) (d : BitVec 6) (l : Nat) : s.dataM z d l = laneData s z d l := by
  unfold State.dataM laneData
  rw [sizeRegs_eq]
  unfold regsOf upTo
  by_cases h4 : z = 4
  · rw [if_pos h4, if_pos h4, foldl_four]
    simp only [pow_zero_words, pow_two_words, pow_three_words, Nat.zero_add, Nat.mul_one, Nat.add_zero]
    exact joined_four _ _ _ _
  · rw [if_neg h4, if_neg h4]
    by_cases h3 : z = 3
    · rw [if_pos h3, if_pos h3, foldl_two]
      simp only [pow_zero_words, Nat.zero_add, Nat.mul_one, Nat.add_zero]
      exact joined_two _ _
    · rw [if_neg h3, if_neg h3, foldl_one]
      simp only [pow_zero_words, Nat.zero_add, Nat.mul_one, Nat.add_zero, BitVec.ofNat_toNat]

theorem dataU_eq (s : State) (z : BitVec 3) (d : BitVec 6) : s.dataU z d = uniData s z d := by
  unfold State.dataU uniData
  have e0 := (s.S d.toNat).isLt
  have e1 := (s.S (d.toNat + 1)).isLt
  apply BitVec.eq_of_toNat_eq
  split
  · simp only [BitVec.toNat_ofNat, append_toNat]
    omega
  · simp only [BitVec.toNat_ofNat, BitVec.toNat_setWidth, Nat.add_zero]

theorem dataA_eq (s : State) (w : BitVec 1) (n l : Nat) : s.dataA w n l = operand s w n l := rfl

theorem not_one {u : BitVec 1} (h : ¬ u = 1) : u = 0 := by revert h; revert u; decide

theorem uniBad_false {z : BitVec 3} {u : BitVec 1} {d : BitVec 6} (h : u = 1 → z = 4 → d.toNat % 2 = 0) :
    (decide (u = 1) && uniBad z d) = false := by
  rw [Bool.and_eq_false_iff]
  by_cases hu : u = 1
  · right
    unfold uniBad
    rw [Bool.and_eq_false_iff]
    by_cases h4 : z = 4
    · right; simp [h hu h4]
    · left; exact decide_eq_false h4
  · left; exact decide_eq_false hu

/-- Loads. -/
theorem completes_load {s : State} {i : Instr} {na : Bool} {acq : Option Nat} {z : BitVec 3} {u : BitVec 1} {m b d : BitVec 6}
    (hx : exec i s = floeOp i s (loadBody na acq z u m b d)) (hw : i.halfwords = 2) (hz : z.toNat ≤ 5) {place : LaneAcc → Place}
    (h : CanIssue s (loads s na acq z u m b d) place) : Completes i s (Issues s (loads s na acq z u m b d) place) := by
  have ha : (u = 1 → z = 4 → d.toNat % 2 = 0) ∧ (u = 0 → s.portsOf [VGroup.ofCount d (regsOf z)] = []) := h.operands.also
  refine completes_access (nine := (decide (u = 1) && uniBad z d)) (conflict := s.namesPort (dataGroup z u d))
    (lanes := accLanes z u m b (fun _ _ => 0)) hx ?_ rfl (uniBad_false ha.1) ?_ ?_ hw (by simp [loads]) (.inl rfl) h
  · unfold loadBody
    rw [show (loads s na acq z u m b d).srcs = viGroup m from rfl,
      show (loads s na acq z u m b d).dsts = dataGroup z u d from (dataGroup_eq z u d).symm, sizeBytes_eq]
    rfl
  · rw [dataGroup_eq]
    by_cases hu : u = 1
    · rw [if_pos hu]; rfl
    · have hu0 : u = 0 := not_one hu
      rw [if_neg hu]
      unfold State.namesPort
      rw [ha.2 hu0]; rfl
  · unfold accLanes
    simp only [loads]
    split
    · rfl
    · apply List.map_congr_left
      intro l _
      rw [addrM_eq s z m b l hz]
      split <;> rfl

/-- Stores. -/
theorem completes_store {s : State} {i : Instr} {na : Bool} {rel : Option Nat} {z : BitVec 3} {u : BitVec 1} {m b d : BitVec 6}
    (hx : exec i s = floeOp i s (storeBody na rel z u m b d)) (hw : i.halfwords = 2) (hz : z.toNat ≤ 4) {place : LaneAcc → Place}
    (h : CanIssue s (stores s na rel z u m b d) place) : Completes i s (Issues s (stores s na rel z u m b d) place) := by
  have ha : u = 1 → z = 4 → d.toNat % 2 = 0 := h.operands.also
  have h5 : ¬ z = 5 := by intro hc; rw [hc] at hz; exact absurd hz (by decide)
  refine completes_access (nine := (decide (u = 1) && uniBad z d)) (conflict := false)
    (lanes := accLanes z u m b (fun s l => if u = 1 then s.dataU z d else s.dataM z d l)) hx ?_ rfl (uniBad_false ha) rfl ?_ hw
    (by simp [stores]) (.inr rfl) h
  · unfold storeBody
    rw [show (stores s na rel z u m b d).srcs = viGroup m ++ dataGroup z u d by rw [dataGroup_eq]; rfl, sizeBytes_eq]
    rfl
  · unfold accLanes
    simp only [stores]
    split
    · rename_i hu; rw [dataU_eq]; rfl
    · rename_i hu
      apply List.map_congr_left
      intro l _
      rw [addrM_eq s z m b l (by omega), if_neg h5, dataM_eq]
      rfl

/-- Atomics. -/
theorem completes_atom {s : State} {i : Instr} {op : AtomOp} {x : BitVec 2} {w : BitVec 1} {m b d : BitVec 6}
    (hx : exec i s = floeOp i s (atomBody op x w m b d)) (hw : i.halfwords = 2) {place : LaneAcc → Place}
    (h : CanIssue s (atoms s op x w m b d) place) : Completes i s (Issues s (atoms s op x w m b d) place) := by
  refine completes_access (nine := false) (conflict := false) (lanes := lanesA (op = .cas) w m b d) hx rfl rfl rfl rfl ?_ hw
    (by simp [atoms]) (.inl rfl) h
  unfold lanesA
  simp only [atoms, decide_eq_true_eq]
  apply List.map_congr_left
  intro l _
  split <;> rfl

/-- Reductions. -/
theorem completes_red {s : State} {i : Instr} {op : AtomOp} {x : BitVec 2} {w : BitVec 1} {m b d : BitVec 6}
    (hx : exec i s = floeOp i s (redBody op x w m b d)) (hw : i.halfwords = 2) {place : LaneAcc → Place}
    (h : CanIssue s (reds s op x w m b d) place) : Completes i s (Issues s (reds s op x w m b d) place) :=
  completes_access (nine := false) (conflict := false) (lanes := lanesA false w m b d) hx rfl rfl rfl rfl rfl hw
    (by simp [reds]) (.inr rfl) h

/-- Line operations. -/
theorem completes_lineOp {s : State} {i : Instr} {op : CacheOp} {m b : BitVec 6}
    (hx : exec i s = floeOp i s (cacheBody op m b)) (hw : i.halfwords = 2) {place : LaneAcc → Place}
    (h : CanIssue s (lineOps s op m b) place) : Completes i s (Issues s (lineOps s op m b) place) :=
  completes_access (nine := false) (conflict := false)
    (lanes := fun s => s.lanes.map (fun l => ⟨l, s.addr m b 0 l, .absent, 0, 0, false, false⟩)) hx rfl rfl rfl rfl rfl hw
    (by simp [lineOps]) (.inr rfl) h

end Sys2Proof.Claims
end

