-- ==== Sys2Proof/Laws/Bytes.lean ====
section
/-!
SUPPORT. The bytes of a line, and of numbers laid out in it.
-/
namespace Sys2Proof.Machine

theorem Line.getLsbD_byte (x : Line) (i k : Nat) : (Line.byte x i).getLsbD k = (decide (k < 8) && x.getLsbD (8 * i + k)) := by
  simp [Line.byte]

theorem getLsbD_ones (k : Nat) : ((0xFF : Line)).getLsbD k = decide (k < 8) := by
  have h1 : ((0xFF : Line)).getLsbD k = (decide (k < 1024) && Nat.testBit (2 ^ 8 - 1) k) := BitVec.getLsbD_ofNat 1024 255 k
  rw [h1, Nat.testBit_two_pow_sub_one]
  by_cases hk : k < 8
  · simp [hk]; omega
  · simp [hk]

theorem Line.getLsbD_setByte (x : Line) (i : Nat) (b : Byte) (j : Nat) (hj : j < 1024) :
    (Line.setByte x i b).getLsbD j = if 8 * i ≤ j ∧ j < 8 * i + 8 then b.getLsbD (j - 8 * i) else x.getLsbD j := by
  unfold Line.setByte
  rw [BitVec.getLsbD_or, BitVec.getLsbD_and, BitVec.getLsbD_not, BitVec.getLsbD_shiftLeft, BitVec.getLsbD_shiftLeft,
    getLsbD_ones, BitVec.getLsbD_setWidth]
  by_cases h1 : 8 * i ≤ j
  · by_cases h2 : j < 8 * i + 8
    · have h3 : j - 8 * i < 8 := by omega
      have h4 : ¬ j < 8 * i := by omega
      have h5 : j - 8 * i < 1024 := by omega
      simp [h1, h2, hj, h4, h3, h5]
    · have h4 : ¬ j < 8 * i := by omega
      have h3 : ¬ j - 8 * i < 8 := by omega
      have h7 : b.getLsbD (j - 8 * i) = false := BitVec.getLsbD_of_ge _ _ (by omega)
      simp [h2, hj, h4, h3, h7]
  · have h4 : j < 8 * i := by omega
    simp [h1, hj, h4]

theorem Line.byte_setByte (x : Line) (i j : Nat) (b : Byte) (hj : j < 128) :
    Line.byte (Line.setByte x i b) j = if j = i then b else Line.byte x j := by
  apply BitVec.eq_of_getLsbD_eq
  intro k hk
  rw [Line.getLsbD_byte, Line.getLsbD_setByte _ _ _ _ (by omega)]
  by_cases h : j = i
  · subst h; simp [hk]
  · have : ¬ (8 * i ≤ 8 * j + k ∧ 8 * j + k < 8 * i + 8) := by omega
    rw [if_neg this, if_neg h, Line.getLsbD_byte]

/-- Byte j of a line in which bytes from offset `off` have been replaced. -/
theorem Line.byte_setBytes (bs : List Byte) : ∀ (x : Line) (off j : Nat), j < 128 →
    Line.byte (Line.setBytes x off bs) j = if off ≤ j then (bs[j - off]?).getD (Line.byte x j) else Line.byte x j := by
  induction bs with
  | nil => intro x off j _; simp [Line.setBytes]
  | cons b t ih =>
    intro x off j hj
    rw [Line.setBytes, ih _ _ _ hj, Line.byte_setByte _ _ _ _ hj]
    by_cases h1 : j = off
    · subst h1; simp
    · by_cases h2 : off ≤ j
      · have h3 : off + 1 ≤ j := by omega
        have h4 : j - off = (j - (off + 1)) + 1 := by omega
        simp [h2, h3, h1, h4]
      · have h3 : ¬ off + 1 ≤ j := by omega
        simp [h2, h3, h1]

theorem toBytes_length (n x : Nat) : (toBytes n x).length = n := by
  induction n generalizing x with
  | zero => rfl
  | succ n ih => simp [toBytes, ih]

theorem toBytes_get? (n : Nat) : ∀ (x k : Nat), (toBytes n x)[k]? = if k < n then some (BitVec.ofNat 8 (x / 256 ^ k)) else none := by
  induction n with
  | zero => intro x k; simp [toBytes]
  | succ n ih =>
    intro x k
    cases k with
    | zero => simp [toBytes]
    | succ k =>
      simp only [toBytes, List.getElem?_cons_succ, ih, Nat.add_lt_add_iff_right, Nat.div_div_eq_div_mul, pow_succ]
      rw [Nat.mul_comm]

theorem Line.getLsbD_eq_byte (x : Line) (j : Nat) : x.getLsbD j = (Line.byte x (j / 8)).getLsbD (j % 8) := by
  rw [Line.getLsbD_byte]
  have h1 : j % 8 < 8 := Nat.mod_lt _ (by omega)
  have h2 : 8 * (j / 8) + j % 8 = j := by omega
  simp [h1, h2]

theorem testBit_div_256 (x k j : Nat) : (x / 256 ^ k).testBit j = x.testBit (8 * k + j) := by
  have h : 256 ^ k = 2 ^ (8 * k) := by rw [pow_mul]; norm_num
  rw [h, Nat.testBit_div_two_pow]
  congr 1
  omega

/-- The bytes written hold the number. -/
theorem Line.extract_setBytes (x : Line) (off n v : Nat) (h : off + n ≤ 128) :
    (Line.setBytes x off (toBytes n v)).extractLsb' (8 * off) (8 * n) = BitVec.ofNat (8 * n) v := by
  apply BitVec.eq_of_getLsbD_eq
  intro k hk
  have h8 : k % 8 < 8 := Nat.mod_lt _ (by omega)
  simp only [BitVec.getLsbD_extractLsb', hk, decide_true, Bool.true_and]
  rw [Line.getLsbD_eq_byte, Line.byte_setBytes _ _ _ _ (by omega), if_pos (by omega), toBytes_get?, if_pos (by omega)]
  simp only [Option.getD_some, BitVec.getLsbD_ofNat, testBit_div_256, hk, decide_true, Bool.true_and]
  have h2 : 8 * ((8 * off + k) / 8 - off) + (8 * off + k) % 8 = k := by omega
  rw [h2]
  simp [h8]

/-- Bytes outside those written are as before. -/
theorem Line.byte_setBytes_outside (x : Line) (off n v i : Nat) (hi : i < 128) (h : i < off ∨ off + n ≤ i) :
    Line.byte (Line.setBytes x off (toBytes n v)) i = Line.byte x i := by
  rw [Line.byte_setBytes _ _ _ _ hi]
  split
  · rw [toBytes_get?, if_neg (by omega)]; rfl
  · rfl

end Sys2Proof.Machine
end

