-- ==== Sys2Proof/Laws/Line.lean ====
section
/-!
SUPPORT. What the operations on a line do where one die's stack owns it and no other die holds it.
-/
namespace Sys2Proof.Claims
open Sys2Proof.Machine

theorem foldl_id {α β : Type} (f : α → β → α) (l : List β) (a : α) (h : ∀ b ∈ l, f a b = a) : l.foldl f a = a := by
  induction l with
  | nil => rfl
  | cons b t ih =>
    rw [List.foldl_cons, h b (by simp)]
    exact ih (fun c hc => h c (by simp [hc]))

theorem guardWrite_unarmed {s : State} (h : ∀ l, (s.launch l).armed = false) (pa : Nat) : s.guardWrite pa = s := by
  unfold State.guardWrite
  exact foldl_id _ _ _ (fun l _ => by simp [h l])

theorem dropAlias_still {s : State} (h : s.migrations = []) (ln : Nat) : s.dropAlias ln = s := by
  simp [State.dropAlias, State.aliasOf, h]

theorem redirect_still {s : State} (h : s.migrations = []) (pa : Nat) : s.redirect pa = pa := by
  simp [State.redirect, h]

/-- No other die answers a probe of a line that it does not hold. -/
theorem probeOthers_alone {s : State} {d ln : Nat} (h : ∀ a < 13, a ≠ d → (s.die a).stack.get? ln = none) :
    s.probeOthers (some d) ln = s := by
  unfold State.probeOthers
  refine foldl_id _ _ _ (fun a ha => ?_)
  have ha13 : a < 13 := by simpa [upTo] using ha
  by_cases had : a = d
  · simp [had]
  · have hne : ¬ (some d = some a) := by intro hh; exact had (Option.some.inj hh).symm
    simp only [if_neg hne]
    simp [h a ha13 had]

/-- The line of a stack after it has been reached under its key: its stamps clamped (R219). -/
def clampLine (s : State) (d : Nat) (x : StackLine) : StackLine := { x with wts := clamped s d x.wts, rts := clamped s d x.rts }

theorem stackFill_here {s : State} {d ln key : Nat} {x : StackLine} (h : (s.die d).stack.get? ln = some x) :
    s.stackFill d ln key = s.updDie d (fun e => { e with stack := e.stack.put ln (clampLine s d x) }) := by
  unfold State.stackFill
  rw [h]
  rfl

/-- Bytes that stay in one line touch that line alone. -/
theorem mem_linesOf_one {ln off n r : Nat} (hn : off + n ≤ 128) (hr : r ∈ linesOf (ln * 128 + off) n) : r = ln := by
  simp only [linesOf, upTo, mem_dedupe, List.mem_map, List.mem_range] at hr
  obtain ⟨i, hi, rfl⟩ := hr
  omega

/-- A write within one line, in no region that a launch accesses, is not recorded (R255). -/
theorem soil_clean {s : State} {ln off n : Nat} (h : ∀ l ∈ s.launches, s.accesses l.2 ln = false) (hn : off + n ≤ 128) :
    s.soil (ln * 128 + off) n = s := by
  unfold State.soil
  dsimp only
  rw [if_neg]
  simp only [List.any_eq_true, not_exists, not_and]
  intro l hl r hr
  have : r = ln := mem_linesOf_one hn hr
  rw [this, h l hl]
  simp

/-- A write of an owned line at its bank (R222): its bytes and stamps, the stack's time, and the directory. -/
theorem stackWrite_owned {s : State} {d ln key : Nat} {x : StackLine} (h : Owned s d ln key x) (t : BitVec 16) (again : Bool)
    (off : Nat) (bs : List Byte) (k p : BitVec 32) (hn : off + bs.length ≤ 128) :
    s.stackWrite d ln key t again off bs k p =
      let w := if again then clamped s d x.wts else laterOf (clamped s d x.rts) t + 1
      { s with
        dies := s.dies.put d { s.die d with
          stack := (s.die d).stack.put ln { x with
            data := Line.setBytes x.data off bs, wts := w, rts := if again then clamped s d x.rts else w, dirty := true,
            poison := (x.poison &&& ~~~k) ||| p }
          stime := laterOf (s.die d).stime w }
        dir := s.dir.set DirEntry.reset (regionOf ln) { s.dirEntry (regionOf ln) with owner := some d } } := by
  have h1 : ((s.guardWrite (ln * 128)).probeOthers (some d) ln) = s := by
    rw [guardWrite_unarmed h.unarmed, probeOthers_alone h.alone]
  have hx : x.owned = true := h.owned
  unfold State.stackWrite State.stackOwn
  simp only [h1, stackFill_here h.here]
  rw [soil_clean (by exact h.plain) hn]
  simp only [State.stackLine, State.updDie, State.setDie, State.setDir, State.die, Tab.getD_put_self, Tab.get?_put_self,
    Option.getD_some, Tab.put_put, State.dirEntry]
  cases again <;> simp [clampLine, hx, StackLine.under, rekey, h.key]

/-- Raising a core's time changes its core alone (R217, R219). -/
theorem raiseCtime_raised (s : State) (c : Nat) (t : BitVec 16) :
    s.raiseCtime c t = { s with cores := s.cores.put c (raisedCore (s.core c) t) } := rfl

/-- A core's write of an owned line (R222): the bank, the core's time, and the core's own copy of the line. -/
theorem coreWrite_owned {s : State} {c ln key : Nat} {x : StackLine} (h : Owned s (dieOfCore c) ln key x) (q : BankReq)
    (hq : (q.written.any (fun n => n = ln)) = false) (off : Nat) (bs : List Byte) (na : Bool) (hn : off + bs.length ≤ 128) :
    s.coreWrite q c ln key off bs na =
      let w := laterOf (clamped s (dieOfCore c) x.rts) q.time + 1
      let y : StackLine := { x with data := Line.setBytes x.data off bs, wts := w, rts := w, dirty := true,
                                    poison := (x.poison &&& ~~~(q.covers ln off bs.length)) ||| 0 }
      { s with
        cores := s.cores.put c (raisedCore { s.core c with
          l1 := match (s.core c).l1.get? ln with
            | none => (s.core c).l1
            | some _ => if na then (s.core c).l1.del ln else (s.core c).l1.put ln ⟨y.data, w, w, w, y.poison, key⟩ } w)
        dies := s.dies.put (dieOfCore c) { s.die (dieOfCore c) with
          stack := (s.die (dieOfCore c)).stack.put ln y, stime := laterOf (s.die (dieOfCore c)).stime w }
        dir := s.dir.set DirEntry.reset (regionOf ln) { s.dirEntry (regionOf ln) with owner := some (dieOfCore c) } } := by
  unfold State.coreWrite
  dsimp only
  rw [hq, stackWrite_owned h _ _ _ _ _ _ hn]
  simp only [raiseCtime_raised, State.stackLine, State.updCore, State.setCore, State.core, State.die, Tab.getD_put_self,
    Tab.get?_put_self, Tab.put_put, Option.getD_some, Bool.false_eq_true, if_false]
  all_goals rfl

end Sys2Proof.Claims
end

