-- ==== Sys2Proof/Laws/Handlers.lean ====
section
/-!
SUPPORT. Writing a call record and entering a handler.
-/
namespace Sys2Proof.Claims
open Sys2Proof.Machine

theorem holdXlat_held {s : State} {c asid va : Nat} {x : Xlat} (h : (s.core c).held asid va = some x) : s.holdXlat c asid va = s := by
  simp [State.holdXlat, h]

/-- The checks of a plain access through a held translation. -/
theorem checkLane_plain {s : State} {b : Nat} {k : AccKind} {n : Nat} {va : W64} {x : Xlat}
    (ha : n ≠ 0 → va.toNat % n = 0) (hv : va.toNat < 2 ^ 56) (hi : inAperture va.toNat = false)
    (hh : (s.core (coreOf b)).held (s.asidOf b) va.toNat = some x)
    (hr : k.needsRead = true → bitN x.attr 1 = true) (hw : k.needsWrite = true → bitN x.attr 2 = true) (he : k ≠ .exec)
    (hj : k ≠ .join ∧ k ≠ .threshold) (hl : fieldN x.attr 48 4 = 0) (ht : fieldN x.attr 16 2 ≤ 1) :
    s.checkLane b k n false va = .ok (.phys (x.pa + (va.toNat - x.va)) (fieldN x.attr 52 12) (bitN x.attr 46)) := by
  have h1 : (decide (n ≠ 0) && decide (va.toNat % n ≠ 0)) = false := by
    by_cases hn : n = 0
    · simp [hn]
    · simp [ha hn]
  have h2 : ¬ 2 ^ 56 ≤ va.toNat := by omega
  have hr' : (k.needsRead && !(attrRead x.attr)) = false := by
    cases hk : k.needsRead
    · rfl
    · simp [attrRead, hr hk]
  have hw' : (k.needsWrite && !(attrWrite x.attr)) = false := by
    cases hk : k.needsWrite
    · rfl
    · simp [attrWrite, hw hk]
  have ht2 : ¬ attrTier x.attr = 2 := by unfold attrTier; omega
  have ht3 : ¬ attrTier x.attr = 3 := by unfold attrTier; omega
  have hl' : attrLtype x.attr = 0 := hl
  unfold State.checkLane
  simp only [h1, if_neg h2, hi, State.translate, hh]
  simp [placeOf, hr', hw', he, hj.1, hj.2, ht2, ht3, hl', attrKey, attrNc]

/-- The 512 bits of a call record. -/
def recordBits (fl : Floe) (g : Fragment) (kind skip : Bool) : BitVec 512 := BitVec.ofNat 512 (callRecord fl g kind skip)

/-- The line after a call record has been written to it. -/
def recordLine (s : State) (f id : Nat) (x : Xlat) (line : StackLine) (kind skip : Bool) : StackLine :=
  let w := laterOf (clamped s (dieOfCore (floeCore f)) line.rts) (s.core (floeCore f)).ctime + 1
  { line with
    data := Line.setBytes line.data (recordPa s f x % 128) (toBytes 64 (callRecord (s.floe f) (s.frag f id) kind skip))
    wts := w, rts := w, dirty := true
    poison := (line.poison &&& ~~~(wordsCovered (recordPa s f x % 128)
      (toBytes 64 (callRecord (s.floe f) (s.frag f id) kind skip)).length)) ||| 0 }

/-- The state after the write of a call record. -/
def recordState (s : State) (f id : Nat) (x : Xlat) (line : StackLine) (kind skip : Bool) : State :=
  let y := recordLine s f id x line kind skip
  let ln := recordPa s f x / 128
  let c := floeCore f
  { s with
    cores := s.cores.put c (raisedCore { s.core c with
      l1 := match (s.core c).l1.get? ln with
        | none => (s.core c).l1
        | some _ => (s.core c).l1.put ln ⟨y.data, y.wts, y.wts, y.wts, y.poison, fieldN x.attr 52 12⟩ } y.wts)
    dies := s.dies.put (dieOfCore c) { s.die (dieOfCore c) with
      stack := (s.die (dieOfCore c)).stack.put ln y, stime := laterOf (s.die (dieOfCore c)).stime y.wts }
    dir := s.dir.set DirEntry.reset (regionOf ln) { s.dirEntry (regionOf ln) with owner := some (dieOfCore c) } }

theorem pushRecord_eq {s : State} {f id : Nat} {x : Xlat} {line : StackLine} (h : CanEnter s f id x line) (kind skip : Bool) :
    s.pushRecord f id kind skip = some ((recordState s f id x line kind skip).updFloe f (fun y =>
      { (y.setS 62 (recordVa s f)).updFrag id (fun g => { g with handler := true }) with recs := y.recs ++ [recordVa s f] })) := by
  have h1 : fieldN ((s.floe f).S 62) 0 6 = 0 := by
    have := h.aligned
    simp only [fieldN, bitsOf]
    omega
  have h2 : ¬ 8 ≤ (s.floe f).recs.length := by have := h.depth; omega
  have hva : (recordVa s f).toNat % 64 = 0 := by
    have := h.aligned
    unfold recordVa
    rw [BitVec.toNat_sub]
    show (2 ^ 64 - 64 + _) % 2 ^ 64 % 64 = 0
    omega
  have hc := checkLane_plain (s := s) (b := blockOf f) (k := .store) (n := 64) (fun _ => hva) h.space.1 h.space.2 h.held
    (by intro hh; cases hh) (fun _ => h.page.1) (by decide) ⟨by decide, by decide⟩ h.page.2.1 h.page.2.2
  have hw := coreWrite_owned h.own (s.reqNow (floeCore f)) rfl (recordPa s f x % 128)
    (toBytes 64 (callRecord (s.floe f) (s.frag f id) kind skip)) false (by
      have := h.whole
      rw [toBytes_length]
      omega)
  unfold State.pushRecord
  simp only [h1]
  rw [show (s.floe f).S 62 - 64 = recordVa s f from rfl, hc]
  simp only [holdXlat_held h.held, h2]
  simp only [ne_eq, not_true_eq_false, decide_false, Bool.or_self, Bool.false_eq_true, if_false]
  rw [show s.recordHome (Place.phys (x.pa + ((recordVa s f).toNat - x.va)) (fieldN x.attr 52 12) (bitN x.attr 46)) = some s from rfl,
    Option.map_some, show s.writePlace (s.reqNow (floeCore f)) f
      (Place.phys (x.pa + ((recordVa s f).toNat - x.va)) (fieldN x.attr 52 12) (bitN x.attr 46)) (toBytes 64 (callRecord (s.floe f) ((s.floe f).frag id) kind skip)) false = recordState s f id x line kind skip from hw]

set_option exponentiation.threshold 600 in
/-- A call record's bits are its fields (R260). -/
theorem recordHolds (fl : Floe) (g : Fragment) (kind skip : Bool) (hd : fl.recs.length < 8) :
    RecordHolds (recordBits fl g kind skip) fl g kind skip := by
  have h1 := fl.faddr.isLt
  have h2 := g.active.isLt
  have h3 := fl.epc.isLt
  have h4 := fl.fcause.isLt
  have h5 := fl.uepc.isLt
  have h6 := fl.umask.isLt
  have h7 : bit01 kind < 2 := by cases kind <;> decide
  have h8 : bit01 skip < 2 := by cases skip <;> decide
  have hb : (recordBits fl g kind skip).toNat = callRecord fl g kind skip := by
    unfold recordBits callRecord
    rw [BitVec.toNat_ofNat]
    omega
  have hx : ∀ lo n, ((recordBits fl g kind skip).extractLsb' lo n).toNat = callRecord fl g kind skip / 2 ^ lo % 2 ^ n := by
    intro lo n
    rw [BitVec.extractLsb'_toNat, hb, Nat.shiftRight_eq_div_pow]
  have hg : ∀ i, (recordBits fl g kind skip).getLsbD i = decide (callRecord fl g kind skip / 2 ^ i % 2 = 1) := by
    intro i
    rw [BitVec.getLsbD, hb, Nat.testBit_eq_decide_div_mod_eq]
  have he : ∀ lo n (v : BitVec n), callRecord fl g kind skip / 2 ^ lo % 2 ^ n = v.toNat →
      (recordBits fl g kind skip).extractLsb' lo n = v := fun lo n v h => BitVec.eq_of_toNat_eq ((hx lo n).trans h)
  refine ⟨he _ _ _ ?_, he _ _ _ ?_, he _ _ _ ?_, he _ _ _ ?_, he _ _ _ ?_, he _ _ _ ?_, he _ _ _ ?_, ?_, ?_, ?_, he _ _ _ ?_⟩
  · unfold callRecord; omega
  · unfold callRecord; omega
  · unfold callRecord; show _ = 0; omega
  · unfold callRecord; omega
  · unfold callRecord; omega
  · unfold callRecord; omega
  · unfold callRecord; omega
  · rw [hg]; unfold callRecord
    cases kind
    · apply decide_eq_false; rw [show bit01 false = 0 from rfl]; omega
    · apply decide_eq_true; rw [show bit01 true = 1 from rfl]; omega
  · rw [hg]; unfold callRecord
    cases skip
    · apply decide_eq_false; rw [show bit01 false = 0 from rfl]; omega
    · apply decide_eq_true; rw [show bit01 true = 1 from rfl]; omega
  · rw [hx]; unfold callRecord; omega
  · unfold callRecord; show _ = 0; omega

theorem find_map_id {l : List Fragment} (F : Fragment → Fragment) (hF : ∀ g, (F g).id = g.id) (id : Nat) :
    (l.map F).find? (fun g => g.id = id) = (l.find? (fun g => g.id = id)).map F := by
  induction l with
  | nil => rfl
  | cons a t ih =>
    simp only [List.map_cons, List.find?_cons, hF]
    by_cases h : a.id = id
    · simp [h]
    · simp [h, ih]

theorem settle_upd_frame (y : Floe) (id : Nat) (G : Fragment → Fragment) (now : Nat) :
    (y.updFrag id G).settleState now = { y with frags := ((y.updFrag id G).settleState now).frags
                                                st := ((y.updFrag id G).settleState now).st
                                                readyAt := ((y.updFrag id G).settleState now).readyAt } := by
  rw [Floe.settleState_frags]
  exact Floe.settleState_frame (y.updFrag id G) now

/-- Entering a handler from the state whose record has been written. -/
theorem entered {s : State} {f id : Nat} {x : Xlat} {line : StackLine} (h : CanEnter s f id x line) (set : Floe → Floe)
    (hset : ∀ y fr rc, set { y with frags := fr, recs := rc } = { set y with frags := fr, recs := rc })
    (pc : BitVec 18) (kind skip : Bool) (now : Nat) :
    Entered s f id x set pc kind skip
      (((recordState s f id x line kind skip).updFloe f (fun y =>
        { (y.setS 62 (recordVa s f)).updFrag id (fun g => { g with handler := true }) with recs := y.recs ++ [recordVa s f] })).updFloe f
        (fun y => ((set y).updFrag id (fun g => { g with pc := pc, wait := .none, rb := none, left := none })).settleState now)) := by
  have hfl : (recordState s f id x line kind skip).floe f = s.floe f := rfl
  have hs0 : ∀ y : Floe, { set y with frags := y.frags, recs := y.recs } = set y := fun y => (hset y y.frags y.recs).symm
  have hfr : ∀ y : Floe, (set y).frags = y.frags := fun y => by rw [← hs0 y]
  have hT : ((((recordState s f id x line kind skip).updFloe f (fun y =>
        { (y.setS 62 (recordVa s f)).updFrag id (fun g => { g with handler := true }) with recs := y.recs ++ [recordVa s f] })).updFloe f
        (fun y => ((set y).updFrag id (fun g => { g with pc := pc, wait := .none, rb := none, left := none })).settleState now))).floe f =
      ((set { ((s.floe f).setS 62 (recordVa s f)).updFrag id (fun g => { g with handler := true }) with
        recs := (s.floe f).recs ++ [recordVa s f] }).updFrag id (fun g =>
          { g with pc := pc, wait := .none, rb := none, left := none })).settleState now := by
    simp only [State.updFloe_floe_self, hfl]
  have hfrags : (((set { ((s.floe f).setS 62 (recordVa s f)).updFrag id (fun g => { g with handler := true }) with
        recs := (s.floe f).recs ++ [recordVa s f] }).updFrag id (fun g =>
          { g with pc := pc, wait := .none, rb := none, left := none })).settleState now).frags =
      (s.floe f).frags.map (fun g => if g.id = id then { g with pc := pc, wait := .none, handler := true, rb := none, left := none } else g) := by
    rw [Floe.settleState_frags]
    show List.map _ (set _).frags = _
    rw [hfr]
    show List.map _ (List.map _ (s.floe f).frags) = _
    rw [List.map_map]
    apply List.map_congr_left
    intro g _
    by_cases hg : g.id = id <;> simp [hg]
  refine ⟨⟨rfl, ?_, ?_, ?_, ?_⟩, ?_, ?_, ?_, ?_, ?_⟩
  · intro k hk; exact Tab.get?_put_ne _ _ hk
  · intro k hk; exact Tab.get?_put_ne _ _ hk
  · simp [recordState, State.die, State.updFloe, State.setFloe]
  · intro n hn
    simp only [recordState, State.die, State.updFloe, State.setFloe, Tab.getD_put_self]
    exact Tab.get?_put_ne _ _ hn
  · intro g hg
    simp only [State.updFloe, State.setFloe]
    rw [Tab.get?_put_ne _ _ hg, Tab.get?_put_ne _ _ hg]
    rfl
  · rw [hT]
    have h3 := hset ((s.floe f).setS 62 (recordVa s f)) (((s.floe f).setS 62 (recordVa s f)).updFrag id (fun g => { g with handler := true })).frags
      ((s.floe f).recs ++ [recordVa s f])
    exact (settle_upd_frame _ _ _ _).trans (congrArg (fun y : Floe => { y with
      frags := (((set { ((s.floe f).setS 62 (recordVa s f)).updFrag id (fun g => { g with handler := true }) with
        recs := (s.floe f).recs ++ [recordVa s f] }).updFrag id (fun g =>
          { g with pc := pc, wait := .none, rb := none, left := none })).settleState now).frags
      st := (((set { ((s.floe f).setS 62 (recordVa s f)).updFrag id (fun g => { g with handler := true }) with
        recs := (s.floe f).recs ++ [recordVa s f] }).updFrag id (fun g =>
          { g with pc := pc, wait := .none, rb := none, left := none })).settleState now).st
      readyAt := (((set { ((s.floe f).setS 62 (recordVa s f)).updFrag id (fun g => { g with handler := true }) with
        recs := (s.floe f).recs ++ [recordVa s f] }).updFrag id (fun g =>
          { g with pc := pc, wait := .none, rb := none, left := none })).settleState now).readyAt }) h3)
  · show (Floe.frag (State.floe _ f) id) = _
    rw [hT]
    obtain ⟨g, hg, hid⟩ := h.frag
    have hsome : ((s.floe f).frags.find? (fun g => g.id = id)).isSome = true := List.find?_isSome.mpr ⟨g, hg, by simpa using hid⟩
    obtain ⟨k, hk⟩ := Option.isSome_iff_exists.mp hsome
    have hkid : k.id = id := by simpa using List.find?_some hk
    unfold Floe.frag
    rw [hfrags, find_map_id _ (by intro g; split <;> rfl), hk]
    simp only [Option.map_some, Option.getD_some, if_pos hkid, State.frag, Floe.frag, hk]
  · intro j hj
    show (Floe.frag (State.floe _ f) j) = _
    rw [hT]
    unfold Floe.frag
    rw [hfrags, find_map_id _ (by intro g; split <;> rfl)]
    show _ = ((s.floe f).frags.find? _).getD _
    cases hk : (s.floe f).frags.find? (fun g => g.id = j) with
    | none => rfl
    | some k =>
      have hkid : k.id = j := by simpa using List.find?_some hk
      have : ¬ k.id = id := by rw [hkid]; exact hj
      simp [this]
  · refine ⟨recordLine s f id x line kind skip, ?_, ?_, ?_⟩
    · simp only [recordState, State.die, State.updFloe, State.setFloe, Tab.getD_put_self]
      exact Tab.get?_put_self _ _ _
    · have hw := h.whole
      rw [show (recordLine s f id x line kind skip).data.extractLsb' (8 * (recordPa s f x % 128)) 512 =
        recordBits (s.floe f) (s.frag f id) kind skip from Line.extract_setBytes _ _ 64 _ (by omega)]
      exact recordHolds _ _ _ _ h.depth
    · intro i hi ho
      exact ⟨line, h.own.here, Line.byte_setBytes_outside _ _ 64 _ _ hi ho⟩

theorem atBoundary_of {s : State} {f id : Nat} (ha : AtBoundary s f id) (hn : (s.floe f).recs = []) : s.atBoundary f id = true := by
  obtain ⟨fl, hfl, h1, h2, h3, h4⟩ := ha.floe
  have hfl' : s.floe f = fl := by simp [State.floe, Tab.getD, hfl]
  obtain ⟨g, hg, hgid, hgr⟩ := ha.frag
  have hm : (s.floe f).frags.any (fun g => g.id = id && (s.floe f).mayIssue g) = true := by
    rw [List.any_eq_true]
    exact ⟨g, hg, by simp [hgid, Floe.mayIssue, hn]⟩
  have hrun : (s.launchOf (blockOf f)).phase = .running := ha.running
  unfold State.atBoundary
  simp only [hm, hrun]
  simp [State.unretired, hfl, h1, h2, hfl', h3, h4, Core.stopped, ha.core.1, ha.core.2]

end Sys2Proof.Claims
end

