-- ==== Sys2Proof/Laws/Memory.lean ====
section
/-!
SUPPORT. Laws of memory: a byte read after a write, and every operation that writes memory keeps its canonical form.
-/
namespace Sys2Proof.Laws
open Machine

/-- A byte read after a write of a byte. -/
theorem memByte_setMemByte (s : State) (a b : Nat) (v : Byte) :
    (s.setMemByte a v).memByte b = if s.redirect b = s.redirect a then v else s.memByte b := by
  show (s.mem.set 0 (s.redirect a) v).getD (s.redirect b) 0 = _
  rw [Tab.getD_set]; rfl

/-- The invariant speaks of memory alone. -/
theorem inv_of_mem {s t : State} (h : t.mem = s.mem) (i : s.Inv) : t.Inv := by unfold State.Inv; rw [h]; exact i

/-- A fold of operations that keep the invariant keeps it. -/
theorem inv_foldl {α : Type} {op : State → α → State} (h : ∀ s a, s.Inv → (op s a).Inv) (l : List α) :
    ∀ s : State, s.Inv → (l.foldl op s).Inv := by
  induction l with
  | nil => intro s i; exact i
  | cons a l ih => intro s i; exact ih _ (h s a i)

theorem inv_setMemByte (s : State) (pa : Nat) (b : Byte) (i : s.Inv) : (s.setMemByte pa b).Inv := Tab.wf_set _ _ i

theorem inv_setMem (bs : List Byte) : ∀ (s : State) (pa : Nat), s.Inv → (s.setMem pa bs).Inv := by
  induction bs with
  | nil => intro s pa i; exact i
  | cons b bs ih => intro s pa i; exact ih _ _ (inv_setMemByte s pa b i)

/-- Marking poison, the key and the line clean leaves the bytes of memory. -/
theorem inv_flushed (u : State) (d ln : Nat) (x : StackLine) (f : Die → Die) (i : u.Inv) :
    (State.updDie { (u.setMemPoison ln x.poison) with
      memKeys := (u.setMemPoison ln x.poison).memKeys.put ((u.setMemPoison ln x.poison).lineHome ln) x.key } d f).Inv := i

theorem inv_stackFlush (s : State) (d ln : Nat) (i : s.Inv) : (s.stackFlush d ln).Inv := by
  unfold State.stackFlush
  split
  · exact i
  · split
    · exact inv_flushed _ d ln _ _ (inv_setMem _ s _ i)
    · exact i

theorem inv_stackDisown (s : State) (d ln : Nat) (i : s.Inv) : (s.stackDisown d ln).Inv := by
  unfold State.stackDisown
  dsimp only
  split
  · exact inv_stackFlush s d ln i
  · exact inv_of_mem rfl (inv_stackFlush s d ln i)

theorem inv_stackDrop (s : State) (d ln : Nat) (i : s.Inv) : (s.stackDrop d ln).Inv := by
  unfold State.stackDrop State.unshare
  dsimp only
  split
  · exact inv_of_mem rfl (inv_stackFlush s d ln i)
  · exact inv_of_mem rfl (inv_stackFlush s d ln i)

theorem inv_probeOthers (s : State) (keep : Option Nat) (ln : Nat) (i : s.Inv) : (s.probeOthers keep ln).Inv := by
  unfold State.probeOthers
  refine inv_foldl (fun s d i => ?_) _ _ i
  split
  · exact i
  · split
    · exact inv_of_mem rfl (inv_stackDrop s d ln i)
    · exact i

theorem inv_dropAlias (s : State) (ln : Nat) (i : s.Inv) : (s.dropAlias ln).Inv := by
  unfold State.dropAlias
  split
  · exact i
  · exact inv_probeOthers s none _ i

/-- The fields that a recovery of logs, poison and keys changes are not memory. -/
theorem inv_withBad (s : State) (w : List Nat) (i : s.Inv) : State.Inv { s with badWords := w } := i
theorem inv_withKeys (s : State) (k : Tab Nat) (i : s.Inv) : State.Inv { s with memKeys := k } := i
theorem inv_withLogs (s : State) (g : Tab Log) (i : s.Inv) : State.Inv { s with logs := g } := i
theorem inv_setMemPoison (s : State) (ln : Nat) (p : BitVec 32) (i : s.Inv) : (s.setMemPoison ln p).Inv := inv_of_mem rfl i

theorem inv_commitLog (s : State) (k : Nat) (i : s.Inv) : (s.commitLog k).Inv := by
  unfold State.commitLog
  split
  · exact i
  · refine inv_withLogs _ _ (inv_foldl (fun s r i => ?_) _ _ i)
    refine inv_withBad _ _ (inv_setMem _ _ _ (inv_foldl (fun s ln i => inv_setMemPoison s ln _ i) _ _ ?_))
    exact inv_withKeys _ _ (inv_foldl (fun s ln i => inv_probeOthers s none ln i) _ _ i)

theorem inv_commitStaged (s : State) (l : Nat) (i : s.Inv) : (s.commitStaged l).Inv :=
  inv_foldl (fun s e i => inv_commitLog s e.1 i) _ _ i

/-- Writing one byte keeps the invariant, whatever the byte is read from. -/
theorem inv_setByte (s : State) (k : Nat) (v : Byte) (i : s.Inv) : State.Inv { s with mem := s.mem.set 0 k v } := Tab.wf_set _ _ i

theorem inv_moved (u : State) (w : List Nat) (k : Tab Nat) (g : List Migration) (i : u.Inv) :
    State.Inv { u with badWords := w, memKeys := k, migrations := g } := i

theorem inv_moveLine (s : State) (src : Nat) (i : s.Inv) : (s.moveLine src).Inv := by
  unfold State.moveLine
  split
  · exact i
  · split
    · exact i
    · rename_i m _ _
      exact inv_moved _ _ _ _ (inv_foldl
        (op := fun s i => { s with
          mem := s.mem.set 0 ((m.dst * 512 + m.ptr) * 128 + i) (s.mem.getD ((m.src * 512 + m.ptr) * 128 + i) 0) })
        (fun s j i => inv_setByte s _ _ i) (upTo 128) s i)

theorem inv_restoreFrame (s : State) (c : Snapshot) (i : s.Inv) : (s.restoreFrame c).Inv := by
  unfold State.restoreFrame
  have h : State.Inv ((upTo 512).foldl (fun s i => (s.dropAlias (c.frame * 512 + i)).probeOthers none (c.frame * 512 + i)) s) :=
    inv_foldl (fun s j i => inv_probeOthers _ none _ (inv_dropAlias s _ i)) _ _ i
  revert h
  generalize (upTo 512).foldl (fun s i => (s.dropAlias (c.frame * 512 + i)).probeOthers none (c.frame * 512 + i)) s = u
  intro h
  exact Tab.wf_foldl_set (d := (0 : Byte)) (fun e : Nat × Byte => c.frame * 2 ^ 16 + e.1) (fun e => e.2) c.bytes _ (Tab.wf_filter _ h)

theorem inv_cutLogs (s : State) (i : s.Inv) : s.cutLogs.Inv := Tab.wf_filter _ i

theorem inv_losePower (s : State) (i : s.Inv) : s.losePower.Inv := by
  unfold State.losePower
  exact Tab.wf_filter _ (inv_foldl (fun s k i => inv_commitLog s k i) _ _ (inv_cutLogs _ (inv_of_mem rfl i)))

end Sys2Proof.Laws
end

