-- ==== Sys2Proof/Laws/Moulds.lean ====
section
/-!
SUPPORT. One lemma for each mould of Operands.lean and Flags.lean: where its instruction can run, it completes in its effect.
-/
namespace Sys2Proof.Claims
open Sys2Proof.Machine

/-- One uniform register written by an instruction without vector operands. -/
theorem completes_uni {i : Instr} {s : State} {n : Nat} {v : W64} {body : State → Res} (hx : exec i s = floeOp i s body)
    (hb : body s = .go (s.setS n v)) (hl : i.halfwords * 2 = 4) {e : Effect} (he : e = { uni := [(n, v)] }) :
    Completes i s (After s e) := by
  subst he
  refine completes_of_body hx hb ?_ hl
  exact (nothing_body s {} rfl rfl rfl rfl rfl).setS n v rfl

/-- A uniform pair written by an instruction without vector operands. -/
theorem completes_uni2 {i : Instr} {s : State} {n : Nat} {v w : W64} {body : State → Res} (hx : exec i s = floeOp i s body)
    (hb : body s = .go ((s.setS n v).setS (n + 1) w)) (hl : i.halfwords * 2 = 4) {e : Effect} {p : Prop}
    (he : e = { uni := [(n, v), (n + 1, w)], also := p }) : Completes i s (After s e) := by
  subst he
  refine completes_of_body hx hb ?_ hl
  have h1 := (nothing_body s { also := p } rfl rfl rfl rfl rfl).setS n v rfl
  exact h1.setS (n + 1) w (by simp)

/-- R layout. -/
theorem completes_aluR {i : Instr} {s : State} {c : BitVec 2} {b a d : BitVec 6} {old : Bool} {f : W32 → W32 → W32 → W32}
    {g : W64 → W64 → W64 → W64} (hx : exec i s = floeOp i s (aluR old f g c b a d)) (hl : i.halfwords * 2 = 4)
    (h : CanRun s (onR s c b a d old f g)) : Completes i s (After s (onR s c b a d old f g)) := by
  unfold onR at h ⊢
  split
  · rename_i hc
    refine completes_uni hx ?_ hl rfl
    unfold aluR; rw [if_pos hc]
  · rename_i hc
    rw [if_neg hc] at h
    exact completes_vec (f := fun s l => [⟨d.toNat, l, f (s.A c a l) (s.B c b l) (if old then s.V d.toNat l else 0)⟩]) hx
      (by unfold aluR; rw [if_neg hc]) h (perLane_ok _ _ d _ rfl rfl) (fun _ => rfl) rfl rfl (by decide : 7 < 8) rfl hl

/-- R layout, one source. -/
theorem completes_aluR1 {i : Instr} {s : State} {c : BitVec 2} {a d : BitVec 6} {f : W32 → W32} {g : W64 → W64}
    (hx : exec i s = floeOp i s (aluR1 f g c a d)) (hl : i.halfwords * 2 = 4) (h : CanRun s (onR1 s c a d f g)) :
    Completes i s (After s (onR1 s c a d f g)) := by
  unfold onR1 at h ⊢
  split
  · rename_i hc
    refine completes_uni hx ?_ hl rfl
    unfold aluR1; rw [if_pos hc]
  · rename_i hc
    rw [if_neg hc] at h
    exact completes_vec (f := fun s l => [⟨d.toNat, l, f (s.A c a l)⟩]) hx
      (by unfold aluR1; rw [if_neg hc]) h (perLane_ok _ _ d _ rfl rfl) (fun _ => rfl) rfl rfl (by decide : 7 < 8) rfl hl

/-- I layout. -/
theorem completes_aluI {k : Instr} {s : State} {i : BitVec 9} {u : BitVec 1} {a d : BitVec 6} {f : W32 → W32 → W32}
    {g : W64 → W64 → W64} (hx : exec k s = floeOp k s (aluI f g i u a d)) (hl : k.halfwords * 2 = 4)
    (h : CanRun s (onI s i u a d f g)) : Completes k s (After s (onI s i u a d f g)) := by
  unfold onI at h ⊢
  split
  · rename_i hc
    refine completes_uni hx ?_ hl rfl
    unfold aluI; rw [if_pos hc]
  · rename_i hc
    rw [if_neg hc] at h
    exact completes_vec (f := fun s l => [⟨d.toNat, l, f (s.V a.toNat l) (i.signExtend 32)⟩]) hx
      (by unfold aluI; rw [if_neg hc]) h (perLane_ok _ _ d _ rfl rfl) (fun _ => rfl) rfl rfl (by decide : 7 < 8) rfl hl

/-- The 16-bit form. -/
theorem completes_alu16 {i : Instr} {s : State} {d : BitVec 6} {r : BitVec 5} {f : W32 → W32 → W32}
    (hx : exec i s = floeOp i s (alu16 f d r)) (hl : i.halfwords * 2 = 2) (h : CanRun s (on16 s d r f)) :
    Completes i s (After s (on16 s d r f)) :=
  completes_vec (f := fun s l => [⟨d.toNat, l, f (s.V d.toNat l) (s.V r.toNat l)⟩]) hx rfl h (perLane_ok _ _ d _ rfl rfl)
    (fun _ => rfl) rfl rfl (by decide : 7 < 8) rfl hl

/-- One vector result per lane, of any sources. -/
theorem completes_one {i : Instr} {s : State} {e : Effect} {body : State → Res} {d : BitVec 6} {v : Nat → W32}
    {f : State → Nat → List VWrite} (hx : exec i s = floeOp i s body) (hb : body s = vecOp e.srcs e.dsts f s) (h : CanRun s e)
    (hd : e.dsts = [VGroup.one d]) (hv : e.vec = perLane d v) (hf : ∀ l, f s l = [⟨d.toNat, l, v l⟩]) (hu : e.uni = [])
    (hp : e.pred = []) (hk : e.pnum < 8) (hs : e.stoch = 0) (hl : i.halfwords * 2 = e.len) : Completes i s (After s e) :=
  completes_vec hx hb h (perLane_ok s e d v hv hd) (fun l => by rw [hf, hv]; rfl) hu hp hk hs hl

/-- An even pair per lane, of any sources. -/
theorem completes_pair {i : Instr} {s : State} {e : Effect} {body : State → Res} {d : BitVec 6} {v w : Nat → W32}
    {f : State → Nat → List VWrite} (hx : exec i s = floeOp i s body) (hb : body s = vecOp e.srcs e.dsts f s) (h : CanRun s e)
    (hd : e.dsts = [VGroup.pair d]) (hv : ∀ l, e.vec l = [(d.toNat, v l), (d.toNat + 1, w l)])
    (hf : ∀ l, f s l = [⟨d.toNat, l, v l⟩, ⟨d.toNat + 1, l, w l⟩]) (hu : e.uni = [])
    (hp : e.pred = []) (hk : e.pnum < 8) (hs : e.stoch = 0) (hl : i.halfwords * 2 = e.len) : Completes i s (After s e) :=
  completes_vec hx hb h (pair_ok s e d v w hv hd) (fun l => by rw [hf, hv]; rfl) hu hp hk hs hl

/-- Popping alone, then uniform registers: the body of a lane operation with a uniform result. -/
theorem pops_body {s : State} {e : Effect} (h : CanRun s e) (hv : e.vec = fun _ => []) (hu : e.uni = []) (hp : e.pred = [])
    (hk : e.pnum < 8) (hs : e.stoch = 0) : BodyAfter s e (s.popPorts e.srcs) := by
  have hw : WritesOk s e := ⟨fun l _ => by rw [hv]; exact List.Pairwise.nil, fun l _ w hm => by
    rw [hv] at hm; exact absurd hm (List.not_mem_nil)⟩
  have hnil : e.writes s = [] := by
    unfold Effect.writes; rw [hv]
    simp
  have := vec_body (u := s.popPorts e.srcs) h hw hu hk (by rw [hp]; exact List.nodup_nil) hs
    (by rw [hnil]; exact BlkOnly.refl _) (by rw [hnil, hp]; rfl)
  exact this

/-- A compare of the vector classes, and of class 2. -/
theorem completes_compare {i : Instr} {s : State} {c : BitVec 2} {b a : BitVec 6} {k : BitVec 6 → VGroup} {p : BitVec 3}
    {f : Nat → Bool} {g : Bool} {F : State → Nat → Bool}
    (hx : exec i s = floeOp i s (cmpOp (srcGroups c a b k) (c = 2) p F)) (hl : i.halfwords * 2 = 4)
    (hf : c ≠ 2 → ∀ l, F s l = f l) (hg : c = 2 → F s 0 = g) (h : CanRun s (compare s c b a k p f g)) :
    Completes i s (After s (compare s c b a k p f g)) := by
  unfold compare at h ⊢
  have hp8 : p.toNat < 8 := p.isLt
  split
  · rename_i hc
    refine completes_of_body (u := s.setPs p.toNat ((liveLanes s).map (fun l => (l, g)))) hx ?_ ?_ hl
    · unfold cmpOp
      rw [if_pos (by simpa using hc), hg hc]
      rfl
    · rw [if_pos hc] at h
      refine vec_body h ⟨fun l _ => List.Pairwise.nil, fun l _ w hm => absurd hm (List.not_mem_nil)⟩ rfl hp8 ?_ rfl ?_ ?_
      · rw [List.map_map]
        have : ((fun w : Nat × Bool => w.1) ∘ fun l : Nat => (l, g)) = id := rfl
        rw [this, List.map_id]
        exact Mask.lanes_nodup _ _
      · have hnil : Effect.writes s { pnum := p.toNat, pred := (liveLanes s).map (fun l => (l, g)) } = [] := by
          unfold Effect.writes; simp
        rw [hnil]
        exact BlkOnly.updBlk _ _
      · have hnil : Effect.writes s { pnum := p.toNat, pred := (liveLanes s).map (fun l => (l, g)) } = [] := by
          unfold Effect.writes; simp
        rw [hnil]
        exact State.updBlk_blk _ _
  · rename_i hc
    rw [if_neg hc] at h
    refine completes_of_body (u := (s.popPorts (srcGroups c a b k)).setPs p.toNat (s.lanes.map (fun l => (l, f l)))) hx ?_ ?_ hl
    · unfold cmpOp
      rw [if_neg (by simpa using hc), h.gate rfl rfl]
      simp only
      congr 2
      exact List.map_congr_left (fun l _ => by rw [hf hc])
    · have hpop := State.popPorts_spec s (srcGroups c a b k)
      have hnil : Effect.writes s { srcs := srcGroups c a b k, pnum := p.toNat, pred := s.lanes.map (fun l => (l, f l)) } = [] := by
        unfold Effect.writes; simp
      refine vec_body h ⟨fun l _ => List.Pairwise.nil, fun l _ w hm => absurd hm (List.not_mem_nil)⟩ rfl hp8 ?_ rfl ?_ ?_
      · rw [List.map_map]
        have : ((fun w : Nat × Bool => w.1) ∘ fun l : Nat => (l, f l)) = id := rfl
        rw [this, List.map_id]
        exact s.lanes_nodup
      · rw [hnil]
        exact BlkOnly.updBlk _ _
      · rw [hnil]
        rw [State.setPs, State.updBlk_blk, hpop.1.fl]
        rfl

end Sys2Proof.Claims
end

