-- ==== Sys2Proof/Laws/PerInstr.lean ====
section
/-!
SUPPORT. What the encoder writes, for one instruction at a time: a word of the instruction's length, whose lowest bit
says that length (R79, R81).
-/
namespace Sys2Proof.Laws.WordFits

set_option Elab.async false

/-- The word of an instruction fits its halfwords; bit 0 is 1 in a 32-bit word and 0 in a 16-bit one (R79, R81). -/
def Statement (i : Instr) : Prop :=
  encodeWord i < 2 ^ (16 * i.halfwords) ∧ (i.halfwords = 2 → encodeWord i % 2 = 1) ∧ (i.halfwords = 1 → encodeWord i % 2 = 0) ∧ i.halfwords ≤ 2

theorem noWord {i : Instr} (h : i.halfwords = 0) (e : encodeWord i = 0) : Statement i := by
  simp [Statement, h, e]

theorem iaddR : ∀ a b c d, Statement (.iaddR a b c d) := by intros; simp only [Statement, encodeWord, Instr.halfwords]; omega
theorem iaddI : ∀ a b c d, Statement (.iaddI a b c d) := by intros; simp only [Statement, encodeWord, Instr.halfwords]; omega
theorem iadd16 : ∀ a b, Statement (.iadd16 a b) := by intros; simp only [Statement, encodeWord, Instr.halfwords]; omega
theorem iadd16Imm : ∀ a b, Statement (.iadd16Imm a b) := by intros; simp only [Statement, encodeWord, Instr.halfwords]; omega
theorem isubR : ∀ a b c d, Statement (.isubR a b c d) := by intros; simp only [Statement, encodeWord, Instr.halfwords]; omega
theorem isub16 : ∀ a b, Statement (.isub16 a b) := by intros; simp only [Statement, encodeWord, Instr.halfwords]; omega
theorem imulR : ∀ a b c d, Statement (.imulR a b c d) := by intros; simp only [Statement, encodeWord, Instr.halfwords]; omega
theorem imulI : ∀ a b c d, Statement (.imulI a b c d) := by intros; simp only [Statement, encodeWord, Instr.halfwords]; omega
theorem imul16 : ∀ a b, Statement (.imul16 a b) := by intros; simp only [Statement, encodeWord, Instr.halfwords]; omega
theorem imulhS : ∀ a b c d, Statement (.imulhS a b c d) := by intros; simp only [Statement, encodeWord, Instr.halfwords]; omega
theorem imulhU : ∀ a b c d, Statement (.imulhU a b c d) := by intros; simp only [Statement, encodeWord, Instr.halfwords]; omega
theorem imad : ∀ a b c d, Statement (.imad a b c d) := by intros; simp only [Statement, encodeWord, Instr.halfwords]; omega
theorem iminSR : ∀ a b c d, Statement (.iminSR a b c d) := by intros; simp only [Statement, encodeWord, Instr.halfwords]; omega
theorem iminUR : ∀ a b c d, Statement (.iminUR a b c d) := by intros; simp only [Statement, encodeWord, Instr.halfwords]; omega
theorem imaxSR : ∀ a b c d, Statement (.imaxSR a b c d) := by intros; simp only [Statement, encodeWord, Instr.halfwords]; omega
theorem imaxUR : ∀ a b c d, Statement (.imaxUR a b c d) := by intros; simp only [Statement, encodeWord, Instr.halfwords]; omega
theorem iminSI : ∀ a b c d, Statement (.iminSI a b c d) := by intros; simp only [Statement, encodeWord, Instr.halfwords]; omega
theorem imaxSI : ∀ a b c d, Statement (.imaxSI a b c d) := by intros; simp only [Statement, encodeWord, Instr.halfwords]; omega
theorem iminUI : ∀ a b c d, Statement (.iminUI a b c d) := by intros; simp only [Statement, encodeWord, Instr.halfwords]; omega
theorem imaxUI : ∀ a b c d, Statement (.imaxUI a b c d) := by intros; simp only [Statement, encodeWord, Instr.halfwords]; omega
theorem iabs : ∀ a b c, Statement (.iabs a b c) := by intros; simp only [Statement, encodeWord, Instr.halfwords]; omega
theorem iaddc : ∀ a b c d, Statement (.iaddc a b c d) := by intros; simp only [Statement, encodeWord, Instr.halfwords]; omega
theorem isubb : ∀ a b c d, Statement (.isubb a b c d) := by intros; simp only [Statement, encodeWord, Instr.halfwords]; omega
theorem lea : ∀ a b c d e, Statement (.lea a b c d e) := by intros; simp only [Statement, encodeWord, Instr.halfwords]; omega
theorem andR : ∀ a b c d, Statement (.andR a b c d) := by intros; simp only [Statement, encodeWord, Instr.halfwords]; omega
theorem andI : ∀ a b c d, Statement (.andI a b c d) := by intros; simp only [Statement, encodeWord, Instr.halfwords]; omega
theorem and16 : ∀ a b, Statement (.and16 a b) := by intros; simp only [Statement, encodeWord, Instr.halfwords]; omega
theorem orR : ∀ a b c d, Statement (.orR a b c d) := by intros; simp only [Statement, encodeWord, Instr.halfwords]; omega
theorem orI : ∀ a b c d, Statement (.orI a b c d) := by intros; simp only [Statement, encodeWord, Instr.halfwords]; omega
theorem or16 : ∀ a b, Statement (.or16 a b) := by intros; simp only [Statement, encodeWord, Instr.halfwords]; omega
theorem xorR : ∀ a b c d, Statement (.xorR a b c d) := by intros; simp only [Statement, encodeWord, Instr.halfwords]; omega
theorem xorI : ∀ a b c d, Statement (.xorI a b c d) := by intros; simp only [Statement, encodeWord, Instr.halfwords]; omega
theorem xor16 : ∀ a b, Statement (.xor16 a b) := by intros; simp only [Statement, encodeWord, Instr.halfwords]; omega
theorem andn : ∀ a b c d, Statement (.andn a b c d) := by intros; simp only [Statement, encodeWord, Instr.halfwords]; omega
theorem shlR : ∀ a b c d, Statement (.shlR a b c d) := by intros; simp only [Statement, encodeWord, Instr.halfwords]; omega
theorem shrR : ∀ a b c d, Statement (.shrR a b c d) := by intros; simp only [Statement, encodeWord, Instr.halfwords]; omega
theorem sarR : ∀ a b c d, Statement (.sarR a b c d) := by intros; simp only [Statement, encodeWord, Instr.halfwords]; omega
theorem shlI : ∀ a b c d, Statement (.shlI a b c d) := by intros; simp only [Statement, encodeWord, Instr.halfwords]; omega
theorem shrI : ∀ a b c d, Statement (.shrI a b c d) := by intros; simp only [Statement, encodeWord, Instr.halfwords]; omega
theorem sarI : ∀ a b c d, Statement (.sarI a b c d) := by intros; simp only [Statement, encodeWord, Instr.halfwords]; omega
theorem shl16 : ∀ a b, Statement (.shl16 a b) := by intros; simp only [Statement, encodeWord, Instr.halfwords]; omega
theorem shr16 : ∀ a b, Statement (.shr16 a b) := by intros; simp only [Statement, encodeWord, Instr.halfwords]; omega
theorem sar16 : ∀ a b, Statement (.sar16 a b) := by intros; simp only [Statement, encodeWord, Instr.halfwords]; omega
theorem fshl : ∀ a b c d, Statement (.fshl a b c d) := by intros; simp only [Statement, encodeWord, Instr.halfwords]; omega
theorem fshr : ∀ a b c d, Statement (.fshr a b c d) := by intros; simp only [Statement, encodeWord, Instr.halfwords]; omega
theorem popc : ∀ a b c, Statement (.popc a b c) := by intros; simp only [Statement, encodeWord, Instr.halfwords]; omega
theorem clz : ∀ a b c, Statement (.clz a b c) := by intros; simp only [Statement, encodeWord, Instr.halfwords]; omega
theorem ctz : ∀ a b c, Statement (.ctz a b c) := by intros; simp only [Statement, encodeWord, Instr.halfwords]; omega
theorem brev : ∀ a b c, Statement (.brev a b c) := by intros; simp only [Statement, encodeWord, Instr.halfwords]; omega
theorem prmt : ∀ a b c d, Statement (.prmt a b c d) := by intros; simp only [Statement, encodeWord, Instr.halfwords]; omega
theorem bfx : ∀ a b c d e, Statement (.bfx a b c d e) := by intros; simp only [Statement, encodeWord, Instr.halfwords]; omega
theorem bfi : ∀ a b c d, Statement (.bfi a b c d) := by intros; simp only [Statement, encodeWord, Instr.halfwords]; omega
theorem icmpS : ∀ a b c d e, Statement (.icmpS a b c d e) := by intros; simp only [Statement, encodeWord, Instr.halfwords]; omega
theorem icmpU : ∀ a b c d e, Statement (.icmpU a b c d e) := by intros; simp only [Statement, encodeWord, Instr.halfwords]; omega
theorem fcmpF32 : ∀ a b c d e, Statement (.fcmpF32 a b c d e) := by intros; simp only [Statement, encodeWord, Instr.halfwords]; omega
theorem fcmpF64 : ∀ a b c d e, Statement (.fcmpF64 a b c d e) := by intros; simp only [Statement, encodeWord, Instr.halfwords]; omega
theorem fcmpF16 : ∀ a b c d e, Statement (.fcmpF16 a b c d e) := by intros; simp only [Statement, encodeWord, Instr.halfwords]; omega
theorem fcmpBf16 : ∀ a b c d e, Statement (.fcmpBf16 a b c d e) := by intros; simp only [Statement, encodeWord, Instr.halfwords]; omega
theorem plog : ∀ a b c d, Statement (.plog a b c d) := by intros; simp only [Statement, encodeWord, Instr.halfwords]; omega
theorem movR : ∀ a b c, Statement (.movR a b c) := by intros; simp only [Statement, encodeWord, Instr.halfwords]; omega
theorem mov16 : ∀ a b, Statement (.mov16 a b) := by intros; simp only [Statement, encodeWord, Instr.halfwords]; omega
theorem nop16 : Statement .nop16 := by simp [Statement, encodeWord, Instr.halfwords]
theorem rdsr : ∀ a b c, Statement (.rdsr a b c) := by intros; simp only [Statement, encodeWord, Instr.halfwords]; omega
theorem wrsr : ∀ a b, Statement (.wrsr a b) := by intros; simp only [Statement, encodeWord, Instr.halfwords]; omega
theorem wrsrRbase : ∀ a, Statement (.wrsrRbase a) := by intros; simp only [Statement, encodeWord, Instr.halfwords]; omega
theorem wrsrUivec : ∀ a, Statement (.wrsrUivec a) := by intros; simp only [Statement, encodeWord, Instr.halfwords]; omega
theorem wrsrUipend : ∀ a, Statement (.wrsrUipend a) := by intros; simp only [Statement, encodeWord, Instr.halfwords]; omega
theorem pack2 : ∀ a b c d, Statement (.pack2 a b c d) := by intros; simp only [Statement, encodeWord, Instr.halfwords]; omega
theorem unpk : ∀ a b c, Statement (.unpk a b c) := by intros; simp only [Statement, encodeWord, Instr.halfwords]; omega
theorem sel : ∀ a b c d e, Statement (.sel a b c d e) := by intros; simp only [Statement, encodeWord, Instr.halfwords]; omega
theorem movi : ∀ a b c, Statement (.movi a b c) := by intros; simp only [Statement, encodeWord, Instr.halfwords]; omega
theorem movh : ∀ a b c, Statement (.movh a b c) := by intros; simp only [Statement, encodeWord, Instr.halfwords]; omega
theorem fadd : ∀ a b c d e, Statement (.fadd a b c d e) := by intros; simp only [Statement, encodeWord, Instr.halfwords]; omega
theorem fadd16 : ∀ a b, Statement (.fadd16 a b) := by intros; simp only [Statement, encodeWord, Instr.halfwords]; omega
theorem fsub : ∀ a b c d e, Statement (.fsub a b c d e) := by intros; simp only [Statement, encodeWord, Instr.halfwords]; omega
theorem fsub16 : ∀ a b, Statement (.fsub16 a b) := by intros; simp only [Statement, encodeWord, Instr.halfwords]; omega
theorem fmul : ∀ a b c d e, Statement (.fmul a b c d e) := by intros; simp only [Statement, encodeWord, Instr.halfwords]; omega
theorem fmul16 : ∀ a b, Statement (.fmul16 a b) := by intros; simp only [Statement, encodeWord, Instr.halfwords]; omega
theorem ffma : ∀ a b c d e, Statement (.ffma a b c d e) := by intros; simp only [Statement, encodeWord, Instr.halfwords]; omega
theorem fmin : ∀ a b c d e, Statement (.fmin a b c d e) := by intros; simp only [Statement, encodeWord, Instr.halfwords]; omega
theorem fmin16 : ∀ a b, Statement (.fmin16 a b) := by intros; simp only [Statement, encodeWord, Instr.halfwords]; omega
theorem fmax : ∀ a b c d e, Statement (.fmax a b c d e) := by intros; simp only [Statement, encodeWord, Instr.halfwords]; omega
theorem fmax16 : ∀ a b, Statement (.fmax16 a b) := by intros; simp only [Statement, encodeWord, Instr.halfwords]; omega
theorem frcp : ∀ a b c d, Statement (.frcp a b c d) := by intros; simp only [Statement, encodeWord, Instr.halfwords]; omega
theorem frsq : ∀ a b c d, Statement (.frsq a b c d) := by intros; simp only [Statement, encodeWord, Instr.halfwords]; omega
theorem fsqrt : ∀ a b c d, Statement (.fsqrt a b c d) := by intros; simp only [Statement, encodeWord, Instr.halfwords]; omega
theorem fex2 : ∀ a b c d, Statement (.fex2 a b c d) := by intros; simp only [Statement, encodeWord, Instr.halfwords]; omega
theorem flg2 : ∀ a b c d, Statement (.flg2 a b c d) := by intros; simp only [Statement, encodeWord, Instr.halfwords]; omega
theorem fsin : ∀ a b c d, Statement (.fsin a b c d) := by intros; simp only [Statement, encodeWord, Instr.halfwords]; omega
theorem fcos : ∀ a b c d, Statement (.fcos a b c d) := by intros; simp only [Statement, encodeWord, Instr.halfwords]; omega
theorem fcls : ∀ a b c d, Statement (.fcls a b c d) := by intros; simp only [Statement, encodeWord, Instr.halfwords]; omega
theorem cvt : ∀ a b c d e f, Statement (.cvt a b c d e f) := by intros; simp only [Statement, encodeWord, Instr.halfwords]; omega
theorem qnt : ∀ a b c d e f, Statement (.qnt a b c d e f) := by intros; simp only [Statement, encodeWord, Instr.halfwords]; omega
theorem deq : ∀ a b c d, Statement (.deq a b c d) := by intros; simp only [Statement, encodeWord, Instr.halfwords]; omega
theorem shflGet : ∀ a b c d, Statement (.shflGet a b c d) := by intros; simp only [Statement, encodeWord, Instr.halfwords]; omega
theorem shflSlide : ∀ a b c d, Statement (.shflSlide a b c d) := by intros; simp only [Statement, encodeWord, Instr.halfwords]; omega
theorem shflRot : ∀ a b c d, Statement (.shflRot a b c d) := by intros; simp only [Statement, encodeWord, Instr.halfwords]; omega
theorem shflXor : ∀ a b c d, Statement (.shflXor a b c d) := by intros; simp only [Statement, encodeWord, Instr.halfwords]; omega
theorem lbc : ∀ a b c, Statement (.lbc a b c) := by intros; simp only [Statement, encodeWord, Instr.halfwords]; omega
theorem rfa : ∀ a b, Statement (.rfa a b) := by intros; simp only [Statement, encodeWord, Instr.halfwords]; omega
theorem voteAll : ∀ a b, Statement (.voteAll a b) := by intros; simp only [Statement, encodeWord, Instr.halfwords]; omega
theorem voteAny : ∀ a b, Statement (.voteAny a b) := by intros; simp only [Statement, encodeWord, Instr.halfwords]; omega
theorem voteBallot : ∀ a b, Statement (.voteBallot a b) := by intros; simp only [Statement, encodeWord, Instr.halfwords]; omega
theorem redxAdd : ∀ a b, Statement (.redxAdd a b) := by intros; simp only [Statement, encodeWord, Instr.halfwords]; omega
theorem redxMin : ∀ a b, Statement (.redxMin a b) := by intros; simp only [Statement, encodeWord, Instr.halfwords]; omega
theorem redxMax : ∀ a b, Statement (.redxMax a b) := by intros; simp only [Statement, encodeWord, Instr.halfwords]; omega
theorem redxFadd : ∀ a b, Statement (.redxFadd a b) := by intros; simp only [Statement, encodeWord, Instr.halfwords]; omega
theorem scanAdd : ∀ a b, Statement (.scanAdd a b) := by intros; simp only [Statement, encodeWord, Instr.halfwords]; omega
theorem scanAddx : ∀ a b, Statement (.scanAddx a b) := by intros; simp only [Statement, encodeWord, Instr.halfwords]; omega
theorem matchLanes : ∀ a b, Statement (.matchLanes a b) := by intros; simp only [Statement, encodeWord, Instr.halfwords]; omega
theorem split : ∀ a, Statement (.split a) := by intros; simp only [Statement, encodeWord, Instr.halfwords]; omega
theorem fuse : ∀ a, Statement (.fuse a) := by intros; simp only [Statement, encodeWord, Instr.halfwords]; omega
theorem yield : Statement .yield := by simp [Statement, encodeWord, Instr.halfwords]
theorem bra : ∀ a, Statement (.bra a) := by intros; simp only [Statement, encodeWord, Instr.halfwords]; omega
theorem callRel : ∀ a, Statement (.callRel a) := by intros; simp only [Statement, encodeWord, Instr.halfwords]; omega
theorem brc : ∀ a b c d, Statement (.brc a b c d) := by intros; simp only [Statement, encodeWord, Instr.halfwords]; omega
theorem brx : ∀ a, Statement (.brx a) := by intros; simp only [Statement, encodeWord, Instr.halfwords]; omega
theorem callReg : ∀ a, Statement (.callReg a) := by intros; simp only [Statement, encodeWord, Instr.halfwords]; omega
theorem ret : Statement .ret := by simp [Statement, encodeWord, Instr.halfwords]
theorem exit : Statement .exit := by simp [Statement, encodeWord, Instr.halfwords]
theorem jseg : ∀ a b c, Statement (.jseg a b c) := by intros; simp only [Statement, encodeWord, Instr.halfwords]; omega
theorem cfetch : ∀ a b c d, Statement (.cfetch a b c d) := by intros; simp only [Statement, encodeWord, Instr.halfwords]; omega
theorem ld : ∀ a b c d e, Statement (.ld a b c d e) := by intros; simp only [Statement, encodeWord, Instr.halfwords]; omega
theorem ldNa : ∀ a b c d e, Statement (.ldNa a b c d e) := by intros; simp only [Statement, encodeWord, Instr.halfwords]; omega
theorem ldAcqBlk : ∀ a b c d e, Statement (.ldAcqBlk a b c d e) := by intros; simp only [Statement, encodeWord, Instr.halfwords]; omega
theorem ldAcqDie : ∀ a b c d e, Statement (.ldAcqDie a b c d e) := by intros; simp only [Statement, encodeWord, Instr.halfwords]; omega
theorem ldAcqPkg : ∀ a b c d e, Statement (.ldAcqPkg a b c d e) := by intros; simp only [Statement, encodeWord, Instr.halfwords]; omega
theorem ldAcqSys : ∀ a b c d e, Statement (.ldAcqSys a b c d e) := by intros; simp only [Statement, encodeWord, Instr.halfwords]; omega
theorem st : ∀ a b c d e, Statement (.st a b c d e) := by intros; simp only [Statement, encodeWord, Instr.halfwords]; omega
theorem stNa : ∀ a b c d e, Statement (.stNa a b c d e) := by intros; simp only [Statement, encodeWord, Instr.halfwords]; omega
theorem stRelBlk : ∀ a b c d e, Statement (.stRelBlk a b c d e) := by intros; simp only [Statement, encodeWord, Instr.halfwords]; omega
theorem stRelDie : ∀ a b c d e, Statement (.stRelDie a b c d e) := by intros; simp only [Statement, encodeWord, Instr.halfwords]; omega
theorem stRelPkg : ∀ a b c d e, Statement (.stRelPkg a b c d e) := by intros; simp only [Statement, encodeWord, Instr.halfwords]; omega
theorem stRelSys : ∀ a b c d e, Statement (.stRelSys a b c d e) := by intros; simp only [Statement, encodeWord, Instr.halfwords]; omega
theorem stn : ∀ a b c, Statement (.stn a b c) := by intros; simp only [Statement, encodeWord, Instr.halfwords]; omega
theorem lds : ∀ a b c d e, Statement (.lds a b c d e) := by intros; simp only [Statement, encodeWord, Instr.halfwords]; omega
theorem sts : ∀ a b c d e, Statement (.sts a b c d e) := by intros; simp only [Statement, encodeWord, Instr.halfwords]; omega
theorem ldfeKeep : ∀ a b c d, Statement (.ldfeKeep a b c d) := by intros; simp only [Statement, encodeWord, Instr.halfwords]; omega
theorem ldfeClr : ∀ a b c d, Statement (.ldfeClr a b c d) := by intros; simp only [Statement, encodeWord, Instr.halfwords]; omega
theorem stfe : ∀ a b c d, Statement (.stfe a b c d) := by intros; simp only [Statement, encodeWord, Instr.halfwords]; omega
theorem stfeWe : ∀ a b c d, Statement (.stfeWe a b c d) := by intros; simp only [Statement, encodeWord, Instr.halfwords]; omega
theorem atomAdd : ∀ a b c d e, Statement (.atomAdd a b c d e) := by intros; simp only [Statement, encodeWord, Instr.halfwords]; omega
theorem atomMins : ∀ a b c d e, Statement (.atomMins a b c d e) := by intros; simp only [Statement, encodeWord, Instr.halfwords]; omega
theorem atomMaxs : ∀ a b c d e, Statement (.atomMaxs a b c d e) := by intros; simp only [Statement, encodeWord, Instr.halfwords]; omega
theorem atomMinu : ∀ a b c d e, Statement (.atomMinu a b c d e) := by intros; simp only [Statement, encodeWord, Instr.halfwords]; omega
theorem atomMaxu : ∀ a b c d e, Statement (.atomMaxu a b c d e) := by intros; simp only [Statement, encodeWord, Instr.halfwords]; omega
theorem atomAnd : ∀ a b c d e, Statement (.atomAnd a b c d e) := by intros; simp only [Statement, encodeWord, Instr.halfwords]; omega
theorem atomOr : ∀ a b c d e, Statement (.atomOr a b c d e) := by intros; simp only [Statement, encodeWord, Instr.halfwords]; omega
theorem atomXor : ∀ a b c d e, Statement (.atomXor a b c d e) := by intros; simp only [Statement, encodeWord, Instr.halfwords]; omega
theorem atomExch : ∀ a b c d e, Statement (.atomExch a b c d e) := by intros; simp only [Statement, encodeWord, Instr.halfwords]; omega
theorem atomCas : ∀ a b c d e, Statement (.atomCas a b c d e) := by intros; simp only [Statement, encodeWord, Instr.halfwords]; omega
theorem atomFadd : ∀ a b c d e, Statement (.atomFadd a b c d e) := by intros; simp only [Statement, encodeWord, Instr.halfwords]; omega
theorem atomFmin : ∀ a b c d e, Statement (.atomFmin a b c d e) := by intros; simp only [Statement, encodeWord, Instr.halfwords]; omega
theorem atomFmax : ∀ a b c d e, Statement (.atomFmax a b c d e) := by intros; simp only [Statement, encodeWord, Instr.halfwords]; omega
theorem redAdd : ∀ a b c d e, Statement (.redAdd a b c d e) := by intros; simp only [Statement, encodeWord, Instr.halfwords]; omega
theorem redMins : ∀ a b c d e, Statement (.redMins a b c d e) := by intros; simp only [Statement, encodeWord, Instr.halfwords]; omega
theorem redMaxs : ∀ a b c d e, Statement (.redMaxs a b c d e) := by intros; simp only [Statement, encodeWord, Instr.halfwords]; omega
theorem redMinu : ∀ a b c d e, Statement (.redMinu a b c d e) := by intros; simp only [Statement, encodeWord, Instr.halfwords]; omega
theorem redMaxu : ∀ a b c d e, Statement (.redMaxu a b c d e) := by intros; simp only [Statement, encodeWord, Instr.halfwords]; omega
theorem redAnd : ∀ a b c d e, Statement (.redAnd a b c d e) := by intros; simp only [Statement, encodeWord, Instr.halfwords]; omega
theorem redOr : ∀ a b c d e, Statement (.redOr a b c d e) := by intros; simp only [Statement, encodeWord, Instr.halfwords]; omega
theorem redXor : ∀ a b c d e, Statement (.redXor a b c d e) := by intros; simp only [Statement, encodeWord, Instr.halfwords]; omega
theorem redFadd : ∀ a b c d e, Statement (.redFadd a b c d e) := by intros; simp only [Statement, encodeWord, Instr.halfwords]; omega
theorem redFmin : ∀ a b c d e, Statement (.redFmin a b c d e) := by intros; simp only [Statement, encodeWord, Instr.halfwords]; omega
theorem redFmax : ∀ a b c d e, Statement (.redFmax a b c d e) := by intros; simp only [Statement, encodeWord, Instr.halfwords]; omega
theorem fenceFull : ∀ a, Statement (.fenceFull a) := by intros; simp only [Statement, encodeWord, Instr.halfwords]; omega
theorem fenceAcq : ∀ a, Statement (.fenceAcq a) := by intros; simp only [Statement, encodeWord, Instr.halfwords]; omega
theorem fenceRel : ∀ a, Statement (.fenceRel a) := by intros; simp only [Statement, encodeWord, Instr.halfwords]; omega
theorem fenceCompletion : ∀ a, Statement (.fenceCompletion a) := fun _ => noWord rfl rfl
theorem pref : ∀ a b, Statement (.pref a b) := by intros; simp only [Statement, encodeWord, Instr.halfwords]; omega
theorem cacheWb : ∀ a b, Statement (.cacheWb a b) := by intros; simp only [Statement, encodeWord, Instr.halfwords]; omega
theorem cacheInv : ∀ a b, Statement (.cacheInv a b) := by intros; simp only [Statement, encodeWord, Instr.halfwords]; omega
theorem cacheWbinv : ∀ a b, Statement (.cacheWbinv a b) := by intros; simp only [Statement, encodeWord, Instr.halfwords]; omega
theorem ljoin : ∀ a b c d, Statement (.ljoin a b c d) := by intros; simp only [Statement, encodeWord, Instr.halfwords]; omega
theorem ljoinStrict : ∀ a b c d, Statement (.ljoinStrict a b c d) := by intros; simp only [Statement, encodeWord, Instr.halfwords]; omega
theorem lldt : ∀ a b c d, Statement (.lldt a b c d) := by intros; simp only [Statement, encodeWord, Instr.halfwords]; omega
theorem lldtPoll : ∀ a b c d, Statement (.lldtPoll a b c d) := by intros; simp only [Statement, encodeWord, Instr.halfwords]; omega
theorem qcfgLoop : ∀ a b c, Statement (.qcfgLoop a b c) := by intros; simp only [Statement, encodeWord, Instr.halfwords]; omega
theorem qcfgStrm : ∀ a b, Statement (.qcfgStrm a b) := by intros; simp only [Statement, encodeWord, Instr.halfwords]; omega
theorem qcfgOff : ∀ a, Statement (.qcfgOff a) := by intros; simp only [Statement, encodeWord, Instr.halfwords]; omega
theorem strm : ∀ a b c d, Statement (.strm a b c d) := by intros; simp only [Statement, encodeWord, Instr.halfwords]; omega
theorem cpy : ∀ a b c d, Statement (.cpy a b c d) := by intros; simp only [Statement, encodeWord, Instr.halfwords]; omega
theorem gath : ∀ a b c d, Statement (.gath a b c d) := by intros; simp only [Statement, encodeWord, Instr.halfwords]; omega
theorem scat : ∀ a b c d, Statement (.scat a b c d) := by intros; simp only [Statement, encodeWord, Instr.halfwords]; omega
theorem cpyMx : ∀ a b c d, Statement (.cpyMx a b c d) := by intros; simp only [Statement, encodeWord, Instr.halfwords]; omega
theorem cpyUnmx : ∀ a b c d, Statement (.cpyUnmx a b c d) := by intros; simp only [Statement, encodeWord, Instr.halfwords]; omega
theorem apnd : ∀ a b c d, Statement (.apnd a b c d) := by intros; simp only [Statement, encodeWord, Instr.halfwords]; omega
theorem apndDur : ∀ a b c d, Statement (.apndDur a b c d) := by intros; simp only [Statement, encodeWord, Instr.halfwords]; omega
theorem apndSync : ∀ a b c d, Statement (.apndSync a b c d) := by intros; simp only [Statement, encodeWord, Instr.halfwords]; omega
theorem send : ∀ a b c d, Statement (.send a b c d) := by intros; simp only [Statement, encodeWord, Instr.halfwords]; omega
theorem recv : ∀ a b c d, Statement (.recv a b c d) := by intros; simp only [Statement, encodeWord, Instr.halfwords]; omega
theorem wait : ∀ a b c d e, Statement (.wait a b c d e) := by intros; simp only [Statement, encodeWord, Instr.halfwords]; omega
theorem waitm : ∀ a b, Statement (.waitm a b) := by intros; simp only [Statement, encodeWord, Instr.halfwords]; omega
theorem gset : ∀ a b, Statement (.gset a b) := by intros; simp only [Statement, encodeWord, Instr.halfwords]; omega
theorem barArrive : ∀ a, Statement (.barArrive a) := by intros; simp only [Statement, encodeWord, Instr.halfwords]; omega
theorem barWait : ∀ a, Statement (.barWait a) := by intros; simp only [Statement, encodeWord, Instr.halfwords]; omega
theorem barSync : ∀ a, Statement (.barSync a) := by intros; simp only [Statement, encodeWord, Instr.halfwords]; omega
theorem cbar : ∀ a, Statement (.cbar a) := by intros; simp only [Statement, encodeWord, Instr.halfwords]; omega
theorem mfmt : ∀ a b, Statement (.mfmt a b) := by intros; simp only [Statement, encodeWord, Instr.halfwords]; omega
theorem mrun : ∀ a b, Statement (.mrun a b) := by intros; simp only [Statement, encodeWord, Instr.halfwords]; omega
theorem sequencerRunStart : ∀ a, Statement (.sequencerRunStart a) := fun _ => noWord rfl rfl
theorem nop : Statement .nop := by simp [Statement, encodeWord, Instr.halfwords]
theorem sysc : ∀ a b c, Statement (.sysc a b c) := by intros; simp only [Statement, encodeWord, Instr.halfwords]; omega
theorem syscReply : ∀ a b, Statement (.syscReply a b) := fun _ _ => noWord rfl rfl
theorem trap : ∀ a, Statement (.trap a) := by intros; simp only [Statement, encodeWord, Instr.halfwords]; omega
theorem uimask : ∀ a b, Statement (.uimask a b) := by intros; simp only [Statement, encodeWord, Instr.halfwords]; omega
theorem uiret : Statement .uiret := by simp [Statement, encodeWord, Instr.halfwords]
theorem emret : Statement .emret := by simp [Statement, encodeWord, Instr.halfwords]
theorem mma : ∀ a b c d e, Statement (.mma a b c d e) := by intros; simp only [Statement, encodeWord, Instr.halfwords]; omega
theorem mzero : ∀ a b, Statement (.mzero a b) := by intros; simp only [Statement, encodeWord, Instr.halfwords]; omega
theorem mdrain : ∀ a b c d e, Statement (.mdrain a b c d e) := by intros; simp only [Statement, encodeWord, Instr.halfwords]; omega
theorem mloop : ∀ a b, Statement (.mloop a b) := by intros; simp only [Statement, encodeWord, Instr.halfwords]; omega
theorem mbar : ∀ a, Statement (.mbar a) := by intros; simp only [Statement, encodeWord, Instr.halfwords]; omega
theorem mbarArrive : ∀ a, Statement (.mbarArrive a) := by intros; simp only [Statement, encodeWord, Instr.halfwords]; omega
theorem mend : ∀ a, Statement (.mend a) := by intros; simp only [Statement, encodeWord, Instr.halfwords]; omega
theorem multicastDelivery : ∀ a b, Statement (.multicastDelivery a b) := fun _ _ => noWord rfl rfl
theorem drainStaging : ∀ a, Statement (.drainStaging a) := fun _ => noWord rfl rfl
theorem stagingUnitWrite : ∀ a, Statement (.stagingUnitWrite a) := fun _ => noWord rfl rfl
theorem ksubmit : ∀ a b c, Statement (.ksubmit a b c) := by intros; simp only [Statement, encodeWord, Instr.halfwords]; omega
theorem kuiret : Statement .kuiret := by simp [Statement, encodeWord, Instr.halfwords]
theorem kuipendAccess : ∀ a b c d, Statement (.kuipendAccess a b c d) := fun _ _ _ _ => noWord rfl rfl
theorem registerWrite : ∀ a b c, Statement (.registerWrite a b c) := fun _ _ _ => noWord rfl rfl
theorem hostUiEntry : ∀ a, Statement (.hostUiEntry a) := fun _ => noWord rfl rfl
theorem launchNow : ∀ a, Statement (.launchNow a) := fun _ => noWord rfl rfl
theorem bindTask : ∀ a, Statement (.bindTask a) := fun _ => noWord rfl rfl
theorem unbindTask : ∀ a, Statement (.unbindTask a) := fun _ => noWord rfl rfl
theorem blockPlacement : Statement .blockPlacement := noWord rfl rfl
theorem blockFinish : ∀ a, Statement (.blockFinish a) := fun _ => noWord rfl rfl
theorem launchEnd : ∀ a, Statement (.launchEnd a) := fun _ => noWord rfl rfl
theorem fragmentWaitExpiry : ∀ a b, Statement (.fragmentWaitExpiry a b) := fun _ _ => noWord rfl rfl
theorem activeSetAdmission : ∀ a b, Statement (.activeSetAdmission a b) := fun _ _ => noWord rfl rfl
theorem admissionTimeout : ∀ a b, Statement (.admissionTimeout a b) := fun _ _ => noWord rfl rfl
theorem ctimeTick : ∀ a, Statement (.ctimeTick a) := fun _ => noWord rfl rfl
theorem horizonWaitRelease : ∀ a, Statement (.horizonWaitRelease a) := fun _ => noWord rfl rfl
theorem timestampSweep : ∀ a, Statement (.timestampSweep a) := fun _ => noWord rfl rfl
theorem stackRead : ∀ a b c, Statement (.stackRead a b c) := fun _ _ _ => noWord rfl rfl
theorem stackRenewal : ∀ a b c, Statement (.stackRenewal a b c) := fun _ _ _ => noWord rfl rfl
theorem grantInstall : ∀ a, Statement (.grantInstall a) := fun _ => noWord rfl rfl
theorem stackWrite : ∀ a, Statement (.stackWrite a) := fun _ => noWord rfl rfl
theorem engineStackWrite : ∀ a b, Statement (.engineStackWrite a b) := fun _ _ => noWord rfl rfl
theorem stackFill : ∀ a b, Statement (.stackFill a b) := fun _ _ => noWord rfl rfl
theorem stackEviction : ∀ a b, Statement (.stackEviction a b) := fun _ _ => noWord rfl rfl
theorem ownershipRequest : ∀ a b, Statement (.ownershipRequest a b) := fun _ _ => noWord rfl rfl
theorem invalidatingProbe : ∀ a b, Statement (.invalidatingProbe a b) := fun _ _ => noWord rfl rfl
theorem memoryOpCompletion : ∀ a b, Statement (.memoryOpCompletion a b) := fun _ _ => noWord rfl rfl
theorem engineCommandCompletion : ∀ a b, Statement (.engineCommandCompletion a b) := fun _ _ => noWord rfl rfl
theorem engineFrameBoundary : ∀ a b, Statement (.engineFrameBoundary a b) := fun _ _ => noWord rfl rfl
theorem streamEntryDelivery : ∀ a b, Statement (.streamEntryDelivery a b) := fun _ _ => noWord rfl rfl
theorem codeSlotLanding : ∀ a b, Statement (.codeSlotLanding a b) := fun _ _ => noWord rfl rfl
theorem recordAcceptance : ∀ a b, Statement (.recordAcceptance a b) := fun _ _ => noWord rfl rfl
theorem recordDurable : ∀ a, Statement (.recordDurable a) := fun _ => noWord rfl rfl
theorem trapHandlerEntry : ∀ a b, Statement (.trapHandlerEntry a b) := fun _ _ => noWord rfl rfl
theorem interruptEntry : ∀ a b, Statement (.interruptEntry a b) := fun _ _ => noWord rfl rfl
theorem uiTimerExpiry : ∀ a, Statement (.uiTimerExpiry a) := fun _ => noWord rfl rfl
theorem waitmReread : ∀ a b, Statement (.waitmReread a b) := fun _ _ => noWord rfl rfl
theorem faultRingWaitRelease : ∀ a, Statement (.faultRingWaitRelease a) := fun _ => noWord rfl rfl
theorem firnDataArrival : ∀ a, Statement (.firnDataArrival a) := fun _ => noWord rfl rfl
theorem peerAccessRequest : ∀ a b, Statement (.peerAccessRequest a b) := fun _ _ => noWord rfl rfl
theorem peerAccessTimeout : ∀ a b, Statement (.peerAccessTimeout a b) := fun _ _ => noWord rfl rfl
theorem networkPacketPlacement : ∀ a b c d e, Statement (.networkPacketPlacement a b c d e) := fun _ _ _ _ _ => noWord rfl rfl
theorem packetRetransmission : ∀ a b, Statement (.packetRetransmission a b) := fun _ _ => noWord rfl rfl
theorem peerNotReadyRetry : ∀ a b, Statement (.peerNotReadyRetry a b) := fun _ _ => noWord rfl rfl
theorem sendAckTimeout : ∀ a b, Statement (.sendAckTimeout a b) := fun _ _ => noWord rfl rfl
theorem serviceEcho : ∀ a, Statement (.serviceEcho a) := fun _ => noWord rfl rfl
theorem invalidationRequest : ∀ a, Statement (.invalidationRequest a) := fun _ => noWord rfl rfl
theorem invalidationCompletion : ∀ a, Statement (.invalidationCompletion a) := fun _ => noWord rfl rfl
theorem faultResolve : ∀ a, Statement (.faultResolve a) := fun _ => noWord rfl rfl
theorem preempt : ∀ a, Statement (.preempt a) := fun _ => noWord rfl rfl
theorem coreHalt : ∀ a, Statement (.coreHalt a) := fun _ => noWord rfl rfl
theorem saveImageWrite : ∀ a, Statement (.saveImageWrite a) := fun _ => noWord rfl rfl
theorem restore : ∀ a, Statement (.restore a) := fun _ => noWord rfl rfl
theorem restorePlacement : ∀ a, Statement (.restorePlacement a) := fun _ => noWord rfl rfl
theorem openLog : ∀ a, Statement (.openLog a) := fun _ => noWord rfl rfl
theorem closeLog : ∀ a, Statement (.closeLog a) := fun _ => noWord rfl rfl
theorem hostAppend : ∀ a, Statement (.hostAppend a) := fun _ => noWord rfl rfl
theorem driftControl : ∀ a, Statement (.driftControl a) := fun _ => noWord rfl rfl
theorem openMailboxWindow : ∀ a, Statement (.openMailboxWindow a) := fun _ => noWord rfl rfl
theorem closeWindow : ∀ a, Statement (.closeWindow a) := fun _ => noWord rfl rfl
theorem remapDone : ∀ a, Statement (.remapDone a) := fun _ => noWord rfl rfl
theorem submitLaunch : ∀ a, Statement (.submitLaunch a) := fun _ => noWord rfl rfl
theorem asidTeardown : ∀ a, Statement (.asidTeardown a) := fun _ => noWord rfl rfl
theorem bindQueue : ∀ a, Statement (.bindQueue a) := fun _ => noWord rfl rfl
theorem expertPowerCap : ∀ a, Statement (.expertPowerCap a) := fun _ => noWord rfl rfl
theorem expertReplanningPeriod : ∀ a, Statement (.expertReplanningPeriod a) := fun _ => noWord rfl rfl
theorem expertEscalationThreshold : ∀ a, Statement (.expertEscalationThreshold a) := fun _ => noWord rfl rfl
theorem expertIslandOperatingPoint : ∀ a, Statement (.expertIslandOperatingPoint a) := fun _ => noWord rfl rfl
theorem bindNvmeQueuePair : ∀ a, Statement (.bindNvmeQueuePair a) := fun _ => noWord rfl rfl
theorem unbindNvmeQueuePair : ∀ a, Statement (.unbindNvmeQueuePair a) := fun _ => noWord rfl rfl
theorem driveTransfer : ∀ a b c d e, Statement (.driveTransfer a b c d e) := fun _ _ _ _ _ => noWord rfl rfl
theorem rollback : ∀ a, Statement (.rollback a) := fun _ => noWord rfl rfl
theorem launchReplay : ∀ a, Statement (.launchReplay a) := fun _ => noWord rfl rfl
theorem linkRetryExhausted : ∀ a, Statement (.linkRetryExhausted a) := fun _ => noWord rfl rfl
theorem scrubPass : ∀ a b, Statement (.scrubPass a b) := fun _ _ => noWord rfl rfl
theorem frameRetirement : ∀ a b c, Statement (.frameRetirement a b c) := fun _ _ _ => noWord rfl rfl
theorem migrationLineMove : ∀ a, Statement (.migrationLineMove a) := fun _ => noWord rfl rfl
theorem snapshotCopy : ∀ a b, Statement (.snapshotCopy a b) := fun _ _ => noWord rfl rfl
theorem clusterRetirement : ∀ a b, Statement (.clusterRetirement a b) := fun _ _ => noWord rfl rfl
theorem escalationThreshold : ∀ a b, Statement (.escalationThreshold a b) := fun _ _ => noWord rfl rfl
theorem oscillatorSample : ∀ a b, Statement (.oscillatorSample a b) := fun _ _ => noWord rfl rfl
theorem replanningWindow : ∀ a b c, Statement (.replanningWindow a b c) := fun _ _ _ => noWord rfl rfl
theorem windowMissed : ∀ a, Statement (.windowMissed a) := fun _ => noWord rfl rfl
theorem uncoreCanarySweep : ∀ a b c, Statement (.uncoreCanarySweep a b c) := fun _ _ _ => noWord rfl rfl
theorem driftExchangeStep : ∀ a, Statement (.driftExchangeStep a) := fun _ => noWord rfl rfl
theorem garbageCollection : ∀ a b c, Statement (.garbageCollection a b c) := fun _ _ _ => noWord rfl rfl
theorem eventRingDeferredWrite : Statement .eventRingDeferredWrite := noWord rfl rfl
theorem powerCapControl : ∀ a b, Statement (.powerCapControl a b) := fun _ _ => noWord rfl rfl
theorem boot : Statement .boot := noWord rfl rfl
theorem powerLoss : Statement .powerLoss := noWord rfl rfl
theorem kBlockEnd : ∀ a, Statement (.kBlockEnd a) := fun _ => noWord rfl rfl
theorem hostCoreAccess : ∀ a b c d e f, Statement (.hostCoreAccess a b c d e f) := fun _ _ _ _ _ _ => noWord rfl rfl
theorem externalHostAccess : ∀ a b, Statement (.externalHostAccess a b) := fun _ _ => noWord rfl rfl

end Sys2Proof.Laws.WordFits
end

