-- ==== Sys2Proof/Tests/Slice0.lean ====
section
/-!
SUPPORT. Tests. Ill-formed terms that WellFormed refuses; words as the manual writes them and what they decode to; single steps; and,
for the statements of Certificates/Slice0/Obligations.lean, states and operands that meet their hypotheses.
-/
namespace Sys2Proof.Tests
set_option Elab.async false
open Sys2Proof.Machine Sys2Proof.Claims

/-! ## Ill-formed terms: one for each check of R90 on an instruction's own fields -/

theorem test_class_refused :
    [Instr.iaddc 2 0 0 0, .isubb 2 0 0 0, .movR 1 0 0, .rdsr 1 1 0, .rdsr 3 1 0, .unpk 1 0 0, .unpk 3 0 0, .sel 0 2 0 0 0,
     .frcp 0 1 0 0, .frsq 0 3 0 0, .fsqrt 0 1 0 0, .fex2 0 3 0 0, .flg2 0 1 0 0, .fsin 0 3 0 0, .fcos 0 1 0 0,
     .fcls 0 3 0 0].all (fun i => !i.wf) = true := by decide
theorem test_alu_fields_refused :
    [Instr.iadd16 0 0, .mov16 0 0, .shlI 32 0 0 0, .shlI 64 1 0 0, .shrI 32 0 0 0, .sarI 0x1FF 0 0 0, .bfx 0 32 0 0 0, .bfx 0 0 32 0 0,
     .bfi 32 0 0 0, .bfi 0 32 0 0, .icmpS 0 0 0 6 0, .icmpU 0 0 0 7 0, .plog 0 0 4 0, .rdsr 0 0x20 0, .wrsr 0 0x20, .wrsr 0 0x0A,
     .wrsr 0 0x18, .wrsr 0 0x19, .cvt 0 0 7 0 0 0, .cvt 0 0 0 8 0 0, .qnt 0 0 1 0 0 0, .deq 0xA 0 0 0, .split 3].all (fun i => !i.wf) = true := by
  decide
theorem test_memory_fields_refused :
    [Instr.ld 6 0 0 0 0, .ld 2 1 5 0 0, .ldNa 6 0 0 0 0, .ldAcqBlk 7 0 0 0 0, .ldAcqDie 6 0 0 0 0, .ldAcqPkg 6 0 0 0 0, .ldAcqSys 2 1 62 0 0,
     .st 5 0 0 0 0, .st 2 1 0 0 0, .stNa 5 0 0 0 0, .stRelBlk 5 0 0 0 0, .stRelDie 6 0 0 0 0, .stRelPkg 7 0 0 0 0, .stRelSys 5 0 0 0 0,
     .lds 5 0 0 0 0, .sts 2 1 0 0 0, .ldfeKeep 5 0 0 0, .ldfeClr 5 0 0 0, .stfe 5 0 0 0, .stfeWe 7 0 0 0, .fenceFull 5, .fenceAcq 6,
     .fenceRel 7].all (fun i => !i.wf) = true := by decide
theorem test_engine_and_matrix_fields_refused :
    [Instr.qcfgLoop 0 0 0, .qcfgLoop 17 0 0, .cfetch 9 0 0 0, .strm 9 0 0 0, .cpy 15 0 0 0, .gath 9 0 0 0, .scat 9 0 0 0, .cpyMx 9 0 0 0,
     .cpyUnmx 9 0 0 0, .apnd 9 0 0 0, .apndDur 9 0 0 0, .apndSync 7 0 0 0, .send 9 0 0 0, .recv 9 0 0 0, .mma 0 0 0 0 24, .mzero 8 16,
     .mdrain 0 0 0 0 24].all (fun i => !i.wf) = true := by decide

/-! ## Words of the manual, as its reference chapters and worked programs encode them -/

/-- Each floe word decodes to its instruction. -/
def reads (l : List (Nat × Instr)) : Bool := l.all (fun e => decide (decode32 e.1 = .ok e.2) && encodeWord e.2 == e.1)

/-- R328's, R317's and the reference's words for logic, moves and conversions (R345, R377, R406, R412, R416, R361). -/
theorem test_words_logic : reads
    [(0x3830A387, .fshl 0 6 5 7), (0x4061A707, .fshr 0 12 13 14), (0x0821250B, .bfx 0 4 4 9 10), (0x50088291, .sel 2 0 1 4 5),
     (0x6830A207, .prmt 0 6 5 4), (0x2030A211, .pack2 0 6 5 4), (0x0C49039F, .deq 6 9 8 7), (0x1C02E811, .wrsr 23 0x10),
     (0x1C028C11, .wrsrUivec 20)] = true := by decide +kernel
/-- Cross-lane words and width changes (R389, R399, R431, R376). -/
theorem test_words_lanes : reads
    [(0x22688721, .lbc 13 4 14), (0x280045A1, .rfa 2 11), (0x40008E21, .voteBallot 4 28), (0x780062A1, .matchLanes 3 5),
     (0x0C000623, .fuse 12), (0x0C0002A3, .fuse 5)] = true := by decide +kernel
/-- Branches and calls (R346, R347, R349, R352). -/
theorem test_words_branches : reads
    [(0xFFFE03A5, .bra (-16)), (0x00100BA5, .callRel 0x80), (0x000100A7, .brc 8 0 0 1), (0xFFFF41A7, .brc (-6) 0 0 3), (0x04028029, .brx 20),
     (0x14000029, .ret)] = true := by decide +kernel
/-- Loads, stores, the scratchpad and a prefetch (R390, R391, R393, R415, R441). -/
theorem test_words_memory : reads
    [(0x0419422F, .ld 1 0 3 10 4), (0x0FF846B1, .st 3 1 63 2 13), (0x0409_0231, .st 1 0 1 8 4), (0x6BF82331, .stRelDie 2 1 63 1 6),
     (0x6BF824AF, .ldAcqDie 2 1 63 1 9), (0x004144B3, .lds 0 0 8 10 9), (0x60108039, .pref 2 4)] = true := by decide +kernel
/-- Engine commands, waits and barriers (R174, R187, R208, R343, R353, R355, R403, R408, R426, R445, R453). -/
theorem test_words_engines : reads
    [(0x11F9413F, .cpy 8 63 10 2), (0x31F9243D, .strm 8 63 9 8), (0x1051242D, .cfetch 8 10 9 8), (0x10294041, .apnd 8 5 10 0),
     (0x30294041, .apndDur 8 5 10 0), (0x10614443, .send 8 12 10 8), (0x51F964C3, .recv 8 63 11 9), (0x1E1FFFC5, .wait 15 0 15 31 31),
     (0x1FE1FFC5, .wait 15 15 0 31 31), (0x0479C047, .waitm 15 14), (0x20006049, .mfmt 3 0), (0x2C688049, .mrun 13 4),
     (0x1C018049, .cbar 12)] = true := by decide +kernel
/-- The SYSTEM major (R263, R303, R362, R449, R450). -/
theorem test_words_system : reads
    [(0x0C38C2CB, .sysc 7 6 5), (0x100000CB, .trap 1), (0x1C00C2CB, .uimask 6 5), (0x2000004B, .uiret), (0x2800004B, .emret)] = true := by
  decide +kernel
/-- Fields set by hand in the layouts of R82, R94 and R95: integer, compare, float, conversion, atomic, lattice, fence, queue. -/
theorem test_words_by_field : reads
    [(3 + (3 <<< 19) + (2 <<< 13) + (1 <<< 7), .iaddR 0 3 2 1),
      (0x0F + (1 <<< 25) + (9 <<< 19) + (8 <<< 13) + (5 <<< 10) + (2 <<< 7), .icmpS 1 9 8 5 2),
     (0x17 + (1 <<< 27) + (6 <<< 19) + (4 <<< 13) + (2 <<< 7), .fadd 1 0 6 4 2), (0x19 + (7 <<< 27) + (5 <<< 13) + (4 <<< 7), .fcls 0 0 5 4),
     (0x1B + (1 <<< 31) + (3 <<< 29) + (4 <<< 25) + (2 <<< 19) + (7 <<< 13) + (8 <<< 7), .cvt 1 3 4 2 7 8),
     (0x35 + (9 <<< 28) + (2 <<< 26) + (1 <<< 25) + (5 <<< 19) + (6 <<< 13) + (8 <<< 7), .atomCas 2 1 5 6 8),
     (0x37 + (3 <<< 26) + (63 <<< 19) + (6 <<< 13) + (8 <<< 7), .redAdd 3 0 63 6 8), (0x39 + (1 <<< 29) + (3 <<< 7), .fenceAcq 3),
     (0x3B + (3 <<< 29) + (1 <<< 27) + (1 <<< 26) + (5 <<< 19) + (6 <<< 13) + (8 <<< 7), .lldtPoll 1 5 6 8),
     (0x3D + (16 <<< 23) + (9 <<< 13) + (2 <<< 7), .qcfgLoop 16 9 2)] = true := by decide +kernel
/-- 16-bit words (R81): IADD v18, v18, -1; halves whose lowest bit is 0. -/
theorem test_words_16 : decode16 0xF4BE = .ok (.iadd16Imm 18 31) ∧ decode16 0x9000 = .ok .nop16 ∧ decode16 0 = .error 0 := by decide +kernel
/-- Matrix stream words of R330 (R152, R404, R405, R409). -/
theorem test_words_matrix :
    decodeMatrix 0x10081061 = some (.mma 1 0 2 1 0) ∧ decodeMatrix 0x00103065 = some (.mdrain 0 0 4 3 0) ∧
    decodeMatrix 0x000001EB = some (.mend 3) ∧ decodeMatrix 0x00000063 = some (.mzero 0 0) ∧ decodeMatrix 0xFFFFF067 = some (.mloop 0xFFFFF 0) := by
  decide +kernel
/-- Words that do not decode take their reasons (R90): a matrix major in floe code, an unknown major, a reserved shift, a class. -/
theorem test_words_refused :
    decode32 0x00000063 = .error 3 ∧ decode32 0x0000004D = .error 2 ∧ decode32 (encodeWord (.fenceFull 5)) = .error 7 := by decide +kernel

/-! ## Single steps, from reset with one word placed -/

/-- What an outcome's next state is, seen through f. -/
def sees {α : Type} (o : Host.Outcome State Fault Refusal) (f : State → α) : Option α :=
  match o with
  | .next t => some (f t)
  | _ => none
/-- A step from reset with one word placed. -/
def stepSees {α : Type} (nbits w : Nat) (f : State → α) : Option α := sees (step (State.reset.withFetchWord nbits w)) f
/-- The placed block's floe of 16 lanes and 256 registers, about to issue on core 0. -/
@[irreducible] def base : State := State.reset.placeBlock []
/-- `base` with words in registers of lane 0. -/
@[irreducible] def withV (l : List (Nat × W32)) : State := base.updBlock 0 (fun b => l.foldl (fun b e => b.setReg 0 e.1 e.2) b)
/-- `base` with uniform registers. -/
@[irreducible] def withS (l : List (Nat × W64)) : State := base.updFloe 0 (fun fl => l.foldl (fun fl e => fl.setS e.1 e.2) fl)

/-- MOVI v17, 1 in the last lane; the next instruction stands 4 bytes on (R407). -/
theorem test_step_movi : stepSees 32 0x00004893 (fun t => ((t.block 0).reg 15 17, (t.frag 0 0).pc)) = some (1, 4) := by decide +kernel
/-- The 16-bit NOP goes on behind 2 bytes (R410). -/
theorem test_step_nop16 : stepSees 16 0x9000 (fun t => (t.frag 0 0).pc) = some 2 := by decide +kernel
/-- A sequencer word goes on behind 4 bytes (R409). -/
theorem test_step_mzero : stepSees 32 0x00000063 (fun t => (t.core 0).run.map (fun r => r.pc)) = some (some 0x10004) := by decide +kernel
/-- EXIT of the only floe's only fragment retires it (R363, R364). -/
theorem test_step_exit : stepSees 32 0x18000029 (fun t => (t.floe 0).st) = some .retired := by decide +kernel
/-- A word of an unknown major without a handler ends its launch with status 3 and cause 0x0B (R90, R92, R259). -/
theorem test_step_unknown : stepSees 32 0x0000004D (fun t => ((t.launch 1).status, (t.launch 1).cause)) = some (3, 0x0B) := by decide +kernel
/-- kuiret in host hart 0 answers a next state (R301). -/
theorem test_step_kuiret : (sees (step (State.reset.withFetchWord 32 0x100B)) (fun t => t.mem)).isSome = true := by decide +kernel

/-! ## Values that the manual's examples give -/

/-- The example of R386: 64-bit addition by two IADDCs. -/
theorem test_iaddc : sees (exec (.iaddc 0 4 2 6) (withV [(2, 1), (4, 0xFFFFFFFF)])) (fun t => ((t.block 0).reg 0 6, (t.block 0).pred 0 6)) =
    some (0, true) := by decide +kernel
/-- R377: FSHL of 0x12345678, 0x9ABCDEF0 by 8. -/
theorem test_fshl : sees (exec (.fshl 0 6 5 7) (withV [(5, 0x12345678), (6, 0x9ABCDEF0), (7, 8)])) (fun t => (t.block 0).reg 0 7) =
    some 0x3456789A := by decide +kernel
/-- R416: PRMT of 0x88442211 by 0xF610. -/
theorem test_prmt : sees (exec (.prmt 0 6 5 4) (withV [(5, 0x88442211), (6, 0xF610)])) (fun t => (t.block 0).reg 0 4) = some 0xFF222211 := by
  decide +kernel
/-- R345: BFX.S at 8 of length 12, and BFI at 16 of length 8. -/
theorem test_bit_fields : sees (exec (.bfx 1 12 8 2 1) (withV [(2, 0x00ABCDEF)])) (fun t => (t.block 0).reg 0 1) = some 0xFFFFFBCD ∧
    sees (exec (.bfi 8 16 2 1) (withV [(1, 0x11111111), (2, 0xA5)])) (fun t => (t.block 0).reg 0 1) = some 0x11A51111 := by decide +kernel
/-- R348: CLZ, CTZ and BREV; R414: POPC; class 2 counts 64 bits. -/
theorem test_counts : sees (exec (.clz 0 2 1) (withV [(2, 0xF000)])) (fun t => (t.block 0).reg 0 1) = some 16 ∧
    sees (exec (.ctz 0 2 1) (withV [(2, 0xF000)])) (fun t => (t.block 0).reg 0 1) = some 12 ∧
    sees (exec (.clz 2 2 1) (withS [(2, 0xF000)])) (fun t => (t.floe 0).S 1) = some 48 ∧
    sees (exec (.brev 0 2 1) (withV [(2, 1)])) (fun t => (t.block 0).reg 0 1) = some 0x80000000 ∧
    sees (exec (.popc 0 2 1) (withV [(2, 0xF0F00001)])) (fun t => (t.block 0).reg 0 1) = some 9 := by decide +kernel
/-- R431: REDX.FADD adds in ascending order: 1.0 with 2^-24 twice stays 1.0 (the ties go to even). -/
theorem test_redx_fadd : sees (exec (.redxFadd 2 1) (base.updBlock 0 (fun b =>
  ((b.setReg 0 2 0x3F800000).setReg 1 2 0x33800000).setReg 2 2 0x33800000)))
    (fun t => (t.floe 0).S 1) = some 0x3F800000 := by decide +kernel

/-! ## States and operands that meet the statements' hypotheses -/

/-- The conditions of `CanRun` but the instruction's own, as one check. -/
def runs (s : State) (e : Effect) : Bool :=
  decide (∀ g ∈ e.srcs ++ e.dsts, s.absReg g.n + g.count ≤ s.blk.nregs ∧ s.absReg g.n % g.align = 0) &&
  decide (∀ g ∈ e.srcs ++ e.dsts, ∀ i < g.count, s.fl.backing (s.absReg (g.n + i)) = false) &&
  decide (∀ q ∈ s.portsOf e.srcs, ∀ l ∈ s.lanes, s.blk.qent (s.thread l) q ≠ []) &&
  decide (∀ q ∈ s.portsOf e.dsts, (s.fl.queue q).mode ≠ .stream ∧ ∀ l ∈ s.lanes, (popped s e.srcs l q).length < (s.fl.queue q).depth) &&
  decide (∀ l ∈ s.lanes, s.operandBad e.srcs l = false)
theorem canRun_of {s : State} {e : Effect} (h : runs s e = true) (ha : e.also) : CanRun s e := by
  simp only [runs, Bool.and_eq_true, decide_eq_true_eq] at h
  exact ⟨h.1.1.1.1, h.1.1.1.2, h.1.1.2, h.1.2, h.2, ha⟩
/-- What the integer, carry, logic, move, compare, float, special, conversion and cross-lane statements ask. -/
def Runs (rule : State → Instr → Option Effect) (i : Instr) (s : State) : Prop := ∃ e, i.wf = true ∧ rule s i = some e ∧ CanRun s e

theorem reach_integer : Runs intRule (.iaddR 0 3 2 1) base := ⟨_, by decide, rfl, canRun_of (by decide +kernel) trivial⟩
theorem reach_integer_uniform : Runs intRule (.imad 2 3 2 1) base := ⟨_, by decide, rfl, canRun_of (by decide +kernel) trivial⟩
theorem reach_integer_16 : Runs intRule (.iadd16 63 31) base := ⟨_, by decide, rfl, canRun_of (by decide +kernel) trivial⟩
theorem reach_carry : Runs carryRule (.iaddc 0 3 2 1) base := ⟨_, by decide, rfl, canRun_of (by decide +kernel) trivial⟩
theorem reach_logic : Runs logicRule (.bfi 0 31 2 1) base := ⟨_, by decide, rfl, canRun_of (by decide +kernel) trivial⟩
theorem reach_move : Runs moveRule (.unpk 2 5 4) base := ⟨_, by decide, rfl, canRun_of (by decide +kernel) (show 4 % 2 = 0 by decide)⟩
theorem reach_compare : Runs compareRule (.icmpS 0 9 8 5 7) base := ⟨_, by decide, rfl, canRun_of (by decide +kernel) trivial⟩
theorem reach_float : Runs fpRule (.ffma 1 0 4 2 6) base := ⟨_, by decide, rfl, canRun_of (by decide +kernel) trivial⟩
theorem reach_float_checked : Runs fpRule (.fadd 0 0 4 2 6) base :=
  ⟨_, by decide, rfl, canRun_of (by decide +kernel) (show NoError base true from fun _ => by decide +kernel)⟩
theorem reach_special : Runs specialRule (.fcls 1 0 4 3) base := ⟨_, by decide, rfl, canRun_of (by decide +kernel) trivial⟩
theorem reach_convert : Runs convertRule (.cvt 1 3 4 2 7 8) base := ⟨_, by decide, rfl, canRun_of (by decide +kernel) trivial⟩
theorem reach_lanes : Runs laneRule (.shflRot 0 3 2 1) base :=
  ⟨_, by decide, rfl, canRun_of (by decide +kernel) ⟨by unfold readable_; decide +kernel, by decide +kernel⟩⟩

/-! ### Numbers -/

/-- 1.0, which has a reciprocal in its format. -/
theorem one_is : ratOf fmt32 0x3F800000 = 1 := by
  norm_num [ratOf, signOf, expOf, fracOf, fmt32, BinFmt.bias]
theorem reach_rounded : finiteCode fmt32 0x3F800000 ∧ nanCodeOf fmt32 0x7FC00001 ∧ ratOf fmt32 0x3F800000 ≠ 0 ∧ 0 < ratOf fmt32 0x3F800000 ∧
    (∃ d, finiteCode fmt32 d ∧ |1 / ratOf fmt32 0x3F800000| ≤ ratOf fmt32 d ∧ ratOf fmt32 d = 1 / ratOf fmt32 0x3F800000) ∧
    ((2 : ℚ) ^ (0 : ℤ) ≤ |1 / ratOf fmt32 0x3F800000| ∧ |1 / ratOf fmt32 0x3F800000| < 2 ^ ((0 : ℤ) + 1)) ∧ member 2 0x38 := by
  refine ⟨by unfold finiteCode; decide, by unfold nanCodeOf; decide, ?_, ?_, ⟨0x3F800000, by unfold finiteCode; decide, ?_, ?_⟩, ⟨?_, ?_⟩, show 0x38 < 256 ∧ 0x38 % 128 ≠ 127 by decide⟩ <;>
    rw [one_is] <;> norm_num
/-- The reciprocal of the least subnormal is above every finite number. -/
theorem reach_rcp_overflow : ∀ d, finiteCode fmt32 d → |ratOf fmt32 d| < |1 / ratOf fmt32 1| := by
  intro d ⟨_, he⟩
  have h1 : ratOf fmt32 1 = 2 ^ (-149 : ℤ) := by norm_num [ratOf, signOf, expOf, fracOf, fmt32, BinFmt.bias]
  have hf : (fracOf fmt32 d : ℚ) ≤ 2 ^ 23 := by
    have : fracOf fmt32 d < 2 ^ 23 := Nat.mod_lt _ (by decide)
    exact_mod_cast this.le
  have hx : expOf fmt32 d ≤ 254 := by
    have : expOf fmt32 d < 256 := Nat.mod_lt _ (by decide)
    have : expOf fmt32 d ≠ 255 := he
    omega
  have hp : (2 : ℚ) ^ ((expOf fmt32 d : ℤ) - 127 - 23) ≤ 2 ^ (104 : ℤ) := zpow_le_zpow_right₀ (by norm_num) (by omega)
  have hn : (0 : ℚ) ≤ fracOf fmt32 d := Nat.cast_nonneg _
  rw [h1]
  have hs : |((-1 : ℚ)) ^ signOf fmt32 d| = 1 := by simp
  unfold ratOf
  rw [abs_mul, hs, one_mul]
  have hb : |(1 : ℚ) / 2 ^ (-149 : ℤ)| = 2 ^ (149 : ℤ) := by norm_num
  rw [hb]
  split
  · rw [abs_of_nonneg (by positivity)]
    calc (fracOf fmt32 d : ℚ) * 2 ^ (1 - fmt32.bias - fmt32.mb) ≤ 2 ^ 23 * 2 ^ (1 - fmt32.bias - fmt32.mb) := by gcongr
      _ < 2 ^ (149 : ℤ) := by norm_num [fmt32, BinFmt.bias]
  · rw [abs_of_nonneg (by positivity), show fmt32.bias = 127 from rfl, show (fmt32.mb : ℤ) = 23 from rfl, show fmt32.mb = 23 from rfl]
    calc (2 ^ 23 + (fracOf fmt32 d : ℚ)) * 2 ^ ((expOf fmt32 d : ℤ) - 127 - 23) ≤ (2 ^ 23 + 2 ^ 23) * 2 ^ (104 : ℤ) := by gcongr
      _ < 2 ^ (149 : ℤ) := by norm_num

/-! ### Turns, traps, jumps -/

/-- A table reads as its entries or its default. -/
theorem getD_all {α : Type} (p : α → Bool) (t : Tab α) (d : α) (hd : p d = true) (h : t.all (fun e => p e.2) = true) (k : Nat) :
    p (t.getD k d) = true := by
  induction t with
  | nil => exact hd
  | cons e t ih =>
    simp only [List.all_cons, Bool.and_eq_true] at h
    unfold Tab.getD Tab.get?
    split
    · exact h.1
    · exact ih h.2
/-- No launch is armed where none listed is. -/
theorem unarmed_of {s : State} (h : s.launches.all (fun e => !e.2.armed) = true) (l : Nat) : (s.launch l).armed = false := by
  have := getD_all (fun x : Launch => !x.armed) s.launches Launch.reset rfl h l
  simpa [State.launch] using this

/-- A page of 64 KiB at physical address 0, readable, writable and executable. -/
def page : Xlat := ⟨0, 0x10000, 0x10000, 0x1F, 0⟩
/-- A line that its die's stack owns. -/
def line : StackLine := ⟨0, 0, 0, true, false, 0, 0⟩
/-- `base` with that page held, line 0 owned by die 0, S(62) at the record above it, a trap handler at 0x40 and s4 at the page. -/
@[irreducible] def ready : State :=
  ((base.updFloe 0 (fun fl => { ((fl.setS 62 0x10040).setS 4 0x10000) with uivec := BitVec.ofNat 64 (2 ^ 43 + 0x40 * 2 ^ 44) })).updCore 0 (fun k =>
    { k with pages := [page] })).updDie 0 (fun d => { d with stack := [(0, line)] })
theorem ready_owned {d ln key : Nat} (hd : d = 0) (hl : ln = 0) (hk : key = 0) : Owned ready d ln key line := by
  subst hd hl hk
  exact ⟨by decide, by decide +kernel, rfl, rfl, by decide +kernel, by decide +kernel, unarmed_of (by decide +kernel), by decide +kernel⟩
theorem ready_enters : CanEnter ready 0 0 page line :=
  ⟨by decide +kernel, by decide +kernel, by decide +kernel, by decide +kernel, by decide +kernel, by decide +kernel, by decide +kernel,
   ready_owned (by decide +kernel) (by decide +kernel) (by decide +kernel), by unfold mayRise; decide +kernel⟩
theorem ready_cur : ready.cur.floe = 0 ∧ ready.cur.frag = 0 := by decide +kernel
theorem reach_trap : MayTrap ready page line :=
  ⟨by unfold TrapsNow; decide +kernel, by decide +kernel, by rw [ready_cur.1, ready_cur.2]; exact ready_enters⟩
theorem reach_trap_unhandled : TrapsNow base ∧ base.fl.uivec.getLsbD 43 = false ∧ (base.launch base.blk.launch).phase = .running := by
  unfold TrapsNow; decide +kernel
/-- A cause that a request holds back. -/
theorem reach_trap_held : ∃ s : State, Here s ∧ TrapWaits s :=
  ⟨base.updCore 0 (fun k => { k with haltReq := true }), by unfold Here TrapWaits; decide +kernel⟩
/-- A pair at an odd register is refused, and registers beyond N. -/
theorem reach_refused : ∃ e g, fpRule ready (.fadd 1 0 4 2 5) = some e ∧ g ∈ e.srcs ++ e.dsts ∧ refused ready g :=
  ⟨_, VGroup.pair 5, rfl, by simp [onFp], Or.inr (by decide +kernel)⟩

/-- The check of `CopyHolds`. -/
def copyHolds (s : State) (x : Xlat) (right f va n value : Nat) : Bool :=
  bitN x.attr right && decide (fieldN x.attr 48 4 = 0) && decide (fieldN x.attr 16 2 ≠ 3) && !bitN x.attr 46 &&
  decide ((x.pa + (va - x.va)) % 128 + n ≤ 128) && decide (paTier (x.pa + (va - x.va)) ≠ 2) &&
  match (s.core (floeCore f)).l1.get? ((x.pa + (va - x.va)) / 128) with
  | none => false
  | some c => decide (c.key = fieldN x.attr 52 12) && !earlier c.rts (s.core (floeCore f)).ctime && !earlier c.gts (s.floe f).floor &&
    decide (c.poison = 0) && decide (value = lineValue c.data ((x.pa + (va - x.va)) % 128) n)
theorem copyHolds_of {s : State} {x : Xlat} {right f va n value : Nat} (h : copyHolds s x right f va n value = true) :
    CopyHolds s x right f va n value := by
  unfold copyHolds at h
  cases hc : (s.core (floeCore f)).l1.get? ((x.pa + (va - x.va)) / 128) with
  | none => simp [hc] at h
  | some c =>
    simp only [hc, Bool.and_eq_true, decide_eq_true_eq, Bool.not_eq_true'] at h
    obtain ⟨⟨⟨⟨⟨⟨h1, h2⟩, h3⟩, h4⟩, h5⟩, h6⟩, ⟨⟨⟨⟨h7, h8⟩, h9⟩, h10⟩, h11⟩⟩ := h
    exact ⟨_, c, h1, h2, h3, h4, rfl, h5, fun t => absurd t h6, ⟨hc, h7, h8, h9, h10⟩, h11⟩
/-- The check of `CoreHolds`. -/
def coreHolds (s : State) (right f va n value : Nat) : Bool :=
  decide (0 < n ∧ va % 128 + n ≤ 128 ∧ va < 2 ^ 56 ∧ inAperture va = false) && ((s.core (floeCore f)).held (s.asidOf (blockOf f)) va).any (fun x => copyHolds s x right f va n value)
theorem coreHolds_of {s : State} {right f va n value : Nat} (h : coreHolds s right f va n value = true) : CoreHolds s right f va n value := by
  simp only [coreHolds, Bool.and_eq_true, decide_eq_true_eq, Option.any_eq_true] at h
  obtain ⟨hi, x, hx, hc⟩ := h
  exact ⟨hi, x, hx, copyHolds_of hc⟩

/-- The word NOP placed, as a turn finds it. -/
@[irreducible] def issuing : State := State.reset.withFetchWord 32 0x0000004B
theorem boundary_of {s : State} {f id : Nat} {g : Fragment} {fl : Floe} (hf : s.floes.get? f = some fl)
    (ha : ((fl.st == .active || fl.st == .waiting) && !fl.hold) = true) (hr : (s.launch (s.block (blockOf f)).launch).phase = .running)
    (hc : ((s.core (floeCore f)).haltReq || (s.core (floeCore f)).halted) = false) (hg : g ∈ (s.floe f).frags) (hi : g.id = id)
    (hn : (s.floe f).recs = []) : AtBoundary s f id := by
  simp only [Bool.and_eq_true, Bool.or_eq_true, beq_iff_eq, Bool.not_eq_true'] at ha
  simp only [Bool.or_eq_false_iff] at hc
  exact ⟨⟨fl, hf, by rcases ha.1 with h | h <;> simp [h], by rcases ha.1 with h | h <;> simp [h], by rcases ha.1 with h | h <;> simp [h], ha.2⟩, hr, hc,
    ⟨g, hg, hi, Or.inl hn⟩⟩
theorem reach_step : NextTurn issuing (.issue 0 0) [] ∧ MayIssue (awake issuing []) 0 0 ∧ Landed ((awake issuing []).core 0) 0 2 ∧
    decode (wordsAt ((awake issuing []).core 0) 0) = .ok (.nop, 2) :=
  ⟨⟨by decide +kernel, by decide +kernel, by decide +kernel⟩,
   ⟨boundary_of (fl := (awake issuing []).floe 0) (g := (awake issuing []).frag 0 0) (by decide +kernel) (by decide +kernel) (by decide +kernel)
      (by decide +kernel) (by decide +kernel) (by decide +kernel) (by decide +kernel),
    by decide +kernel, by decide +kernel, by decide +kernel, by decide +kernel⟩,
   ⟨by decide +kernel, by decide +kernel, by decide +kernel⟩, by decide +kernel⟩
/-- A word that does not decode, where its trap can be entered. -/
theorem reach_rejected : decode32 0x0000004D = .error 2 ∧ (0x26 ≤ 0x4D / 2 % 64 ∧ 0x4D / 2 % 64 ≤ 0x2F) := by decide +kernel
/-- A matrix word before the sequencer, whose line the core holds. -/
@[irreducible] def sequencing : State := (State.reset.withFetchWord 32 0x00000063).updCore 0 (fun k => { k with l1 := [(0, ⟨0x63, 0, 0, 0, 0, 0⟩)] })
theorem reach_sequencer : ∃ r, NextTurn sequencing (.sequencer 0) [] ∧ SeqMay (awake sequencing []) 0 r 0x63 :=
  ⟨⟨0, 0, 0, 0x10000, [], [0, 0, 0, 0], 0, none, false, false, []⟩, ⟨by decide +kernel, by decide +kernel, by decide +kernel⟩,
   ⟨by decide +kernel, by decide +kernel, by decide +kernel, coreHolds_of (by decide +kernel)⟩⟩
theorem reach_hart : NextTurn (State.reset.withFetchWord 32 0x100B) (.hart 0 0x100B) [] ∧
    (awake (State.reset.withFetchWord 32 0x100B) []).hostUiDue 0 = false ∧ decodeHost 0x100B = some .kuiret :=
  ⟨⟨by decide +kernel, by decide +kernel, by decide +kernel⟩, by decide +kernel, by decide +kernel⟩
/-- A request that arrives with an instruction. -/
theorem reach_issue_halt : NextTurn { issuing with agenda := [.issueHalt 0 0] } (.issueHalt 0 0) [] ∧ ({ issuing with agenda := [.issueHalt 0 0] } : State).mgmt = [] :=
  ⟨⟨by decide +kernel, by decide +kernel, by decide +kernel⟩, by decide +kernel⟩

/-- `base` with 256 bytes of code landed in slot 0 and s20, s63 at 0x20. -/
@[irreducible] def coded : State := ((withS [(20, 0x20), (63, 0x20), (1, 0xF8)]).updCore 0 (fun k =>
  { k with slots := [(0, { CodeSlot.reset with st := .landed, len := 256 })] }))
theorem reach_jump : ∃ m, branchRule coded (.brx 20) = some m ∧ m.also := ⟨_, rfl, by
  show goodTarget coded (coded.S (20 : BitVec 6).toNat); unfold goodTarget landedAt; decide +kernel⟩
theorem reach_return : goodTarget coded (linkReg coded) := by unfold goodTarget landedAt linkReg; decide +kernel
theorem reach_relative : ∃ m, branchRule coded (.bra 8) = some m ∧ m.also := ⟨_, rfl, by show inSlot coded 8; unfold inSlot; decide +kernel⟩
theorem reach_segment : ∃ m, branchRule coded (.jseg 1 0x7F 0) = some m ∧ m.also := ⟨_, rfl, by
  show landedAt coded (segTarget 0 0x7F); unfold landedAt; decide +kernel⟩
theorem reach_agreed : ∃ m, agreeRule base false (.brc 8 0 0 1) = some m ∧ m.also := ⟨_, rfl, by
  refine ⟨by unfold inSlot; decide +kernel, by decide +kernel, by decide +kernel, ?_⟩
  unfold takes; decide +kernel⟩
/-- Predicate p1 holds in lane 3 alone. -/
@[irreducible] def split3 : State := base.updBlock 0 (fun b => { b with preds := [(3 * 8 + 1, true)] })
theorem reach_divided : Undivided split3 ∧ inSlot split3 8 ∧ split3.fl.width ≤ 128 ∧ (∀ x ∈ split3.fl.frags, x.id < split3.fl.nextFrag) ∧
    BitVec.ofInt 18 (relative split3 8) ≠ behind split3 4 ∧ (∃ l ∈ split3.lanes, takes split3 1 0 l) ∧
      (∃ l ∈ split3.lanes, ¬ takes split3 1 0 l) := by
  unfold Undivided inSlot takes; decide +kernel
theorem reach_plain : ∃ m, plainRule coded (.wrsrRbase 1) = some m ∧ m.also := ⟨_, rfl, by
  show _ ∧ _ ∧ _; decide +kernel⟩
theorem reach_wait : ∃ m, plainRule base (.wait 0 0 0 0 0) = some m ∧ m.also := ⟨_, rfl, by
  show _ ∧ _ ∧ _; unfold lets; decide +kernel⟩
theorem reach_bad_targets : ¬ inSlot ready (-1) ∧ BadTarget ready (ready.S 62 + 1) 3 ∧ BadTarget ready 0x40000 2 ∧ BadTarget ready 0x1000 0x0C ∧
    ¬ landedAt ready (segTarget 1 0) :=
  ⟨by unfold inSlot; decide +kernel, .odd (by decide +kernel), .far (by decide) (by decide),
   .absent (by decide) (by decide) (by unfold landedAt; decide +kernel), by unfold landedAt; decide +kernel⟩

/-! ### Memory, scratchpad, lattice -/

/-- An access of 4 bytes at the start of the page reaches physical address 0. -/
theorem reaches_page {a : Access} {l : LaneAcc} (hs : a.size = 4) (hv : l.va = 0x10000) (hk : joins a.kind = false) :
    Reaches ready a l (.phys 0 0 false) := by
  refine ⟨fun _ => by rw [hs, hv]; decide, by rw [hv]; decide,
    Or.inr ⟨by rw [hv]; decide +kernel, page, ?_, fun _ => by decide +kernel, fun _ => by decide +kernel, ?_⟩⟩
  · rw [hv]; decide +kernel
  · rw [hv]
    exact Maps.plain (x := page) (va := (0x10000 : W64).toNat) (by decide +kernel) (by decide +kernel) (fun h => absurd h (by decide +kernel)) hk
      (fun h => absurd h (by decide +kernel))
theorem ready_idle : ready.fl.ops = [] ∧ ready.fl.rels = [] := by decide +kernel
theorem homes_phys (p : Place) (l : List LaneAcc) (s : State) (h : ∀ n v, p ≠ .peer n v := by simp) : HomesAnswer (fun _ => p) l s := by
  induction l with
  | nil => trivial
  | cons x t ih =>
    unfold HomesAnswer
    cases p with
    | peer n v => exact absurd rfl (h n v)
    | _ => exact ih
theorem ready_issues {a : Access} (h : runs ready { srcs := a.srcs, dsts := a.dsts, also := a.also } = true) (ha : a.also)
    (hs : a.size = 4) (hv : ∀ l ∈ a.lanes, l.va = 0x10000) (hk : joins a.kind = false) : CanIssue ready a (fun _ => .phys 0 0 false) where
  operands := canRun_of h ha
  room := by
    have : ∀ c : OpClass, ready.fl.counter c < 63 := by intro c; cases c <;> decide +kernel
    exact this _
  acquires := by simp [ready_idle]
  reads := by unfold noReads; decide +kernel
  fences := by simp [ready_idle]
  older := by simp [ready_idle]
  joins := by simp [ready_idle]
  places := fun l hl => reaches_page hs (hv l hl) hk
  homes := homes_phys _ _ _
theorem reach_load : ∃ a, loadRule ready (.ld 2 1 63 4 1) = some a ∧ CanIssue ready a (fun _ => .phys 0 0 false) :=
  ⟨_, rfl, ready_issues (by decide +kernel) ⟨by decide, by decide⟩ rfl (by
    simp only [loads, if_pos, List.mem_singleton, forall_eq]; decide +kernel) rfl⟩
theorem reach_store : ∃ a, loadRule ready (.stRelDie 2 0 63 4 1) = some a ∧ CanIssue ready a (fun _ => .phys 0 0 false) :=
  ⟨_, rfl, ready_issues (by decide +kernel) (show (0 : BitVec 1) = 1 → _ from fun h => absurd h (by decide)) rfl (by decide +kernel) rfl⟩
theorem reach_atomic : ∃ a, atomRule ready (.atomCas 0 0 63 4 2) = some a ∧ CanIssue ready a (fun _ => .phys 0 0 false) :=
  ⟨_, rfl, ready_issues (by decide +kernel) trivial rfl (by decide +kernel) rfl⟩

/-- One lane's access of 4 bytes at physical address 0. -/
def acc (done : Bool) : LaneAcc := ⟨0, 0x10000, .phys 0 0 false, 0xABCD, 0, false, done⟩
/-- An operation of that lane. -/
def op1 (cls : OpClass) (k : OpKind) (dest : Dest) (done : Bool) : MemOp := ⟨0, cls, k, 4, [acc done], dest, false, 0, false, 0, none⟩
/-- `ready` with one outstanding operation, and line 0 in the core's L1. -/
@[irreducible] def pending (o : MemOp) : State :=
  (ready.updFloe 0 (fun fl => { fl with ops := [o], opSeq := 1 })).updCore 0 (fun k => { k with l1 := [(0, ⟨0x11223344, 0, 0, 0, 0, 0⟩)] })
theorem pending_owned (o : MemOp) {d ln key : Nat} (hd : d = 0) (hl : ln = 0) (hk : key = 0) : Owned (pending o) d ln key line := by
  subst hd hl hk
  have h : (pending o).dies = ready.dies ∧ (pending o).migrations = ready.migrations ∧ (pending o).launches = ready.launches := by
    unfold pending; exact ⟨rfl, rfl, rfl⟩
  have w := ready_owned (d := 0) (ln := 0) (key := 0) rfl rfl rfl
  have hdie : ∀ a, (pending o).die a = ready.die a := fun a => by simp only [State.die, h.1]
  exact ⟨w.die, by rw [hdie]; exact w.here, rfl, rfl, fun a ha hn => by rw [hdie]; exact w.alone a ha hn, by rw [h.2.1]; exact w.still,
    fun l => by simpa only [State.launch, h.2.2] using w.unarmed l, fun l hl => by
      rw [h.2.2] at hl
      unfold State.accesses
      rw [(by decide +kernel : ∀ l ∈ ready.launches, l.2.replicas = []) l hl]; rfl⟩
theorem pending_ops (o : MemOp) : ((pending o).floe 0).ops = [o] := by
  unfold pending State.updCore State.setCore State.updFloe State.setFloe State.floe Tab.getD
  simp only
  generalize ready.floes = t
  induction t with
  | nil => simp [Tab.put, Tab.get?]
  | cons e t ih =>
    obtain ⟨k, x⟩ := e
    by_cases h : k = 0
    · subst h; simp [Tab.put, Tab.get?]
    · simp [Tab.put, Tab.get?, Nat.pos_of_ne_zero h]
theorem reach_bank : ∃ o, OldestWrite (pending o) 0 o ∧ o.kind = .store ∧ o.cls = .stores ∧ o.dest = .none ∧ InLine o 0 line.key ∧
    Owned (pending o) (dieOfCore (floeCore 0)) 0 line.key line ∧
      mayStamp (pending o) (floeCore 0) (stampOf (pending o) (dieOfCore (floeCore 0)) line o) := by
  refine ⟨op1 .stores .store .none false, ⟨⟨[], [], pending_ops _, by simp⟩, by decide, by decide +kernel, by decide, by rw [pending_ops]; decide, by decide⟩,
    rfl, rfl, rfl, ?_, pending_owned _ (by decide +kernel) rfl rfl, ?_⟩
  · intro a ha
    rw [show toDo (op1 .stores .store .none false) = [acc false] from by decide +kernel, List.mem_singleton] at ha
    subst ha
    exact ⟨0, false, rfl, rfl, by decide⟩
  · unfold mayStamp mayRise; decide +kernel
theorem reach_loaded : ∃ o value, HitLoad (pending o) 0 o 5 value := by
  refine ⟨op1 .loads .load (.vec 5) false, fun _ => 0x11223344, ⟨⟨[], [], pending_ops _, by simp⟩, ⟨rfl, rfl, rfl, by decide⟩,
    ⟨rfl, rfl, by decide +kernel, by rw [pending_ops]; decide⟩, by rw [pending_ops]; decide, by decide, by decide +kernel, ?_⟩⟩
  intro a ha
  rw [show (op1 .loads .load (.vec 5) false).lanes = [acc false] from rfl, List.mem_singleton] at ha
  subst ha
  exact ⟨rfl, 0, 0, ⟨0x11223344, 0, 0, 0, 0, 0⟩, rfl, ⟨by decide +kernel, rfl, by decide +kernel, by decide +kernel, rfl⟩, by decide,
    by decide +kernel⟩
theorem reach_stored : ∃ o, DoneStore (pending o) 0 o :=
  ⟨op1 .stores .store .none true, ⟨⟨[], [], pending_ops _, by simp⟩, ⟨rfl, by decide, rfl, by decide +kernel⟩, by decide,
    by rw [pending_ops]; decide⟩⟩
theorem reach_atomic_done : ∃ o a old new, OneAtomic (pending o) 0 o a 0 line .add old new (some 5) := by
  refine ⟨op1 .loads (.atom .add) (.vec 5) false, acc false, 0, 0xABCD,
    ⟨⟨⟨[], [], pending_ops _, by simp⟩, by decide, by decide +kernel, by decide, by rw [pending_ops]; decide, by decide⟩, Or.inl rfl, Or.inl rfl,
     ⟨by decide +kernel, false, rfl⟩, rfl, pending_owned _ (by decide +kernel) rfl rfl, rfl, ?_, by decide +kernel, by decide +kernel,
       by decide +kernel,
     ⟨⟨_, rfl⟩, rfl, by decide +kernel, by decide +kernel⟩, by rw [pending_ops]; decide⟩⟩
  unfold mayStamp mayRise; decide +kernel

/-- `base` with its first granule full. -/
@[irreducible] def filled : State := base.updBlock 0 (fun b => { b with full := [(0, true)] })
theorem reach_scratch_load : Runs scratchLoadRule (.lds 2 0 8 10 9) filled := ⟨_, by decide, rfl, canRun_of (by decide +kernel) (by
  show noAcquire filled ∧ ∀ l ∈ filled.lanes, inScratch filled 2 (offset filled 2 8 10 l) ∧ scratchClean filled (offset filled 2 8 10 l) (2 ^ 2)
  unfold noAcquire noReads inScratch scratchClean; decide +kernel)⟩
theorem reach_scratch_clear : CanRun filled (scratchLoad filled 2 0 8 10 9) ∧ filled.portsOf (scratchLoad filled 2 0 8 10 9).dsts = [] ∧
    mayTake filled true 2 8 10 :=
  ⟨canRun_of (by decide +kernel) (by
    show noAcquire filled ∧ ∀ l ∈ filled.lanes, inScratch filled 2 (offset filled 2 8 10 l) ∧ scratchClean filled (offset filled 2 8 10 l) (2 ^ 2)
    unfold noAcquire noReads inScratch scratchClean; decide +kernel), by decide +kernel, by unfold mayTake allFull noWait; decide +kernel⟩
theorem reach_scratch_store : ∃ a, scratchStoreRule base (.stfeWe 4 8 10 12) = some a ∧ CanRun base { srcs := a.srcs, also := a.also } :=
  ⟨_, rfl, canRun_of (by decide +kernel) (by
    show (mayWrite base ∧ ∀ l ∈ base.lanes, inScratch base 4 (offset base 4 8 10 l)) ∧ _ ∧ _ ∧ _
    unfold mayWrite noAcquire noReads inScratch noWait olderDone; decide +kernel)⟩

theorem reach_fence : base.fl.fence = none ∧ base.fl.ops = [] ∧ mayTick base (floeCore base.cur.floe) := by unfold mayTick; decide +kernel
theorem reach_fence_opens : ∃ o, (pending o).fl.fence = none ∧ o ∈ (pending o).fl.ops ∧ o.seq < (pending o).fl.opSeq ∧ undone o ∧ o.cls = .loads :=
  ⟨op1 .loads .load (.vec 5) false, by unfold undone; decide +kernel⟩
/-- `base` with an acquire fence that nothing holds. -/
@[irreducible] def fenced : State := base.updFloe 0 (fun fl => { fl with fence := some ⟨false, 3, 0, 0, true, 0, [], [], ⟨[], [], [], [], [], 0⟩⟩ })
theorem reach_fence_ready : ∃ w, FenceReady fenced 0 w ∧ mayTick fenced (floeCore 0) :=
  ⟨⟨false, 3, 0, 0, true, 0, [], [], ⟨[], [], [], [], [], 0⟩⟩, ⟨by decide +kernel, by rw [show (fenced.floe 0).ops = [] from by decide +kernel]; simp⟩,
   by unfold mayTick; decide +kernel⟩

/-- A page in a MAXU32 lattice region, and a line of its cells, all zero. -/
def cellPage : Xlat := { page with attr := 0x1F + BitVec.ofNat 64 (2 ^ 48) }
def cells : Replica := ⟨0, 1, [], 0⟩
/-- `ready` with its page in a lattice region of that type, the line replicated, and the floe's lanes `m` active. -/
@[irreducible] def celled (m : Mask) : State :=
  { (ready.updCore 0 (fun k => { k with pages := [cellPage] })).updFloe 0
      (fun fl => { fl with frags := fl.frags.map (fun g => { g with active := m }) }) with
    launches := [(1, { placedLaunch with replicas := [(0, cells)] })] }
theorem celled_cell {s : State} (hs : s = celled 0xFFFF ∨ s = celled 1) {va size needs pa : Nat} (h : va = 0x10000) (hz : size = 4) (hp : pa = 0)
    (hn : needs = 1 ∨ needs = 2) : InCell s va size needs pa cells := by
  subst h hz hp
  rcases hs with rfl | rfl <;> rcases hn with rfl | rfl <;>
    exact ⟨by decide +kernel, ⟨cellPage, by decide +kernel, by decide +kernel, by decide +kernel, by decide +kernel, by decide +kernel⟩,
      by decide +kernel, by decide +kernel⟩
theorem reach_cells : CanRead (celled 0xFFFF) 0 63 4 1 (fun _ => (0, cells)) ∧
    (∀ l ∈ (celled 0xFFFF).lanes, passes (celled 0xFFFF) 0 1 (fun _ => (0, cells)) l) ∧ mayTick (celled 0xFFFF) (floeCore (celled 0xFFFF).cur.floe) :=
  ⟨⟨canRun_of (by decide +kernel) trivial, by decide +kernel, by decide +kernel,
    ⟨by unfold noReads; decide +kernel, by rw [show (celled 0xFFFF).fl.ops = [] from by decide +kernel]; simp⟩,
    fun l _ => celled_cell (Or.inl rfl) (by show ((celled 0xFFFF).S (4 : BitVec 6).toNat).toNat = _; decide +kernel) rfl rfl (Or.inl rfl),
    fun l _ h => absurd h (by decide)⟩,
   by show ∀ l ∈ (celled 0xFFFF).lanes, threshold (celled 0xFFFF) 0 1 l ≤ cellValue cells (0 % 128); decide +kernel,
   by unfold mayTick; decide +kernel⟩
theorem reach_join : CanJoin (celled 1) 0 63 4 1 0 0 cells where
  lane := by decide +kernel
  operands := canRun_of (by decide +kernel) trivial
  order := by unfold allDone noReads; decide +kernel
  cell := celled_cell (Or.inr rfl) (by show ((celled 1).S (4 : BitVec 6).toNat).toNat = _; decide +kernel) rfl rfl (Or.inr rfl)
  number := by decide
  above := by
    rw [if_neg (by decide)]
    show cellValue cells (0 % 128) ≤ threshold (celled 1) 0 1 0; decide +kernel
theorem reach_prefetch : CanRun base { srcs := index 63 } ∧ (∀ l ∈ (withS [(4, 0x100000000000000)]).lanes,
    prefetchIdle (withS [(4, 0x100000000000000)]) (address (withS [(4, 0x100000000000000)]) 0 63 4 l).toNat) :=
  ⟨canRun_of (by decide +kernel) trivial, fun l _ => Or.inl (by
    show 2 ^ 56 ≤ ((withS [(4, 0x100000000000000)]).S (4 : BitVec 6).toNat).toNat; decide +kernel)⟩

/-! ### Handlers, width changes -/

/-- `ready` with a reported cause. -/
@[irreducible] def reporting : State := ready.updFloe 0 (fun fl => { fl with reports := [⟨0x10, 0, 0, 0, 0⟩] })
/-- `ready` with an unmasked timer interrupt, its fragment as `w` waits. -/
@[irreducible] def interrupting (w : WaitFor) : State := ready.updFloe 0 (fun fl =>
  { fl with uipend := 1, umask := 0, st := if w = .none then .active else .waiting, frags := fl.frags.map (fun g => { g with wait := w }) })
theorem reporting_owned {d ln key : Nat} (hd : d = 0) (hl : ln = 0) (hk : key = 0) : Owned reporting d ln key line := by
  subst hd hl hk
  exact ⟨by decide, by decide +kernel, rfl, rfl, by decide +kernel, by decide +kernel, unarmed_of (by decide +kernel), by decide +kernel⟩
theorem interrupting_owned {w : WaitFor} (hw : w = .none ∨ w = .counters) {d ln key : Nat} (hd : d = 0) (hl : ln = 0) (hk : key = 0) :
    Owned (interrupting w) d ln key line := by
  subst hd hl hk
  rcases hw with rfl | rfl <;>
    exact ⟨by decide, by decide +kernel, rfl, rfl, by decide +kernel, by decide +kernel, unarmed_of (by decide +kernel), by decide +kernel⟩
theorem reach_report : CanEnter reporting 0 0 page line ∧ AtBoundary reporting 0 0 ∧ (reporting.floe 0).reports = [⟨0x10, 0, 0, 0, 0⟩] ∧
    (reporting.floe 0).recs = [] ∧ (reporting.floe 0).fence = none ∧ AtIssue reporting 0 0 ∧ reporting.cur.halt = false ∧ (reporting.floe 0).uivec.getLsbD 43 = true :=
  ⟨⟨by decide +kernel, by decide +kernel, by decide +kernel, by decide +kernel, by decide +kernel, by decide +kernel, by decide +kernel,
    reporting_owned (by decide +kernel) (by decide +kernel) (by decide +kernel), by unfold mayRise; decide +kernel⟩,
   boundary_of (fl := reporting.floe 0) (g := reporting.frag 0 0) (by decide +kernel) (by decide +kernel) (by decide +kernel) (by decide +kernel)
     (by decide +kernel) (by decide +kernel) (by decide +kernel),
   by decide +kernel, by decide +kernel, by decide +kernel, Or.inl (by unfold TakesNext; decide +kernel), by decide +kernel, by decide +kernel⟩
/-- An interrupt of a fragment that issues next, and of one that a `WAIT` holds. -/
theorem reach_interrupt : ∀ w, w = .none ∨ w = .counters → CanEnter (interrupting w) 0 0 page line ∧ AtBoundary (interrupting w) 0 0 ∧
    ((interrupting w).floe 0).uipend &&& ~~~((interrupting w).floe 0).umask ≠ 0 ∧ ((interrupting w).floe 0).recs = [] ∧
    ((interrupting w).floe 0).fence = none ∧ ((interrupting w).floe 0).reports = [] ∧
    noneBehindRel (interrupting w) 0 ∧ (TakesNext (interrupting w) 0 0 ∨ Abandons (interrupting w) 0 0) := by
  intro w hw
  refine ⟨⟨?_, ?_, ?_, ?_, ?_, ?_, ?_, interrupting_owned hw ?_ ?_ ?_, ?_⟩,
    boundary_of (fl := (interrupting w).floe 0) (g := (interrupting w).frag 0 0)
    ?_ ?_ ?_ ?_ ?_ ?_ ?_, ?_, ?_, ?_, ?_, ?_, ?_⟩ <;> (try unfold mayRise) <;> (try unfold noneBehindRel) <;> rcases hw with rfl | rfl <;>
    first | decide +kernel | exact Or.inl (by unfold TakesNext; decide +kernel)
          | exact Or.inr ⟨Or.inl (by decide +kernel), by decide +kernel, by decide +kernel⟩
/-- A call record with 16 lanes in the core's copy of line 0. -/
def copy : L1Line := ⟨BitVec.ofNat 1024 (0xFFFF * 2 ^ 320), 0, 0, 0, 0, 0⟩
/-- `ready` in a trap handler, its record at the start of the page. -/
@[irreducible] def handling : State :=
  (ready.updFloe 0 (fun fl => { (fl.setS 62 0x10000) with recs := [0x10000] })).updCore 0 (fun k => { k with l1 := [(0, copy)] })
theorem reach_handler_return : CanReturn handling page copy (BitVec.ofNat 512 (0xFFFF * 2 ^ 320)) false where
  live := by decide +kernel
  alone := by unfold Undivided; decide +kernel
  quiet := by decide +kernel
  aligned := by decide +kernel
  space := by decide +kernel
  held := by decide +kernel
  page := by decide +kernel
  whole := by decide +kernel
  plain := by decide +kernel
  hit := by unfold Hit; decide +kernel
  image := by decide +kernel
  kind := by decide +kernel
  lanes := by decide +kernel
  landed := fun _ h => absurd h (by decide +kernel)

/-- No floe waits in a `FUSE` where none listed does. -/
theorem nofuse_of {s : State} (h : s.floes.all (fun e => e.2.frags.all (fun x => x.wait != .fuse)) = true) (g : Nat) : ¬ fusing s g := by
  have := getD_all (fun fl : Floe => fl.frags.all (fun x => x.wait != .fuse)) s.floes Floe.reset rfl h g
  rintro ⟨x, hx, hw⟩
  have := List.all_eq_true.mp this x hx
  simp [hw] at this
theorem reach_retire : mayExit base ∧ liveAfter base = 0 ∧ base.fl.frags = [base.fg] ∧ base.fg.stack = [] ∧ base.fl.cmds = [] ∧
    (∀ k x, base.blk.streams.get? k = some x → False) ∧ base.fl.standing = 0 ∧ base.fl.cstanding = [] ∧ (∀ n < 16, arrivals base n = 0) ∧
    base.lau.cohortsOf base.blk.id = [] ∧ ∀ g, IsBuddy base g → ¬ fusing base g :=
  ⟨by unfold mayExit; decide +kernel, by decide +kernel, by decide +kernel, by decide +kernel, by decide +kernel,
   fun k x h => by (rw [show base.blk.streams = [] from by decide +kernel] at h; cases h),
   by decide +kernel, by decide +kernel, by decide +kernel, by decide +kernel, fun g _ => nofuse_of (by decide +kernel) g⟩
/-- `base` with a floe of 32 lanes, of which the fragment holds 20. -/
@[irreducible] def wide : State := base.updFloe 0 (fun fl =>
  { fl with width := 32, live := 0xFFFFFFFF, frags := fl.frags.map (fun g => { g with active := 0xFFFFF }) })
theorem reach_lanes_exit : mayExit wide ∧ liveAfter wide ≠ 0 ∧ Here wide := by unfold mayExit Here; decide +kernel
theorem reach_split : CanSplit wide (childWidth 0) :=
  ⟨by decide +kernel, by decide +kernel, by decide +kernel, ⟨by decide +kernel, by decide +kernel, by
    rw [show wide.fl.cmds = [] from by decide +kernel]; simp⟩, by
    rw [show wide.blk.streams = [] from by decide +kernel]; simp, by decide +kernel⟩
theorem reach_fuse_fails : (fuseFails base 5 1).also :=
  ⟨.alone (by decide +kernel) (fun g h => by
    have := getD_all (fun fl : Floe => fl.base == 0) base.floes Floe.reset rfl (by decide +kernel) g
    have e : (base.floe g).base = 16 := by rw [h.2.2.2]; decide +kernel
    have z : (base.floe g).base = 0 := by simpa [State.floe] using this
    omega), fun g _ => nofuse_of (by decide +kernel) g⟩
/-- `base` with a second floe of 16 lanes, waiting in a `FUSE` at the same address. -/
@[irreducible] def twin : State :=
  { base with floes := [(0, base.floe 0), (1,
    { base.floe 0 with base := 16, frags := (base.floe 0).frags.map (fun g => { g with wait := .fuse }) })] }
theorem reach_fuse : CanFuse twin 1 ∧ (twin.floe 1).base = 16 ∧ twin.fl.base = 0 := by
  refine ⟨⟨by decide +kernel, ⟨by decide +kernel, by unfold IsBuddy; decide +kernel, fun h hb => ?_⟩,
    ⟨by unfold converged; decide +kernel, by
      unfold quiet; rw [show twin.fl.cmds = [] from by decide +kernel]; exact ⟨by decide +kernel, by decide +kernel, by simp⟩⟩,
    by decide +kernel, by decide +kernel, ?_, ⟨by decide +kernel, by
      rw [show twin.fl.cstanding = [] from by decide +kernel, show (twin.floe 1).cstanding = [] from by decide +kernel]; simp⟩, by decide +kernel⟩,
    by decide +kernel, by decide +kernel⟩
  · by_contra hn
    have e : (twin.floe h).base = 16 := by rw [hb.2.2.2]; decide +kernel
    have z : twin.floes.all (fun e => decide (e.1 = 1) || e.2.base == 0) = true := by decide +kernel
    have : ∀ t : Tab Floe, t.all (fun e => decide (e.1 = 1) || e.2.base == 0) = true → (t.getD h Floe.reset).base = 0 := by
      intro t
      induction t with
      | nil => intro _; rfl
      | cons a t ih =>
        intro ha
        simp only [List.all_cons, Bool.and_eq_true] at ha
        unfold Tab.getD Tab.get?
        split
        · next hk =>
          have := ha.1
          simp [hk, hn] at this
          simpa using this
        · exact ih ha.2
    have := this _ z
    unfold State.floe at e
    omega
  · have : ∀ q < 16, twin.fl.queue q = (twin.floe 1).queue q := by decide +kernel
    intro q hq
    rw [this q hq]
    exact ⟨rfl, rfl, rfl, fun _ => ⟨rfl, rfl⟩⟩

/-! ### Waits and barriers -/

/-- The check of `Holds` by a walk. -/
def holds (s : State) (right asid va n value : Nat) : Bool :=
  decide (0 < n ∧ va % 128 + n ≤ 128 ∧ va < 2 ^ 56 ∧ inAperture va = false) && decide (s.migrations = []) &&
  match s.walk asid va with
  | .cause _ => false
  | .ok x _ =>
    let pa := x.pa + (va - x.va)
    bitN x.attr right && decide (fieldN x.attr 48 4 = 0) && decide (fieldN x.attr 16 2 ≤ 1) && decide (pa % 128 = va % 128) &&
      decide (paTier pa ≤ 1) &&
    (upTo 13).all (fun d => ((s.die d).stack.get? (pa / 128)).all (fun y => !y.owned)) &&
    s.logs.all (fun g => decide (g.2.pa + g.2.len ≤ pa / 128 * 128 ∨ pa / 128 * 128 + 128 ≤ g.2.pa)) &&
      decide (s.memKeys.getD (pa / 128) (fieldN x.attr 52 12) = fieldN x.attr 52 12) && (upTo 32).all (fun i => !s.badWords.contains (pa / 128 * 32 + i)) &&
    decide (value = memNumber s pa n)
theorem holds_of {s : State} {right asid va n value : Nat} (h : holds s right asid va n value = true) : Holds s right asid va n value := by
  unfold holds at h
  cases hw : s.walk asid va with
  | cause c => simp [hw] at h
  | ok x r =>
    simp only [hw, Bool.and_eq_true, decide_eq_true_eq] at h
    obtain ⟨⟨hi, hm⟩, ⟨⟨⟨⟨⟨⟨⟨⟨h1, h2⟩, h3⟩, h4⟩, h5⟩, h6⟩, hg⟩, h7⟩, h8⟩, h9⟩ := h
    refine ⟨hi, ⟨x, r, _, hw, h1, h2, h3, rfl, h4, h5, fun d hd y hy => ?_, fun g hm => ?_, h7, fun i hi => ?_, h9⟩, hm⟩
    · have := List.all_eq_true.mp h6 d (List.mem_range.mpr hd)
      rw [hy] at this
      simpa using this
    · simpa using List.all_eq_true.mp hg g hm
    · simpa using List.all_eq_true.mp h8 i (List.mem_range.mpr hi)
/-- A state whose core 0 holds the page, and in its L1 the page's first lines. -/
def cached (s : State) (lines : List Line) : State := s.updCore 0 (fun k =>
  { k with pages := [page], l1 := (List.range lines.length).zip (lines.map (fun v => ⟨v, 0, 0, 0, 0, 0⟩)) })
/-- The bytes of an address-space table at 0x20000, whose space 0 maps VA 0x10000 to physical address 0 by one extent of 64 KiB. -/
def tables : Tab Byte := [(0x20007, 0x80), (0x20009, 0x10), (0x2000A, 0x02), (0x2000E, 1), (0x21002, 1), (0x2100A, 1), (0x21010, 0x1F)]
/-- `base` with those tables, bytes of the page, and s4 at the page. -/
@[irreducible] def mapped (m : Tab Byte) (f : Floe → Floe) : State :=
  { base.updFloe 0 (fun fl => f (fl.setS 4 0x10000)) with boot := BitVec.ofNat 1024 (0x20000 * 2 ^ 64), mem := m ++ tables }
/-- `base` with s4 at the page, whose line 0 the core holds. -/
@[irreducible] def watching (v : Line) : State := cached (base.updFloe 0 (fun fl => fl.setS 4 0x10000)) [v]
/-- What a `WAITM` reads from the core's own copy of a line of another tier than 2. -/
theorem waitReads_of {s : State} {f value : Nat} {va : W64} (h : coreHolds s 1 f va.toNat 8 value = true)
    (ht : ((s.core (floeCore f)).held (s.asidOf (blockOf f)) va.toNat).all (fun x => decide (paTier (x.pa + (va.toNat - x.va)) ≠ 2)) = true) :
    WaitReads s f va value :=
  Or.inl ⟨coreHolds_of h, fun x hx => by simpa [hx] using ht⟩
theorem reach_memory_wait : MemWait (watching 7) 5 4 7 ∧ ((watching 7).S 5).toNat ≤ 7 ∧ mayTick (watching 7) 0 :=
  ⟨⟨by unfold Here; decide +kernel, by decide +kernel, by decide +kernel, by unfold noReads; decide +kernel,
    waitReads_of (by decide +kernel) (by decide +kernel)⟩, by decide +kernel, by unfold mayTick; decide +kernel⟩
theorem reach_memory_waits : MemWait (watching 0) 4 4 0 ∧ 0 < ((watching 0).S 4).toNat :=
  ⟨⟨by unfold Here; decide +kernel, by decide +kernel, by decide +kernel, by unfold noReads; decide +kernel,
    waitReads_of (by decide +kernel) (by decide +kernel)⟩, by decide +kernel⟩
/-- A page of tier 2, read at its home. -/
def firnPage : Xlat := ⟨0, 0x10000, 0x10000, 0x2001F, 2 * 2 ^ 44⟩
@[irreducible] def watchingFirn : State := (base.updFloe 0 (fun fl => fl.setS 4 0x10000)).updCore 0 (fun k => { k with pages := [firnPage] })
theorem reach_memory_wait_home : MemWait watchingFirn 5 4 0 ∧ (watchingFirn.S 5).toNat ≤ 0 ∧ mayTick watchingFirn 0 :=
  ⟨⟨by unfold Here; decide +kernel, by decide +kernel, by decide +kernel, by unfold noReads; decide +kernel,
    Or.inr ⟨by decide +kernel, ⟨firnPage, 2 * 2 ^ 44, by decide +kernel, by decide +kernel, by decide +kernel, by decide +kernel, by decide +kernel,
      by decide +kernel, by decide +kernel, by decide +kernel, fun d hd y hy => absurd hy (by
        rw [(by decide +kernel : ∀ d < 13, (watchingFirn.die d).stack = []) d hd]; simp [Tab.get?]),
      by decide +kernel, by decide +kernel, by decide +kernel, by decide +kernel⟩, by decide +kernel⟩⟩, by decide +kernel,
   by unfold mayTick; decide +kernel⟩
theorem reach_call : CanCall (watching (BitVec.ofNat 1024 (7 * 2 ^ 64))) 4 (7 * 2 ^ 64) ∧ allDone (watching (BitVec.ofNat 1024 (7 * 2 ^ 64))) :=
  ⟨⟨by unfold Here; decide +kernel, by decide +kernel, by unfold noReads; decide +kernel, coreHolds_of (by decide +kernel)⟩,
    by unfold allDone; decide +kernel⟩
/-- A request of service 3 that has been answered. -/
def request : SyscReq := ⟨0, 3, [], 5, false, some (0, 9)⟩
@[irreducible] def replying : State := base.updFloe 0 (fun fl =>
  { fl with syscs := [request], frags := fl.frags.map (fun g => { g with wait := .sysc }) })
theorem reach_reply : (replying.floe 0).syscs.filter (fun x => x.frag = 0) = [request] ∧ Answer request 0 9 ∧ mayTick replying (floeCore 0) :=
  ⟨by decide +kernel, .reply 0 9 rfl (by decide) rfl (by decide), by unfold mayTick; decide +kernel⟩
theorem reach_mrun : Here base ∧ base.fl.tile < 15 ∧ (base.S 4).toNat % 4 = 0 ∧ (base.S 5).toNat % 256 = 0 := by unfold Here; decide +kernel
theorem reach_wait_counters : ∃ o, Here (pending o) ∧ ¬(lets (pending o) .loads 5 0) :=
  ⟨op1 .loads .load (.vec 5) false, by unfold Here lets; decide +kernel⟩
theorem reach_bar_wait : Here (base.updFloe 0 (fun fl => { fl with standing := 2 })) ∧
    (base.updFloe 0 (fun fl => { fl with standing := 2 })).fl.standing.getLsbD 1 = true := by unfold Here; decide +kernel
/-- `base` with its fragment in a `WAITM` for 7 of a line that the core holds. -/
@[irreducible] def rereading (v : Line) : State := cached (base.updFloe 0 (fun fl =>
  { fl with frags := fl.frags.map (fun g => { g with wait := .memory 0x10000 7 }) })) [v]
theorem reach_reread : ∀ v : Nat, v = 7 ∨ v = 6 → (∃ g ∈ ((rereading (BitVec.ofNat 1024 v)).floe 0).frags, g.id = 0) ∧
    ((rereading (BitVec.ofNat 1024 v)).frag 0 0).wait = .memory 0x10000 7 ∧ ((rereading (BitVec.ofNat 1024 v)).floe 0).st ≠ .parked ∧
    ((rereading (BitVec.ofNat 1024 v)).floe 0).recs = [] ∧ ((rereading (BitVec.ofNat 1024 v)).floe 0).ops = [] ∧
    (∀ g ∈ ((rereading (BitVec.ofNat 1024 v)).floe 0).frags, g.id ≠ 0 → g.wait ≠ .lattice ∧ g.left = none) ∧
    WaitReads (rereading (BitVec.ofNat 1024 v)) 0 0x10000 v ∧ mayTick (rereading (BitVec.ofNat 1024 v)) (floeCore 0) := by
  intro v hv
  refine ⟨?_, ?_, ?_, ?_, ?_, ?_, waitReads_of ?_ ?_, ?_⟩ <;> (try unfold mayTick) <;> rcases hv with rfl | rfl <;> decide +kernel
theorem reach_guards : (base.blk.streams.map (fun e => e.1)).Nodup := by decide +kernel
theorem reach_arrival : CanArrive twin 0 ∧ arrivals twin 0 + quanta twin.fl ≠ expectedCount twin 0 ∧ CanRun twin { srcs := [VGroup.one 3] } :=
  ⟨⟨by unfold Here; decide +kernel, by decide +kernel, by unfold allDone; decide +kernel, by decide +kernel⟩, by decide +kernel,
   canRun_of (by decide +kernel) trivial⟩
theorem reach_phase : CanArrive base 0 ∧ Alone base 0 ∧ CanRun base { srcs := [VGroup.one 3] } ∧ base.lanes ≠ [] ∧
    (∀ l ∈ base.lanes, base.V (3 : BitVec 6).toNat l = 0) ∧ goodFormat 0 :=
  ⟨⟨by unfold Here; decide +kernel, by decide +kernel, by unfold allDone; decide +kernel, by decide +kernel⟩,
   ⟨by decide +kernel, by decide +kernel, fun r h => absurd h (by rw [show base.cr.run = none from by decide +kernel]; simp), by decide +kernel,
    by unfold Undivided; decide +kernel⟩,
   canRun_of (by decide +kernel) trivial, by decide +kernel, by decide +kernel, by unfold goodFormat; decide +kernel⟩
/-- `twin` in a launch with one cohort, which block 0 joins. -/
@[irreducible] def cohorted : State :=
  { twin with launches := [(1, { placedLaunch with cohorts := [BitVec.ofNat 512 (1 + 2 ^ 64)] })] }
theorem reach_cohort : CohortOpen cohorted 5 :=
  ⟨by unfold Here; decide +kernel, ⟨by decide +kernel, by decide +kernel, by decide +kernel, ⟨0, by decide +kernel, by decide +kernel⟩⟩,
   by decide +kernel, by unfold allDone; decide +kernel, by decide +kernel⟩

/-! ### Queues, streams, engines -/

theorem reach_queue : ∃ c, queueRule base (.qcfgLoop 16 9 2) = some (2, c) ∧ CanSetQueue base 2 c := by
  refine ⟨_, rfl, ⟨fun j h => ?_, fun p hp _ hm => absurd ((by decide +kernel : ∀ p < 16, (base.fl.queue p).mode = .off) p hp) hm,
    by rw [show base.fl.ops = [] from by decide +kernel]; simp, by decide +kernel⟩⟩
  have h9 : base.absReg (9 : BitVec 6).toNat = 9 := by decide +kernel
  have hn : base.blk.nregs = 256 := by decide +kernel
  simp only [inQueue, h9] at h
  have : (16 : BitVec 6).toNat = 16 := by decide
  omega
/-- A stream descriptor of queue 0: 4 entries of 1 byte at VA 0x10080. -/
def descriptor : BitVec 512 := BitVec.ofNat 512 (0x10080 + 4 * 2 ^ 224 + 2 ^ 240 + 2 ^ 256 + 2 ^ 272)
/-- `mapped` with that descriptor at the page, where the launch's stream table lies, in the core's L1, and queue 0 stream-fed. -/
@[irreducible] def streamable (k : Option Nat) : State :=
  { cached (mapped [] (fun fl => { fl with queues := [(0, ⟨.stream, 40, 0, k, 0⟩)] })) [descriptor.setWidth 1024, 0] with
    launches := [(1, { placedLaunch with desc := placedLaunch.desc + BitVec.ofNat 1024 (0x10000 * 2 ^ 128) })] }
theorem reach_stream : CanStream (streamable none) 6 5 descriptor :=
  ⟨by decide +kernel, by decide +kernel, coreHolds_of (by decide +kernel), by unfold goodStream; decide +kernel,
   by unfold noReads; decide +kernel, by decide +kernel, by decide +kernel⟩
/-- The running stream. -/
def running : Stream := ⟨0, descriptor, 0, none, 8, .free, 0, 16, 0, false, none, none, []⟩
@[irreducible] def delivering : State := (streamable (some 0)).updBlock 0 (fun b => { b with streams := [(0, running)] })
/-- The check of one lane of `CanDeliver`. -/
def elementHeld (s : State) (b f : Nat) (st : Stream) (l value : Nat) : Bool :=
  let va := (elementAt st.desc st.offset st.next l).toNat
  let n := streamSize st.desc
  decide (va % n = 0) && decide (0 < n ∧ va % 128 + n ≤ 128 ∧ va < 2 ^ 56 ∧ inAperture va = false) &&
  match streamXlat s b st va with
  | .ok x _ => copyHolds s x 1 f va n value
  | .cause _ => false
theorem reach_delivery : CanDeliver delivering 0 0 0 running (fun _ => 0) := by
  refine ⟨by decide +kernel, by decide +kernel, by decide +kernel, by decide +kernel, by rw [show delivering.invs = [] from by decide +kernel]; simp,
   by decide, by decide +kernel, fun _ => ⟨fun a h => by simp [running] at h, by decide +kernel⟩, fun l hl => ?_⟩
  have h := List.all_eq_true.mp (by decide +kernel : (upTo 16).all (fun l => elementHeld delivering 0 0 running l 0) = true) l (List.mem_range.mpr hl)
  unfold elementHeld at h
  cases hw : streamXlat delivering 0 running (elementAt running.desc running.offset running.next l).toNat with
  | cause c => simp [hw] at h
  | ok x r =>
    simp only [hw, Bool.and_eq_true, decide_eq_true_eq] at h
    exact ⟨h.1.1, h.1.2, x, r, rfl, copyHolds_of h.2⟩
theorem reach_command : ∃ m, commandRule base (.cpy 8 63 10 2) = some m ∧ mayIssue base m :=
  ⟨_, rfl, ⟨by decide +kernel, by decide +kernel, trivial⟩⟩
theorem reach_fetch : ∃ m, commandRule (withS [(8, 1)]) (.cfetch 8 63 8 9) = some m ∧ mayIssue (withS [(8, 1)]) m :=
  ⟨_, rfl, ⟨by decide +kernel, by decide +kernel, by
    show (withS [(8, 1)]).fg.pc.toNat / 4096 ≠ ((withS [(8, 1)]).S (8 : BitVec 6).toNat).toNat % 64; decide +kernel⟩⟩
/-- A command with its operands, free to go. -/
def cmd (k : EngKind) (cls : OpClass) (coords : List W64) (done : Bool) : EngCmd :=
  ⟨0, k, cls, 0x10000, coords, none, 8, .free, 0, none, none, none, false, none, [], done⟩
/-- `mapped` with that command alone. -/
@[irreducible] def engaged (m : Tab Byte) (c : EngCmd) : State := mapped m (fun fl => { fl with cmds := [c], opSeq := 1 })
theorem moves_of {s : State} {c : EngCmd} (hc : (s.floe 0).cmds = [c]) (ho : c.finished = false ∧ c.pausedAt = none ∧ c.guardSt = .free ∧ c.held = [])
    (hr : (s.launch (s.block (blockOf 0)).launch).phase = .running) (hi : s.invs = []) : MayMove s 0 c :=
  ⟨by simp [hc], by simp [hc], ho, by simp [hr], by simp [hc], by simp [hi]⟩
/-- The shape record of one byte from scratchpad 0 to scratchpad 16. -/
def shape : BitVec 512 := BitVec.ofNat 512 (16 * 2 ^ 64 + 2 ^ 320 + 2 ^ 336 + 2 ^ 352 + 2 ^ 368 + 3 * 2 ^ 387)
theorem reach_copy : ∃ s c, OneElement s 0 c shape 0 16 1 :=
  ⟨engaged [(8, 16), (40, 1), (42, 1), (44, 1), (46, 1), (48, 0x18)] (cmd .cpy .copies [] false), cmd .cpy .copies [] false,
   ⟨moves_of (by decide +kernel) (by decide +kernel) (by decide +kernel) (by decide +kernel), by decide +kernel,
     Or.inr ⟨rfl, holds_of (by decide +kernel)⟩, by decide +kernel,
    by decide +kernel, by decide +kernel, by decide +kernel, by decide +kernel⟩⟩
theorem reach_landing : ∃ s c, CanLand s 0 c 1 2 0x9000 :=
  ⟨(engaged [(1, 0x90)] (cmd .cfetch .copies [1] false)).updCore 0 (fun k =>
      { k with slots := [(1, { CodeSlot.reset with st := .landing, fetches := [(0, 0)] })] }), cmd .cfetch .copies [1] false,
   ⟨moves_of (by decide +kernel) (by decide +kernel) (by decide +kernel) (by decide +kernel), by decide +kernel, by decide +kernel,
    holds_of (by decide +kernel), by decide +kernel, [], by decide +kernel⟩⟩
/-- A log of 4096 bytes of flash. -/
def log : Log := ⟨0, 2 * 2 ^ 44, 4096, 0, 0, 0, 0, 0, none, [], 0⟩
/-- An append of 16 bytes to log 0, of a replayable launch. -/
@[irreducible] def appending : State :=
  { mapped [] (fun fl => { fl with cmds := [{ cmd .apnd .copies [0x10000, 16] false with req := 0 }] }) with
    logs := [(0, log)], launches := [(1, { placedLaunch with replay := true })] }
theorem reach_append : CanAppend appending 0 { cmd .apnd .copies [0x10000, 16] false with req := 0 } log 16 0 :=
  ⟨moves_of (by decide +kernel) (by decide +kernel) (by decide +kernel) (by decide +kernel), by decide +kernel, by decide +kernel,
   by decide +kernel, by decide +kernel, by decide +kernel, holds_of (by decide +kernel)⟩
theorem reach_durable : NextDurable { log with recs := [⟨0, 0, [], none, true, []⟩, ⟨1, 32, [], none, false, []⟩] } ⟨1, 32, [], none, false, []⟩ :=
  ⟨⟨[⟨0, 0, [], none, true, []⟩], [], rfl, by decide⟩, rfl, by decide⟩
theorem reach_leave : ∃ s c, CanLeave s 0 .copies c :=
  ⟨engaged [] (cmd .cpy .copies [] true), cmd .cpy .copies [] true,
    ⟨⟨[], [], by decide +kernel, by simp⟩, by decide +kernel, by decide +kernel, Or.inl rfl, by decide +kernel⟩⟩
theorem reach_leave_fetch : ∃ s c, CanLeave s 0 .copies c ∧ c.kind = .cfetch ∧ c.progress = 1 :=
  ⟨engaged [] { cmd .cfetch .copies [1] true with progress := 1 }, { cmd .cfetch .copies [1] true with progress := 1 },
   ⟨⟨[], [], by decide +kernel, by simp⟩, by decide +kernel, by decide +kernel, Or.inl rfl, by decide +kernel⟩, rfl, rfl⟩
/-- A work request of 1 byte to window 0 of peer 3. -/
def work : BitVec 512 := BitVec.ofNat 512 (3 * 2 ^ 64 + 2 ^ 96)
@[irreducible] def sending : State :=
  { mapped [(8, 3), (12, 1)] (fun fl => { fl with cmds := [{ cmd .send .net [] false with progress := 1 }] }) with routes := [3], peerIn := [0] }
theorem reach_sent : AllSent sending 0 { cmd .send .net [] false with progress := 1 } work ∧ sending.peerIn = [0] :=
  ⟨⟨moves_of (by decide +kernel) (by decide +kernel) (by decide +kernel) (by decide +kernel), by decide +kernel,
    Or.inr ⟨rfl, holds_of (by decide +kernel)⟩,
    by decide +kernel, by decide +kernel, by decide +kernel, by decide +kernel, by decide +kernel⟩, by decide +kernel⟩
theorem reach_timeout : { cmd .send .net [] false with progress := 1 } ∈ (sending.floe 0).cmds ∧ ((sending.floe 0).cmds.map (fun d => d.seq)).Nodup ∧
    sending.unretired 0 = true ∧ (sending.floe 0).reports.length < 8 := by decide +kernel

/-! ### Matrix -/

/-- A run of block 0 with a barrier mask of b3, operands at entries 1 and 2, an output at 3 and an epilogue at 48. -/
def run : Run :=
  { id := 0, blk := 0, floe := 0, pc := 0x10000, l := [0, 0, 0, 0], arrived := 0, standing := none, held := false, paused := false, wrote := []
    table := [(0, BitVec.ofNat 256 (2 ^ 67)), (1, BitVec.ofNat 256 (0x81 + 64 * 2 ^ 64)),
      (2, BitVec.ofNat 256 (0x81 + 0x2000 * 2 ^ 32 + 64 * 2 ^ 64)),
              (3, BitVec.ofNat 256 (2 + 0x4000 * 2 ^ 32)), (48, BitVec.ofNat 256 4)] }
@[irreducible] def atRun : State := (base.updCore 0 (fun k => { k with run := some run }))
theorem atRun_tiles : (atRun.core atRun.cur.core).tiles = [] ∧ (atRun.core atRun.cur.core).run = some run ∧
  (atRun.core atRun.cur.core).engine = [] := by
  decide +kernel
theorem reach_mzero : TilesFree atRun run 8 16 :=
  ⟨atRun_tiles.2.1, by rw [atRun_tiles.2.2]; simp, fun i _ _ => by rw [atRun_tiles.1]; rfl⟩
theorem reach_mloop : (atRun.core atRun.cur.core).run = some run ∧ run.l.length = 4 := by decide +kernel
theorem reach_mbar : SeqArrives atRun run 3 :=
  ⟨atRun_tiles.2.1, by decide +kernel, by unfold counts; decide +kernel, rfl, atRun_tiles.2.2,
   ⟨fun d h => by (rw [show (atRun.core atRun.cur.core).drain = none from by decide +kernel] at h; cases h), by decide +kernel⟩, by decide,
     by decide +kernel⟩
theorem reach_mend : MayEnd atRun run 3 := ⟨reach_mbar, by unfold counts; decide +kernel, by decide +kernel⟩
theorem own1 : OwnOperand (entryOf run 1) 0 16 := ⟨by decide +kernel, by decide +kernel, by decide +kernel, by decide +kernel⟩
theorem own2 : OwnOperand (entryOf run 2) 0 16 := ⟨by decide +kernel, by decide +kernel, by decide +kernel, by decide +kernel⟩
theorem inside1 : Inside 65536 (entryOf run 1) 0 16 1 [0, 0, 0, 0] := by unfold Inside Claims.scaled; decide +kernel
theorem inside2 : Inside 65536 (entryOf run 2) 0 16 1 [0, 0, 0, 0] := by unfold Inside Claims.scaled; decide +kernel
theorem run_format : formatOf atRun run = 0 ∧ formatA 0 = 0 ∧ formatB 0 = 0 ∧ kOf 0 = 16 ∧ (atRun.block run.blk).spadKiB * 1024 = 65536 ∧
    indices run = [0, 0, 0, 0] := by decide +kernel
theorem reach_mma : CanMma atRun run 1 2 1 5 := by
  obtain ⟨h1, h2, h3, h4, h5, h6⟩ := run_format
  refine ⟨atRun_tiles.2.1, ⟨rfl, by rw [atRun_tiles.2.2]; decide, by rw [atRun_tiles.1]; rfl⟩, by decide, ?_, ?_, ?_, ?_⟩ <;>
    simp only [h1, h2, h3, h4, h5, h6]
  exacts [own1, own2, inside1, inside2]
/-- An `MMA` in the engine. -/
def issued : Issued := ⟨0, 5, false, 1, 2, entryOf run 1, entryOf run 2, 1, 0, 0, [0, 0, 0, 0], 0, 0⟩
@[irreducible] def multiplying : State := atRun.updCore 0 (fun k => { k with engine := [issued] })
theorem reach_multiply : CanMultiply multiplying 0 issued [] := by
  have h2 : formatA issued.fmt = 0 ∧ formatB issued.fmt = 0 ∧ kOf issued.fmt = 16 ∧
    (multiplying.block issued.blk).spadKiB * 1024 = 65536 := by decide +kernel
  refine ⟨by decide +kernel, by decide, rfl, by decide +kernel, ?_, ?_, ?_, ?_, by decide +kernel, ⟨multiplying.block 0, by decide +kernel⟩,
    Or.inl (by decide +kernel), Or.inl rfl⟩ <;>
    simp only [h2.1, h2.2.1, h2.2.2.1, h2.2.2.2]
  exacts [own1, own2, inside1, inside2]
/-- An `MMA` whose A operand goes to a multicast group of core 0 alone. -/
def shared : Issued := { issued with ea := BitVec.ofNat 256 (0x181 + 64 * 2 ^ 64) }
@[irreducible] def casting : State := atRun.updCore 0 (fun k => { k with engine := [shared] })
theorem reach_multicast : CanDeliverTo casting 0 1 shared :=
  ⟨by decide +kernel, by decide +kernel, ⟨by decide +kernel, by decide +kernel, by unfold named; decide +kernel, fun m _ => Nat.zero_le m⟩,
   ⟨by decide, casting.block 0, by decide +kernel⟩, fun _ m _ => by
    have := getD_all (fun k : Core => k.mcast.isEmpty) casting.cores Core.reset rfl (by decide +kernel) m
    unfold bufferOf State.castBuffer
    rw [show casting.images = [] from by decide +kernel, List.find?_nil]
    simp only
    rw [show (casting.core m).mcast = [] from by simpa [State.core] using this]; decide, fun m _ r hr => by
    have := getD_all (fun k : Core => k.run.all (fun r => !r.held)) casting.cores Core.reset rfl (by decide +kernel) m
    rw [show casting.cores.getD m Core.reset = casting.core m from rfl, hr] at this
    simpa using this⟩
/-- `base` with an `MRUN` waiting on a free sequencer: its table at the page, in the core's L1, holds a header with a barrier mask of b0. -/
@[irreducible] def starting : State := (cached base (BitVec.ofNat 1024 (2 ^ 64) :: List.replicate 15 0)).updCore 0 (fun k =>
  { k with mruns := [(0, 0, 0x10800, 0x10000)] })
theorem reach_start : CanStart starting 0 0 0 0x10800 0x10000 [] (fun i => if i = 0 then 2 ^ 64 else 0) :=
  ⟨by decide +kernel, by decide +kernel, by decide +kernel, by decide +kernel, fun i hi =>
    coreHolds_of (List.all_eq_true.mp (by decide +kernel : (upTo 64).all (fun i => coreHolds starting 1 0 ((0x10000 : W64).toNat + 32 * i)
      32 (if i = 0 then 2 ^ 64 else 0)) = true) i (List.mem_range.mpr hi)), by decide⟩
theorem reach_drain : CanDrain atRun run 0 0 3 5 :=
  ⟨atRun_tiles.2.1, ⟨by rw [atRun_tiles.2.2]; simp, by decide +kernel⟩,
    ⟨by decide, by decide, by decide +kernel, by decide +kernel, by decide +kernel⟩,
   ⟨by decide, fun h => absurd rfl h, by decide +kernel⟩, ⟨by decide +kernel, by decide +kernel, by decide +kernel, by decide +kernel⟩,
   by decide +kernel, by decide +kernel, by decide +kernel⟩
/-- A unit of one write of 16 bytes. -/
def staged : StageUnit :=
  ⟨⟨0, 0, 0, 5, 0x10000, true, entryOf run 3, none, entryOf run 48, [], [], 0, [0, 0, 0, 0], 0, 0⟩, [⟨true, 0x4000, List.replicate 16 1⟩],
    [none], false, false⟩
/-- A tile each of whose rows begins with a NaN: none of its checks applies. -/
def nanTile : Tile := { Tile.reset with
  elems := (List.range 128).map (fun r => (r * 128, 0x7FC00000)), c := (List.range 128).map (fun r => (r, 0x7FC00000)) }
@[irreducible] def draining : State := atRun.updCore 0 (fun k => { k with drain := some staged.job, tiles := [(5, nanTile)] })
theorem reach_staging : (draining.core 0).drain = some staged.job ∧ draining.upsets = [] ∧ staged.job.repeats = 0 ∧
    ((draining.core 0).tiles.getD staged.job.tile Tile.reset).bad = [] ∧ ∀ row ∈ rowsOf draining 0 staged.job, row.ok = true :=
  ⟨by decide +kernel, by decide +kernel, rfl, by decide +kernel, fun row h =>
    List.all_eq_true.mp (by decide +kernel : (rowsOf draining 0 staged.job).all (fun row => row.ok) = true) row h⟩
@[irreducible] def writing : State := atRun.updCore 0 (fun k => { k with staging := [staged] })
theorem reach_unit : CanWriteUnit writing 0 staged [] :=
  ⟨by decide +kernel, by decide +kernel, by decide +kernel, by decide +kernel, by decide +kernel, by decide +kernel⟩

/-! ### Memory of the host's side -/

theorem mem_of_get? {α : Type} {t : Tab α} {k : Nat} {x : α} (h : t.get? k = some x) : (k, x) ∈ t := by
  induction t with
  | nil => cases h
  | cons e t ih =>
    unfold Tab.get? at h
    split at h
    · next hk => rw [Option.some.injEq] at h; subst hk h; exact List.mem_cons_self
    · exact List.mem_cons_of_mem _ (ih h)
/-- The check of `AtHome`. -/
def home (s : State) (ln : Nat) : Bool :=
  (upTo 13).all (fun d => ((s.die d).stack.get? ln).isNone) &&
    s.logs.all (fun g => decide (g.2.pa + g.2.len ≤ ln * 128 ∨ ln * 128 + 128 ≤ g.2.pa)) && (upTo 32).all (fun i => !s.badWords.contains (ln * 32 + i)) &&
  s.migrations.isEmpty && s.launches.all (fun e => !e.2.armed) && s.launches.all (fun e => !s.accesses e.2 ln)
theorem home_of {s : State} {ln : Nat} (h : home s ln = true) : AtHome s ln := by
  simp only [home, Bool.and_eq_true] at h
  obtain ⟨⟨⟨⟨⟨h1, hg⟩, h2⟩, h3⟩, h4⟩, h5⟩ := h
  refine ⟨fun d hd => ?_, fun g hm => ?_, fun i hi => ?_, List.isEmpty_iff.mp h3, unarmed_of h4, fun e he => ?_⟩
  · simpa using List.all_eq_true.mp h1 d (List.mem_range.mpr hd)
  · simpa using List.all_eq_true.mp hg g hm
  · simpa using List.all_eq_true.mp h2 i (List.mem_range.mpr hi)
  · simpa using List.all_eq_true.mp h5 e he
/-- The bytes that a walk through an extent reads stand in lines outside a list. -/
def tablesApart (s : State) (lines : List Nat) (asid : Nat) : Bool :=
  (upTo 64).all (fun i => !lines.contains ((s.astab + asid * 64 + i) / 128)) &&
  (upTo (Nat.min (asRcount (s.asRecord asid)) 4096)).all (fun i => (upTo 32).all (fun j =>
    !lines.contains ((asRtab (s.asRecord asid) + i * 32 + j) / 128)))
theorem walk_same {s u : State} {lines : List Nat} {asid va : Nat} (hb : u.boot = s.boot) (ha : tablesApart s lines asid = true)
    (hf : (s.findExtent (s.asRecord asid) va).isSome = true) (hp : ∀ a, a / 128 ∉ lines → u.peekByte a = s.peekByte a) :
    u.walk asid va = s.walk asid va := by
  simp only [tablesApart, Bool.and_eq_true, List.all_eq_true, upTo, List.mem_range, Bool.not_eq_true', List.contains_eq_mem,
    decide_eq_false_iff_not] at ha
  have h0 : ∀ a n, (∀ i < n, (a + i) / 128 ∉ lines) → u.peek a n = s.peek a n := fun a n h => by
    unfold State.peek upTo
    rw [List.map_congr_left (fun i hi => hp _ (h i (List.mem_range.mp hi)))]
  have h1 : u.asRecord asid = s.asRecord asid := by
    unfold State.asRecord
    rw [show u.astab = s.astab from by unfold State.astab; rw [hb], h0 _ _ ha.1]
  have h2 : u.findExtent (s.asRecord asid) va = s.findExtent (s.asRecord asid) va := by
    unfold State.findExtent State.extents
    rw [List.map_congr_left (g := fun i => s.rangeEntry (s.asRecord asid) i) (fun i hi => ?_)]
    unfold State.rangeEntry
    rw [h0 _ _ (ha.2 i (List.mem_range.mp hi))]
  obtain ⟨e, he⟩ := Option.isSome_iff_exists.mp hf
  unfold State.walk
  simp only [h1, h2, he]
/-- The check of a walk to plain memory with a list of rights. -/
def leads (s : State) (rights lines : List Nat) (asid va pa key : Nat) : Bool :=
  tablesApart s lines asid && (s.findExtent (s.asRecord asid) va).isSome &&
  match s.walk asid va with
  | .cause _ => false
  | .ok x _ => rights.all (fun b => bitN x.attr b) && decide (fieldN x.attr 48 4 = 0) && decide (fieldN x.attr 16 2 ≤ 1) &&
    decide (fieldN x.attr 52 12 = key) && decide (pa = x.pa + (va - x.va))
theorem leads_of {s : State} {rights lines : List Nat} {asid va pa key : Nat} (h : leads s rights lines asid va pa key = true) (u : State)
    (hb : u.boot = s.boot) (hp : ∀ a, a / 128 ∉ lines → u.peekByte a = s.peekByte a) :
    ∃ x r, u.walk asid va = .ok x r ∧ (∀ b ∈ rights, bitN x.attr b = true) ∧ fieldN x.attr 48 4 = 0 ∧ fieldN x.attr 16 2 ≤ 1 ∧
      fieldN x.attr 52 12 = key ∧ pa = x.pa + (va - x.va) := by
  unfold leads at h
  simp only [Bool.and_eq_true] at h
  rw [walk_same hb h.1.1 h.1.2 hp]
  cases hw : s.walk asid va with
  | cause c => simp [hw] at h
  | ok x r =>
    simp only [hw, Bool.and_eq_true, decide_eq_true_eq, List.all_eq_true] at h
    exact ⟨x, r, rfl, h.2.1.1.1.1, h.2.1.1.1.2, h.2.1.1.2, h.2.1.2, h.2.2⟩
theorem reach_of {s : State} {rights lines : List Nat} {asid va n pa key : Nat}
    (hs : va < 2 ^ 56 ∧ inAperture va = false ∧ va % 128 + n ≤ 128 ∧ 0 < n ∧ pa % 128 = va % 128 ∧ paTier pa ≤ 1)
    (hh : home s (pa / 128) = true) (hk : s.memKeys.getD (pa / 128) key = key) (hl : leads s rights lines asid va pa key = true) :
    Reach s rights lines asid va n pa key :=
  ⟨hs, home_of hh, hk, fun u hb _ hp => leads_of hl u hb hp⟩

/-! ### Host die -/

/-- `mapped` with hart 0 in user mode, its receiver bound and a bit pending. -/
@[irreducible] def hosting (m : Tab Byte) : State :=
  { mapped m id with harts := [(0, { Hart.reset with user := true, kuien := true, kuirecv := 0x1000 })] }
/-- The check of `clusterRoom`. -/
theorem room_of {s : State} (h : s.dies.all (fun e => e.2.stack.length == 0) = true) (a : Nat) : clusterRoom s a := by
  have z : ∀ k, (s.die k).stack.length = 0 := fun k => by
    have := getD_all (fun d : Die => d.stack.length == 0) s.dies Die.reset rfl h k
    simpa [State.die] using this
  unfold clusterRoom
  simp [z]
theorem hosting_receives (m : Tab Byte) (h : home (hosting m) 0 = true) (hb : ((hosting m).hart 0).kuirecv.getLsbD 12 = true)
    (he : 0 = (hosting m).boot.toNat / 2 ^ 448 % 2 ^ 64 + ((hosting m).hart 0).kuirecv.toNat % 2 ^ 12 * 16)
    (hr : (hosting m).dies.all (fun e => e.2.stack.length == 0) = true) : Receiver (hosting m) 0 0 :=
  
  ⟨hb, ⟨he, rfl⟩, by decide, room_of hr _, by decide, home_of h⟩
theorem reach_kuipend : ∃ e, Interrupts (hosting [(0, 1)]) 0 e :=
  ⟨0, by decide +kernel, hosting_receives _ (by decide +kernel) (by decide +kernel) (by decide +kernel) (by decide +kernel), by decide +kernel⟩
/-- The same hart's own instruction, before which that interrupt comes; and, with no bit pending, its own access to the pending word. -/
theorem reach_own : HartOwn 0 (.kuipendAccess 0 5 .write 1) := .pending 5 .write 1
theorem reach_kuipend_access : Boundary (hosting []) 0 ∧ ∃ e, Receiver (hosting []) 0 e :=
  ⟨by unfold Boundary; decide +kernel,
   0, hosting_receives _ (by decide +kernel) (by decide +kernel) (by decide +kernel) (by decide +kernel)⟩
theorem reach_csr : Boundary (hosting []) 0 ∧ csrRule (hosting []) 0 0x8C1 1 ≠ none := by unfold Boundary; decide +kernel
theorem reach_host_access : ∀ acc, acc = .load ∨ acc = .store ∨ acc = .amoMinu → Boundary base 63 ∧ HostMay base 63 acc 0 8 := by
  intro acc h
  exact ⟨by unfold Boundary; decide +kernel, by decide, fun _ _ => by decide, by decide +kernel, fun _ =>
    by decide, by decide, room_of (by decide +kernel) _, by decide, home_of (by decide +kernel)⟩
theorem reach_external_host : ExternalRecord { base with boot := 4 } 0 (List.replicate 128 0) := ⟨by decide +kernel, by decide +kernel⟩
theorem reach_boot : State.reset.booted = false ∧ GoodBoot State.reset :=
  ⟨rfl, ⟨by decide +kernel, by decide +kernel, by decide +kernel, by unfold framePa; decide +kernel, by decide +kernel, by decide +kernel,
    by decide +kernel⟩⟩
theorem reach_power_loss : State.reset.logs = [] := rfl
/-- `base` with queue 0 bound, one place deep, holding `n` descriptors. -/
@[irreducible] def queued (n : Nat) : State := { base with subq := [(0, ⟨some 0, 1, 0, List.replicate n 0, false, 1⟩)] }
theorem queued_submits (n page : Nat) (hb : deviceBase (queued n) = 0) (hp : page ≤ 32) (hh : home (queued n) 0 = true)
    (hv : memNumber (queued n) 0 128 = 0) (hr : (queued n).dies.all (fun e => e.2.stack.length == 0) = true) (hc : (queued n).cur.hart < 64) :
    CanSubmit (queued n) (page * 4096) 0 page 0 0 :=
  ⟨⟨hc, room_of hr _, by decide, home_of hh⟩, by rw [hb], ⟨by rw [hb]; omega, hp, by decide⟩, ⟨rfl, by decide, hv.symm⟩⟩
theorem reach_submit : CanSubmit (queued 0) 4096 0 1 0 0 ∧ takes_ (queueAt (queued 0) 1 0) :=
  ⟨queued_submits 0 1 (by decide +kernel) (by decide) (by decide +kernel) (by decide +kernel) (by decide +kernel) (by decide +kernel),
    by unfold takes_; decide +kernel⟩
theorem reach_retry : CanSubmit (queued 1) 4096 0 1 0 0 ∧ RetryCode (queueAt (queued 1) 1 0) 1 :=
  ⟨queued_submits 1 1 (by decide +kernel) (by decide) (by decide +kernel) (by decide +kernel) (by decide +kernel) (by decide +kernel),
    .full (by decide +kernel) (by decide +kernel) (by decide +kernel)⟩
theorem reach_manage : CanSubmit (queued 0) 0 0 0 0 0 :=
  queued_submits 0 0 (by decide +kernel) (by decide) (by decide +kernel) (by decide +kernel) (by decide +kernel) (by decide +kernel)

/-! ### Launches and scheduling -/

/-- A descriptor of one block of one floe of 16 lanes and 64 registers, its code at the page; `k` is its kind. -/
def desc (k : Nat) : BitVec 1024 := BitVec.ofNat 1024 (0x10000 + k * 2 ^ 56 + 2 ^ 416 + 2 ^ 469 + 7 * 2 ^ 479)
@[irreducible] def submitted (k : Nat) : State := { mapped [] id with subq := [(0, ⟨some 0, 1, 0, [desc k], false, 1⟩)] }
theorem desc_good (k : Nat) (hk : k = 0 ∨ k = 1 ∨ k = 2) : GoodDescriptor (submitted k) (desc k) := by
  rcases hk with rfl | rfl | rfl <;>
    exact ⟨by decide +kernel, by decide +kernel, by decide +kernel, by decide +kernel, ⟨0, by unfold usable; decide +kernel⟩⟩
/-- That descriptor with one parameter, at 0x12000, and one cohort, at 0x13000; memory holds the parameter 5 and a cohort of block 0 alone. -/
def full : BitVec 1024 := desc 0 + BitVec.ofNat 1024 (0x12000 * 2 ^ 64 + 0x13000 * 2 ^ 192 + 2 ^ 385 + 2 ^ 391)
@[irreducible] def fully : State :=
  { mapped [(0x2000, 5), (0x3000, 1), (0x3008, 1), (0x300C, 1)] id with subq := [(0, ⟨some 0, 1, 0, [full], false, 1⟩)] }
def reading : Reading := ⟨fun _ => 0, fun i => if i = 0 then 5 else 0, fun i => if i = 0 ∨ i = 8 ∨ i = 12 then 1 else 0⟩
theorem holdsRun_of {s : State} {right asid va n : Nat} {b : Nat → Byte}
    (h : (chunksOf va n).all (fun c => holds s right asid c.1 c.2 (number b (c.1 - va) c.2)) = true) : HoldsRun s right asid va n b :=
  fun c hc => holds_of (List.all_eq_true.mp h c hc)
theorem reading_cohorts : GoodCohorts full reading where
  reserved := by decide +kernel
  values := by decide +kernel
  members := by
    intro i hi id ⟨_, k, hk, he⟩
    have hf : dfield full 391 9 = 1 := by decide +kernel
    obtain rfl : i = 0 := by omega
    rw [show reading.entry 0 / 2 ^ 64 % 2 ^ 32 = 1 from by decide +kernel] at hk
    rw [show reading.entry 0 / 2 ^ 32 % 2 ^ 32 = 0 from by decide +kernel] at he
    rw [show dfield full 416 32 = 1 from by decide +kernel, he, show k = 0 by omega]
    decide
  four := fun id js hn hj => by
    have hs : js ⊆ [0] := fun j hm => by
      have := (hj j hm).1
      rw [show dfield full 391 9 = 1 from by decide +kernel] at this
      simpa using this
    exact ((List.Nodup.subperm hn hs).length_le).trans (by decide)
theorem reach_accept : Oldest fully 0 full [] ∧ Acceptable fully full reading :=
  ⟨⟨by decide +kernel, by decide +kernel⟩,
   ⟨by decide +kernel, by decide +kernel, by decide +kernel, by decide +kernel, ⟨0, by unfold usable; decide +kernel⟩⟩, by decide +kernel,
   ⟨by decide, by decide +kernel, by decide +kernel, by decide +kernel⟩, fun h => absurd h (by decide +kernel),
   holdsRun_of (by decide +kernel), holdsRun_of (by decide +kernel), holdsRun_of (by decide +kernel), reading_cohorts⟩
theorem reach_bind : Oldest (submitted 1) 0 (desc 1) [] ∧ GoodDescriptor (submitted 1) (desc 1) ∧ dfield (desc 1) 56 2 = 1 :=
  ⟨⟨by decide +kernel, by decide +kernel⟩, desc_good 1 (Or.inr (Or.inl rfl)), by decide +kernel⟩
/-- A launch that waits for its first block. -/
@[irreducible] def waiting : State := { State.reset with booted := true, launches := [(1, { placedLaunch with phase := .queued, placed := 0 })] }
theorem reach_place : Chosen waiting { placedLaunch with phase := .queued, placed := 0 } 0 0 :=
  ⟨⟨[], by decide +kernel⟩, Or.inl (by decide +kernel), by decide +kernel, fun _ d hd => by
    have := (by decide +kernel : ∀ d ∈ ({ placedLaunch with phase := .queued, placed := 0 } : Launch).dies, (waiting.die d).stack.length = 0) d hd
    omega, by decide +kernel, by decide +kernel, by decide, fun p hp => absurd hp (Nat.not_lt_zero p)⟩
/-- `base` with its floe retired. -/
@[irreducible] def done : State := base.updFloe 0 (fun fl => { fl with st := .retired })
theorem reach_finish : Finished done 0 (done.block 0) where
  here := by decide +kernel
  floes := fun f fl h _ => (by decide +kernel : ∀ e ∈ done.floes, (e.2.st = .retired ∨ e.2.st = .reserved) ∧ e.2.ops = [] ∧
    e.2.cmds = []) _ (mem_of_get? h)
  run := fun r h => absurd h (by rw [show (done.core (coreOf 0)).run = none from by decide +kernel]; simp)
  engine := ⟨by decide +kernel, fun d h => absurd h (by rw [show (done.core (coreOf 0)).drain = none from by decide +kernel]; simp),
    by decide +kernel⟩
  streams := by rw [show (done.block 0).streams = [] from by decide +kernel]; simp
  slots := by decide +kernel
  idle := by decide +kernel
  plain := by decide +kernel
/-- A finished launch whose completion counter lies at the page, in a line that die 0 owns. -/
def ending : Launch := { placedLaunch with desc := placedLaunch.desc + BitVec.ofNat 1024 (0x10000 * 2 ^ 256), finished := [0], placed := 1 }
@[irreducible] def ended : State := { mapped [] id with blocks := [], floes := [], launches := [(1, ending)], dies :=
  [(0, { Die.reset with stack := [(0, line)] })] }
theorem ended_writes {va n pa : Nat} (hs : va < 2 ^ 56 ∧ inAperture va = false ∧ va % 128 + n ≤ 128 ∧ 0 < n) (hp : pa / 128 = 0)
    (hl : leads ended [2] [0] 0 va pa 0 = true) (hm : pa % 128 = va % 128 ∧ paTier pa ≤ 1) : MayWrite ended 0 0 va n pa 0 line :=
  ⟨hs, by rw [hp]; exact ⟨by decide, by decide +kernel, rfl, rfl, by decide +kernel, by decide +kernel, unarmed_of (by decide +kernel),
    by decide +kernel⟩,
   fun u hb _ hu => by
    obtain ⟨x, r, h1, h2, h3, h4, h5, h6⟩ := leads_of hl u hb (fun a ha => hu a (by rw [hp]; simpa using ha))
    exact ⟨x, r, h1, h2 2 (by simp), h3, h4, h5, h6, hm⟩⟩
theorem ending_fields : dfield ending.desc 400 16 = 0 ∧ dfield ending.desc 256 56 = 0x10000 ∧ dfield ending.desc 458 1 = 0 ∧
    ending.finished.length = dfield ending.desc 416 32 := by decide +kernel
theorem reach_launch_end : CanEndLaunch ended 1 ending 0 0 0 line where
  here := by decide +kernel
  ends := Or.inr ⟨rfl, ending_fields.2.2.2⟩
  empty := fun b y h => absurd h (by rw [show ended.blocks = [] from by decide +kernel]; simp [Tab.get?])
  sends := by rw [show ended.images = [] from by decide +kernel]; simp
  logs := by decide +kernel
  private_ := rfl
  record := by rw [ending_fields.2.1, ending_fields.2.2.1]; decide
  leads := ⟨by unfold usable; decide +kernel, fun j hj => absurd hj (Nat.not_lt_zero j)⟩
  clean := rfl
  may := by rw [ending_fields.1, ending_fields.2.1]; exact ended_writes (by decide +kernel) rfl (by decide +kernel) (by decide +kernel)
  may8 := by rw [ending_fields.1, ending_fields.2.1]; exact ended_writes (by decide +kernel) rfl (by decide +kernel) (by decide +kernel)
/-- `base` with its floe ready, and with a timer of 1 µs that has run out. -/
@[irreducible] def readied : State := base.updFloe 0 (fun fl => { fl with st := .ready })
theorem reach_admit : (readied.quadFloes 0 (readied.quadOf 0) .active).length < 8 ∧ (readied.core 0).halted = false ∧
    LongestReady readied 0 (readied.quadOf 0) 0 :=
  ⟨by decide +kernel, by decide +kernel, ⟨by decide +kernel, by decide +kernel, by decide +kernel, rfl⟩, fun g hg hn =>
    absurd ((by decide +kernel : ∀ g ∈ readied.floes.keys, g = 0) g hg.1) hn⟩
@[irreducible] def timed : State := { base.updFloe 0 (fun fl => { fl with uivec := 0x100000 }) with time := 1000 }
theorem reach_timer : timed.unretired 0 = true ∧ timerPeriod (timed.floe 0) ≠ 0 ∧
    (timed.floe 0).timerAt.toNat + timerPeriod (timed.floe 0) ≤ timed.time.toNat := by decide +kernel
theorem reach_wait_count : ∃ s : State, s.floes.get? 0 ≠ none ∧ 64 ≤ (s.frag 0 0).waitCount ∧ 0 ∉ (s.floe 0).expired :=
  ⟨base.updFloe 0 (fun fl => { fl with frags := fl.frags.map (fun g => { g with waitCount := 64 }) }), by decide +kernel⟩

/-! ### Network and services -/

/-- `mapped` reaches n bytes at the start of its page, whatever stands in a list of its page's first four lines. -/
theorem page_reach {s : State} {rights lines : List Nat} {off n : Nat} (hs : home s (off / 128) = true ∧
    s.memKeys.getD (off / 128) 0 = 0 ∧ leads s rights lines 0 (0x10000 + off) off 0 = true)
    (ho : off % 128 + n ≤ 128 ∧ 0 < n ∧ off < 0x1000) : Reach s rights lines 0 (0x10000 + off) n off 0 := by
  refine reach_of ⟨by omega, ?_, by omega, ho.2.1, by omega, ?_⟩ hs.1 hs.2.1 hs.2.2
  · have : ¬ apertureBase ≤ 0x10000 + off := by unfold apertureBase; omega
    simp [inAperture, this]
  · have : paTier off = 0 := by unfold paTier; omega
    omega
/-- A peer's requests at the page. -/
theorem reach_peer_read : PeerMayAsk (mapped [] id) ⟨0, 0x10000, .read 4⟩ :=
  .read 4 0 0 rfl ⟨by decide, page_reach (off := 0) (by decide +kernel) (by decide)⟩
theorem reach_peer_write : PeerMayAsk (mapped [] id) ⟨0, 0x10000, .write [1, 2]⟩ :=
  .write [1, 2] 0 0 rfl ⟨by decide, page_reach (off := 0) (by decide +kernel) (by decide)⟩
theorem reach_peer_atomic : PeerMayAsk (mapped [] id) ⟨0, 0x10000, .atom .add true 1 0⟩ :=
  .atom .add true 1 0 8 0 0 rfl rfl ⟨by decide, page_reach (off := 0) (by decide +kernel) (by decide)⟩
/-- An operation whose lane waits for a peer. -/
def asked : MemOp := ⟨0, .loads, .load, 4, [⟨0, 0x10000, .absent, 0, 0, false, false⟩], .vec 5, false, 0, false, 0, none⟩
/-- `ready` parked at it, the tables naming a peer's page at its address. -/
@[irreducible] def unanswered : State :=
  { ready.updFloe 0 (fun fl => { fl with ops := [asked], opSeq := 1, parked := some ⟨asked, 0, false, none, [], []⟩, st := .parked }) with
    boot := BitVec.ofNat 1024 (0x20000 * 2 ^ 64), mem := tables ++ [(0x21012, 3)] }
theorem unanswered_owned {d ln key : Nat} (hd : d = 0) (hl : ln = 0) (hk : key = 0) : Owned unanswered d ln key line := by
  subst hd hl hk
  exact ⟨by decide, by decide +kernel, rfl, rfl, by decide +kernel, by decide +kernel, unarmed_of (by decide +kernel), by decide +kernel⟩
theorem reach_unanswered : MayTimeOut unanswered 0 ⟨asked, 0, false, none, [], []⟩ asked ⟨0, 0x10000, .absent, 0, 0, false, false⟩ [] page line where
  late := ⟨⟨by decide +kernel, by decide, fun h e => by cases e⟩, by decide +kernel, by decide +kernel, by decide +kernel⟩
  traps := ⟨by decide +kernel, by decide +kernel, by decide +kernel, by decide +kernel, by decide +kernel, by decide +kernel, by decide +kernel,
    by decide +kernel, unanswered_owned (by decide +kernel) (by decide +kernel) (by decide +kernel), by unfold mayRise; decide +kernel⟩
/-- A window of 256 bytes at the page, and a packet of 16 for it. -/
def window (idem : Bool) : RecvWindow := ⟨0, 0x10000, 256, idem, false, 1, 0, 0, 0, [], false, 0⟩
@[irreducible] def receiving (idem : Bool) : State :=
  { mapped [] id with windows := [(7, window idem)], packets := [⟨3, 7, 0, 0, idem, [1], 0, 0, 0⟩] }
theorem reach_packet : CanPlace (receiving false) 7 0 false (List.replicate 16 1) (window false) 0 0 :=
  ⟨by decide +kernel, by decide, page_reach (off := 0) (by decide +kernel) (by decide), by unfold noMail; decide +kernel, by decide⟩
theorem reach_packet_idempotent : CanPlace (receiving true) 7 0 true (List.replicate 16 1) (window true) 0 0 :=
  ⟨by decide +kernel, by decide, page_reach (off := 0) (by decide +kernel) (by decide), by unfold noMail; decide +kernel,
   ⟨255, by decide, Or.inr (by decide), by decide⟩⟩
theorem reach_retransmission : OldestPacket (receiving false) 0 0 [] [] ⟨3, 7, 0, 0, false, [1], 0, 0, 0⟩ :=
  ⟨by decide +kernel, rfl, rfl, by simp, by simp⟩
/-- `mapped` with a fault ring of 16 slots at 0x10100, control words at 0x10000, and one record waiting. -/
@[irreducible] def ringing : State := { mapped [(0x20011, 1), (0x20012, 1), (0x20017, 4), (0x2001A, 1)] id with
  ringWaits := [(0, [0])], evBacklog := [0] }
theorem reach_ring : RingRoom ringing 0 (0, [0]) 0 0 0 0x100 0 0 0 where
  waits := by decide +kernel
  fresh := by decide +kernel
  ctl := ⟨by decide +kernel, by
    rw [show fieldN (ringing.asRecord 0) 192 56 = 0x10000 + 0 from by decide +kernel]; exact page_reach (by decide +kernel) (by decide)⟩
  index := by decide +kernel
  room := by decide +kernel
  slot := ⟨by decide +kernel, by
    rw [show fieldN (ringing.asRecord 0) 128 56 + 0 % 2 ^ fieldN (ringing.asRecord 0) 184 8 * 64 = 0x10000 + 0x100 from by decide +kernel]
    exact page_reach (by decide +kernel) (by decide)⟩
  apart := by decide
theorem reach_event : EventRoom ringing 0 [] 0 0 :=
  ⟨by decide +kernel, by decide +kernel, ⟨home_of (by decide +kernel), home_of (by decide +kernel)⟩, by decide +kernel, by decide +kernel⟩
/-- A management record: a service number, three arguments, its completion counter at the page. -/
def record (num a b c : Nat) : BitVec 1024 := BitVec.ofNat 1024 (num + a * 2 ^ 64 + b * 2 ^ 128 + c * 2 ^ 192 + 0x10000 * 2 ^ 320)
@[irreducible] def managed (r : BitVec 1024) : State := { mapped [] id with mgmt := [r], nvme := [⟨0, 5, 1, 0⟩], invs := [⟨0, 0x10000, 0, 0x10000⟩] }
theorem reach_reply_place (s : State) (r : BitVec 1024) (hr : fieldN r 320 64 = 0x10000 ∧ fieldN r 16 16 = 0)
    (h : ∀ off ∈ [0, 8, 16], home s (off / 128) = true ∧ s.memKeys.getD (off / 128) 0 = 0 ∧
      leads s [1, 2] [0] 0 (0x10000 + off) off 0 = true ∧ leads s [2] [0] 0 (0x10000 + off) off 0 = true) : CanReply s r 0 0 := by
  have h0 := h 0 (by simp)
  have h8 := h 8 (by simp)
  have h16 := h 16 (by simp)
  refine ⟨by rw [hr.1]; decide, ?_, ?_, ?_⟩ <;> rw [hr.1, hr.2]
  · exact page_reach (off := 0) ⟨h0.1, h0.2.1, h0.2.2.1⟩ (by decide)
  · exact page_reach (off := 8) ⟨h8.1, h8.2.1, h8.2.2.2⟩ (by decide)
  · exact page_reach (off := 16) ⟨h16.1, h16.2.1, h16.2.2.2⟩ (by decide)
theorem reach_service : ∃ o, serviceRule (managed (record 14 3 1 16)) (record 14 3 1 16) 0 (.bindQueue .mgmt) = some o ∧ o.num = 14 ∧
    Calls (managed (record 14 3 1 16)) (record 14 3 1 16) [] 14 0 ∧ CanReply (managed (record 14 3 1 16)) (record 14 3 1 16) 0 0 ∧ o.when :=
  ⟨_, rfl, rfl, ⟨by decide +kernel, by decide +kernel, by decide +kernel, by decide +kernel⟩,
    reach_reply_place _ _ (by decide +kernel) (by decide +kernel),
   by show argOf (record 14 3 1 16) 0 ≤ 1023 ∧ argOf (record 14 3 1 16) 1 = argOf (record 14 3 1 16) 0 / 32 + 1 ∧ _ ∧ _; decide +kernel⟩
/-- `managed` with expert controls accepted: control 3 with an argument of all ones. -/
def restoring3 : BitVec 1024 := record 15 3 (2 ^ 64 - 1) 0
@[irreducible] def expert : State := { managed restoring3 with boot := (managed restoring3).boot + 2 }
theorem reach_expert : ∃ o, serviceRule expert restoring3 0 (.expertIslandOperatingPoint .mgmt) = some o ∧ o.num = 15 ∧ restores restoring3 ∧
    Calls expert restoring3 [] 15 0 ∧ CanReply expert restoring3 0 0 ∧ o.when :=
  ⟨_, rfl, rfl, by unfold restores; decide +kernel, ⟨by decide +kernel, by decide +kernel, by decide +kernel, by decide +kernel⟩,
    reach_reply_place _ _ (by decide +kernel) (by decide +kernel),
   by show expertOn expert ∧ argOf restoring3 0 = 3 ∧ (restores restoring3 ∨ _); unfold expertOn restores; decide +kernel⟩
/-- `mapped` parked at a load whose page the tables map now. -/
@[irreducible] def retrying : State := mapped [] (fun fl =>
  { fl with ops := [asked], opSeq := 1, parked := some ⟨asked, 0, false, none, [], []⟩, st := .parked })
theorem reach_resolve : MayResolve retrying 0 ∧
    Retries retrying 0 ⟨asked, 0, false, none, [], []⟩ (retrying.frag 0 0) asked ⟨0, 0x10000, .absent, 0, 0, false, false⟩ page := by
  have hr : Retries retrying 0 ⟨asked, 0, false, none, [], []⟩ (retrying.frag 0 0) asked ⟨0, 0x10000, .absent, 0, 0, false, false⟩ page :=
    ⟨by decide +kernel, by decide +kernel, by decide +kernel, by decide +kernel, ⟨true, by decide +kernel⟩, by decide +kernel⟩
  have hn : ∀ f, f ≠ 0 → repeats retrying f := fun f hf p hp => by
    have hk := (by decide +kernel : retrying.floes.keys = [0])
    unfold State.floe Tab.getD at hp
    cases h : retrying.floes.get? f with
    | none => rw [h] at hp; cases hp
    | some x =>
      have hm : f ∈ retrying.floes.keys := List.mem_map.mpr ⟨_, mem_of_get? h, rfl⟩
      rw [hk] at hm
      exact absurd (by simpa using hm) hf
  refine ⟨⟨fun f _ => ?_, fun f h _ _ nf nh => ?_⟩, hr⟩
  · by_cases hf : f = 0
    · subst hf; exact Or.inr ⟨_, _, _, _, _, hr⟩
    · exact Or.inl (hn f hf)
  · rw [not_not.mp (fun hf => nf (hn f hf)), not_not.mp (fun hh => nh (hn h hh))]
theorem reach_teardown : Calls (managed (record 13 0 0 0)) (record 13 0 0 0) [] 13 0 ∧ (∃ l x, ownLaunch (managed (record 13 0 0 0)) 0 l x) ∧
    ∀ e ∈ (managed (record 13 0 0 0)).launches, (managed (record 13 0 0 0)).launches.get? e.1 = some e.2 :=
  ⟨⟨by decide +kernel, by decide +kernel, by decide +kernel, by decide +kernel⟩,
   ⟨1, (managed (record 13 0 0 0)).launch 1, by unfold ownLaunch; decide +kernel⟩, by decide +kernel⟩
theorem reach_invalidation : Calls (managed (record 1 0 0 0)) (record 1 0 0 0) [] 1 0 :=
  ⟨by decide +kernel, by decide +kernel, by decide +kernel, by decide +kernel⟩
theorem reach_invalidated : CanComplete (managed 0) 0 ⟨0, 0x10000, 0, 0x10000⟩ 0 0 :=
  ⟨by decide +kernel, fun e he _ => by
     obtain ⟨h1, h2, h3⟩ := (by decide +kernel : ∀ e ∈ (managed 0).floes, e.2.ops = [] ∧ e.2.cmds = [] ∧ e.2.parked = none) e he
     exact ⟨h1, h2, fun p hp => absurd (h3.symm.trans hp) (by simp)⟩, fun e he _ x hx => by
     rw [(by decide +kernel : ∀ e ∈ (managed 0).blocks, e.2.streams = []) e he] at hx; simp at hx,
   by decide, by decide, page_reach (off := 0) (by decide +kernel) (by decide), page_reach (off := 8) (by decide +kernel) (by decide), page_reach (off := 16) (by decide +kernel) (by decide)⟩
theorem reach_drive : DriveMayMove (managed 0) 0 5 1 0x10000 (.write [1, 2]) :=
  .write [1, 2] 0 0 ⟨0, 5, 1, 0⟩ ⟨by decide +kernel, by decide +kernel, page_reach (off := 0) (by decide +kernel) (by decide)⟩
/-- `mapped` in service mode, with a user hart that calls service 7 on log 0 with 16 bytes at the page. -/
@[irreducible] def calling (num : W64) : State :=
  { mapped [] id with boot := (mapped [] id).boot + 1, logs := [(0, log)],
                      harts := [(0, { Hart.reset with user := true, x := [(11, 0x10000), (12, 16), (17, num)] })] }
theorem reach_hart_call : HartCalls (calling 14) 0 14 ∧ KernelOnly (.hart 0) 0 14 (.bindQueue (.hart 0)) :=
  ⟨⟨by decide +kernel, by decide +kernel, by decide +kernel⟩, .queue⟩
/-- An invalidation and the four expert controls, which a user hart may not ask for either. -/
theorem reach_hart_controls : HartCalls (calling 1) 0 1 ∧ KernelOnly (.hart 0) (((calling 1).hart 0).x.getD 10 0).toNat 1 (.invalidationRequest (.hart 0)) ∧
    HartCalls (calling 15) 0 15 ∧ KernelOnly (.hart 0) (((calling 15).hart 0).x.getD 10 0).toNat 15 (.expertPowerCap (.hart 0)) ∧
    KernelOnly (.hart 0) 3 15 (.expertIslandOperatingPoint (.hart 0)) :=
  ⟨⟨by decide +kernel, by decide +kernel, by decide +kernel⟩, .invalidate, ⟨by decide +kernel, by decide +kernel, by decide +kernel⟩,
   .cap (Or.inl (by decide +kernel)), .point rfl⟩
theorem reach_hart_append : HartCalls (calling 7) 0 7 ∧ HostAppends (calling 7) ((calling 7).hart 0).asid (((calling 7).hart 0).x.getD 10 0).toNat
    (((calling 7).hart 0).x.getD 11 0).toNat 16 0 log := by
  refine ⟨⟨by decide +kernel, by decide +kernel, by decide +kernel⟩, ⟨by decide +kernel, by decide +kernel, by decide +kernel, 0, 0, ?_, by decide +kernel⟩⟩
  rw [show ((calling 7).hart 0).asid = 0 from by decide +kernel, show (((calling 7).hart 0).x.getD 11 0).toNat = 0x10000 from by decide +kernel]
  exact reach_of (by decide +kernel) (by decide +kernel) (by decide +kernel) (by decide +kernel)

/-! ### Caches, firmware -/

theorem reach_tick : mappedCore base 0 ∧ mappedCore base 383 := by unfold mappedCore; decide +kernel
/-- No fragment waits behind a cohort where none listed waits. -/
theorem nonebehind_of {s : State} (h : s.floes.all (fun e => e.2.frags.all (fun g => g.wait == .none)) = true) (c : Nat) : NoneBehind s c := by
  intro e he _ g hg k hk
  have := List.all_eq_true.mp (List.all_eq_true.mp h e he) g hg
  rw [hk] at this
  exact absurd this (by simp)
theorem reach_ticks_paid : mappedCore base 0 ∧ NoneBehind base 0 := ⟨reach_tick.1, nonebehind_of (by decide +kernel) 0⟩
theorem reach_served : mappedCore ready 0 ∧ paOk (0 * 128) = true ∧ (ready.die (dieOfCore 0)).stack.get? 0 = some line ∧
  Asked ready 0 0 (ready.core 0).ctime :=
  ⟨by unfold mappedCore; decide +kernel, by decide, by decide +kernel, Or.inl ⟨by decide +kernel, rfl⟩⟩
theorem reach_served_load : ∃ o : MemOp, Asked (pending o) 0 0 o.time := ⟨op1 .loads .load (.vec 5) false, Or.inr ⟨_, [], by decide +kernel, rfl⟩⟩
theorem reach_fill : (0 : Nat) < 4 ∧ paOk (5 * 128) = true ∧ AtHome ready 5 ∧ hasRoom ready 0 :=
  ⟨by decide, by decide, home_of (by decide +kernel), by unfold hasRoom; decide +kernel⟩
theorem reach_evicted : (0 : Nat) < 13 ∧ ready.migrations = [] ∧ (ready.die 0).stack.get? 0 = some line ∧ (ready.die 12).stack.get? 0 = none := by
  decide +kernel
theorem reach_ownership : CanMove ready 1 0 0 line :=
  ⟨⟨by decide, by decide, by decide, by unfold hasRoom; decide +kernel⟩, by decide +kernel, by decide +kernel, by decide +kernel, by decide +kernel,
   ⟨rfl, by decide +kernel⟩, Or.inr (by unfold homeByte; decide +kernel), by decide +kernel, unarmed_of (by decide +kernel), by decide⟩
theorem reach_grant : ∀ d : Option Line, d = some 0 ∨ d = none →
    mayInstall (base.updCore 0 (fun k => { k with grants := [⟨0, d, 0, 1, 5, 0⟩] })) 0 ⟨0, d, 0, 1, 5, 0⟩ [] ∧
    leaseStands (base.updCore 0 (fun k => { k with grants := [⟨0, d, 0, 1, 5, 0⟩] })) 0 ⟨0, d, 0, 1, 5, 0⟩ := by
  rintro d (rfl | rfl) <;> unfold mayInstall leaseStands <;> decide +kernel
theorem reach_migration : ∃ s : State, ∃ m ∈ s.migrations, m.src = 2 ∧ m.ptr < 512 ∧ m.src ≠ m.dst ∧ ∀ n ∈ s.migrations, n.src = 2 → n = m :=
  ⟨{ base with migrations := [⟨2, 3, 511⟩] }, ⟨2, 3, 511⟩, by simp⟩
@[irreducible] def armed : State :=
  { State.reset with booted := true, boot := BitVec.ofNat 1024 (2 ^ 208), launches := [(1, { placedLaunch with armed := true, snapSet := [0] })] }
theorem reach_snapshot : CanCopy armed 1 0 :=
  ⟨by decide +kernel, by decide +kernel, by decide +kernel, ⟨fun d hd n x h => absurd h (by
    rw [show (armed.die d).stack = [] from (by decide +kernel : ∀ d < 13, (armed.die d).stack = []) d hd]; simp [Tab.get?]), by decide +kernel⟩⟩
theorem reach_scrub : ready.migrations = [] ∧ (ready.die 0).stack.get? 0 = some line ∧ paOk (7 * 128) = true ∧
  paTier (7 * 128) ≤ 1 := by decide +kernel
@[irreducible] def firnWaiting : State := base.updFloe 0 (fun fl =>
  { fl with parked := some ⟨⟨0, .loads, .load, 4, [], .none, false, 0, false, 0, none⟩, 0, true, none, [], []⟩, st := .parked })
theorem reach_firn : FirnWaits firnWaiting 0 :=
  ⟨⟨⟨⟨0, .loads, .load, 4, [], .none, false, 0, false, 0, none⟩, 0, true, none, [], []⟩, by decide +kernel, by decide +kernel, rfl, rfl⟩, fun g hg => by
    have := (by decide +kernel : firnWaiting.floes.keys = [0])
    unfold State.floe Tab.getD
    cases h : firnWaiting.floes.get? g with
    | none => rfl
    | some x =>
      have hm : g ∈ firnWaiting.floes.keys := List.mem_map.mpr ⟨_, mem_of_get? h, rfl⟩
      rw [this] at hm
      exact absurd (by simpa using hm) hg, by decide +kernel⟩
theorem reach_halt : ∃ s, MayHalt s 0 := ⟨base.updCore 0 (fun k => { k with haltReq := true }), by decide +kernel, by decide +kernel⟩
@[irreducible] def haltedCore : State := base.updCore 0 (fun k => { k with halted := true })
theorem reach_save : MaySave haltedCore 0 1 where
  halted := by decide +kernel
  drain := by decide +kernel
  floes := fun f fl h _ =>
    (by decide +kernel : ∀ e ∈ haltedCore.floes, e.2.fence = none ∧ e.2.rels = [] ∧ e.2.ops = [] ∧ e.2.cmds = [] ∧ e.2.due = []) _ (mem_of_get? h)
  blocks := ⟨⟨0, haltedCore.block 0, by decide +kernel, rfl⟩, fun b x h _ =>
    (by decide +kernel : ∀ e ∈ haltedCore.blocks, e.2.launch = 1 ∧ e.2.streams = []) _ (mem_of_get? h)⟩
/-- An image of the placed block. -/
@[irreducible] def image : CoreImage := ⟨1, 0, 0, base.core 0, base.blocks, base.floes⟩
@[irreducible] def restoring : State := { State.reset with booted := true, launches := base.launches, images := [image], restores := [1] }
theorem reach_restore : MayRestore restoring 1 image where
  asked := by decide +kernel
  only := by decide +kernel
  free := ⟨by decide +kernel, fun b x h => absurd h (by rw [show restoring.blocks = [] from by decide +kernel]; simp [Tab.get?]),
    fun b x _ => by rw [show restoring.blocks = [] from by decide +kernel]; rfl⟩
  tick := by unfold mayTick; decide +kernel
  calm := fun f fl h => by
    have := (by decide +kernel : ∀ e ∈ image.floes, e.2.parked = none ∧ e.2.st ≠ .parked ∧ e.2.due = [] ∧
      ∀ g ∈ e.2.frags, g.wait = .none) _ (mem_of_get? h)
    exact ⟨this.1, this.2.1, this.2.2.1, fun g hg k hk => absurd ((this.2.2.2 g hg).symm.trans hk) (by simp)⟩
  home := by decide +kernel
  keys := by decide +kernel
  here := by decide +kernel
@[irreducible] def undoing (p : LaunchPhase) : State :=
  { mapped [] id with floes := [], blocks := [], launches := [(1, { placedLaunch with phase := p, desc := placedLaunch.desc + 0x10000 })] }
/-- `undoing`, with a copy of frame 9 in the pool. -/
@[irreducible] def undone_ : State := { undoing .rolledBack with snapshots := [⟨1, 9, [(0, 5)], []⟩] }
theorem reach_rollback : ∃ x, MayRollBack undone_ 1 x :=
  ⟨undone_.launch 1, ⟨by decide +kernel, ⟨fun b y h => absurd h (by
    rw [show undone_.blocks = [] from by decide +kernel]; simp [Tab.get?]), by decide +kernel⟩, by decide +kernel, by decide +kernel,
    fun c _ _ d hd n y h => absurd h (by
      rw [show (undone_.die d).stack = [] from (by decide +kernel : ∀ d < 13, (undone_.die d).stack = []) d hd]; simp [Tab.get?]),
    by decide +kernel, by decide +kernel⟩⟩
theorem reach_replay : ∃ x r, MayReplay (undoing .toReplay) 1 x r :=
  ⟨(undoing .toReplay).launch 1, ⟨fun _ => 0, fun _ => 0, fun _ => 0⟩, by decide +kernel, ⟨by decide +kernel, 0, by unfold usable; decide +kernel⟩,
   ⟨by decide, by decide +kernel, by decide +kernel, by decide +kernel⟩, fun h => absurd h (by decide +kernel),
   holdsRun_of (by decide +kernel), holdsRun_of (by decide +kernel), holdsRun_of (by decide +kernel)⟩
@[irreducible] def linked1 : State := { base with launches := [(1, { placedLaunch with replay := true })] }
theorem reach_link : mayLoseLink linked1 0 ∧ linked1.launchesOn 0 = [1] := by
  have h : linked1.launchesOn 0 = [1] := by decide +kernel
  refine ⟨⟨by decide, by decide +kernel, fun l hl => ⟨linked1.launch 1, ?_⟩⟩, h⟩
  rw [h, List.mem_singleton] at hl
  subst hl
  decide +kernel
theorem reach_link_unmapped : mayUnmapDie { State.reset with dies := [(3, { Die.reset with inLink := false })] } 3 :=
  ⟨by decide, rfl, by decide +kernel, fun l x h => absurd h (by simp [State.reset, Tab.get?])⟩
/-- Frame 3 in the free pool, frame 4 condemned, events waiting. -/
@[irreducible] def retiring (n : Nat) : State :=
  { base with freePool := [3], condemned := [(4, 2)], evBacklog := [0], retiring := if n = 0 then [] else [⟨2, 3, 6, n⟩] }
theorem reach_frame : MayStep (retiring 0) 2 3 6 ∧ MayStep (retiring 0) 4 3 2 :=
  ⟨.begin ⟨Or.inl rfl, by decide +kernel, by unfold plainFrame; decide +kernel, ⟨by
    rw [show (retiring 0).moraine = [] from by decide +kernel]; simp, by decide +kernel⟩, by decide +kernel⟩,
   .begin ⟨Or.inr (by decide +kernel), by decide +kernel, by unfold plainFrame; decide +kernel, ⟨by
    rw [show (retiring 0).moraine = [] from by decide +kernel]; simp, by decide +kernel⟩, by decide +kernel⟩⟩
theorem reach_frame_ask : MayStep (retiring 1) 2 3 6 :=
  .ask ⟨2, 3, 6, 1⟩ (by unfold atStage; decide +kernel) (by unfold hasMoved; decide +kernel) (by unfold eventsWait; decide +kernel)
theorem reach_frame_append : MayStep (retiring 3) 2 3 6 := by
  have h : (retiring 3).retiring = [⟨2, 3, 6, 3⟩] := by decide +kernel
  refine .append ⟨2, 3, 6, 3⟩ 1 (by unfold atStage; decide +kernel) ⟨by decide, by decide, fun j hj => ?_, Or.inl ?_⟩
  · obtain rfl : j = 0 := by omega
    exact ⟨⟨2, 3, 6, 3⟩, by rw [h]; simp, rfl, rfl, rfl⟩
  · rintro ⟨x, hx, he, -⟩
    rw [h, List.mem_singleton] at hx
    subst hx
    exact absurd he (by decide)
theorem reach_frame_copy : MayStep (retiring 4) 2 3 6 := .copy ⟨2, 3, 6, 4⟩ (by unfold atStage; decide +kernel)
theorem reach_frame_finish : MayStep (retiring 5) 2 3 6 := .finish ⟨2, 3, 6, 5⟩ (by unfold atStage; decide +kernel) fun d hd n y h => absurd h (by
  rw [show ((retiring 5).die d).stack = [] from (by decide +kernel : ∀ d < 13, ((retiring 5).die d).stack = []) d hd]; simp [Tab.get?])
@[irreducible] def leaving : State :=
  { State.reset with booted := true, leaving := [(0, 4)], evBacklog := [0], counts :=
    [(0, List.replicate 8 0), (1, [0, 0]), (3, [0])], replans := [3] }
theorem reach_cluster : MayUnmap leaving 0 4 :=
  ⟨by decide +kernel, ⟨by decide +kernel, fun l x h => absurd h (by rw [show leaving.launches = [] from by decide +kernel]; simp [Tab.get?])⟩,
   by decide +kernel, by unfold eventsWait; decide +kernel⟩
theorem reach_threshold : ∀ row, row = 0 ∨ row = 1 ∨ row = 3 → countReached leaving 0 row ∧ leaving.launchesOn (dieOfCore 0) = [] ∧
    0 % 96 / 8 < (leaving.die (dieOfCore 0)).map.length ∧ (dieOfCore 0, 0 % 96 / 8) ∉ leaving.leaving ∧
    (leaving.die (dieOfCore 0)).map.getD (0 % 96 / 8) 0 < 12 := by
  rintro row (rfl | rfl | rfl) <;> refine ⟨⟨by decide, [], 0, ?_⟩, by decide +kernel⟩
  exacts [⟨List.replicate 7 0, by decide +kernel⟩, ⟨[0], by decide +kernel⟩, ⟨[], by decide +kernel⟩]
theorem reach_oscillator : (31 : Nat) < 32 ∧ (List.replicate 32 7).length = 32 ∧
  (islandNo leaving 31).off = false := by unfold islandNo; decide +kernel
/-- One path is short of its margin, then none. -/
def margins : List Nat := 24 :: List.replicate 31 25
theorem swept_canaries (i : Nat) (h : i = 3 ∨ i = 24) : CanarySwept leaving i margins 1 := by
  rcases h with rfl | rfl <;> exact ⟨by unfold islandNo; decide +kernel, by unfold pathsAfter; decide +kernel, by unfold pathsAfter; decide +kernel,
    by unfold islandNo; decide +kernel⟩
theorem reach_replan : (∃ cl < (leaving.die (3 / 6)).map.length, (leaving.die (3 / 6)).map.getD cl 0 / 2 = 3 % 6) ∧
    (∀ e ∈ leaving.blocks, leaving.islandOf (coreOf e.1) ≠ 3) ∧ CanarySwept leaving 3 margins 1 :=
  ⟨⟨6, by decide +kernel⟩, by decide +kernel, swept_canaries 3 (Or.inl rfl)⟩
theorem reach_uncore : 24 ≤ 24 ∧ 24 < 32 ∧ CanarySwept leaving 24 margins 1 := ⟨by decide, by decide, swept_canaries 24 (Or.inr rfl)⟩
/-- `leaving` with islands 3 and 24 fixed by control 3. -/
@[irreducible] def fixing : State := { leaving with islands := [(3, { Island.reset with fixed := some 5 }), (24, { Island.reset with fixed := some 5 })] }
theorem reach_fixed : (∃ cl < (fixing.die (3 / 6)).map.length, (fixing.die (3 / 6)).map.getD cl 0 / 2 = 3 % 6) ∧ emptyIsland fixing 3 ∧
    (islandNo fixing 3).fixed ≠ none ∧ (islandNo fixing 24).fixed ≠ none ∧ 16 ≤ margins.length :=
  ⟨⟨6, by decide +kernel⟩, by unfold emptyIsland; decide +kernel, by unfold islandNo; decide +kernel, by unfold islandNo; decide +kernel, by decide⟩
theorem reach_missed : 3 ∈ leaving.replans ∧ 3 < 24 ∧ eventsWait leaving := by unfold eventsWait; decide +kernel
theorem reach_upkeep : leaving.spare.getD 7 0 ≤ 9 ∧ (islandNo leaving 23).off = false := by unfold islandNo; decide +kernel
/-- A launch on dies 0 and 1 with a MAXU32 line on both. -/
def exchanging : Launch := { placedLaunch with drift := 0x3C, dies := [0, 1], replicas := [(5, cells), (2 ^ 46 + 5, cells)] }
@[irreducible] def drifting : State := { base with launches := [(1, exchanging)] }
theorem reach_exchange : TwoReplicas drifting 1 0 1 5 cells cells exchanging :=
  ⟨Or.inl ⟨0, drifting.block 0, by decide +kernel, by decide +kernel⟩, ⟨rfl, rfl⟩, by decide +kernel, by decide, by decide +kernel, by decide⟩

/-! ### Words, steps and the invariant -/

theorem reach_round_trip : (Instr.iaddR 0 3 2 1).wf = true ∧ 0 < (Instr.iaddR 0 3 2 1).halfwords ∧ ofMatrix (.iaddR 0 3 2 1) = false ∧
    ofHost (.iaddR 0 3 2 1) = false ∧ (Instr.mzero 15 8).wf = true ∧ ofMatrix (.mzero 15 8) = true ∧ ofHost .kuiret = true := by decide
/-- A word that does not decode, where a turn finds it. -/
@[irreducible] def trapping : State := State.reset.withFetchWord 32 0x0000004D
theorem reach_rejected_turn : NextTurn trapping (.issue 0 0) [] ∧ MayIssue (awake trapping []) 0 0 ∧ Landed ((awake trapping []).core 0) 0 2 ∧
    ((awake trapping []).core 0).halfword 0 % 2 = 1 ∧ decode32 (wordAt32 ((awake trapping []).core 0) 0) = .error 2 :=
  ⟨⟨by decide +kernel, by decide +kernel, by decide +kernel⟩,
   ⟨boundary_of (fl := (awake trapping []).floe 0) (g := (awake trapping []).frag 0 0) (by decide +kernel) (by decide +kernel) (by decide +kernel)
      (by decide +kernel) (by decide +kernel) (by decide +kernel) (by decide +kernel),
    by decide +kernel, by decide +kernel, by decide +kernel, by decide +kernel⟩,
   ⟨by decide +kernel, by decide +kernel, by decide +kernel⟩, by decide +kernel, by decide +kernel⟩
theorem reach_event_turn : NextTurn { base with agenda := [.event (.ctimeTick 0)] } (.event (.ctimeTick 0)) [] ∧ (Instr.ctimeTick 0).halfwords = 0 :=
  ⟨⟨by decide +kernel, by decide +kernel, by decide +kernel⟩, by decide⟩
theorem reach_invariant : issuing.Inv ∧ (sees (step issuing) (fun t => t.mem)).isSome = true := by
  unfold State.Inv; decide +kernel

end Sys2Proof.Tests
end

/-! # Sparse tables: entries mapped and left out -/
namespace Sys2Proof.Tab

theorem get?_map_some {α β : Type} {t : Tab α} {f : α → β} {k : Nat} {y : β}
    (h : get? (t.map (fun e => (e.1, f e.2))) k = some y) : ∃ x, y = f x := by
  induction t with
  | nil => cases h
  | cons e t ih =>
    simp only [List.map_cons, get?] at h
    split at h
    · exact ⟨e.2, (Option.some.inj h).symm⟩
    · exact ih h

/-- Entries left out by their keys read as absent. -/
theorem getD_filter_key {α : Type} (t : Tab α) (p : Nat → Bool) (k : Nat) (d : α) :
    getD (t.filter (fun e => p e.1)) k d = if p k then t.getD k d else d := by
  induction t with
  | nil => simp [getD, get?]
  | cons e t ih =>
    simp only [getD] at ih ⊢
    by_cases hp : p e.1 <;> by_cases hk : e.1 = k
    · subst hk; simp [hp, get?]
    · simp [hp, get?, hk, ih]
    · subst hk; simpa [hp] using ih
    · simp [hp, get?, hk, ih]

end Sys2Proof.Tab

/-! # Numbers held in bytes, lowest byte first (R4) -/
namespace Sys2Proof.Machine

theorem pow_256_eq (n : Nat) : 256 ^ n = 2 ^ (8 * n) := by rw [pow_mul]; norm_num

theorem ofBytes_lt (bs : List Byte) : ofBytes bs < 256 ^ bs.length := by
  induction bs with
  | nil => simp [ofBytes]
  | cons b t ih =>
    have := b.isLt
    simp only [ofBytes, List.length_cons, pow_succ]
    omega

/-- Byte k of the number that a list of bytes holds. -/
theorem ofBytes_digit (bs : List Byte) : ∀ k, ofBytes bs / 256 ^ k % 256 = ((bs[k]?).getD 0).toNat := by
  induction bs with
  | nil => intro k; simp [ofBytes]
  | cons b t ih =>
    intro k
    have := b.isLt
    cases k with
    | zero => simpa [ofBytes] using this
    | succ k =>
      have hb : (b.toNat + 256 * ofBytes t) / 256 = ofBytes t := by omega
      rw [ofBytes, pow_succ', ← Nat.div_div_eq_div_mul, hb, ih k, List.getElem?_cons_succ]

theorem Line.byte_toNat (x : Line) (i : Nat) : (Line.byte x i).toNat = x.toNat / 256 ^ i % 256 := by
  rw [Line.byte, BitVec.extractLsb'_toNat, Nat.shiftRight_eq_div_pow, pow_256_eq]

/-- A word as wide as a list of bytes holds their number. -/
theorem toNat_ofNat_ofBytes {w : Nat} (bs : List Byte) (hw : 8 * bs.length = w) : (BitVec.ofNat w (ofBytes bs)).toNat = ofBytes bs := by
  subst hw
  rw [BitVec.toNat_ofNat, ← pow_256_eq, Nat.mod_eq_of_lt (ofBytes_lt bs)]

/-- A line laid out from 128 bytes has those bytes. -/
theorem Line.byte_ofBytes (bs : List Byte) (hl : bs.length = 128) (i : Nat) :
    Line.byte (BitVec.ofNat 1024 (ofBytes bs)) i = (bs[i]?).getD 0 := by
  apply BitVec.eq_of_toNat_eq
  rw [Line.byte_toNat, toNat_ofNat_ofBytes bs (by rw [hl]), ofBytes_digit]

/-- The low n bytes of a number have its digits. -/
theorem ofNat_digit_mod {n k : Nat} (v : Nat) (hk : k < n) :
    BitVec.ofNat 8 (v % 256 ^ n / 256 ^ k) = BitVec.ofNat 8 (v / 256 ^ k) := by
  apply BitVec.eq_of_toNat_eq
  obtain ⟨j, rfl⟩ := Nat.exists_eq_add_of_lt hk
  rw [BitVec.toNat_ofNat, BitVec.toNat_ofNat, Nat.add_assoc, pow_add, Nat.mod_mul_right_div_self, pow_succ,
    Nat.mod_mod_of_dvd _ (Dvd.intro_left _ rfl : (2 : Nat) ^ 8 ∣ 256 ^ j * 256)]

end Sys2Proof.Machine

/-! # A line that stands in memory alone, as every agent of the package reads it (R205, R215, R226, R277) -/
namespace Sys2Proof.Claims
open Sys2Proof.Machine

theorem memNumber_eq_ofBytes (s : State) (n : Nat) : ∀ pa, memNumber s pa n = ofBytes ((upTo n).map (fun i => s.memByte (pa + i))) := by
  induction n with
  | zero => intro pa; rfl
  | succ n ih =>
    intro pa
    simp only [memNumber, ih, upTo, List.range_succ_eq_map, List.map_cons, List.map_map, ofBytes, Nat.add_zero]
    congr 4
    funext i
    exact congrArg s.memByte (by simp only [Nat.succ_eq_add_one]; omega)

theorem memNumber_lt (s : State) (pa n : Nat) : memNumber s pa n < 256 ^ n := by
  have := ofBytes_lt ((upTo n).map (fun i => s.memByte (pa + i)))
  rw [← memNumber_eq_ofBytes] at this
  simpa [upTo] using this

theorem lineHome_still {s : State} (h : s.migrations = []) (ln : Nat) : s.lineHome ln = ln := by
  rw [State.lineHome, redirect_still h]; omega

/-- The key slot of a line in memory stands for itself (R215). -/
theorem memKey_memKey (s : State) (ln : Nat) : s.memKey ln (s.memKey ln 0) = s.memKey ln 0 := by
  simp only [State.memKey, Tab.getD]
  cases s.memKeys.get? (s.lineHome ln) <;> rfl

theorem byte_memLine (s : State) (ln : Nat) {i : Nat} (hi : i < 128) : Line.byte (s.memLine ln) i = s.memByte (ln * 128 + i) := by
  rw [State.memLine, Line.byte_ofBytes _ (by simp [upTo])]
  simp [upTo, hi]

theorem bytes_memLine (s : State) {pa n : Nat} (h : pa % 128 + n ≤ 128) :
    Line.bytes (s.memLine (pa / 128)) (pa % 128) n = (upTo n).map (fun i => s.memByte (pa + i)) := by
  refine List.map_congr_left (fun i hi => ?_)
  have hi : i < n := by simpa [upTo] using hi
  rw [byte_memLine s _ (by omega)]
  exact congrArg s.memByte (by omega)

section
variable {s : State} {ln : Nat}

theorem AtHome.ownerOf (h : AtHome s ln) : s.ownerOf ln = none := by
  refine List.find?_eq_none.2 (fun d hd => ?_)
  have hd : d < 13 := by simpa [upTo] using hd
  simp [h.alone d hd]

theorem AtHome.ownedLine (h : AtHome s ln) : s.ownedLine ln = none := by
  simp [State.ownedLine, h.ownerOf, State.aliasOf, h.still]

theorem AtHome.memPoison (h : AtHome s ln) : s.memPoison ln = 0 := by
  unfold State.memPoison
  rw [foldl_id]
  · rfl
  · intro i hi
    have hi : i < 32 := by simpa [upTo] using hi
    rw [lineHome_still h.still, if_neg (h.clean i hi)]

theorem AtHome.peekPoison (h : AtHome s ln) : s.peekPoison ln = 0 := by
  rw [State.peekPoison, h.ownedLine]
  exact h.memPoison

/-- A line under its own key slot reads as its bytes (R215), and no log hides them (R205). -/
theorem AtHome.memLineAs (h : AtHome s ln) : s.memLineAs ln (s.memKey ln 0) = s.memLine ln := by
  have hlog : s.logs.any (fun e => e.2.pa < ln * 128 + 128 && ln * 128 < e.2.pa + e.2.len) = false := by
    refine List.any_eq_false.2 (fun g hg => ?_)
    have := h.unlogged g hg
    simp only [Bool.and_eq_true, decide_eq_true_eq]
    omega
  unfold State.memLineAs
  rw [memKey_memKey, hlog]
  simp [rekey]

end

theorem peek_atHome {s : State} {pa n : Nat} (h : AtHome s (pa / 128)) (hn : pa % 128 + n ≤ 128) : s.peek pa n = memNumber s pa n := by
  rw [memNumber_eq_ofBytes, State.peek]
  refine congrArg ofBytes (List.map_congr_left (fun i hi => ?_))
  have hi : i < n := by simpa [upTo] using hi
  have hln : (pa + i) / 128 = pa / 128 := by omega
  rw [State.peekByte, hln, h.ownedLine]

theorem hostKey_atHome {s : State} {pa : Nat} (h : AtHome s (pa / 128)) : s.hostKey pa = s.memKey (pa / 128) 0 := by
  rw [State.hostKey, h.ownedLine]

end Sys2Proof.Claims

/-! # A host cluster's lines of the host die's shared cache: what a read brings in and a write leaves (R12, R222, R223, R226, R227) -/
namespace Sys2Proof.Claims
open Sys2Proof.Machine

/-- Of the whole package, only one agent's copy of one line, its stack time and the directory have changed. -/
structure OnlyCopy (s : State) (a ln : Nat) (t : State) : Prop where
  rest  : t = { s with dies := t.dies, dir := t.dir }
  dies  : ∀ k, k ≠ a → t.dies.get? k = s.dies.get? k
  die   : t.die a = { s.die a with stack := (t.die a).stack, stime := (t.die a).stime }
  lines : ∀ n, n ≠ ln → (t.die a).stack.get? n = (s.die a).stack.get? n

/-- Only that, and the line stands there as given. -/
def HoldsNow (s : State) (a ln : Nat) (y : StackLine) (t : State) : Prop := OnlyCopy s a ln t ∧ (t.die a).stack.get? ln = some y

section
variable {s t u : State} {a ln : Nat}

theorem OnlyCopy.refl (s : State) (a ln : Nat) : OnlyCopy s a ln s := ⟨rfl, fun _ _ => rfl, rfl, fun _ _ => rfl⟩

theorem OnlyCopy.trans (h : OnlyCopy s a ln t) (g : OnlyCopy t a ln u) : OnlyCopy s a ln u where
  rest := by rw [g.rest, h.rest]
  dies k hk := (g.dies k hk).trans (h.dies k hk)
  die := by rw [g.die, h.die]
  lines n hn := (g.lines n hn).trans (h.lines n hn)

theorem OnlyCopy.launches (h : OnlyCopy s a ln t) : t.launches = s.launches := by rw [h.rest]
theorem OnlyCopy.harts (h : OnlyCopy s a ln t) : t.harts = s.harts := by rw [h.rest]

theorem OnlyCopy.accesses (h : OnlyCopy s a ln t) (l : Launch) (n : Nat) : t.accesses l n = s.accesses l n := by rw [h.rest]; rfl
theorem OnlyCopy.launch (h : OnlyCopy s a ln t) (l : Nat) : t.launch l = s.launch l := by rw [h.rest]; rfl

theorem OnlyCopy.die_ne (h : OnlyCopy s a ln t) {k : Nat} (hk : k ≠ a) : t.die k = s.die k := by
  rw [State.die, Tab.getD, h.dies k hk]; rfl

/-- A change of an agent's copy of a line, of its time and of the directory. -/
theorem holdsNow_put (s : State) (a ln : Nat) (y : StackLine) (w : BitVec 16) (D : Tab DirEntry) :
    HoldsNow s a ln y { s.updDie a (fun e => { e with stack := e.stack.put ln y, stime := w }) with dir := D } := by
  have hd : State.die { s.updDie a (fun e => { e with stack := e.stack.put ln y, stime := w }) with dir := D } a =
    { s.die a with stack := (s.die a).stack.put ln y, stime := w } := Tab.getD_put_self _ _ _ _
  refine ⟨⟨rfl, fun k hk => Tab.get?_put_ne _ _ hk, by rw [hd], fun n hn => ?_⟩, ?_⟩
  · rw [hd]; exact Tab.get?_put_ne _ _ hn
  · rw [hd]; exact Tab.get?_put_self _ _ _

/-- A change of a copy without one of the agent's time. -/
theorem holdsNow_putLine (s : State) (a ln : Nat) (y : StackLine) (D : Tab DirEntry) :
    HoldsNow s a ln y { s.updDie a (fun e => { e with stack := e.stack.put ln y }) with dir := D } :=
  holdsNow_put s a ln y (s.die a).stime D

/-! ## Reading a line in -/

/-- A cluster that has room gives up no line (R12). -/
theorem makeRoom_room (ha : 4 ≤ a) (h : clusterRoom s a) : s.makeRoom a = s := by
  have hl : s.linesFor a = 1048576 - (((List.range 8).filter (fun i => 4 + i ≠ a)).map (fun i => (s.die (4 + i)).stack.length)).sum := by
    rw [State.linesFor, if_neg (by omega), List.sum_eq_foldl, List.foldl_map]; rfl
  unfold clusterRoom at h
  unfold State.makeRoom
  split
  · rw [if_neg]
    simp only [Bool.and_eq_true, decide_eq_true_eq]
    omega
  · rename_i e r he
    rw [he, List.length_cons] at h
    rw [if_pos (by omega)]

theorem stackDisown_absent {d : Nat} (h : (s.die d).stack.get? ln = none) : s.stackDisown d ln = s := by
  simp [State.stackDisown, State.stackFlush, h]

/-- A line of memory as a cluster's copy of it: neither owned nor dirty (R223). -/
def homeLine (s : State) (a ln : Nat) : StackLine :=
  { data := s.memLine ln, wts := (s.die a).stime + 1, rts := (s.die a).stime + 1, owned := false, dirty := false, poison := 0
    key := s.memKey ln 0 }

/-- A line that stands in memory alone enters a cluster as its bytes (R215, R223). -/
theorem stackFill_atHome (h : AtHome s ln) (ha : 4 ≤ a) (hr : clusterRoom s a) (h13 : a < 13) :
    HoldsNow s a ln (homeLine s a ln) (s.stackFill a ln (s.memKey ln 0)) := by
  have hnone : (s.die a).stack.get? ln = none := h.alone a h13
  have hfold : (upTo 13).foldl (fun s d => if d = a then s else s.stackDisown d ln) ((s.makeRoom a).dropAlias ln) = s := by
    rw [makeRoom_room ha hr, dropAlias_still h.still]
    refine foldl_id _ _ _ (fun d hd => ?_)
    have hd : d < 13 := by simpa [upTo] using hd
    rw [stackDisown_absent (h.alone d hd), ite_self]
  unfold State.stackFill
  simp only [hnone, hfold, memKey_memKey, h.memLineAs, h.memPoison]
  exact holdsNow_put s a ln (homeLine s a ln) _ _

/-- Bytes of one line are one piece. -/
theorem linePieces_one {pa n : Nat} (h0 : 0 < n) (hn : pa % 128 + n ≤ 128) : linePieces pa n = [(pa / 128, pa % 128, 0, n)] := by
  have hmem : ∀ r, r ∈ linesOf pa n ↔ r = pa / 128 := fun r => by
    simp only [linesOf, upTo, mem_dedupe, List.mem_map, List.mem_range]
    exact ⟨fun ⟨i, hi, hr⟩ => by omega, fun hr => ⟨0, h0, by omega⟩⟩
  have hl : linesOf pa n = [pa / 128] :=
    List.perm_singleton.1 ((List.perm_ext_iff_of_nodup (nodup_dedupe _) (List.nodup_singleton _)).2
      (fun r => (hmem r).trans List.mem_singleton.symm))
  have hlo : Nat.max pa (pa / 128 * 128) = pa := Nat.max_eq_left (by omega)
  have hhi : Nat.min (pa + n) (pa / 128 * 128 + 128) = pa + n := Nat.min_eq_left (by omega)
  simp [linePieces, hl, hlo, hhi]

/-! ## Writing a line -/

/-- An agent alone reaches a line at its bank under a key slot, as a copy x; no snapshot and no launch's region stands in the
way of a write. -/
structure AtBank (s : State) (a ln key : Nat) (x : StackLine) : Prop where
  alone   : ∀ d < 13, d ≠ a → (s.die d).stack.get? ln = none
  unarmed : ∀ l, (s.launch l).armed = false
  plain   : ∀ l ∈ s.launches, s.accesses l.2 ln = false
  slot    : x.key = key
  filled  : HoldsNow s a ln x (s.stackFill a ln key)

/-- A cluster with room reaches a line that stands in memory alone. -/
theorem AtHome.atBank (h : AtHome s ln) (ha : 4 ≤ a) (hr : clusterRoom s a) (h13 : a < 13) :
    AtBank s a ln (s.memKey ln 0) (homeLine s a ln) :=
  ⟨fun d hd _ => h.alone d hd, h.unarmed, h.plain, rfl, stackFill_atHome h ha hr h13⟩

/-- It reaches the line again once it has read it in. -/
theorem HoldsNow.atBank {x : StackLine} (hu : HoldsNow s a ln x u) (h : AtHome s ln) : AtBank u a ln x.key (clampLine u a x) := by
  obtain ⟨ho, hx⟩ := hu
  refine ⟨fun d hd hne => ?_, fun l => ?_, fun l hl => ?_, by rw [clampLine], ?_⟩
  · rw [ho.die_ne hne]; exact h.alone d hd
  · rw [ho.launch]; exact h.unarmed l
  · rw [ho.accesses]; exact h.plain l (ho.launches ▸ hl)
  · rw [stackFill_here hx]
    exact holdsNow_putLine u a ln _ u.dir

/-- A write at the bank leaves the line owned and dirty, with the bytes written (R222, R227). -/
theorem AtBank.stackWrite {key : Nat} {x : StackLine} (h : AtBank s a ln key x) (T : BitVec 16) (again : Bool) (off : Nat)
    (bs : List Byte) (k p : BitVec 32) (hn : off + bs.length ≤ 128) :
    ∃ y, HoldsNow s a ln y (s.stackWrite a ln key T again off bs k p) ∧ y.owned = true ∧ y.dirty = true ∧
      y.data = Line.setBytes x.data off bs ∧ y.poison = (x.poison &&& ~~~k) ||| p := by
  obtain ⟨hd, hu, hp, hk, hf, hx⟩ := h
  have hown : HoldsNow s a ln { x with owned := true } (s.stackOwn a ln key) := by
    unfold State.stackOwn
    rw [guardWrite_unarmed hu, probeOthers_alone hd]
    subst hk
    simp only [State.stackLine, hx, Option.getD_some, StackLine.under, rekey, if_true]
    obtain ⟨h1, h2⟩ := holdsNow_putLine (s.stackFill a ln x.key) a ln { x with owned := true } _
    exact ⟨hf.trans h1, h2⟩
  obtain ⟨ho, hy⟩ := hown
  unfold State.stackWrite
  rw [soil_clean (fun l hl => (ho.accesses _ _).trans (hp l (ho.launches ▸ hl))) hn]
  simp only [State.stackLine, hy, Option.getD_some]
  obtain ⟨h1, h2⟩ := holdsNow_put (s.stackOwn a ln key) a ln { x with
    owned := true, data := Line.setBytes x.data off bs, wts := if again then x.wts else laterOf x.rts T + 1,
    rts := if again then x.rts else (if again then x.wts else laterOf x.rts T + 1), dirty := true, poison := (x.poison &&& ~~~k) ||| p } _ _
  exact ⟨_, ⟨ho.trans h1, h2⟩, rfl, rfl, rfl, rfl⟩

end

end Sys2Proof.Claims

/-! # A host hart's own state -/
namespace Sys2Proof.Machine

@[simp] theorem State.updHart_hart_self (s : State) (h : Nat) (g : Hart → Hart) : (s.updHart h g).hart h = g (s.hart h) :=
  Tab.getD_put_self _ _ _ _

theorem Hart.setX_x (x : Hart) (d r : Nat) (v : W64) : (x.setX d v).x.getD r 0 = if r = d ∧ d ≠ 0 then v else x.x.getD r 0 := by
  unfold Hart.setX
  by_cases hd : d = 0
  · simp [hd]
  · simp [hd, Tab.getD_set]

end Sys2Proof.Machine

/-! # A host hart's reads and writes of memory through its cluster's lines (R226, R228), and what its instruction leaves -/
namespace Sys2Proof.Claims
open Sys2Proof.Machine

theorem updHart_now (s : State) (h : Nat) (g : Hart → Hart) : HartNow s h (g (s.hart h)) (s.updHart h g) where
  rest := rfl
  hart := State.updHart_hart_self s h g
  others _ hk := Tab.get?_put_ne _ _ hk

/-- An instruction that ends in a state with the harts as they were leaves its own hart behind the word and its register written. -/
theorem hartDone_done {s u : State} (hh : u.harts = s.harts) (h d : Nat) (v : W64) : HartDone s h d v (u.hartDone h d v) := by
  have hu : u.hart h = s.hart h := by rw [State.hart, hh]; rfl
  have ht : (u.hartDone h d v).hart h = { (s.hart h).setX d v with pc := (s.hart h).pc + 4 } := by
    rw [← hu]; exact State.updHart_hart_self u h _
  refine ⟨?_, fun r => ?_, fun g hg => ?_⟩
  · rw [ht]; unfold Hart.setX; split <;> rfl
  · rw [ht]; exact Hart.setX_x _ _ _ _
  · exact (Tab.get?_put_ne _ _ hg).trans (by rw [hh])

theorem clusterOf_bounds {h : Nat} (hh : h < 64) : 4 ≤ clusterOf h ∧ clusterOf h < 13 := by unfold clusterOf; omega

section
variable {s t u : State} {h pa n : Nat}

theorem OnlyCopy.hartFilled {ln : Nat} (hu : OnlyCopy s (clusterOf h) ln u) (d : Nat) (v : W64) : HartFilled s h ln (u.hartDone h d v) where
  rest := by
    obtain ⟨ds, dr, rfl⟩ : ∃ ds dr, u = { s with dies := ds, dir := dr } := ⟨_, _, hu.rest⟩
    rfl
  dies := hu.dies
  die := hu.die
  lines := hu.lines

theorem OnlyCopy.hartRest {ln a : Nat} (hu : OnlyCopy s a ln u) (d : Nat) (v : W64) :
    u.hartDone h d v = { s with harts := (u.hartDone h d v).harts, dies := (u.hartDone h d v).dies, dir := (u.hartDone h d v).dir } := by
  obtain ⟨ds, dr, rfl⟩ : ∃ ds dr, u = { s with dies := ds, dir := dr } := ⟨_, _, hu.rest⟩
  rfl

/-- What a hart reads of a line in memory (R226): its bytes, none poisoned, and the line in its cluster. -/
theorem hostRead_reaches (hr : HartReaches s h pa n) :
    ∃ u, s.hostRead h pa n = ((upTo n).map (fun i => s.memByte (pa + i)), false, u) ∧
      HoldsNow s (clusterOf h) (pa / 128) (homeLine s (clusterOf h) (pa / 128)) u := by
  obtain ⟨h4, h13⟩ := clusterOf_bounds hr.hart
  obtain ⟨h0, hn⟩ := hr.inLine
  obtain ⟨ho, hx⟩ := stackFill_atHome hr.home h4 hr.room h13
  refine ⟨_, ?_, ho, hx⟩
  unfold State.hostRead State.hostFetch
  rw [linePieces_one h0 hn, hostKey_atHome hr.home, ← bytes_memLine s hn]
  simp only [List.foldl_cons, List.foldl_nil, show hostAgent h = clusterOf h from rfl, State.stackLine, hx, Option.getD_some]
  simp [homeLine, StackLine.under, rekey]

/-- A hart's write of n bytes of a line that its cluster reaches with memory's bytes (R222, R227, R228). -/
theorem hostWrite_atBank {key : Nat} {x : StackLine} (hn : 0 < n ∧ pa % 128 + n ≤ 128) (hb : AtBank u (clusterOf h) (pa / 128) key x)
    (hx : x.data = s.memLine (pa / 128)) (hc : x.poison = 0) (hs : OnlyCopy s (clusterOf h) (pa / 128) u) (value d : Nat) (v : W64) :
    OnlyCopy s (clusterOf h) (pa / 128) (u.hostWrite (hostAgent h) pa (toBytes n value) key) ∧
      WrittenIn s h pa n value ((u.hostWrite (hostAgent h) pa (toBytes n value) key).hartDone h d v) := by
  obtain ⟨h0, hn⟩ := hn
  have hbs : ((toBytes n value).drop 0).take n = toBytes n value := by
    rw [List.drop_zero, List.take_of_length_le (by rw [toBytes_length])]
  have hw : u.hostWrite (hostAgent h) pa (toBytes n value) key =
      u.stackWrite (clusterOf h) (pa / 128) key (u.die (clusterOf h)).stime false (pa % 128) (toBytes n value)
        (wordsCovered (pa % 128) n) 0 := by
    unfold State.hostWrite State.unitWrite
    rw [toBytes_length, linePieces_one h0 hn, List.foldl_cons, List.foldl_nil, hbs]; rfl
  obtain ⟨y, ⟨ho, hy⟩, hown, hdirty, hdata, hpois⟩ := hb.stackWrite (u.die (clusterOf h)).stime false (pa % 128)
    (toBytes n value) (wordsCovered (pa % 128) n) 0 (by rw [toBytes_length]; exact hn)
  rw [hw]
  have hso := hs.trans ho
  refine ⟨hso, hso.hartFilled d v, y, hy, hown, hdirty, by rw [hpois, hc]; simp, fun i hi => ?_⟩
  rw [hdata, hx, Line.byte_setBytes _ _ _ _ hi, toBytes_get?, byte_memLine s _ hi]
  by_cases h1 : pa % 128 ≤ i
  · by_cases h2 : i < pa % 128 + n
    · rw [if_pos h1, if_pos (by omega), if_pos ⟨h1, h2⟩]; rfl
    · rw [if_pos h1, if_neg (by omega), if_neg (by omega)]; rfl
  · rw [if_neg h1, if_neg (by omega)]

/-- A store of a hart to a line in memory. -/
theorem hostWrite_reaches (hr : HartReaches s h pa n) (value d : Nat) (v : W64) :
    OnlyCopy s (clusterOf h) (pa / 128) (s.hostWrite (hostAgent h) pa (toBytes n value) (s.hostKey pa)) ∧
      WrittenIn s h pa n value ((s.hostWrite (hostAgent h) pa (toBytes n value) (s.hostKey pa)).hartDone h d v) := by
  obtain ⟨h4, h13⟩ := clusterOf_bounds hr.hart
  rw [hostKey_atHome hr.home]
  exact hostWrite_atBank hr.inLine (hr.home.atBank h4 hr.room h13) rfl rfl (OnlyCopy.refl s _ _) value d v

/-- A hart's write to the line that it has just read in. -/
theorem hostWrite_read (hr : HartReaches s h pa n) (hu : HoldsNow s (clusterOf h) (pa / 128) (homeLine s (clusterOf h) (pa / 128)) u)
    (value d : Nat) (v : W64) :
    OnlyCopy s (clusterOf h) (pa / 128) (u.hostWrite (hostAgent h) pa (toBytes n value) (s.hostKey pa)) ∧
      WrittenIn s h pa n value ((u.hostWrite (hostAgent h) pa (toBytes n value) (s.hostKey pa)).hartDone h d v) := by
  rw [hostKey_atHome hr.home]
  exact hostWrite_atBank hr.inLine (hu.atBank hr.home) rfl rfl hu.1 value d v

/-- The line as a read brings it. -/
theorem readIn_of_holds (hu : HoldsNow s (clusterOf h) (pa / 128) (homeLine s (clusterOf h) (pa / 128)) u) (d : Nat) (v : W64) :
    ReadIn s h (pa / 128) (u.hartDone h d v) :=
  ⟨hu.1.hartFilled d v, _, hu.2, rfl, rfl, rfl, fun _ hi => byte_memLine s _ hi⟩

end

/-! ## Atomics (R228) -/

theorem toInt_eq_signed {n : Nat} (hn : 0 < n) (x : BitVec (8 * n)) :
    x.toInt = if x.toNat < 256 ^ n / 2 then (x.toNat : Int) else (x.toNat : Int) - (256 ^ n : Nat) := by
  obtain ⟨m, rfl⟩ := Nat.exists_eq_succ_of_ne_zero hn.ne'
  rw [BitVec.toInt_eq_toNat_cond, ← pow_256_eq, pow_succ]
  congr 1
  exact propext (by omega)

/-- An integer atomic of n bytes leaves the value of R228. -/
theorem atomApply_eq {n : Nat} (hn : 0 < n) (op : AtomOp) (h : op ≠ .fadd ∧ op ≠ .fmin ∧ op ≠ .fmax) (a b c : BitVec (8 * n)) :
    atomApply op n a.toNat b.toNat c.toNat = (atomicResult op a b c).toNat := by
  obtain ⟨hadd, hmin, hmax⟩ := h
  cases op with
  | add => simp only [atomApply, atomicResult, BitVec.toNat_add, pow_256_eq]
  | mins => simp only [atomApply, atomicResult, toInt_eq_signed hn, apply_ite BitVec.toNat]
  | maxs => simp only [atomApply, atomicResult, toInt_eq_signed hn, apply_ite BitVec.toNat]
  | minu => exact Nat.min_def.trans (apply_ite BitVec.toNat _ _ _).symm
  | maxu => exact Nat.max_def.trans (apply_ite BitVec.toNat _ _ _).symm
  | and => exact (BitVec.toNat_and a b).symm
  | or => exact (BitVec.toNat_or a b).symm
  | xor => exact (BitVec.toNat_xor a b).symm
  | exch => rfl
  | cas => simp only [atomApply, atomicResult, ← BitVec.toNat_inj, apply_ite BitVec.toNat]
  | fadd => exact absurd rfl hadd
  | fmin => exact absurd rfl hmin
  | fmax => exact absurd rfl hmax

/-- What a host access leaves in memory is the model's value of it. -/
theorem hostValue_eq {n old : Nat} (hn : 0 < n) (ho : old < 256 ^ n) (acc : HostAcc) (x : Nat) :
    hostValue acc n old x = hostLeaves acc n old x := by
  have key : ∀ op : AtomOp, op ≠ .fadd ∧ op ≠ .fmin ∧ op ≠ .fmax → atomApply op n old (x % 256 ^ n) 0 =
      (atomicResult op (BitVec.ofNat (8 * n) old) (BitVec.ofNat (8 * n) x) 0).toNat := fun op hop => by
    rw [← atomApply_eq hn op hop, BitVec.toNat_ofNat, BitVec.toNat_ofNat, ← pow_256_eq, Nat.mod_eq_of_lt ho]; rfl
  cases acc with
  | load => rfl
  | store => rfl
  | amoAdd => exact congrArg some (key .add (by decide))
  | amoSwap => exact congrArg some (key .exch (by decide))
  | amoAnd => exact congrArg some (key .and (by decide))
  | amoOr => exact congrArg some (key .or (by decide))
  | amoXor => exact congrArg some (key .xor (by decide))
  | amoMin => exact congrArg some (key .mins (by decide))
  | amoMax => exact congrArg some (key .maxs (by decide))
  | amoMinu => exact congrArg some (key .minu (by decide))
  | amoMaxu => exact congrArg some (key .maxu (by decide))

end Sys2Proof.Claims

/-! # The steps of a host hart, one at a time (R300, R301, R306) -/
namespace Sys2Proof.Claims
open Sys2Proof.Machine

section
variable {s : State} {h e : Nat}

theorem Receiver.receiver (hr : Receiver s h e) : s.receiver h = some e := by
  simp only [State.receiver, bitN, hr.bound, if_true, fieldN, bitsOf, pow_zero, Nat.div_one]
  rw [hr.place.1]

/-- `kuipend` is the pending word as it stands in memory (R301). -/
theorem Receiver.kuipend (hr : Receiver s h e) : s.kuipend h = BitVec.ofNat 64 (memNumber s e 8) := by
  rw [State.kuipend, hr.receiver, ← peek_atHome hr.reach.home hr.reach.inLine.2]

theorem Receiver.kuipendBad (hr : Receiver s h e) : s.kuipendBad h = false := by
  rw [State.kuipendBad, hr.receiver]
  simp [hr.reach.home.peekPoison]

/-! ## Completion interrupts -/

theorem Interrupts.due (hi : Interrupts s h e) : s.hostUiDue h = true := by
  have hlt : memNumber s e 8 < 2 ^ 64 := (memNumber_lt s e 8).trans_eq (pow_256_eq 8)
  have hne : s.kuipend h ≠ 0 := fun h0 => hi.pending (by
    have h1 := congrArg BitVec.toNat (hi.bound.kuipend.symm.trans h0)
    rwa [BitVec.toNat_ofNat, Nat.mod_eq_of_lt hlt] at h1)
  rw [State.hostUiDue, hi.mode.1, hi.mode.2]
  exact decide_eq_true hne

theorem Interrupts.hostUi (hi : Interrupts s h e) : HartNow s h (uiEntered (s.hart h)) (s.hostUi h) := by
  rw [State.hostUi, if_pos hi.due]
  exact updHart_now s h uiEntered

theorem hartStep_boundary (hb : Boundary s h) (k : State → State) : s.hartStep h k = k s := by
  rw [State.hartStep, if_neg (by have := hb.1; omega), hb.2]; rfl

theorem hartStep_interrupts (hh : h < 64) (hi : Interrupts s h e) (k : State → State) :
    HartNow s h (uiEntered (s.hart h)) (s.hartStep h k) := by
  rw [State.hartStep, if_neg (by omega), if_pos hi.due]
  exact hi.hostUi

/-- Where a completion interrupt is due, the hart enters it instead of its instruction (R301). -/
theorem completes_interrupted {i : Instr} (hh : h < 64) (hi : Interrupts s h e) (hw : HartOwn h i) :
    Completes i s (HartNow s h (uiEntered (s.hart h))) := by
  cases hw <;> exact ⟨_, rfl, hartStep_interrupts hh hi _⟩

/-! ## The registers of R301 -/

theorem csrApply_eq (op : CsrOp) (old v : W64) : csrApply op old v = csrResult op old v := by cases op <;> rfl

theorem accessKuipend_pended (hr : Receiver s h e) (d : Nat) (op : CsrOp) (v : W64) : Pended s h d e op v (s.accessKuipend h d op v) := by
  obtain ⟨ho, hw⟩ := hostWrite_reaches hr.reach (csrResult op (BitVec.ofNat 64 (memNumber s e 8)) v).toNat d
    (BitVec.ofNat 64 (memNumber s e 8))
  unfold State.accessKuipend
  rw [hr.kuipendBad, hr.receiver, hr.kuipend]
  simp only [Bool.false_eq_true, if_false, csrApply_eq]
  exact ⟨ho.hartRest _ _, hartDone_done ho.harts _ _ _, hw⟩

theorem completes_kuipendAccess (hb : Boundary s h) (d : BitVec 5) (op : CsrOp) (v : W64) :
    Completes (.kuipendAccess h d op v) s (fun t => ∀ e, Receiver s h e → Pended s h d.toNat e op v t) :=
  ⟨_, rfl, fun e hr => by rw [hartStep_boundary hb]; exact accessKuipend_pended hr d.toNat op v⟩

/-- A write that the rule of a register allows sets it as the rule says (R301). -/
theorem writeCsr_rule {csr : BitVec 12} {v : W64} {x : Hart} (hx : csrRule s h csr v = some x) : HartNow s h x (s.writeCsr h csr v) := by
  unfold csrRule at hx
  simp only at hx
  split at hx
  · rename_i hc; subst hc
    split at hx
    · cases hx
    · rename_i hu; cases hx
      rw [State.writeCsr, if_neg (by decide), if_neg (by simp [Hart.mayCsr, hu])]
      exact updHart_now s h (fun x => { x with kuirecv := v.setWidth 13, pc := x.pc + 4 })
  · split at hx
    · rename_i hc; subst hc; cases hx
      exact updHart_now s h (fun x => { x with kuien := v.getLsbD 0, pc := x.pc + 4 })
    · split at hx
      · rename_i hc; subst hc; cases hx
        exact updHart_now s h (fun x => { x with kuivec := v &&& 0xFFFFFFFFFFFFFFFC, pc := x.pc + 4 })
      · split at hx
        · rename_i hc; subst hc; cases hx
          exact updHart_now s h (fun x => { x with kuiepc := v, pc := x.pc + 4 })
        · cases hx

theorem completes_registerWrite (hb : Boundary s h) (csr : BitVec 12) (v : W64) :
    Completes (.registerWrite h csr v) s (fun t => ∀ x, csrRule s h csr v = some x → HartNow s h x t) :=
  ⟨_, rfl, fun _ hx => by rw [hartStep_boundary hb]; exact writeCsr_rule hx⟩

theorem completes_kuiret (hu : (s.hart s.cur.hart).user = true) :
    Completes .kuiret s (HartNow s s.cur.hart { s.hart s.cur.hart with pc := (s.hart s.cur.hart).kuiepc, kuien := true }) :=
  ⟨_, rfl, by rw [if_pos hu]; exact updHart_now s s.cur.hart (fun x => { x with pc := x.kuiepc, kuien := true })⟩

/-! ## Accesses of host cores (R306) -/

/-- An access that its rules allow passes the checks. -/
theorem hostAccess_may {acc : HostAcc} {pa n : Nat} (hm : HostMay s h acc pa n) (d : Nat) (v : W64) :
    s.hostAccess h acc pa n d v =
      if acc = .store then (s.hostWrite (hostAgent h) pa (toBytes n v.toNat) (s.hostKey pa)).hartDone h 0 0
      else if (s.hostRead h pa n).2.1 then s.raiseExc h .hardwareError
      else ((hostValue acc n (ofBytes (s.hostRead h pa n).1) v.toNat).elim (s.hostRead h pa n).2.2 (fun w =>
        (s.hostRead h pa n).2.2.hostWrite (hostAgent h) pa (toBytes n w) (s.hostKey pa))).hartDone h d
          (BitVec.ofNat 64 (ofBytes (s.hostRead h pa n).1)) := by
  have hh := hm.reach.hart
  have hs := hm.size
  have h1 : ¬ (64 ≤ h || !(n = 1 || n = 2 || n = 4 || n = 8)) = true := by simp; omega
  have h2 : ¬ (acc ≠ .load && acc ≠ .store && (n < 4 || pa % n ≠ 0)) = true := by
    simp only [Bool.and_eq_true, decide_eq_true_eq, Bool.or_eq_true, not_and]
    rintro ⟨hl, hst⟩
    have := hm.atomic hl hst
    omega
  have h3 : ¬ (!(paOk pa) || !(paOk (pa + n - 1))) = true := by simp [hm.place]
  have h4 : ¬ (paTier pa = 2 && acc ≠ .load) = true := by
    simp only [Bool.and_eq_true, decide_eq_true_eq]
    exact fun ⟨ht, hl⟩ => hm.tier hl ht
  unfold State.hostAccess
  rw [if_neg h1, if_neg h2, if_neg h3, if_neg h4]
  dsimp only
  cases hostValue acc n (ofBytes (s.hostRead h pa n).1) v.toNat <;> rfl

theorem writtenIn_mod {pa n value : Nat} {t : State} (hw : WrittenIn s h pa n value t) : WrittenIn s h pa n (value % 256 ^ n) t := by
  obtain ⟨hf, y, hy, ho, hd, hp, hb⟩ := hw
  refine ⟨hf, y, hy, ho, hd, hp, fun i hi => (hb i hi).trans ?_⟩
  split
  · rw [ofNat_digit_mod _ (by omega)]
  · rfl

theorem hostAccess_accessed {acc : HostAcc} {pa n : Nat} (hm : HostMay s h acc pa n) (d : Nat) (v : W64) :
    HostAccessed s h acc pa n d v (s.hostAccess h acc pa n d v) := by
  have hr := hm.reach
  have h0 : 0 < n := hr.inLine.1
  rw [hostAccess_may hm]
  by_cases hst : acc = .store
  · subst hst
    obtain ⟨ho, hw⟩ := hostWrite_reaches hr v.toNat 0 0
    rw [if_pos rfl]
    refine ⟨ho.hartRest _ _, ?_, writtenIn_mod hw⟩
    obtain ⟨h1, h2, h3⟩ := hartDone_done ho.harts h 0 0
    exact ⟨h1, fun r => by simpa using h2 r, h3⟩
  · obtain ⟨u, hread, hu⟩ := hostRead_reaches hr
    rw [if_neg hst, hread, ← memNumber_eq_ofBytes, hostValue_eq h0 (memNumber_lt s pa n)]
    simp only [Bool.false_eq_true, if_false]
    cases hv : hostLeaves acc n (memNumber s pa n) v.toNat with
    | none =>
      refine ⟨hu.1.hartRest _ _, by rw [if_neg hst]; exact hartDone_done hu.1.harts _ _ _, ?_⟩
      rw [hv]
      exact readIn_of_holds hu _ _
    | some w =>
      obtain ⟨ho, hw⟩ := hostWrite_read hr hu w d (BitVec.ofNat 64 (memNumber s pa n))
      refine ⟨ho.hartRest _ _, by rw [if_neg hst]; exact hartDone_done ho.harts _ _ _, ?_⟩
      rw [hv]
      exact hw

theorem completes_hostCoreAccess {acc : HostAcc} {pa n : Nat} (hb : Boundary s h) (hm : HostMay s h acc pa n) (d : BitVec 5) (v : W64) :
    Completes (.hostCoreAccess h acc pa n d v) s (HostAccessed s h acc pa n d.toNat v) :=
  ⟨_, rfl, by rw [hartStep_boundary hb]; exact hostAccess_accessed hm d.toNat v⟩

end

/-! ## External hosts (R312) -/

theorem completes_externalSubmit {s : State} {port : Nat} {bs : List Byte} (hr : ExternalRecord s port bs) :
    Completes (.externalHostAccess port (.submit 0 0 bs)) s
      (fun t => t = { s with mgmt := s.mgmt ++ [BitVec.ofNat 1024 (ofBytes bs)] }) := by
  have hp : s.endpoint port = true := decide_eq_true hr.port
  refine ⟨_, rfl, ?_⟩
  simp [State.externalAccess, hp, hr.length, State.toSlot]

theorem completes_externalRead (s : State) (port pa n : Nat) :
    Completes (.externalHostAccess port (.readMem pa n)) s (fun t => t = s) :=
  ⟨_, rfl, by unfold State.externalAccess; split <;> rfl⟩

/-! ## Boot and loss of power (R212, R282, R313, R314) -/

theorem bootOk_of_good {s : State} (h : GoodBoot s) : bootOk s.boot = true := by
  obtain ⟨⟨r1, r2, r3⟩, hp, hd, ⟨f1, f2, f3, f4⟩, ⟨l1, l2⟩, ⟨p1, p2⟩, ⟨d1, d2⟩⟩ := h
  simp only [bootOk, driftOk, Bool.and_eq_true, decide_eq_true_eq, and_assoc]
  exact ⟨r1, r2, hp, hd, f1.1, f1.2, f2.1, f2.2, d1, d2, r3, l1, f3.1, f3.2, l2, p1, p2, f4.1, f4.2⟩

theorem moraineHas_iff (e : BitVec 128) (fr : Nat) :
    moraineHas e fr = true ↔ fieldN e 16 30 ≤ fr ∧ fr < fieldN e 16 30 + fieldN e 48 16 := by
  simp [moraineHas]

theorem completes_boot {s : State} (hb : s.booted = false) (hg : GoodBoot s) : Completes .boot s (Booted s) := by
  refine ⟨_, rfl, ?_⟩
  rw [State.bootUp, if_neg (by simp [hb]), if_neg (by simp [bootOk_of_good hg])]
  refine ⟨rfl, fun fr => ?_, ?_, fun i x hx => ?_⟩
  · simp only [List.mem_filter, State.retired, Bool.not_eq_true', List.any_eq_false, moraineHas_iff]
  · show (BitVec.ofNat 32 (bootField s 384 32)).toNat = _
    rw [BitVec.toNat_ofNat, Nat.mod_eq_of_lt]
    exact Nat.mod_lt _ (by norm_num)
  · obtain ⟨y, rfl⟩ := Tab.get?_map_some (f := fun y : Island => { y with offset := 0, freq := 100, cut := 0, fixed := none }) hx
    exact ⟨rfl, rfl, rfl, rfl⟩

theorem completes_powerLoss {s : State} (hl : s.logs = []) : Completes .powerLoss s (PowerLost s) := by
  refine ⟨_, rfl, {
    memory := fun a => ?_
    records := ⟨rfl, rfl, rfl, rfl, rfl⟩
    gone := ⟨rfl, rfl, rfl, rfl, rfl, rfl, rfl, rfl, rfl, rfl, rfl, rfl⟩
    boots := ⟨rfl, rfl, rfl, rfl⟩ }⟩
  simp only [State.losePower, State.cutLogs, hl, List.map_nil, Tab.keys, List.foldl_nil, List.any_nil, Bool.not_false, List.filter_true]
  simpa using Tab.getD_filter_key s.mem (fun k => decide (paTier k = 2)) a 0

/-! ## The obligation -/

/-- The steps with operands have the effect of their rule. -/
theorem completes_hostRule {s : State} {i : Instr} {e : Event} (hr : hostRule s i = some e) (hw : e.when) : Completes i s e.next := by
  cases i with
  | kuipendAccess h d op v => cases hr; exact completes_kuipendAccess hw.1 d op v
  | registerWrite h csr v => cases hr; exact completes_registerWrite hw.1 csr v
  | hostUiEntry h => cases hr; obtain ⟨_, hi⟩ := hw; exact ⟨_, rfl, hi.hostUi⟩
  | hostCoreAccess h acc pa n d v => cases hr; exact completes_hostCoreAccess hw.1 hw.2 d v
  | externalHostAccess port acc =>
    match acc, hr with
    | .submit 0 0 bs, hr => cases hr; exact completes_externalSubmit hw
    | .readMem pa n, hr => cases hr; exact completes_externalRead s port pa n
  | _ => cases hr

/-- Settles O52, from one lemma per step of a host hart, the boot and the loss of power. -/
theorem hostStepsTakeEffect : Obligations.HostStepsTakeEffect :=
  ⟨fun _ _ _ _ hr hw => completes_hostRule hr hw, fun _ hu => completes_kuiret hu,
    fun _ _ _ _ hh hi hw => completes_interrupted hh hi hw, fun _ hb hg => completes_boot hb hg, fun _ hl => completes_powerLoss hl⟩

end Sys2Proof.Claims

/-! # Schedulers and timers (R26, R169, R170, R258, R265) -/
namespace Sys2Proof.Machine

/-- The better of a floe found so far and the next one, by a measure. -/
def State.lesser (s : State) (m : Floe → Nat) (b : Option Nat) (f : Nat) : Option Nat :=
  match b with
  | none => some f
  | some x => if m (s.floe f) < m (s.floe x) then some f else some x

theorem State.leastFloe_foldl (s : State) (m : Floe → Nat) (fs : List Nat) : s.leastFloe m fs = fs.foldl (s.lesser m) none := rfl

/-- A search that has found, or is still to meet, the floe whose measure is below every other's ends at it. -/
theorem State.foldl_lesser_eq {s : State} {m : Floe → Nat} {f : Nat} (fs : List Nat) : ∀ b : Option Nat,
    (∀ g ∈ fs, g ≠ f → m (s.floe f) < m (s.floe g)) → (∀ x, b = some x → x ≠ f → m (s.floe f) < m (s.floe x)) →
    (f ∈ fs ∨ b = some f) → fs.foldl (s.lesser m) b = some f := by
  induction fs with
  | nil => intro b _ _ h; simpa using h
  | cons g fs ih =>
    intro b hfs hb h
    have hg := hfs g (List.mem_cons_self ..)
    refine ih _ (fun k hk => hfs k (List.mem_cons_of_mem _ hk)) ?_ ?_
    · cases b <;> grind [State.lesser]
    · cases b <;> grind [State.lesser]

theorem State.leastFloe_eq {s : State} {m : Floe → Nat} {fs : List Nat} {f : Nat} (hf : f ∈ fs)
    (hlt : ∀ g ∈ fs, g ≠ f → m (s.floe f) < m (s.floe g)) : s.leastFloe m fs = some f :=
  State.foldl_lesser_eq fs none hlt (by simp) (.inl hf)

theorem State.mem_quadFloes {s : State} {c q : Nat} {st : FloeState} {f : Nat} :
    f ∈ s.quadFloes c q st ↔ f ∈ s.floes.keys ∧ floeCore f = c ∧ (s.floe f).st = st ∧ s.quadOf f = q := by
  simp [State.quadFloes, and_assoc]

end Sys2Proof.Machine

namespace Sys2Proof.Claims
open Sys2Proof.Machine

section
variable {s : State} {c q f g id : Nat}

theorem LongestReady.leastFloe (h : LongestReady s c q f) :
    s.leastFloe (fun fl => fl.readyAt) (s.quadFloes c q .ready) = some f :=
  State.leastFloe_eq (State.mem_quadFloes.2 h.1) (fun g hg => h.2 g (State.mem_quadFloes.1 hg))

theorem EarliestActive.leastFloe (h : EarliestActive s c q g) :
    s.leastFloe (fun fl => fl.activeAt) (s.quadFloes c q .active) = some g :=
  State.leastFloe_eq (State.mem_quadFloes.2 h.1) (fun k hk => h.2 k (State.mem_quadFloes.1 hk))

theorem LongestReady.admitLongest (h : LongestReady s c q f) : s.admitLongest c q = s.updFloe f (admitted s) := by
  unfold State.admitLongest
  rw [h.leastFloe]
  rfl

/-- A floe that is ready and one that is active are two. -/
theorem LongestReady.ne_active (h : LongestReady s c q f) (k : EarliestActive s c q g) : g ≠ f := by
  rintro rfl
  obtain ⟨-, -, hready, -⟩ := h.1
  obtain ⟨-, -, hactive, -⟩ := k.1
  rw [hready] at hactive
  cases hactive

theorem completes_fragmentWaitExpiry (hf : s.floes.get? f ≠ none) (hw : 64 ≤ (s.frag f id).waitCount) (hn : id ∉ (s.floe f).expired) :
    Completes (.fragmentWaitExpiry f id) s (fun t => OnlyFloe s f t ∧ t.floe f = { s.floe f with expired := (s.floe f).expired ++ [id] }) := by
  have hexp : (s.floe f).expire id = { s.floe f with expired := (s.floe f).expired ++ [id] } := by
    have hw' : 64 ≤ ((s.floe f).frag id).waitCount := hw
    simp [Floe.expire, hw', hn]
  refine ⟨s.updFloe f (fun fl => fl.expire id), ?_, OnlyFloe.updFloe .., by rw [State.updFloe_floe_self, hexp]⟩
  show execFragmentWaitExpiry f id s = _
  rw [execFragmentWaitExpiry, if_pos (Option.isSome_iff_ne_none.2 hf)]

theorem completes_activeSetAdmission (hn : (s.quadFloes c q .active).length < 8) (hh : (s.core c).halted = false) :
    Completes (.activeSetAdmission c q) s
      (fun t => ∀ f, LongestReady s c q f → OnlyFloe s f t ∧ t.floe f = admitted s (s.floe f)) := by
  refine ⟨s.admitLongest c q, ?_, fun k hk => ?_⟩
  · show execActiveSetAdmission c q s = _
    rw [execActiveSetAdmission, State.activate, if_neg (by simp [hh, hn])]
  · rw [hk.admitLongest]
    exact ⟨OnlyFloe.updFloe .., State.updFloe_floe_self ..⟩

theorem completes_admissionTimeout (hn : 8 ≤ (s.quadFloes c q .active).length) (hh : (s.core c).halted = false)
    (h : LongestReady s c q f) (k : EarliestActive s c q g) :
    Completes (.admissionTimeout c q) s (fun t => ∀ f g, LongestReady s c q f → EarliestActive s c q g →
      t = { s with floes := t.floes } ∧ (∀ h, h ≠ f → h ≠ g → t.floes.get? h = s.floes.get? h) ∧
      t.floe f = admitted s (s.floe f) ∧ t.floe g = { s.floe g with st := .ready, readyAt := s.now }) := by
  have hready : (s.quadFloes c q .ready).isEmpty = false :=
    List.isEmpty_eq_false_iff.2 (List.ne_nil_of_mem (State.mem_quadFloes.2 h.1))
  refine ⟨(s.admitLongest c q).updFloe g (fun fl => { fl with st := .ready, readyAt := s.now }), ?_, fun f' g' hf' hg' => ?_⟩
  · show execAdmissionTimeout c q s = _
    rw [execAdmissionTimeout, State.admitByTimeout]
    simp only [hready, hh, Bool.or_false, decide_eq_true_eq, k.leastFloe]
    rw [if_neg (by omega)]
  · obtain rfl : g = g' := Option.some.inj (k.leastFloe.symm.trans hg'.leastFloe)
    have hne := hf'.ne_active hg'
    rw [hf'.admitLongest]
    refine ⟨rfl, fun j hj hj' => ?_, ?_, ?_⟩
    · rw [State.updFloe_floes_ne _ _ _ hj', State.updFloe_floes_ne _ _ _ hj]
    · rw [State.updFloe_floe_ne _ _ _ hne.symm, State.updFloe_floe_self]
    · rw [State.updFloe_floe_self, State.updFloe_floe_ne _ _ _ hne]

theorem completes_uiTimerExpiry (hu : s.unretired f = true) (hp : timerPeriod (s.floe f) ≠ 0)
    (ht : (s.floe f).timerAt.toNat + timerPeriod (s.floe f) ≤ s.time.toNat) :
    Completes (.uiTimerExpiry f) s (fun t => OnlyFloe s f t ∧ t.floe f = { s.floe f with
      uipend := (s.floe f).uipend ||| 4, timerAt := (s.floe f).timerAt + BitVec.ofNat 64 (timerPeriod (s.floe f)) }) := by
  have hns : tperOf (s.floe f).uivec * 1000 = timerPeriod (s.floe f) := rfl
  refine ⟨_, rfl, ?_⟩
  rw [State.timerExpires]
  simp only [hns]
  rw [if_neg (by simp [hp, hu, ht])]
  exact ⟨OnlyFloe.updFloe .., State.updFloe_floe_self ..⟩

end

/-- Settles O56, from one lemma per step of the schedulers. -/
theorem schedulersAndTimers : Obligations.SchedulersAndTimers := by
  intro s i e _ hr hw
  cases i with
  | fragmentWaitExpiry f id => cases hr; obtain ⟨hf, hc, hn⟩ := hw; exact completes_fragmentWaitExpiry hf hc hn
  | activeSetAdmission c q => cases hr; obtain ⟨hn, hh, -⟩ := hw; exact completes_activeSetAdmission hn hh
  | admissionTimeout c q => cases hr; obtain ⟨hn, hh, ⟨f, hf⟩, g, hg⟩ := hw; exact completes_admissionTimeout hn hh hf hg
  | uiTimerExpiry f => cases hr; obtain ⟨hu, hp, ht⟩ := hw; exact completes_uiTimerExpiry hu hp ht
  | _ => cases hr

end Sys2Proof.Claims

/-! # Going on: register targets, `YIELD`, special registers, waits with nothing to wait for (R26, R174, R343, R349, R423, R455) -/
namespace Sys2Proof.Claims
open Sys2Proof.Machine

section
variable {s : State}

/-- A register target that passes the three checks of R349 is jumped to. -/
theorem regJump_good {t : W64} (h : goodTarget s t) (k : State → State) : regJump t k s = .jump (t.setWidth 18) (k s) := by
  obtain ⟨heven, hlt, hst, hlen⟩ := h
  have hslot : t.toNat / 4096 % 64 = t.toNat / 4096 := Nat.mod_eq_of_lt (by omega)
  have hland : s.cr.landed t.toNat = true := by simp [Core.landed, hslot, hst, hlen]
  rw [regJump, if_neg (by omega), if_neg (by omega), if_neg (by simp [hland])]

/-- A `WAIT` passes a counter exactly where its field lets it pass (R174). -/
theorem waitPasses_iff {c : OpClass} {n : Nat} {v : BitVec n} : s.fl.waitPasses c v = true ↔ lets s c n v.toNat := by
  rw [Floe.waitPasses, Bool.or_eq_true, decide_eq_true_eq, decide_eq_true_eq, lets, or_comm, ← BitVec.toNat_inj, BitVec.toNat_allOnes]

/-- The issuing fragment of a floe that has one. -/
theorem fg_of_frags {t : State} {g : Fragment} (h : t.fl.frags = [g]) (hid : g.id = t.cur.frag) : t.fg = g := by
  show t.fl.frag t.cur.frag = g
  rw [← hid]
  exact Floe.frag_of_single h

/-- Going on at a target after the floe's registers have changed, and its one fragment's debts. -/
theorem moved_of_frags (m : Jump) (F : List Fragment) (now : Nat) (hl : (m.set s.fl).live = s.fl.live)
    (hF : Undivided s → ∃ o, F = [{ s.fg with owes := o }]) :
    Moved s m (s.updFl (fun fl => ({ m.set fl with frags := F } : Floe).goTo s.cur.frag m.target now)) := by
  refine ⟨OnlyFloe.updFloe s _ _, by rw [State.updFl_fl, Floe.goTo_frame], fun hu => ?_⟩
  obtain ⟨o, rfl⟩ := hF hu
  have hid := hu.id
  obtain ⟨-, hstack, hact, hne⟩ := hu
  have hgo := Floe.goTo_single (fl := { m.set s.fl with frags := [{ s.fg with owes := o }] }) rfl hstack (by rw [hl]; exact hact) hne
    m.target now
  have hfrags : (s.updFl (fun fl => ({ m.set fl with frags := [{ s.fg with owes := o }] } : Floe).goTo s.cur.frag m.target now)).fl.frags =
      [{ s.fg with owes := o, pc := m.target, wait := .none, rb := none, left := none }] := by
    rw [State.updFl_fl, ← hid]
    exact hgo
  rw [fg_of_frags hfrags hid, hfrags]
  exact ⟨rfl, rfl, rfl⟩

/-- The floe whose fragment yields: the fragment is its last, and owes their turns to the ready ones (R26, R455). -/
def yielded (id : Nat) (fl : Floe) : Floe :=
  { fl with frags := fl.frags.filter (fun g => g.id ≠ id) ++ [{ fl.frag id with
      owes := (fl.frags.filter (fun g => g.id ≠ id && g.wait = .none && fl.mayIssue g)).map (fun g => g.id) }] }

theorem yielded_frag_pc (id : Nat) (fl : Floe) : ((yielded id fl).frag id).pc = (fl.frag id).pc := by
  have hnone : (fl.frags.filter (fun g => g.id ≠ id)).find? (fun g => g.id = id) = none := by
    rw [List.find?_eq_none]
    intro g hg
    simpa using (List.mem_filter.1 hg).2
  rw [yielded, Floe.frag, List.find?_append, hnone, Option.none_or, List.find?_singleton]
  split
  · rfl
  · rename_i h
    rw [Floe.frag] at h ⊢
    cases hf : fl.frags.find? (fun g => g.id = id) with
    | none => rfl
    | some g => rw [hf] at h; exact absurd (List.find?_some hf) h

theorem completes_yield : Completes .yield s (Moved s { target := behind s 4 }) := by
  have hx : exec .yield s = .next ((s.updFl (yielded s.cur.frag)).retireFrag s.cur.floe s.cur.frag 4) := rfl
  have hgo : (s.updFl (yielded s.cur.frag)).retireFrag s.cur.floe s.cur.frag 4 =
      s.updFl (fun fl => (yielded s.cur.frag fl).goTo s.cur.frag (nextPc ((yielded s.cur.frag fl).frag s.cur.frag).pc 4) s.now) :=
    State.updFl_updFl ..
  refine ⟨_, hx, ?_⟩
  rw [hgo]
  simp only [yielded_frag_pc]
  refine moved_of_frags { target := behind s 4 } (yielded s.cur.frag s.fl).frags s.now rfl (fun hu => ⟨[], ?_⟩)
  have hid := hu.id
  have hfrag : s.fl.frag s.cur.frag = s.fg := rfl
  simp [yielded, hfrag, hu.1, hid]

/-! ## One arm of the dispatch each -/

theorem exec_ret : exec .ret s = execRet s := rfl
theorem exec_wrsr (a n : BitVec 6) : exec (.wrsr a n) s = execWrsr a n s := rfl
theorem exec_wrsrRbase (a : BitVec 6) : exec (.wrsrRbase a) s = execWrsrRbase a s := rfl
theorem exec_wrsrUivec (a : BitVec 6) : exec (.wrsrUivec a) s = execWrsrUivec a s := rfl
theorem exec_wrsrUipend (a : BitVec 6) : exec (.wrsrUipend a) s = execWrsrUipend a s := rfl
theorem exec_uimask (a d : BitVec 6) : exec (.uimask a d) s = execUimask a d s := rfl
theorem exec_wait (n t p : BitVec 4) (st ld : BitVec 5) : exec (.wait n t p st ld) s = execWait n t p st ld s := rfl
theorem exec_barArrive (n : BitVec 4) : exec (.barArrive n) s = execBarArrive n s := rfl
theorem exec_barWait (n : BitVec 4) : exec (.barWait n) s = execBarWait n s := rfl

/-- `WRSR` of the registers that it writes without a check (R423). -/
theorem completes_wrsr {a n : BitVec 6} {m : Jump} (hr : plainRule s (.wrsr a n) = some m) : Completes (.wrsr a n) s (Moved s m) := by
  simp only [plainRule] at hr
  split at hr
  · cases hr; subst n; exact completes_go (exec_wrsr a _) rfl rfl rfl rfl rfl rfl
  split at hr
  · cases hr; subst n; exact completes_go (exec_wrsr a _) rfl rfl rfl rfl rfl rfl
  split at hr
  · cases hr; subst n; exact completes_go (exec_wrsr a _) rfl rfl rfl rfl rfl rfl
  split at hr
  · cases hr; subst n; exact completes_go (exec_wrsr a _) rfl rfl rfl rfl rfl rfl
  · cases hr

end

/-- Settles O22, one case per instruction of the rule. -/
theorem specialRegisterWrites : Obligations.SpecialRegisterWrites := by
  intro s i m _ hr ha
  cases i with
  | ret => cases hr; exact completes_jump_id exec_ret (regJump_good ha _) rfl
  | yield => cases hr; exact completes_yield
  | wrsr a n => exact completes_wrsr hr
  | wrsrRbase a =>
    cases hr
    obtain ⟨h8, hn, -⟩ := ha
    exact completes_go (exec_wrsrRbase a) (if_pos (by simp only [Bool.and_eq_true, decide_eq_true_eq]; exact ⟨h8, hn⟩)) rfl rfl rfl rfl rfl
  | wrsrUivec a => cases hr; exact completes_go (exec_wrsrUivec a) rfl rfl rfl rfl rfl rfl
  | wrsrUipend a => cases hr; exact completes_go (exec_wrsrUipend a) rfl rfl rfl rfl rfl rfl
  | uimask a d => cases hr; exact completes_go (exec_uimask a d) rfl rfl rfl rfl rfl rfl
  | wait n t p st ld =>
    cases hr
    simp only [← waitPasses_iff] at ha
    exact completes_go_id (exec_wait n t p st ld) (if_pos (by simp [ha])) rfl rfl rfl
  | barArrive n => cases hr; exact completes_go_id (exec_barArrive n) (if_pos ha) rfl rfl rfl
  | barWait n => cases hr; exact completes_go_id (exec_barWait n) (if_neg (Bool.eq_false_iff.1 ha)) rfl rfl rfl
  | _ => cases hr

end Sys2Proof.Claims

/-! # A `BRC` of a fragment with an active bit beyond its floe's width (R22, R347) -/
namespace Sys2Proof.Claims
open Sys2Proof.Machine

/-- A floe of 16 lanes whose fragment has lanes 0 and 1 active, and bit 20 of its mask besides; predicate 0 holds in lane 0. -/
def strayFragment : Fragment := { Fragment.reset with active := 0x100003 }
def strayBits : State :=
  { State.reset with
    floes := [(0, { Floe.reset with frags := [strayFragment], nextFrag := 1, live := 0x100003, st := .active })]
    blocks := [(0, { Block.reset with preds := [(0, true)] })] }

theorem strayBits_lanes : strayBits.lanes = [0, 1] := by decide +kernel

theorem strayBits_takes (l : Nat) : takes strayBits 0 0 l ↔ l = 0 := by
  have hP : strayBits.P 0 l = decide (l = 0) := by
    show (decide (0 = 7) || Tab.getD [(0, true)] ((0 + l) * 8 + 0) false) = _
    by_cases hl : l = 0
    · subst hl; decide
    · have : ¬ (0 = l * 8) := by omega
      simp [Tab.getD, Tab.get?, hl, this]
  show strayBits.P 0 l ≠ false ↔ _
  rw [hP]
  simp

/-- The stray bit stays in the mask of the fragment that does not take the branch. -/
theorem strayBits_divided : ∃ t, exec (.brc 4 0 0 0) strayBits = .next t ∧ (t.fl.frags.head?.map (fun g => g.active.getLsbD 20)) = some true :=
  ⟨_, rfl, by decide +kernel⟩

/-- Refutes O21: a mask bit at or beyond the floe's width is no lane, and stays in the mask of the fragment that goes on behind the branch. -/
theorem not_conditionalBranches : ¬ Obligations.ConditionalBranches := by
  rintro ⟨-, h⟩
  obtain ⟨t, ht, hd⟩ := h strayBits 4 0 0 0 (by unfold Undivided; decide +kernel) (by unfold inSlot; decide +kernel) (by decide) (by decide) (by decide +kernel)
    ⟨0, by rw [strayBits_lanes]; decide, (strayBits_takes 0).2 rfl⟩ ⟨1, by rw [strayBits_lanes]; decide, by rw [strayBits_takes]; decide⟩
  obtain ⟨u, hu, hbit⟩ := strayBits_divided
  obtain rfl : u = t := by rw [hu] at ht; exact Host.Outcome.next.inj ht
  obtain ⟨a, b, hab, -, -, -, -, -, -, hl⟩ := hd.frags
  rw [hab] at hbit
  obtain ⟨hmem, -⟩ := (hl 20 (by decide)).2.1 (Option.some.inj hbit)
  rw [strayBits_lanes] at hmem
  exact absurd hmem (by decide)

end Sys2Proof.Claims

/-! # Arrivals where a table of floes lists its keys out of order (R42, R43) -/
namespace Sys2Proof.Claims
open Sys2Proof.Machine

/-- A floe of 16 lanes with its one fragment at address 0. -/
def onlyLane : Floe := { Floe.reset with st := .active, frags := [{ Fragment.reset with active := 1 }], nextFrag := 1, live := 1 }

/-! ## An arrival that should leave the phase open -/

/-- Floes 0 and 1 of block 0, listed with key 1 first: writing floe 0 lists it a second time. Two quanta have arrived at barrier 0. -/
def twoListedDown : State :=
  { State.reset with floes := [(1, onlyLane), (0, onlyLane)], blocks := [(0, { Block.reset with bars := [(0, ⟨2, []⟩)] })] }

theorem twoListedDown_arrives : CanArrive twoListedDown 0 where
  here := ⟨{ Fragment.reset with active := 1 }, by decide +kernel, rfl⟩
  fresh := by decide +kernel
  done := fun o ho => absurd ho (List.not_mem_nil (a := o))
  count := by decide +kernel

/-- The floe's quanta make three of two expected, which completes the phase once floe 0 is listed twice. -/
theorem twoListedDown_completes :
    ∃ t, exec (.barArrive 0) twoListedDown = .next t ∧ (t.blk.bars.getD 0 Barrier.reset).count = 0 :=
  ⟨_, rfl, by decide +kernel⟩

/-- Refutes O47: a table of floes whose keys do not rise lists the arriving floe twice, so that a phase with a count above the expected one
completes. -/
theorem not_barrierArrivals : ¬ Obligations.BarrierArrivals := by
  rintro ⟨h, -, -⟩
  obtain ⟨⟨t, ht, ha⟩, -⟩ := h twoListedDown 0 twoListedDown_arrives (by decide +kernel)
  obtain ⟨u, hu, hcount⟩ := twoListedDown_completes
  obtain rfl : u = t := Host.Outcome.next.inj (hu.symm.trans ht)
  exact absurd (hcount.symm.trans ha.count.1) (by decide +kernel)

/-! ## An arrival that should complete the phase -/

/-- Floe 0 is the only one of block 0; a floe of block 1 is listed before it. -/
def oneListedLast : State :=
  { State.reset with floes := [(256, onlyLane), (0, onlyLane)], blocks := [(0, Block.reset)] }

theorem oneListedLast_arrives : CanArrive oneListedLast 0 where
  here := ⟨{ Fragment.reset with active := 1 }, by decide +kernel, rfl⟩
  fresh := by decide +kernel
  done := fun o ho => absurd ho (List.not_mem_nil (a := o))
  count := by decide +kernel

theorem oneListedLast_alone : Alone oneListedLast 0 where
  floes := by decide +kernel
  live := by decide +kernel
  run := fun r hr => absurd (show (none : Option _) = some r from hr) nofun
  empty := by decide +kernel
  whole := by unfold Undivided; decide +kernel

/-- One quantum of the two that a floe listed twice makes expected: the phase stays open. -/
theorem oneListedLast_waits :
    ∃ t, exec (.barSync 0) oneListedLast = .next t ∧ (t.blk.bars.getD 0 Barrier.reset).count = 1 :=
  ⟨_, rfl, by decide +kernel⟩

/-- Refutes O48: a table of floes whose keys do not rise lists the arriving floe twice, so that the count of the block's only floe falls short
of the expected one. -/
theorem not_phasesComplete : ¬ Obligations.PhasesComplete := by
  rintro ⟨h, -⟩
  obtain ⟨⟨t, ht, hd⟩, -⟩ := h oneListedLast 0 oneListedLast_arrives oneListedLast_alone
  obtain ⟨u, hu, hcount⟩ := oneListedLast_waits
  obtain rfl : u = t := Host.Outcome.next.inj (hu.symm.trans ht)
  exact absurd (hcount.symm.trans (congrArg Barrier.count (hd.bars 0 (by decide)))) (by decide +kernel)

end Sys2Proof.Claims

/-! # Lanes that exit and floes that retire (R21, R23, R27, R45, R363, R364) -/
namespace Sys2Proof.Machine

/-! ## What retiring a floe with nothing outstanding does -/

/-- A floe whose last lanes have exited: no fragment, no queue, no standing. -/
def Floe.gone (fl : Floe) : Floe := { fl with st := .retired, frags := [], queues := [], live := 0, standing := 0, cstanding := [] }
/-- A block without the queue entries of a floe's lanes. -/
def Block.withoutLanes (b : Block) (fl : Floe) : Block :=
  { b with qents := b.qents.filter (fun e => !(fl.base ≤ e.1 / 16 && e.1 / 16 < fl.base + fl.width)) }
/-- A state with one floe's and one block's entry written. -/
def State.writeBoth (s : State) (f : Nat) (fl : Floe) (bk : Block) : State :=
  { s with floes := s.floes.put f fl, blocks := s.blocks.put (blockOf f) bk }

@[simp] theorem State.writeBoth_floe_self (s : State) (f : Nat) (fl : Floe) (bk : Block) : (s.writeBoth f fl bk).floe f = fl :=
  Tab.getD_put_self _ _ _ _
theorem State.writeBoth_floe_ne (s : State) {f g : Nat} (fl : Floe) (bk : Block) (h : g ≠ f) :
    (s.writeBoth f fl bk).floe g = s.floe g := Tab.getD_put_ne _ _ _ h
@[simp] theorem State.writeBoth_block_self (s : State) (f : Nat) (fl : Floe) (bk : Block) :
    (s.writeBoth f fl bk).block (blockOf f) = bk := Tab.getD_put_self _ _ _ _
@[simp] theorem State.writeBoth_launch (s : State) (f l : Nat) (fl : Floe) (bk : Block) :
    (s.writeBoth f fl bk).launch l = s.launch l := rfl

theorem State.upd_eq_writeBoth (s : State) (f : Nat) (g : Floe → Floe) (k : Block → Block) :
    (s.updFloe f g).updBlock (blockOf f) k = s.writeBoth f (g (s.floe f)) (k (s.block (blockOf f))) := rfl

theorem State.writeBoth_writeBoth (s : State) (f : Nat) (fl fl' : Floe) (bk bk' : Block) :
    (s.writeBoth f fl bk).writeBoth f fl' bk' = s.writeBoth f fl' bk' := by
  unfold State.writeBoth
  simp only [Tab.put_put]

/-- Changing the floe and then the block of a state with both written writes both. -/
theorem State.writeBoth_upd (s : State) (f : Nat) (fl : Floe) (bk : Block) (g : Floe → Floe) (k : Block → Block) :
    ((s.writeBoth f fl bk).updFloe f g).updBlock (blockOf f) k = s.writeBoth f (g fl) (k bk) := by
  rw [upd_eq_writeBoth, writeBoth_writeBoth, writeBoth_floe_self, writeBoth_block_self]

/-- A guard's resolution finds no command and no stream. -/
theorem State.resolveGuard_idle {s : State} {f : Nat} (g : Nat) (v : Bool) (hc : (s.floe f).cmds = [])
    (hs : (s.block (blockOf f)).streams = []) : s.resolveGuard f g v = s.writeBoth f (s.floe f) (s.block (blockOf f)) := by
  unfold State.resolveGuard
  simp only [upd_eq_writeBoth, hc, hs, List.map_nil]
  have h1 : { s.floe f with cmds := [] } = s.floe f := by rw [← hc]
  have h2 : { s.block (blockOf f) with streams := [] } = s.block (blockOf f) := by rw [← hs]
  rw [h1, h2]

/-- The guards of a floe without commands and streams resolve to nothing. -/
theorem State.resolveGuards_idle {s : State} {f : Nat} (hc : (s.floe f).cmds = []) (hs : (s.block (blockOf f)).streams = [])
    {l : List Nat} (hl : l ≠ []) :
    l.foldl (fun s g => s.resolveGuard f g false) s = s.writeBoth f (s.floe f) (s.block (blockOf f)) := by
  obtain ⟨g, l, rfl⟩ := List.exists_cons_of_ne_nil hl
  rw [List.foldl_cons, resolveGuard_idle g false hc hs]
  refine Claims.foldl_id _ l _ fun g _ => ?_
  rw [resolveGuard_idle g false (by rw [writeBoth_floe_self, hc]) (by rw [writeBoth_block_self, hs]), writeBoth_writeBoth,
    writeBoth_floe_self, writeBoth_block_self]

/-- A barrier at which nobody has arrived stays as it is. -/
theorem State.checkBar_none {s : State} {b n : Nat} (h : ((s.block b).bar n).count = 0) : s.checkBar b n = s := by
  simp [State.checkBar, h]

theorem State.updBlock_updFloe (s : State) (b f : Nat) (k : Block → Block) (g : Floe → Floe) :
    (s.updBlock b k).updFloe f g = (s.updFloe f g).updBlock b k := rfl

/-- A retired floe of a block in which no barrier counts an arrival leaves every barrier as it is. -/
theorem State.checkBars_none {s : State} {b : Nat} (g : Nat → Barrier → Barrier) (h : ∀ n < 16, ((s.block b).bar n).count = 0) :
    (upTo 16).foldl (fun s n => (if (0 : BitVec 16).getLsbD n then s.updBar b n (g n) else s).checkBar b n) s = s :=
  Claims.foldl_id _ _ _ fun n hn => by
    rw [if_neg (by simp)]
    exact checkBar_none (h n (by simpa [upTo] using hn))

/-- A floe without commands and without a standing, in a block without streams, arrivals and cohorts, whose buddy does not wait for it, retires
alone: its fragments and queues go, its lanes' queue entries too. -/
theorem State.retireFloe_idle {s : State} {f : Nat} (hc : (s.floe f).cmds = []) (hs : (s.block (blockOf f)).streams = [])
    (hst : (s.floe f).standing = 0) (hbar : ∀ n < 16, ((s.block (blockOf f)).bar n).count = 0)
    (hcoh : (s.launchOf (blockOf f)).cohortsOf (s.block (blockOf f)).id = [])
    (hbud : ∀ g, s.buddy f = some g → g ≠ f → ∀ x ∈ (s.floe g).frags, x.wait ≠ .fuse) :
    s.retireFloe f = s.writeBoth f (s.floe f).gone ((s.block (blockOf f)).withoutLanes (s.floe f)) := by
  have hk (p : Nat × Stream → Bool) : ({ s.block (blockOf f) with
        streams := (s.block (blockOf f)).streams.filter p
        qents := (s.block (blockOf f)).qents.filter (fun e => !((s.floe f).base ≤ e.1 / 16 && e.1 / 16 < (s.floe f).base + (s.floe f).width)) }) =
      (s.block (blockOf f)).withoutLanes (s.floe f) := by
    unfold Block.withoutLanes; simp only [hs, List.filter_nil]
  unfold State.retireFloe
  simp only [resolveGuards_idle hc hs (l := upTo 8) (by decide), updBlock_updFloe, writeBoth_upd, hst, hk]
  generalize hr : s.writeBoth f _ _ = r
  replace hr : r = s.writeBoth f (s.floe f).gone ((s.block (blockOf f)).withoutLanes (s.floe f)) := hr.symm
  have hblk : r.block (blockOf f) = (s.block (blockOf f)).withoutLanes (s.floe f) := by rw [hr, writeBoth_block_self]
  have hcohr : (r.launchOf (blockOf f)).cohortsOf (r.block (blockOf f)).id = [] := by
    unfold State.launchOf at hcoh ⊢
    rw [hblk, hr, writeBoth_launch]
    exact hcoh
  rw [checkBars_none _ (by rw [hblk]; exact hbar), hcohr, List.foldl_nil]
  rw [← hr]
  cases hb : s.buddy f with
  | none => rfl
  | some g =>
    suffices h : ∀ x ∈ (r.floe g).frags, x.wait ≠ .fuse by simpa using fun x hx hw => absurd hw (h x hx)
    by_cases hgf : g = f
    · rw [hgf, hr, writeBoth_floe_self]
      exact fun x hx => absurd hx List.not_mem_nil
    · rw [hr, writeBoth_floe_ne _ _ _ hgf]
      exact hbud g hb hgf

end Sys2Proof.Machine

namespace Sys2Proof.Claims
open Sys2Proof.Machine

/-! ## Where a fragment goes whose active lanes exit -/

/-- The fragment that goes on once a fragment's active lanes have exited: its mask stack's top entry, or none. -/
theorem Fragment.settle_exit {g : Fragment} {live : Mask} (h : g.active &&& live = 0) :
    (g.stack = [] → g.settle live = none) ∧
    ∀ e rest, g.stack = e :: rest → (∀ x ∈ e :: rest, x.mask &&& live = x.mask ∧ x.mask ≠ 0) →
      g.settle live = some { g with pc := e.pc, active := e.mask, stack := rest } := by
  refine ⟨fun hs => by simp [Fragment.settle, hs, h], fun e rest hs hm => ?_⟩
  have hmap : (g.stack.map (fun e => { e with mask := e.mask &&& live })).filter (fun e => e.mask ≠ 0) = e :: rest := by
    rw [hs, List.map_congr_left (g := id) (fun x hx => by rw [(hm x hx).1]; rfl), List.map_id, List.filter_eq_self]
    exact fun x hx => by simpa using (hm x hx).2
  unfold Fragment.settle
  simp only [hmap, h, if_true]

/-- A fragment that stands in a floe and is changed without changing its identity. -/
theorem frag_updFrag_self {fl : Floe} {id : Nat} {g : Fragment → Fragment} (hg : ∀ x, (g x).id = x.id) (h : ∃ x ∈ fl.frags, x.id = id) :
    (fl.updFrag id g).frag id = g (fl.frag id) := by
  obtain ⟨x, hx⟩ := Option.isSome_iff_exists.mp (List.find?_isSome (p := fun x : Fragment => decide (x.id = id)).mpr (by simpa using h))
  have hp : x.id = id := by simpa using List.find?_some hx
  have hc : (fun y : Fragment => decide (y.id = id)) ∘ (fun y => if y.id = id then g y else y) = fun y => decide (y.id = id) := by
    funext y
    by_cases hy : y.id = id <;> simp [hy, hg]
  simp only [Floe.frag, Floe.updFrag, List.find?_map, hc, hx, Option.map_some, Option.getD_some, if_pos hp]

/-- The other fragments keep their place, lanes and wait when one is dropped. -/
theorem frag_dropFrag {fl : Floe} {id j : Nat} {g : Fragment → Fragment} (hg : ∀ x, (g x).id = x.id) (h : j ≠ id) :
    ((fl.updFrag id g).dropFrag id).frag j = { fl.frag j with owes := (fl.frag j).owes.filter (fun y => y ≠ id) } := by
  have hp : ((fun y : Fragment => decide (y.id = j)) ∘ fun x : Fragment => { x with owes := x.owes.filter (fun y => y ≠ id) }) =
      fun y => decide (y.id = j) := rfl
  have hq (fs : List Fragment) : ((fs.map (fun x => if x.id = id then g x else x)).filter (fun x => x.id ≠ id)).find? (fun y => decide (y.id = j)) =
      fs.find? (fun y => decide (y.id = j)) := by
    induction fs with
    | nil => rfl
    | cons x fs ih =>
      by_cases hx : x.id = id
      · rw [List.map_cons, if_pos hx, List.filter_cons_of_neg (by simp [hg, hx]), ih,
          List.find?_cons_of_neg (by simpa [hx] using h.symm)]
      · rw [List.map_cons, if_neg hx, List.filter_cons_of_pos (by simpa using hx), List.find?_cons, List.find?_cons, ih]
  simp only [Floe.frag, Floe.dropFrag, Floe.updFrag, List.find?_map, hp, hq]
  cases fl.frags.find? (fun y => decide (y.id = j)) <;> rfl

/-- The issuing floe once its fragment's active lanes have exited. -/
def exitedFloe (s : State) : Floe := ({ s.fl with live := liveAfter s } : Floe).goTo s.cur.frag (behind s 4) s.now
theorem exitedFloe_frame (s : State) : exitedFloe s =
    { s.fl with live := liveAfter s, frags := (exitedFloe s).frags, st := (exitedFloe s).st, readyAt := (exitedFloe s).readyAt } :=
  Floe.goTo_frame ..
/-- The state in which the issuing fragment's active lanes have exited. -/
def exited (s : State) : State := s.updFl (fun _ => exitedFloe s)
theorem exited_fl (s : State) : (exited s).fl = exitedFloe s := State.updFloe_floe_self ..

/-- `EXIT` leaves the floe without its lanes; one without any retires. -/
theorem exec_exit {s : State} (h : mayExit s) :
    exec .exit s = .next (if liveAfter s = 0 then (exited s).retireFloe s.cur.floe else exited s) := by
  have htrap : (s.fg.handler && !s.fl.recs.isEmpty) = false := by
    rcases h with h | h <;> simp [h]
  have hs : (s.updFl (fun fl => { fl with live := fl.live &&& ~~~(fl.frag s.cur.frag).active })).retireFrag s.cur.floe s.cur.frag 4 =
      exited s := State.updFl_updFl ..
  have hl : (exited s).fl.live = liveAfter s := by rw [exited_fl, exitedFloe_frame]
  show execExit s = _
  unfold execExit floeOp
  simp only [htrap, hs, hl, Bool.false_eq_true, if_false, conclude]

/-- The active lanes of the issuing fragment are not live afterwards. -/
theorem active_liveAfter (s : State) : s.fg.active &&& liveAfter s = 0 := by
  unfold liveAfter
  ext i
  simp +contextual

/-- The issuing fragment ends with an empty mask stack, and else goes on at the stack's top entry. -/
theorem exitedFloe_frags {s : State} (h : Here s) :
    (s.fg.stack = [] → (exitedFloe s).frags = (((s.fl.updFrag s.cur.frag
      (fun g => { g with pc := behind s 4, wait := .none, rb := none, left := none })).dropFrag s.cur.frag)).frags) ∧
    ∀ e rest, s.fg.stack = e :: rest → s.fl.frags = [s.fg] → (∀ x ∈ e :: rest, x.mask &&& liveAfter s = x.mask ∧ x.mask ≠ 0) →
      (exitedFloe s).frags = [{ s.fg with pc := e.pc, active := e.mask, stack := rest, wait := .none, rb := none, left := none }] := by
  have hfrag : (({ s.fl with live := liveAfter s } : Floe).updFrag s.cur.frag
      (fun g => { g with pc := behind s 4, wait := .none, rb := none, left := none })).frag s.cur.frag =
      { s.fg with pc := behind s 4, wait := .none, rb := none, left := none } := frag_updFrag_self (fun _ => rfl) h
  unfold exitedFloe Floe.goTo
  simp only [hfrag, Floe.settleState_frags]
  obtain ⟨hnone, hsome⟩ := Fragment.settle_exit (g := { s.fg with pc := behind s 4, wait := .none, rb := none, left := none })
    (active_liveAfter s)
  refine ⟨fun hs => ?_, fun e rest hs hf hm => ?_⟩
  · rw [show Floe.live _ = liveAfter s from rfl, hnone hs]; rfl
  · rw [show Floe.live _ = liveAfter s from rfl, hsome e rest hs hm]
    have hid : s.fg.id = s.cur.frag := by
      obtain ⟨g, hg, hid⟩ := h
      rw [hf, List.mem_singleton] at hg
      rw [← hg, hid]
    simp [Floe.mergeAt, Floe.updFrag, hf, hid, Floe.frag]

/-- `EXIT` where other lanes live. -/
theorem lanesExited_exited {s : State} (h : Here s) : LanesExited s (exited s) where
  own := OnlyFloe.updFloe s s.cur.floe (fun _ => exitedFloe s)
  floe := by rw [exited_fl]; exact exitedFloe_frame s
  ends := fun hs => by
    have hfr := (exitedFloe_frags h).1 hs
    rw [exited_fl]
    refine ⟨fun g hg => ?_, fun j hj => ?_⟩
    · rw [hfr] at hg
      obtain ⟨x, hx, rfl⟩ := List.mem_map.mp hg
      simpa using (List.mem_filter.mp hx).2
    · have hx : (exited s).frag s.cur.floe j = { s.frag s.cur.floe j with owes := (s.frag s.cur.floe j).owes.filter (fun y => y ≠ s.cur.frag) } := by
        show (exited s).fl.frag j = _
        rw [exited_fl]
        show ((exitedFloe s).frags.find? _).getD _ = _
        rw [hfr]
        exact frag_dropFrag (fun _ => rfl) hj
      rw [hx]
      exact ⟨rfl, rfl, rfl⟩
  pops := fun e rest hs hf hm => by rw [exited_fl]; exact (exitedFloe_frags h).2 e rest hs hf hm

/-- No other floe that is the floe's buddy waits in `FUSE`. -/
theorem exited_buddy {s : State} {g : Nat} {fl : Floe} (hfl : (exited s).floe s.cur.floe = fl)
    (hw : fl.width = s.fl.width) (hb : fl.base = s.fl.base) (hbud : ∀ g, IsBuddy s g → ¬ fusing s g)
    (hg : (exited s).buddy s.cur.floe = some g) (hgf : g ≠ s.cur.floe) : ∀ x ∈ ((exited s).floe g).frags, x.wait ≠ .fuse := by
  have hfg : (exited s).floe g = s.floe g := Tab.getD_put_ne _ _ _ hgf
  have hmem := List.mem_of_find?_eq_some hg
  have hrange := List.find?_some hg
  simp only [hfl, hfg, hw, hb, Bool.and_eq_true, decide_eq_true_eq] at hrange
  obtain ⟨hkey, hlive⟩ := List.mem_filter.mp hmem
  have hblock : blockOf g = blockOf s.cur.floe := by simpa using (List.mem_filter.mp hkey).2
  have hun : s.unretired g = true := by
    unfold State.unretired at hlive ⊢
    rwa [show (exited s).floes.get? g = s.floes.get? g from Tab.get?_put_ne _ _ hgf] at hlive
  intro x hx hwait
  exact hbud g ⟨hun, hblock, hrange.2, hrange.1⟩ ⟨x, hfg ▸ hx, hwait⟩

theorem getD_filter_of_not {α : Type} {t : Tab α} {p : Nat × α → Bool} {k : Nat} {d : α} (h : ∀ x, p (k, x) = false) :
    Tab.getD (t.filter p) k d = d := by
  have hn : Tab.get? (t.filter p) k = none := by
    induction t with
    | nil => rfl
    | cons e t ih =>
      by_cases hk : e.1 = k
      · rw [List.filter_cons_of_neg (by rw [← hk] at h; simpa using h e.2), ih]
      · by_cases hp : p e = true
        · rw [List.filter_cons_of_pos hp]; simpa [Tab.get?, hk] using ih
        · rw [List.filter_cons_of_neg hp, ih]
  rw [Tab.getD, hn]; rfl

/-- No queue of a floe's lanes holds an entry once they are gone. -/
theorem qent_withoutLanes {b : Block} {fl : Floe} {x q : Nat} (hlo : fl.base ≤ x) (hhi : x < fl.base + fl.width) (hq : q < 16) :
    (b.withoutLanes fl).qent x q = [] := by
  have hx : (x * 16 + q) / 16 = x := by omega
  have h : (b.withoutLanes fl).queueAt x q = ThreadQueue.empty := getD_filter_of_not fun _ => by simp [hx, hlo, hhi]
  rw [Block.qent, h]; rfl

/-- The floe retires with its last lanes. -/
theorem retired_exited {s : State} (hc : s.fl.cmds = []) (hs : s.blk.streams = []) (hstand : s.fl.standing = 0) (hbar : ∀ n < 16, arrivals s n = 0)
    (hcoh : s.lau.cohortsOf s.blk.id = []) (hbud : ∀ g, IsBuddy s g → ¬ fusing s g) :
    Retired s ((exited s).retireFloe s.cur.floe) := by
  obtain ⟨fr, st, ra, hx⟩ : ∃ fr st ra, exitedFloe s = { s.fl with live := liveAfter s, frags := fr, st := st, readyAt := ra } :=
    ⟨_, _, _, exitedFloe_frame s⟩
  have hfl : (exited s).floe s.cur.floe = { s.fl with live := liveAfter s, frags := fr, st := st, readyAt := ra } :=
    (exited_fl s).trans hx
  rw [State.retireFloe_idle (s := exited s) (f := s.cur.floe) (by rw [hfl]; exact hc) hs (by rw [hfl]; exact hstand) hbar hcoh
    (fun g hg hgf => exited_buddy hfl rfl rfl hbud hg hgf), hfl]
  change Retired s ((exited s).writeBoth s.cur.floe _ (s.blk.withoutLanes s.fl))
  generalize hfg : Floe.gone _ = fl
  have htf : ((exited s).writeBoth s.cur.floe fl (s.blk.withoutLanes s.fl)).fl = fl := State.writeBoth_floe_self ..
  have htb : ((exited s).writeBoth s.cur.floe fl (s.blk.withoutLanes s.fl)).blk = s.blk.withoutLanes s.fl :=
    State.writeBoth_block_self ..
  exact {
    rest := rfl
    floe := by rw [show State.fl _ = fl from htf, ← hfg]; rfl
    regs := by rw [show State.blk _ = _ from htb]; exact ⟨rfl, rfl, rfl⟩
    gone := fun x hlo hhi q hq => by
      rw [show State.blk _ = _ from htb]
      exact qent_withoutLanes hlo hhi hq }

/-- Settles O44: the fragment's active lanes are not live after `EXIT`, so that R23 ends it or pops its mask stack; with no lane left the
floe retires, and with nothing outstanding nothing else notices. -/
theorem lanesExit : Obligations.LanesExit := by
  refine ⟨fun s hm hl hh => ⟨_, exec_exit hm, ?_⟩, fun s hm hl _ _ hc hs hstand _ hbar hcoh hbud => ⟨_, exec_exit hm, ?_⟩⟩
  · rw [if_neg hl]
    exact lanesExited_exited hh
  · rw [if_pos hl]
    refine retired_exited hc ?_ hstand hbar hcoh hbud
    cases hx : s.blk.streams with
    | nil => rfl
    | cons e rest => exact (hs e.1 e.2 (by rw [hx]; simp [Tab.get?])).elim

end Sys2Proof.Claims

/-! # What a core reads from its own copy of a line (R217, R220, R221, R400) -/
namespace Sys2Proof.Machine

theorem ofBytes_toBytes (n : Nat) : ∀ v, ofBytes (toBytes n v) = v % 256 ^ n := by
  induction n with
  | zero => intro v; simp [toBytes, ofBytes, Nat.mod_one]
  | succ n ih =>
    intro v
    have h8 : (2 : Nat) ^ 8 = 256 := rfl
    rw [toBytes, ofBytes, ih, BitVec.toNat_ofNat, h8, pow_succ', Nat.mod_mul]

/-- The bytes of a line are those of its number. -/
theorem Line.bytes_eq_toBytes (x : Line) (off n : Nat) : Line.bytes x off n = toBytes n (x.toNat / 256 ^ off) := by
  refine List.ext_getElem? (fun k => ?_)
  rw [toBytes_get?, Line.bytes, List.getElem?_map, upTo]
  by_cases hk : k < n
  · rw [List.getElem?_range hk, if_pos hk, Option.map_some]
    congr 1
    apply BitVec.eq_of_toNat_eq
    rw [Line.byte_toNat, BitVec.toNat_ofNat, Nat.div_div_eq_div_mul, ← pow_add]
  · rw [if_neg hk, List.getElem?_eq_none (by simpa using hk), Option.map_none]

theorem chunksOf_line {va n : Nat} (hn : 0 < n) (h : va % 128 + n ≤ 128) : chunksOf va n = [(va, n)] := by
  obtain ⟨n, rfl⟩ := Nat.exists_eq_add_one.mpr hn
  have hm : Nat.min (n + 1) (128 - va % 128) = n + 1 := Nat.min_eq_left (by omega)
  rw [chunksOf, chunks, if_neg (by omega)]
  simp only [hm, Nat.sub_self]
  cases n <;> rfl

end Sys2Proof.Machine

namespace Sys2Proof.Claims
open Sys2Proof.Machine

theorem lineValue_lt (x : Line) (off n : Nat) : lineValue x off n < 256 ^ n := by
  rw [pow_256_eq]; exact Nat.mod_lt _ (by positivity)
theorem ofBytes_bytes (x : Line) (off n : Nat) : ofBytes (Line.bytes x off n) = lineValue x off n := by
  rw [Line.bytes_eq_toBytes, ofBytes_toBytes, lineValue, pow_256_eq, pow_256_eq]
theorem pbNat_toBytes (n v : Nat) : pbNat ((toBytes n v).map (fun b => (b, false))) = v % 256 ^ n := by
  rw [pbNat, List.map_map, show (fun x : PByte => x.1) ∘ (fun b : Byte => (b, false)) = id from rfl, List.map_id, ofBytes_toBytes]

/-- A read of a line whose copy in the core's L1 serves it: the copy's bytes, and nothing changes. -/
theorem readPlace_hit {s : State} {f pa key n : Nat} {copy : L1Line} (h : Hit s f (pa / 128) key copy) :
    s.readPlace (s.reqNow (floeCore f)) f (.phys pa key false) n true = ⟨lineValue copy.data (pa % 128) n, false, s⟩ := by
  obtain ⟨hget, hkey, hrts, hgts, hpoison⟩ := h
  have hhit : (s.core (floeCore f)).l1Hit (s.core (floeCore f)).ctime (s.floe f).floor (pa / 128) key = some copy := by
    simp [Core.l1Hit, hget, hkey, l1Valid, hrts, hgts]
  simp [State.readPlace, State.coreRead, State.reqNow, hhit, ofBytes_bytes, hpoison]

/-- The bytes that a floe's core reads, none of them poisoned. -/
def plainly (n v : Nat) : List PByte := (toBytes n v).map (fun b => (b, false))
theorem plainly_clean (n v : Nat) : (plainly n v).any (fun x => x.2) = false := by simp [plainly]

theorem held_covers {k : Core} {asid va : Nat} {x : Xlat} (h : k.held asid va = some x) : x.va ≤ va ∧ va < x.va + x.len := by
  have hcov {l : List Xlat} {y : Xlat} (hy : l.find? (fun x => x.asid = asid && x.va ≤ va && va < x.va + x.len) = some y) :
      y.va ≤ va ∧ va < y.va + y.len := by
    have := List.find?_some hy
    simp only [Bool.and_eq_true, decide_eq_true_eq] at this
    exact ⟨this.1.2, this.2⟩
  unfold Core.held at h
  split at h
  · rename_i y hy
    obtain rfl : y = x := Option.some.inj h
    exact hcov hy
  · exact hcov h

/-- A plain load by a unit of a core: the core's own copy of the line serves it. -/
theorem scopedLoad_exec {s : State} {f va n value : Nat} (h : CoreHolds s 3 f va n value) :
    s.scopedLoad f .exec va n (((s.core (floeCore f)).held (s.asidOf (blockOf f)) va).toList) = .ok (plainly n value) s ∧ value < 256 ^ n := by
  obtain ⟨⟨hn, hline, hva, hap⟩, x, hheld, pa, copy, hright, hlt, hne, hnc, hpa, hpl, hfirn, hhit, hval⟩ := h
  have hcov : (decide (x.va ≤ va) && decide (va < x.va + x.len)) = true := by simpa using held_covers hheld
  have hplace : s.unitPlace (s.asidOf (blockOf f)) .exec va [x] = .ok (.phys pa (fieldN x.attr 52 12) false) := by
    have hout : ¬ ((decide (2 ^ 56 ≤ va) || inAperture va) = true) := by
      have : ¬ 2 ^ 56 ≤ va := by omega
      simp only [hap, this, decide_false, Bool.or_self, Bool.false_eq_true, not_false_eq_true]
    rw [State.unitPlace, if_neg hout, State.unitWalk]
    simp only [List.find?_cons, hcov]
    simp [placeOf, AccKind.needsRead, AccKind.needsWrite, attrExec, hright, attrLtype, hlt, attrTier, hne, attrKey, attrNc, hnc, hpa]
  have hf : s.firnHolds (.phys pa (fieldN x.attr 52 12) false) = false := by
    simpa [State.firnHolds] using hfirn
  have hr : s.recordLost f (.phys pa (fieldN x.attr 52 12) false) = false := by
    simp [State.recordLost, hf]
  refine ⟨?_, hval ▸ lineValue_lt ..⟩
  rw [hheld, State.scopedLoad, chunksOf_line hn hline]
  simp only [List.foldl_cons, List.foldl_nil, Option.toList, hplace, hf, hr, readPlace_hit hhit, ← hval]
  simp [plainly]

end Sys2Proof.Claims

/-! # What the errors that strike leave (R276) -/
namespace Sys2Proof.Machine

/-- A state with another agenda and other management records to serve. -/
def State.asked (s : State) (a : List Turn) (m : List (BitVec 1024)) : State := { s with agenda := a, mgmt := m }
/-- A change that neither reads nor writes the agenda and the management records. -/
def Unasked (g : State → State) : Prop := ∀ s a m, g (s.asked a m) = (g s).asked a m

/-- A line of a core's L1 is lost: its copy goes (R276). -/
def State.l1Lost (s : State) (c ln : Nat) : State :=
  if ((s.core c).l1.get? ln).isSome then
    let s1 := s.updCore c (fun k => { k with l1 := k.l1.del ln })
    { s1 with corrected := s1.corrected + 1 }
  else s

namespace Unasked

theorem comp {g k : State → State} (hg : Unasked g) (hk : Unasked k) : Unasked (fun s => k (g s)) := fun s a m => by
  show k (g (s.asked a m)) = _
  rw [hg, hk]
/-- The choice between two such changes, by what neither agenda nor records show. -/
theorem ite {p : State → Prop} [∀ s, Decidable (p s)] {g k : State → State} (hp : ∀ s a m, p (s.asked a m) = p s) (hg : Unasked g)
    (hk : Unasked k) : Unasked (fun s => if p s then g s else k s) := fun s a m => by
  show (if p (s.asked a m) then g (s.asked a m) else k (s.asked a m)) = (if p s then g s else k s).asked a m
  simp only [hp, hg s a m, hk s a m]
  split <;> rfl
theorem same : Unasked (fun s => s) := fun _ _ _ => rfl
theorem choose {p : Prop} [Decidable p] {g k : State → State} (hg : Unasked g) (hk : Unasked k) :
    Unasked (fun s => if p then g s else k s) := ite (p := fun _ => p) (fun _ _ _ => rfl) hg hk
theorem foldl {α : Type} {g : State → α → State} (hg : ∀ x, Unasked (fun s => g s x)) (l : List α) : Unasked (fun s => l.foldl g s) := by
  induction l with
  | nil => exact fun _ _ _ => rfl
  | cons x l ih => exact (hg x).comp ih

theorem condemn (fr reason : Nat) : Unasked (fun s => s.condemn fr reason) :=
  ite (fun _ _ _ => rfl) (fun _ _ _ => rfl) (fun _ _ _ => rfl)
theorem setMem (pa : Nat) (bs : List Byte) : Unasked (fun s => s.setMem pa bs) := by
  induction bs generalizing pa with
  | nil => exact fun _ _ _ => rfl
  | cons b bs ih => exact fun s a m => ih (pa + 1) (s.setMemByte pa b) a m
theorem setMemPoison (ln : Nat) (p : BitVec 32) : Unasked (fun s => s.setMemPoison ln p) := fun _ _ _ => rfl
theorem updBlock (b : Nat) (g : Block → Block) : Unasked (fun s => s.updBlock b g) := fun _ _ _ => rfl
theorem updCore (c : Nat) (g : Core → Core) : Unasked (fun s => s.updCore c g) := fun _ _ _ => rfl
theorem updDie (d : Nat) (g : Die → Die) : Unasked (fun s => s.updDie d g) := fun _ _ _ => rfl
theorem updLaunch (l : Nat) (g : Launch → Launch) : Unasked (fun s => s.updLaunch l g) := fun s a m => by
  show State.updLaunch _ _ _ = State.asked (s.updLaunch l g) a m
  unfold State.updLaunch
  rw [show (s.asked a m).launches = s.launches from rfl]
  split <;> rfl

theorem lineLost (ln : Nat) : Unasked (fun s => s.lineLost ln) := fun s a m => condemn (s.lineHome ln / 512) 2 (s.setMemPoison ln (BitVec.allOnes 32)) a m
theorem lineCorrected (ln : Nat) : Unasked (fun s => s.lineCorrected ln) := by
  refine ite (fun _ _ _ => rfl) (fun s a m => ?_) (fun _ _ _ => rfl)
  exact condemn (s.lineHome ln / 512) 1
    { s with frameErrs := s.frameErrs.put (s.lineHome ln / 512) (s.time :: (s.frameErrs.getD (s.lineHome ln / 512) []).filter (s.within 24))
             corrected := s.corrected + 1 } a m
theorem countUp : Unasked (fun s => { s with corrected := s.corrected + 1 }) := fun _ _ _ => rfl
theorem putKey (ln key : Nat) : Unasked (fun s => { s with memKeys := s.memKeys.put (s.lineHome ln) key }) := fun _ _ _ => rfl
theorem stackFlush (d ln : Nat) : Unasked (fun s => s.stackFlush d ln) := fun s a m => by
  show State.stackFlush _ _ _ = State.asked (s.stackFlush d ln) a m
  unfold State.stackFlush
  rw [show (s.asked a m).die d = s.die d from rfl]
  cases (s.die d).stack.get? ln with
  | none => rfl
  | some x =>
    by_cases hx : x.dirty = true
    · simp only [hx, if_true]
      exact (((setMem (ln * 128) (Line.bytes x.data 0 128)).comp (setMemPoison ln x.poison)).comp (putKey ln x.key)).comp
        (updDie d (fun e => { e with stack := e.stack.put ln { x with dirty := false } })) s a m
    · simp only [hx]
      rfl
theorem unshare (d ln : Nat) : Unasked (fun s => s.unshare d ln) := ite (fun _ _ _ => rfl) (fun _ _ _ => rfl) (fun _ _ _ => rfl)
theorem stackDrop (d ln : Nat) : Unasked (fun s => s.stackDrop d ln) :=
  ((stackFlush d ln).comp (updDie d (fun e => { e with stack := e.stack.del ln }))).comp (unshare d ln)
theorem stackLost (d ln : Nat) : Unasked (fun s => s.stackLost d ln) := fun s a m => by
  show State.stackLost _ _ _ = State.asked (s.stackLost d ln) a m
  unfold State.stackLost
  rw [show (s.asked a m).die d = s.die d from rfl]
  cases (s.die d).stack.get? ln with
  | none => rfl
  | some x =>
    by_cases hx : x.dirty = true
    · simp only [hx]
      rfl
    · simp only [hx]
      exact (stackDrop d ln).comp countUp s a m
theorem shelfLost (l key : Nat) : Unasked (fun s => s.shelfLost l key) := fun s a m => by
  show State.shelfLost _ _ _ = State.asked (s.shelfLost l key) a m
  unfold State.shelfLost
  rw [show (s.asked a m).launch l = s.launch l from rfl]
  cases (s.launch l).replicas.get? key with
  | none => rfl
  | some r =>
    refine ite (p := fun s => (r.slots.isEmpty && r.poison = 0 &&
      r.data = fillLine r.ltype (BitVec.ofNat 1024 (s.peek (key % 2 ^ 46 * 128) 128))) = true) (fun _ _ _ => rfl)
      ((updLaunch l _).comp countUp) (updLaunch l _) s a m
theorem coreLost (c : Nat) (hit : Bool) (g : Core → Core) : Unasked (fun s => s.coreLost c hit g) :=
  choose (fun _ _ _ => rfl) same
theorem blockLost (b : Nat) (hit : Bool) (g : Block → Block) : Unasked (fun s => s.blockLost b hit g) :=
  ite (fun _ _ _ => rfl) (fun _ _ _ => rfl) (fun _ _ _ => rfl)
theorem firnLost (ln : Nat) : Unasked (fun s => s.firnLost ln) :=
  ite (fun _ _ _ => rfl) (fun _ _ _ => rfl) (ite (fun _ _ _ => rfl) (fun _ _ _ => rfl) (setMemPoison ln _))

theorem l1Lost (c ln : Nat) : Unasked (fun s => s.l1Lost c ln) :=
  ite (p := fun s => ((s.core c).l1.get? ln).isSome = true) (fun _ _ _ => rfl)
    ((updCore c (fun k => { k with l1 := k.l1.del ln })).comp countUp) (fun _ _ _ => rfl)
theorem strike_l1 (s : State) (c ln : Nat) : s.strike (.l1 c ln) = some (s.l1Lost c ln) := by
  show (if _ then _ else _) = some (if _ then _ else _)
  split <;> rfl

/-- An error that strikes neither reads nor writes agenda and records. -/
theorem strike (s : State) (u : Upset) (a : List Turn) (m : List (BitVec 1024)) :
    (s.asked a m).strike u = (s.strike u).map (fun t => t.asked a m) := by
  cases u with
  | shadow | drainEntry | drainScale | drainAct | drainQuant | drainWrite => rfl
  | corrected | ahead => rfl
  | register b w => exact congrArg some (blockLost b _ _ s a m)
  | spad b w => exact congrArg some (blockLost b _ _ s a m)
  | l1 c ln =>
    rw [strike_l1, strike_l1]
    exact congrArg some (l1Lost c ln s a m)
  | tile c n e => exact congrArg some (coreLost c _ _ s a m)
  | staging c n => exact congrArg some (coreLost c _ _ s a m)
  | code c k w => exact congrArg some (choose (updCore c _) same s a m)
  | shelf l key => exact congrArg some (shelfLost l key s a m)
  | firn ln => exact congrArg some (firnLost ln s a m)
  | stack d ln => exact congrArg some (stackLost d ln s a m)
  | dram ln ok => exact congrArg some (choose (choose (lineCorrected ln) (lineLost ln)) same s a m)
  | failed reason frs => exact congrArg some (choose (foldl (fun fr => condemn fr reason) frs) same s a m)

/-- The errors that strike neither read nor write agenda and records. -/
theorem struck : Unasked State.struck := fun s a m => by
  refine foldl (g := fun s u => match s.strike u with
    | some t => t
    | none => { s with upsets := s.upsets ++ [u] }) (fun u s a m => ?_) s.upsets { s with upsets := [] } a m
  simp only [strike]
  cases s.strike u <;> rfl

end Unasked

/-- The errors that strike leave the management records. -/
theorem State.struck_mgmt (s : State) : s.struck.mgmt = s.mgmt := by
  have h : s.struck = s.struck.asked s.agenda s.mgmt := Unasked.struck s s.agenda s.mgmt
  have hm := congrArg State.mgmt h
  exact hm

end Sys2Proof.Machine

/-! # The turns of a step (R26, R80, R169, R188, R268, R299, R400) -/
namespace Sys2Proof.Claims
open Sys2Proof.Machine

/-- A booted package runs the first turn of its agenda. -/
theorem step_of_nextTurn {s : State} {t : Turn} {ts : List Turn} (h : NextTurn s t ts) : step s = runTurn t (awake s ts) := by
  obtain ⟨hbad, hboot, hag⟩ := h
  simp only [step, State.turn, hbad, hboot, hag]
  rfl
/-- Time passes and errors strike alike whatever is on the agenda. -/
theorem awake_agenda (s : State) (a ts : List Turn) : awake { s with agenda := a } ts = awake s ts := by
  have h : ({ s with agenda := a } : State).passTime = s.passTime.asked a s.passTime.mgmt := by
    have hm : s.passTime.mgmt = s.mgmt := State.struck_mgmt _
    rw [hm]
    exact Unasked.struck { s with now := s.now + 1, cycle := s.cycle + Config.freeCycles s.now, time := s.time + Config.freeNs s.now } a s.mgmt
  show { State.passTime { s with agenda := a } with agenda := ts } = _
  rw [h]
  rfl

/-- With no request for firmware, an issue that finds a request of pre-emption is that issue. -/
theorem issueAsHalted_idle {u : State} {f id : Nat} (h : u.mgmt = []) : u.issueAsHalted f id = u.issueTurn f id := by
  have hp : execPreempt .mgmt u = .next u := by
    simp [execPreempt, State.serve, State.callOf, h]
  unfold State.issueAsHalted
  simp [hp]

/-! ## The fragment that issues -/

theorem AtBoundary.atBoundary {s : State} {f id : Nat} (h : AtBoundary s f id) : s.atBoundary f id = true := by
  obtain ⟨fl, hfl, hret, hres, hpark, hhold⟩ := h.floe
  obtain ⟨g, hg, hid, hrec⟩ := h.frag
  obtain ⟨hreq, hhalt⟩ := h.core
  have hfloe : s.floe f = fl := by simp [State.floe, Tab.getD, hfl]
  have hany : (s.floe f).frags.any (fun g => g.id = id && (s.floe f).mayIssue g) = true := by
    refine List.any_eq_true.mpr ⟨g, hg, ?_⟩
    rcases hrec with hrec | hrec <;> simp [Floe.mayIssue, hid, hrec]
  unfold State.atBoundary
  simp only [hany, Bool.and_true]
  simp [State.unretired, hfl, hret, hres, hfloe, hpark, hhold, Core.stopped, hreq, hhalt, State.launchOf, h.running]

theorem Core.halfword_lt (k : Core) (a : Nat) : k.halfword a < 0x10000 := by
  unfold Core.halfword
  have h1 := (((k.slot (a / 4096 % 64)).bytes.getD (a % 4096) 0)).isLt
  have h2 := (((k.slot (a / 4096 % 64)).bytes.getD (a % 4096 + 1) 0)).isLt
  simp only
  omega

/-- A landed word that decodes is fetched, and the fetched word decodes alike. -/
theorem fetch_of_landed {k : Core} {pc n : Nat} {i : Instr} (h : Landed k pc n) (hd : decode (wordsAt k pc) = .ok (i, n)) :
    ∃ w len, k.fetch pc false = .word w len ∧ decodeWord w len = .ok i := by
  obtain ⟨hland, hclean, hslot⟩ := h
  have hland0 := hland 0
  have hclean0 := hclean 0
  by_cases heven : k.halfword pc % 2 = 0
  · have hi : decode16 (k.halfword pc) = .ok i ∧ n = 1 := by
      simp only [decode, wordsAt, heven, if_true] at hd
      cases h16 : decode16 (k.halfword pc) with
      | error r => simp [h16, Except.map] at hd
      | ok j => simp only [h16, Except.map, Except.ok.injEq, Prod.mk.injEq] at hd; exact ⟨by rw [hd.1], hd.2.symm⟩
    obtain ⟨hi, rfl⟩ := hi
    refine ⟨k.halfword pc, 2, ?_, ?_⟩
    · unfold Core.fetch
      simp [show k.landed pc = true from hland0 (by omega), show k.badHalf pc = false from hclean0 (by omega), heven]
    · simp [decodeWord, decode, heven, hi, Except.map]
  · have hi : decode32 (k.halfword pc + 0x10000 * k.halfword (pc + 2)) = .ok i ∧ n = 2 := by
      simp only [decode, wordsAt, heven, if_false, Nat.mod_eq_of_lt (Core.halfword_lt k _)] at hd
      cases h32 : decode32 (k.halfword pc + 0x10000 * k.halfword (pc + 2)) with
      | error r => simp [h32, Except.map] at hd
      | ok j => simp only [h32, Except.map, Except.ok.injEq, Prod.mk.injEq] at hd; exact ⟨by rw [hd.1], hd.2.symm⟩
    obtain ⟨hi, rfl⟩ := hi
    refine ⟨k.halfword pc + 0x10000 * k.halfword (pc + 2), 4, ?_, ?_⟩
    · unfold Core.fetch
      simp [show k.landed pc = true from hland0 (by omega), show k.badHalf pc = false from hclean0 (by omega), heven,
        show k.landed (pc + 2) = true from hland 1 (by omega), show k.badHalf (pc + 2) = false from hclean 1 (by omega), hslot rfl]
    · have h0 := Core.halfword_lt k pc
      have h1 := Core.halfword_lt k (pc + 2)
      rw [decodeWord, if_neg (by decide), show (k.halfword pc + 0x10000 * k.halfword (pc + 2)) % 0x10000 = k.halfword pc by omega,
        show (k.halfword pc + 0x10000 * k.halfword (pc + 2)) / 0x10000 = k.halfword (pc + 2) by omega]
      simp [decode, heven, Nat.mod_eq_of_lt h0, Nat.mod_eq_of_lt h1, hi, Except.map]

/-! ## What issuing changes (R26, R169) -/

theorem Floe.expire_frame (fl : Floe) (id : Nat) : fl.expire id = { fl with expired := (fl.expire id).expired } := by
  unfold Floe.expire
  split <;> rfl
theorem Floe.expires_frame (l : List Nat) (fl : Floe) :
    l.foldl (fun fl i => fl.expire i) fl = { fl with expired := (l.foldl (fun fl i => fl.expire i) fl).expired } := by
  induction l generalizing fl with
  | nil => rfl
  | cons i l ih =>
    rw [List.foldl_cons, ih, Floe.expire_frame]
/-- A fragment of a floe that issues: its wait count and its debts of a `YIELD`. -/
def countedFrag (fl : Floe) (id : Nat) (g : Fragment) : Fragment :=
  if g.id = id then { g with waitCount := 0, owes := [] }
  else { g with
    waitCount := if g.id ∈ (fl.readyFrags.map (fun g => g.id)).filter (fun i => i ≠ id) then g.waitCount + 1 else g.waitCount
    owes := g.owes.filter (fun i => i ≠ id) }
/-- Issuing moves wait counts, debts and expiries. -/
theorem Floe.issues_frame (fl : Floe) (id : Nat) :
    fl.issues id = { fl with frags := fl.frags.map (countedFrag fl id), expired := (fl.issues id).expired } :=
  Floe.expires_frame ..
/-- What a fragment's wait count and debts do not show. -/
theorem countedFrag_same (fl : Floe) (id : Nat) (g : Fragment) :
    countedFrag fl id g = { g with waitCount := (countedFrag fl id g).waitCount, owes := (countedFrag fl id g).owes } := by
  unfold countedFrag
  split <;> rfl
theorem frag_issues (fl : Floe) (id j : Nat) :
    ((fl.issues id).frag j) = { fl.frag j with waitCount := ((fl.issues id).frag j).waitCount, owes := ((fl.issues id).frag j).owes } := by
  have hp : (fun x : Fragment => decide (x.id = j)) ∘ countedFrag fl id = fun x => decide (x.id = j) := by
    funext x
    simp only [Function.comp, show (countedFrag fl id x).id = x.id by rw [countedFrag_same]]
  have hf : (fl.issues id).frag j = ((fl.frags.find? (fun x => decide (x.id = j))).map (countedFrag fl id)).getD Fragment.reset := by
    rw [Floe.issues_frame, ← hp, ← List.find?_map]
    rfl
  rw [hf]
  unfold Floe.frag
  cases fl.frags.find? (fun x => decide (x.id = j)) with
  | none => rfl
  | some g => exact countedFrag_same fl id g

/-- The state in which a fragment that waits for nothing issues. -/
theorem issuing_issuing {u : State} {f id : Nat} (h : (u.frag f id).wait = .none) : Issuing u f id (u.issuing f id) := by
  have hi : u.issuing f id = { u with cur := ⟨f, id, floeCore f, u.cur.hart, u.cur.halt⟩ }.updFloe f (fun fl => { fl.issues id with age := u.now }) := by
    unfold State.issuing
    rw [if_pos h]
  have hfloe : (u.issuing f id).floe f = { (u.floe f).issues id with age := u.now } := by
    rw [hi]; exact State.updFloe_floe_self ..
  exact {
    rest := by rw [hi]; rfl
    cur := by rw [hi]; exact ⟨rfl, rfl, rfl, rfl, rfl⟩
    floes := fun g hg => by rw [hi]; exact Tab.get?_put_ne _ _ hg
    floe := by rw [hfloe, Floe.issues_frame]
    frags := fun j => by
      have hj : (u.issuing f id).frag f j = ((u.floe f).issues id).frag j := by
        show ((u.issuing f id).floe f).frag j = _
        rw [hfloe]; rfl
      rw [hj, frag_issues]
      exact ⟨rfl, rfl, rfl, rfl, rfl⟩ }

/-! ## How a turn ends -/

theorem heldAt_iff (t : State) (f id : Nat) : t.heldAt f id = true ↔ heldBackAt t f id := by
  unfold State.heldAt heldBackAt
  cases (t.frag f id).wait <;> simp [WaitFor.unissued]

/-- An issue turn ends with what its instruction answers, or puts the counts back. -/
theorem ends_afterIssue (u : State) (f id : Nat) (o : Host.Outcome State Fault Refusal) : Ends u f id o (u.afterIssue f id o) := by
  refine ⟨fun t ht hheld => ⟨t.updFloe f (fun fl => Floe.notIssued (u.floe f) fl), ?_, ?_⟩, fun hfree => ?_⟩
  · rw [ht, State.afterIssue, if_pos ((heldAt_iff t f id).mpr hheld)]
  · exact ⟨rfl, fun g hg => Tab.get?_put_ne _ _ hg, State.updFloe_floe_self ..⟩
  · cases o with
    | next t => rw [State.afterIssue, if_neg (fun hx => hfree t rfl ((heldAt_iff t f id).mp hx))]
    | fault | refused => rfl

/-! ## The turn of a fragment -/

/-- A fragment's instruction, fetched and decoded, executes. -/
theorem attempt_of_landed {u : State} {f id n : Nat} {i : Instr} (hw : (u.frag f id).wait = .none) (hfence : (u.floe f).fence = none)
    (hl : Landed (u.core (floeCore f)) (u.frag f id).pc.toNat n)
    (hd : decode (wordsAt (u.core (floeCore f)) (u.frag f id).pc.toNat) = .ok (i, n)) : u.attempt f id = exec i u := by
  obtain ⟨w, len, hf, hi⟩ := fetch_of_landed hl hd
  have hfetch : u.fetched f id = .word w len := by
    unfold State.fetched
    rw [hw]
    exact hf
  unfold State.attempt
  simp only [hfence, hfetch, hi]

/-- The turn of a fragment that may issue. -/
theorem issueTurn_of_mayIssue {u : State} {f id n : Nat} {i : Instr} (h : MayIssue u f id)
    (hl : Landed (u.core (floeCore f)) (u.frag f id).pc.toNat n)
    (hd : decode (wordsAt (u.core (floeCore f)) (u.frag f id).pc.toNat) = .ok (i, n)) :
    u.issueTurn f id = u.afterIssue f id (exec i (u.issuing f id)) := by
  obtain ⟨hst, hpick, hwait⟩ := h.active
  have hwait' : ((u.floe f).frag id).wait = .none := hwait
  have hv := issuing_issuing hwait
  have hb := h.boundary.atBoundary
  have htrap : u.dueTrap f id = false := by simp [State.dueTrap, hwait']
  have htry : u.mayTry f id = true := by simp [State.mayTry, hb, hwait', State.next, hst, hpick]
  have hcore (c : Nat) : (u.issuing f id).core c = u.core c := by rw [hv.rest]; rfl
  have hpc : ((u.issuing f id).frag f id).pc = (u.frag f id).pc := (hv.frags id).1
  have hatt : (u.issuing f id).attempt f id = exec i (u.issuing f id) := by
    refine attempt_of_landed (n := n) ?_ ?_ ?_ ?_
    · rw [(hv.frags id).2.2.2.1, hwait]
    · rw [hv.floe]; exact h.window
    · rw [hcore, hpc]; exact hl
    · rw [hcore, hpc]; exact hd
  unfold State.issueTurn
  simp only [htrap, h.first.1, h.first.2, hwait, htry, h.oldest, h.window, hatt]
  rfl

/-! ## The turns of a step -/

/-- The sequencer's fetch of a word that its core's copy of the line holds (R400). -/
theorem seqFetch_of_seqMay {u : State} {c w : Nat} {r : Run} (h : SeqMay u c r w) : u.seqFetch c = .word w u := by
  obtain ⟨hrun, hheld, hpaused, hstand, hreq⟩ := h.run
  obtain ⟨rfl, hblk⟩ := h.floe
  obtain ⟨hload, hlt⟩ := scopedLoad_exec h.held
  obtain ⟨x, hx, -⟩ := h.held.hit
  have hx' : (u.core (floeCore r.floe)).held (u.asidOf r.blk) r.pc.toNat = some x := by rw [← hblk]; exact hx
  have hback : u.heldBack (floeCore r.floe) u = false := by simp [State.heldBack]
  have hnum : pbNat (plainly 4 w) = w := by rw [plainly, pbNat_toBytes, Nat.mod_eq_of_lt hlt]
  unfold State.seqFetch State.seqLoad
  simp only [hrun, hheld, hpaused, hstand, hreq, hload, hback, plainly_clean, hnum, holdXlat_held hx']
  rfl

/-- The turn of a sequencer before a word that it may take. -/
theorem sequencerTurn_of_seqMay {u : State} {c w : Nat} {r : Run} {i : Instr} (h : SeqMay u c r w) (hd : decodeMatrix w = some i) :
    u.sequencerTurn c = exec i { u with cur := { u.cur with core := c } } := by
  have hphase : (u.core c).run.all (fun r => (u.launchOf r.blk).phase ≠ .running) = false := by
    simp [h.run.1, h.phase]
  unfold State.sequencerTurn
  simp only [hphase, seqFetch_of_seqMay h, hd]
  rfl

/-- The turn of a hart before a word of this manual. -/
theorem hartTurn_of_decodeHost {u : State} {h : Nat} {w : W32} {i : Instr} (hh : h < 64) (hdue : u.hostUiDue h = false)
    (hd : decodeHost w.toNat = some i) : u.hartTurn h w = exec i { u with cur := { u.cur with hart := h } } := by
  unfold State.hartTurn
  rw [if_neg (by omega), hdue]
  simp only [hd]
  rfl

/-- Settles O8: each turn's cases are passed through to the one that executes, and what strikes before a turn does not look at the agenda. -/
theorem stepRunsTheDecodedWord : Obligations.StepRunsTheDecodedWord := by
  refine ⟨fun s ts f id n i hn hm hl hd => ?_, fun s ts c w r i hn hm hd => ?_, fun s ts h w i hn hh hdue hd => ?_,
    fun s ts i hn hi => ?_, fun s ts f id hn hmgmt => ?_⟩
  · refine ⟨_, issuing_issuing hm.active.2.2, ?_⟩
    rw [step_of_nextTurn hn, runTurn, issueTurn_of_mayIssue hm hl hd]
    exact ends_afterIssue ..
  · rw [step_of_nextTurn hn]
    exact sequencerTurn_of_seqMay hm hd
  · rw [step_of_nextTurn hn]
    exact hartTurn_of_decodeHost hh hdue hd
  · rw [step_of_nextTurn hn, runTurn, if_pos hi]
  · obtain ⟨hbad, hboot, hag⟩ := hn
    have hissue : NextTurn { s with agenda := .issue f id :: ts } (.issue f id) ts := ⟨hbad, hboot, rfl⟩
    have hidle : (awake s ts).mgmt = [] := (State.struck_mgmt _).trans hmgmt
    rw [step_of_nextTurn ⟨hbad, hboot, hag⟩, step_of_nextTurn hissue, awake_agenda s (.issue f id :: ts) ts]
    exact issueAsHalted_idle hidle

end Sys2Proof.Claims

/-! # A reply that comes while a speculative window is open (R237, R238, R303) -/
namespace Sys2Proof.Claims
open Sys2Proof.Machine

/-- A request whose record was bad: its status, 1, goes to s5. -/
def badRequest : SyscReq := { frag := 0, num := 0, args := [], sd := 5, bad := true, reply := none }
/-- A fence whose window has changed s5, which held 7 before it. -/
def openFence : Fence :=
  { full := false, scope := 0, before := 0, frag := 1, open_ := true, count := 1, lines := [], touched := [1]
    saved := { sregs := [(5, 7)], vregs := [], preds := [], bad := [], frags := [], stoch := 0 } }
/-- Floe 0, whose fragment 0 waits in `SYSC` while fragment 1 issues past a fence. -/
def repliedInWindow : State :=
  { State.reset with floes := [(0, { Floe.reset with
      st := .active, live := 3, nextFrag := 2, fence := some openFence, syscs := [badRequest]
      frags := [{ Fragment.reset with active := 1, wait := .sysc }, { Fragment.reset with id := 1, active := 2 }] })] }

theorem repliedInWindow_mayTick : mayTick repliedInWindow (floeCore 0) := by unfold mayTick; decide +kernel
/-- What the window puts back of s5 follows the reply. -/
theorem repliedInWindow_fence :
    ∃ t, exec (.syscReply 0 0) repliedInWindow = .next t ∧ (t.floe 0).fence.map (fun w => w.saved.sregs) = some [(5, 1)] :=
  ⟨_, rfl, by decide +kernel⟩

/-- Refutes O49: the reply to a `SYSC` writes its status also into what an open window of the floe has saved of sd (R238), so that the
floe's fence is not as it was. -/
theorem not_waitsAndCalls : ¬ Obligations.WaitsAndCalls := by
  rintro ⟨-, -, h, -⟩
  obtain ⟨t, ht, ha⟩ := h repliedInWindow 0 0 1 0 badRequest (by decide +kernel) (.bad rfl) repliedInWindow_mayTick
  obtain ⟨u, hu, hfence⟩ := repliedInWindow_fence
  obtain rfl : u = t := Host.Outcome.next.inj (hu.symm.trans ht)
  have hkept : (u.floe 0).fence = (repliedInWindow.floe 0).fence := by rw [ha.floe]; rfl
  rw [hkept] at hfence
  exact absurd hfence (by decide +kernel)

end Sys2Proof.Claims

/-! # Descriptors that a command processor takes (R29, R31, R36, R298) -/
namespace Sys2Proof.Claims
open Sys2Proof.Machine

theorem bitN_iff {n : Nat} (x : BitVec n) (i : Nat) : bitN x i = true ↔ fieldN x i 1 = 1 := by
  rw [bitN, BitVec.getLsbD, fieldN, bitsOf, Nat.testBit_eq_decide_div_mod_eq, decide_eq_true_eq, pow_one]
theorem bitN_false_iff {n : Nat} (x : BitVec n) (i : Nat) : bitN x i = false ↔ fieldN x i 1 = 0 := by
  rw [← Bool.not_eq_true, bitN_iff, fieldN, bitsOf]
  omega
theorem dfield_eq (d : BitVec 1024) (lo n : Nat) : dfield d lo n = fieldN d lo n := rfl

/-- The dies that a descriptor may use (R31). -/
theorem mem_mappedDies {s : State} {d : BitVec 1024} {i : Nat} : i ∈ s.mappedDies d ↔ usable s d i := by
  unfold State.mappedDies usable
  rw [List.mem_filter, upTo, List.mem_range]
  simp [show dfield d 469 4 = descDies d from rfl, and_assoc]
/-- The command processor that serves a descriptor. -/
theorem leadDie_of_leads {s : State} {d : BitVec 1024} {i : Nat} (h : Leads s d i) : s.leadDie d = i := by
  obtain ⟨husable, hfirst⟩ := h
  have hmem := mem_mappedDies.mpr husable
  have hsorted : (s.mappedDies d).Pairwise (· < ·) := List.Pairwise.filter _ List.pairwise_lt_range
  unfold State.leadDie
  cases hl : s.mappedDies d with
  | nil => rw [hl] at hmem; exact absurd hmem List.not_mem_nil
  | cons j t =>
    rw [hl] at hmem hsorted
    have hj : usable s d j := mem_mappedDies.mp (by rw [hl]; exact List.mem_cons_self)
    rcases List.mem_cons.mp hmem with rfl | ht
    · rfl
    · exact absurd hj (hfirst j ((List.pairwise_cons.mp hsorted).1 i ht))

theorem GoodDescriptor.usable {s : State} {d : BitVec 1024} (h : GoodDescriptor s d) : (s.mappedDies d).isEmpty = false := by
  obtain ⟨i, hi⟩ := h.dies
  exact List.isEmpty_eq_false_iff_exists_mem.mpr ⟨i, mem_mappedDies.mpr hi⟩
theorem GoodDescriptor.dies_ne {s : State} {d : BitVec 1024} (h : GoodDescriptor s d) : descDies d ≠ 0 := by
  obtain ⟨i, -, hi, -⟩ := h.dies
  intro h0
  rw [show dfield d 469 4 = descDies d from rfl, h0] at hi
  simp at hi

/-- A descriptor that meets R31 is not rejected. -/
theorem GoodDescriptor.notBad {s : State} {d : BitVec 1024} (h : GoodDescriptor s d) : s.descBad d = false := by
  obtain ⟨r1, r2, r3, r4, r5, r6, r7, r8, r9, r10⟩ := h.reserved
  obtain ⟨k1, k2⟩ := h.kind
  obtain ⟨v1, v2, v3, v4, v5, v6, v7⟩ := h.values
  obtain ⟨a1, a2, a3, a4, a5⟩ := h.aligned
  have hbit : bitN d 384 = false := (bitN_false_iff d 384).mpr r4
  have hsplit : ¬ descWidth d < descMaxsplit d := by
    have := Nat.pow_le_pow_right (n := 2) (by omega) v3
    unfold descWidth descMaxsplit
    simp only [dfield_eq] at this
    omega
  have hkind : (decide (fieldN d 56 2 = 1) && (decide (384 < descNblocks d) || descCores d)) = false := by
    by_cases h1 : fieldN d 56 2 = 1
    · obtain ⟨hn, hc⟩ := k2 h1
      have hn' : ¬ 384 < descNblocks d := Nat.not_lt.mpr hn
      simp [hn', descCores, (bitN_false_iff d 460).mpr hc]
    · simp [h1]
  have hvalues : ¬ 2048 < descSpad d ∧ ¬ 1024 < descShelf d ∧ descNblocks d ≠ 0 ∧ ¬ 2 ^ 31 < descNblocks d ∧ ¬ 256 < descNcoh d ∧
      ¬ 48 < descNparam d :=
    ⟨Nat.not_lt.mpr v1, Nat.not_lt.mpr v2, Nat.one_le_iff_ne_zero.mp v4, Nat.not_lt.mpr v5, Nat.not_lt.mpr v6, Nat.not_lt.mpr v7⟩
  obtain ⟨w1, w2, w3, w4, w5, w6⟩ := hvalues
  have haligned : descMailbox d % 64 = 0 ∧ descCompl d % 16 = 0 ∧ descCohtab d % 64 = 0 ∧ descParam d % 8 = 0 ∧ descEntry d % 4096 = 0 :=
    ⟨a1, a2, a3, a4, a5⟩
  obtain ⟨b1, b2, b3, b4, b5⟩ := haligned
  simp only [dfield_eq] at r1 r2 r3 r5 r6 r7 r8 r9 r10 k1
  unfold State.descBad
  simp only [hkind, hbit, hsplit, h.usable, h.dies_ne, k1, r1, r2, r3, r5, r6, r7, r8, r9, r10, w1, w2, w3, w4, w5, w6, b1, b2, b3, b4, b5]
  rfl

/-- The oldest descriptor of a queue, where its kind is asked for. -/
theorem takeDescriptor_oldest {s : State} {q : Nat} {d : BitVec 1024} {rest : List (BitVec 1024)} (h : Oldest s q d rest) {kinds : List Nat}
    (hk : descKind d ∈ kinds) (k : State → BitVec 1024 → State) : s.takeDescriptor q kinds k = k (unqueued s q rest) d := by
  obtain ⟨hhead, hasid⟩ := h
  unfold State.takeDescriptor
  simp only [hhead]
  rw [if_neg (by simpa using hk), if_neg (by rw [hasid]; exact not_not.mpr rfl)]
  rfl

theorem Oldest.unique {s : State} {q : Nat} {d e : BitVec 1024} {r t : List (BitVec 1024)} (h : Oldest s q d r) (k : Oldest s q e t) :
    d = e ∧ r = t := by
  have := h.head.symm.trans k.head
  simpa using this

/-! ## Mailboxes (R36) -/

theorem completes_bindTask {s : State} {q : Nat} (h : ∃ d rest, Oldest s q d rest ∧ GoodDescriptor s d ∧ dfield d 56 2 = 1) :
    Completes (.bindTask q) s (fun t => ∀ d rest, Oldest s q d rest →
      t = { unqueued s q rest with bindings := unbound s d ++ [⟨dfield d 400 16, dfield d 320 56, d⟩] }) := by
  obtain ⟨d, rest, ho, hg, hk⟩ := h
  refine ⟨_, rfl, fun e r he => ?_⟩
  obtain ⟨rfl, rfl⟩ := ho.unique he
  have hbad : (unqueued s q rest).descBad d = false := hg.notBad
  rw [takeDescriptor_oldest ho (by rw [List.mem_singleton]; exact hk), if_neg (by rw [hbad]; exact Bool.false_ne_true)]
  rfl
theorem completes_unbindTask {s : State} {q : Nat} (h : ∃ d rest, Oldest s q d rest ∧ GoodDescriptor s d ∧ dfield d 56 2 = 2) :
    Completes (.unbindTask q) s (fun t => ∀ d rest, Oldest s q d rest → t = { unqueued s q rest with bindings := unbound s d }) := by
  obtain ⟨d, rest, ho, hg, hk⟩ := h
  refine ⟨_, rfl, fun e r he => ?_⟩
  obtain ⟨rfl, rfl⟩ := ho.unique he
  have hbad : (unqueued s q rest).descBad d = false := hg.notBad
  rw [takeDescriptor_oldest ho (by rw [List.mem_singleton]; exact hk), if_neg (by rw [hbad]; exact Bool.false_ne_true)]
  rfl

end Sys2Proof.Claims

/-! # The end of a block (R27) -/
namespace Sys2Proof.Claims
open Sys2Proof.Machine

theorem get?_of_mem_keys {α : Type} {t : Tab α} {k : Nat} (h : k ∈ t.keys) : ∃ x, t.get? k = some x := by
  induction t with
  | nil => exact absurd h List.not_mem_nil
  | cons e t ih =>
    by_cases he : e.1 = k
    · exact ⟨e.2, by simp [Tab.get?, he]⟩
    · rcases List.mem_cons.mp h with h | h
      · exact absurd h.symm he
      · obtain ⟨x, hx⟩ := ih h
        exact ⟨x, by simpa [Tab.get?, he] using hx⟩
theorem get?_del {α : Type} (t : Tab α) (k j : Nat) : (t.del k).get? j = if j = k then none else t.get? j := by
  by_cases h : j = k
  · rw [h, Tab.get?_del_self, if_pos rfl]
  · rw [Tab.get?_del_ne t h, if_neg h]
theorem get?_filter {α : Type} (t : Tab α) (p : Nat → Bool) (k : Nat) :
    Tab.get? (t.filter (fun e => p e.1)) k = if p k then t.get? k else none := by
  induction t with
  | nil => simp [Tab.get?]
  | cons e t ih =>
    by_cases hp : p e.1 = true <;> by_cases hk : e.1 = k
    · subst hk; simp [hp, Tab.get?]
    · simpa [hp, Tab.get?, hk] using ih
    · subst hk; simpa [hp] using ih
    · simpa [hp, Tab.get?, hk] using ih

theorem option_filter_eq_self {α : Type} {o : Option α} {p : α → Bool} (h : ∀ x, o = some x → p x = true) : o.filter p = o := by
  cases o with
  | none => rfl
  | some x => simp [Option.filter, h x rfl]

/-- What a core holds for no block that goes. -/
theorem removeBlock_core {s : State} {b : Nat} {x : Block} (h : Finished s b x) :
    ({ s.core (coreOf b) with
      slots := (s.core (coreOf b)).slots.map (fun e => (e.1, e.2.drop b))
      run := (s.core (coreOf b)).run.filter (fun r => r.blk ≠ b)
      mruns := (s.core (coreOf b)).mruns.filter (fun m => blockOf m.1 ≠ b)
      ending := (s.core (coreOf b)).ending.filter (fun e => blockOf e.2 ≠ b)
      engine := (s.core (coreOf b)).engine.filter (fun e => e.blk ≠ b)
      drain := (s.core (coreOf b)).drain.filter (fun d => d.blk ≠ b)
      staging := (s.core (coreOf b)).staging.filter (fun u => u.job.blk ≠ b) } : Core) = s.core (coreOf b) := by
  obtain ⟨hengine, hdrain, hstaging⟩ := h.engine
  obtain ⟨hmruns, hending⟩ := h.idle
  have hslots : (s.core (coreOf b)).slots.map (fun e => (e.1, e.2.drop b)) = (s.core (coreOf b)).slots := by
    refine (List.map_congr_left (g := id) fun e he => ?_).trans (List.map_id _)
    obtain ⟨hfetch, hland⟩ := h.slots e he
    have hrest : e.2.fetches.filter (fun y => blockOf y.1 ≠ b) = e.2.fetches :=
      List.filter_eq_self.mpr fun y hy => by simpa using hfetch y hy
    have hst : (if (e.2.st = .landing && e.2.fetches.isEmpty) = true then SlotState.empty else e.2.st) = e.2.st := by
      refine if_neg fun hx => ?_
      simp only [Bool.and_eq_true, decide_eq_true_eq, List.isEmpty_iff] at hx
      exact hland hx.1 hx.2
    show (e.1, e.2.drop b) = e
    unfold CodeSlot.drop
    simp only [hrest, hst]
  have hrun : (s.core (coreOf b)).run.filter (fun r => r.blk ≠ b) = (s.core (coreOf b)).run :=
    option_filter_eq_self fun r hr => by simpa using h.run r hr
  have hdr : (s.core (coreOf b)).drain.filter (fun d => d.blk ≠ b) = (s.core (coreOf b)).drain :=
    option_filter_eq_self fun d hd => by simpa using hdrain d hd
  have hmr : (s.core (coreOf b)).mruns.filter (fun m => blockOf m.1 ≠ b) = (s.core (coreOf b)).mruns :=
    List.filter_eq_self.mpr fun m hm => by simpa using hmruns m hm
  have hend : (s.core (coreOf b)).ending.filter (fun e => blockOf e.2 ≠ b) = (s.core (coreOf b)).ending :=
    List.filter_eq_self.mpr fun e he => by simpa using hending e he
  have heng : (s.core (coreOf b)).engine.filter (fun e => e.blk ≠ b) = (s.core (coreOf b)).engine :=
    List.filter_eq_self.mpr fun e he => by simpa using hengine e he
  have hsta : (s.core (coreOf b)).staging.filter (fun u => u.job.blk ≠ b) = (s.core (coreOf b)).staging :=
    List.filter_eq_self.mpr fun u hu => by simpa using hstaging u hu
  rw [hslots, hrun, hdr, hmr, hend, heng, hsta]

/-- A block that has finished is done (R27, R446). -/
theorem blockDone_of_finished {s : State} {b : Nat} {x : Block} (h : Finished s b x) : s.blockDone b = true := by
  obtain ⟨hengine, hdrain, hstaging⟩ := h.engine
  have hfl {f : Nat} (hf : f ∈ s.floesOf b) : ∃ fl, s.floes.get? f = some fl ∧ s.floe f = fl ∧
      (fl.st = .retired ∨ fl.st = .reserved) ∧ fl.ops = [] ∧ fl.cmds = [] := by
    obtain ⟨hk, hb⟩ := List.mem_filter.mp hf
    obtain ⟨fl, hfl⟩ := get?_of_mem_keys hk
    exact ⟨fl, hfl, by rw [State.floe, Tab.getD, hfl]; rfl, h.floes f fl hfl (by simpa using hb)⟩
  have hlive : (s.liveFloes b).isEmpty = true := by
    rw [List.isEmpty_iff, State.liveFloes, List.filter_eq_nil_iff]
    intro f hf
    obtain ⟨fl, hget, -, hst, -⟩ := hfl hf
    unfold State.unretired
    rw [hget]
    rcases hst with hst | hst <;> simp [hst]
  have hidle : (s.floesOf b).all (fun f => (s.floe f).ops.isEmpty && (s.floe f).cmds.isEmpty) = true := by
    refine List.all_eq_true.mpr fun f hf => ?_
    obtain ⟨fl, -, hfloe, -, hops, hcmds⟩ := hfl hf
    rw [hfloe, hops, hcmds]; rfl
  have hblk : s.block b = x := by rw [State.block, Tab.getD, h.here]; rfl
  have hstreams : (s.block b).streams.all (fun e => !e.2.owes) = true := by
    refine List.all_eq_true.mpr fun e he => ?_
    rw [hblk] at he
    rcases h.streams e he with hc | ⟨hn, hg⟩
    · simp [Stream.owes, hc]
    · simp [Stream.owes, hn, hg]
  have hrun : (s.core (coreOf b)).run.all (fun r => r.blk ≠ b) = true := by
    cases hr : (s.core (coreOf b)).run with
    | none => rfl
    | some r => simpa using h.run r hr
  have hdr : (s.core (coreOf b)).drain.all (fun d => d.blk ≠ b) = true := by
    cases hd : (s.core (coreOf b)).drain with
    | none => rfl
    | some d => simpa using hdrain d hd
  have heng : (s.core (coreOf b)).engine.all (fun e => e.blk ≠ b) = true :=
    List.all_eq_true.mpr fun e he => by simpa using hengine e he
  have hsta : (s.core (coreOf b)).staging.all (fun u => u.job.blk ≠ b) = true :=
    List.all_eq_true.mpr fun u hu => by simpa using hstaging u hu
  unfold State.blockDone
  simp only [h.here, hlive, hidle, hrun, hdr, heng, hsta, hstreams]
  rfl

/-- The state without a block that has finished. -/
theorem removeBlock_finished {s : State} {b : Nat} {x : Block} (h : Finished s b x) :
    s.removeBlock b = { s with
      cores := s.cores.put (coreOf b) (s.core (coreOf b)), blocks := s.blocks.del b
      floes := s.floes.filter (fun e => blockOf e.1 ≠ b) } := by
  have hk := congrArg (fun k => ({ s with cores := s.cores.put (coreOf b) k, blocks := s.blocks.del b
                                          floes := s.floes.filter (fun e => blockOf e.1 ≠ b) } : State)) (removeBlock_core h)
  exact hk

theorem finishBlock_finished {s : State} {b : Nat} {x : Block} (h : Finished s b x) :
    s.finishBlock b = (s.removeBlock b).updLaunch x.launch (fun l => { l with finished := l.finished ++ [x.id] }) := by
  have hblk : s.block b = x := by rw [State.block, Tab.getD, h.here]; rfl
  have hcoh : (((s.removeBlock b).updLaunch x.launch (fun l => { l with finished := l.finished ++ [x.id] })).launch x.launch).cohorts = [] := by
    have hplain := h.plain
    rw [removeBlock_finished h]
    unfold State.updLaunch
    cases hl : s.launches.get? x.launch with
    | none => exact hplain
    | some l =>
      rw [State.launch, Tab.getD, hl] at hplain
      exact (congrArg Launch.cohorts (Tab.getD_put_self ..)).trans hplain
  unfold State.finishBlock
  rw [if_neg (by rw [blockDone_of_finished h]; exact Bool.false_ne_true)]
  simp only [hblk, Launch.cohortsOf, hcoh]
  rfl

theorem completes_blockFinish {s : State} {b : Nat} (h : ∃ x, Finished s b x) :
    Completes (.blockFinish b) s (fun t => ∀ x, s.blocks.get? b = some x → BlockGone s b x t) := by
  obtain ⟨x, h⟩ := h
  refine ⟨_, rfl, fun y hy => ?_⟩
  obtain rfl : x = y := Option.some.inj (h.here.symm.trans hy)
  rw [finishBlock_finished h, removeBlock_finished h]
  have hcore (c : Nat) : (s.cores.put (coreOf b) (s.core (coreOf b))).getD c Core.reset = s.core c := by
    rw [Tab.getD_put]
    split
    · next hc => rw [hc]
    · rfl
  have hfloes (f : Nat) : Tab.get? (s.floes.filter (fun e => blockOf e.1 ≠ b)) f = if blockOf f = b then none else s.floes.get? f := by
    rw [get?_filter s.floes (fun f => blockOf f ≠ b)]
    by_cases hf : blockOf f = b <;> simp [hf]
  unfold State.updLaunch
  cases hl : s.launches.get? x.launch with
  | none =>
    exact {
      rest := rfl
      cores := hcore
      blocks := get?_del s.blocks b
      floes := hfloes
      launch := fun l hx => nomatch hl.symm.trans hx
      others := fun _ _ => rfl }
  | some l =>
    exact {
      rest := rfl
      cores := hcore
      blocks := get?_del s.blocks b
      floes := hfloes
      launch := fun k hx => by
        obtain rfl : l = k := Option.some.inj (hl.symm.trans hx)
        exact Tab.get?_put_self ..
      others := fun k hk => Tab.get?_put_ne _ _ hk }

end Sys2Proof.Claims

/-! # The completion record of a launch (R32, R222, R456) -/
namespace Sys2Proof.Claims
open Sys2Proof.Machine

theorem find?_least {n pos : Nat} {p : Nat → Bool} (hn : pos < n) (hp : p pos = true) (hlt : ∀ i < pos, p i = false) :
    (upTo n).find? p = some pos := by
  rw [upTo, List.find?_range_eq_some]
  exact ⟨hp, List.mem_range.mpr hn, fun i hi => by simp [hlt i hi]⟩

/-! ## The bytes of a line after a write -/

theorem bytes_setBytes_same {x : Line} {off n v : Nat} (h : off + n ≤ 128) :
    Line.bytes (Line.setBytes x off (toBytes n v)) off n = toBytes n v := by
  refine List.ext_getElem? fun k => ?_
  rw [Line.bytes, List.getElem?_map, upTo, toBytes_get?]
  by_cases hk : k < n
  · rw [List.getElem?_range hk, if_pos hk, Option.map_some, Line.byte_setBytes _ _ _ _ (by omega), if_pos (by omega), toBytes_get?,
      if_pos (by omega), Nat.add_sub_cancel_left]
    rfl
  · rw [if_neg hk, List.getElem?_eq_none (by simpa using hk), Option.map_none]
theorem bytes_setBytes_apart {x : Line} {off n v o m : Nat} (hm : o + m ≤ 128) (h : o + m ≤ off ∨ off + n ≤ o) :
    Line.bytes (Line.setBytes x off (toBytes n v)) o m = Line.bytes x o m :=
  List.map_congr_left fun i hi => by
    have hi : i < m := List.mem_range.mp hi
    exact Line.byte_setBytes_outside _ _ _ _ _ (by omega) (by omega)
theorem lineValue_setBytes_same {x : Line} {off n v : Nat} (h : off + n ≤ 128) :
    lineValue (Line.setBytes x off (toBytes n v)) off n = v % 256 ^ n := by
  rw [← ofBytes_bytes, bytes_setBytes_same h, ofBytes_toBytes]
theorem lineValue_setBytes_apart {x : Line} {off n v o m : Nat} (hm : o + m ≤ 128) (h : o + m ≤ off ∨ off + n ≤ o) :
    lineValue (Line.setBytes x off (toBytes n v)) o m = lineValue x o m := by
  rw [← ofBytes_bytes, bytes_setBytes_apart hm h, ofBytes_bytes]

/-! ## A unit's write of plain bytes -/

theorem plainBytes_bytes (n v : Nat) : (plainBytes n v).map (fun x => x.1) = toBytes n v := by
  rw [plainBytes, List.map_map]; exact List.map_id _
theorem plainBytes_length (n v : Nat) : (plainBytes n v).length = n := by simp [plainBytes, toBytes_length]
theorem poisonOf_plain (off n v : Nat) : poisonOf off (plainBytes n v) = 0 := by
  refine foldl_id _ _ _ fun e he => if_neg ?_
  have hmem : e.1 ∈ plainBytes n v := (List.of_mem_zip he).1
  obtain ⟨b, -, hb⟩ := List.mem_map.mp hmem
  rw [← hb]
  exact Bool.false_ne_true

/-- An owned line after a unit's write of n plain bytes. -/
def unitLine (s : State) (d : Nat) (x : StackLine) (off n v : Nat) : StackLine :=
  { x with data := Line.setBytes x.data off (toBytes n v), wts := laterOf (clamped s d x.rts) (s.die d).stime + 1,
           rts := laterOf (clamped s d x.rts) (s.die d).stime + 1, dirty := true, poison := (x.poison &&& ~~~0) ||| 0 }
theorem unitStore_owned {s : State} {d pa key n v : Nat} {x : StackLine} (h : Owned s d (pa / 128) key x) (hline : pa % 128 + n ≤ 128)
    (hn : n ≠ 128) : HoldsNow s d (pa / 128) (unitLine s d x (pa % 128) n v) (s.unitStore (some d) pa key (plainBytes n v)) := by
  have hlen : ¬ ((false || decide ((plainBytes n v).length = 128)) = true) := by simp [plainBytes_length, hn]
  have hfit : pa % 128 + (toBytes n v).length ≤ 128 := by rwa [toBytes_length]
  simp only [State.unitStore, State.unitWrite, if_neg hlen, plainBytes_bytes, poisonOf_plain, stackWrite_owned h _ _ _ _ _ _ hfit]
  exact holdsNow_put s d (pa / 128) (unitLine s d x (pa % 128) n v) _ _

/-- A line is owned as long as only its own stack's copy changes. -/
theorem HoldsNow.owned {s t : State} {d ln key : Nat} {x y : StackLine} (h : HoldsNow s d ln y t) (ho : Owned s d ln key x)
    (hy : y.owned = true) (hk : y.key = key) : Owned t d ln key y where
  die := ho.die
  here := h.2
  owned := hy
  key := hk
  alone := fun a ha hne => by rw [h.1.die_ne hne]; exact ho.alone a ha hne
  still := by rw [h.1.rest]; exact ho.still
  unarmed := fun l => by rw [h.1.launch]; exact ho.unarmed l
  plain := fun l hl => by rw [h.1.accesses]; exact ho.plain l (h.1.launches ▸ hl)

/-! ## Reads -/

theorem Owned.ownedLine {s : State} {d ln key : Nat} {x : StackLine} (h : Owned s d ln key x) : s.ownedLine ln = some x := by
  have hfind : s.ownerOf ln = some d := by
    refine (find?_least (n := 13) (by have := h.die; omega) ?_ fun a ha => ?_)
    · rw [h.here]; exact h.owned
    · rw [h.alone a (by have := h.die; omega) (by omega)]
  rw [State.ownedLine, hfind]
  simp [State.stackLine, h.here]

theorem OnlyCopy.memByte {s t : State} {d ln : Nat} (h : OnlyCopy s d ln t) (a : Nat) : t.memByte a = s.memByte a := by rw [h.rest]; rfl
theorem OnlyCopy.get? {s t : State} {d ln : Nat} (h : OnlyCopy s d ln t) {n : Nat} (hn : n ≠ ln) (a : Nat) :
    (t.die a).stack.get? n = (s.die a).stack.get? n := by
  by_cases had : a = d
  · rw [had]; exact h.lines n hn
  · rw [h.die_ne had]
theorem OnlyCopy.ownerOf {s t : State} {d ln : Nat} (h : OnlyCopy s d ln t) {n : Nat} (hn : n ≠ ln) : t.ownerOf n = s.ownerOf n := by
  unfold State.ownerOf
  simp only [h.get? hn]
theorem OnlyCopy.peekByte {s t : State} {d ln : Nat} (h : OnlyCopy s d ln t) (hs : s.migrations = []) {a : Nat} (ha : a / 128 ≠ ln) :
    t.peekByte a = s.peekByte a := by
  have ht : t.migrations = [] := by rw [h.rest]; exact hs
  have hline : t.ownedLine (a / 128) = s.ownedLine (a / 128) := by
    unfold State.ownedLine State.aliasOf
    rw [h.ownerOf ha, hs, ht]
    simp only [State.stackLine, h.get? ha]
    rfl
  rw [State.peekByte, State.peekByte, hline, h.memByte]

/-- A unit's access to plain memory, with the right that its kind needs. -/
theorem unitPlace_plain {s : State} {asid va : Nat} {x : Xlat} {r : Bool} {k : AccKind} (hva : va < 2 ^ 56) (hap : inAperture va = false)
    (hwalk : s.walk asid va = .ok x r) (hl : fieldN x.attr 48 4 = 0) (ht : fieldN x.attr 16 2 ≤ 1) (hk : k ≠ .join ∧ k ≠ .threshold)
    (hright : ((k.needsRead && !(attrRead x.attr)) || (k.needsWrite && !(attrWrite x.attr)) || (k = .exec && !(attrExec x.attr))) = false) :
    s.unitPlace asid k va = .ok (.phys (x.pa + (va - x.va)) (attrKey x.attr) (attrNc x.attr)) := by
  have hout : ¬ ((decide (2 ^ 56 ≤ va) || inAperture va) = true) := by
    have : ¬ 2 ^ 56 ≤ va := by omega
    simp only [hap, this, decide_false, Bool.or_self, Bool.false_eq_true, not_false_eq_true]
  have ht2 : ¬ attrTier x.attr = 2 := by unfold attrTier; omega
  have ht3 : ¬ attrTier x.attr = 3 := by unfold attrTier; omega
  rw [State.unitPlace, if_neg hout, State.unitWalk, List.find?_nil, hwalk]
  simp only [placeOf, hright]
  simp [ht2, ht3, show attrLtype x.attr = 0 from hl, hk]

/-! ## What a unit may write -/

section
variable {s u : State} {d asid va n pa key : Nat} {line : StackLine}

/-- It may write there as well in a state that differs in nothing that the walk and the write meet. -/
theorem MayWrite.mono {x : StackLine} (h : MayWrite s d asid va n pa key line) (ho : Owned u d (pa / 128) key x) (hb : u.boot = s.boot)
    (hp : ∀ a, a / 128 ≠ pa / 128 → u.peekByte a = s.peekByte a) : MayWrite u d asid va n pa key x where
  space := h.space
  own := ho
  mapped := fun t htb htm htp => h.mapped t (htb.trans hb) htm fun a ha => (htp a ha).trans (hp a ha)

theorem MayWrite.inLine (h : MayWrite s d asid va n pa key line) : pa % 128 + n ≤ 128 := by
  obtain ⟨_, _, _, _, _, _, _, _, hmod, _⟩ := h.mapped s rfl h.own.still fun _ _ => rfl
  have := h.space.2.2.1
  omega
/-- The checks of a unit's store pass. -/
theorem MayWrite.unitPlace (h : MayWrite s d asid va n pa key line) : ∃ nc, s.unitPlace asid .store va = .ok (.phys pa key nc) := by
  obtain ⟨hva, hap, -, -⟩ := h.space
  obtain ⟨x, r, hwalk, hw, hl, ht, hkey, hpa, -⟩ := h.mapped s rfl h.own.still fun _ _ => rfl
  rw [unitPlace_plain hva hap hwalk hl ht (by decide) (by simp [AccKind.needsRead, AccKind.needsWrite, attrWrite, hw]), ← hpa,
    show attrKey x.attr = key from hkey]
  exact ⟨_, rfl⟩
theorem MayWrite.asOk (h : MayWrite s d asid va n pa key line) : asOk (s.asRecord asid) = true := by
  obtain ⟨x, r, hwalk, -⟩ := h.mapped s rfl h.own.still fun _ _ => rfl
  by_contra hno
  rw [State.walk, if_pos (by simp [hno])] at hwalk
  cases hwalk

/-- A unit's store of plain bytes. -/
theorem MayWrite.vaStore (h : MayWrite s d asid va n pa key line) (l v : Nat) :
    s.vaStore l (some d) asid va (plainBytes n v) = .ok () (s.unitStore (some d) pa key (plainBytes n v)) := by
  obtain ⟨nc, hplace⟩ := h.unitPlace
  obtain ⟨-, -, hline, hn⟩ := h.space
  have htake : (plainBytes n v).take n = plainBytes n v := List.take_of_length_le (plainBytes_length n v).le
  unfold State.vaStore State.storeCause
  simp only [plainBytes_length, chunksOf_line hn hline, cutBytes, htake, hplace, List.findSome?, List.foldl]

theorem physBytes_owned (ho : Owned s d (pa / 128) key line) (hclean : line.poison = 0) (m : Nat) :
    s.physBytes pa m key = (Line.bytes line.data (pa % 128) m).map (fun b => (b, false)) := by
  have hunder : line.under (pa / 128) key = line.data := by simp [StackLine.under, rekey, ho.key]
  unfold State.physBytes
  simp only [ho.ownedLine, hunder, hclean, Line.bytes, List.map_map]
  exact List.map_congr_left fun i _ => by simp
theorem MayWrite.countCompletion (h : MayWrite s d asid va n pa key line) (hclean : line.poison = 0) (l : Nat) :
    s.countCompletion l d asid va =
      .ok () (s.unitStore (some d) pa key (plainBytes 8 ((lineValue line.data (pa % 128) 8 + 1) % 2 ^ 64))) := by
  obtain ⟨nc, hplace⟩ := h.unitPlace
  have hany : ((Line.bytes line.data (pa % 128) 8).map (fun b => ((b, false) : PByte))).any (fun x => x.2) = false := by simp
  have hval : pbNat ((Line.bytes line.data (pa % 128) 8).map (fun b => (b, false))) = lineValue line.data (pa % 128) 8 := by
    rw [pbNat, List.map_map, show (fun x : PByte => x.1) ∘ (fun b : Byte => (b, false)) = id from rfl, List.map_id, ofBytes_bytes]
  unfold State.countCompletion
  simp only [hplace, physBytes_owned h.own hclean, hany, hval]
  rfl

end

end Sys2Proof.Claims

/-! # The end of a launch (R32) -/
namespace Sys2Proof.Tab

/-- Entries mapped, absent ones with them. -/
theorem getD_map {α : Type} (t : Tab α) (f : α → α) (d : α) (hd : f d = d) (k : Nat) :
    getD (t.map (fun e => (e.1, f e.2))) k d = f (t.getD k d) := by
  induction t with
  | nil => exact hd.symm
  | cons e t ih =>
    unfold getD at ih ⊢
    by_cases he : e.1 = k
    · simp [get?, he]
    · simpa [get?, he] using ih

end Sys2Proof.Tab

namespace Sys2Proof.Machine

/-- The state without a launch that has no resident block, no staged record and no replica. -/
def State.withoutLaunch (s : State) (l : Nat) : State :=
  { s with
    cores := s.cores.map (fun e => (e.1, e.2.dropCasts l)), launches := s.launches.del l
    images := s.images.filter (fun i => i.launch ≠ l), snapshots := s.snapshots.filter (fun c => c.launch ≠ l)
    restores := s.restores.filter (fun r => r ≠ l), windows := s.windows.filter (fun w => w.2.mailbox || w.2.launch ≠ l)
    preempts := s.preempts.filter (fun p => p.1 ≠ l) }

end Sys2Proof.Machine

namespace Sys2Proof.Claims
open Sys2Proof.Machine

/-- A line in which a completion record at an offset has taken a status word, and its counter has risen by 1. -/
structure Recorded (old new : StackLine) (off word : Nat) : Prop where
  dirty   : new.dirty = true
  status  : lineValue new.data (off + 8) 8 = word % 2 ^ 64
  counter : lineValue new.data off 8 = (lineValue old.data off 8 + 1) % 2 ^ 64
  others  : ∀ i < 128, (i < off ∨ off + 16 ≤ i) → Line.byte new.data i = Line.byte old.data i

theorem recorded_twice {s t : State} {d off word : Nat} {line : StackLine} (h : off + 16 ≤ 128) :
    Recorded line (unitLine t d (unitLine s d line (off + 8) 8 word) off 8
      ((lineValue (unitLine s d line (off + 8) 8 word).data off 8 + 1) % 2 ^ 64)) off word where
  dirty := rfl
  status := (lineValue_setBytes_apart (by omega) (by omega)).trans (lineValue_setBytes_same (by omega))
  counter := (lineValue_setBytes_same (by omega)).trans (by
    rw [unitLine, lineValue_setBytes_apart (by omega) (by omega)]
    exact Nat.mod_mod ..)
  others := fun i hi ho =>
    (Line.byte_setBytes_outside _ _ _ _ _ hi (by omega)).trans (Line.byte_setBytes_outside _ _ _ _ _ hi (by omega))

/-- A completion record that may be written is written (R32). -/
theorem writeCompletion_written {u : State} {d l status cause blk pa key : Nat} {desc : BitVec 1024} {line : StackLine}
    (hlead : u.leadDie desc = d) (hne : descCompl desc ≠ 0) (hui : descUicomp desc = false)
    (may : MayWrite u d (descAsid desc) (descCompl desc) 16 pa key line)
    (may8 : MayWrite u d (descAsid desc) (descCompl desc + 8) 8 (pa + 8) key line) (hclean : line.poison = 0) :
    ∃ y, HoldsNow u d (pa / 128) y (u.writeCompletion l desc status cause blk) ∧
      Recorded line y (pa % 128) (status + cause * 2 ^ 8 + blk * 2 ^ 32) := by
  have hline : pa % 128 + 16 ≤ 128 := may.inLine
  have hdiv : (pa + 8) / 128 = pa / 128 := by omega
  have hmod : (pa + 8) % 128 = pa % 128 + 8 := by omega
  generalize hword : status + cause * 2 ^ 8 + blk * 2 ^ 32 = word
  have hfirst := unitStore_owned (n := 8) (v := word) may8.own (by omega) (by omega)
  have hstore := may8.vaStore l word
  generalize u.unitStore (some d) (pa + 8) key (plainBytes 8 word) = t at hfirst hstore
  rw [hdiv, hmod] at hfirst
  have hown := hfirst.owned may.own may.own.owned may.own.key
  have hmay := may.mono hown (by rw [hfirst.1.rest]) fun a ha => hfirst.1.peekByte may.own.still ha
  have hpoison : (unitLine u d line (pa % 128 + 8) 8 word).poison = 0 := by simp [unitLine, hclean]
  have hcount := hmay.countCompletion hpoison l
  have hsecond := unitStore_owned (n := 8) (v := (lineValue (unitLine u d line (pa % 128 + 8) 8 word).data (pa % 128) 8 + 1) % 2 ^ 64)
    hown (by omega) (by omega)
  generalize t.unitStore (some d) pa key _ = t2 at hcount hsecond
  have hwritten : u.writeCompletion l desc status cause blk = t2 := by
    unfold State.writeCompletion
    simp only [hlead, may.asOk, hui, hword, hstore, hcount]
    simp [hne]
  rw [hwritten]
  exact ⟨_, ⟨hfirst.1.trans hsecond.1, hsecond.2⟩, recorded_twice hline⟩

/-! ## What a launch leaves -/

section
variable {s : State} {l d pa key : Nat} {x : Launch} {line : StackLine}

theorem CanEndLaunch.launch (h : CanEndLaunch s l x d pa key line) : s.launch l = x := by
  rw [State.launch, Tab.getD, h.here]; rfl
theorem CanEndLaunch.noBlocks (h : CanEndLaunch s l x d pa key line) : s.blocksOfLaunch l = [] := by
  refine List.filter_eq_nil_iff.mpr fun b hb => ?_
  obtain ⟨y, hy⟩ := get?_of_mem_keys hb
  have := h.empty b y hy
  simpa [State.block, Tab.getD, hy] using this
theorem CanEndLaunch.dropLaunch (h : CanEndLaunch s l x d pa key line) :
    { s.dropLaunch l with launches := (s.dropLaunch l).launches.del l } = s.withoutLaunch l := by
  unfold State.dropLaunch
  rw [h.noBlocks]
  rfl
theorem CanEndLaunch.discardStaged (h : CanEndLaunch s l x d pa key line) : s.discardStaged l = s := by
  have hlogs : s.logs.map (fun e =>
      if e.2.stager = some l then
        (e.1, { e.2 with recs := e.2.recs.filter (fun r => r.off < e.2.commit), nextOff := e.2.commit,
                         nextSeq := e.2.commitSeq, durable := Nat.min e.2.durable e.2.commit, stager := none })
      else e) = s.logs :=
    (List.map_congr_left (g := id) fun e he => if_neg (h.logs e he)).trans (List.map_id _)
  exact congrArg (fun g => ({ s with logs := g } : State)) hlogs
theorem CanEndLaunch.commitStaged (h : CanEndLaunch s l x d pa key line) : s.commitStaged l = s := by
  have hnone : s.logs.filter (fun e => e.2.stager = some l) = [] :=
    List.filter_eq_nil_iff.mpr fun e he => by simpa using h.logs e he
  rw [State.commitStaged, hnone]
  rfl
theorem CanEndLaunch.noLattice (h : CanEndLaunch s l x d pa key line) : (s.launch l).latticeLines = [] := by
  have hnone : x.replicas = [] := by obtain ⟨-, -, -, -, -, hnone, -, -, -, -, -⟩ := h; exact hnone
  rw [h.launch, Launch.latticeLines, hnone]
  rfl
theorem CanEndLaunch.inFrame (h : CanEndLaunch s l x d pa key line) : s.inFrame l = false := by rw [State.inFrame, h.noBlocks]; rfl
theorem CanEndLaunch.sendOut (h : CanEndLaunch s l x d pa key line) : s.sendOut l = false := by
  rw [State.sendOut, h.noBlocks, List.any_nil, Bool.false_or, List.any_eq_false]
  intro i hi hsend
  simp only [Bool.and_eq_true, decide_eq_true_eq, List.any_eq_true] at hsend
  obtain ⟨hil, e, he, c, hc, hon⟩ := hsend
  simp only [EngCmd.sendsOn, Bool.and_eq_true, decide_eq_true_eq] at hon
  obtain ⟨⟨⟨⟨hkind, -⟩, -⟩, -⟩, hprogress⟩ := hon
  have := h.sends i hi hil e he c hc hkind
  omega

/-- The end of a launch is its going and its completion record. -/
theorem CanEndLaunch.endLaunch (h : CanEndLaunch s l x d pa key line) : ∃ status cause blk,
    status + cause * 2 ^ 8 + blk * 2 ^ 32 = endWord x ∧
    s.endLaunch l = (s.withoutLaunch l).writeCompletion l x.desc status cause blk := by
  unfold State.endLaunch
  simp only [h.here]
  rcases h.ends with hph | ⟨hph, hlen⟩
  · refine ⟨x.status, x.cause.toNat, x.causeBlk.getD 0, by rw [endWord, if_pos hph], ?_⟩
    rw [if_pos hph, if_neg (by simp [h.inFrame, h.sendOut]), h.discardStaged, h.dropLaunch]
  · have hno : x.phase ≠ .halting := by rw [hph]; decide
    have hclean : s.settlesPoison l = false := by rw [State.settlesPoison, h.noLattice]; rfl
    have hsettle : s.settleReplicas l = s := by rw [State.settleReplicas, h.noLattice]; rfl
    refine ⟨0, 0, 0, by rw [endWord, if_neg hno]; rfl, ?_⟩
    have hall : x.finished.length = descNblocks x.desc := hlen
    rw [if_neg hno, if_pos (by simp [hph, hall]), if_neg (by rw [hclean]; exact Bool.false_ne_true),
      h.commitStaged, hsettle, h.dropLaunch]

theorem accesses_withoutLaunch (s : State) (l : Nat) (y : Launch) (ln : Nat) : (s.withoutLaunch l).accesses y ln = s.accesses y ln := by
  have hregion (a b : Nat) : (s.withoutLaunch l).oneRegion a b = s.oneRegion a b := by
    unfold State.oneRegion State.withoutLaunch
    simp only [List.any_map]
    rfl
  unfold State.accesses
  simp only [hregion]
theorem Owned.withoutLaunch {ln : Nat} (h : Owned s d ln key line) (l : Nat) : Owned (s.withoutLaunch l) d ln key line where
  die := h.die
  here := h.here
  owned := h.owned
  key := h.key
  alone := h.alone
  still := h.still
  unarmed := fun k => by
    by_cases hk : k = l
    · rw [State.launch, Tab.getD, hk, show (s.withoutLaunch l).launches.get? l = none from Tab.get?_del_self ..]; rfl
    · rw [State.launch, Tab.getD, show (s.withoutLaunch l).launches.get? k = s.launches.get? k from Tab.get?_del_ne _ hk]
      exact h.unarmed k
  plain := fun e he => by
    rw [accesses_withoutLaunch]
    exact h.plain e (Tab.mem_del he)

/-- What else the package holds after it. -/
theorem launchEnded_of {y : StackLine} {t : State} (h : HoldsNow (s.withoutLaunch l) d (pa / 128) y t)
    (hr : Recorded line y (pa % 128) (endWord x)) : LaunchEnded s l x d pa line t := by
  obtain ⟨hcopy, hy⟩ := h
  have hlines : ∀ a n, (a ≠ d ∨ n ≠ pa / 128) → (t.die a).stack.get? n = (s.die a).stack.get? n := fun a n hne => by
    by_cases hn : n = pa / 128
    · rw [hcopy.die_ne (hne.resolve_right (fun hc => hc hn))]; rfl
    · exact hcopy.get? hn a
  obtain ⟨D, R, ht⟩ : ∃ D R, t = { s.withoutLaunch l with dies := D, dir := R } := ⟨_, _, hcopy.rest⟩
  subst ht
  exact {
    rest := rfl
    cores := fun c => Tab.getD_map s.cores (fun k => k.dropCasts l) Core.reset rfl c
    gone := ⟨Tab.get?_del_self .., fun k hk => Tab.get?_del_ne _ hk⟩
    logs := fun _ => rfl
    images := ⟨rfl, rfl⟩
    blocks := fun _ => rfl
    record := ⟨y, hy, hr.dirty, hr.status, hr.counter, hr.others⟩
    lines := hlines }

theorem CanEndLaunch.ended (h : CanEndLaunch s l x d pa key line) : LaunchEnded s l x d pa line (s.endLaunch l) := by
  obtain ⟨status, cause, blk, hword, heq⟩ := h.endLaunch
  obtain ⟨hne, h16, hui⟩ := h.record
  obtain ⟨y, hy, hr⟩ := writeCompletion_written (u := s.withoutLaunch l) (l := l) (status := status) (cause := cause) (blk := blk)
    (leadDie_of_leads h.leads) hne ((bitN_false_iff x.desc 458).mpr hui) (h.may.mono (h.may.own.withoutLaunch l) rfl fun _ _ => rfl)
    (h.may8.mono (h.may8.own.withoutLaunch l) rfl fun _ _ => rfl) h.clean
  rw [heq]
  exact launchEnded_of hy (hword ▸ hr)

end

theorem completes_launchEnd (s : State) (l : Nat) :
    Completes (.launchEnd l) s (fun t => ∀ x d pa key line, CanEndLaunch s l x d pa key line → LaunchEnded s l x d pa line t) :=
  ⟨_, rfl, fun _ _ _ _ _ hc => hc.ended⟩

end Sys2Proof.Claims

/-! # The placement of a block (R30, R35, R48, R168, R243, R275, R284) -/
namespace Sys2Proof.Tab

theorem get?_foldl_put_ne {α : Type} {k : Nat → Nat} {v : Nat → α} {j : Nat} (l : List Nat) (h : ∀ i ∈ l, j ≠ k i) (t : Tab α) :
    (l.foldl (fun t i => t.put (k i) (v i)) t).get? j = t.get? j := by
  induction l generalizing t with
  | nil => rfl
  | cons a l ih =>
    rw [List.foldl_cons, ih (fun i hi => h i (List.mem_cons_of_mem a hi)), get?_put_ne _ _ (h a List.mem_cons_self)]
theorem get?_foldl_put {α : Type} {k : Nat → Nat} {v : Nat → α} (hk : ∀ i j, k i = k j → i = j) {l : List Nat} {i : Nat} (hi : i ∈ l)
    (t : Tab α) : (l.foldl (fun t i => t.put (k i) (v i)) t).get? (k i) = some (v i) := by
  induction l generalizing t with
  | nil => exact absurd hi List.not_mem_nil
  | cons a l ih =>
    rw [List.foldl_cons]
    by_cases hil : i ∈ l
    · exact ih hil _
    · obtain rfl : i = a := (List.mem_cons.mp hi).resolve_right hil
      rw [get?_foldl_put_ne l (fun j hj hij => hil (by rwa [hk _ _ hij])), get?_put_self]
/-- Two writes of one key that a filter and a sum do not tell apart. -/
theorem sum_put_congr {α : Type} (p : Nat × α → Bool) (g : α → Nat) {k : Nat} {v w : α} (hp : p (k, v) = p (k, w)) (hg : g v = g w)
    (t : Tab α) (a : Nat) : ((t.put k v).filter p).foldl (fun a e => a + g e.2) a = ((t.put k w).filter p).foldl (fun a e => a + g e.2) a := by
  have hone (t : Tab α) (a : Nat) :
      (((k, v) :: t).filter p).foldl (fun a e => a + g e.2) a = (((k, w) :: t).filter p).foldl (fun a e => a + g e.2) a := by
    by_cases h : p (k, v) = true
    · rw [List.filter_cons_of_pos h, List.filter_cons_of_pos (hp ▸ h), List.foldl_cons, List.foldl_cons, hg]
    · rw [List.filter_cons_of_neg h, List.filter_cons_of_neg (hp ▸ h)]
  induction t generalizing a with
  | nil => exact hone [] a
  | cons e t ih =>
    simp only [put]
    split
    · exact hone _ a
    · split
      · exact hone _ a
      · by_cases he : p e = true
        · rw [List.filter_cons_of_pos he, List.filter_cons_of_pos he, List.foldl_cons, List.foldl_cons, ih]
        · rw [List.filter_cons_of_neg he, List.filter_cons_of_neg he, ih]

end Sys2Proof.Tab

namespace Sys2Proof.Machine

/-- The floes of a launch's new block among those of a state. -/
def State.withStarted (s : State) (l : Launch) (b : Nat) (ctime : BitVec 16) : Tab Floe :=
  (upTo (descFloes l.desc)).foldl (fun t i =>
    t.put (floeKey b (i * descWidth l.desc)) (startFloe l (i * descWidth l.desc) ctime s.now)) s.floes

/-- A new block of a launch at a position of a core. -/
def State.newBlock (s : State) (l : Launch) (c pos id : Nat) : Block :=
  { Block.reset with launch := l.id, id := id, core := c, pos := pos, floes := descFloes l.desc, width := descWidth l.desc
                     maxsplit := descMaxsplit l.desc, nregs := descRegs l.desc, spadKiB := descSpad l.desc
                     layout := placeFloes (s.usedSlots c) (descWidth l.desc / descMaxsplit l.desc) (descFloes l.desc) [] }
/-- A core that holds a launch's entry segment in slot 0 (R30, R275). -/
def Core.loaded (k : Core) (l : Launch) : Core :=
  { k.prepare l.id with slots := (k.prepare l.id).slots.put 0 ⟨.landed, 4096, l.image, l.badImage, ((k.prepare l.id).slot 0).fetches⟩ }

theorem Core.prepare_ctime (k : Core) (l : Nat) : (k.prepare l).ctime = k.ctime := by
  unfold Core.prepare
  split <;> rfl

theorem State.setFloes_eq (k : Nat → Nat) (v : Nat → BitVec 16 → Nat → Floe) (c : Nat) (l : List Nat) (s : State) :
    l.foldl (fun s i => s.setFloe (k i) (v i (s.core c).ctime s.now)) s =
      { s with floes := l.foldl (fun t i => t.put (k i) (v i (s.core c).ctime s.now)) s.floes } := by
  induction l generalizing s with
  | nil => rfl
  | cons i l ih => rw [List.foldl_cons, ih]; rfl

/-- What preparing a block writes. -/
theorem State.prepareBlock_eq (s : State) (l : Launch) (c pos id : Nat) :
    s.prepareBlock l c pos id = { s with
      cores := s.cores.put c ((s.core c).loaded l)
      blocks := s.blocks.put (c * 16 + pos) (s.newBlock l c pos id)
      floes := s.withStarted l (c * 16 + pos) (s.core c).ctime } := by
  unfold State.prepareBlock
  simp only
  rw [State.setFloes_eq (fun i => floeKey (c * 16 + pos) (i * descWidth l.desc)) (fun i ct now => startFloe l (i * descWidth l.desc) ct now) c]
  have hc : State.core ((s.updCore c (fun k => k.loaded l)).setBlock (c * 16 + pos) (s.newBlock l c pos id)) c = (s.core c).loaded l :=
    Tab.getD_put_self ..
  have ht : (State.core ((s.updCore c (fun k => k.loaded l)).setBlock (c * 16 + pos) (s.newBlock l c pos id)) c).ctime = (s.core c).ctime := by
    rw [hc]; exact Core.prepare_ctime ..
  have h := congrArg (fun ct => ({ s with
    cores := s.cores.put c ((s.core c).loaded l), blocks := s.blocks.put (c * 16 + pos) (s.newBlock l c pos id)
    floes := s.withStarted l (c * 16 + pos) ct } : State)) ht
  exact h

/-- A launch with one block more placed (R168, R284). -/
def Launch.placedMore (y : Launch) (arm : Bool) (snaps : List Nat) : Launch :=
  { y with phase := .running, placed := y.placed + 1, armed := if arm then true else y.armed, snapSet := if arm then snaps else y.snapSet }

/-- Stacks with room for a shelf give up no line. -/
theorem State.carveShelf_room {s : State} {ds : List Nat} (h : ∀ d ∈ ds, (s.die d).stack.length ≤ s.linesFor d) : s.carveShelf ds = s := by
  refine Claims.foldl_id _ ds s fun d hd => ?_
  rw [Nat.sub_eq_zero_of_le (h d hd), List.take_zero]
  rfl

/-- The lines that an agent has room for follow from its dies and from the phases, dies and shelves of the launches. -/
theorem State.linesFor_congr {u v : State} (t : Tab Launch) (k : Nat) (x y : Launch) (hd : u.dies = v.dies) (hu : u.launches = t.put k x)
    (hv : v.launches = t.put k y) (hp : x.phase = y.phase) (hds : x.dies = y.dies) (hdesc : x.desc = y.desc) (d : Nat) :
    u.linesFor d = v.linesFor d := by
  have hshelf : u.shelfMiB d = v.shelfMiB d := by
    unfold State.shelfMiB
    rw [hu, hv]
    exact Tab.sum_put_congr (k := k) (v := x) (w := y) (fun e => e.2.phase ≠ .queued && e.2.phase ≠ .ended && d ∈ e.2.dies)
      (fun l => descShelf l.desc) (by simp only [hp, hds]) (by rw [hdesc]) t 0
  have hdie (i : Nat) : u.die i = v.die i := by rw [State.die, hd]; rfl
  unfold State.linesFor
  simp only [hshelf, hdie]

/-- The state with a launch's next block at a position of a core. -/
def State.withPlaced (s : State) (l : Launch) (c pos : Nat) : State :=
  { s with
    cores := s.cores.put c ((s.core c).loaded l)
    blocks := s.blocks.put (c * 16 + pos) (s.newBlock l c pos l.placed)
    floes := s.withStarted l (c * 16 + pos) (s.core c).ctime
    launches := s.launches.put l.id (l.placedMore (l.placed = 0 && l.replay) (s.snapFrames (descAsid l.desc))) }

theorem State.updLaunch_here {s : State} {k : Nat} {l : Launch} (h : s.launches.get? k = some l) (g : Launch → Launch) :
    s.updLaunch k g = { s with launches := s.launches.put k (g l) } := by
  unfold State.updLaunch
  rw [h]

/-- What placing a launch's block does, its parameters unpoisoned and the stacks with room for its shelf. -/
theorem State.placeAt_eq {s : State} {l : Launch} {c pos : Nat} (hl : s.launches.get? l.id = some l)
    (hpos : ((upTo 16).find? (fun p => (s.blocks.get? (c * 16 + p)).isNone)).getD 0 = pos) (hclean : l.badParams = false)
    (hshelf : l.placed = 0 → ∀ d ∈ l.dies, (s.die d).stack.length ≤ (s.updLaunch l.id (fun y => { y with phase := .running })).linesFor d) :
    s.placeAt l.id c = s.withPlaced l c pos := by
  have hx : s.launch l.id = l := by rw [State.launch, Tab.getD, hl]; rfl
  unfold State.placeAt
  simp only [hx, hpos, State.prepareBlock_eq, State.updLaunch, hl]
  rw [if_neg (show ¬ l.badParams = true by rw [hclean]; exact Bool.false_ne_true)]
  by_cases h0 : l.placed = 0
  · rw [if_pos h0]
    refine State.carveShelf_room (s := s.withPlaced l c pos) fun d hd => ?_
    have hline := hshelf h0 d hd
    rw [State.updLaunch_here hl] at hline
    exact hline.trans_eq (State.linesFor_congr
      (u := { s with launches := s.launches.put l.id { l with phase := .running } }) (v := s.withPlaced l c pos)
      s.launches l.id { l with phase := .running }
      (l.placedMore (l.placed = 0 && l.replay) (s.snapFrames (descAsid l.desc))) rfl rfl rfl rfl rfl rfl d)
  · rw [if_neg h0]
    rfl

end Sys2Proof.Machine

namespace Sys2Proof.Claims
open Sys2Proof.Machine

theorem getLsbD_below {w l : Nat} (h : l < 128) : (Mask.below w).getLsbD l = decide (l < w) := by
  rw [Mask.below, BitVec.getLsbD_ofNat, Nat.testBit_two_pow_sub_one]
  simp [h]

/-- A table filled from a list: entry n is the list's. -/
theorem getD_fill {α : Type} [DecidableEq α] (d : α) (xs : List α) (k : Nat) (t : Tab α) (n : Nat) :
    ((xs.zip (List.range' k xs.length)).foldl (fun t e => t.set d e.2 e.1) t).getD n d =
      if k ≤ n ∧ n < k + xs.length then xs.getD (n - k) d else t.getD n d := by
  induction xs generalizing k t with
  | nil => simp
  | cons x xs ih =>
    rw [List.length_cons, List.range'_succ, List.zip_cons_cons, List.foldl_cons, ih, Tab.getD_set]
    by_cases hn : n = k
    · simp [hn]
    · by_cases hk : k ≤ n
      · have hsub : n - k = (n - (k + 1)) + 1 := by omega
        rw [hsub, List.getD_cons_succ, if_neg hn]
        by_cases hlt : n < k + 1 + xs.length
        · rw [if_pos (by omega), if_pos (by omega)]
        · rw [if_neg (by omega), if_neg (by omega)]
      · rw [if_neg (by omega), if_neg hn, if_neg (by omega)]
theorem getD_fill_upTo {α : Type} [DecidableEq α] (d : α) (xs : List α) (n : Nat) :
    Tab.getD ((xs.zip (upTo xs.length)).foldl (fun t e => t.set d e.2 e.1) []) n d = xs.getD n d := by
  rw [upTo, List.range_eq_range', getD_fill d xs 0 [] n]
  by_cases h : n < xs.length
  · rw [if_pos (by omega), Nat.sub_zero]
  · rw [if_neg (by omega), List.getD_eq_default _ _ (by omega)]
    rfl

theorem freshFloe_startFloe (l : Launch) (base : Nat) (ctime : BitVec 16) (now : Nat) :
    FreshFloe l.desc l.params base (startFloe l base ctime now) ctime where
  shape := ⟨rfl, rfl, rfl, rfl⟩
  lanes := fun _ h => getLsbD_below h
  frag := ⟨_, rfl, rfl, rfl, rfl, rfl, rfl⟩
  unis := fun n _ => getD_fill_upTo 0 l.params n
  zero := ⟨rfl, rfl, rfl, rfl, rfl, rfl, rfl, rfl, rfl, rfl, rfl, rfl, rfl, rfl, rfl, rfl, rfl⟩
  bare := ⟨rfl, rfl, rfl, rfl, rfl, rfl, rfl, rfl, rfl, rfl, rfl, rfl, rfl, rfl, rfl⟩

/-- The floes of a block stand 16 * 2^k lanes apart, so that no two have one key. -/
theorem floeKey_inj {b k i j : Nat} (h : floeKey b (i * (16 * 2 ^ k)) = floeKey b (j * (16 * 2 ^ k))) : i = j := by
  have hdiv (n : Nat) : n * (16 * 2 ^ k) / 16 = n * 2 ^ k := by
    rw [Nat.mul_left_comm, Nat.mul_div_cancel_left _ (by omega)]
  unfold floeKey at h
  rw [hdiv, hdiv] at h
  exact Nat.eq_of_mul_eq_mul_right (Nat.two_pow_pos k) (Nat.add_left_cancel h)

/-- The state with a launch's next block at a free position is the one that the rules give. -/
theorem blockPlaced_withPlaced (s : State) (l : Launch) (c pos : Nat) : BlockPlaced s l c pos (s.withPlaced l c pos) := by
  have hcore : (s.withPlaced l c pos).core c = (s.core c).loaded l := Tab.getD_put_self ..
  have hslots : ((s.core c).loaded l).slots = ((s.core c).prepare l.id).slots.put 0
      ⟨.landed, 4096, l.image, l.badImage, (((s.core c).prepare l.id).slot 0).fetches⟩ := rfl
  exact {
    rest := rfl
    cores := fun k hk => Tab.get?_put_ne _ _ hk
    core := by rw [hcore]; rfl
    slot := by rw [hcore, Core.slot, hslots, Tab.getD_put_self]; rfl
    slots := fun k hk => by rw [hcore, Core.slot, hslots, Tab.getD_put_ne _ _ _ hk]; rfl
    blocks := fun k hk => Tab.get?_put_ne _ _ hk
    block := ⟨_, Tab.get?_put_self .., rfl, rfl, rfl, rfl, rfl, rfl, rfl, rfl, rfl, rfl, rfl, rfl, rfl, rfl, rfl, rfl, rfl, rfl, rfl, rfl, rfl⟩
    floes := fun i hi => ⟨_, Tab.get?_foldl_put (fun _ _ => floeKey_inj) (List.mem_range.mpr hi) _, freshFloe_startFloe ..⟩
    others := fun f hf => Tab.get?_foldl_put_ne _ (fun i hi => hf i (List.mem_range.mp hi)) _
    launch := by
      refine ⟨_, Tab.get?_put_self .., ?_⟩
      simp [Launch.placedMore]
    rest_ := fun k hk => Tab.get?_put_ne _ _ hk }

/-- The distributor's step (R168). -/
theorem placeNext_chosen {s : State} {l : Launch} {c pos : Nat} (h : Chosen s l c pos) : s.placeNext = s.withPlaced l c pos := by
  obtain ⟨held, hchoice⟩ := h.choice
  obtain ⟨hfree, hlt, hbelow⟩ := h.free
  have hpos : ((upTo 16).find? (fun p => (s.blocks.get? (c * 16 + p)).isNone)).getD 0 = pos := by
    rw [find?_least hlt (by simp [hfree]) (fun i hi => by simpa [Option.isSome_iff_ne_none] using hbelow i hi)]
    rfl
  have hat : s.placeAt l.id c = s.withPlaced l c pos := State.placeAt_eq h.here hpos h.clean h.shelf
  unfold State.placeNext
  simp only [hchoice, hat]
  rcases h.single with h0 | h1
  · rw [if_neg (by rw [descCores, (bitN_false_iff l.desc 460).mpr h0]; exact Bool.false_ne_true)]
  · have hn : descNblocks l.desc - l.placed - 1 = 0 := by
      rw [show descNblocks l.desc = l.placed + 1 from h1]; omega
    rw [hn]
    exact ite_self _

theorem completes_blockPlacement {s : State} {l : Launch} {c pos : Nat} (h : Chosen s l c pos) :
    Completes .blockPlacement s (BlockPlaced s l c pos) :=
  ⟨_, rfl, placeNext_chosen h ▸ blockPlaced_withPlaced ..⟩

end Sys2Proof.Claims

/-! # What acceptance reads (R28, R205, R215, R459) -/
namespace Sys2Proof.Claims
open Sys2Proof.Machine

/-! ## Bytes as a unit reads them -/

/-- n bytes from an index, without poison. -/
def loaded (b : Nat → Byte) (k n : Nat) : List PByte := (upTo n).map (fun i => (b (k + i), false))

theorem loaded_length (b : Nat → Byte) (k n : Nat) : (loaded b k n).length = n := by simp [loaded, upTo]
theorem loaded_clean (b : Nat → Byte) (k n : Nat) : (loaded b k n).any (fun x => x.2) = false := by simp [loaded]
theorem loaded_append (b : Nat → Byte) (k m n : Nat) : loaded b k m ++ loaded b (k + m) n = loaded b k (m + n) := by
  simp only [loaded, upTo, List.range_add, List.map_append, List.map_map]
  congr 1
  exact List.map_congr_left fun i _ => by simp [Nat.add_assoc]
theorem take_loaded (b : Nat → Byte) (k m n : Nat) : (loaded b k (m + n)).take m = loaded b k m := by
  rw [← loaded_append, List.take_left' (loaded_length ..)]
theorem drop_loaded (b : Nat → Byte) (k m n : Nat) : (loaded b k (m + n)).drop m = loaded b (k + m) n := by
  rw [← loaded_append, List.drop_left' (loaded_length ..)]

theorem number_eq_ofBytes (b : Nat → Byte) (n : Nat) : ∀ k, number b k n = ofBytes ((upTo n).map (fun i => b (k + i))) := by
  induction n with
  | zero => intro k; rfl
  | succ n ih =>
    intro k
    simp only [number, ih, upTo, List.range_succ_eq_map, List.map_cons, List.map_map, ofBytes, Nat.add_zero]
    congr 4
    funext i
    exact congrArg b (by simp only [Nat.succ_eq_add_one]; omega)
theorem pbNat_loaded (b : Nat → Byte) (k n : Nat) : pbNat (loaded b k n) = number b k n := by
  rw [number_eq_ofBytes, pbNat, loaded, List.map_map]
  rfl
theorem memNumber_eq_number (s : State) (n : Nat) : ∀ pa, memNumber s pa n = number s.memByte pa n := by
  intro pa
  rw [memNumber_eq_ofBytes, number_eq_ofBytes]
/-- Equal numbers of as many bytes have equal bytes. -/
theorem number_inj {b c : Nat → Byte} {n : Nat} : ∀ {k j : Nat}, number b k n = number c j n → ∀ i < n, b (k + i) = c (j + i) := by
  induction n with
  | zero => intro k j _ i hi; omega
  | succ n ih =>
    intro k j h i hi
    have hb := (b k).isLt
    have hc := (c j).isLt
    simp only [number] at h
    cases i with
    | zero => exact BitVec.eq_of_toNat_eq (by simp only [Nat.add_zero]; omega)
    | succ i =>
      have hrest := ih (k := k + 1) (j := j + 1) (by omega) i (by omega)
      rwa [Nat.add_right_comm k 1 i, Nat.add_right_comm j 1 i] at hrest

/-- Groups of m bytes. -/
theorem groupsOf_loaded (b : Nat → Byte) (m n : Nat) : ∀ k,
    groupsOf m (loaded b k (n * m)) n = (List.range n).map (fun i => loaded b (k + m * i) m) := by
  induction n with
  | zero => intro k; rfl
  | succ n ih =>
    intro k
    rw [groupsOf, Nat.succ_mul, Nat.add_comm, take_loaded, drop_loaded, ih, List.range_succ_eq_map, List.map_cons, List.map_map]
    congr 1
    exact List.map_congr_left fun i _ => by simp only [Function.comp, Nat.mul_succ]; congr 1; omega

/-! ## One line -/

section
variable {s : State} {right asid va n v : Nat}

/-- What memory holds does not depend on queues and launches. -/
theorem Holds.frame (h : Holds s right asid va n v) (q : Tab SubQueue) (L : Tab Launch) (k : Nat) :
    Holds { s with subq := q, launches := L, nextLaunch := k } right asid va n v := by
  obtain ⟨hline, ⟨x, r, pa, hwalk, hright, hl, ht, hpa, hmod, htier, hown, hlogs, hkey, hbad, hval⟩, hstill⟩ := h
  have hw : State.walk { s with subq := q, launches := L, nextLaunch := k } asid va = s.walk asid va := by
    unfold State.walk
    rfl
  have hm : memNumber { s with subq := q, launches := L, nextLaunch := k } pa n = memNumber s pa n := by
    rw [memNumber_eq_number, memNumber_eq_number]
    rfl
  exact ⟨hline, ⟨x, r, pa, hw.trans hwalk, hright, hl, ht, hpa, hmod, htier, hown, hlogs, hkey, hbad, hval.trans hm.symm⟩, hstill⟩

/-- A line that no agent owns and no open log holds, written under the key and without poison, reads as memory has it. -/
theorem physBytes_memory {pa key : Nat} (hline : pa % 128 + n ≤ 128) (hstill : s.migrations = [])
    (hown : ∀ d < 13, ∀ y, (s.die d).stack.get? (pa / 128) = some y → y.owned = false)
    (hlogs : ∀ g ∈ s.logs, g.2.pa + g.2.len ≤ pa / 128 * 128 ∨ pa / 128 * 128 + 128 ≤ g.2.pa)
    (hkey : s.memKeys.getD (pa / 128) key = key) (hbad : ∀ i < 32, pa / 128 * 32 + i ∉ s.badWords) :
    s.physBytes pa n key = loaded s.memByte pa n := by
  have howner : s.ownedLine (pa / 128) = none := by
    have hnone : s.ownerOf (pa / 128) = none := by
      refine List.find?_eq_none.mpr fun d hd => ?_
      cases hy : (s.die d).stack.get? (pa / 128) with
      | none => exact Bool.false_ne_true
      | some y => simp [hown d (List.mem_range.mp hd) y hy]
    simp [State.ownedLine, hnone, State.aliasOf, hstill]
  have hlog : s.logs.any (fun e => e.2.pa < pa / 128 * 128 + 128 && pa / 128 * 128 < e.2.pa + e.2.len) = false :=
    List.any_eq_false.mpr fun g hg => by
      have := hlogs g hg
      simp only [Bool.and_eq_true, decide_eq_true_eq]
      omega
  have hdata : s.memLineAs (pa / 128) key = s.memLine (pa / 128) := by
    unfold State.memLineAs
    rw [State.memKey, lineHome_still hstill, hkey, hlog]
    simp [rekey]
  have hpoison : s.memPoison (pa / 128) = 0 := by
    unfold State.memPoison
    rw [foldl_id]
    · rfl
    · intro i hi
      rw [lineHome_still hstill, if_neg (hbad i (List.mem_range.mp hi))]
  unfold State.physBytes
  simp only [howner, hdata, hpoison]
  refine List.map_congr_left fun i hi => ?_
  have hi : i < n := List.mem_range.mp hi
  rw [byte_memLine s _ (by omega), show pa / 128 * 128 + (pa % 128 + i) = pa + i by omega]
  simp

/-- A unit's read of it: the checks pass, and the bytes are the number's. -/
theorem Holds.read {b : Nat → Byte} {o : Nat} (h : Holds s right asid va n (number b o n)) {k : AccKind}
    (hk : k = .load ∧ right = 1 ∨ k = .exec ∧ right = 3) : ∃ pa key nc,
    s.unitPlace asid k va = .ok (.phys pa key nc) ∧ s.firnHolds (.phys pa key nc) = false ∧ s.physBytes pa n key = loaded b o n := by
  obtain ⟨hn, hline, hva, hap⟩ := h.inLine
  obtain ⟨x, r, pa, hwalk, hright, hl, ht, hpa, hmod, htier, hown, hlogs, hkey, hbad, hval⟩ := h.mapped
  refine ⟨pa, attrKey x.attr, attrNc x.attr, ?_, ?_, ?_⟩
  · rw [hpa]
    rcases hk with ⟨rfl, rfl⟩ | ⟨rfl, rfl⟩
    · exact unitPlace_plain hva hap hwalk hl ht (by decide) (by simp [AccKind.needsRead, AccKind.needsWrite, attrRead, hright])
    · exact unitPlace_plain hva hap hwalk hl ht (by decide) (by simp [AccKind.needsRead, AccKind.needsWrite, attrExec, hright])
  · have : ¬ paTier pa = 2 := by omega
    simp [State.firnHolds, this]
  · have hbytes := number_inj (hval.trans (memNumber_eq_number s n pa))
    refine (physBytes_memory (n := n) (by omega) h.still hown hlogs hkey hbad).trans ?_
    exact List.map_congr_left fun i hi => by rw [hbytes i (List.mem_range.mp hi)]

end

/-! ## Runs of lines -/

theorem foldl_chunks {u : State} {F : Got (List PByte) → Nat × Nat → Got (List PByte)} {b : Nat → Byte} {va0 : Nat} (fuel : Nat) :
    ∀ {va n : Nat}, n ≤ fuel → va0 ≤ va →
    (∀ acc, ∀ c ∈ chunks fuel va n, F (.ok acc u) c = .ok (acc ++ loaded b (c.1 - va0) c.2) u) → ∀ acc,
    (chunks fuel va n).foldl F (.ok acc u) = .ok (acc ++ loaded b (va - va0) n) u := by
  induction fuel with
  | zero =>
    intro va n hn _ _ acc
    obtain rfl : n = 0 := by omega
    simp [chunks, loaded, upTo]
  | succ fuel ih =>
    intro va n hn h0 hF acc
    unfold chunks at hF ⊢
    by_cases hz : n = 0
    · simp [hz, loaded, upTo]
    · simp only [if_neg hz] at hF ⊢
      have hmin : Nat.min n (128 - va % 128) ≤ n := Nat.min_le_left ..
      have hpos : 0 < Nat.min n (128 - va % 128) := by
        have : va % 128 < 128 := Nat.mod_lt _ (by omega)
        exact Nat.lt_min.mpr ⟨by omega, by omega⟩
      generalize Nat.min n (128 - va % 128) = m at hF hmin hpos ⊢
      rw [List.foldl_cons, hF acc _ List.mem_cons_self, ih (by omega) (by omega) fun acc c hc => hF acc c (List.mem_cons_of_mem _ hc),
        List.append_assoc, show va + m - va0 = va - va0 + m by omega, loaded_append, show m + (n - m) = n by omega]

/-- A unit's read of a run of bytes that memory holds. -/
theorem vaLoad_holds {s : State} {right asid va n : Nat} {b : Nat → Byte} (h : HoldsRun s right asid va n b) {k : AccKind}
    (hk : k = .load ∧ right = 1 ∨ k = .exec ∧ right = 3) (l die : Nat) : s.vaLoad l die asid k va n = .ok (loaded b 0 n) s := by
  have hfold := fun F hF => foldl_chunks (u := s) (F := F) (b := b) (va0 := va) n (le_refl n) (le_refl va) hF []
  rw [List.nil_append, Nat.sub_self] at hfold
  refine hfold _ fun acc c hc => ?_
  obtain ⟨pa, key, nc, hplace, hfirn, hbytes⟩ := (h c hc).read hk
  simp only [hplace, hfirn, hbytes]
  rfl

end Sys2Proof.Claims

/-! # The acceptance of a launch (R28, R31, R33, R35, R459) -/
namespace Sys2Proof.Claims
open Sys2Proof.Machine

/-! ## Room (R33, R35) -/

theorem roundUp_eq (n : Nat) : roundUp n 32768 = (n + 32767) / 32768 * 32768 := by
  rw [roundUp, Nat.add_sub_assoc (by omega)]
theorem regBytes_eq (d : BitVec 1024) : descRb d = regBytes d := by
  simp only [descRb, regBytes, roundUp_eq, descFloes, descWidth, descRegs, dfield_eq]
theorem spadBytes_eq (d : BitVec 1024) : descSb d = spadBytes d := by
  simp only [descSb, spadBytes, roundUp_eq, descSpad, dfield_eq]

theorem le_foldl_max (l : List Nat) : ∀ a, a ≤ l.foldl Nat.max a ∧ ∀ k ∈ l, k ≤ l.foldl Nat.max a := by
  induction l with
  | nil => intro a; exact ⟨le_refl a, fun _ h => nomatch h⟩
  | cons x l ih =>
    intro a
    obtain ⟨hacc, hmem⟩ := ih (Nat.max a x)
    refine ⟨(Nat.le_max_left a x).trans hacc, fun k hk => ?_⟩
    rcases List.mem_cons.mp hk with rfl | hk
    · exact (Nat.le_max_right a k).trans hacc
    · exact hmem k hk
/-- A core holds at least as many blocks as fit. -/
theorem Fits.le_descK {d : BitVec 1024} {k : Nat} (h : Fits d k) : k ≤ descK d := by
  obtain ⟨hmost, hslots, hregs, hstore⟩ := h
  refine (le_foldl_max _ 0).2 k (List.mem_filter.mpr ⟨List.mem_range.mpr (by omega), ?_⟩)
  have h1 : k * descSlots d ≤ 256 := hslots
  have h2 : k * descRb d ≤ 4096 * 1024 := by rwa [regBytes_eq]
  have h3 : k * (descRb d + descSb d) + 512 * 1024 ≤ 6144 * 1024 := by rwa [regBytes_eq, spadBytes_eq]
  simp only [h1, h2, h3, decide_true, Bool.and_self]

/-- The cores of some dies are no more than those of all that a descriptor may use. -/
theorem sum_le_mapped {s : State} {d : BitVec 1024} {ds : List Nat} (hn : ds.Nodup) (hu : ∀ i ∈ ds, usable s d i) (f : Nat → Nat) :
    (ds.map f).sum ≤ ((s.mappedDies d).map f).sum := by
  obtain ⟨l, hperm, hsub⟩ := hn.subperm fun i hi => mem_mappedDies.mpr (hu i hi)
  rw [← (hperm.map f).sum_eq]
  exact (hsub.map f).sum_le_sum fun _ _ => Nat.zero_le _
theorem FitsAll.enough {s : State} {d : BitVec 1024} (h : FitsAll s d) :
    descNblocks d ≤ descK d * ((s.mappedDies d).map (fun i => (s.die i).map.length * 8)).foldl (· + ·) 0 := by
  obtain ⟨k, ds, hk, hn, hu, hle⟩ := h
  rw [← List.sum_eq_foldl]
  exact hle.trans (Nat.mul_le_mul hk.le_descK (sum_le_mapped hn hu _))
theorem unfit_of {s : State} {d : BitVec 1024} {x : Reading} (h : Acceptable s d x) : s.unfit d = false := by
  have hk : descK d ≠ 0 := Nat.one_le_iff_ne_zero.mp h.fits.le_descK
  have hall : (descCores d &&
      decide (descK d * ((s.mappedDies d).map (fun i => (s.die i).map.length * 8)).foldl (· + ·) 0 < descNblocks d)) = false := by
    cases hc : descCores d with
    | false => rfl
    | true =>
      have := (h.all ((bitN_iff d 460).mp hc)).enough
      simp [Nat.not_lt.mpr this]
  unfold State.unfit
  simp only [hk, h.good.usable, hall, decide_false, Bool.or_self]

/-! ## The cohort table (R28) -/

/-- Entry i of a table, as acceptance keeps it. -/
def Reading.word (x : Reading) (i : Nat) : BitVec 512 := BitVec.ofNat 512 (x.entry i)
theorem Reading.word_field (x : Reading) (i lo n : Nat) : fieldN (x.word i) lo n = x.entry i / 2 ^ lo % 2 ^ n := by
  have hword : (x.word i).toNat = x.entry i := by
    rw [Reading.word, Reading.entry, number_eq_ofBytes, toNat_ofNat_ofBytes _ (by simp [upTo])]
  rw [fieldN, bitsOf, hword]
theorem Reading.word_valid (x : Reading) (i : Nat) : cohValid (x.word i) = true ↔ x.entry i % 2 = 1 := by
  rw [cohValid, bitN_iff, Reading.word_field, pow_zero, Nat.div_one, pow_one]
/-- A block that the model finds in an entry is named by it. -/
theorem names_of_cohHas {x : Reading} {i id : Nat} (h : cohHas (x.word i) id = true) : names (x.entry i) id := by
  simp only [cohHas, Bool.and_eq_true, decide_eq_true_eq, Reading.word_field, Reading.word_valid] at h
  obtain ⟨⟨⟨hv, hle⟩, hmod⟩, hlt⟩ := h
  refine ⟨hv, _, hlt, ?_⟩
  have := Nat.div_mul_cancel (Nat.dvd_of_mod_eq_zero hmod)
  omega
theorem GoodCohorts.entryOk {d : BitVec 1024} {x : Reading} (h : GoodCohorts d x) {i : Nat} (hi : i < dfield d 391 9) :
    cohEntryOk (descNblocks d) (x.word i) = true := by
  obtain ⟨r1, r2⟩ := h.reserved i hi
  have hr : x.entry i / 2 ^ 128 % 2 ^ 384 = 0 := by rw [r1, Nat.zero_mod]
  have hr2 : x.entry i / 2 ^ 1 % 2 ^ 31 = 0 := by rw [pow_one]; exact r2
  simp only [cohEntryOk, Reading.word_field, hr, hr2]
  cases hv : cohValid (x.word i) with
  | false => rfl
  | true =>
    have hodd := (x.word_valid i).mp hv
    obtain ⟨s1, s2, c1, c2⟩ := h.values i hi hodd
    have hlast := h.members i hi _ ⟨hodd, _, Nat.sub_lt c1 Nat.one_pos, rfl⟩
    have hblocks : descNblocks d = dfield d 416 32 := rfl
    simp only [hblocks, Bool.not_true, Bool.false_or, Bool.and_eq_true, decide_eq_true_eq, decide_true, true_and]
    exact ⟨⟨⟨⟨Nat.one_le_iff_ne_zero.mp s1, s2⟩, Nat.one_le_iff_ne_zero.mp c1⟩, c2⟩, hlast⟩
/-- A good cohort table is accepted. -/
theorem GoodCohorts.tableOk {d : BitVec 1024} {x : Reading} (h : GoodCohorts d x) :
    cohTableOk (descNblocks d) ((List.range (dfield d 391 9)).map x.word) = true := by
  have hfour (id : Nat) : (((List.range (dfield d 391 9)).map x.word).filter (fun c => cohHas c id)).length ≤ 4 := by
    rw [List.filter_map, List.length_map]
    refine h.four id _ (List.nodup_range.filter _) fun j hj => ?_
    obtain ⟨hj, hhas⟩ := List.mem_filter.mp hj
    exact ⟨List.mem_range.mp hj, names_of_cohHas hhas⟩
  unfold cohTableOk
  rw [Bool.and_eq_true]
  refine ⟨List.all_eq_true.mpr fun e he => ?_, List.all_eq_true.mpr fun e _ => ?_⟩
  · obtain ⟨i, hi, rfl⟩ := List.mem_map.mp he
    exact h.entryOk (List.mem_range.mp hi)
  · rw [Bool.or_eq_true]
    exact .inr (List.all_eq_true.mpr fun id _ => decide_eq_true (hfour id))

/-! ## The images (R459) -/

/-- The table of bytes that acceptance makes of n bytes. -/
def byteTable (b : Nat → Byte) (n : Nat) : Tab Byte := ((loaded b 0 n).zip (upTo n)).foldl (fun t e => Tab.set 0 t e.2 e.1.1) []
theorem byteTable_eq (b : Nat → Byte) (n : Nat) :
    ((loaded b 0 n).zip (upTo n)).foldl (fun t e => Tab.set 0 t e.2 e.1.1) [] = byteTable b n := rfl
theorem byteTable_getD (b : Nat → Byte) {n j : Nat} (h : j < n) : (byteTable b n).getD j 0 = b j := by
  have hfill := getD_fill_upTo (0 : Byte) ((upTo n).map (fun i => b (0 + i))) j
  rw [List.length_map, upTo, List.length_range] at hfill
  have hzip : byteTable b n = (((upTo n).map (fun i => b (0 + i))).zip (upTo n)).foldl (fun t e => Tab.set 0 t e.2 e.1) [] := by
    rw [byteTable, loaded, List.zip_map_left, List.zip_map_left, List.foldl_map, List.foldl_map]
    rfl
  rw [hzip]
  refine hfill.trans ?_
  simp [h]
theorem noneBad (b : Nat → Byte) (n : Nat) : ((loaded b 0 n).zip (upTo n)).filterMap (fun e => if e.1.2 then some e.2 else none) = [] := by
  refine List.filterMap_eq_nil_iff.mpr fun e he => if_neg ?_
  obtain ⟨i, -, hi⟩ := List.mem_map.mp (List.of_mem_zip he).1
  rw [← hi]
  exact Bool.false_ne_true
theorem wordsOf_loaded (w : Nat) (b : Nat → Byte) (m n : Nat) :
    (groupsOf m (loaded b 0 (n * m)) n).map (fun g => BitVec.ofNat w (pbNat g)) =
      (List.range n).map (fun i => BitVec.ofNat w (number b (m * i) m)) := by
  rw [groupsOf_loaded, List.map_map]
  exact List.map_congr_left fun i _ => by simp only [Function.comp, pbNat_loaded, Nat.zero_add]

/-- Parameters and cohort table, as acceptance keeps them. -/
def Reading.paramWords (x : Reading) (d : BitVec 1024) : List W64 :=
  (List.range (descNparam d)).map (fun i => BitVec.ofNat 64 (number x.params (8 * i) 8))
def Reading.cohortWords (x : Reading) (d : BitVec 1024) : List (BitVec 512) := (List.range (descNcoh d)).map x.word

theorem Acceptable.readImages {s : State} {d : BitVec 1024} {x : Reading} (h : Acceptable s d x) (q : Tab SubQueue) (L : Tab Launch)
    (k id : Nat) : State.readImages { s with subq := q, launches := L, nextLaunch := k } id d =
      .ok (byteTable x.code 4096) [] (x.paramWords d) (x.cohortWords d) false { s with subq := q, launches := L, nextLaunch := k } := by
  have hcode : HoldsRun { s with subq := q, launches := L, nextLaunch := k } 3 (descAsid d) (descEntry d) 4096 x.code :=
    fun c hc => (h.code c hc).frame q L k
  have hparams : HoldsRun { s with subq := q, launches := L, nextLaunch := k } 1 (descAsid d) (descParam d) (descNparam d * 8) x.params :=
    fun c hc => (h.params c hc).frame q L k
  have hcohorts : HoldsRun { s with subq := q, launches := L, nextLaunch := k } 1 (descAsid d) (descCohtab d) (descNcoh d * 64) x.cohorts :=
    fun c hc => (h.cohorts c hc).frame q L k
  generalize ({ s with subq := q, launches := L, nextLaunch := k } : State) = u at hcode hparams hcohorts ⊢
  have hclean : (loaded x.params 0 (descNparam d * 8) ++ loaded x.cohorts 0 (descNcoh d * 64)).any (fun y => y.2) = false := by
    rw [List.any_append, loaded_clean, loaded_clean]; rfl
  unfold State.readImages
  simp only [vaLoad_holds hcode (.inr ⟨rfl, rfl⟩), vaLoad_holds hparams (.inl ⟨rfl, rfl⟩), vaLoad_holds hcohorts (.inl ⟨rfl, rfl⟩),
    wordsOf_loaded, noneBad, hclean, byteTable_eq]
  rfl

/-! ## A queued launch -/

/-- A launch as it stands after acceptance. -/
def queuedLaunch (s : State) (d : BitVec 1024) (x : Reading) : Launch :=
  { s.newLaunch s.nextLaunch d with
    image := byteTable x.code 4096, badImage := [], params := x.paramWords d, cohorts := x.cohortWords d, badParams := false }

theorem replay_eq (d : BitVec 1024) : (!(descNorep d)) = decide (dfield d 459 1 = 0) := by
  cases h : descNorep d with
  | false => exact (decide_eq_true ((bitN_false_iff d 459).mp h)).symm
  | true =>
    have h1 : dfield d 459 1 = 1 := (bitN_iff d 459).mp h
    rw [h1]
    rfl
/-- The state after a descriptor has left its queue and taken a `LAUNCHID`, with launches as given. -/
def State.taken (s : State) (q : Nat) (rest : List (BitVec 1024)) (L : Tab Launch) : State :=
  { unqueued s q rest with launches := L, nextLaunch := s.nextLaunch + 1 }

/-- A descriptor whose checks pass becomes a launch as it was read. -/
theorem acceptLaunch_ok {u v : State} {d : BitVec 1024} {image : Tab Byte} {bad : List Nat} {params : List W64} {cohorts : List (BitVec 512)}
    {badParams : Bool} (hbad : State.descBad { u with nextLaunch := u.nextLaunch + 1 } d = false)
    (hread : State.readImages { u with
      nextLaunch := u.nextLaunch + 1
      launches := u.launches.put u.nextLaunch (State.newLaunch { u with nextLaunch := u.nextLaunch + 1 } u.nextLaunch d) } u.nextLaunch d =
        .ok image bad params cohorts badParams v)
    (htable : cohTableOk (descNblocks d) cohorts = true) (hfit : v.unfit d = false) :
    u.acceptLaunch d = v.updLaunch u.nextLaunch (fun l =>
      { l with image := image, badImage := bad, params := params, cohorts := cohorts, badParams := badParams }) := by
  unfold State.acceptLaunch
  simp only [hbad, hread, htable, hfit]
  rfl

theorem Acceptable.acceptLaunch {s : State} {d : BitVec 1024} {x : Reading} (h : Acceptable s d x) (q : Nat) (rest : List (BitVec 1024)) :
    (unqueued s q rest).acceptLaunch d = State.taken s q rest
      ((s.launches.put s.nextLaunch (s.newLaunch s.nextLaunch d)).put s.nextLaunch (queuedLaunch s d x)) := by
  have hbad : State.descBad { unqueued s q rest with nextLaunch := s.nextLaunch + 1 } d = false := h.good.notBad
  have hread : (State.taken s q rest (s.launches.put s.nextLaunch (s.newLaunch s.nextLaunch d))).readImages s.nextLaunch d =
      .ok (byteTable x.code 4096) [] (x.paramWords d) (x.cohortWords d) false
        (State.taken s q rest (s.launches.put s.nextLaunch (s.newLaunch s.nextLaunch d))) := h.readImages _ _ _ _
  have hfits : s.unfit d = false := unfit_of h
  have hfit : (State.taken s q rest (s.launches.put s.nextLaunch (s.newLaunch s.nextLaunch d))).unfit d = false := hfits
  rw [acceptLaunch_ok hbad hread h.table.tableOk hfit]
  exact State.updLaunch_here (l := s.newLaunch s.nextLaunch d) (Tab.get?_put_self ..) _

theorem queuedLaunch_dies (s : State) (d : BitVec 1024) (x : Reading) (i : Nat) : i ∈ (queuedLaunch s d x).dies ↔ usable s d i :=
  mem_mappedDies
theorem queuedLaunch_image (s : State) (d : BitVec 1024) (x : Reading) {j : Nat} (h : j < 4096) :
    (queuedLaunch s d x).image.getD j 0 = x.code j := by
  simp only [queuedLaunch, byteTable_getD x.code h]

theorem Acceptable.queued {s : State} {d : BitVec 1024} {x : Reading} (h : Acceptable s d x) (q : Nat) (rest : List (BitVec 1024)) :
    LaunchQueued (unqueued s q rest) d x ((unqueued s q rest).acceptLaunch d) := by
  rw [h.acceptLaunch]
  exact {
    rest := rfl
    others := fun k hk => (Tab.get?_put_ne _ _ hk).trans (Tab.get?_put_ne _ _ hk)
    launch := ⟨queuedLaunch s d x, Tab.get?_put_self .., rfl, rfl, rfl, rfl, rfl, rfl, rfl, replay_eq d, rfl, rfl, rfl, rfl, rfl, rfl,
      queuedLaunch_dies s d x, fun _ => queuedLaunch_image s d x⟩ }

theorem completes_launchNow (s : State) (q : Nat) :
    Completes (.launchNow q) s (fun t => ∀ d rest x, Oldest s q d rest → Acceptable s d x → LaunchQueued (unqueued s q rest) d x t) := by
  refine ⟨_, rfl, fun d rest x ho ha => ?_⟩
  have hkind : descKind d ∈ [0, 3] := by rw [show descKind d = 0 from ha.kind]; exact List.mem_cons_self
  rw [takeDescriptor_oldest ho hkind]
  exact ha.queued q rest

end Sys2Proof.Claims

/-! # The steps of queues and placement -/
namespace Sys2Proof.Claims
open Sys2Proof.Machine

theorem completes_launchRule {s : State} {i : Instr} {e : Event} (hr : launchRule s i = some e) (hw : e.when) : Completes i s e.next := by
  cases i with
  | launchNow q => cases hr; exact completes_launchNow s q
  | bindTask q => cases hr; exact completes_bindTask hw
  | unbindTask q => cases hr; exact completes_unbindTask hw
  | blockFinish b => cases hr; exact completes_blockFinish hw
  | launchEnd l => cases hr; exact completes_launchEnd s l
  | _ => cases hr

/-- Settles O55, one lemma for each step: a descriptor whose checks pass is read from memory as `Holds` gives it line by line, a placement
writes the core, the block, its floes and its launch, and a launch's end is two stores of its command processor into one owned line. -/
theorem launchesRun : Obligations.LaunchesRun :=
  ⟨fun _ _ _ _ hr hw => completes_launchRule hr hw, fun _ _ _ _ h => completes_blockPlacement h⟩

end Sys2Proof.Claims

/-! # Cross-lane operations (R60, R389, R399, R430, R431, R433) -/
namespace Sys2Proof.Claims
open Sys2Proof.Machine

section
variable {s : State} {i : Instr} {a b d : BitVec 6}

/-! ## Registers that lanes read as they are stored -/

/-- A group that names no port leaves the ports of the others. -/
theorem portsOf_cons {g : VGroup} {gs : List VGroup} (h : s.portsOf [g] = []) : s.portsOf (g :: gs) = s.portsOf gs := by
  have hnone : (s.absRegs [g]).filterMap (fun j => s.fl.portOf j) = [] :=
    List.eq_nil_iff_forall_not_mem.2 fun q hq => by
      have hmem : q ∈ s.portsOf [g] := (mem_dedupe _ _).2 hq
      rw [h] at hmem
      exact List.not_mem_nil hmem
  have happ : s.absRegs (g :: gs) = s.absRegs [g] ++ s.absRegs gs := by simp [State.absRegs]
  rw [State.portsOf, happ, List.filterMap_append, hnone, List.nil_append, State.portsOf]

theorem readable_.namesPort (h : readable_ s a) : s.namesPort [VGroup.one a] = false := by
  obtain ⟨-, -, hport⟩ := h
  rw [State.namesPort, hport]
  rfl

/-- A register that lanes may read adds nothing to the checks of the other operands. -/
theorem readable_.gateForm (h : readable_ s a) (gs ds : List VGroup) :
    s.gateForm (VGroup.one a :: gs) ds false false = s.gateForm gs ds false false := by
  obtain ⟨hlt, hback, hport⟩ := h
  have hbad : s.groupBad (VGroup.one a :: (gs ++ ds)) = s.groupBad (gs ++ ds) := by
    have hgroup : ¬ s.blk.nregs < s.absReg a.toNat + 1 := by omega
    simp [State.groupBad, VGroup.one, hgroup, Nat.mod_one]
  have hname : s.namesBacking (VGroup.one a :: (gs ++ ds)) = s.namesBacking (gs ++ ds) := by
    simp [State.namesBacking, State.absRegs, VGroup.one, upTo, hback]
  unfold State.gateForm
  rw [List.cons_append, hbad, hname, portsOf_cons hport]

theorem CanRun.gateForm {e : Effect} (h : CanRun s e) : s.gateForm e.srcs e.dsts false false = none := by
  have hgate := h.gate rfl rfl
  unfold State.gate at hgate
  split at hgate
  · cases hgate
  · assumption

/-- What stands in a register that lanes read is sound where its word is not poisoned (R277). -/
theorem badLane_eq_false {l : Nat} (h : s.blk.regIdx (s.thread l) (s.absReg a.toNat) ∉ s.blk.badRegs) : s.badLane a l = false :=
  decide_eq_false h

/-- One result register per lane is one write per lane. -/
theorem writes_perLane {e : Effect} {v : Nat → W32} (hv : e.vec = perLane d v) :
    e.writes s = s.lanes.map (fun l => (⟨d.toNat, l, v l⟩ : VWrite)) := by
  rw [List.map_eq_flatMap, List.flatMap_def, Effect.writes, hv]
  rfl

/-- `SHFL` by any choice of source lane (R430, R431). -/
theorem completes_shfl {c : BitVec 1} {j : Nat → Nat → W32 → Nat} (hx : exec i s = floeOp i s (shfl j c b a d)) (hl : i.halfwords * 2 = 4)
    (h : CanRun s (shuffle s c b a d (j s.fl.width))) : Completes i s (After s (shuffle s c b a d (j s.fl.width))) := by
  obtain ⟨hread, hsound⟩ := h.also
  have hgate : s.gateForm (VGroup.one a :: if c = 1 then [] else [VGroup.one b]) [VGroup.one d] false (s.namesPort [VGroup.one a]) = none := by
    rw [hread.namesPort, hread.gateForm]
    exact h.gateForm
  have hclean : s.lanes.any (fun l => s.operandBad (if c = 1 then [] else [VGroup.one b]) l ||
      s.badLane a (j s.fl.width l (if c = 1 then lo32 (s.S b.toNat) else s.V b.toNat l))) = false := by
    rw [List.any_eq_false]
    intro l hl
    rw [Bool.not_eq_true, Bool.or_eq_false_iff]
    exact ⟨h.clean l hl, badLane_eq_false (hsound l hl)⟩
  have hbody : BodyAfter s (shuffle s c b a d (j s.fl.width)) ((s.popPorts _).setVs ((shuffle s c b a d (j s.fl.width)).writes s)) :=
    vec_body h (perLane_ok _ _ d _ rfl rfl) rfl (by decide : 7 < 8) List.nodup_nil rfl (BlkOnly.refl _) rfl
  refine completes_of_body hx ?_ hbody hl
  unfold shfl
  simp only [hgate, hclean, Bool.false_eq_true, if_false]
  rw [writes_perLane rfl]
  rfl

/-- A uniform register that takes one lane's stored register (R389, R433). -/
theorem completes_laneRead {j : Nat} {body : State → Res} (hx : exec i s = floeOp i s body) (hb : body s = laneRead a d j s)
    (hl : i.halfwords * 2 = 4) (h : CanRun s (fromLane s a d j)) : Completes i s (After s (fromLane s a d j)) := by
  obtain ⟨hread, hsound⟩ := h.also
  have hgate : s.gateForm [VGroup.one a] [] false (s.namesPort [VGroup.one a]) = none := by
    rw [hread.namesPort, hread.gateForm]
    exact h.gateForm
  refine completes_of_body hx ?_ ((nothing_body s { also := (fromLane s a d j).also } rfl rfl rfl rfl rfl).setS d.toNat _ rfl) hl
  rw [hb, laneRead]
  simp only [hgate, badLane_eq_false hsound, Bool.false_eq_true, if_false]
  rfl

/-! ## Results in uniform registers -/

/-- A lane mask takes one uniform register, or a pair at width 128, once the body has left the rest of the effect (R60). -/
theorem BodyAfter.setMask {e : Effect} {u : State} (h : BodyAfter s e u) (hu : e.uni = []) (m : Mask) :
    BodyAfter s { e with uni := maskUni s d m } (u.setMask d.toNat m) := by
  have hwidth : u.fl.width = s.fl.width := by rw [h.floe]
  unfold State.setMask maskUni
  rw [hwidth]
  have hlow := h.setS d.toNat (m.setWidth 64) (by rw [hu]; rfl)
  rw [hu] at hlow
  split
  · exact hlow.setS (d.toNat + 1) _ (by simp)
  · exact hlow

/-- The destination of a lane mask is one register or an even pair. -/
theorem maskBad_eq_false (h : s.fl.width = 128 → d.toNat % 2 = 0) : s.maskBad d = false := by
  rw [State.maskBad, Bool.and_eq_false_iff, decide_eq_false_iff_not, decide_eq_false_iff_not]
  omega

/-- A combination of the active lanes' sources in a uniform register (R430). -/
theorem completes_redx {f : List W32 → W32} (hx : exec i s = floeOp i s (redx f a d)) (hl : i.halfwords * 2 = 4)
    (h : CanRun s (combine s a d f)) : Completes i s (After s (combine s a d f)) := by
  have hgate : s.gate [VGroup.one a] [] false false = none := h.gate rfl rfl
  have hpops := pops_body (e := { srcs := [VGroup.one a] }) ⟨h.inRange, h.noBacking, h.hasEntry, h.hasRoom, h.clean, trivial⟩ rfl rfl rfl
    (by decide : 7 < 8) rfl
  refine completes_of_body hx ?_ (hpops.setS d.toNat _ rfl) hl
  unfold redx
  simp only [hgate]
  rfl

/-- `VOTE.BALLOT` has no vector operand (R430). -/
theorem completes_voteBallot {k : BitVec 3} {e : Effect} (he : laneRule s (.voteBallot k d) = some e) (h : CanRun s e) :
    Completes (.voteBallot k d) s (After s e) := by
  cases he
  refine completes_of_body (show _ = execVoteBallot k d s from rfl) ?_
    ((nothing_body s { also := s.fl.width = 128 → d.toNat % 2 = 0 } rfl rfl rfl rfl rfl).setMask rfl _) rfl
  exact if_neg (by rw [maskBad_eq_false h.also]; exact Bool.false_ne_true)

/-- `MATCH` pops its source and writes a lane mask (R399). -/
theorem completes_matchLanes {e : Effect} (he : laneRule s (.matchLanes a d) = some e) (h : CanRun s e) :
    Completes (.matchLanes a d) s (After s e) := by
  cases he
  have hgate : s.gate [VGroup.one a] [] (s.maskBad d) false = none := h.gate (maskBad_eq_false h.also) rfl
  have hpops := pops_body (e := { srcs := [VGroup.one a], also := s.fl.width = 128 → d.toNat % 2 = 0 })
    ⟨h.inRange, h.noBacking, h.hasEntry, h.hasRoom, h.clean, h.also⟩ rfl rfl rfl (by decide : 7 < 8) rfl
  refine completes_of_body (show _ = execMatchLanes a d s from rfl) ?_ (hpops.setMask rfl _) rfl
  simp only [hgate]
  rfl

end

/-- Settles O18, one case per instruction of the rule. -/
theorem crossLaneResults : Obligations.CrossLaneResults := by
  intro s i e _ hr h
  cases i with
  | shflGet c b a d => cases hr; exact completes_shfl (j := shflGet) rfl rfl h
  | shflSlide c b a d => cases hr; exact completes_shfl (j := shflSlide) rfl rfl h
  | shflRot c b a d => cases hr; exact completes_shfl (j := shflRot) rfl rfl h
  | shflXor c b a d => cases hr; exact completes_shfl (j := shflXor) rfl rfl h
  | lbc b a d => cases hr; exact completes_laneRead rfl rfl rfl h
  | rfa a d => cases hr; exact completes_laneRead rfl rfl rfl h
  | voteAll k d =>
    cases hr
    exact completes_uni (v := w64 ((s.votes k).all id)) (show _ = execVoteAll k d s from rfl) rfl rfl (by rw [State.votes, List.all_map]; rfl)
  | voteAny k d =>
    cases hr
    exact completes_uni (v := w64 ((s.votes k).any id)) (show _ = execVoteAny k d s from rfl) rfl rfl (by rw [State.votes, List.any_map]; rfl)
  | voteBallot k d => exact completes_voteBallot hr h
  | redxAdd a d => cases hr; exact completes_redx rfl rfl h
  | redxMin a d => cases hr; exact completes_redx (f := leastS) rfl rfl h
  | redxMax a d => cases hr; exact completes_redx (f := greatestS) rfl rfl h
  | redxFadd a d => cases hr; exact completes_redx (f := faddRed) rfl rfl h
  | scanAdd a d => cases hr; exact completes_one rfl rfl h rfl rfl (fun _ => rfl) rfl rfl (by decide : 7 < 8) rfl rfl
  | scanAddx a d => cases hr; exact completes_one rfl rfl h rfl rfl (fun _ => rfl) rfl rfl (by decide : 7 < 8) rfl rfl
  | matchLanes a d => exact completes_matchLanes hr h
  | _ => cases hr

end Sys2Proof.Claims

/-! # SPLIT (R47, R50, R51, R57) -/
namespace Sys2Proof.Claims
open Sys2Proof.Machine

/-! ## The children of a floe -/

/-- The key of child j of the issuing floe (R47). -/
def childKey (s : State) (c j : Nat) : Nat := floeKey (blockOf s.cur.floe) (s.fl.base + j * c)
/-- Child j of the issuing floe, at the next instruction (R51, R57). -/
def childFloe (s : State) (c j : Nat) : Floe := s.fl.child c j (behind s 4) s.now
/-- The state with the issuing floe's children in the table of floes. -/
def parted (s : State) (c : Nat) : State :=
  { s with floes := (upTo (s.fl.width / c)).foldl (fun t j => t.put (childKey s c j) (childFloe s c j)) s.floes }

section
variable {s : State} {w : BitVec 2} {c j : Nat}

/-- Children stand at least 16 lanes apart, so that no two have one key. -/
theorem childKey_inj (i j : Nat) (h : childKey s (childWidth w) i = childKey s (childWidth w) j) : i = j := by
  have hdiv (n : Nat) : (s.fl.base + n * (16 * 2 ^ w.toNat)) / 16 = s.fl.base / 16 + n * 2 ^ w.toNat := by
    rw [Nat.mul_left_comm, Nat.add_mul_div_left _ _ (by omega)]
  unfold childKey floeKey childWidth at h
  rw [hdiv, hdiv] at h
  exact Nat.eq_of_mul_eq_mul_right (Nat.two_pow_pos w.toNat) (by omega)

theorem parted_child (h : j < s.fl.width / childWidth w) :
    (parted s (childWidth w)).floes.get? (childKey s (childWidth w) j) = some (childFloe s (childWidth w) j) :=
  Tab.get?_foldl_put childKey_inj (List.mem_range.2 h) s.floes

theorem parted_other {g : Nat} (h : ∀ j < s.fl.width / c, g ≠ childKey s c j) : (parted s c).floes.get? g = s.floes.get? g :=
  Tab.get?_foldl_put_ne _ (fun j hj => h j (List.mem_range.1 hj)) s.floes

/-- A child's live lanes are its block lanes', renumbered from 0. -/
theorem childFloe_live {l : Nat} (h : l < 128) : (childFloe s c j).live.getLsbD l = childLive s c j l := by
  show ((s.fl.live >>> (j * c)) &&& Mask.below c).getLsbD l = _
  rw [BitVec.getLsbD_and, BitVec.getLsbD_ushiftRight, getLsbD_below h, Bool.and_comm, childLive]

theorem childFloe_live_ne_zero (hc : c ≤ 128) (h : ∃ l < c, childLive s c j l = true) : (childFloe s c j).live ≠ 0 := by
  obtain ⟨l, hl, hlive⟩ := h
  intro hzero
  rw [← childFloe_live (by omega), hzero] at hlive
  simp at hlive

/-! ## The step -/

/-- Writing floes at a state's own time is writing its table of floes. -/
theorem foldl_setFloe (k : Nat → Nat) (v : Nat → Nat → Floe) (l : List Nat) : ∀ s : State,
    l.foldl (fun s j => s.setFloe (k j) (v s.now j)) s = { s with floes := l.foldl (fun t j => t.put (k j) (v s.now j)) s.floes } := by
  induction l with
  | nil => intro s; rfl
  | cons j l ih => intro s; rw [List.foldl_cons, ih]; rfl

/-- A split writes the children, and then retires those without a live lane (R51, R52). -/
theorem splitFloe_eq (s : State) (c : Nat) : s.splitFloe c = (upTo (s.fl.width / c)).foldl
    (fun t j => if (t.floe (childKey s c j)).live = 0 then t.retireFloe (childKey s c j) else t) (parted s c) :=
  congrArg (fun t => List.foldl _ t (upTo (s.fl.width / c)))
    (foldl_setFloe (childKey s c) (fun now j => s.fl.child c j (behind s 4) now) (upTo (s.fl.width / c)) s)

/-- A split whose children all have a live lane retires none of them. -/
theorem splitFloe_eq_parted (h : CanSplit s (childWidth w)) : s.splitFloe (childWidth w) = parted s (childWidth w) := by
  obtain ⟨hnarrow, -⟩ := h.narrower
  obtain ⟨-, hwide, -⟩ := h.shape
  rw [splitFloe_eq]
  refine foldl_id _ _ _ fun j hj => if_neg ?_
  have hlt := List.mem_range.1 hj
  rw [State.floe, Tab.getD, parted_child hlt]
  exact childFloe_live_ne_zero (by omega) (h.live j hlt)

theorem split_parted (w : BitVec 2) : Split s (childWidth w) (parted s (childWidth w)) where
  rest := rfl
  others := fun _ hg => parted_other hg
  child := fun j hj => ⟨childFloe s (childWidth w) j, _, parted_child hj, rfl, rfl, rfl, rfl, rfl, fun _ hl => childFloe_live hl,
    by simp [childFloe, Floe.child], rfl⟩

/-- A floe with nothing outstanding has every counter at zero (R171). -/
theorem quiet.idle (h : quiet s) : s.fl.idle = true := by
  obtain ⟨hops, htile, hcmds⟩ := h
  simpa [Floe.idle, hops, htile] using hcmds

/-- No stream of the floe is held by its guard (R51). -/
theorem strmHeld_eq_false (h : ∀ e ∈ s.blk.streams, ¬(e.2.guardSt = .held ∧ (s.fl.queue e.2.queue).stream = some e.1)) :
    s.strmHeld s.cur.floe = false := by
  rw [State.strmHeld, List.any_eq_false]
  intro e he
  rw [Bool.and_eq_true, decide_eq_true_eq, decide_eq_true_eq]
  exact h e he

theorem exec_split (h : CanSplit s (childWidth w)) : exec (.split w) s = .next (s.splitFloe (childWidth w)) := by
  obtain ⟨hnarrow, hmax⟩ := h.narrower
  obtain ⟨hfrags, hstack, hrecs⟩ := h.whole
  have hwidth : (decide (s.fl.width ≤ childWidth w) || decide (childWidth w < s.blk.maxsplit)) = false := by
    rw [Bool.or_eq_false_iff, decide_eq_false_iff_not, decide_eq_false_iff_not]
    omega
  have hwhole : (decide (s.fl.frags.length ≠ 1) || !s.fg.stack.isEmpty || !s.fl.recs.isEmpty) = false := by
    rw [hfrags, hstack, hrecs]
    rfl
  have hidle : (!s.fl.idle || s.strmHeld s.cur.floe) = false := by
    rw [quiet.idle h.idle, strmHeld_eq_false h.streams]
    rfl
  unfold childWidth at hwidth
  show execSplit w s = _
  simp only [execSplit, floeOp, hwidth, hwhole, hidle, Bool.false_eq_true, if_false]
  rfl

end

/-- Settles O45: the children's keys differ, so that the table holds each of them, and each has a live lane, so that none retires. -/
theorem floesSplit : Obligations.FloesSplit := by
  intro s w _ h
  refine ⟨_, exec_split h, ?_⟩
  rw [splitFloe_eq_parted h]
  exact split_parted w

end Sys2Proof.Claims

/-! # A FUSE of two floes listed under each other's keys (R47, R53, R55) -/
namespace Sys2Proof.Claims
open Sys2Proof.Machine

/-- The left floe of a pair, waiting in `FUSE`. -/
def waitingLeft : Floe := { onlyLane with st := .waiting, frags := [{ Fragment.reset with active := 1, wait := .fuse }] }
/-- Floe 0 of block 0, which issues, covers block lanes 16 to 31, and its buddy, floe 1, lanes 0 to 15: each stands under the key that R47
gives the other. -/
def swappedKeys : State :=
  { State.reset with floes := [(0, { onlyLane with base := 16 }), (1, waitingLeft)], blocks := [(0, Block.reset)] }

theorem swappedKeys_buddy {h : Nat} (hb : IsBuddy swappedKeys h) : h = 1 := by
  obtain ⟨hlive, -, -, hbase⟩ := hb
  have hleft : (swappedKeys.floe h).base = 0 := hbase.trans (by decide +kernel)
  by_cases h0 : h = 0
  · subst h0
    exact absurd hleft (by decide +kernel)
  · by_contra h1
    have habsent : swappedKeys.floes.get? h = none := by
      simp [swappedKeys, Tab.get?, Ne.symm h0, Ne.symm h1]
    rw [State.unretired, habsent] at hlive
    exact Bool.false_ne_true hlive

theorem swappedKeys_canFuse : CanFuse swappedKeys 1 where
  width := by decide +kernel
  buddy := ⟨by decide +kernel, by unfold IsBuddy; decide +kernel, fun _ => swappedKeys_buddy⟩
  own := ⟨by unfold converged; decide +kernel, rfl, rfl, fun e he => absurd he (List.not_mem_nil (a := e))⟩
  waits := ⟨{ Fragment.reset with active := 1, wait := .fuse }, by decide +kernel⟩
  rbase := rfl
  queues := fun _ _ => ⟨rfl, rfl, rfl, fun _ => ⟨rfl, rfl⟩⟩
  standing := ⟨rfl, fun _ => Iff.rfl⟩
  reports := by decide +kernel

/-- The fused floe takes the lower key, that of the right floe. -/
theorem swappedKeys_fused : ∃ t, exec (.fuse 5) swappedKeys = .next t ∧ (t.floes.get? 0).isSome = true :=
  ⟨_, rfl, by decide +kernel⟩

/-- Refutes O46: of two floes whose keys do not rise with their bases, the one with the lower key is taken as the left floe, so that the floe
at the higher base is not gone. -/
theorem not_floesFuse : ¬ Obligations.FloesFuse := by
  rintro ⟨-, h⟩
  obtain ⟨t, ht, hf⟩ := h swappedKeys 5 1 1 0 swappedKeys_canFuse (by rw [if_pos (by decide +kernel)]; exact ⟨rfl, rfl⟩)
  obtain ⟨u, hu, hthere⟩ := swappedKeys_fused
  obtain rfl : u = t := Host.Outcome.next.inj (hu.symm.trans ht)
  rw [hf.right] at hthere
  exact Bool.false_ne_true hthere

end Sys2Proof.Claims

/-!
# Emulation traps, and the registers that R66 refuses (R66, R90, R92)

A trap writes the instruction's word and fields into the floe, then enters the handler as any synchronous cause does: nothing of the
entry depends on these fields, so the state entered is one change of the floe behind the record's write.
-/
namespace Sys2Proof.Claims
open Sys2Proof.Machine

section
variable {s : State} {f id : Nat} {x : Xlat} {line : StackLine}

theorem raisedCore_ctime (k : Core) (t : BitVec 16) : (raisedCore k t).ctime = laterOf k.ctime t := by
  unfold raisedCore
  split
  · rename_i heq; exact heq.symm
  · rfl

/-- What rises no further than the horizon lets it is not held back (R218). -/
theorem heldBack_eq_false {c : Nat} {t : BitVec 16} {u : State} (h : mayRise s c t)
    (hu : (u.core c).ctime = laterOf (s.core c).ctime t) : s.heldBack c u = false := by
  unfold State.heldBack
  rw [hu]
  rcases h with hstays | hlets
  · rw [hstays]; simp
  · rw [State.mayRaise, hlets]; simp

/-- The write of a call record rises no further than the horizon lets it. -/
theorem CanEnter.recordHeld (h : CanEnter s f id x line) (kind skip : Bool) : s.recordHeld f id kind skip = false := by
  unfold State.recordHeld
  rw [pushRecord_eq h]
  refine heldBack_eq_false h.rises ?_
  unfold recordState State.core
  simp only [State.updFloe_cores, Tab.getD_put_self]
  exact raisedCore_ctime _ _

/-- The trap's own fields of the floe are none of those that an entry reads. -/
def withIll (w f0 f1 f2 f3 : W64) (fl : Floe) : Floe := { fl with illop := w, illf0 := f0, illf1 := f1, illf2 := f2, illf3 := f3 }

variable {w f0 f1 f2 f3 : W64}

theorem CanEnter.withIll (h : CanEnter s f id x line) : CanEnter (s.updFloe f (withIll w f0 f1 f2 f3)) f id x line := by
  have hva : recordVa (s.updFloe f (Claims.withIll w f0 f1 f2 f3)) f = recordVa s f := by
    unfold recordVa; rw [State.updFloe_floe_self]; rfl
  have hpa : recordPa (s.updFloe f (Claims.withIll w f0 f1 f2 f3)) f x = recordPa s f x := by unfold recordPa; rw [hva]
  have hasid : (s.updFloe f (Claims.withIll w f0 f1 f2 f3)).asidOf (blockOf f) = s.asidOf (blockOf f) := rfl
  exact
    { frag := by rw [State.updFloe_floe_self]; exact h.frag
      aligned := by rw [State.updFloe_floe_self]; exact h.aligned
      depth := by rw [State.updFloe_floe_self]; exact h.depth
      space := by rw [hva]; exact h.space
      held := by rw [hva, hasid]; exact h.held
      page := h.page
      whole := by rw [hpa]; exact h.whole
      own := by rw [hpa]; exact ⟨h.own.die, h.own.here, h.own.owned, h.own.key, h.own.alone, h.own.still, h.own.unarmed, h.own.plain⟩
      rises := h.rises }

theorem recordState_withIll (kind skip : Bool) : recordState (s.updFloe f (withIll w f0 f1 f2 f3)) f id x line kind skip =
    (recordState s f id x line kind skip).updFloe f (withIll w f0 f1 f2 f3) := by
  unfold recordState recordLine recordPa recordVa State.frag
  rw [State.updFloe_floe_self]
  rfl

end

section
variable {s : State} {f id : Nat} {x : Xlat} {line : StackLine} {skip : Bool}

/-- The state after an entry into the trap handler, the floe's registers changed by `set`. -/
def trapEntry (s : State) (f id : Nat) (x : Xlat) (line : StackLine) (set : Floe → Floe) (skip : Bool) : State :=
  ((recordState s f id x line false skip).updFloe f (fun y =>
    { (y.setS 62 (recordVa s f)).updFrag id (fun g => { g with handler := true }) with recs := y.recs ++ [recordVa s f] })).updFloe f
    (fun y => ((set y).updFrag id (fun g =>
      { g with pc := thandlerOf (s.floe f).uivec, wait := .none, rb := none, left := none })).settleState s.now)

/-- A cause that nothing holds back enters the trap handler. -/
theorem enterTrap_eq (h : CanEnter s f id x line) (hheld : s.trapHeld f id skip = false) (hten : tenOf (s.floe f).uivec = true)
    (cause : Nat) (faddr : W64) (epc : BitVec 18) : s.enterTrap f id cause faddr epc skip =
      trapEntry s f id x line (fun y => { y with epc := epc, fcause := BitVec.ofNat 8 cause, faddr := faddr }) skip := by
  unfold State.enterTrap
  simp only [hheld, hten, pushRecord_eq h]
  rfl

theorem trapEntry_withIll (w f0 f1 f2 f3 epc cause faddr) :
    trapEntry (s.updFloe f (withIll w f0 f1 f2 f3)) f id x line (fun y => { y with epc := epc, fcause := cause, faddr := faddr }) skip =
      trapEntry s f id x line (fun y => { y with
        epc := epc, fcause := cause, faddr := faddr, illop := w, illf0 := f0, illf1 := f1, illf2 := f2, illf3 := f3 }) skip := by
  unfold trapEntry recordVa
  rw [recordState_withIll, State.updFloe_floe_self, State.updFloe_updFloe, State.updFloe_updFloe, State.updFloe_updFloe]
  rfl

/-- Nothing holds a cause of the issuing fragment back. -/
theorem trapHeld_eq_false (hreq : (s.core (floeCore f)).haltReq = false) (hhalt : s.cur.halt = false)
    (hrecs : (s.floe f).recs = [] ∨ ((s.floe f).frag id).handler = true) (h : CanEnter s f id x line) : s.trapHeld f id skip = false := by
  have hmay : (s.floe f).mayIssue ((s.floe f).frag id) = true := by
    unfold Floe.mayIssue
    rcases hrecs with hnil | hhandler
    · rw [hnil]; rfl
    · rw [hhandler, Bool.or_true]
  simp [State.trapHeld, hreq, hhalt, hmay, h.recordHeld]

/-- The low byte of `ILLF0` is the reason (R92). -/
theorem illfOf_reason (fl : Floe) (word len : Nat) {r : Nat} (hr : r < 256) : (illfOf fl word len r).f0.toNat % 256 = r := by
  unfold illfOf
  split
  · simp only [BitVec.toNat_ofNat]; omega
  · split <;> (simp only [BitVec.toNat_ofNat]; omega)

/-- An emulation trap that nothing holds back enters the trap handler with its word and its fields (R92). -/
theorem emulTrap_eq (h : MayTrap s x line) (word len r : Nat) : s.emulTrap s.cur.floe s.cur.frag word len r =
    trapEntry s s.cur.floe s.cur.frag x line (trapped s word (illfOf s.fl word len r).f0 (illfOf s.fl word len r).f1
      (illfOf s.fl word len r).f2 (illfOf s.fl word len r).f3) (decide (r ≤ 11)) := by
  obtain ⟨⟨hreq, hhalt, hrecs⟩, hten, he⟩ := h
  unfold State.emulTrap
  dsimp only
  rw [trapHeld_eq_false hreq hhalt hrecs he, if_neg Bool.false_ne_true]
  refine (enterTrap_eq (s := s.updFloe s.cur.floe (withIll _ _ _ _ _)) he.withIll (trapHeld_eq_false hreq hhalt ?_ he.withIll) ?_ _ _ _).trans
    (trapEntry_withIll ..)
  · rw [State.updFloe_floe_self]; exact hrecs
  · rw [State.updFloe_floe_self]; exact hten

/-- A state entered with the trap's registers is one that has taken the trap with the reason in `ILLF0`. -/
theorem Entered.trapTaken {word r : Nat} {f0 f1 f2 f3 : W64} {t : State} (hcur : t.cur = s.cur) (hr : f0.toNat % 256 = r)
    (h : Entered s s.cur.floe s.cur.frag x (trapped s word f0 f1 f2 f3) (thandlerOf s.fl.uivec) false (decide (r ≤ 11)) t) :
    TrapTaken s word r x t := by
  have hfl : t.fl = t.floe s.cur.floe := by rw [State.fl, hcur]
  have h0 : t.fl.illf0 = f0 := by rw [hfl, h.floe]; rfl
  have h1 : t.fl.illf1 = f1 := by rw [hfl, h.floe]; rfl
  have h2 : t.fl.illf2 = f2 := by rw [hfl, h.floe]; rfl
  have h3 : t.fl.illf3 = f3 := by rw [hfl, h.floe]; rfl
  exact ⟨by rw [h0, h1, h2, h3]; exact h, by rw [h0]; exact hr⟩

/-- An instruction whose body answers a trap that nothing holds back takes it (R92). -/
theorem completes_trap {i : Instr} {body : State → Res} {r : Nat} (h : MayTrap s x line) (hx : exec i s = floeOp i s body)
    (hb : body s = .trap r) (hr : r < 256) : Completes i s (TrapTaken s (encodeWord i) r x) := by
  refine ⟨_, hx, ?_⟩
  rw [hb]
  show TrapTaken s _ r x (s.emulTrap s.cur.floe s.cur.frag (encodeWord i) (i.halfwords * 2) r)
  rw [emulTrap_eq h]
  exact Entered.trapTaken rfl (illfOf_reason _ _ _ hr)
    (entered h.2.2 (trapped s _ _ _ _ _) (fun _ _ _ => rfl) (thandlerOf s.fl.uivec) false (decide (r ≤ 11)) s.now)
end
end Sys2Proof.Claims

namespace Sys2Proof.Claims
open Sys2Proof.Machine

/-- Where R66 refuses one of an effect's groups, the instruction's body answers a trap with reason 9. -/
def Refuses (s : State) (i : Instr) (e : Effect) : Prop :=
  ∃ body, exec i s = floeOp i s body ∧ ∀ g ∈ e.srcs ++ e.dsts, refused s g → body s = .trap 9

section
variable {s : State} {i : Instr} {srcs dsts : List VGroup} {g : VGroup}

theorem gate_refused (hg : g ∈ srcs ++ dsts) (h : refused s g) : s.gate srcs dsts false false = some (.trap 9) := by
  have hbad : s.groupBad (srcs ++ dsts) = true := List.any_eq_true.2 ⟨g, hg, by
    rcases h with hreach | hodd
    · simp [hreach]
    · simp [hodd]⟩
  simp [State.gate, State.gateForm, hbad]

theorem vecOp_refused {F : State → Nat → List VWrite} (hg : g ∈ srcs ++ dsts) (h : refused s g) : vecOp srcs dsts F s = .trap 9 := by
  rw [vecOp, gate_refused hg h]

/-- An instruction that names no vector register refuses none. -/
theorem refuses_uni {body : State → Res} {e : Effect} (hx : exec i s = floeOp i s body) (he : e.srcs ++ e.dsts = []) : Refuses s i e :=
  ⟨body, hx, fun g hg => by rw [he] at hg; cases hg⟩

theorem refuses_vecOp {body : State → Res} {e : Effect} {F : State → Nat → List VWrite} (hx : exec i s = floeOp i s body)
    (hb : body s = vecOp e.srcs e.dsts F s) : Refuses s i e :=
  ⟨body, hx, fun _ hg h => hb.trans (vecOp_refused hg h)⟩

/-! ## The moulds -/

variable {c t : BitVec 2} {b a d : BitVec 6} {r : BitVec 5}

theorem refuses_aluR {old : Bool} {f f' : W32 → W32 → W32 → W32} {k k' : W64 → W64 → W64 → W64}
    (hx : exec i s = floeOp i s (aluR old f k c b a d)) : Refuses s i (onR s c b a d old f' k') := by
  unfold onR
  split
  · exact refuses_uni hx rfl
  · rename_i hc
    exact refuses_vecOp hx (if_neg hc)

theorem refuses_aluR1 {f f' : W32 → W32} {k k' : W64 → W64} (hx : exec i s = floeOp i s (aluR1 f k c a d)) :
    Refuses s i (onR1 s c a d f' k') := by
  unfold onR1
  split
  · exact refuses_uni hx rfl
  · rename_i hc
    exact refuses_vecOp hx (if_neg hc)

theorem refuses_aluI {m : BitVec 9} {u : BitVec 1} {f f' : W32 → W32 → W32} {k k' : W64 → W64 → W64}
    (hx : exec i s = floeOp i s (aluI f k m u a d)) : Refuses s i (onI s m u a d f' k') := by
  unfold onI
  split
  · exact refuses_uni hx rfl
  · rename_i hu
    exact refuses_vecOp hx (if_neg hu)

theorem refuses_alu16 {f f' : W32 → W32 → W32} (hx : exec i s = floeOp i s (alu16 f d r)) : Refuses s i (on16 s d r f') :=
  refuses_vecOp hx rfl

/-- A sum or difference with carry, in the classes that R386 accepts. -/
theorem refuses_carryOp {f : W32 → W32 → Bool → W32 × Bool} {e : Effect} (hx : exec i s = floeOp i s (carryOp f c b a d))
    (hs : e.srcs = srcGroups c a b VGroup.one) (hd : e.dsts = [VGroup.one d]) : Refuses s i e :=
  ⟨_, hx, fun g hg h => by
    rw [hs, hd] at hg
    rw [carryOp, gate_refused hg h]⟩

theorem refuses_compare {k : BitVec 6 → VGroup} {p p' : BitVec 3} {F : State → Nat → Bool} {f : Nat → Bool} {v : Bool}
    (hx : exec i s = floeOp i s (cmpOp (srcGroups c a b k) (c = 2) p F)) : Refuses s i (compare s c b a k p' f v) := by
  unfold compare
  split
  · exact refuses_uni hx rfl
  · rename_i hc
    refine ⟨_, hx, fun g hg h => ?_⟩
    rw [cmpOp, if_neg (by simpa using hc), gate_refused hg h]

theorem fpWords_refused {o : FpOp} {n : Nat} {x y z : State → Nat → W32} (hg : g ∈ srcs ++ [VGroup.one d]) (h : refused s g) :
    fpWords o n srcs x y z d s = .trap 9 := by
  rw [fpWords, gate_refused hg h]

/-- Floating-point arithmetic reads its old destination in the fused form alone. -/
theorem refuses_fpR {o : FpOp} {old checked : Bool} {f : BinFmt → Nat → Nat → Nat → Nat}
    (hx : exec i s = floeOp i s (fpR o t c b a d)) (ho : o.readsD = old) : Refuses s i (onFp s t c b a d old checked f) := by
  subst ho
  unfold onFp
  split
  · refine refuses_uni hx ?_
    split <;> rfl
  · rename_i hc
    split
    · rename_i ht
      exact refuses_vecOp hx (by rw [fpR, if_neg hc, if_pos ht])
    · rename_i ht
      refine ⟨_, hx, fun g hg h => ?_⟩
      rw [fpR, if_neg hc, if_neg ht]
      exact fpWords_refused hg h

theorem refuses_fp16bit {o : FpOp} {checked : Bool} {f : BinFmt → Nat → Nat → Nat} (hx : exec i s = floeOp i s (fp16bit o d r)) :
    Refuses s i (onFp16 s d r checked f) :=
  ⟨_, hx, fun _ hg h => fpWords_refused hg h⟩

theorem refuses_fpS {o : SpecialOp} {f : Nat → Nat} (hx : exec i s = floeOp i s (fpS o t c a d)) :
    Refuses s i (onFp1 s t c a d false f) := by
  unfold onFp1
  split
  · refine refuses_uni hx ?_
    split <;> rfl
  · rename_i hc
    split
    · rename_i ht
      exact refuses_vecOp hx (by rw [fpS, if_neg hc, if_pos ht]; rfl)
    · rename_i ht
      exact refuses_vecOp hx (by rw [fpS, if_neg hc, if_neg ht])

theorem refuses_convOp {rnd : BitVec 2} {e : Effect} {F : State → Nat → Nat} (hx : exec i s = floeOp i s (convOp e.srcs rnd d F))
    (hd : e.dsts = [VGroup.one d]) : Refuses s i e :=
  ⟨_, hx, fun g hg h => by
    rw [hd] at hg
    rw [convOp, vecOp_refused hg h]⟩

/-- `FCLS` of a pair writes one register. -/
theorem refuses_fcls {f : Nat → Nat} : Refuses s (.fcls t c a d) (onFp1 s t c a d true f) := by
  have hx : exec (.fcls t c a d) s = execFcls t c a d s := rfl
  unfold onFp1
  split
  · refine refuses_uni hx ?_
    split <;> rfl
  · rename_i hc
    split
    · rename_i ht
      exact refuses_vecOp hx (by rw [if_neg hc, if_pos ht]; rfl)
    · rename_i ht
      exact refuses_vecOp hx (by rw [if_neg hc, if_neg ht])

end
end Sys2Proof.Claims

namespace Sys2Proof.Claims
open Sys2Proof.Machine

section
variable {s : State} {i : Instr} {e : Effect}

/-! ## The families -/

/-- A rule that says nothing of an instruction has no effect for it. -/
theorem of_none_eq_some {α : Type} {x : α} {P : Prop} (h : none = some x) : P := (Option.some_ne_none x h.symm).elim

/-- A rule that a condition keeps from saying anything. -/
theorem some_of_ite {α : Type} {x y : α} {p : Prop} [Decidable p] (h : (if p then none else some y) = some x) : ¬p ∧ y = x :=
  let ⟨hp, hy⟩ := Option.ite_none_left_eq_some.1 h
  ⟨hp, Option.some.inj hy⟩

theorem intRule_refuses (hr : intRule s i = some e) : Refuses s i e := by
  cases i with
  | iaddR c b a d | isubR c b a d | imulR c b a d | imulhS c b a d | imulhU c b a d | imad c b a d | iminSR c b a d
  | iminUR c b a d | imaxSR c b a d | imaxUR c b a d | lea h c b a d =>
    cases hr
    exact refuses_aluR rfl
  | iaddI i u a d | imulI i u a d | iminSI i u a d | iminUI i u a d | imaxSI i u a d | imaxUI i u a d =>
    cases hr
    exact refuses_aluI rfl
  | iadd16 d r | isub16 d r | imul16 d r =>
    cases hr
    exact refuses_alu16 rfl
  | iadd16Imm d i =>
    cases hr
    exact refuses_vecOp rfl rfl
  | iabs c a d =>
    cases hr
    exact refuses_aluR1 rfl
  | _ => exact of_none_eq_some hr

theorem carryRule_refuses (hr : carryRule s i = some e) : Refuses s i e := by
  cases i with
  | iaddc c b a d | isubb c b a d =>
    obtain ⟨-, rfl⟩ := some_of_ite hr
    exact refuses_carryOp rfl rfl rfl
  | _ => exact of_none_eq_some hr

theorem logicRule_refuses (hr : logicRule s i = some e) : Refuses s i e := by
  cases i with
  | andR c b a d | orR c b a d | xorR c b a d | andn c b a d | shlR c b a d | shrR c b a d | sarR c b a d | fshl c b a d
  | fshr c b a d | prmt c b a d =>
    cases hr
    exact refuses_aluR rfl
  | andI i u a d | orI i u a d | xorI i u a d | shlI i u a d | shrI i u a d | sarI i u a d =>
    cases hr
    exact refuses_aluI rfl
  | and16 d r | or16 d r | xor16 d r | shl16 d r | shr16 d r | sar16 d r =>
    cases hr
    exact refuses_alu16 rfl
  | popc c a d | clz c a d | ctz c a d | brev c a d =>
    cases hr
    exact refuses_aluR1 rfl
  | bfx g l p a d =>
    cases hr
    exact refuses_vecOp rfl rfl
  | bfi l p a d =>
    cases hr
    exact refuses_vecOp rfl rfl
  | _ => exact of_none_eq_some hr

theorem compareRule_refuses (hr : compareRule s i = some e) : Refuses s i e := by
  cases i with
  | icmpS c b a n p | icmpU c b a n p =>
    obtain ⟨-, rfl⟩ := some_of_ite hr
    exact refuses_compare rfl
  | fcmpF32 c b a n p | fcmpF64 c b a n p | fcmpF16 c b a n p | fcmpBf16 c b a n p =>
    cases hr
    exact refuses_compare rfl
  | plog b a o d =>
    cases hr
    exact refuses_uni (show _ = execPlog b a o d s from rfl) rfl
  | _ => exact of_none_eq_some hr

theorem fpRule_refuses (hr : fpRule s i = some e) : Refuses s i e := by
  cases i with
  | fadd t c b a d | fsub t c b a d | fmul t c b a d | ffma t c b a d | fmin t c b a d | fmax t c b a d =>
    cases hr
    exact refuses_fpR rfl rfl
  | fadd16 d r | fsub16 d r | fmul16 d r | fmin16 d r | fmax16 d r =>
    cases hr
    exact refuses_fp16bit rfl
  | _ => exact of_none_eq_some hr

theorem specialRule_refuses (hr : specialRule s i = some e) : Refuses s i e := by
  cases i with
  | frcp t c a d | frsq t c a d | fsqrt t c a d | fex2 t c a d | flg2 t c a d | fsin t c a d | fcos t c a d =>
    cases hr
    exact refuses_fpS rfl
  | fcls t c a d =>
    cases hr
    exact refuses_fcls
  | _ => exact of_none_eq_some hr

theorem convertRule_refuses (hr : convertRule s i = some e) : Refuses s i e := by
  cases i with
  | cvt st r f m a d =>
    cases hr
    exact refuses_convOp rfl rfl
  | qnt st r f b a d =>
    cases hr
    exact refuses_convOp rfl rfl
  | deq f b a d =>
    cases hr
    exact refuses_vecOp rfl rfl
  | _ => exact of_none_eq_some hr

end

/-- Settles O19: each family's body answers reason 9 where a group is refused, and a trap that nothing holds back is taken. -/
theorem refusedRegistersTrap : Obligations.RefusedRegistersTrap := by
  intro s i e g x line _ hrule hg href hmay
  have hrefuses : Refuses s i e := by
    rcases hrule with h | h | h | h | h | h | h
    · exact intRule_refuses h
    · exact carryRule_refuses h
    · exact logicRule_refuses h
    · exact compareRule_refuses h
    · exact fpRule_refuses h
    · exact specialRule_refuses h
    · exact convertRule_refuses h
  obtain ⟨body, hexec, hbody⟩ := hrefuses
  exact completes_trap hmay hexec (hbody g hg href) (by decide)

end Sys2Proof.Claims

/-!
# Loads from scratchpad (R64, R77, R78, R391, R394, R395)

What an access to scratchpad checks, the number that its bytes make, and the registers that a load binds: the writes of an effect, lane by
lane. `LDFE` is such a load that leaves its granules empty or as they are.
-/
namespace Sys2Proof.Claims
open Sys2Proof.Machine

section
variable {s : State} {z : BitVec 3} {u : BitVec 1} {m b d : BitVec 6}

/-! ## The checks -/

theorem acquiring_eq_false (h : noAcquire s) : s.fl.acquiring s.cur.frag = false := by
  obtain ⟨hops, hreads⟩ := h
  unfold Floe.acquiring
  rw [Bool.or_eq_false_iff, List.any_eq_false, List.any_eq_false]
  refine ⟨fun o ho => by simp [hops o ho], fun g hg => ?_⟩
  by_cases hid : g.id = s.cur.frag
  · simp [hid]
  · simp [hreads g hg hid]

theorem bytesOf_eq (hz : z.toNat ≤ 4) : bytesOf z = 2 ^ z.toNat := if_pos (by omega)

theorem spadCause_eq_none {ls : List (Nat × W64)} (hz : z.toNat ≤ 4) (h : ∀ x ∈ ls, inScratch s z x.2.toNat) :
    s.spadCause (sizeBytes z) ls = none := by
  unfold State.spadCause
  rw [List.findSome?_eq_none_iff]
  intro x hx
  obtain ⟨halign, hin⟩ := h x hx
  rw [sizeBytes_eq, bytesOf_eq hz, if_neg (by omega), if_neg (by omega)]

theorem spadBad_eq_false {off n : Nat} (h : scratchClean s off n) : s.blk.spadBad off n = false := by
  unfold Block.spadBad
  rw [List.any_eq_false]
  intro w hw
  have := h w hw
  simp only [Bool.and_eq_true, decide_eq_true_eq]
  omega

theorem spadLanes_vec (hz : z.toNat ≤ 4) : spadLanes z 0 m b s = s.lanes.map (fun l => (l, address s z.toNat m b l)) := by
  have h5 : ¬ z = 5 := by rintro rfl; revert hz; decide
  unfold spadLanes accLanes
  rw [if_neg (by decide), List.map_map]
  refine List.map_congr_left (fun l _ => ?_)
  rw [Function.comp, addrM_eq s z m b l (by omega), if_neg h5]

theorem spadLanes_uni : spadLanes z 1 m b s = [(s.elected, s.S b.toNat)] := rfl

/-! ## What a load binds -/

theorem ofBytes_spadRead (off n : Nat) : ofBytes (s.blk.spadRead off n) = scratchNumber s off n := by
  induction n generalizing off with
  | zero => rfl
  | succ n ih =>
    unfold Block.spadRead upTo
    rw [List.range_succ_eq_map, List.map_cons, List.map_map, ofBytes, scratchNumber, ← ih]
    congr 4
    funext i
    show s.blk.spad.getD (off + (i + 1)) 0 = s.blk.spad.getD (off + 1 + i) 0
    rw [Nat.add_assoc, Nat.add_comm 1 i]

theorem popPorts_spad (gs : List VGroup) : (s.popPorts gs).blk.spad = s.blk.spad := by
  rw [(State.popPorts_spec s gs).2, Block.popKeys_frame]

theorem spadRead_popPorts (gs : List VGroup) (off n : Nat) : (s.popPorts gs).blk.spadRead off n = s.blk.spadRead off n := by
  unfold Block.spadRead
  rw [popPorts_spad]

/-- Values bound lane by lane are register writes. -/
theorem spadBinds_eq (vs : List (Nat × Nat)) : ∀ t : State, vs.foldl (fun s v => s.spadBind z 0 d v.1 v.2) t =
    t.setVs
      ((vs.map (fun v => (upTo (sizeRegs z)).map (fun k => (⟨d.toNat + k, v.1, BitVec.ofNat 32 (v.2 / 2 ^ (32 * k))⟩ : VWrite)))).flatten) := by
  induction vs with
  | nil => intro t; rfl
  | cons v vs ih =>
    intro t
    rw [List.foldl_cons, ih, List.map_cons, List.flatten_cons, State.setVs, State.setVs, List.foldl_append]
    rfl

theorem scratchLoad_vec : scratchLoad s z 0 m b d =
    { srcs := index m, dsts := [VGroup.ofCount d (regsOf z)]
      vec := fun l => (List.range (regsOf z)).map (fun k =>
        (d.toNat + k, BitVec.ofNat 32 (scratchNumber s (offset s z m b l) (2 ^ z.toNat) / 2 ^ (32 * k))))
      also := noAcquire s ∧ ∀ l ∈ s.lanes, inScratch s z (offset s z m b l) ∧ scratchClean s (offset s z m b l) (2 ^ z.toNat) } :=
  if_neg (by decide)

/-- A vector load's registers are those of its effect's writes. -/
theorem spadLoad_writes (hz : z.toNat ≤ 4) : (s.popPorts (viGroup m)).spadLoad z 0 d (spadLanes z 0 m b s) =
    (s.popPorts (viGroup m)).setVs ((scratchLoad s z 0 m b d).writes s) := by
  unfold State.spadLoad
  rw [spadBinds_eq, spadLanes_vec hz, scratchLoad_vec, Effect.writes, List.map_map, List.map_map]
  congr 2
  refine List.map_congr_left (fun l _ => ?_)
  simp only [Function.comp, List.map_map, sizeBytes_eq, bytesOf_eq hz, sizeRegs_eq, spadRead_popPorts, ofBytes_spadRead]
  rfl

theorem scratchLoad_writesOk : WritesOk s (scratchLoad s z 0 m b d) := by
  rw [scratchLoad_vec]
  constructor
  · intro l _
    rw [List.pairwise_map]
    exact List.Pairwise.imp (fun hlt heq => by simp only at heq; omega) List.pairwise_lt_range
  · intro l _ w hw
    obtain ⟨k, hk, rfl⟩ := List.mem_map.1 hw
    exact ⟨_, List.mem_singleton_self _, k, List.mem_range.1 hk, rfl⟩

/-- A vector load leaves its effect before it retires. -/
theorem scratchLoad_body (hz : z.toNat ≤ 4) (h : CanRun s (scratchLoad s z 0 m b d)) :
    BodyAfter s (scratchLoad s z 0 m b d) ((s.popPorts (viGroup m)).spadLoad z 0 d (spadLanes z 0 m b s)) := by
  rw [spadLoad_writes hz]
  have hb : BlkOnly ((s.popPorts (scratchLoad s z 0 m b d).srcs).setVs ((scratchLoad s z 0 m b d).writes s))
      ((s.popPorts (viGroup m)).setVs ((scratchLoad s z 0 m b d).writes s)) := by
    rw [scratchLoad_vec]; exact BlkOnly.refl _
  refine vec_body h scratchLoad_writesOk ?_ ?_ ?_ ?_ hb ?_
  · rw [scratchLoad_vec]
  · rw [scratchLoad_vec]; exact (by decide : 7 < 8)
  · rw [scratchLoad_vec]; exact List.nodup_nil
  · rw [scratchLoad_vec]
  · rw [scratchLoad_vec]; rfl

/-- The checks of a vector load, its granules aside. -/
theorem scratchLoad_checks (hz : z.toNat ≤ 4) (h : CanRun s (scratchLoad s z 0 m b d)) :
    s.fl.acquiring s.cur.frag = false ∧ s.spadCause (sizeBytes z) (spadLanes z 0 m b s) = none ∧
    (spadLanes z 0 m b s).any (fun x => s.blk.spadBad x.2.toNat (sizeBytes z)) = false := by
  have halso := h.also
  rw [scratchLoad_vec] at halso
  obtain ⟨hacq, hlanes⟩ := halso
  rw [spadLanes_vec hz]
  refine ⟨acquiring_eq_false hacq, spadCause_eq_none hz (fun x hx => ?_), ?_⟩
  · obtain ⟨l, hl, rfl⟩ := List.mem_map.1 hx
    exact (hlanes l hl).1
  · rw [List.any_eq_false]
    intro x hx
    obtain ⟨l, hl, rfl⟩ := List.mem_map.1 hx
    have hclean := spadBad_eq_false (hlanes l hl).2
    rw [sizeBytes_eq, bytesOf_eq hz, Bool.not_eq_true]
    exact hclean

/-- The checks of a vector load's operands. -/
theorem scratchLoad_gate (h : CanRun s (scratchLoad s z 0 m b d)) {nine conflict : Bool} (hn : nine = false) (hc : conflict = false) :
    s.gate (viGroup m) (dataGroup z 0 d) nine conflict = none := by
  have hgate := h.gate hn hc
  rw [scratchLoad_vec] at hgate
  rw [dataGroup_eq]
  exact hgate

/-- An `LDS` whose checks pass binds what its lanes read. -/
theorem lds_exec (hgate : s.gate (viGroup m) (dataGroup z u d) (u = 1 && uniBad z d) false = none)
    (hacq : s.fl.acquiring s.cur.frag = false) (hcause : s.spadCause (sizeBytes z) (spadLanes z u m b s) = none)
    (hbad : (spadLanes z u m b s).any (fun x => s.blk.spadBad x.2.toNat (sizeBytes z)) = false) :
    exec (.lds z u m b d) s = floeOp (.lds z u m b d) s (fun s =>
      .go ((s.popPorts (viGroup m)).spadLoad z u d (spadLanes z u m b s))) := by
  show execLds z u m b d s = _
  unfold execLds floeOp
  simp only [hgate, hacq, hcause, hbad, Bool.false_eq_true, if_false]

/-- `LDS` with a register group per lane. -/
theorem completes_lds_vec (hz : z.toNat ≤ 4) (h : CanRun s (scratchLoad s z 0 m b d)) :
    Completes (.lds z 0 m b d) s (After s (scratchLoad s z 0 m b d)) := by
  obtain ⟨hacq, hcause, hbad⟩ := scratchLoad_checks hz h
  exact completes_of_body (lds_exec (scratchLoad_gate h rfl rfl) hacq hcause hbad) rfl (scratchLoad_body hz h)
    (by rw [scratchLoad_vec]; rfl)

theorem scratchLoad_uni {v : Nat} (hv : v = scratchNumber s (s.S b.toNat).toNat (2 ^ z.toNat)) : scratchLoad s z 1 m b d =
    { uni := if z = 4 then [(d.toNat, BitVec.ofNat 64 v), (d.toNat + 1, BitVec.ofNat 64 (v / 2 ^ 64))] else [(d.toNat, BitVec.ofNat 64 v)]
      also := noAcquire s ∧ (z = 4 → d.toNat % 2 = 0) ∧ inScratch s z (s.S b.toNat).toNat ∧
        scratchClean s (s.S b.toNat).toNat (2 ^ z.toNat) } := by
  subst hv
  exact if_pos rfl

/-- A uniform load binds one value, in the elected lane. -/
theorem spadLoad_uni (hz : z.toNat ≤ 4) : (s.popPorts []).spadLoad z 1 d (spadLanes z 1 m b s) =
    s.spadBind z 1 d s.elected (scratchNumber s (s.S b.toNat).toNat (2 ^ z.toNat)) := by
  rw [← ofBytes_spadRead, ← bytesOf_eq hz, ← sizeBytes_eq]
  rfl

/-- `LDS` into a uniform register or pair. -/
theorem completes_lds_uni (hz : z.toNat ≤ 4) (h : CanRun s (scratchLoad s z 1 63 b d)) :
    Completes (.lds z 1 63 b d) s (After s (scratchLoad s z 1 63 b d)) := by
  have halso := h.also
  have hgate := h.gate (nine := decide ((1 : BitVec 1) = 1) && uniBad z d) (conflict := false)
  rw [scratchLoad_uni rfl] at halso hgate
  obtain ⟨hacq, heven, hin, hclean⟩ := halso
  have hcause : s.spadCause (sizeBytes z) (spadLanes z 1 63 b s) = none :=
    spadCause_eq_none hz (List.forall_mem_singleton.2 hin)
  have hbad : (spadLanes z 1 63 b s).any (fun x => s.blk.spadBad x.2.toNat (sizeBytes z)) = false := by
    rw [spadLanes_uni, List.any_cons, List.any_nil, sizeBytes_eq, bytesOf_eq hz, spadBad_eq_false hclean]
    rfl
  refine completes_of_body (lds_exec (hgate (uniBad_false (fun _ => heven)) rfl) (acquiring_eq_false hacq) hcause hbad)
    (congrArg Res.go (spadLoad_uni hz)) ?_ (by rw [scratchLoad_uni rfl]; rfl)
  rw [scratchLoad_uni rfl]
  unfold State.spadBind
  rw [if_pos rfl]
  split
  · exact ((nothing_body s { also := _ } rfl rfl rfl rfl rfl).setS _ _ rfl).setS _ _ (by simp)
  · exact (nothing_body s { also := _ } rfl rfl rfl rfl rfl).setS _ _ rfl

/-- The fields that R395 accepts of an access of a lane group or of one uniform group. -/
theorem spadFields (hw : (Instr.lds z u m b d).wf = true) : z.toNat ≤ 4 ∧ (u = 0 ∨ m = 63) := by
  have hfields : (decide (z.toNat ≤ 4) && udataOk u m) = true := hw
  simpa [udataOk] using hfields

theorem completes_lds (hw : (Instr.lds z u m b d).wf = true) (h : CanRun s (scratchLoad s z u m b d)) :
    Completes (.lds z u m b d) s (After s (scratchLoad s z u m b d)) := by
  obtain ⟨hz, hu⟩ := spadFields hw
  by_cases hone : u = 1
  · subst hone
    obtain rfl : m = 63 := hu.resolve_left (by decide)
    exact completes_lds_uni hz h
  · obtain rfl := not_one hone
    exact completes_lds_vec hz h

/-! ## Granules (R77, R78) -/

/-- Granules set to one state: nothing else of the block changes. -/
theorem setFulls_frame (gs : List Nat) (v : Bool) : ∀ b : Block,
    gs.foldl (fun b g => b.setFull g v) b = { b with full := (gs.foldl (fun b g => b.setFull g v) b).full } := by
  induction gs with
  | nil => intro b; rfl
  | cons g gs ih => intro b; rw [List.foldl_cons, ih]; rfl

theorem setFulls_full (gs : List Nat) (v : Bool) (g : Nat) : ∀ b : Block,
    (gs.foldl (fun b g => b.setFull g v) b).full.getD g false = if g ∈ gs then v else b.full.getD g false := by
  induction gs with
  | nil => intro b; simp
  | cons h gs ih =>
    intro b
    rw [List.foldl_cons, ih, Block.setFull, Tab.getD_set]
    by_cases hg : g ∈ gs
    · simp [hg]
    · by_cases hh : g = h <;> simp [hg, hh]

theorem mem_granulesOf {ls : List (Nat × W64)} {g : Nat} : g ∈ granulesOf ls ↔ ∃ x ∈ ls, x.2.toNat / 16 = g := by
  unfold granulesOf
  rw [mem_dedupe, List.mem_map]

theorem mem_granules_lanes (hz : z.toNat ≤ 4) {g : Nat} :
    g ∈ granulesOf (spadLanes z 0 m b s) ↔ ∃ l ∈ s.lanes, offset s z m b l / 16 = g := by
  rw [mem_granulesOf, spadLanes_vec hz]
  constructor
  · rintro ⟨x, hx, rfl⟩
    obtain ⟨l, hl, rfl⟩ := List.mem_map.1 hx
    exact ⟨l, hl, rfl⟩
  · rintro ⟨l, hl, rfl⟩
    exact ⟨_, List.mem_map_of_mem hl, rfl⟩

/-- No older wait of a kind stands on the granules. -/
theorem behind_eq_false {gs : List Nat} {want : Bool} (h : ∀ w ∈ s.blk.waiters, w.wantEmpty = want → ∀ g ∈ gs, g ∉ w.granules) :
    s.behind gs want = false := by
  unfold State.behind
  rw [List.any_eq_false]
  intro w hw
  have hmem := (List.takeWhile_sublist _).subset hw
  simp only [Bool.and_eq_true, decide_eq_true_eq, List.any_eq_true, not_and, not_exists]
  exact fun hwant g hg hgs => h w hmem hwant g hgs hg

/-- A fragment that stands in no queue of waits leaves none. -/
theorem leaveWait_blk {t : State} (hc : t.cur = s.cur) (hw : t.blk.waiters = s.blk.waiters) (h : noWait s) :
    t.leaveWait.blk = t.blk := by
  have hfilter : t.blk.waiters.filter (fun w => !(w.floe = t.cur.floe && w.frag = t.cur.frag)) = t.blk.waiters := by
    rw [List.filter_eq_self, hw, hc]
    intro w hm
    rw [Bool.not_eq_true', ← Bool.not_eq_true, Bool.and_eq_true, decide_eq_true_eq, decide_eq_true_eq]
    exact h w hm
  unfold State.leaveWait
  rw [State.updBlk_blk, hfilter]

/-- What an operation outside a window writes changes, of the floe, what an open window has saved (R238). -/
theorem keepWrites_spec (t : State) (f : Nat) (words sregs preds : List Nat) :
    OnlyFloe t f (t.keepWrites f words sregs preds) ∧
    (t.keepWrites f words sregs preds).floe f = { t.floe f with fence := ((t.keepWrites f words sregs preds).floe f).fence } ∧
    FenceKept (t.floe f) ((t.keepWrites f words sregs preds).floe f) := by
  unfold State.keepWrites
  cases hf : (t.floe f).fence with
  | none => exact ⟨OnlyFloe.refl t f, rfl, fun h => h, fun w hw => absurd (hf.symm.trans hw) (by simp)⟩
  | some w =>
    refine ⟨OnlyFloe.updFloe t f _, by simp only [State.updFloe_floe_self], fun h => absurd (hf.symm.trans h) (by simp), fun x hx => ?_⟩
    obtain rfl : w = x := Option.some.inj (hf.symm.trans hx)
    rw [State.updFloe_floe_self]
    exact ⟨_, rfl⟩

/-- Where the fragments and live lanes are as before, an undivided floe goes on behind the instruction that retires. -/
theorem retireFrag_pc {t : State} (hc : t.cur = s.cur) (hf : t.fl.frags = s.fl.frags) (hl : t.fl.live = s.fl.live) (h : Undivided s) (n : Nat) :
    (t.retireFrag s.cur.floe s.cur.frag n).fg.pc = behind s n := by
  have hfg : t.fg = s.fg := by
    show ((t.fl.frags.find? (fun g => g.id = t.cur.frag)).getD _) = _
    rw [hf, hc]; rfl
  have hu : Undivided t := by
    unfold Undivided
    rw [hf, hl, hfg]
    exact h
  have hgo := moved_of_goTo t { target := behind s n } (fun fl => fl) rfl rfl rfl (now := t.now)
  have heq : t.retireFrag s.cur.floe s.cur.frag n = t.updFl (fun fl => fl.goTo t.cur.frag (behind s n) t.now) := by
    unfold State.retireFrag State.updFl State.updFloe
    rw [← hc]
    simp only [show (t.floe t.cur.floe).frag t.cur.frag = s.fg from hfg]
    rfl
  rw [heq]
  exact (hgo.goes hu).1

/-- What an `LDFE` leaves before its granules change: its loads bound, its wait over, an open window's saved registers with the values. -/
def ldfeKept (s : State) (z : BitVec 3) (m b d : BitVec 6) : State :=
  ((s.popPorts (viGroup m)).spadLoad z 0 d (spadLanes z 0 m b s)).leaveWait.keepWrites s.cur.floe
    (((spadLanes z 0 m b s).map (fun x =>
      (upTo (sizeRegs z)).map (fun k => s.blk.regIdx (s.thread x.1) (s.absReg (d.toNat + k))))).flatten) [] []
/-- What it leaves before it retires. -/
def ldfeLeaves (s : State) (clr : Bool) (z : BitVec 3) (m b d : BitVec 6) : State :=
  if clr then (ldfeKept s z m b d).updBlk (fun c => (granulesOf (spadLanes z 0 m b s)).foldl (fun c g => c.setFull g false) c)
  else ldfeKept s z m b d

/-- The body of an `LDFE` that may go. -/
theorem ldfe_body {clr : Bool} (hz : z.toNat ≤ 4) (h : CanRun s (scratchLoad s z 0 m b d))
    (hp : s.portsOf (scratchLoad s z 0 m b d).dsts = []) (ht : mayTake s clr z m b) :
    ldfeBody clr z m b d s = .go (ldfeLeaves s clr z m b d) := by
  obtain ⟨hfull, -, hold⟩ := ht
  obtain ⟨hacq, hcause, hbad⟩ := scratchLoad_checks hz h
  have hport : s.namesPort (dataGroup z 0 d) = false := by
    rw [scratchLoad_vec] at hp
    rw [State.namesPort, dataGroup_eq, if_neg (by decide), hp]
    rfl
  have hgranules : ((granulesOf (spadLanes z 0 m b s)).all (fun g => s.blk.isFull g)) = true := by
    rw [List.all_eq_true]
    intro g hg
    obtain ⟨l, hl, rfl⟩ := (mem_granules_lanes hz).1 hg
    exact hfull l hl
  have hbehind : (clr && s.behind (granulesOf (spadLanes z 0 m b s)) false) = false := by
    cases clr with
    | false => rfl
    | true =>
      rw [Bool.true_and]
      refine behind_eq_false (fun w hw hwant g hg => ?_)
      obtain ⟨l, hl, rfl⟩ := (mem_granules_lanes hz).1 hg
      exact hold rfl w hw hwant l hl
  unfold ldfeBody
  simp only [scratchLoad_gate h (nine := false) rfl hport, hacq, hcause, hgranules, hbehind, hbad]
  rfl

theorem spadLoad_blkOnly (hz : z.toNat ≤ 4) : BlkOnly s ((s.popPorts (viGroup m)).spadLoad z 0 d (spadLanes z 0 m b s)) := by
  rw [spadLoad_writes hz]
  exact (State.popPorts_spec s _).1.trans (State.setVs_spec _ _).1

theorem spadLoad_blk (hz : z.toNat ≤ 4) : ((s.popPorts (viGroup m)).spadLoad z 0 d (spadLanes z 0 m b s)).blk = { s.blk with
    vregs := ((s.popPorts (viGroup m)).spadLoad z 0 d (spadLanes z 0 m b s)).blk.vregs
    badRegs := ((s.popPorts (viGroup m)).spadLoad z 0 d (spadLanes z 0 m b s)).blk.badRegs
    qents := ((s.popPorts (viGroup m)).spadLoad z 0 d (spadLanes z 0 m b s)).blk.qents } := by
  rw [spadLoad_writes hz, (State.setVs_spec _ _).2, Block.vwrites_frame, (State.popPorts_spec s _).2, Block.popKeys_frame]

theorem OnlyOwn.ofFloe {t : State} (h : OnlyFloe s s.cur.floe t) : OnlyOwn s t :=
  ⟨by rw [h.rest], h.floes, fun _ _ => by rw [h.rest]⟩

/-- A wait that an `LDFE` does not stand in, and what a window saves, change neither its block nor its floe besides. -/
theorem ldfeKept_spec (hz : z.toNat ≤ 4) (h : CanRun s (scratchLoad s z 0 m b d)) (hw : noWait s) :
    OnlyOwn s (ldfeKept s z m b d) ∧
    (ldfeKept s z m b d).blk = ((s.popPorts (viGroup m)).spadLoad z 0 d (spadLanes z 0 m b s)).blk ∧
    (ldfeKept s z m b d).fl = { s.fl with fence := (ldfeKept s z m b d).fl.fence } ∧ FenceKept s.fl (ldfeKept s z m b d).fl := by
  have hload := spadLoad_blkOnly (s := s) (m := m) (b := b) (d := d) hz
  have hleft : BlkOnly s ((s.popPorts (viGroup m)).spadLoad z 0 d (spadLanes z 0 m b s)).leaveWait := hload.trans (BlkOnly.updBlk _ _)
  have hleave := leaveWait_blk hload.cur (by rw [(scratchLoad_body hz h).block]) hw
  have hkeep := keepWrites_spec ((s.popPorts (viGroup m)).spadLoad z 0 d (spadLanes z 0 m b s)).leaveWait s.cur.floe
    (((spadLanes z 0 m b s).map (fun x =>
      (upTo (sizeRegs z)).map (fun k => s.blk.regIdx (s.thread x.1) (s.absReg (d.toNat + k))))).flatten) [] []
  have hfl := hleft.fl
  have hcur := hleft.cur
  unfold ldfeKept
  generalize ((s.popPorts (viGroup m)).spadLoad z 0 d (spadLanes z 0 m b s)).leaveWait = v at *
  generalize ((s.popPorts (viGroup m)).spadLoad z 0 d (spadLanes z 0 m b s)) = u at *
  generalize v.keepWrites s.cur.floe _ [] [] = k at *
  unfold State.fl at hfl
  rw [hcur] at hfl
  obtain ⟨hown, hfloe, hkept⟩ := hkeep
  have hown' : OnlyFloe v v.cur.floe k := hcur ▸ hown
  have hend := hown'.cur.trans hcur
  rw [hfl] at hfloe hkept
  refine ⟨(OnlyOwn.ofBlk hleft).trans (OnlyOwn.ofFloe hown'), ?_, ?_, ?_⟩
  · rw [← hleave, hown.rest]
    rfl
  · rw [State.fl, hend]
    exact hfloe
  · show FenceKept (s.floe s.cur.floe) (k.floe k.cur.floe)
    rw [hend]
    exact hkept

/-- What an `LDFE` leaves before it retires, from what it kept: its granules, and nothing else besides. -/
theorem ldfeLeaves_spec (hz : z.toNat ≤ 4) (clr : Bool) : BlkOnly (ldfeKept s z m b d) (ldfeLeaves s clr z m b d) ∧
    (ldfeLeaves s clr z m b d).blk = { (ldfeKept s z m b d).blk with full := (ldfeLeaves s clr z m b d).blk.full } ∧
    ∀ g, (ldfeLeaves s clr z m b d).blk.full.getD g false =
      ((ldfeKept s z m b d).blk.full.getD g false && !(clr && decide (∃ l ∈ s.lanes, offset s z m b l / 16 = g))) := by
  unfold ldfeLeaves
  generalize ldfeKept s z m b d = k
  cases clr with
  | false =>
    rw [if_neg Bool.false_ne_true]
    exact ⟨BlkOnly.refl _, rfl, fun g => by simp⟩
  | true =>
    rw [if_pos rfl]
    refine ⟨BlkOnly.updBlk _ _, ?_, fun g => ?_⟩
    · rw [State.updBlk_blk]
      exact setFulls_frame _ _ _
    · rw [State.updBlk_blk, setFulls_full]
      simp only [mem_granules_lanes hz]
      split
      · rename_i hg; simp [hg]
      · rename_i hg; simp [hg]

/-- Retiring leaves the block, and of the floe all but its fragments and its scheduling. -/
theorem retireFrag_spec {t : State} (hc : t.cur = s.cur) (n : Nat) : OnlyOwn t (t.retireFrag s.cur.floe s.cur.frag n) ∧
    (t.retireFrag s.cur.floe s.cur.frag n).blk = t.blk ∧ (t.retireFrag s.cur.floe s.cur.frag n).fl = { t.fl with
      frags := (t.retireFrag s.cur.floe s.cur.frag n).fl.frags, st := (t.retireFrag s.cur.floe s.cur.frag n).fl.st,
      readyAt := (t.retireFrag s.cur.floe s.cur.frag n).fl.readyAt } := by
  rw [← hc]
  exact ⟨OnlyOwn.updFl t _, rfl, State.retireFrag_frame t t.cur.floe t.cur.frag n⟩

/-- Where a list of groups names no port, none of its registers is one. -/
theorem portOf_of_portsOf_nil {gs : List VGroup} {g : VGroup} {i : Nat} (h : s.portsOf gs = []) (hg : g ∈ gs) (hi : i < g.count) :
    s.fl.portOf (s.absReg (g.n + i)) = none := by
  by_contra hne
  obtain ⟨q, hq⟩ := Option.ne_none_iff_exists'.1 hne
  have hmem : q ∈ s.portsOf gs := by
    rw [State.portsOf, mem_dedupe, List.mem_filterMap]
    exact ⟨_, State.mem_absRegs.2 ⟨g, hg, i, hi, rfl⟩, hq⟩
  rw [h] at hmem
  cases hmem

/-- An `LDFE` that may go completes with its loads' registers, its granules emptied where it clears. -/
theorem completes_ldfe {i : Instr} {clr : Bool} (hx : exec i s = floeOp i s (ldfeBody clr z m b d)) (hl : i.halfwords * 2 = 4)
    (hz : z.toNat ≤ 4) (h : CanRun s (scratchLoad s z 0 m b d)) (hp : s.portsOf (scratchLoad s z 0 m b d).dsts = [])
    (ht : mayTake s clr z m b) : Completes i s (Taken s clr z m b d) := by
  have hb := scratchLoad_body hz h
  obtain ⟨hkown, hkblk, hkfl, hkfence⟩ := ldfeKept_spec hz h ht.2.1
  obtain ⟨hlown, hlblk, hlfull⟩ := ldfeLeaves_spec (s := s) (m := m) (b := b) (d := d) hz clr
  refine ⟨_, hx, ?_⟩
  rw [ldfe_body hz h hp ht]
  show Taken s clr z m b d ((ldfeLeaves s clr z m b d).retireFrag s.cur.floe s.cur.frag (i.halfwords * 2))
  rw [hl]
  have hcur := hlown.cur.trans hkown.cur
  have hfl := hlown.fl
  obtain ⟨hrown, hrblk, hrfl⟩ := retireFrag_spec hcur 4
  have hgoes := fun hu => retireFrag_pc hcur (by rw [hfl, hkfl]) (by rw [hfl, hkfl]) hu 4
  generalize (ldfeLeaves s clr z m b d).retireFrag s.cur.floe s.cur.frag 4 = t at *
  generalize ldfeLeaves s clr z m b d = v at *
  generalize ldfeKept s z m b d = k at *
  have hblk : t.blk = { k.blk with full := t.blk.full } := by rw [hrblk]; exact hlblk
  rw [hkblk] at hblk
  have hregs := hb.regs
  have hothers := hb.otherRegs
  have hqueues := hb.queues
  have hframe := spadLoad_blk (s := s) (m := m) (b := b) (d := d) hz
  rw [scratchLoad_vec] at hregs hothers hqueues hp
  generalize (s.popPorts (viGroup m)).spadLoad z 0 d (spadLanes z 0 m b s) = u at *
  have hvregs : t.blk.vregs = u.blk.vregs := by rw [hblk]
  have hbad : t.blk.badRegs = u.blk.badRegs := by rw [hblk]
  have hqents : t.blk.qents = u.blk.qents := by rw [hblk]
  have hnregs : t.blk.nregs = u.blk.nregs := by rw [hblk]
  have hport : ∀ k < regsOf z, s.fl.portOf (s.absReg (d.toNat + k)) = none := fun k hk =>
    portOf_of_portsOf_nil hp (List.mem_singleton_self _) hk
  exact
    { own := (hkown.trans (OnlyOwn.ofBlk hlown)).trans hrown
      regs := fun l hl k hk => by
        unfold Block.reg Block.regIdx
        rw [hvregs, hnregs]
        exact hregs l hl (d.toNat + k, _) (List.mem_map.2 ⟨k, List.mem_range.2 hk, rfl⟩) (hport k hk)
      others := fun n hn => by
        rw [hvregs, hbad]
        refine hothers n (fun l hl w hw => ?_)
        obtain ⟨k, hk, rfl⟩ := List.mem_map.1 hw
        exact hn l hl k (List.mem_range.1 hk)
      full := fun g => by rw [hrblk, hlfull, hkblk, hframe]
      queues := fun l hl q hq => by
        unfold Block.qent Block.queueAt
        rw [hqents]
        refine (hqueues l hl q hq).trans ((congrArg₂ (· ++ ·) rfl ?_).trans (List.append_nil _))
        refine List.map_eq_nil_iff.2 (List.filter_eq_nil_iff.2 (fun w hw => ?_))
        obtain ⟨k, hk, rfl⟩ := List.mem_map.1 hw
        rw [hport k (List.mem_range.1 hk)]
        simp
      block := by
        rw [hvregs, hbad, hqents]
        refine hblk.trans ?_
        rw [hframe]
      floe := by rw [hrfl, hfl, hkfl]
      fence := by
        unfold FenceKept
        rw [hrfl, hfl]
        exact hkfence
      goes := hgoes }

end

/-- Settles O29: `LDS` binds an effect's writes, and `LDFE` binds the same and then sets its granules. -/
theorem scratchpadLoads : Obligations.ScratchpadLoads := by
  refine ⟨fun s i e hw hr h => ?_, fun s clr z m b d hw h hp ht => ?_⟩
  · cases i with
    | lds z u m b d => cases hr; exact completes_lds hw h
    | _ => exact of_none_eq_some hr
  · have hz : z.toNat ≤ 4 := of_decide_eq_true hw
    cases clr with
    | false => exact completes_ldfe (show _ = execLdfeKeep z m b d s from rfl) rfl hz h hp ht
    | true => exact completes_ldfe (show _ = execLdfeClr z m b d s from rfl) rfl hz h hp ht

end Sys2Proof.Claims

/-!
# Stores to scratchpad (R64, R77, R78, R97, R277, R443, R444, R447)

The block's bytes and poison after lanes have written one after the other, and what each store's body leaves of the rest.
-/
namespace Sys2Proof.Claims
open Sys2Proof.Machine

section

/-! ## Runs of writes -/

/-- Lanes' writes to scratchpad: of a block, its bytes and their poison change alone. -/
theorem spadWrites_frame (ws : List (Nat × List Byte)) : ∀ c : Block, ws.foldl (fun c w => c.spadWrite w.1 w.2) c =
    { c with spad := (ws.foldl (fun c w => c.spadWrite w.1 w.2) c).spad
             badSpad := (ws.foldl (fun c w => c.spadWrite w.1 w.2) c).badSpad } := by
  induction ws with
  | nil => intro c; rfl
  | cons w ws ih => intro c; rw [List.foldl_cons, ih]; rfl

/-- Bytes set one after the other from an offset. -/
theorem setBytes_getD (bs : List Byte) (k : Nat) : ∀ (off : Nat) (t : Tab Byte),
    (((bs.zip (upTo bs.length)).foldl (fun t e => t.set 0 (off + e.2) e.1) t).getD k 0) =
      if off ≤ k ∧ k < off + bs.length then bs.getD (k - off) 0 else t.getD k 0 := by
  have key : ∀ (bs : List Byte) (n off : Nat) (t : Tab Byte),
      ((bs.zip (List.range' n bs.length)).foldl (fun t e => t.set 0 (off + e.2) e.1) t).getD k 0 =
        if off + n ≤ k ∧ k < off + n + bs.length then bs.getD (k - (off + n)) 0 else t.getD k 0 := by
    intro bs
    induction bs with
    | nil => intro n off t; rw [if_neg (by simp)]; rfl
    | cons x bs ih =>
      intro n off t
      rw [List.length_cons, List.range'_succ, List.zip_cons_cons, List.foldl_cons, ih, Tab.getD_set]
      by_cases hk : k = off + n
      · subst hk
        rw [if_neg (by omega), if_pos rfl, if_pos (by omega), Nat.sub_self]
        rfl
      · rw [if_neg hk]
        by_cases hin : off + (n + 1) ≤ k ∧ k < off + (n + 1) + bs.length
        · rw [if_pos hin, if_pos (by omega), show k - (off + n) = (k - (off + (n + 1))) + 1 by omega]
          rfl
        · rw [if_neg hin, if_neg (by omega)]
  intro off t
  have := key bs 0 off t
  rwa [← List.range_eq_range', Nat.add_zero] at this

theorem spadWrite_getD (c : Block) (off k : Nat) (bs : List Byte) : (c.spadWrite off bs).spad.getD k 0 =
    if off ≤ k ∧ k < off + bs.length then bs.getD (k - off) 0 else c.spad.getD k 0 := setBytes_getD bs k off c.spad

/-- A scratchpad store's writes, lane by lane. -/
def ScratchStore.writes (a : ScratchStore) : List (Nat × List Byte) := a.lanes.map (fun w => (w.1, toBytes a.size w.2))

theorem toBytes_getD {n i : Nat} (x : Nat) (h : i < n) : (toBytes n x).getD i 0 = BitVec.ofNat 8 (x / 256 ^ i) := by
  rw [List.getD_eq_getElem?_getD, toBytes_get?, if_pos h]
  rfl

/-- Each byte after the lanes' writes is that of the last lane that covers it (R97). -/
theorem storeWrites_spad (a : ScratchStore) (k : Nat) (c : Block) :
    (a.writes.foldl (fun c w => c.spadWrite w.1 w.2) c).spad.getD k 0 = scratchByte a k (c.spad.getD k 0) := by
  unfold ScratchStore.writes scratchByte
  rw [List.foldl_map]
  generalize a.lanes = ls
  induction ls generalizing c with
  | nil => rfl
  | cons w ls ih =>
    rw [List.foldl_cons, List.foldl_cons, ih, spadWrite_getD, toBytes_length]
    by_cases hin : w.1 ≤ k ∧ k < w.1 + a.size
    · rw [if_pos hin, if_pos hin, toBytes_getD _ (by omega)]
    · rw [if_neg hin, if_neg hin]

/-- A word loses its poison where one write covers it whole. -/
theorem spadWrites_badSpad (ws : List (Nat × List Byte)) (w : Nat) : ∀ c : Block,
    w ∈ (ws.foldl (fun c w => c.spadWrite w.1 w.2) c).badSpad ↔
      w ∈ c.badSpad ∧ ∀ x ∈ ws, ¬(x.1 ≤ w * 4 ∧ w * 4 + 4 ≤ x.1 + x.2.length) := by
  induction ws with
  | nil => intro c; simp
  | cons x ws ih =>
    intro c
    rw [List.foldl_cons, ih, List.forall_mem_cons, ← and_assoc]
    refine and_congr ?_ Iff.rfl
    rw [Block.spadWrite, List.mem_filter, Bool.not_eq_true', ← Bool.not_eq_true, Bool.and_eq_true, decide_eq_true_eq, decide_eq_true_eq]

theorem mem_wholeWords {bytes : List Nat} {w : Nat} : w ∈ wholeWords bytes ↔ ∀ k < 4, w * 4 + k ∈ bytes := by
  unfold wholeWords upTo
  rw [List.mem_filter, mem_dedupe, List.mem_map]
  simp only [List.all_eq_true, List.mem_range, decide_eq_true_eq]
  refine ⟨fun h => h.2, fun h => ⟨⟨w * 4, h 0 (by omega), by omega⟩, h⟩⟩

/-! ## The block that a store leaves -/

/-- The block after a store's writes: the words that narrow ones cover between them are poisoned no more (R277). -/
def storeWritten (a : ScratchStore) (c : Block) : Block :=
  (a.writes.foldl (fun c w => c.spadWrite w.1 w.2) c).spadClear (narrowWords a.writes)

theorem storeWritten_frame (a : ScratchStore) (c : Block) :
    storeWritten a c = { c with spad := (storeWritten a c).spad, badSpad := (storeWritten a c).badSpad } := by
  unfold storeWritten
  rw [spadWrites_frame]
  rfl

theorem mem_writes {a : ScratchStore} {x : Nat × List Byte} : x ∈ a.writes ↔ ∃ w ∈ a.lanes, (w.1, toBytes a.size w.2) = x :=
  List.mem_map

/-- A store of 1 or 2 bytes a lane covers a word where each byte of it is a lane's. -/
theorem mem_narrowWords {a : ScratchStore} (hs : a.size < 4) {w : Nat} :
    w ∈ narrowWords a.writes ↔ ∀ k < 4, ∃ x ∈ a.lanes, x.1 ≤ w * 4 + k ∧ w * 4 + k < x.1 + a.size := by
  have hall : a.writes.filter (fun w => w.2.length < 4) = a.writes := by
    rw [List.filter_eq_self]
    intro x hx
    obtain ⟨y, -, rfl⟩ := mem_writes.1 hx
    simpa [toBytes_length] using hs
  unfold narrowWords
  rw [hall, mem_wholeWords]
  refine forall₂_congr (fun k _ => ?_)
  simp only [List.mem_flatten, List.mem_map, mem_writes, upTo]
  constructor
  · rintro ⟨l, ⟨_, ⟨x, hx, rfl⟩, rfl⟩, hmem⟩
    obtain ⟨i, hi, heq⟩ := List.mem_map.1 hmem
    rw [toBytes_length, List.mem_range] at hi
    exact ⟨x, hx, by simp only at heq; omega, by simp only at heq; omega⟩
  · rintro ⟨x, hx, hlo, hhi⟩
    refine ⟨_, ⟨_, ⟨x, hx, rfl⟩, rfl⟩, List.mem_map.2 ⟨w * 4 + k - x.1, ?_, ?_⟩⟩
    · rw [toBytes_length, List.mem_range]; omega
    · simp only; omega

/-- No narrow write stands in a store of whole words. -/
theorem narrowWords_nil {a : ScratchStore} (hs : 4 ≤ a.size) : narrowWords a.writes = [] := by
  have hnone : a.writes.filter (fun w => w.2.length < 4) = [] := by
    rw [List.filter_eq_nil_iff]
    intro x hx
    obtain ⟨y, -, rfl⟩ := mem_writes.1 hx
    simpa [toBytes_length] using hs
  unfold narrowWords
  rw [hnone]
  rfl

/-- Each lane's offset is a multiple of a size that is 1, 2, or whole words. -/
structure Aligned (a : ScratchStore) : Prop where
  size  : a.size < 4 ∨ a.size % 4 = 0 ∧ 0 < a.size
  lanes : ∀ w ∈ a.lanes, w.1 % a.size = 0

theorem storeWritten_badSpad {a : ScratchStore} (ha : Aligned a) (c : Block) (w : Nat) : w ∈ (storeWritten a c).badSpad ↔
    w ∈ c.badSpad ∧ ∃ k < 4, ∀ x ∈ a.lanes, ¬(x.1 ≤ w * 4 + k ∧ w * 4 + k < x.1 + a.size) := by
  have hwhole : (∀ x ∈ a.writes, ¬(x.1 ≤ w * 4 ∧ w * 4 + 4 ≤ x.1 + x.2.length)) ↔
      ∀ x ∈ a.lanes, ¬(x.1 ≤ w * 4 ∧ w * 4 + 4 ≤ x.1 + a.size) := by
    unfold ScratchStore.writes
    rw [List.forall_mem_map]
    simp only [toBytes_length]
  unfold storeWritten Block.spadClear
  rw [List.mem_filter, spadWrites_badSpad, hwhole, Bool.not_eq_true', decide_eq_false_iff_not, and_assoc]
  refine and_congr_right (fun _ => ?_)
  rcases ha.size with hnarrow | ⟨hwords, hpos⟩
  · rw [mem_narrowWords hnarrow]
    push Not
    exact ⟨fun h => h.2, fun h => ⟨fun x _ _ => by omega, h⟩⟩
  · rw [narrowWords_nil (by omega)]
    refine ⟨fun h => ⟨0, by omega, fun x hx hin => h.1 x hx ?_⟩, fun ⟨k, hk, h⟩ =>
      ⟨fun x hx hin => h x hx (by omega), List.not_mem_nil⟩⟩
    have h4 : x.1 % 4 = 0 := Nat.mod_eq_zero_of_dvd
      ((Nat.dvd_of_mod_eq_zero hwords).trans (Nat.dvd_of_mod_eq_zero (ha.lanes x hx)))
    omega

/-! ## What a store's body leaves -/

variable {s : State} {z : BitVec 3} {u : BitVec 1} {m b d : BitVec 6} {a : ScratchStore}

theorem popPorts_qent (s : State) (gs : List VGroup) {l q : Nat} (hl : l ∈ s.lanes) (hq : q < 16) :
    (s.popPorts gs).blk.qent (s.thread l) q = popped s gs l q := by
  rw [(State.popPorts_spec s gs).2, Block.keyQ_qent, Block.popKeys_keyQ _ _ (s.popKeys_nodup _), popped_keyQ s gs hl hq]

theorem popPorts_frame (s : State) (gs : List VGroup) :
    (s.popPorts gs).blk = { s.blk with qents := (s.popPorts gs).blk.qents } := by
  rw [(State.popPorts_spec s gs).2, Block.popKeys_frame]

/-- What the body of a scratchpad store leaves: its ports popped, its bytes written, and its granules filled where it fills them. -/
structure StoreBody (s : State) (a : ScratchStore) (v : State) : Prop where
  own  : BlkOnly s v
  blk  : v.blk = { storeWritten a (s.popPorts a.srcs).blk with full := v.blk.full }
  full : ∀ g, v.blk.full.getD g false = (s.blk.full.getD g false || (a.fills && decide (∃ w ∈ a.lanes, w.1 / 16 = g)))

theorem storeBody_plain (hf : a.fills = false) : StoreBody s a ((s.popPorts a.srcs).spadStore a.writes) := by
  refine ⟨(State.popPorts_spec s _).1.trans (BlkOnly.updBlk _ _), ?_, fun g => ?_⟩
  · rw [State.spadStore, State.updBlk_blk]
    rfl
  · rw [State.spadStore, State.updBlk_blk, hf, Bool.false_and, Bool.or_false]
    show (storeWritten a _).full.getD g false = _
    rw [storeWritten_frame, popPorts_frame]

theorem storeBody_fill (hf : a.fills = true) (hw : noWait s) {gs : List Nat} (hg : ∀ g, g ∈ gs ↔ ∃ w ∈ a.lanes, w.1 / 16 = g) :
    StoreBody s a ((((s.popPorts a.srcs).spadStore a.writes).leaveWait).updBlk (fun c => gs.foldl (fun c g => c.setFull g true) c)) := by
  have hstore : BlkOnly s ((s.popPorts a.srcs).spadStore a.writes) := (State.popPorts_spec s _).1.trans (BlkOnly.updBlk _ _)
  have hblk : ((s.popPorts a.srcs).spadStore a.writes).blk = storeWritten a (s.popPorts a.srcs).blk := State.updBlk_blk _ _
  have hwaiters : (storeWritten a (s.popPorts a.srcs).blk).waiters = s.blk.waiters := by rw [storeWritten_frame, popPorts_frame]
  have hfull : (storeWritten a (s.popPorts a.srcs).blk).full = s.blk.full := by rw [storeWritten_frame, popPorts_frame]
  have hleave := leaveWait_blk hstore.cur (by rw [hblk]; exact hwaiters) hw
  refine ⟨(hstore.trans (BlkOnly.updBlk _ _)).trans (BlkOnly.updBlk _ _), ?_, fun g => ?_⟩
  · rw [State.updBlk_blk, hleave, hblk]
    exact setFulls_frame _ _ _
  · rw [State.updBlk_blk, hleave, hblk, setFulls_full, hf, hfull, Bool.true_and]
    simp only [hg]
    split
    · rename_i hin; simp [hin]
    · rename_i hin; simp [hin]

/-- A store whose body leaves this completes, once it has retired, as the rules have it. -/
theorem completes_storeBody {i : Instr} {body : State → Res} {v : State} (hx : exec i s = floeOp i s body) (hb : body s = .go v)
    (hl : i.halfwords * 2 = 4) (ha : Aligned a) (hv : StoreBody s a v) : Completes i s (ScratchStored s a) := by
  refine ⟨_, hx, ?_⟩
  rw [hb]
  show ScratchStored s a (v.retireFrag s.cur.floe s.cur.frag (i.halfwords * 2))
  rw [hl]
  have hcur := hv.own.cur
  have hfl := hv.own.fl
  obtain ⟨hrown, hrblk, hrfl⟩ := retireFrag_spec hcur 4
  have hgoes := fun hu => retireFrag_pc hcur (by rw [hfl]) (by rw [hfl]) hu 4
  have hblk := hv.blk
  have hframe := storeWritten_frame a (s.popPorts a.srcs).blk
  have hspad : v.blk.spad = (storeWritten a (s.popPorts a.srcs).blk).spad := by rw [hblk]
  have hbad : v.blk.badSpad = (storeWritten a (s.popPorts a.srcs).blk).badSpad := by rw [hblk]
  have hqents : v.blk.qents = (s.popPorts a.srcs).blk.qents := by rw [hblk, hframe]
  exact
    { own := (OnlyOwn.ofBlk hv.own).trans hrown
      bytes := fun k => by
        rw [hrblk, hspad, ← popPorts_spad a.srcs]
        exact storeWrites_spad a k _
      full := fun g => by rw [hrblk, hv.full]
      poison := fun w => by
        rw [hrblk, hbad, storeWritten_badSpad ha, popPorts_frame]
      queues := fun l hl q hq => by
        rw [hrblk, ← popPorts_qent s a.srcs hl hq, Block.keyQ_qent, Block.keyQ, hqents]
        rfl
      block := by
        rw [hrblk, hspad, hbad, hqents]
        refine hblk.trans ?_
        rw [hframe, popPorts_frame]
      floe := by rw [hrfl, hfl]
      goes := hgoes }

/-! ## The stores' bodies -/

theorem scratchWaits_eq_false (h : mayWrite s) : s.scratchWaits = false := by
  obtain ⟨hacq, hrels⟩ := h
  unfold State.scratchWaits Floe.relHolds
  rw [acquiring_eq_false hacq, Bool.false_or, List.any_eq_false]
  intro n hn
  simp only [Floe.doneBefore, Bool.not_eq_true', Bool.not_eq_false, List.all_eq_true, Bool.or_eq_true, decide_eq_true_eq]
  intro o ho
  by_cases hlt : n ≤ o.seq
  · exact .inl hlt
  · exact .inr (fun x hx => hrels n hn o ho (by omega) x hx)

/-- A store's operands, as its body names them and as the rules do. -/
structure StoreOperands (s : State) (z : BitVec 3) (u : BitVec 1) (m b d : BitVec 6) (a : ScratchStore) : Prop where
  srcs   : viGroup m ++ dataGroup z u d = a.srcs
  writes : s.spadWrites z u d (spadLanes z u m b s) = a.writes
  inside : ∀ x ∈ spadLanes z u m b s, inScratch s z x.2.toNat

theorem sts_exec (hz : z.toNat ≤ 4) (ho : StoreOperands s z u m b d a) (h : CanRun s { srcs := a.srcs, also := a.also })
    (hu : u = 1 → z = 4 → d.toNat % 2 = 0) (hw : mayWrite s) :
    exec (.sts z u m b d) s = floeOp (.sts z u m b d) s (fun s => .go ((s.popPorts a.srcs).spadStore a.writes)) := by
  have hgate := h.gate (nine := decide (u = 1) && uniBad z d) (uniBad_false hu) rfl
  show execSts z u m b d s = _
  unfold execSts floeOp
  simp only [ho.srcs, ho.writes, hgate, scratchWaits_eq_false hw, spadCause_eq_none hz ho.inside, Bool.false_eq_true, if_false]

theorem tryPerform_done (f : Nat) {o : MemOp} (h : ∀ x ∈ o.lanes, x.done = true) : (s.tryPerform f o).getD s = s := by
  have htodo : o.todo = [] := by
    unfold MemOp.todo
    rw [List.filter_eq_nil_iff]
    intro x hx
    simp [h x hx]
  have hall : s.performOp f o = s := by
    unfold State.performOp State.performAll
    rw [htodo]
    simp
  unfold State.tryPerform
  rw [hall]
  split
  · rfl
  · split
    · rfl
    · simp [State.heldBack]

/-- A release finds nothing to perform where the older operations are done. -/
theorem releaseOlder_done (h : olderDone s) : s.releaseOlder s.cur.floe = s := by
  refine foldl_id _ _ _ (fun o _ => ?_)
  split
  · rfl
  · rename_i x hx
    exact tryPerform_done _ (h x (List.mem_of_find?_eq_some hx))

theorem opsDone_eq_true (h : olderDone s) : s.fl.opsDone = true := by
  unfold Floe.opsDone
  simp only [List.all_eq_true]
  exact h

theorem stfe_body {we : Bool} (hz : z.toNat ≤ 4) (ho : StoreOperands s z 0 m b d a) (h : CanRun s { srcs := a.srcs, also := a.also })
    (hw : mayWrite s) (hdone : olderDone s)
    (hwe : we = true → (∀ g ∈ granulesOf (spadLanes z 0 m b s), s.blk.full.getD g false = false) ∧
      s.behind (granulesOf (spadLanes z 0 m b s)) true = false) :
    stfeBody we z m b d s = .go ((((s.popPorts a.srcs).spadStore a.writes).leaveWait).updBlk (fun c =>
      (granulesOf (spadLanes z 0 m b s)).foldl (fun c g => c.setFull g true) c)) := by
  have hgate := h.gate (nine := false) (conflict := false) rfl rfl
  have hgranules : (we && ((granulesOf (spadLanes z 0 m b s)).any (fun g => s.blk.isFull g) ||
      s.behind (granulesOf (spadLanes z 0 m b s)) true)) = false := by
    cases we with
    | false => rfl
    | true =>
      obtain ⟨hempty, hbehind⟩ := hwe rfl
      rw [Bool.true_and, hbehind, Bool.or_false, List.any_eq_false]
      intro g hg
      rw [Block.isFull, hempty g hg]
      exact Bool.false_ne_true
  unfold stfeBody
  simp only [ho.srcs, ho.writes, hgate, scratchWaits_eq_false hw, spadCause_eq_none hz ho.inside, hgranules, releaseOlder_done hdone,
    opsDone_eq_true hdone, Bool.false_eq_true, if_false, Bool.not_true]

/-! ## The rules' stores -/

theorem aligned_of_size (hz : z.toNat ≤ 4) (hs : a.size = 2 ^ z.toNat) (h : ∀ w ∈ a.lanes, inScratch s z w.1) : Aligned a := by
  refine ⟨?_, fun w hw => by rw [hs]; exact (h w hw).1⟩
  rw [hs]
  clear hs h
  revert z
  decide

theorem laneStore_operands (hz : z.toNat ≤ 4) {fills : Bool} (hin : ∀ l ∈ s.lanes, inScratch s z (offset s z m b l)) :
    StoreOperands s z 0 m b d (laneStore s z m b d fills) := by
  refine ⟨?_, ?_, fun x hx => ?_⟩
  · rw [dataGroup_eq]; rfl
  · unfold State.spadWrites ScratchStore.writes laneStore
    rw [spadLanes_vec hz, List.map_map, List.map_map]
    refine List.map_congr_left (fun l _ => ?_)
    simp only [Function.comp, sizeBytes_eq, bytesOf_eq hz, dataM_eq]
    rfl
  · rw [spadLanes_vec hz] at hx
    obtain ⟨l, hl, rfl⟩ := List.mem_map.1 hx
    exact hin l hl

theorem laneStore_aligned (hz : z.toNat ≤ 4) {fills : Bool} (hin : ∀ l ∈ s.lanes, inScratch s z (offset s z m b l)) :
    Aligned (laneStore s z m b d fills) :=
  aligned_of_size (s := s) hz rfl (fun w hw => by
    obtain ⟨l, hl, rfl⟩ := List.mem_map.1 hw
    exact hin l hl)

theorem mem_granules_store (hz : z.toNat ≤ 4) {fills : Bool} {g : Nat} :
    g ∈ granulesOf (spadLanes z 0 m b s) ↔ ∃ w ∈ (laneStore s z m b d fills).lanes, w.1 / 16 = g := by
  rw [mem_granules_lanes hz]
  unfold laneStore
  simp only [List.mem_map, exists_exists_and_eq_and]

/-- `STS` of each active lane's data. -/
theorem completes_sts_vec (hz : z.toNat ≤ 4) (ha : a = laneStore s z m b d false) (h : CanRun s { srcs := a.srcs, also := a.also }) :
    Completes (.sts z 0 m b d) s (ScratchStored s a) := by
  subst ha
  obtain ⟨hw, hin⟩ := h.also
  exact completes_storeBody (sts_exec hz (laneStore_operands hz hin) h (by simp) hw) rfl rfl (laneStore_aligned hz hin)
    (storeBody_plain rfl)

/-- `STS` of a uniform register or pair. -/
theorem completes_sts_uni (hz : z.toNat ≤ 4) (hr : scratchStoreRule s (.sts z 1 63 b d) = some a)
    (h : CanRun s { srcs := a.srcs, also := a.also }) : Completes (.sts z 1 63 b d) s (ScratchStored s a) := by
  obtain rfl := Option.some.inj hr
  obtain ⟨hw, heven, hin⟩ := h.also
  refine completes_storeBody (sts_exec hz ⟨rfl, ?_, List.forall_mem_singleton.2 hin⟩ h (fun _ => heven) hw) rfl rfl
    (aligned_of_size hz rfl (List.forall_mem_singleton.2 hin)) (storeBody_plain rfl)
  show [((s.S b.toNat).toNat, toBytes (sizeBytes z) (s.dataU z d).toNat)] = _
  rw [sizeBytes_eq, bytesOf_eq hz, dataU_eq]
  rfl

/-- `STFE` and `STFE.WE` that may go. -/
theorem completes_stfe {i : Instr} {we : Bool} (hx : exec i s = floeOp i s (stfeBody we z m b d)) (hl : i.halfwords * 2 = 4)
    (hz : z.toNat ≤ 4) {also : Prop} (h : CanRun s { srcs := (laneStore s z m b d true).srcs, also := also })
    (hm : (laneStore s z m b d true).also) (hwait : noWait s) (hdone : olderDone s)
    (hwe : we = true → (∀ l ∈ s.lanes, s.blk.full.getD (offset s z m b l / 16) false = false) ∧
      ∀ w ∈ s.blk.waiters, w.wantEmpty = true → ∀ l ∈ s.lanes, offset s z m b l / 16 ∉ w.granules) :
    Completes i s (ScratchStored s { laneStore s z m b d true with also := also }) := by
  obtain ⟨hw, hin⟩ := hm
  have ho := laneStore_operands (m := m) (b := b) (d := d) hz (fills := true) hin
  refine completes_storeBody hx (stfe_body (a := { laneStore s z m b d true with also := also }) hz ⟨ho.srcs, ho.writes, ho.inside⟩
    h hw hdone (fun hy => ?_)) hl
    ⟨(laneStore_aligned (d := d) hz (fills := true) hin).size, (laneStore_aligned (d := d) hz (fills := true) hin).lanes⟩
    (storeBody_fill rfl hwait (fun g => mem_granules_store (fills := true) hz))
  obtain ⟨hempty, hold⟩ := hwe hy
  refine ⟨fun g hg => ?_, behind_eq_false (fun w hw hwant g hg => ?_)⟩
  · obtain ⟨l, hl, rfl⟩ := (mem_granules_lanes hz).1 hg
    exact hempty l hl
  · obtain ⟨l, hl, rfl⟩ := (mem_granules_lanes hz).1 hg
    exact hold w hw hwant l hl

end

/-- Settles O30: each store's body writes its lanes one after the other, and a fill sets its granules behind them. -/
theorem scratchpadStores : Obligations.ScratchpadStores := by
  intro s i a hw hr h
  cases i with
  | sts z u m b d =>
    obtain ⟨hz, hu⟩ := spadFields (b := b) (d := d) hw
    by_cases hone : u = 1
    · subst hone
      obtain rfl : m = 63 := hu.resolve_left (by decide)
      exact completes_sts_uni hz hr h
    · obtain rfl := not_one hone
      exact completes_sts_vec hz (Option.some.inj hr).symm h
  | stfe z m b d =>
    have hz : z.toNat ≤ 4 := of_decide_eq_true hw
    obtain rfl := Option.some.inj hr
    obtain ⟨hm, hwait, hdone⟩ := h.also
    exact completes_stfe (we := false) (show _ = execStfe z m b d s from rfl) rfl hz h hm hwait hdone (fun hy => absurd hy (by decide))
  | stfeWe z m b d =>
    have hz : z.toNat ≤ 4 := of_decide_eq_true hw
    obtain rfl := Option.some.inj hr
    obtain ⟨hm, hwait, hdone, hempty, hold⟩ := h.also
    exact completes_stfe (we := true) (show _ = execStfeWe z m b d s from rfl) rfl hz h hm hwait hdone (fun _ => ⟨hempty, hold⟩)
  | _ => exact of_none_eq_some hr

end Sys2Proof.Claims

/-!
# Configuring queues (R74, R418, R419)

The backing registers of a loop-carried queue are left one by one, each in its own word, with what the queue holds there; then the
queue's entries go and the configuration stands.
-/
namespace Sys2Proof.Claims
open Sys2Proof.Machine

section
variable {q base port : Nat}

/-! ## Registers left by a queue -/

/-- Backing registers of queue q left one after the other: of lane and number. -/
def leaveRegs (q base port : Nat) (ps : List (Nat × Nat)) (c : Block) : Block :=
  ps.foldl (fun c p => c.leaveReg q (base + p.1) (port + p.2) p.2) c
/-- The word of a backing register. -/
def backIdx (base port : Nat) (c : Block) (p : Nat × Nat) : Nat := c.regIdx (base + p.1) (port + p.2)

theorem leaveReg_frame (c : Block) (t j i : Nat) : c.leaveReg q t j i =
    { c with vregs := (c.leaveReg q t j i).vregs, badRegs := (c.leaveReg q t j i).badRegs } := by
  unfold Block.leaveReg
  split <;> rfl

theorem leaveRegs_frame (ps : List (Nat × Nat)) : ∀ c : Block, leaveRegs q base port ps c =
    { c with vregs := (leaveRegs q base port ps c).vregs, badRegs := (leaveRegs q base port ps c).badRegs } := by
  induction ps with
  | nil => intro c; rfl
  | cons p ps ih =>
    intro c
    show leaveRegs q base port ps (c.leaveReg q _ _ _) = { c with
      vregs := (leaveRegs q base port ps (c.leaveReg q _ _ _)).vregs, badRegs := (leaveRegs q base port ps (c.leaveReg q _ _ _)).badRegs }
    rw [ih, leaveReg_frame]

/-- What a register left by a queue holds, and its poison. -/
theorem leaveReg_self (c : Block) (t j i : Nat) :
    (∀ v, (c.queueAt t q).held i = some v →
      (c.leaveReg q t j i).vregs.getD (c.regIdx t j) 0 = v.1 ∧ (c.regIdx t j ∈ (c.leaveReg q t j i).badRegs ↔ v.2 = true)) ∧
    ((c.queueAt t q).held i = none → c.leaveReg q t j i = c) := by
  unfold Block.leaveReg
  refine ⟨fun v hv => ?_, fun hnone => by rw [hnone]⟩
  rw [hv]
  obtain ⟨v, bad⟩ := v
  refine ⟨Tab.getD_set_self _ _ _ _, ?_⟩
  cases bad <;> simp [Block.setReg]

/-- Every other register word is as before. -/
theorem leaveReg_other (c : Block) {t j i n : Nat} (hn : n ≠ c.regIdx t j) :
    (c.leaveReg q t j i).vregs.getD n 0 = c.vregs.getD n 0 ∧ (n ∈ (c.leaveReg q t j i).badRegs ↔ n ∈ c.badRegs) := by
  unfold Block.leaveReg
  split
  · exact ⟨rfl, Iff.rfl⟩
  · rename_i v _
    refine ⟨Tab.getD_set_ne _ _ _ _ hn, ?_⟩
    cases v.2 <;> simp [Block.setReg, hn]

theorem backIdx_leaveReg (c : Block) (t j i : Nat) (p : Nat × Nat) :
    backIdx base port (c.leaveReg q t j i) p = backIdx base port c p := by
  rw [leaveReg_frame]
  rfl

theorem leaveRegs_other (ps : List (Nat × Nat)) {n : Nat} : ∀ c : Block, (∀ p ∈ ps, n ≠ backIdx base port c p) →
    (leaveRegs q base port ps c).vregs.getD n 0 = c.vregs.getD n 0 ∧ (n ∈ (leaveRegs q base port ps c).badRegs ↔ n ∈ c.badRegs) := by
  induction ps with
  | nil => intro c _; exact ⟨rfl, Iff.rfl⟩
  | cons p ps ih =>
    intro c h
    obtain ⟨hp, hps⟩ := List.forall_mem_cons.1 h
    have hfirst := leaveReg_other (q := q) (i := p.2) c hp
    have hrest := ih (c.leaveReg q (base + p.1) (port + p.2) p.2) (fun x hx => by rw [backIdx_leaveReg]; exact hps x hx)
    exact ⟨hrest.1.trans hfirst.1, hrest.2.trans hfirst.2⟩

/-- Where the words differ, each holds in the end what its own register of the queue held. -/
theorem leaveRegs_mem (ps : List (Nat × Nat)) : ∀ c : Block, ps.Pairwise (fun x y => backIdx base port c x ≠ backIdx base port c y) →
    ∀ p ∈ ps,
      (∀ v, (c.queueAt (base + p.1) q).held p.2 = some v →
        (leaveRegs q base port ps c).vregs.getD (backIdx base port c p) 0 = v.1 ∧
        (backIdx base port c p ∈ (leaveRegs q base port ps c).badRegs ↔ v.2 = true)) ∧
      ((c.queueAt (base + p.1) q).held p.2 = none →
        (leaveRegs q base port ps c).vregs.getD (backIdx base port c p) 0 = c.vregs.getD (backIdx base port c p) 0 ∧
        (backIdx base port c p ∈ (leaveRegs q base port ps c).badRegs ↔ backIdx base port c p ∈ c.badRegs)) := by
  induction ps with
  | nil => intro c _ p hp; cases hp
  | cons x ps ih =>
    intro c hpw p hp
    obtain ⟨hx, hpw⟩ := List.pairwise_cons.1 hpw
    have hidx := fun y => backIdx_leaveReg (base := base) (port := port) (q := q) c (base + x.1) (port + x.2) x.2 y
    show (∀ v, _ → (leaveRegs q base port ps (c.leaveReg q (base + x.1) (port + x.2) x.2)).vregs.getD _ 0 = _ ∧
        (_ ∈ (leaveRegs q base port ps (c.leaveReg q (base + x.1) (port + x.2) x.2)).badRegs ↔ _)) ∧
      (_ → (leaveRegs q base port ps (c.leaveReg q (base + x.1) (port + x.2) x.2)).vregs.getD _ 0 = _ ∧
        (_ ∈ (leaveRegs q base port ps (c.leaveReg q (base + x.1) (port + x.2) x.2)).badRegs ↔ _))
    rcases List.mem_cons.1 hp with rfl | hp
    · obtain ⟨hv, hb⟩ := leaveRegs_other (q := q) (base := base) (port := port) ps (n := backIdx base port c p)
        (c.leaveReg q (base + p.1) (port + p.2) p.2) (fun y hy => by rw [hidx]; exact hx y hy)
      obtain ⟨hsome, hnone⟩ := leaveReg_self (q := q) c (base + p.1) (port + p.2) p.2
      rw [hv, hb]
      exact ⟨hsome, fun h => by rw [hnone h]; exact ⟨rfl, Iff.rfl⟩⟩
    · have hrest := ih (c.leaveReg q (base + x.1) (port + x.2) x.2) (by simpa only [hidx] using hpw) p hp
      have hother := leaveReg_other (q := q) (i := x.2) c (Ne.symm (hx p hp))
      have hq : (c.leaveReg q (base + x.1) (port + x.2) x.2).queueAt (base + p.1) q = c.queueAt (base + p.1) q := by
        rw [leaveReg_frame]; rfl
      rw [hidx, hq] at hrest
      exact ⟨hrest.1, fun h => ⟨(hrest.2 h).1.trans hother.1, (hrest.2 h).2.trans hother.2⟩⟩

end

section
variable {s : State} {q : Nat} {c : QueueCfg}

/-- The lanes and numbers of a queue's backing registers. -/
def backings (width depth : Nat) : List (Nat × Nat) := (List.range width).flatMap (fun l => (List.range depth).map (fun i => (l, i)))

theorem mem_backings {w d : Nat} {p : Nat × Nat} : p ∈ backings w d ↔ p.1 < w ∧ p.2 < d := by
  obtain ⟨l, i⟩ := p
  simp [backings]

theorem backings_nodup (w d : Nat) : (backings w d).Nodup := by
  unfold backings
  rw [List.nodup_flatMap]
  refine ⟨fun l _ => List.Nodup.map (fun _ _ h => (Prod.mk.inj h).2) List.nodup_range, ?_⟩
  refine List.Pairwise.imp ?_ List.nodup_range
  intro a b hne
  rw [Function.onFun, List.disjoint_left]
  rintro _ hx hy
  obtain ⟨i, -, rfl⟩ := List.mem_map.1 hx
  obtain ⟨j, -, hj⟩ := List.mem_map.1 hy
  exact hne (Prod.mk.inj hj).1.symm

/-- The block after a queue's backing registers are left, where it has them. -/
def leftBlock (s : State) (q : Nat) : Block :=
  if (s.fl.queue q).mode = .loop then
    leaveRegs q s.fl.base ((s.fl.queue q).port + 1) (backings s.fl.width (s.fl.queue q).depth) s.blk
  else s.blk

theorem leftBlock_frame : leftBlock s q = { s.blk with vregs := (leftBlock s q).vregs, badRegs := (leftBlock s q).badRegs } := by
  unfold leftBlock
  split
  · exact leaveRegs_frame _ _
  · rfl

theorem leaveBacking_spec : BlkOnly s (s.leaveBacking q) ∧ (s.leaveBacking q).blk = leftBlock s q := by
  unfold State.leaveBacking leftBlock
  dsimp only
  split
  · refine ⟨BlkOnly.updBlk _ _, ?_⟩
    rw [State.updBlk_blk]
    unfold leaveRegs backings upTo
    rw [List.foldl_flatMap]
    simp only [List.foldl_map]
  · exact ⟨BlkOnly.refl _, rfl⟩

theorem leftBlock_other {n : Nat} (hn : ¬ backs s q n) :
    (leftBlock s q).vregs.getD n 0 = s.blk.vregs.getD n 0 ∧ (n ∈ (leftBlock s q).badRegs ↔ n ∈ s.blk.badRegs) := by
  unfold leftBlock
  split
  · rename_i hloop
    refine leaveRegs_other _ _ (fun p hp heq => hn ⟨hloop, p.1, (mem_backings.1 hp).1, p.2, (mem_backings.1 hp).2, heq⟩)
  · exact ⟨rfl, Iff.rfl⟩

theorem leftBlock_kept (hloop : (s.fl.queue q).mode = .loop) (hn : (s.fl.queue q).port + (s.fl.queue q).depth < s.blk.nregs) {l i : Nat}
    (hl : l < s.fl.width) (hi : i < (s.fl.queue q).depth) :
    (∀ v, (s.blk.queueAt (s.fl.base + l) q).held i = some v →
      (leftBlock s q).vregs.getD (backWord s q l i) 0 = v.1 ∧ (backWord s q l i ∈ (leftBlock s q).badRegs ↔ v.2 = true)) ∧
    ((s.blk.queueAt (s.fl.base + l) q).held i = none →
      (leftBlock s q).vregs.getD (backWord s q l i) 0 = s.blk.vregs.getD (backWord s q l i) 0 ∧
      (backWord s q l i ∈ (leftBlock s q).badRegs ↔ backWord s q l i ∈ s.blk.badRegs)) := by
  have hwords : (backings s.fl.width (s.fl.queue q).depth).Pairwise (fun x y =>
      backIdx s.fl.base ((s.fl.queue q).port + 1) s.blk x ≠ backIdx s.fl.base ((s.fl.queue q).port + 1) s.blk y) := by
    refine List.Pairwise.imp_of_mem ?_ (backings_nodup _ _)
    intro x y hx hy hne heq
    obtain ⟨hx1, hx2⟩ := mem_backings.1 hx
    obtain ⟨hy1, hy2⟩ := mem_backings.1 hy
    obtain ⟨h1, h2⟩ := regIdx_inj (by omega) (by omega) heq
    exact hne (Prod.ext (by omega) (by omega))
  unfold leftBlock
  rw [if_pos hloop]
  exact leaveRegs_mem _ _ hwords (l, i) (mem_backings.2 ⟨hl, hi⟩)

/-! ## The checks -/

theorem mem_regs {j : Nat} : j ∈ c.regs ↔ inQueue c j := by
  unfold QueueCfg.regs inQueue
  cases c.mode with
  | off => simp
  | loop =>
    simp only [upTo, List.mem_map, List.mem_range]
    exact ⟨fun ⟨i, hi, h⟩ => by omega, fun ⟨hlo, hhi⟩ => ⟨j - c.port, by omega, by omega⟩⟩
  | stream => simp

theorem qcfgBad_eq_false (h : CanSetQueue s q c) : s.qcfgBad q c = false := by
  unfold State.qcfgBad
  rw [Bool.or_eq_false_iff, List.any_eq_false, List.any_eq_false]
  refine ⟨fun j hj => ?_, fun p hp => ?_⟩
  · have := h.inRange j (mem_regs.1 hj)
    simpa using this
  · simp only [Floe.queuesOn, upTo, List.mem_filter, List.mem_range, decide_eq_true_eq] at hp
    simp only [Bool.and_eq_true, decide_eq_true_eq, List.any_eq_true, mem_regs, not_and, not_exists]
    exact fun hne j hj hin => h.apart p hp.1 hne hp.2 j ⟨hin, hj⟩

theorem counter_loads_eq_zero (h : ∀ o ∈ s.fl.ops, o.cls ≠ .loads) : s.fl.counter .loads = 0 := by
  show (s.fl.ops.filter (fun o => o.cls = .loads)).length = 0
  rw [List.length_eq_zero_iff, List.filter_eq_nil_iff]
  exact fun o ho => by simpa using h o ho

/-- The configuration that a `QCFG` leaves in its queue. -/
def setCfg (s : State) (c : QueueCfg) : QueueCfg := { c with tag := if c.mode = .stream then s.blk.nextStrm else 0 }

/-- A block without the entries of queue q in the threads of lanes from base on. -/
def emptied (q base width : Nat) (b : Block) : Block :=
  { b with qents := b.qents.filter (fun e => !(e.1 % 16 = q && base ≤ e.1 / 16 && e.1 / 16 < base + width)) }

/-- What a `QCFG` leaves before it retires. -/
def queueSetState (s : State) (q : Nat) (c : QueueCfg) : State :=
  (((s.leaveBacking q).updBlk (emptied q s.fl.base s.fl.width)).updFl
    (fun fl => { fl with queues := fl.queues.set QueueCfg.reset q (setCfg s c) })).updBlk (fun b => { b with nextStrm := s.blk.nextStrm + 1 })

theorem qcfg_body (h : CanSetQueue s q c) : qcfgBody q c s = .go (queueSetState s q c) := by
  have hruns : s.streamRuns q = false := by
    unfold State.streamRuns State.feeding
    rw [h.unbound]
  unfold qcfgBody State.clearQueue
  simp only [qcfgBad_eq_false h, hruns, counter_loads_eq_zero h.loads, h.unbound, Bool.and_false, Bool.or_self, Bool.false_eq_true,
    if_false, ne_eq, not_true_eq_false]
  rfl

theorem emptied_queueAt (base width x k : Nat) (hk : k < 16) (b : Block) : (emptied q base width b).queueAt x k =
    if k = q ∧ base ≤ x ∧ x < base + width then ThreadQueue.empty else b.queueAt x k := by
  unfold emptied Block.queueAt
  rw [Tab.getD_filter_key b.qents (fun n => !(n % 16 = q && base ≤ n / 16 && n / 16 < base + width))]
  rw [show (x * 16 + k) % 16 = k by omega, show (x * 16 + k) / 16 = x by omega]
  by_cases hin : k = q ∧ base ≤ x ∧ x < base + width
  · rw [if_pos hin]
    simp [hin.1, hin.2.1, hin.2.2]
  · rw [if_neg hin, if_pos]
    rw [Bool.not_eq_true', ← Bool.not_eq_true]
    simpa [and_assoc] using hin

/-- The block and the floe that a `QCFG` leaves. -/
theorem queueSetState_spec : OnlyOwn s (queueSetState s q c) ∧
    (queueSetState s q c).blk = { emptied q s.fl.base s.fl.width (leftBlock s q) with nextStrm := s.blk.nextStrm + 1 } ∧
    (queueSetState s q c).fl = { s.fl with queues := s.fl.queues.set QueueCfg.reset q (setCfg s c) } := by
  obtain ⟨hleft, hblk⟩ := leaveBacking_spec (s := s) (q := q)
  have hempty := hleft.trans (BlkOnly.updBlk (s.leaveBacking q) (emptied q s.fl.base s.fl.width))
  refine ⟨((OnlyOwn.ofBlk hempty).trans (OnlyOwn.updFl _ _)).trans (OnlyOwn.ofBlk (BlkOnly.updBlk _ _)), ?_, ?_⟩
  · unfold queueSetState
    rw [State.updBlk_blk, State.updFl_blk, State.updBlk_blk, hblk]
  · unfold queueSetState
    rw [(BlkOnly.updBlk _ _).fl, State.updFl_fl, hempty.fl]

/-- A `QCFG` that can set its queue completes with it set. -/
theorem completes_qcfg {i : Instr} (hx : exec i s = floeOp i s (qcfgBody q c)) (hl : i.halfwords * 2 = 4) (hc : c.stream = none)
    (h : CanSetQueue s q c) : Completes i s (QueueSet s q c) := by
  refine ⟨_, hx, ?_⟩
  rw [qcfg_body h]
  show QueueSet s q c ((queueSetState s q c).retireFrag s.cur.floe s.cur.frag (i.halfwords * 2))
  rw [hl]
  obtain ⟨hown, hblk, hfl⟩ := queueSetState_spec (s := s) (q := q) (c := c)
  obtain ⟨hrown, hrblk, hrfl⟩ := retireFrag_spec hown.cur 4
  have hgoes := fun hu => retireFrag_pc hown.cur (by rw [hfl]) (by rw [hfl]) hu 4
  generalize (queueSetState s q c).retireFrag s.cur.floe s.cur.frag 4 = t at *
  have htblk := hrblk.trans hblk
  rw [hfl] at hrfl
  have hqueue : ∀ p, t.fl.queue p = if p = q then setCfg s c else s.fl.queue p := fun p => by
    unfold Floe.queue
    rw [hrfl]
    exact Tab.getD_set _ _ _ _ _
  have hframe := leftBlock_frame (s := s) (q := q)
  have hvregs : t.blk.vregs = (leftBlock s q).vregs := by rw [htblk]; rfl
  have hbad : t.blk.badRegs = (leftBlock s q).badRegs := by rw [htblk]; rfl
  exact
    { own := hown.trans hrown
      queue := by rw [hqueue, if_pos rfl]; exact ⟨rfl, rfl, rfl, hc⟩
      others := fun p hp => by rw [hqueue, if_neg hp]
      floe := by
        have hq : t.fl.queues = s.fl.queues.set QueueCfg.reset q (setCfg s c) := by rw [hrfl]
        rw [hq]; exact hrfl
      qents := fun x k hk => by
        have hat : t.blk.queueAt x k = (emptied q s.fl.base s.fl.width (leftBlock s q)).queueAt x k := by rw [htblk]; rfl
        rw [hat, emptied_queueAt _ _ _ _ hk, hframe]
        rfl
      block := by
        have hqents : t.blk.qents = (emptied q s.fl.base s.fl.width (leftBlock s q)).qents := by rw [htblk]
        have hnext : t.blk.nextStrm = s.blk.nextStrm + 1 := by rw [htblk]
        rw [hvregs, hbad, hqents, hnext]
        refine htblk.trans ?_
        unfold emptied
        rw [hframe]
      regs := fun n hn => by rw [hvregs, hbad]; exact leftBlock_other hn
      kept := fun hloop hn l hl i hi => by rw [hvregs, hbad]; exact leftBlock_kept hloop hn hl hi
      goes := hgoes }

/-- The configuration of each `QCFG` binds no stream, and its word is one of 4 bytes. -/
theorem completes_queueRule {i : Instr} (hr : queueRule s i = some (q, c)) (h : CanSetQueue s q c) : Completes i s (QueueSet s q c) := by
  cases i with
  | qcfgLoop n a k => cases hr; exact completes_qcfg (show _ = execQcfgLoop n a k s from rfl) rfl rfl h
  | qcfgStrm a k => cases hr; exact completes_qcfg (show _ = execQcfgStrm a k s from rfl) rfl rfl h
  | qcfgOff k => cases hr; exact completes_qcfg (show _ = execQcfgOff k s from rfl) rfl rfl h
  | _ => exact of_none_eq_some hr

end
end Sys2Proof.Claims

/-!
# Starting streams (R185, R186, R445)

A core reads a descriptor from its own copy of a line and nothing changes; a stream then stands under the block's next number.
-/
namespace Sys2Proof.Claims
open Sys2Proof.Machine

section
variable {s : State} {f va n value : Nat}

/-! ## A core's read by address -/

/-- A translated address that a plain load may read stands at its physical place. -/
theorem placeOf_load {x : Xlat} {r : Bool} (hr : bitN x.attr 1 = true) (hl : fieldN x.attr 48 4 = 0) (ht : fieldN x.attr 16 2 ≠ 3)
    (hc : bitN x.attr 46 = false) :
    placeOf .load n va (.ok x r) = .ok (.phys (x.pa + (va - x.va)) (fieldN x.attr 52 12) false) := by
  simp [placeOf, AccKind.needsRead, AccKind.needsWrite, attrRead, hr, attrLtype, hl, attrTier, ht, attrKey, attrNc, hc]

theorem firnHolds_eq_false {pa key : Nat} {nc : Bool} (h : paTier pa = 2 → pa / 128 ∉ s.firnHeld) :
    s.firnHolds (.phys pa key nc) = false := by
  simpa [State.firnHolds] using h

theorem recordLost_phys {pa key : Nat} {nc : Bool} (h : s.firnHolds (.phys pa key nc) = false) :
    s.recordLost f (.phys pa key nc) = false := by
  simp [State.recordLost, h]

theorem checkLane_load {x : Xlat} (hv : va < 2 ^ 56) (ha : inAperture va = false)
    (hh : (s.core (floeCore f)).held (s.asidOf (blockOf f)) va = some x) (hr : bitN x.attr 1 = true) (hl : fieldN x.attr 48 4 = 0)
    (ht : fieldN x.attr 16 2 ≠ 3) (hc : bitN x.attr 46 = false) : s.checkLane (blockOf f) .load 1 false (BitVec.ofNat 64 va) =
      .ok (.phys (x.pa + (va - x.va)) (fieldN x.attr 52 12) false) := by
  have hva : (BitVec.ofNat 64 va).toNat = va := by rw [BitVec.toNat_ofNat]; omega
  have hheld : s.translate (coreOf (blockOf f)) (s.asidOf (blockOf f)) va = .ok x false := by
    unfold State.translate
    rw [show (s.core (coreOf (blockOf f))).held (s.asidOf (blockOf f)) va = some x from hh]
  unfold State.checkLane
  simp only [hva, ha, hheld, Nat.mod_one, if_neg (show ¬ 2 ^ 56 ≤ va by omega)]
  exact placeOf_load (n := 1) (r := false) hr hl ht hc

/-- A floe without outstanding operations drains nothing before a read. -/
theorem drainFor_idle {p : Place} {before : Nat} (h : (s.floe f).ops = []) : s.drainFor f p n before = s := by
  unfold State.drainFor Floe.writesMet
  rw [h]
  rfl

/-- The place of bytes that a core holds a copy of. -/
theorem CoreHolds.place (h : CoreHolds s 1 f va n value) : ∃ pa key copy,
    s.checkLane (blockOf f) .load 1 false (BitVec.ofNat 64 va) = .ok (.phys pa key false) ∧ s.firnHolds (.phys pa key false) = false ∧
    Hit s f (pa / 128) key copy ∧ value = lineValue copy.data (pa % 128) n ∧
    s.holdXlat (floeCore f) (s.asidOf (blockOf f)) va = s := by
  obtain ⟨⟨_, _, hva, hap⟩, x, hheld, pa, copy, hright, hlt, hne, hnc, rfl, _, hfirn, hhit, hval⟩ := h
  exact ⟨_, _, copy, checkLane_load hva hap hheld hright hlt hne hnc, firnHolds_eq_false hfirn, hhit, hval, holdXlat_held hheld⟩

/-- A read for a floe without outstanding operations: the core's own copy of the line serves it, and nothing changes. -/
theorem coreLoad_holds (h : CoreHolds s 1 f va n value) (ho : (s.floe f).ops = []) : s.coreLoad f va n = .ok (plainly n value) s := by
  obtain ⟨pa, key, copy, hcheck, hfirn, hhit, hval, hhold⟩ := h.place
  obtain ⟨hn, hline, -, -⟩ := h.inLine
  unfold State.coreLoad
  rw [chunksOf_line hn hline]
  simp only [List.foldl_cons, List.foldl_nil, hcheck, hfirn, hhold, recordLost_phys hfirn, drainFor_idle ho, readPlace_hit hhit, ← hval]
  rfl

theorem loadWaits_eq_false (h : CoreHolds s 1 f va n value) (ho : (s.floe f).ops = []) (ha : (s.floe f).acquiring s.cur.frag = false) :
    s.loadWaits f va n = false := by
  obtain ⟨hn, hline, -, -⟩ := h.inLine
  have hjoin : ∀ p n before, (s.floe f).joinAhead p n before = false := fun p n before => by
    unfold Floe.joinAhead Floe.writesMet
    rw [ho]
    rfl
  unfold State.loadWaits
  rw [ha, Bool.false_or, chunksOf_line hn hline, List.any_cons, List.any_nil, Bool.or_false]
  split
  · exact hjoin _ _ _
  · rfl

theorem CopyHolds.lt {x : Xlat} {right : Nat} (h : CopyHolds s x right f va n value) : value < 256 ^ n := by
  obtain ⟨pa, copy, -, -, -, -, -, -, -, -, rfl⟩ := h
  exact lineValue_lt ..

theorem CoreHolds.lt {right : Nat} (h : CoreHolds s right f va n value) : value < 256 ^ n := by
  obtain ⟨-, x, -, hcopy⟩ := h
  exact hcopy.lt

theorem pbNat_plainly {v : Nat} (h : v < 256 ^ n) : pbNat (plainly n v) = v := by
  rw [plainly, pbNat_toBytes, Nat.mod_eq_of_lt h]

end

section
variable {s : State} {g : BitVec 4} {t c q : BitVec 6} {x : BitVec 512}

/-! ## The stream that starts -/

theorem strmOk_eq_true (h : goodStream x) : strmOk x = true := by
  obtain ⟨hzero, hsize, hqueue, hbase, hcounts⟩ := h
  have hall : ∀ i ∈ upTo 4, ¬ strmCount x i = 0 := fun i hi => hcounts i (List.mem_range.1 hi)
  simpa [strmOk, hzero, hsize, hqueue, hbase] using hall

/-- A stream of a `STRM`, with nothing delivered. -/
def newStream (s : State) (g : BitVec 4) (t c : BitVec 6) (x : BitVec 512) : Stream :=
  ⟨streamQueue x, x, s.S c.toNat, if t = 63 then none else some (s.S t.toNat), g.toNat, if g.toNat < 8 then .held else .free,
    s.fl.base, s.fl.width, 0, false, none, none, []⟩

/-- The stream's queue, bound to it. -/
def boundCfg (s : State) (x : BitVec 512) : QueueCfg :=
  { s.fl.queue (streamQueue x) with stream := some s.blk.nextStrm, tag := s.blk.nextStrm }

/-- What a `STRM` leaves before it retires. -/
def streamStarted (s : State) (g : BitVec 4) (t c : BitVec 6) (x : BitVec 512) : State :=
  ((if s.boundElsewhere s.blk.nextStrm then s else s.dropStream (blockOf s.cur.floe) s.blk.nextStrm).updBlk (fun b =>
    { b with streams := b.streams.put s.blk.nextStrm (newStream s g t c x), nextStrm := s.blk.nextStrm + 1 })).updFl (fun fl =>
      { fl with queues := fl.queues.set QueueCfg.reset (streamQueue x) (boundCfg s x) })

theorem CanStream.noAcquire (h : CanStream s t q x) : noAcquire s := by
  obtain ⟨hops, hreads⟩ := h.quiet
  exact ⟨by rw [hops]; exact fun o ho => absurd ho List.not_mem_nil, hreads⟩

theorem strm_exec (h : CanStream s t q x) : exec (.strm g t c q) s = floeOp (.strm g t c q) s (fun s => .go (streamStarted s g t c x)) := by
  obtain ⟨hreq, htable⟩ := h.request
  have hhigh : fieldN (s.S q.toNat) 8 56 = 0 := by unfold fieldN bitsOf; omega
  have hlow : fieldN (s.S q.toNat) 0 8 = (s.S q.toNat).toNat := by unfold fieldN bitsOf; omega
  have hbad : (decide (fieldN (s.S q.toNat) 8 56 ≠ 0) || decide (descAstream s.lau.desc = 0)) = false := by
    rw [hhigh]
    exact decide_eq_false htable
  have hctr : (decide (t ≠ 63) && decide ((s.S t.toNat).toNat % 8 ≠ 0)) = false := by
    rcases h.counter with ht | hmod
    · simp [ht]
    · simp [hmod]
  have hload := coreLoad_holds h.holds h.quiet.1
  have hwaits := loadWaits_eq_false h.holds h.quiet.1 (acquiring_eq_false h.noAcquire)
  have hx : BitVec.ofNat 512 (pbNat (plainly 64 x.toNat)) = x := by
    rw [pbNat_plainly h.holds.lt, BitVec.ofNat_toNat, BitVec.setWidth_eq]
  have hback : s.heldBack (floeCore s.cur.floe) s = false := by simp [State.heldBack]
  have hnone : (s.fl.queue (strmQueue x)).stream = none := h.queue.2
  have hruns : s.streamRuns (strmQueue x) = false := by
    unfold State.streamRuns State.feeding
    rw [hnone]
  have hqueue : (decide ((s.fl.queue (strmQueue x)).mode ≠ .stream) || s.streamRuns (strmQueue x)) = false := by
    rw [hruns, Bool.or_false, decide_eq_false_iff_not, not_not]
    exact h.queue.1
  have hroom : ¬ 64 ≤ s.runningStreams (floeCore s.cur.floe) := by have := h.room; omega
  have hgood : (!strmOk x) = false := by rw [strmOk_eq_true h.good]; rfl
  show execStrm g t c q s = _
  unfold execStrm floeOp
  rw [← hlow] at hload hwaits
  rw [show fieldN s.lau.desc 128 56 = descAstream s.lau.desc from rfl] at hload hwaits
  simp only [hbad, hctr, hwaits, hload, hx, hback, plainly_clean, hgood, hqueue, hroom, hnone, Bool.false_eq_true, if_false]
  rfl

/-- A stream dropped leaves the block's other streams, and everything besides. -/
theorem dropStream_spec (k : Nat) : BlkOnly s (s.dropStream (blockOf s.cur.floe) k) ∧
    (s.dropStream (blockOf s.cur.floe) k).blk = { s.blk with streams := (s.dropStream (blockOf s.cur.floe) k).blk.streams } ∧
    ∀ j, j ≠ k → (s.dropStream (blockOf s.cur.floe) k).blk.streams.get? j = s.blk.streams.get? j := by
  refine ⟨BlkOnly.updBlk s _, ?_⟩
  have hblk : (s.dropStream (blockOf s.cur.floe) k).blk = (match s.blk.streams.get? k with
      | some y => if y.owes then s.blk else { s.blk with streams := s.blk.streams.del k }
      | none => s.blk) := State.updBlk_blk s _
  rw [hblk]
  cases s.blk.streams.get? k with
  | none => exact ⟨rfl, fun _ _ => rfl⟩
  | some y =>
    dsimp only
    split
    · exact ⟨rfl, fun _ _ => rfl⟩
    · exact ⟨rfl, fun j hj => Tab.get?_del_ne _ hj⟩

theorem streamStarted_spec : OnlyOwn s (streamStarted s g t c x) ∧
    (streamStarted s g t c x).fl = { s.fl with queues := s.fl.queues.set QueueCfg.reset (streamQueue x) (boundCfg s x) } ∧
    (streamStarted s g t c x).blk.streams.get? s.blk.nextStrm = some (newStream s g t c x) ∧
    (∀ j, j ≠ s.blk.nextStrm → (streamStarted s g t c x).blk.streams.get? j = s.blk.streams.get? j) ∧
    (streamStarted s g t c x).blk =
      { s.blk with streams := (streamStarted s g t c x).blk.streams, nextStrm := s.blk.nextStrm + 1 } := by
  obtain ⟨hdown, hdblk, hdother⟩ : let u := if s.boundElsewhere s.blk.nextStrm then s else s.dropStream (blockOf s.cur.floe) s.blk.nextStrm
      BlkOnly s u ∧ u.blk = { s.blk with streams := u.blk.streams } ∧
      ∀ j, j ≠ s.blk.nextStrm → u.blk.streams.get? j = s.blk.streams.get? j := by
    dsimp only
    split
    · exact ⟨BlkOnly.refl s, rfl, fun _ _ => rfl⟩
    · exact dropStream_spec _
  unfold streamStarted
  generalize (if s.boundElsewhere s.blk.nextStrm then s else s.dropStream (blockOf s.cur.floe) s.blk.nextStrm) = u at *
  have hblk := State.updBlk_blk u (fun b => { b with
    streams := b.streams.put s.blk.nextStrm (newStream s g t c x), nextStrm := s.blk.nextStrm + 1 })
  have hput := hdown.trans (BlkOnly.updBlk u (fun b => { b with
    streams := b.streams.put s.blk.nextStrm (newStream s g t c x), nextStrm := s.blk.nextStrm + 1 }))
  refine ⟨(OnlyOwn.ofBlk hput).trans (OnlyOwn.updFl _ _), ?_, ?_, fun j hj => ?_, ?_⟩
  · rw [State.updFl_fl, hput.fl]
  · rw [State.updFl_blk, hblk]
    exact Tab.get?_put_self _ _ _
  · rw [State.updFl_blk, hblk]
    exact (Tab.get?_put_ne _ _ hj).trans (hdother j hj)
  · rw [State.updFl_blk, hblk]
    rw [hdblk]

/-- A `STRM` of a good descriptor completes with its stream bound. -/
theorem completes_strm (h : CanStream s t q x) : Completes (.strm g t c q) s (Streaming s g t c x) := by
  refine ⟨_, strm_exec h, ?_⟩
  show Streaming s g t c x ((streamStarted s g t c x).retireFrag s.cur.floe s.cur.frag 4)
  obtain ⟨hown, hfl, hstream, hstreams, hblk⟩ := streamStarted_spec (s := s) (g := g) (t := t) (c := c) (x := x)
  obtain ⟨hrown, hrblk, hrfl⟩ := retireFrag_spec hown.cur 4
  have hgoes := fun hu => retireFrag_pc hown.cur (by rw [hfl]) (by rw [hfl]) hu 4
  generalize (streamStarted s g t c x).retireFrag s.cur.floe s.cur.frag 4 = u at *
  rw [hfl] at hrfl
  have hqueue : ∀ p, u.fl.queue p = if p = streamQueue x then boundCfg s x else s.fl.queue p := fun p => by
    unfold Floe.queue
    rw [hrfl]
    exact Tab.getD_set _ _ _ _ _
  exact
    { own := hown.trans hrown
      bound := by rw [hqueue, if_pos rfl]; rfl
      others := fun p hp => by rw [hqueue, if_neg hp]
      floe := by
        have hq : u.fl.queues = s.fl.queues.set QueueCfg.reset (streamQueue x) (boundCfg s x) := by rw [hrfl]
        rw [hq]; exact hrfl
      stream := by rw [hrblk]; exact hstream
      streams := fun j hj => by rw [hrblk]; exact hstreams j hj
      block := by rw [hrblk]; exact hblk
      goes := hgoes }

end
end Sys2Proof.Claims

/-!
# Deliveries of streams (R52, R186, R200, R239)

The engine reads each lane's element as the core's plain load, then each thread whose lane lives has one entry more.
-/
namespace Sys2Proof.Claims
open Sys2Proof.Machine

section
variable {s : State} {b k f : Nat} {st : Stream} {value : Nat → Nat}

/-- A unit's plain load that the core's own copy of a line serves. -/
theorem scopedLoad_load {va n v : Nat} {h : List Xlat} {x : Xlat} {r : Bool} (hin : inOneLine va n)
    (hwalk : s.unitWalk h (s.asidOf (blockOf f)) va = .ok x r) (hcopy : CopyHolds s x 1 f va n v) :
    s.scopedLoad f .load va n h = .ok (plainly n v) s := by
  obtain ⟨hn, hline, hva, hap⟩ := hin
  obtain ⟨_, copy, hright, hlt, hne, hnc, rfl, -, hfirn, hhit, rfl⟩ := hcopy
  have hplace : s.unitPlace (s.asidOf (blockOf f)) .load va h = .ok (.phys (x.pa + (va - x.va)) (fieldN x.attr 52 12) false) := by
    unfold State.unitPlace
    rw [hap, Bool.or_false, if_neg (by rw [decide_eq_true_eq]; omega), hwalk]
    exact placeOf_load hright hlt hne hnc
  have hf := firnHolds_eq_false (s := s) (key := fieldN x.attr 52 12) (nc := false) hfirn
  unfold State.scopedLoad
  rw [chunksOf_line hn hline]
  simp only [List.foldl_cons, List.foldl_nil, hplace, hf, recordLost_phys hf, readPlace_hit hhit]
  rfl

/-- A run of reads that each gather one thing and change nothing. -/
theorem foldl_gather {α β : Type} (F : Got (List β) → α → Got (List β)) (g : α → β) (s : State) (ls : List α) (vs : List β)
    (h : ∀ l ∈ ls, ∀ vs, F (.ok vs s) l = .ok (vs ++ [g l]) s) : ls.foldl F (.ok vs s) = .ok (vs ++ ls.map g) s := by
  induction ls generalizing vs with
  | nil => rw [List.map_nil, List.append_nil]; rfl
  | cons l ls ih =>
    rw [List.foldl_cons, h l (List.mem_cons_self ..), ih _ (fun x hx => h x (List.mem_cons_of_mem _ hx)), List.map_cons, List.append_assoc]
    rfl

theorem CanDeliver.block (h : CanDeliver s b k f st value) : blockOf f = b := by
  have hmem : f ∈ s.streamFloes b k := by rw [h.floe.1]; exact List.mem_singleton_self f
  simp only [State.streamFloes, State.liveFloes, State.floesOf, List.mem_filter, decide_eq_true_eq] at hmem
  exact hmem.1.1.2

/-- What each lane reads of the next entry. -/
def lanesRead (st : Stream) (value : Nat → Nat) (ls : List Nat) : List (Nat × W32) :=
  ls.map (fun l => (st.base + l, BitVec.ofNat 32 (value l)))

theorem streamRead_holds (h : CanDeliver s b k f st value) :
    s.streamRead f st (s.holdFrames (s.asidOf b) st.held st.frames) = .ok (lanesRead st value (upTo st.width)) s := by
  have hblock := h.block
  have hlane : ∀ l < st.width, (strmAddr st.desc st.offset st.next l).toNat % strmSize st.desc = 0 ∧
      s.scopedLoad f .load (strmAddr st.desc st.offset st.next l).toNat (strmSize st.desc)
        (s.holdFrames (s.asidOf b) st.held st.frames) = .ok (plainly (strmSize st.desc) (value l)) s ∧
      pbNat (plainly (strmSize st.desc) (value l)) = value l := by
    intro l hl
    obtain ⟨halign, hin, x, r, hwalk, hcopy⟩ := h.holds l hl
    refine ⟨halign, scopedLoad_load hin (by rw [hblock]; exact hwalk) hcopy, pbNat_plainly hcopy.lt⟩
  unfold State.streamRead
  refine foldl_gather _ _ s _ [] (fun l hl vs => ?_)
  obtain ⟨halign, hload, hnum⟩ := hlane l (List.mem_range.1 hl)
  simp only [halign, hload, plainly_clean, hnum, ne_eq, not_true_eq_false, Bool.false_eq_true, if_false]

/-! ## Entries pushed -/

theorem pushes_frame (q : Nat) (ws : List (Nat × W32)) : ∀ c : Block, ws.foldl (fun c w => c.pushQ w.1 q 0 w.2) c =
    { c with qents := (ws.foldl (fun c w => c.pushQ w.1 q 0 w.2) c).qents } := by
  induction ws with
  | nil => intro c; rfl
  | cons w ws ih => intro c; rw [List.foldl_cons, ih]; rfl

theorem pushes_other {q x p : Nat} (hq : q < 16) (hp : p < 16) (ws : List (Nat × W32)) : ∀ c : Block, (p = q → ∀ w ∈ ws, w.1 ≠ x) →
    (ws.foldl (fun c w => c.pushQ w.1 q 0 w.2) c).queueAt x p = c.queueAt x p := by
  induction ws with
  | nil => intro c _; rfl
  | cons w ws ih =>
    intro c h
    rw [List.foldl_cons, ih _ (fun hpq y hy => h hpq y (List.mem_cons_of_mem _ hy))]
    refine Tab.getD_set_ne _ _ _ _ (fun heq => ?_)
    exact h (by omega) w (List.mem_cons_self ..) (by omega)

theorem pushes_mem {q x : Nat} (hq : q < 16) {v : W32} (ws : List (Nat × W32)) : ∀ c : Block, (ws.map (fun w => w.1)).Nodup → (x, v) ∈ ws →
    (ws.foldl (fun c w => c.pushQ w.1 q 0 w.2) c).queueAt x q = withEntry (c.queueAt x q) v := by
  induction ws with
  | nil => intro c _ hm; cases hm
  | cons w ws ih =>
    intro c hn hm
    rw [List.map_cons, List.nodup_cons] at hn
    rw [List.foldl_cons]
    rcases List.mem_cons.1 hm with rfl | hm
    · rw [pushes_other hq hq ws _ (fun _ y hy heq => hn.1 (List.mem_map.2 ⟨y, hy, heq⟩))]
      exact Tab.getD_set_self _ _ _ _
    · rw [ih _ hn.2 hm]
      congr 1
      refine Tab.getD_set_ne _ _ _ _ (fun heq => hn.1 ?_)
      exact List.mem_map.2 ⟨_, hm, by simp only; omega⟩

/-! ## The stream that has moved on -/

theorem get?_map_at {α : Type} (g : α → α) (k : Nat) (t : Tab α) (j : Nat) :
    Tab.get? (t.map (fun e => if e.1 = k then (k, g e.2) else e)) j = if j = k then (t.get? j).map g else t.get? j := by
  induction t with
  | nil => simp [Tab.get?]
  | cons e t ih =>
    obtain ⟨a, x⟩ := e
    rw [List.map_cons]
    by_cases hk : a = k
    · subst hk
      by_cases hj : a = j
      · subst hj; simp [Tab.get?]
      · simp [Tab.get?, hj, Ne.symm hj, ih]
    · by_cases hj : a = j
      · subst hj; simp [Tab.get?, hk]
      · simp [Tab.get?, hk, hj, ih]

/-! ## The delivery -/

/-- A stream whose engine has delivered one entry more and holds the translations of its frames. -/
def steppedStream (s : State) (b : Nat) (st x : Stream) : Stream :=
  { x with next := x.next + 1, held := s.holdFrames (s.asidOf b) st.held st.frames }
/-- What a delivery leaves: an entry more in each thread whose lane lives, and the stream moved on. -/
def deliveredState (s : State) (b k : Nat) (st : Stream) (value : Nat → Nat) : State :=
  (s.updBlock b (fun x => ((lanesRead st value (upTo st.width)).filter (fun v => v.1 ∈ s.streamThreads b k)).foldl
    (fun x v => x.pushQ v.1 st.queue 0 v.2) x)).updStream b k (steppedStream s b st)

/-- The threads of a stream are those of the live lanes of the one floe that binds it. -/
theorem mem_streamThreads (h : CanDeliver s b k f st value) {t : Nat} : t ∈ s.streamThreads b k ↔
    ∃ l < st.width, (s.floe f).live.getLsbD l = true ∧ st.base + l = t := by
  obtain ⟨hfloes, hbase, hwidth, -⟩ := h.floe
  unfold State.streamThreads Mask.lanes upTo
  rw [hfloes, List.map_singleton, List.flatten_singleton, hbase, hwidth, List.mem_map]
  simp only [List.mem_filter, List.mem_range, and_assoc]

theorem streamRoom_eq_true (h : CanDeliver s b k f st value) : s.streamRoom b k st = true := by
  obtain ⟨⟨l, hl, hlive⟩, hroom⟩ := h.room
  have hmem := (mem_streamThreads h).2 ⟨l, hl, hlive, rfl⟩
  have hne : (s.streamThreads b k).isEmpty = false := by
    rw [List.isEmpty_eq_false_iff]
    exact List.ne_nil_of_mem hmem
  unfold State.streamRoom
  dsimp only
  rw [hne, Bool.false_or, Bool.not_eq_true', List.any_eq_false]
  intro t ht
  obtain ⟨j, hj, hjlive, rfl⟩ := (mem_streamThreads h).1 ht
  have hlen := hroom j hj hjlive
  unfold Block.qent ThreadQueue.vals at hlen
  rw [List.length_map] at hlen
  simpa using hlen

theorem aperture_eq_none (h : CanDeliver s b k f st value) (h0 : st.next = 0) : st.aperture = none := by
  obtain ⟨hctr, hall⟩ := h.apart h0
  have hcounter : (st.ctr.bind (fun a => if inAperture a.toNat then some a.toNat else none)) = none := by
    rw [Option.bind_eq_none_iff]
    exact fun a ha => if_neg (by rw [hctr a ha]; exact Bool.false_ne_true)
  unfold Stream.aperture
  rw [hcounter, Option.none_or, List.findSome?_eq_none_iff]
  intro j hj
  rw [List.findSome?_eq_none_iff]
  intro l hl
  exact if_neg (by rw [show inAperture (strmAddr st.desc st.offset j l).toNat = false from
    hall j (List.mem_range.1 hj) l (List.mem_range.1 hl)]; exact Bool.false_ne_true)

theorem deliverNext_eq (h : CanDeliver s b k f st value) :
    s.deliverNext b k f st (s.streamThreads b k) = deliveredState s b k st value := by
  have hback : s.heldBack (coreOf b) s = false := by simp [State.heldBack]
  have hmore : ¬ strmTotal st.desc ≤ st.next + 1 := by
    have := h.more
    rw [show strmTotal st.desc = entryCount st.desc from rfl]
    omega
  unfold State.deliverNext
  simp only [streamRead_holds h, hback, hmore, Bool.false_eq_true, if_false]
  rfl

theorem deliverEntry_eq (h : CanDeliver s b k f st value) : s.deliverEntry b k = deliveredState s b k st value := by
  obtain ⟨hget, hended, hpaused, hguard⟩ := h.stream
  have hhead : (s.streamFloes b k).head? = some f := by rw [h.floe.1]; rfl
  have hinvs : (st.atFrame && s.invs.any (fun i => i.asid = s.asidOf b)) = false := by
    rw [Bool.and_eq_false_iff]
    refine .inr (List.any_eq_false.2 (fun i hi => ?_))
    simpa using h.calm i hi
  have hap : (decide (st.next = 0) && st.aperture.isSome) = false := by
    by_cases h0 : st.next = 0
    · rw [aperture_eq_none h h0]; exact Bool.and_false _
    · rw [decide_eq_false h0]; rfl
  unfold State.deliverEntry
  simp only [hget, hpaused, hended, hguard, hhead, streamRoom_eq_true h, hinvs, hap, deliverNext_eq h]
  rfl

/-- The pushes of a delivery: one for each live lane. -/
def deliveredWords (s : State) (b k : Nat) (st : Stream) (value : Nat → Nat) : List (Nat × W32) :=
  (lanesRead st value (upTo st.width)).filter (fun v => v.1 ∈ s.streamThreads b k)

theorem mem_deliveredWords (h : CanDeliver s b k f st value) {w : Nat × W32} : w ∈ deliveredWords s b k st value ↔
    ∃ l < st.width, (s.floe f).live.getLsbD l = true ∧ w = (st.base + l, BitVec.ofNat 32 (value l)) := by
  unfold deliveredWords lanesRead upTo
  rw [List.mem_filter, List.mem_map, decide_eq_true_eq, mem_streamThreads h]
  constructor
  · rintro ⟨⟨l, hl, rfl⟩, j, _, hlive, hj⟩
    obtain rfl : j = l := by simpa using hj
    exact ⟨j, List.mem_range.1 hl, hlive, rfl⟩
  · rintro ⟨l, hl, hlive, rfl⟩
    exact ⟨⟨l, List.mem_range.2 hl, rfl⟩, l, hl, hlive, rfl⟩

/-- No thread is served twice. -/
theorem deliveredWords_nodup : ((deliveredWords s b k st value).map (fun w => w.1)).Nodup := by
  have hall : ((lanesRead st value (upTo st.width)).map (fun w => w.1)).Nodup := by
    unfold lanesRead upTo
    rw [List.map_map]
    exact List.nodup_range.map (fun l j hlj => Nat.add_left_cancel hlj)
  exact hall.sublist (List.filter_sublist.map _)

/-- The queues of the block's threads when the words have come. -/
theorem deliveredWords_queueAt (h : CanDeliver s b k f st value) (c : Block) (x : Nat) {q : Nat} (hq : q < 16) :
    ((deliveredWords s b k st value).foldl (fun c w => c.pushQ w.1 st.queue 0 w.2) c).queueAt x q =
      if q = st.queue ∧ st.base ≤ x ∧ x < st.base + st.width ∧ (s.floe f).live.getLsbD (x - st.base) = true then
        withEntry (c.queueAt x q) (BitVec.ofNat 32 (value (x - st.base))) else c.queueAt x q := by
  split
  next hserved =>
    obtain ⟨rfl, hlow, hhigh, hlive⟩ := hserved
    refine pushes_mem hq _ c deliveredWords_nodup ((mem_deliveredWords h).2 ⟨x - st.base, by omega, hlive, ?_⟩)
    rw [Nat.add_sub_cancel' hlow]
  next hnot =>
    refine pushes_other h.number hq _ c (fun hpq w hw heq => hnot ?_)
    obtain ⟨l, hl, hlive, rfl⟩ := (mem_deliveredWords h).1 hw
    subst heq
    exact ⟨hpq, by simp only; omega, by simp only; omega, by rwa [Nat.add_sub_cancel_left]⟩

/-- The block of a delivery. -/
theorem deliveredState_block : (deliveredState s b k st value).block b =
    { (deliveredWords s b k st value).foldl (fun c w => c.pushQ w.1 st.queue 0 w.2) (s.block b) with
      streams := (s.block b).streams.map (fun e => if e.1 = k then (k, steppedStream s b st e.2) else e) } := by
  unfold deliveredState State.updStream
  rw [State.updBlock_block_self, State.updBlock_block_self, ← deliveredWords, pushes_frame]

/-- A delivery completes with an entry more in every thread it serves. -/
theorem completes_delivery (h : CanDeliver s b k f st value) : Completes (.streamEntryDelivery b k) s (Delivered s b k f st value) := by
  refine ⟨deliveredState s b k st value, congrArg Host.Outcome.next (deliverEntry_eq h), ?_⟩
  have hblock := deliveredState_block (s := s) (b := b) (k := k) (st := st) (value := value)
  have hstreams : ∀ j, ((deliveredState s b k st value).block b).streams.get? j =
      if j = k then ((s.block b).streams.get? j).map (steppedStream s b st) else (s.block b).streams.get? j := fun j => by
    rw [hblock]
    exact get?_map_at _ _ _ _
  exact
    { rest := rfl
      blocks := fun c hc => (Tab.get?_put_ne _ _ hc).trans (Tab.get?_put_ne _ _ hc)
      qents := fun x q hq => by
        rw [hblock]
        exact deliveredWords_queueAt h (s.block b) x hq
      stream := by rw [hstreams, if_pos rfl, h.stream.1]; rfl
      others := fun j hj => by rw [hstreams, if_neg hj]
      block := by rw [hblock, pushes_frame] }

end

/-- Settles O34: `QCFG` by its one rule, `STRM` by the descriptor it accepts, a delivery by the words it pushes. -/
theorem queuesAndStreams : Obligations.QueuesAndStreams :=
  ⟨fun _ _ _ _ _ hr h => completes_queueRule hr h, fun _ _ _ _ _ _ _ h => completes_strm h, fun _ _ _ _ _ _ h => completes_delivery h⟩

end Sys2Proof.Claims

/-!
# Engine commands at work (R184, R200, R259)

A command that may move is the one of its number, and nothing holds its engine: the step is that of its kind. What a step changes of the
command is one update of the floe's list.
-/
namespace Sys2Proof.Claims
open Sys2Proof.Machine

section
variable {s : State} {f : Nat} {c : EngCmd}

/-! ## The command a step finds -/

theorem eq_of_seq {cmds : List EngCmd} (hnodup : (cmds.map (fun d => d.seq)).Nodup) (hc : c ∈ cmds) : ∀ d ∈ cmds, d.seq = c.seq → d = c :=
  fun _ hd hseq => List.inj_on_of_nodup_map hnodup hd hc hseq

theorem MayMove.eq_of_seq (h : MayMove s f c) : ∀ d ∈ (s.floe f).cmds, d.seq = c.seq → d = c := Claims.eq_of_seq h.seqs h.here

theorem MayMove.find (h : MayMove s f c) : (s.floe f).cmds.find? (fun d => d.seq = c.seq) = some c := by
  cases hfind : (s.floe f).cmds.find? (fun d => d.seq = c.seq) with
  | none => exact absurd (decide_eq_true rfl) (List.find?_eq_none.1 hfind c h.here)
  | some d => rw [h.eq_of_seq d (List.mem_of_find?_eq_some hfind) (by simpa using List.find?_some hfind)]

theorem MayMove.cmdBehind (h : MayMove s f c) : (s.floe f).cmdBehind c = false := by
  unfold Floe.cmdBehind
  rw [List.any_eq_false]
  intro d hd
  by_cases hlt : d.seq < c.seq
  · simp [h.front d hd hlt]
  · simp [hlt]

theorem MayMove.winding (h : MayMove s f c) : s.winding (blockOf f) = false := by
  obtain ⟨hback, hhalt⟩ := h.runs
  simp only [State.winding, State.launchOf, hback, hhalt, decide_false, Bool.or_self]

theorem MayMove.pend (h : MayMove s f c) : s.invs.any (fun i => i.asid = s.asidOf (blockOf f)) = false :=
  List.any_eq_false.2 (fun i hi => by simpa using h.calm i hi)

/-! ## The step of a command's kind -/

theorem engineStep_cpy (h : MayMove s f c) (hk : c.kind = .cpy) (m : EngMode) : s.engineStep f c.seq m = s.moveShape f c false m := by
  obtain ⟨hfin, hpaused, hguard, hheld⟩ := h.open_
  unfold State.engineStep
  simp only [h.find, hfin, hpaused, h.cmdBehind, hguard, h.winding, h.pend, hk, Option.isSome_none, Bool.or_self, Bool.false_eq_true, if_false,
    Bool.and_false, Bool.false_and]

theorem engineStep_cfetch {s1 : State} (h : MayMove s f c) (hk : c.kind = .cfetch)
    (hslot : (s.slotBehind f c || s.slotBusy (floeCore f) c.slot) = false) (hfetch : s.codeFetch f c = .ok () s1) (m : EngMode) :
    s.engineStep f c.seq m = (s1.updCmd f c.seq (fun x => { x with progress := 1 })).finishCmd f c.seq := by
  obtain ⟨hfin, hpaused, hguard, hheld⟩ := h.open_
  unfold State.engineStep
  simp only [h.find, hfin, hpaused, h.cmdBehind, hguard, h.winding, h.pend, hk, hslot, hfetch, Option.isSome_none, Bool.or_self,
    Bool.false_eq_true, if_false, Bool.and_false, Bool.false_and]

theorem engineStep_apnd {s1 : State} {n : Nat} (h : MayMove s f c) (hk : c.kind = .apnd) (hnew : c.seqNo = none)
    (hacc : s.acceptApnd f c = .done n s1) (m : EngMode) :
    s.engineStep f c.seq m = (s1.updCmd f c.seq (fun x => { x with seqNo := some n })).finishCmd f c.seq := by
  obtain ⟨hfin, hpaused, hguard, hheld⟩ := h.open_
  unfold State.engineStep
  simp only [h.find, hfin, hpaused, h.cmdBehind, hguard, h.winding, h.pend, hk, Option.isSome_none, Bool.or_self, Bool.false_eq_true, if_false,
    Bool.and_false, Bool.false_and]
  unfold State.engineStep.apnd
  simp only [hnew, hacc, hk, if_true]

/-- A step that a command of some kinds takes for itself. -/
theorem MayMove.stepKinds (h : MayMove s f c) {ks : List EngKind} (hk : c.kind ∈ ks) :
    s.stepKinds f c.seq ks = s.engineStep f c.seq .all := by
  have hhas : (s.floe f).hasCmd c.seq ks = true := List.any_eq_true.2 ⟨c, h.here, by simp [hk]⟩
  exact if_pos hhas

/-! ## Updates of a command -/

/-- A command that has ended. -/
def ended (d : EngCmd) : EngCmd := { d with finished := true, held := [] }

theorem updCmd_finishCmd {u : State} {q : Nat} {g : EngCmd → EngCmd} (hg : ∀ d, (g d).seq = d.seq) :
    (u.updCmd f q g).finishCmd f q = u.updCmd f q (fun d => ended (g d)) := by
  show (u.updFloe f _).updFloe f _ = u.updFloe f _
  rw [State.updFloe_updFloe]
  congr 1
  funext fl
  simp only [List.map_map, Floe.mk.injEq, true_and, and_true]
  refine List.map_congr_left (fun d _ => ?_)
  by_cases hd : d.seq = q <;> simp [hd, hg, ended]

theorem updCmd_updCmd {u : State} {q : Nat} {g k : EngCmd → EngCmd} (hg : ∀ d, (g d).seq = d.seq) :
    (u.updCmd f q g).updCmd f q k = u.updCmd f q (fun d => k (g d)) := by
  show (u.updFloe f _).updFloe f _ = u.updFloe f _
  rw [State.updFloe_updFloe]
  congr 1
  funext fl
  simp only [List.map_map, Floe.mk.injEq, true_and, and_true]
  refine List.map_congr_left (fun d _ => ?_)
  by_cases hd : d.seq = q <;> simp [hd, hg]

/-- The floe after an update that makes of the command what is wanted. -/
theorem MayMove.updCmd_floe (h : MayMove s f c) {u : State} (hu : u.floe f = s.floe f) {g k : EngCmd → EngCmd} (hg : g c = k c) :
    (u.updCmd f c.seq g).floe f = { s.floe f with cmds := changed s f c.seq k } := by
  have hcmds : (s.floe f).cmds.map (fun d => if d.seq = c.seq then g d else d) = changed s f c.seq k := by
    refine List.map_congr_left (fun d hd => ?_)
    split
    next hseq => rw [h.eq_of_seq d hd hseq, hg]
    next => rfl
  rw [← hcmds, ← hu]
  exact State.updFloe_floe_self _ _ _

theorem updCmd_floes {u : State} {q g : Nat} {k : EngCmd → EngCmd} (hg : g ≠ f) : (u.updCmd f q k).floes.get? g = u.floes.get? g :=
  Tab.get?_put_ne _ _ hg

/-! ## What a command reads -/

/-- A unit reads what a line of memory holds. -/
theorem Holds.vaLoad {right asid va n v : Nat} (h : Holds s right asid va n v) {k : AccKind}
    (hk : k = .load ∧ right = 1 ∨ k = .exec ∧ right = 3) :
    ∃ b : Nat → Byte, number b 0 n = v ∧ ∀ l die, s.vaLoad l die asid k va n = .ok (loaded b 0 n) s := by
  obtain ⟨hn, hline, -, -⟩ := h.inLine
  obtain ⟨_, _, pa, -, -, -, -, -, -, -, -, -, -, -, hv⟩ := h.mapped
  have hnum : number (fun i => s.memByte (pa + i)) 0 n = v := by
    rw [hv, memNumber_eq_ofBytes, number_eq_ofBytes]
    simp only [Nat.zero_add]
  refine ⟨_, hnum, vaLoad_holds (fun x hx => ?_) hk⟩
  rw [chunksOf_line hn hline, List.mem_singleton] at hx
  subst hx
  rwa [Nat.sub_self, hnum]

end
end Sys2Proof.Claims

/-!
# A copy of one element in the scratchpad (R77, R180, R181, R357)
-/
namespace Sys2Proof.Claims
open Sys2Proof.Machine

section
variable {s u : State} {f src dst n : Nat} {c : EngCmd} {r : BitVec 512}

/-! ## The record -/

/-- A field within a field that is zero is zero. -/
theorem fieldN_within {w : Nat} {x : BitVec w} {lo m : Nat} (h : fieldN x lo m = 0) {k j : Nat} (hlo : lo ≤ k) (hhi : k + j ≤ lo + m) :
    fieldN x k j = 0 := by
  obtain ⟨d, rfl⟩ := Nat.exists_eq_add_of_le hlo
  obtain ⟨e, rfl⟩ : ∃ e, m = d + (j + e) := ⟨m - d - j, by omega⟩
  unfold fieldN bitsOf at h ⊢
  rw [pow_add, ← Nat.div_div_eq_div_mul]
  generalize x.toNat / 2 ^ lo = y at h
  rw [pow_add, Nat.mod_mul, Nat.add_eq_zero_iff] at h
  have hrest : y / 2 ^ d % 2 ^ (j + e) = 0 := (Nat.mul_eq_zero.1 h.2).resolve_left (by positivity)
  rw [pow_add, Nat.mod_mul] at hrest
  exact (Nat.add_eq_zero_iff.1 hrest).1

theorem OneElement.bits (h : OneElement s f c r src dst n) : shDst r = .spad ∧ shSrc r = .spad := by
  obtain ⟨-, hspaces, -⟩ := h.record
  unfold fieldN bitsOf at hspaces
  have hdst : bitN r 388 = true := by
    rw [bitN_iff, fieldN, bitsOf, show (2 : Nat) ^ 388 = 2 ^ 387 * 2 by rw [← pow_succ], ← Nat.div_div_eq_div_mul]
    omega
  have hsrc : bitN r 387 = true := by
    rw [bitN_iff, fieldN, bitsOf]
    omega
  exact ⟨if_pos hdst, if_pos hsrc⟩

theorem OneElement.fits (h : OneElement s f c r src dst n) : shapeFits .cpy r = true := by
  obtain ⟨hhigh, -, hsize, hd, hs⟩ := h.record
  have hext : (upTo 4).all (fun i => shExt r i ≠ 0) = true := List.all_eq_true.2 fun i hi => by
    rw [decide_eq_true_eq, shExt, h.single i (List.mem_range.1 hi)]
    exact one_ne_zero
  unfold shapeFits shapeOk shFmt
  rw [fieldN_within hhigh (k := 400) (by omega) (by omega), fieldN_within hhigh (k := 389) (j := 7) (by omega) (by omega),
    fieldN_within hhigh (k := 396) (by omega) (by omega), hd, hs, hext, decide_eq_true hsize]
  rfl

theorem OneElement.total (h : OneElement s f c r src dst n) : (cpyPlan (blockOf f) c r).total = 1 := by
  show shExt r 0 * shExt r 1 * shExt r 2 * shExt r 3 = 1
  unfold shExt
  rw [h.single 0 (by omega), h.single 1 (by omega), h.single 2 (by omega), h.single 3 (by omega)]

theorem boxIndex_zero : boxIndex r (shExt r 0) 0 = (0, 0, 0, 0) := by
  simp [boxIndex]

/-- The element lies where the claim says. -/
theorem OneElement.cpySrc (h : OneElement s f c r src dst n) : cpySrc c r 0 = src := by
  obtain ⟨-, hsrc, -⟩ := h.places
  unfold Machine.cpySrc
  rw [boxIndex_zero, hsrc]
  simp only [rowSrc, shSbase, EngCmd.at, addr64, Nat.cast_zero, zero_mul, add_zero]
  omega

theorem OneElement.cpyDst (h : OneElement s f c r src dst n) : cpyDst c r 0 = dst := by
  obtain ⟨-, -, hdst, -⟩ := h.places
  unfold Machine.cpyDst
  rw [boxIndex_zero, hdst]
  simp only [rowDst, shDbase, EngCmd.at, addr64, Nat.cast_zero, zero_mul, add_zero]
  omega

theorem OneElement.virt (h : OneElement s f c r src dst n) (k : Nat) : (cpyPlan (blockOf f) c r).virt u k = [] := by
  obtain ⟨hdst, hsrc⟩ := h.bits
  show virtOf _ = []
  rw [hdst, hsrc]
  rfl

/-- The record is read, and its checks pass. -/
theorem shapeStart_eq (h : OneElement s f c r src dst n) (hholds : Holds s 1 (s.asidOf (blockOf f)) c.req.toNat 64 r.toNat) :
    s.shapeStart (blockOf f) c = .ok r s := by
  obtain ⟨hk, -, -, hctr, halign⟩ := h.kind
  obtain ⟨-, -, -, hheld⟩ := h.move.open_
  obtain ⟨b, hnum, hload⟩ := hholds.vaLoad (k := .load) (.inl ⟨rfl, rfl⟩)
  have hread : s.readRecord (blockOf f) c.req.toNat c.held = .ok r s := by
    unfold State.readRecord State.engRead
    rw [hheld]
    simp only [hload, Got.bind, loaded_clean, Bool.false_eq_true, if_false, pbNat_loaded, hnum, BitVec.ofNat_toNat, BitVec.setWidth_eq]
  have happ : ((shapePlan (blockOf f) c r).apertureHit s).or c.ctrAperture = none := by
    have hplan : shapePlan (blockOf f) c r = cpyPlan (blockOf f) c r := by unfold shapePlan; rw [hk]
    have hhit : (cpyPlan (blockOf f) c r).apertureHit s = none := by
      unfold EngPlan.apertureHit
      rw [List.findSome?_eq_none_iff]
      intro k _
      rw [h.virt]
      rfl
    rw [hplan, hhit, EngCmd.ctrAperture, hctr]
    rfl
  have hodd : c.ctrOdd = none := by rw [EngCmd.ctrOdd, hctr]; rfl
  unfold State.shapeStart
  simp only [halign, hodd, hk, h.fits, happ, hread, Got.bind, ne_eq, not_true_eq_false, reduceCtorEq, decide_false, Bool.or_self,
    Bool.false_and, Bool.not_true, Bool.false_eq_true, if_false]

/-! ## The unit -/

/-- The block after the element has moved, its granule full. -/
def elementMoved (src dst n : Nat) (b : Block) : Block := (b.spadWrite dst (b.spadRead src n)).setFull (dst / 16) true

theorem spadBad_within {b : Block} (hclean : ∀ w ∈ b.badSpad, w * 4 + 4 ≤ src ∨ src + n ≤ w * 4) {i : Nat} (hi : i < n) :
    b.spadBad (src + i) 1 = false := by
  unfold Block.spadBad
  rw [List.any_eq_false]
  intro w hw
  have := hclean w hw
  simp only [Bool.and_eq_true, decide_eq_true_eq]
  omega

theorem spadRead_length (b : Block) (off n : Nat) : (b.spadRead off n).length = n := by simp [Block.spadRead, upTo]

theorem spadRead_getD (b : Block) (off : Nat) {n i : Nat} (hi : i < n) : (b.spadRead off n).getD i 0 = b.spad.getD (off + i) 0 := by
  simp [Block.spadRead, upTo, List.getD_eq_getElem?_getD, List.getElem?_range hi]

/-- The scratchpad's bytes as an engine reads them, free of poison. -/
def cleanBytes (b : Block) (off n : Nat) : List PByte := (b.spadRead off n).map (fun x => (x, false))

theorem engRead_spad {b : Nat} (hin : src + n ≤ (u.block b).spadKiB * 1024)
    (hclean : ∀ w ∈ (u.block b).badSpad, w * 4 + 4 ≤ src ∨ src + n ≤ w * 4) :
    u.engRead b .spad src n [] = .ok (cleanBytes (u.block b) src n) u := by
  have hbound : u.spadBound b src n = none := if_neg (by omega)
  have hzip : ((u.block b).spadRead src n).zip ((upTo n).map (fun i => (u.block b).spadBad (src + i) 1)) =
      cleanBytes (u.block b) src n := by
    unfold cleanBytes Block.spadRead
    rw [List.zip_map', List.map_map]
    exact List.map_congr_left fun i hi => by rw [spadBad_within hclean (List.mem_range.1 hi)]; rfl
  unfold State.engRead
  simp only [hbound, hzip]

theorem engWrite_spad {b : Nat} {bs : List Byte} {w : Nat → Bool} (hin : dst + bs.length ≤ (u.block b).spadKiB * 1024) :
    u.engWrite b .spad dst (bs.map (fun x => (x, false))) [] w = .ok () (u.updBlock b (fun x => x.spadWrite dst bs)) := by
  have hbound : u.spadBound b dst (bs.map (fun x => ((x, false) : PByte))).length = none := by
    rw [List.length_map]
    exact if_neg (by omega)
  have hbytes : (bs.map (fun x => ((x, false) : PByte))).map (fun e => e.1) = bs := by
    rw [List.map_map]
    exact List.map_id _
  have hbad : ((bs.map (fun x => ((x, false) : PByte))).zip (upTo (bs.map (fun x => ((x, false) : PByte))).length)).filter
      (fun e => e.1.2) = [] := by
    rw [List.filter_eq_nil_iff]
    intro e he
    obtain ⟨x, -, hx⟩ := List.mem_map.1 (List.of_mem_zip he).1
    rw [← hx]
    exact Bool.false_ne_true
  unfold State.engWrite
  simp only [hbound, hbytes, hbad, List.map_nil]
  congr 2
  funext x
  exact congrArg (fun l => { x.spadWrite dst bs with badSpad := l }) (List.append_nil _)

theorem cpy_unit (h : OneElement s f c r src dst n) (hu : u.block (blockOf f) = s.block (blockOf f)) {w : Nat → Bool} :
    (cpyPlan (blockOf f) c r).unit ⟨[], w⟩ 0 u =
      .ok () (u.updBlock (blockOf f) (fun x => x.spadWrite dst ((u.block (blockOf f)).spadRead src n))) := by
  obtain ⟨hds, hss⟩ := h.bits
  obtain ⟨hn, -, -, hsalign, hdalign⟩ := h.places
  obtain ⟨hsin, hdin⟩ := h.inside
  show moveBytes (blockOf f) ⟨[], w⟩ (shSrc r) (shDst r) (cpySrc c r 0) (cpyDst c r 0) (shEsize r) (shEsize r) u = _
  have hread := engRead_spad (u := u) (b := blockOf f) (by rw [hu]; exact hsin) (by rw [hu]; exact h.clean)
  have hwrite := engWrite_spad (u := u) (b := blockOf f) (dst := dst) (bs := (u.block (blockOf f)).spadRead src n) (w := w)
    (by rw [spadRead_length, hu]; exact hdin)
  rw [hds, hss, h.cpySrc, h.cpyDst, show shEsize r = n from hn.symm]
  unfold moveBytes
  rw [misaligned, if_neg (not_not.2 hsalign), misaligned, if_neg (not_not.2 hdalign), hread]
  exact hwrite

/-- The granules of an aligned element: one. -/
theorem granulesIn_element {a : Nat} (hpow : ∃ k ≤ 4, n = 2 ^ k) (halign : a % n = 0) : granulesIn (a, n) = [a / 16] := by
  obtain ⟨k, hk, rfl⟩ := hpow
  have hone : (a + 2 ^ k - 1) / 16 = a / 16 := by
    interval_cases k <;> omega
  unfold granulesIn
  rw [if_neg (by positivity), hone, Nat.sub_self]
  rfl

theorem cpy_fill (h : OneElement s f c r src dst n) : (cpyPlan (blockOf f) c r).fill (blockOf f) 0 u =
    u.updBlock (blockOf f) (fun x => x.setFull (dst / 16) true) := by
  obtain ⟨hds, -⟩ := h.bits
  obtain ⟨hn, -, -, -, hdalign⟩ := h.places
  obtain ⟨-, -, hsize, -⟩ := h.record
  have hdst : (cpyPlan (blockOf f) c r).dst u 0 = [(dst, n)] := by
    show (if shDst r = .spad then [(cpyDst c r 0, shEsize r)] else []) = _
    rw [if_pos hds, h.cpyDst, show shEsize r = n from hn.symm]
  unfold EngPlan.fill
  rw [h.total, hdst]
  simp only [List.map_cons, List.map_nil, List.flatten_cons, List.flatten_nil, List.append_nil, granulesIn_element ⟨_, hsize, hn⟩ hdalign]
  rfl

/-- The bytes and the granule are one change of the block. -/
theorem element_block {b : Nat} : (u.updBlock b (fun x => x.spadWrite dst ((u.block b).spadRead src n))).updBlock b
    (fun x => x.setFull (dst / 16) true) = u.updBlock b (elementMoved src dst n) := by
  show ({ u with blocks := (u.blocks.put b _).put b (Block.setFull (((u.blocks.put b _)).getD b Block.reset) _ _) } : State) = _
  rw [Tab.getD_put_self, Tab.put_put]
  rfl

/-- One run of the plan's only unit. -/
theorem cpy_run (h : OneElement s f c r src dst n) (hu : u.block (blockOf f) = s.block (blockOf f)) (stop : State → Nat → Bool) :
    (cpyPlan (blockOf f) c r).run (blockOf f) false stop 1 0 [] u =
      ⟨1, [], none, u.updBlock (blockOf f) (elementMoved src dst n)⟩ := by
  have hframes : (cpyPlan (blockOf f) c r).frames u 0 = [] := by
    unfold EngPlan.frames
    rw [h.virt]
    rfl
  unfold EngPlan.run
  rw [hframes]
  simp only [Bool.false_and, Bool.false_eq_true, if_false, show u.holdFrames (u.asidOf (blockOf f)) [] [] = [] from rfl, cpy_unit h hu,
    cpy_fill h, EngPlan.run]
  rw [element_block]
  split <;> rfl

/-- By a unit, or to the frame boundary behind it, the plan is done. -/
theorem cpy_go (h : OneElement s f c r src dst n) (hu : u.block (blockOf f) = s.block (blockOf f)) {m : EngMode} (hm : m ≠ .all) :
    (cpyPlan (blockOf f) c r).go (blockOf f) false m 0 [] u = ⟨1, [], none, u.updBlock (blockOf f) (elementMoved src dst n)⟩ := by
  unfold EngPlan.go
  rw [h.total]
  cases m with
  | all => exact absurd rfl hm
  | one => exact cpy_run h hu _
  | frame =>
    simp only [Nat.sub_zero, cpy_run h hu, one_ne_zero, Option.isSome_none, Bool.or_self, decide_false, Bool.false_eq_true, if_false,
      Nat.sub_self, EngPlan.run]

/-! ## The step -/

/-- The command's record, once it is read. -/
def recordRead (r : BitVec 512) (d : EngCmd) : EngCmd := { d with shape := some r }
/-- The command's progress by its one unit. -/
def unitGone (d : EngCmd) : EngCmd := { d with progress := 1, held := [] }
/-- The command after its unit has moved. -/
def elementDone (r : BitVec 512) (d : EngCmd) : EngCmd := { d with progress := 1, shape := some r, finished := true }

theorem moveShape_eq (h : OneElement s f c r src dst n) {m : EngMode} (hm : m ≠ .all) : ∃ g, g c = elementDone r c ∧
    s.moveShape f c false m = (s.updBlock (blockOf f) (elementMoved src dst n)).updCmd f c.seq g := by
  obtain ⟨hk, -, hprog, -, -⟩ := h.kind
  obtain ⟨-, -, -, hheld⟩ := h.move.open_
  have hplan : shapePlan (blockOf f) c r = cpyPlan (blockOf f) c r := by unfold shapePlan; rw [hk]
  have hmove : ∀ u : State, u.block (blockOf f) = s.block (blockOf f) → s.recordOf f c (s.shapeStart (blockOf f) c) = .ok r u →
      s.moveShape f c false m = (u.updBlock (blockOf f) (elementMoved src dst n)).updCmd f c.seq (fun d => ended (unitGone d)) :=
    fun u hu hrec => by
      rw [← updCmd_finishCmd (g := unitGone) (fun _ => rfl)]
      unfold State.moveShape
      simp only [Bool.false_and, Bool.false_eq_true, if_false, hrec, hplan, hprog, hheld, cpy_go h hu hm, h.total, le_refl, if_true]
      rfl
  rcases h.holds with hshape | ⟨hshape, hholds⟩
  · have hrec : s.recordOf f c (s.shapeStart (blockOf f) c) = .ok r s := by unfold State.recordOf; rw [hshape]
    refine ⟨fun d => ended (unitGone d), ?_, hmove s rfl hrec⟩
    unfold elementDone ended unitGone
    rw [← hshape, ← hheld]
  · have hrec : s.recordOf f c (s.shapeStart (blockOf f) c) = .ok r (s.updCmd f c.seq (recordRead r)) := by
      unfold State.recordOf
      rw [hshape, shapeStart_eq h hholds]
      rfl
    refine ⟨fun d => ended (unitGone (recordRead r d)), ?_, ?_⟩
    · unfold elementDone ended unitGone recordRead
      rw [← hheld]
    · rw [hmove (s.updCmd f c.seq (recordRead r)) rfl hrec]
      exact updCmd_updCmd (u := s.updBlock (blockOf f) (elementMoved src dst n)) (g := recordRead r) (fun _ => rfl)

/-- The step of the copy, by a unit or to its frame boundary. -/
theorem cpy_moved (h : OneElement s f c r src dst n) {m : EngMode} (hm : m ≠ .all) :
    Moved1 s f c r src dst n (s.engineStep f c.seq m) := by
  obtain ⟨g, hg, hmove⟩ := moveShape_eq h hm
  obtain ⟨hn, -, -, hsalign, hdalign⟩ := h.places
  rw [engineStep_cpy h.move h.kind.1, hmove]
  have hblock : ((s.updBlock (blockOf f) (elementMoved src dst n)).updCmd f c.seq g).block (blockOf f) =
      elementMoved src dst n (s.block (blockOf f)) := State.updBlock_block_self ..
  exact
    { rest := rfl
      floes := fun j hj => updCmd_floes hj
      blocks := fun b hb => Tab.get?_put_ne _ _ hb
      floe := h.move.updCmd_floe (k := elementDone r) rfl hg
      bytes := fun k => by
        rw [hblock]
        show ((s.block (blockOf f)).spadWrite dst ((s.block (blockOf f)).spadRead src n)).spad.getD k 0 = _
        rw [spadWrite_getD, spadRead_length]
        split
        · rw [spadRead_getD _ _ (by omega)]
        · rfl
      full := fun j => by
        rw [hblock]
        show ((s.block (blockOf f)).full.set false (dst / 16) true).getD j false = _
        rw [Tab.getD_set]
        by_cases hj : j = dst / 16 <;> simp [hj]
      block := by rw [hblock]; rfl }

theorem completes_cpy (h : OneElement s f c r src dst n) :
    Completes (.engineStackWrite f c.seq) s (Moved1 s f c r src dst n) ∧ Completes (.engineFrameBoundary f c.seq) s (Moved1 s f c r src dst n) :=
  ⟨⟨_, rfl, cpy_moved h (by decide)⟩, ⟨_, rfl, cpy_moved h (by decide)⟩⟩

end
end Sys2Proof.Claims

/-!
# A code fetch of a line (R187, R355)
-/
namespace Sys2Proof.Claims
open Sys2Proof.Machine

section
variable {s : State} {f k n value : Nat} {c : EngCmd}

/-- A slot with bytes laid over its own, none of them poisoned. -/
def slotFilled (b : Nat → Byte) (n : Nat) (x : CodeSlot) : CodeSlot :=
  { x with
    bytes := ((((upTo n).map b).zip (upTo n)).foldl (fun t e => t.set 0 (0 + e.2) e.1) x.bytes)
    bad := [] }

/-- A core with one slot filled. -/
def coreFilled (b : Nat → Byte) (k n : Nat) (x : Core) : Core := { x with slots := x.slots.put k (slotFilled b n (x.slot k)) }

theorem slotFilled_bytes (b : Nat → Byte) (x : CodeSlot) {i : Nat} (hi : i < n) : (slotFilled b n x).bytes.getD i 0 = b i := by
  have hset := setBytes_getD ((upTo n).map b) i 0 x.bytes
  rw [List.length_map, upTo, List.length_range, if_pos (by omega), List.getD_eq_getElem?_getD, List.getElem?_map, Nat.sub_zero,
    List.getElem?_range hi] at hset
  exact hset

theorem number_digit (b : Nat → Byte) {i : Nat} (hi : i < n) : number b 0 n / 256 ^ i % 256 = (b i).toNat := by
  rw [number_eq_ofBytes, ofBytes_digit, upTo, List.getElem?_map, List.getElem?_range hi, Option.map_some, Nat.zero_add]
  rfl

/-- The bytes that a unit has read go into the slot one by one. -/
theorem loaded_laid (b : Nat → Byte) (n : Nat) (t : Tab Byte) :
    ((loaded b 0 n).zip (upTo (loaded b 0 n).length)).foldl (fun t e => Tab.set 0 t e.2 e.1.1) t =
      (((upTo n).map b).zip (upTo n)).foldl (fun t e => t.set 0 (0 + e.2) e.1) t := by
  rw [loaded_length, loaded, List.zip_map_left, List.zip_map_left, List.foldl_map, List.foldl_map]
  simp only [Prod.map, Nat.zero_add, id_eq]

theorem loaded_bad (b : Nat → Byte) (n : Nat) : ((loaded b 0 n).zip (upTo (loaded b 0 n).length)).filter (fun e => e.1.2) = [] := by
  rw [List.filter_eq_nil_iff]
  intro e he
  obtain ⟨i, -, hi⟩ := List.mem_map.1 (List.of_mem_zip he).1
  rw [← hi]
  exact Bool.false_ne_true

theorem codeSlot_eq (h : CanLand s f c k n value) : c.slot = k ∧ c.codeLen = n := by
  obtain ⟨hk, hn, -, -⟩ := h.word
  unfold fieldN bitsOf at hk hn
  rw [pow_zero, Nat.div_one] at hk
  exact ⟨hk.symm, hn.symm⟩

theorem codeFetch_eq (h : CanLand s f c k n value) : ∃ b : Nat → Byte, number b 0 n = value ∧
    s.codeFetch f c = .ok () (s.updCore (floeCore f) (coreFilled b k n)) := by
  obtain ⟨-, -, hctr, halign⟩ := h.kind
  obtain ⟨-, -, -, hheld⟩ := h.move.open_
  obtain ⟨-, -, hmid, hhigh⟩ := h.word
  obtain ⟨hslot, hlen⟩ := codeSlot_eq h
  obtain ⟨b, hnum, hload⟩ := h.holds.vaLoad (k := .exec) (.inr ⟨rfl, rfl⟩)
  have hodd : c.ctrOdd = none := by rw [EngCmd.ctrOdd, hctr]; rfl
  have hap : c.ctrAperture = none := by rw [EngCmd.ctrAperture, hctr]; rfl
  refine ⟨b, hnum, ?_⟩
  unfold State.codeFetch
  simp only [hmid, hhigh, halign, hodd, hap, hlen, hslot, hheld, hload, Got.bind, Got.check, loaded_laid, loaded_bad, ne_eq,
    not_true_eq_false, decide_false, Bool.or_self, Bool.false_eq_true, if_false, Option.map_none]
  rfl

theorem slotFree (h : CanLand s f c k n value) : (s.slotBehind f c || s.slotBusy (floeCore f) c.slot) = false := by
  obtain ⟨hslot, -⟩ := codeSlot_eq h
  obtain ⟨rest, hfirst⟩ := h.first
  have hbehind : s.slotBehind f c = false := by
    unfold State.slotBehind
    rw [hslot, hfirst, List.takeWhile_cons_of_neg (by simp)]
    rfl
  have hbusy : s.slotBusy (floeCore f) c.slot = false := by
    unfold State.slotBusy
    rw [hslot, List.any_eq_false]
    intro e he
    rw [Bool.and_eq_true, decide_eq_true_eq, List.any_eq_true]
    rintro ⟨hcore, g, hg, hpc⟩
    exact h.free e he hcore g hg (of_decide_eq_true hpc)
  rw [hbehind, hbusy]
  rfl

/-- A fetch whose bytes have come. -/
def fetchGone (d : EngCmd) : EngCmd := { d with progress := 1 }

/-- The fetch of the oldest command to a slot puts memory's bytes there. -/
theorem completes_fetch (h : CanLand s f c k n value) : Completes (.codeSlotLanding f c.seq) s (SlotFetched s f c k n value) := by
  obtain ⟨hk, -, -, -⟩ := h.kind
  obtain ⟨-, -, -, hheld⟩ := h.move.open_
  obtain ⟨b, hnum, hfetch⟩ := codeFetch_eq h
  have hstep : s.stepKinds f c.seq [.cfetch] = (s.updCore (floeCore f) (coreFilled b k n)).updCmd f c.seq
      (fun d => ended (fetchGone d)) := by
    rw [h.move.stepKinds (by rw [hk]; exact List.mem_singleton_self _), engineStep_cfetch h.move hk (slotFree h) hfetch]
    exact updCmd_finishCmd (g := fetchGone) (fun _ => rfl)
  refine ⟨_, congrArg Host.Outcome.next hstep, ?_⟩
  have hdone : ended (fetchGone c) = { c with progress := 1, finished := true } := by
    unfold ended fetchGone
    rw [← hheld]
  have hcore : ((s.updCore (floeCore f) (coreFilled b k n)).updCmd f c.seq (fun d => ended (fetchGone d))).core (floeCore f) =
      coreFilled b k n (s.core (floeCore f)) :=
    Tab.getD_put_self _ _ _ _
  have hslot : (coreFilled b k n (s.core (floeCore f))).slot k = slotFilled b n ((s.core (floeCore f)).slot k) := Tab.getD_put_self _ _ _ _
  exact
    { rest := rfl
      floes := fun j hj => updCmd_floes hj
      floe := h.move.updCmd_floe (k := fun d => { d with progress := 1, finished := true }) rfl hdone
      cores := fun d hd => Tab.get?_put_ne _ _ hd
      slot := by
        rw [hcore, hslot]
        refine ⟨rfl, rfl, rfl, rfl, fun i hi => ?_⟩
        rw [slotFilled_bytes _ _ hi, ← hnum, number_digit b hi]
      slots := fun j hj => by rw [hcore]; exact Tab.getD_put_ne _ _ _ hj
      core := by rw [hcore]; rfl }

end
end Sys2Proof.Claims

/-!
# An append that its log takes, and a record that becomes durable (R208, R209, R210, R211)
-/
namespace Sys2Proof.Claims
open Sys2Proof.Machine

/-! ## The bytes of a record (R209) -/

section
variable (asid launch tag seq : Nat) (payload : List Byte)

theorem recordBytes_parts {dpoint : Bool} : ∃ head, head.length = 28 ∧
    recordBytes asid launch tag seq dpoint payload = head ++ (toBytes 4 (crc32c (head ++ payload)) ++ payload) ∧
    ofBytes head = (payload.length + seq % 2 ^ 64 * 2 ^ 64 + bit01 dpoint * 2 ^ 128 + asid % 2 ^ 16 * 2 ^ 144 +
      launch % 2 ^ 32 * 2 ^ 160 + tag % 2 ^ 32 * 2 ^ 192) % 256 ^ 28 :=
  ⟨_, toBytes_length _ _, List.append_assoc .., ofBytes_toBytes _ _⟩

theorem recordBytes_length {dpoint : Bool} : (recordBytes asid launch tag seq dpoint payload).length = 32 + payload.length := by
  obtain ⟨head, hlen, hbytes, -⟩ := recordBytes_parts asid launch tag seq payload (dpoint := dpoint)
  rw [hbytes, List.length_append, List.length_append, hlen, toBytes_length]
  omega

theorem recordBytes_drop {dpoint : Bool} : (recordBytes asid launch tag seq dpoint payload).drop 32 = payload := by
  obtain ⟨head, hlen, hbytes, -⟩ := recordBytes_parts asid launch tag seq payload (dpoint := dpoint)
  rw [hbytes, ← List.append_assoc, List.drop_left' (by rw [List.length_append, hlen, toBytes_length])]

theorem recordBytes_header (hshort : payload.length < 2 ^ 64) : ofBytes ((recordBytes asid launch tag seq false payload).take 28) =
    payload.length + seq % 2 ^ 64 * 2 ^ 64 + asid % 2 ^ 16 * 2 ^ 144 + launch % 2 ^ 32 * 2 ^ 160 + tag % 2 ^ 32 * 2 ^ 192 := by
  obtain ⟨head, hlen, hbytes, hhead⟩ := recordBytes_parts asid launch tag seq payload (dpoint := false)
  rw [hbytes, List.take_left' hlen, hhead, show bit01 false = 0 from rfl, Nat.zero_mul, Nat.add_zero]
  exact Nat.mod_eq_of_lt (by omega)

theorem recordBytes_checksum {dpoint : Bool} : ofBytes (((recordBytes asid launch tag seq dpoint payload).drop 28).take 4) =
    crc32c ((recordBytes asid launch tag seq dpoint payload).take 28 ++ (recordBytes asid launch tag seq dpoint payload).drop 32) % 2 ^ 32 := by
  obtain ⟨head, hlen, hbytes, -⟩ := recordBytes_parts asid launch tag seq payload (dpoint := dpoint)
  rw [recordBytes_drop, hbytes, List.take_left' hlen, List.drop_left' hlen, List.take_left' (toBytes_length ..), ofBytes_toBytes,
    show (256 : Nat) ^ 4 = 2 ^ 32 from rfl]

end

section
variable {s : State} {f n value : Nat} {c : EngCmd} {g : Log}

/-! ## Acceptance (R208, R211) -/

/-- A source that memory holds in one line outside tier 2 has no cause. -/
theorem Holds.apndCause {asid va v : Nat} (h : Holds s 1 asid va n v) : s.apndCause asid va n = none := by
  obtain ⟨hn, hline, hva, hap⟩ := h.inLine
  obtain ⟨x, r, pa, hwalk, hright, hl, ht, hpa, -, htier, -⟩ := h.mapped
  have hplace : s.unitPlace asid .load va = .ok (.phys pa (attrKey x.attr) (attrNc x.attr)) := by
    rw [hpa]
    exact unitPlace_plain hva hap hwalk hl ht (by decide) (by simp [AccKind.needsRead, AccKind.needsWrite, attrRead, hright])
  unfold State.apndCause
  rw [chunksOf_line hn hline]
  simp only [List.findSome?_cons, List.findSome?_nil, hplace, if_neg (show ¬ paTier pa = 2 by omega)]

theorem CanAppend.spareLeft (h : CanAppend s f c g n value) : s.spareLeft (g.pa + g.nextOff) (32 + n) = true := by
  obtain ⟨-, hspare⟩ := h.room
  unfold State.spareLeft
  rw [List.all_eq_true]
  intro k hk
  have hflash := hspare k (List.mem_range.1 hk)
  by_cases hin : k * 2 ^ 40 < paOff (g.pa + g.nextOff) + (32 + n) ∧ paOff (g.pa + g.nextOff) < (k + 1) * 2 ^ 40
  · rw [decide_eq_true (hflash hin.1 hin.2), Bool.or_true]
  · rw [← Bool.decide_and, decide_eq_false hin]
    rfl

/-- The record that an append adds: of n bytes. -/
def newRecord (s : State) (f : Nat) (c : EngCmd) (g : Log) (bs : List PByte) : LogRec where
  seq := g.nextSeq
  off := g.nextOff
  bytes := recordBytes (s.asidOf (blockOf f)) (s.block (blockOf f)).launch (c.coords.getD 2 0).toNat g.nextSeq false (bs.map (fun x => x.1))
  stager := some (s.block (blockOf f)).launch
  flash := false
  bad := ((bs.zip (upTo bs.length)).filter (fun e => e.1.2)).map (fun e => e.2 + 32)

/-- A log that has accepted a record of a replayable launch. -/
def appendedLog (s : State) (f : Nat) (g : Log) (r : LogRec) : Log :=
  { g with
    recs := g.recs ++ [r], nextSeq := g.nextSeq + 1, nextOff := g.nextOff + r.bytes.length, stager := some (s.block (blockOf f)).launch }

theorem acceptApnd_eq (h : CanAppend s f c g n value) : ∃ b : Nat → Byte, number b 0 n = value ∧
    s.acceptApnd f c = .done g.nextSeq
      { s with logs := s.logs.put c.req.toNat (appendedLog s f g (newRecord s f c g (loaded b 0 n))) } := by
  obtain ⟨hk, -, hctr, -⟩ := h.kind
  obtain ⟨-, -, -, hheld⟩ := h.move.open_
  obtain ⟨hreq, hget, hasid⟩ := h.log
  obtain ⟨hreplay, hstager⟩ := h.taken
  obtain ⟨hn, hlow, hmod⟩ := h.length
  obtain ⟨hfits, -⟩ := h.room
  obtain ⟨-, hline, -, -⟩ := h.holds.inLine
  obtain ⟨b, hnum, hload⟩ := h.holds.vaLoad (k := .load) (.inl ⟨rfl, rfl⟩)
  have hodd : c.ctrOdd = none := by rw [EngCmd.ctrOdd, hctr]; rfl
  have hap : c.ctrAperture = none := by rw [EngCmd.ctrAperture, hctr]; rfl
  have htakes : g.takes (s.block (blockOf f)).launch = true := by
    rcases hstager with hnone | hsome
    · unfold Log.takes; rw [hnone]
    · unfold Log.takes; rw [hsome]; exact decide_eq_true rfl
  have hsize : c.at 1 = n := hn.symm
  have hfirst : (decide (4096 ≤ c.req.toNat) || decide (n < 16) || decide (262144 < n) || decide (n % 16 ≠ 0)) = false := by
    simp only [Bool.or_eq_false_iff, decide_eq_false_iff_not]
    omega
  have hroom : (decide (g.len < g.nextOff + 32 + n) || !(s.spareLeft (g.pa + g.nextOff) (32 + n))) = false := by
    rw [h.spareLeft, decide_eq_false (by omega)]
    rfl
  refine ⟨b, hnum, ?_⟩
  unfold State.acceptApnd
  simp only [hsize, hfirst, hodd, Nat.mod_eq_of_lt hreq, hget, hasid, htakes, hroom, hap, hheld, State.replayable, hreplay, Option.map_none,
    Option.or_none, ne_eq, not_true_eq_false, Bool.not_true, Bool.false_eq_true, if_false, if_true,
    show s.apndCause (s.asidOf (blockOf f)) (c.at 0) n = none from h.holds.apndCause,
    show ∀ l die, s.vaLoad l die (s.asidOf (blockOf f)) .load (c.at 0) n = .ok (loaded b 0 n) s from hload]
  unfold State.putRecord
  simp only [hget, hk, not_true_eq_false, decide_false, Option.isSome_some, if_true]
  rfl

theorem loaded_bytes (b : Nat → Byte) (n : Nat) : ((loaded b 0 n).map (fun x => x.1)).length = n ∧
    ofBytes ((loaded b 0 n).map (fun x => x.1)) = number b 0 n :=
  ⟨by rw [List.length_map, loaded_length], pbNat_loaded b 0 n⟩

/-- A command whose record has a number. -/
def recordNumbered (q : Nat) (d : EngCmd) : EngCmd := { d with seqNo := some q }

/-- An append that its log takes completes with its record last there. -/
theorem completes_apnd (h : CanAppend s f c g n value) : Completes (.recordAcceptance f c.seq) s (Accepted s f c g n value) := by
  obtain ⟨hk, -, -, hnew⟩ := h.kind
  obtain ⟨-, -, -, hheld⟩ := h.move.open_
  obtain ⟨b, hnum, haccept⟩ := acceptApnd_eq h
  obtain ⟨hcount, hpayload⟩ := loaded_bytes b n
  have hshort : n < 2 ^ 64 := by
    obtain ⟨-, hline, -, -⟩ := h.holds.inLine
    omega
  have hlen : (newRecord s f c g (loaded b 0 n)).bytes.length = 32 + n := (recordBytes_length _ _ _ _ _).trans (by rw [hcount])
  have hstep : s.stepKinds f c.seq [.apnd, .apndDur, .apndSync] =
      { s with logs := s.logs.put c.req.toNat (appendedLog s f g (newRecord s f c g (loaded b 0 n))) }.updCmd f c.seq
        (fun d => ended (recordNumbered g.nextSeq d)) := by
    rw [h.move.stepKinds (by rw [hk]; exact List.mem_cons_self), engineStep_apnd h.move hk hnew haccept]
    exact updCmd_finishCmd (g := recordNumbered g.nextSeq) (fun _ => rfl)
  have hdone : ended (recordNumbered g.nextSeq c) = { c with seqNo := some g.nextSeq, finished := true } := by
    unfold ended recordNumbered
    rw [← hheld]
  refine ⟨_, congrArg Host.Outcome.next hstep, ?_⟩
  exact
    { rest := rfl
      floes := fun j hj => updCmd_floes hj
      floe := h.move.updCmd_floe (k := fun d => { d with seqNo := some g.nextSeq, finished := true }) rfl hdone
      logs := fun j hj => Tab.get?_put_ne _ _ hj
      log := by
        refine ⟨newRecord s f c g (loaded b 0 n), (Tab.get?_put_self _ _ _).trans ?_, rfl, rfl, rfl, rfl, hlen, ?_, ?_, recordBytes_checksum ..⟩
        · unfold appendedLog
          rw [hlen, ← Nat.add_assoc]
        · exact (recordBytes_header _ _ _ _ _ (by rw [hcount]; exact hshort)).trans (by rw [hcount])
        · exact (congrArg ofBytes (recordBytes_drop ..)).trans (hpayload.trans hnum) }

/-! ## Durability (R210) -/

theorem NextDurable.find {r : LogRec} (h : NextDurable g r) : g.recs.find? (fun x => !x.flash) = some r := by
  obtain ⟨before, after, hrecs, hbefore⟩ := h.split
  rw [hrecs, List.find?_append, List.find?_eq_none.2 (fun x hx => by simp [hbefore x hx]), Option.none_or,
    List.find?_cons_of_pos (by rw [h.fresh]; rfl)]

/-- The oldest record that has not reached flash reaches it, and nothing else changes. -/
theorem completes_durable {k : Nat} {r : LogRec} (hget : s.logs.get? k = some g) (h : NextDurable g r) :
    Completes (.recordDurable k) s (fun t => (∀ j, j ≠ k → t.logs.get? j = s.logs.get? j) ∧ t = { s with logs := t.logs } ∧
      t.logs.get? k = some { g with
        durable := r.off + r.bytes.length, recs := g.recs.map (fun x => if x.seq = r.seq then { x with flash := true } else x) }) := by
  have hstep : s.recordDurable k = { s with logs := s.logs.put k { g with
      durable := r.off + r.bytes.length, recs := g.recs.map (fun x => if x.seq = r.seq then { x with flash := true } else x) } } := by
    unfold State.recordDurable
    simp only [hget, h.find]
  exact ⟨_, congrArg Host.Outcome.next hstep, fun j hj => Tab.get?_put_ne _ _ hj, rfl, Tab.get?_put_self _ _ _⟩

end

/-- Settles O36: each of the four moves is the step of the command's kind, by what memory or the scratchpad holds. -/
theorem enginesMove : Obligations.EnginesMove :=
  ⟨fun _ _ _ _ _ _ _ h => completes_cpy h, fun _ _ _ _ _ _ h => completes_fetch h, fun _ _ _ _ _ _ h => completes_apnd h,
    fun _ _ _ _ hget h => completes_durable hget h⟩

end Sys2Proof.Claims

/-!
# Words put together from fixed bits and operands (R79, R82)
-/
namespace Sys2Proof

/-- An operand of a word: the bits that stand from one position on. -/
structure Operand where
  pos   : Nat
  width : Nat
  bits  : BitVec width

/-- Where an operand stands: its lowest bit and its width. -/
def Operand.place (o : Operand) : Nat × Nat := (o.pos, o.width)

/-- A word of fixed bits k and operands, the lowest first, as the encoder adds them up. -/
def packed (k : Nat) : List Operand → Nat
  | [] => k
  | o :: os => packed k os + o.bits.toNat * 2 ^ o.pos

/-- Places that stand one above the other, from bit lo on and below bit 32, and that the bits k leave free. -/
def placed (k lo : Nat) : List (Nat × Nat) → Bool
  | [] => decide (lo ≤ 32)
  | p :: ps => decide (lo ≤ p.1) && k / 2 ^ p.1 % 2 ^ p.2 == 0 && placed k (p.1 + p.2) ps

/-- No place takes a bit of m. -/
def free (m : Nat) (ps : List (Nat × Nat)) : Bool := ps.all (fun p => m / 2 ^ p.1 % 2 ^ p.2 == 0)

/-- An operand takes bit j. -/
def Operand.takes (o : Operand) (j : Nat) : Prop := o.pos ≤ j ∧ j < o.pos + o.width

theorem Operand.testBit_shifted (o : Operand) (j : Nat) :
    (o.bits.toNat * 2 ^ o.pos).testBit j = (decide (o.pos ≤ j) && o.bits.getLsbD (j - o.pos)) := by
  rw [Nat.mul_comm, Nat.testBit_two_pow_mul]; rfl

theorem Operand.takes_of_testBit {o : Operand} {j : Nat} (h : (o.bits.toNat * 2 ^ o.pos).testBit j = true) : o.takes j := by
  rw [o.testBit_shifted, Bool.and_eq_true, decide_eq_true_eq] at h
  have := BitVec.lt_of_getLsbD h.2
  exact ⟨h.1, by omega⟩

/-- A field of zeros has no bit set. -/
theorem testBit_of_field_zero {m p n j : Nat} (h : m / 2 ^ p % 2 ^ n = 0) (hp : p ≤ j) (hn : j < p + n) : m.testBit j = false := by
  have := congrArg (fun x => x.testBit (j - p)) h
  simpa [Nat.testBit_mod_two_pow, Nat.testBit_div_two_pow, show j - p < n by omega, show j - p + p = j by omega] using this

theorem testBit_of_free {m : Nat} {os : List Operand} (h : free m (os.map Operand.place) = true) {o : Operand} (ho : o ∈ os) {j : Nat}
    (hj : o.takes j) : m.testBit j = false :=
  testBit_of_field_zero (beq_iff_eq.1 (List.all_eq_true.1 h o.place (List.mem_map_of_mem ho))) hj.1 hj.2

theorem add_eq_or_of_and_eq_zero {a b : Nat} (h : a &&& b = 0) : a + b = a ||| b := by
  have hs := Nat.lt_two_pow_self (n := a + b)
  have ha : a < 2 ^ (a + b) := by omega
  have hb : b < 2 ^ (a + b) := by omega
  have := congrArg BitVec.toNat (BitVec.add_eq_or_of_and_eq_zero (BitVec.ofNat (a + b) a) (BitVec.ofNat (a + b) b)
    (BitVec.eq_of_toNat_eq (by simp [Nat.mod_eq_of_lt ha, Nat.mod_eq_of_lt hb, h])))
  simpa [Nat.mod_eq_of_lt ha, Nat.mod_eq_of_lt hb, Nat.mod_eq_of_lt hs] using this

theorem placed_cons {k lo : Nat} {o : Operand} {os : List Operand} : placed k lo ((o :: os).map Operand.place) = true ↔
    lo ≤ o.pos ∧ k / 2 ^ o.pos % 2 ^ o.width = 0 ∧ placed k (o.pos + o.width) (os.map Operand.place) = true := by
  rw [List.map_cons, placed, Bool.and_eq_true, Bool.and_eq_true, decide_eq_true_eq, beq_iff_eq, and_assoc]
  rfl

/-- The operands begin at the lowest bit of their places. -/
theorem placed_lo {k lo : Nat} {os : List Operand} (h : placed k lo (os.map Operand.place) = true) : ∀ o ∈ os, lo ≤ o.pos := by
  induction os generalizing lo with
  | nil => simp
  | cons p os ih =>
    obtain ⟨hlo, -, hos⟩ := placed_cons.1 h
    intro o ho
    rcases List.mem_cons.1 ho with rfl | ho
    · exact hlo
    · exact le_trans (by omega) (ih hos o ho)

/-- Operands end below bit 32. -/
theorem placed_hi {k lo : Nat} {os : List Operand} (h : placed k lo (os.map Operand.place) = true) :
    lo ≤ 32 ∧ ∀ o ∈ os, o.pos + o.width ≤ 32 := by
  induction os generalizing lo with
  | nil => simpa [placed] using h
  | cons p os ih =>
    obtain ⟨hlo, -, hos⟩ := placed_cons.1 h
    obtain ⟨h1, h2⟩ := ih hos
    refine ⟨by omega, fun o ho => ?_⟩
    rcases List.mem_cons.1 ho with rfl | ho
    · exact h1
    · exact h2 o ho

/-- The bits of a word: an operand's where it has its place, the fixed ones elsewhere. -/
theorem testBit_packed {k : Nat} {os : List Operand} : ∀ {lo}, placed k lo (os.map Operand.place) = true → ∀ j,
    (∀ o ∈ os, o.takes j → (packed k os).testBit j = o.bits.getLsbD (j - o.pos)) ∧
    ((∀ o ∈ os, ¬ o.takes j) → (packed k os).testBit j = k.testBit j) := by
  induction os with
  | nil => intro lo _ j; simp [packed]
  | cons p os ih =>
    intro lo h j
    obtain ⟨hlo, hz, hos⟩ := placed_cons.1 h
    have hout : ∀ i, p.takes i → ∀ o ∈ os, ¬ o.takes i := fun i hi o ho ht => by
      have := placed_lo hos o ho
      exact absurd hi.2 (by have := ht.1; omega)
    have hfree : ∀ i, p.takes i → (packed k os).testBit i = false := fun i hi => by
      rw [(ih hos i).2 (hout i hi)]
      exact testBit_of_field_zero hz hi.1 hi.2
    have hand : packed k os &&& p.bits.toNat * 2 ^ p.pos = 0 := by
      refine Nat.eq_of_testBit_eq (fun i => ?_)
      rw [Nat.testBit_and, Nat.zero_testBit]
      cases hv : (p.bits.toNat * 2 ^ p.pos).testBit i with
      | false => simp
      | true => simp [hfree i (Operand.takes_of_testBit hv)]
    have hbit : (packed k (p :: os)).testBit j = ((packed k os).testBit j || (p.bits.toNat * 2 ^ p.pos).testBit j) := by
      rw [packed, add_eq_or_of_and_eq_zero hand, Nat.testBit_or]
    have hoff : ¬ p.takes j → (p.bits.toNat * 2 ^ p.pos).testBit j = false := fun hn => by
      cases hv : (p.bits.toNat * 2 ^ p.pos).testBit j with
      | false => rfl
      | true => exact absurd (Operand.takes_of_testBit hv) hn
    rw [hbit]
    refine ⟨fun o ho ht => ?_, fun hn => ?_⟩
    · rcases List.mem_cons.1 ho with rfl | ho
      · simp [hfree j ht, o.testBit_shifted, ht.1]
      · rw [(ih hos j).1 o ho ht, hoff (fun hp => hout j hp o ho ht), Bool.or_false]
    · rw [(ih hos j).2 (fun o ho => hn o (List.mem_cons_of_mem _ ho)), hoff (hn p (List.mem_cons_self ..)), Bool.or_false]

section
variable {k lo : Nat} {os : List Operand} (h : placed k lo (os.map Operand.place) = true)
include h

/-- A 32-bit word. -/
theorem packed_lt (hk : k < 2 ^ 32) : packed k os < 2 ^ 32 := by
  refine Nat.lt_pow_two_of_testBit _ (fun j hj => ?_)
  rw [(testBit_packed h j).2 (fun o ho ht => absurd ((placed_hi h).2 o ho) (by have := ht.2; omega))]
  exact Nat.testBit_lt_two_pow (lt_of_lt_of_le hk (Nat.pow_le_pow_right (by decide) hj))

/-- An operand is read back from its place. -/
theorem operand_of_packed (o : Operand) (ho : o ∈ os) : BitVec.ofNat o.width (packed k os / 2 ^ o.pos) = o.bits := by
  refine BitVec.eq_of_getLsbD_eq (fun i hi => ?_)
  rw [BitVec.getLsbD_ofNat, decide_eq_true hi, Bool.true_and, Nat.testBit_div_two_pow,
    (testBit_packed h _).1 o ho ⟨by omega, by omega⟩, Nat.add_sub_cancel]

/-- Bits that no operand takes are the fixed ones. -/
theorem land_packed {m : Nat} (hm : free m (os.map Operand.place) = true) : packed k os &&& m = k &&& m := by
  refine Nat.eq_of_testBit_eq (fun j => ?_)
  rw [Nat.testBit_and, Nat.testBit_and]
  cases hj : m.testBit j with
  | false => simp
  | true =>
    rw [(testBit_packed h j).2 (fun o ho ht => ?_)]
    rw [testBit_of_free hm ho ht] at hj
    cases hj

/-- A field that no operand takes is the fixed one. -/
theorem field_packed (p n : Nat) (hm : free (2 ^ p * (2 ^ n - 1)) (os.map Operand.place) = true) :
    packed k os / 2 ^ p % 2 ^ n = k / 2 ^ p % 2 ^ n := by
  refine Nat.eq_of_testBit_eq (fun j => ?_)
  simp only [Nat.testBit_mod_two_pow, Nat.testBit_div_two_pow]
  by_cases hj : j < n
  · rw [(testBit_packed h _).2 (fun o ho ht => ?_)]
    have := testBit_of_free hm ho ht
    simp [Nat.testBit_two_pow_mul, Nat.testBit_two_pow_sub_one, hj] at this
  · simp [hj]

end

/-- The operands that a word holds in their places. -/
def holds (w : Nat) : List Operand → Prop
  | [] => True
  | ⟨p, n, x⟩ :: os => BitVec.ofNat n (w / 2 ^ p) = x ∧ holds w os

theorem holds_iff {w : Nat} {os : List Operand} : holds w os ↔ ∀ o ∈ os, BitVec.ofNat o.width (w / 2 ^ o.pos) = o.bits := by
  induction os with
  | nil => simp [holds]
  | cons o os ih => rw [List.forall_mem_cons, ← ih]; rfl

/-- Where all operands stand from bit 7 on, the seven bits below are the fixed ones (R79). -/
theorem low_packed {k : Nat} {os : List Operand} (h : placed k 7 (os.map Operand.place) = true) : packed k os % 128 = k % 128 := by
  refine Nat.eq_of_testBit_eq (fun j => ?_)
  rw [show (128 : Nat) = 2 ^ 7 from rfl, Nat.testBit_mod_two_pow, Nat.testBit_mod_two_pow]
  by_cases hj : j < 7
  · rw [(testBit_packed h j).2 (fun o ho ht => absurd (placed_lo h o ho) (by have := ht.1; omega))]
  · simp [hj]

/-- What is read of a word of fixed bits k and operands in the places ps. -/
structure Reads (k : Nat) (ps : List (Nat × Nat)) (os : List Operand) (w : Nat) : Prop where
  operands : holds w os
  field    : ∀ p n, free (2 ^ p * (2 ^ n - 1)) ps = true → w / 2 ^ p % 2 ^ n = k / 2 ^ p % 2 ^ n
  land     : ∀ m, free m ps = true → w &&& m = k &&& m

theorem reads_packed {k lo : Nat} {os : List Operand} (h : placed k lo (os.map Operand.place) = true) :
    Reads k (os.map Operand.place) os (packed k os) :=
  ⟨holds_iff.2 (operand_of_packed h), field_packed h, fun _ => land_packed h⟩

section
variable {k w : Nat} {ps : List (Nat × Nat)} {os : List Operand} (h : Reads k ps os w)
include h

/-! The fields that majors and sub-ops stand in (R82, R85, R86). -/

theorem Reads.major (hm : free 0x7e ps = true) : w / 2 % 64 = k / 2 % 64 := h.field 1 6 hm
theorem Reads.op5 (hm : free 0xf8000000 ps = true) : w / 0x8000000 % 32 = k / 0x8000000 % 32 := h.field 27 5 hm
theorem Reads.op4 (hm : free 0xf0000000 ps = true) : w / 0x10000000 % 16 = k / 0x10000000 % 16 := h.field 28 4 hm
theorem Reads.op3 (hm : free 0xe0000000 ps = true) : w / 0x20000000 % 8 = k / 0x20000000 % 8 := h.field 29 3 hm
theorem Reads.op3s (hm : free 0x38000000 ps = true) : w / 0x8000000 % 8 = k / 0x8000000 % 8 := h.field 27 3 hm
theorem Reads.op3i (hm : free 0x380000 ps = true) : w / 0x80000 % 8 = k / 0x80000 % 8 := h.field 19 3 hm
theorem Reads.link (hm : free 0x800 ps = true) : w / 0x800 % 2 = k / 0x800 % 2 := h.field 11 1 hm
theorem Reads.cls (hm : free 0x6000000 ps = true) : w / 0x2000000 % 4 = k / 0x2000000 % 4 := h.field 25 2 hm

end

end Sys2Proof

/-!
# The rows of 32-bit floe words, and what their checks pass (R85, R86, R90)
-/
namespace Sys2Proof

/-- The operand class of a word is one that its row accepts, where the row fixes classes. -/
def Row.accepts (r : Row) (w : Nat) : Bool := match r.classes with | some l => l.contains (w / 0x2000000 % 4) | none => true

/-- The checks of a row pass for a word. -/
structure Row.Meets (r : Row) (w : Nat) : Prop where
  classes : r.accepts w = true
  zero    : Nat.land w r.zero = 0
  fixed   : Nat.land w r.fixed = r.fixedTo

/-- What the decoder makes of a word whose major and sub-op have a row. -/
theorem decode32_row {w : Nat} {r : Row} (hm : majReserved (w / 2 % 64) = false) (h30 : w / 2 % 64 < 0x30) (hs : subReserved w = false)
    (hr : rowOf w = some r) : decode32 w =
      if !r.accepts w || !r.instr.classOk then .error 5 else if Nat.land w r.zero ≠ 0 then .error 6
      else if Nat.land w r.fixed ≠ r.fixedTo || !r.instr.fieldsOk then .error 7 else .ok r.instr := by
  simp only [decode32, hm, hs, hr, Nat.not_le.2 h30, Bool.false_eq_true, if_false]
  rfl

/-- A word decodes to what its row names, where the row's checks and the instruction's own pass. -/
theorem decode32_ok_iff {w : Nat} {i : Instr} : decode32 w = .ok i ↔ majReserved (w / 2 % 64) = false ∧ w / 2 % 64 < 0x30 ∧ subReserved w = false ∧
    ∃ r, rowOf w = some r ∧ r.instr = i ∧ r.Meets w ∧ i.wf = true := by
  constructor
  · intro h
    have hd := h
    simp only [decode32] at hd
    split at hd
    · cases hd
    next hm =>
    split at hd
    · cases hd
    next h30 =>
    split at hd
    · cases hd
    next hs =>
    split at hd
    · cases hd
    next r hr =>
    simp only [Bool.not_eq_true, Nat.not_le] at hm h30 hs
    rw [decode32_row hm h30 hs hr] at h
    refine ⟨hm, h30, hs, r, hr, ?_⟩
    split at h
    · cases h
    next hc =>
    split at h
    · cases h
    next hz =>
    split at h
    · cases h
    next hf =>
    simp only [Bool.or_eq_true, Bool.not_eq_true', not_or, Bool.not_eq_false, decide_eq_true_eq, not_not] at hc hz hf
    obtain rfl := Except.ok.inj h
    exact ⟨rfl, ⟨hc.1, hz, hf.1⟩, by simp [Instr.wf, hc.2, hf.2]⟩
  · rintro ⟨hm, h30, hs, r, hr, rfl, hmeet, hwf⟩
    obtain ⟨hc, hf⟩ := Bool.and_eq_true_iff.1 hwf
    obtain ⟨hcl, hz, hfx⟩ := hmeet
    simp only [Nat.land_eq] at hz hfx
    simp [decode32_row hm h30 hs hr, hcl, hz, hfx, hc, hf]

/-- The word of an instruction is a 32-bit word, and the tables list it for that instruction. -/
structure Listed (i : Instr) : Prop where
  major : majReserved (encodeWord i / 2 % 64) = false ∧ encodeWord i / 2 % 64 < 0x30
  sub   : subReserved (encodeWord i) = false
  long  : encodeWord i % 2 = 1 ∧ encodeWord i < 2 ^ 32
  row   : ∃ r, rowOf (encodeWord i) = some r ∧ r.instr = i ∧ r.Meets (encodeWord i)

/-- The fixed bits k alone meet the checks of a row: its operand classes, its zero bits and its fixed ones. -/
def meetsFixed (k : Nat) (ps : List (Nat × Nat)) (cl : Option (List Nat)) (z f t : Nat) : Bool :=
  (match cl with | some l => free 0x6000000 ps && l.contains (k / 0x2000000 % 4) | none => true) &&
    free z ps && free f ps && k &&& z == 0 && k &&& f == t

/-- Fixed bits of a 32-bit floe word whose operands stand in the places ps (R79, R85). -/
def floeLayout (k : Nat) (ps : List (Nat × Nat)) : Bool :=
  decide (k < 2 ^ 32) && k % 2 == 1 && !majReserved (k / 2 % 64) && decide (k / 2 % 64 < 0x30) && placed k 7 ps

section
variable {i : Instr} {k w z f t m : Nat} {ps : List (Nat × Nat)} {os : List Operand} {cl : Option (List Nat)}

theorem Reads.meets (h : Reads k ps os w) (hfix : meetsFixed k ps cl z f t = true) : Row.Meets ⟨i, cl, z, f, t⟩ w := by
  simp only [meetsFixed, Bool.and_eq_true, beq_iff_eq] at hfix
  obtain ⟨⟨⟨⟨hc, hz⟩, hf⟩, hkz⟩, hkf⟩ := hfix
  refine ⟨?_, (h.land z hz).trans hkz, (h.land f hf).trans hkf⟩
  cases cl with
  | none => rfl
  | some l =>
    obtain ⟨hcls, hl⟩ := Bool.and_eq_true_iff.1 hc
    show l.contains (w / 0x2000000 % 4) = true
    rw [h.cls hcls, hl]

/-- The tables list every word of a layout for one instruction. -/
theorem Listed.of_packed (ps : List (Nat × Nat)) (os : List Operand) (he : encodeWord i = packed k os) (hps : os.map Operand.place = ps)
    (hr : ∀ w, Reads k ps os w → subReserved w = false ∧ ∃ r, rowOf w = some r ∧ r.instr = i ∧ r.Meets w)
    (hk : floeLayout k ps = true) : Listed i := by
  subst hps
  simp only [floeLayout, Bool.and_eq_true, decide_eq_true_eq, beq_iff_eq, Bool.not_eq_true'] at hk
  obtain ⟨⟨⟨⟨hk, h1⟩, hfree⟩, hmaj⟩, h⟩ := hk
  obtain ⟨hs, r, hrow, hi, hmeet⟩ := hr _ (reads_packed h)
  have hlow := low_packed h
  have hlt := packed_lt h hk
  rw [show k / 2 % 64 = packed k os / 2 % 64 by omega] at hfree hmaj
  rw [← he] at hs hrow hmeet hfree hmaj hlow hlt
  exact ⟨⟨hfree, hmaj⟩, hs, ⟨by omega, hlt⟩, r, hrow, hi, hmeet⟩

theorem subReserved_of_major (hm : w / 2 % 64 = m) (h : m ≠ 0x1A ∧ m ≠ 0x1B ∧ m ≠ 0x1E) : subReserved w = false := by
  unfold subReserved
  split
  · exact absurd (by omega) h.1
  · exact absurd (by omega) h.2.1
  · exact absurd (by omega) h.2.2
  · rfl

/-- A layout meets all that a table of major m and the checks of its row ask, where the major has no reserved sub-ops in `subReserved`. -/
def tableLayout (k m : Nat) (ps : List (Nat × Nat)) (cl : Option (List Nat)) (z f t : Nat) : Bool :=
  floeLayout k ps && free 0x7e ps && k / 2 % 64 == m && m != 0x1A && m != 0x1B && m != 0x1E && meetsFixed k ps cl z f t

/-- A layout under a major all of whose sub-ops are listed or rejected by its table. -/
theorem Listed.of_table {table : Nat → Option Row} (ps : List (Nat × Nat)) (os : List Operand) (he : encodeWord i = packed k os)
    (hps : os.map Operand.place = ps) (htable : ∀ {w}, w / 2 % 64 = m → rowOf w = table w)
    (hr : ∀ w, Reads k ps os w → table w = some ⟨i, cl, z, f, t⟩)
    (hk : tableLayout k m ps cl z f t = true) : Listed i := by
  simp only [tableLayout, Bool.and_eq_true, beq_iff_eq, bne_iff_ne] at hk
  obtain ⟨⟨⟨⟨⟨⟨hk, hfree⟩, hmaj⟩, hA⟩, hB⟩, hE⟩, hfix⟩ := hk
  refine Listed.of_packed ps os he hps (fun w h => ?_) hk
  have hm : w / 2 % 64 = m := (h.major hfree).trans hmaj
  exact ⟨subReserved_of_major hm ⟨hA, hB, hE⟩, _, (htable hm).trans (hr w h), rfl, h.meets hfix⟩

end

/-! ### The table of each major (R85) -/

theorem rowOf_ialuR {w : Nat} (h : w / 2 % 64 = 0x1) : rowOf w = rowIaluR w := by rw [rowOf, h]; rfl
theorem rowOf_ialuI {w : Nat} (h : w / 2 % 64 = 0x2) : rowOf w = rowIaluI w := by rw [rowOf, h]; rfl
theorem rowOf_logicR {w : Nat} (h : w / 2 % 64 = 0x3) : rowOf w = rowLogicR w := by rw [rowOf, h]; rfl
theorem rowOf_logicI {w : Nat} (h : w / 2 % 64 = 0x4) : rowOf w = rowLogicI w := by rw [rowOf, h]; rfl
theorem rowOf_bfx {w : Nat} (h : w / 2 % 64 = 0x5) : rowOf w = rowBfx w := by rw [rowOf, h]; rfl
theorem rowOf_bfi {w : Nat} (h : w / 2 % 64 = 0x6) : rowOf w = rowBfi w := by rw [rowOf, h]; rfl
theorem rowOf_cmp {w : Nat} (h : w / 2 % 64 = 0x7) : rowOf w = rowCmp w := by rw [rowOf, h]; rfl
theorem rowOf_move {w : Nat} (h : w / 2 % 64 = 0x8) : rowOf w = rowMove w := by rw [rowOf, h]; rfl
theorem rowOf_movi {w : Nat} (h : w / 2 % 64 = 0x9) : rowOf w = rowMovi w := by rw [rowOf, h]; rfl
theorem rowOf_movh {w : Nat} (h : w / 2 % 64 = 0xa) : rowOf w = rowMovh w := by rw [rowOf, h]; rfl
theorem rowOf_fpR {w : Nat} (h : w / 2 % 64 = 0xb) : rowOf w = rowFpR w := by rw [rowOf, h]; rfl
theorem rowOf_fpS {w : Nat} (h : w / 2 % 64 = 0xc) : rowOf w = rowFpS w := by rw [rowOf, h]; rfl
theorem rowOf_cvt {w : Nat} (h : w / 2 % 64 = 0xd) : rowOf w = rowCvt w := by rw [rowOf, h]; rfl
theorem rowOf_qnt {w : Nat} (h : w / 2 % 64 = 0xe) : rowOf w = rowQnt w := by rw [rowOf, h]; rfl
theorem rowOf_deq {w : Nat} (h : w / 2 % 64 = 0xf) : rowOf w = rowDeq w := by rw [rowOf, h]; rfl
theorem rowOf_lane {w : Nat} (h : w / 2 % 64 = 0x10) : rowOf w = rowLane w := by rw [rowOf, h]; rfl
theorem rowOf_floe {w : Nat} (h : w / 2 % 64 = 0x11) : rowOf w = rowFloe w := by rw [rowOf, h]; rfl
theorem rowOf_bra {w : Nat} (h : w / 2 % 64 = 0x12) : rowOf w = rowBra w := by rw [rowOf, h]; rfl
theorem rowOf_brc {w : Nat} (h : w / 2 % 64 = 0x13) : rowOf w = rowBrc w := by rw [rowOf, h]; rfl
theorem rowOf_jump {w : Nat} (h : w / 2 % 64 = 0x14) : rowOf w = rowJump w := by rw [rowOf, h]; rfl
theorem rowOf_jseg {w : Nat} (h : w / 2 % 64 = 0x15) : rowOf w = rowJseg w := by rw [rowOf, h]; rfl
theorem rowOf_cfetch {w : Nat} (h : w / 2 % 64 = 0x16) : rowOf w = rowCfetch w := by rw [rowOf, h]; rfl
theorem rowOf_ld {w : Nat} (h : w / 2 % 64 = 0x17) : rowOf w = rowLd w := by rw [rowOf, h]; rfl
theorem rowOf_st {w : Nat} (h : w / 2 % 64 = 0x18) : rowOf w = rowSt w := by rw [rowOf, h]; rfl
theorem rowOf_local {w : Nat} (h : w / 2 % 64 = 0x19) : rowOf w = rowLocal w := by rw [rowOf, h]; rfl
theorem rowOf_atom {w : Nat} (h : w / 2 % 64 = 0x1a) : rowOf w = rowAtom w := by rw [rowOf, h]; rfl
theorem rowOf_red {w : Nat} (h : w / 2 % 64 = 0x1b) : rowOf w = rowRed w := by rw [rowOf, h]; rfl
theorem rowOf_order {w : Nat} (h : w / 2 % 64 = 0x1c) : rowOf w = rowOrder w := by rw [rowOf, h]; rfl
theorem rowOf_lattice {w : Nat} (h : w / 2 % 64 = 0x1d) : rowOf w = rowLattice w := by rw [rowOf, h]; rfl
theorem rowOf_copy {w : Nat} (h : w / 2 % 64 = 0x1f) : rowOf w = rowCopy w := by rw [rowOf, h]; rfl
theorem rowOf_apnd {w : Nat} (h : w / 2 % 64 = 0x20) : rowOf w = rowApnd w := by rw [rowOf, h]; rfl
theorem rowOf_net {w : Nat} (h : w / 2 % 64 = 0x21) : rowOf w = rowNet w := by rw [rowOf, h]; rfl
theorem rowOf_wait {w : Nat} (h : w / 2 % 64 = 0x22) : rowOf w = rowWait w := by rw [rowOf, h]; rfl
theorem rowOf_waitmGset {w : Nat} (h : w / 2 % 64 = 0x23) : rowOf w = rowWaitmGset w := by rw [rowOf, h]; rfl
theorem rowOf_sync {w : Nat} (h : w / 2 % 64 = 0x24) : rowOf w = rowSync w := by rw [rowOf, h]; rfl
theorem rowOf_system {w : Nat} (h : w / 2 % 64 = 0x25) : rowOf w = rowSystem w := by rw [rowOf, h]; rfl
theorem rowOf_strm {w : Nat} (h : w / 2 % 64 = 0x1e) (ho : w / 0x20000000 % 8 = 1) : rowOf w = rowStrm w := by rw [rowOf, h]; exact if_pos ho
theorem rowOf_queue {w : Nat} (h : w / 2 % 64 = 0x1e) (ho : w / 0x20000000 % 8 ≠ 1) : rowOf w = rowQueue w := by rw [rowOf, h]; exact if_neg ho

end Sys2Proof

/-!
# Every well-formed instruction is decoded from its word (R79, R81, R82, R85, R86, R89)
-/
namespace Sys2Proof
open Sys2Proof.Claims

/-! ## Instructions whose operands reach into the bits that a table reads -/

/-- The low bits of `LEA`'s sub-op hold its shift. -/
theorem lea_listed (k c : BitVec 2) (b a d : BitVec 6) : Listed (.lea k c b a d) := by
  refine .of_table [(7, 6), (13, 6), (19, 6), (25, 2), (27, 2)] [⟨7, _, d⟩, ⟨13, _, a⟩, ⟨19, _, b⟩, ⟨25, _, c⟩, ⟨27, _, k⟩] rfl rfl rowOf_ialuR
    (cl := none) (z := 0) (f := 0) (t := 0) (fun v h => ?_) (by decide)
  obtain ⟨rfl, rfl, rfl, rfl, rfl, -⟩ := h.operands
  have h3 : v / 0x20000000 % 8 = 4 := h.op3 (by decide)
  have hop : v / 0x8000000 % 32 = 16 ∨ v / 0x8000000 % 32 = 17 ∨ v / 0x8000000 % 32 = 18 ∨ v / 0x8000000 % 32 = 19 := by omega
  unfold rowIaluR
  rcases hop with hop | hop | hop | hop <;> (rw [hop]; rfl)

/-- The low bits of `SEL`'s sub-op name its predicate. -/
theorem sel_listed (k : BitVec 3) (c : BitVec 2) (b a d : BitVec 6) : Listed (.sel k c b a d) := by
  refine .of_table [(7, 6), (13, 6), (19, 6), (25, 2), (27, 3)] [⟨7, _, d⟩, ⟨13, _, a⟩, ⟨19, _, b⟩, ⟨25, _, c⟩, ⟨27, _, k⟩] rfl rfl rowOf_move
    (cl := none) (z := 0) (f := 0) (t := 0) (fun v h => ?_) (by decide)
  obtain ⟨rfl, rfl, rfl, rfl, rfl, -⟩ := h.operands
  have h3 : v / 0x40000000 % 4 = 1 := h.field 30 2 (by decide)
  have hop : v / 0x8000000 % 32 = 8 ∨ v / 0x8000000 % 32 = 9 ∨ v / 0x8000000 % 32 = 10 ∨ v / 0x8000000 % 32 = 11 ∨
      v / 0x8000000 % 32 = 12 ∨ v / 0x8000000 % 32 = 13 ∨ v / 0x8000000 % 32 = 14 ∨ v / 0x8000000 % 32 = 15 := by omega
  unfold rowMove
  rcases hop with hop | hop | hop | hop | hop | hop | hop | hop <;> (rw [hop]; rfl)

/-- The row of `WRSR` names its instruction by the special register (R423). -/
theorem rowMove_wrsr {v : Nat} (ho : v / 0x8000000 % 32 = 3) :
    rowMove v = some ⟨wrsrOf (v / 0x80 % 64) (BitVec.ofNat 6 (v / 0x2000)), some [2], 0x1f80000, 0x0, 0x0⟩ := by
  rw [rowMove, ho]
  rfl

/-- `WRSR` of a special register that has no row of its own. -/
theorem wrsr_listed (a n : BitVec 6) (hw : (Instr.wrsr a n).wf = true) : Listed (.wrsr a n) := by
  have hne : n.toNat ≠ 0x0A ∧ n.toNat ≠ 0x18 ∧ n.toNat ≠ 0x19 := by
    have hf : (decide (n.toNat < 0x20) && n != 0x0A && n != 0x18 && n != 0x19) = true := (Bool.and_eq_true_iff.1 hw).2
    clear * - hf
    revert hf n
    decide
  clear hw
  refine .of_table [(7, 6), (13, 6)] [⟨7, _, n⟩, ⟨13, _, a⟩] rfl rfl rowOf_move (cl := some [2]) (z := 0x1f80000) (f := 0) (t := 0)
    (fun v h => ?_) (by decide)
  obtain ⟨hn, rfl, -⟩ := h.operands
  have hv : v / 0x80 % 64 = n.toNat := by rw [← hn, BitVec.toNat_ofNat]; rfl
  have hwr : wrsrOf n.toNat (BitVec.ofNat 6 (v / 0x2000)) = .wrsr (BitVec.ofNat 6 (v / 0x2000)) n := by simp [wrsrOf, hne]
  rw [rowMove_wrsr (h.op5 (by decide)), hv, hwr]
  rfl

theorem wrsrRbase_listed (a : BitVec 6) : Listed (.wrsrRbase a) :=
  .of_table [(13, 6)] [⟨13, _, a⟩] rfl rfl rowOf_move (fun v h => by
    obtain ⟨rfl, -⟩ := h.operands
    rw [rowMove_wrsr (h.op5 (by decide)), show v / 0x80 % 64 = 0x0A from h.field 7 6 (by decide)]
    rfl) (by decide)

theorem wrsrUivec_listed (a : BitVec 6) : Listed (.wrsrUivec a) :=
  .of_table [(13, 6)] [⟨13, _, a⟩] rfl rfl rowOf_move (fun v h => by
    obtain ⟨rfl, -⟩ := h.operands
    rw [rowMove_wrsr (h.op5 (by decide)), show v / 0x80 % 64 = 0x18 from h.field 7 6 (by decide)]
    rfl) (by decide)

theorem wrsrUipend_listed (a : BitVec 6) : Listed (.wrsrUipend a) :=
  .of_table [(13, 6)] [⟨13, _, a⟩] rfl rfl rowOf_move (fun v h => by
    obtain ⟨rfl, -⟩ := h.operands
    rw [rowMove_wrsr (h.op5 (by decide)), show v / 0x80 % 64 = 0x19 from h.field 7 6 (by decide)]
    rfl) (by decide)

/-- The row of `SHFL` accepts classes 0 and 1: the high bit of its class is fixed. -/
theorem Reads.meets_low {i : Instr} {k v : Nat} {ps : List (Nat × Nat)} {os : List Operand} (h : Reads k ps os v)
    (hk : free 0x4000000 ps = true ∧ k / 0x4000000 % 2 = 0) : Row.Meets ⟨i, some [0, 1], 0x0, 0x0, 0x0⟩ v := by
  have hc : v / 0x2000000 % 4 = 0 ∨ v / 0x2000000 % 4 = 1 := by
    have : v / 0x4000000 % 2 = 0 := (h.field 26 1 hk.1).trans hk.2
    omega
  refine ⟨?_, Nat.and_zero v, Nat.and_zero v⟩
  show [0, 1].contains (v / 0x2000000 % 4) = true
  rcases hc with hc | hc <;> (rw [hc]; rfl)

/-- Words of `SHFL` (R82). -/
theorem shfl_listed (c : BitVec 1) (b a d : BitVec 6) :
    ∀ j ∈ [Instr.shflGet c b a d, .shflSlide c b a d, .shflRot c b a d, .shflXor c b a d], Listed j := by
  simp only [List.forall_mem_cons, List.not_mem_nil, false_implies, implies_true, and_true]
  and_intros
  all_goals
    exact .of_packed [(7, 6), (13, 6), (19, 6), (25, 1)] [⟨7, _, d⟩, ⟨13, _, a⟩, ⟨19, _, b⟩, ⟨25, _, c⟩] rfl rfl (fun v h => by
      have hm := h.major (by decide)
      obtain ⟨rfl, rfl, rfl, rfl, -⟩ := h.operands
      exact ⟨subReserved_of_major hm (by decide), _, (rowOf_lane hm).trans (by rw [rowLane, h.op5 (by decide)]; rfl), rfl,
        h.meets_low (by decide)⟩) (by decide)

/-! The stream and queue tables share a major (R85). -/

theorem strm_listed (g : BitVec 4) (t c q : BitVec 6) : Listed (.strm g t c q) :=
  .of_packed [(7, 6), (13, 6), (19, 6), (25, 4)] [⟨7, _, q⟩, ⟨13, _, c⟩, ⟨19, _, t⟩, ⟨25, _, g⟩] rfl rfl (fun v h => by
    have hm := h.major (by decide)
    have ho := h.op3 (by decide)
    obtain ⟨rfl, rfl, rfl, rfl, -⟩ := h.operands
    exact ⟨by rw [subReserved, hm, ho]; rfl, _, rowOf_strm hm ho, rfl, h.meets (by decide)⟩) (by decide)

theorem qcfgLoop_listed (i a : BitVec 6) (q : BitVec 4) : Listed (.qcfgLoop i a q) :=
  .of_packed [(7, 4), (13, 6), (23, 6)] [⟨7, _, q⟩, ⟨13, _, a⟩, ⟨23, _, i⟩] rfl rfl (fun v h => by
    have hm := h.major (by decide)
    have ho := h.op3 (by decide)
    obtain ⟨rfl, rfl, rfl, -⟩ := h.operands
    exact ⟨by rw [subReserved, hm, ho]; rfl, _,
      (rowOf_queue hm (by rw [ho]; decide)).trans (by rw [rowQueue, h.op3i (by decide)]; rfl), rfl, h.meets (by decide)⟩) (by decide)

theorem qcfgStrm_listed (a : BitVec 6) (q : BitVec 4) : Listed (.qcfgStrm a q) :=
  .of_packed [(7, 4), (13, 6)] [⟨7, _, q⟩, ⟨13, _, a⟩] rfl rfl (fun v h => by
    have hm := h.major (by decide)
    have ho := h.op3 (by decide)
    obtain ⟨rfl, rfl, -⟩ := h.operands
    exact ⟨by rw [subReserved, hm, ho]; rfl, _,
      (rowOf_queue hm (by rw [ho]; decide)).trans (by rw [rowQueue, h.op3i (by decide)]; rfl), rfl, h.meets (by decide)⟩) (by decide)

theorem qcfgOff_listed (q : BitVec 4) : Listed (.qcfgOff q) :=
  .of_packed [(7, 4)] [⟨7, _, q⟩] rfl rfl (fun v h => by
    have hm := h.major (by decide)
    have ho := h.op3 (by decide)
    obtain ⟨rfl, -⟩ := h.operands
    exact ⟨by rw [subReserved, hm, ho]; rfl, _,
      (rowOf_queue hm (by rw [ho]; decide)).trans (by rw [rowQueue, h.op3i (by decide)]; rfl), rfl, h.meets (by decide)⟩) (by decide)

/-! ## Layouts whose operands leave all of these bits free (R82, R86)

What is asked of the fixed bits is closed; for a list of instructions the kernel alone evaluates it, once for each. -/

theorem ialuR_listed (c : BitVec 2) (b a d : BitVec 6) :
    ∀ j ∈ [Instr.iaddR c b a d, .isubR c b a d, .imulR c b a d, .imulhS c b a d, .imulhU c b a d, .imad c b a d, .iminSR c b a d,
      .iminUR c b a d, .imaxSR c b a d, .imaxUR c b a d, .iaddc c b a d, .isubb c b a d], Listed j := by
  simp only [List.forall_mem_cons, List.not_mem_nil, false_implies, implies_true, and_true]
  and_intros
  all_goals
    exact .of_table [(7, 6), (13, 6), (19, 6), (25, 2)] [⟨7, _, d⟩, ⟨13, _, a⟩, ⟨19, _, b⟩, ⟨25, _, c⟩] rfl rfl rowOf_ialuR (fun v h => by
      obtain ⟨rfl, rfl, rfl, rfl, -⟩ := h.operands
      rw [rowIaluR, h.op5 (by decide)]
      rfl) (by decide +kernel)

theorem iabs_listed (c : BitVec 2) (a d : BitVec 6) : Listed (.iabs c a d) :=
  .of_table [(7, 6), (13, 6), (25, 2)] [⟨7, _, d⟩, ⟨13, _, a⟩, ⟨25, _, c⟩] rfl rfl rowOf_ialuR (fun v h => by
    obtain ⟨rfl, rfl, rfl, -⟩ := h.operands
    rw [rowIaluR, h.op5 (by decide)]
    rfl) (by decide)

theorem ialuI_listed (i : BitVec 9) (u : BitVec 1) (a d : BitVec 6) :
    ∀ j ∈ [Instr.iaddI i u a d, .imulI i u a d, .iminSI i u a d, .imaxSI i u a d, .iminUI i u a d, .imaxUI i u a d], Listed j := by
  simp only [List.forall_mem_cons, List.not_mem_nil, false_implies, implies_true, and_true]
  and_intros
  all_goals
    exact .of_table [(7, 6), (13, 6), (22, 1), (23, 9)] [⟨7, _, d⟩, ⟨13, _, a⟩, ⟨22, _, u⟩, ⟨23, _, i⟩] rfl rfl rowOf_ialuI (fun v h => by
      obtain ⟨rfl, rfl, rfl, rfl, -⟩ := h.operands
      rw [rowIaluI, h.op3i (by decide)]
      rfl) (by decide +kernel)

theorem logicR_listed (c : BitVec 2) (b a d : BitVec 6) :
    ∀ j ∈ [Instr.andR c b a d, .orR c b a d, .xorR c b a d, .andn c b a d, .shlR c b a d, .shrR c b a d, .sarR c b a d,
      .fshl c b a d, .fshr c b a d, .prmt c b a d], Listed j := by
  simp only [List.forall_mem_cons, List.not_mem_nil, false_implies, implies_true, and_true]
  and_intros
  all_goals
    exact .of_table [(7, 6), (13, 6), (19, 6), (25, 2)] [⟨7, _, d⟩, ⟨13, _, a⟩, ⟨19, _, b⟩, ⟨25, _, c⟩] rfl rfl rowOf_logicR (fun v h => by
      obtain ⟨rfl, rfl, rfl, rfl, -⟩ := h.operands
      rw [rowLogicR, h.op5 (by decide)]
      rfl) (by decide +kernel)

theorem logicUnary_listed (c : BitVec 2) (a d : BitVec 6) :
    ∀ j ∈ [Instr.popc c a d, .clz c a d, .ctz c a d, .brev c a d], Listed j := by
  simp only [List.forall_mem_cons, List.not_mem_nil, false_implies, implies_true, and_true]
  and_intros
  all_goals
    exact .of_table [(7, 6), (13, 6), (25, 2)] [⟨7, _, d⟩, ⟨13, _, a⟩, ⟨25, _, c⟩] rfl rfl rowOf_logicR (fun v h => by
      obtain ⟨rfl, rfl, rfl, -⟩ := h.operands
      rw [rowLogicR, h.op5 (by decide)]
      rfl) (by decide +kernel)

theorem logicI_listed (i : BitVec 9) (u : BitVec 1) (a d : BitVec 6) :
    ∀ j ∈ [Instr.andI i u a d, .orI i u a d, .xorI i u a d, .shlI i u a d, .shrI i u a d, .sarI i u a d], Listed j := by
  simp only [List.forall_mem_cons, List.not_mem_nil, false_implies, implies_true, and_true]
  and_intros
  all_goals
    exact .of_table [(7, 6), (13, 6), (22, 1), (23, 9)] [⟨7, _, d⟩, ⟨13, _, a⟩, ⟨22, _, u⟩, ⟨23, _, i⟩] rfl rfl rowOf_logicI (fun v h => by
      obtain ⟨rfl, rfl, rfl, rfl, -⟩ := h.operands
      rw [rowLogicI, h.op3i (by decide)]
      rfl) (by decide +kernel)

theorem bfx_listed (s : BitVec 1) (l p a d : BitVec 6) : Listed (.bfx s l p a d) :=
  .of_table [(7, 6), (13, 6), (19, 6), (25, 6), (31, 1)] [⟨7, _, d⟩, ⟨13, _, a⟩, ⟨19, _, p⟩, ⟨25, _, l⟩, ⟨31, _, s⟩] rfl rfl rowOf_bfx (fun v h => by
    obtain ⟨rfl, rfl, rfl, rfl, rfl, -⟩ := h.operands
    rfl) (by decide)

theorem bfi_listed (l p a d : BitVec 6) : Listed (.bfi l p a d) :=
  .of_table [(7, 6), (13, 6), (19, 6), (25, 6)] [⟨7, _, d⟩, ⟨13, _, a⟩, ⟨19, _, p⟩, ⟨25, _, l⟩] rfl rfl rowOf_bfi (fun v h => by
    obtain ⟨rfl, rfl, rfl, rfl, -⟩ := h.operands
    rfl) (by decide)

theorem compare_listed (c : BitVec 2) (b a : BitVec 6) (n p : BitVec 3) :
    ∀ j ∈ [Instr.icmpS c b a n p, .icmpU c b a n p, .fcmpF32 c b a n p, .fcmpF64 c b a n p, .fcmpF16 c b a n p,
      .fcmpBf16 c b a n p], Listed j := by
  simp only [List.forall_mem_cons, List.not_mem_nil, false_implies, implies_true, and_true]
  and_intros
  all_goals
    exact .of_table [(7, 3), (10, 3), (13, 6), (19, 6), (25, 2)]
      [⟨7, _, p⟩, ⟨10, _, n⟩, ⟨13, _, a⟩, ⟨19, _, b⟩, ⟨25, _, c⟩] rfl rfl rowOf_cmp (fun v h => by
      obtain ⟨rfl, rfl, rfl, rfl, rfl, -⟩ := h.operands
      rw [rowCmp, h.op5 (by decide)]
      rfl) (by decide +kernel)

theorem plog_listed (b a o d : BitVec 3) : Listed (.plog b a o d) :=
  .of_table [(7, 3), (10, 3), (13, 3), (19, 3)] [⟨7, _, d⟩, ⟨10, _, o⟩, ⟨13, _, a⟩, ⟨19, _, b⟩] rfl rfl rowOf_cmp (fun v h => by
    obtain ⟨rfl, rfl, rfl, rfl, -⟩ := h.operands
    rw [rowCmp, h.op5 (by decide)]
    rfl) (by decide)

theorem move_listed (c : BitVec 2) (a d : BitVec 6) :
    ∀ j ∈ [Instr.movR c a d, .unpk c a d], Listed j := by
  simp only [List.forall_mem_cons, List.not_mem_nil, false_implies, implies_true, and_true]
  and_intros
  all_goals
    exact .of_table [(7, 6), (13, 6), (25, 2)] [⟨7, _, d⟩, ⟨13, _, a⟩, ⟨25, _, c⟩] rfl rfl rowOf_move (fun v h => by
      obtain ⟨rfl, rfl, rfl, -⟩ := h.operands
      rw [rowMove, h.op5 (by decide)]
      rfl) (by decide)

theorem rdsr_listed (c : BitVec 2) (n d : BitVec 6) : Listed (.rdsr c n d) :=
  .of_table [(7, 6), (13, 6), (25, 2)] [⟨7, _, d⟩, ⟨13, _, n⟩, ⟨25, _, c⟩] rfl rfl rowOf_move (fun v h => by
    obtain ⟨rfl, rfl, rfl, -⟩ := h.operands
    rw [rowMove, h.op5 (by decide)]
    rfl) (by decide)

theorem pack2_listed (c : BitVec 2) (b a d : BitVec 6) : Listed (.pack2 c b a d) :=
  .of_table [(7, 6), (13, 6), (19, 6), (25, 2)] [⟨7, _, d⟩, ⟨13, _, a⟩, ⟨19, _, b⟩, ⟨25, _, c⟩] rfl rfl rowOf_move (fun v h => by
    obtain ⟨rfl, rfl, rfl, rfl, -⟩ := h.operands
    rw [rowMove, h.op5 (by decide)]
    rfl) (by decide)

theorem movi_listed (i : BitVec 18) (u : BitVec 1) (d : BitVec 6) : Listed (.movi i u d) :=
  .of_table [(7, 6), (13, 1), (14, 18)] [⟨7, _, d⟩, ⟨13, _, u⟩, ⟨14, _, i⟩] rfl rfl rowOf_movi (fun v h => by
    obtain ⟨rfl, rfl, rfl, -⟩ := h.operands
    rfl) (by decide)

theorem movh_listed (i : BitVec 18) (u : BitVec 1) (d : BitVec 6) : Listed (.movh i u d) :=
  .of_table [(7, 6), (13, 1), (14, 18)] [⟨7, _, d⟩, ⟨13, _, u⟩, ⟨14, _, i⟩] rfl rfl rowOf_movh (fun v h => by
    obtain ⟨rfl, rfl, rfl, -⟩ := h.operands
    rfl) (by decide)

theorem fpR_listed (t c : BitVec 2) (b a d : BitVec 6) :
    ∀ j ∈ [Instr.fadd t c b a d, .fsub t c b a d, .fmul t c b a d, .ffma t c b a d, .fmin t c b a d, .fmax t c b a d], Listed j := by
  simp only [List.forall_mem_cons, List.not_mem_nil, false_implies, implies_true, and_true]
  and_intros
  all_goals
    exact .of_table [(7, 6), (13, 6), (19, 6), (25, 2), (27, 2)]
      [⟨7, _, d⟩, ⟨13, _, a⟩, ⟨19, _, b⟩, ⟨25, _, c⟩, ⟨27, _, t⟩] rfl rfl rowOf_fpR (fun v h => by
      obtain ⟨rfl, rfl, rfl, rfl, rfl, -⟩ := h.operands
      rw [rowFpR, h.op3 (by decide)]
      rfl) (by decide +kernel)

theorem fpS_listed (t c : BitVec 2) (a d : BitVec 6) :
    ∀ j ∈ [Instr.frcp t c a d, .frsq t c a d, .fsqrt t c a d, .fex2 t c a d, .flg2 t c a d, .fsin t c a d, .fcos t c a d,
      .fcls t c a d], Listed j := by
  simp only [List.forall_mem_cons, List.not_mem_nil, false_implies, implies_true, and_true]
  and_intros
  all_goals
    exact .of_table [(7, 6), (13, 6), (25, 2), (30, 2)] [⟨7, _, d⟩, ⟨13, _, a⟩, ⟨25, _, c⟩, ⟨30, _, t⟩] rfl rfl rowOf_fpS (fun v h => by
      obtain ⟨rfl, rfl, rfl, rfl, -⟩ := h.operands
      rw [rowFpS, h.op3s (by decide)]
      rfl) (by decide +kernel)

theorem cvt_listed (s : BitVec 1) (r : BitVec 2) (f m : BitVec 4) (a d : BitVec 6) : Listed (.cvt s r f m a d) :=
  .of_table [(7, 6), (13, 6), (19, 4), (25, 4), (29, 2), (31, 1)]
    [⟨7, _, d⟩, ⟨13, _, a⟩, ⟨19, _, m⟩, ⟨25, _, f⟩, ⟨29, _, r⟩, ⟨31, _, s⟩] rfl rfl rowOf_cvt (fun v h => by
    obtain ⟨rfl, rfl, rfl, rfl, rfl, rfl, -⟩ := h.operands
    rfl) (by decide)

theorem qnt_listed (s : BitVec 1) (r : BitVec 2) (f : BitVec 4) (b a d : BitVec 6) : Listed (.qnt s r f b a d) :=
  .of_table [(7, 6), (13, 6), (19, 6), (25, 4), (29, 2), (31, 1)]
    [⟨7, _, d⟩, ⟨13, _, a⟩, ⟨19, _, b⟩, ⟨25, _, f⟩, ⟨29, _, r⟩, ⟨31, _, s⟩] rfl rfl rowOf_qnt (fun v h => by
    obtain ⟨rfl, rfl, rfl, rfl, rfl, rfl, -⟩ := h.operands
    rfl) (by decide)

theorem deq_listed (f : BitVec 4) (b a d : BitVec 6) : Listed (.deq f b a d) :=
  .of_table [(7, 6), (13, 6), (19, 6), (25, 4)] [⟨7, _, d⟩, ⟨13, _, a⟩, ⟨19, _, b⟩, ⟨25, _, f⟩] rfl rfl rowOf_deq (fun v h => by
    obtain ⟨rfl, rfl, rfl, rfl, -⟩ := h.operands
    rfl) (by decide)

theorem lbc_listed (b a d : BitVec 6) : Listed (.lbc b a d) :=
  .of_table [(7, 6), (13, 6), (19, 6)] [⟨7, _, d⟩, ⟨13, _, a⟩, ⟨19, _, b⟩] rfl rfl rowOf_lane (fun v h => by
    obtain ⟨rfl, rfl, rfl, -⟩ := h.operands
    rw [rowLane, h.op5 (by decide)]
    rfl) (by decide)

theorem lane_listed (a d : BitVec 6) :
    ∀ j ∈ [Instr.rfa a d, .redxAdd a d, .redxMin a d, .redxMax a d, .redxFadd a d, .scanAdd a d, .scanAddx a d, .matchLanes a d], Listed j := by
  simp only [List.forall_mem_cons, List.not_mem_nil, false_implies, implies_true, and_true]
  and_intros
  all_goals
    exact .of_table [(7, 6), (13, 6)] [⟨7, _, d⟩, ⟨13, _, a⟩] rfl rfl rowOf_lane (fun v h => by
      obtain ⟨rfl, rfl, -⟩ := h.operands
      rw [rowLane, h.op5 (by decide)]
      rfl) (by decide +kernel)

theorem vote_listed (k : BitVec 3) (d : BitVec 6) :
    ∀ j ∈ [Instr.voteAll k d, .voteAny k d, .voteBallot k d], Listed j := by
  simp only [List.forall_mem_cons, List.not_mem_nil, false_implies, implies_true, and_true]
  and_intros
  all_goals
    exact .of_table [(7, 6), (13, 3)] [⟨7, _, d⟩, ⟨13, _, k⟩] rfl rfl rowOf_lane (fun v h => by
      obtain ⟨rfl, rfl, -⟩ := h.operands
      rw [rowLane, h.op5 (by decide)]
      rfl) (by decide)

theorem split_listed (w : BitVec 2) : Listed (.split w) :=
  .of_table [(19, 2)] [⟨19, _, w⟩] rfl rfl rowOf_floe (fun v h => by
    obtain ⟨rfl, -⟩ := h.operands
    rw [rowFloe, h.op5 (by decide)]
    rfl) (by decide)

theorem fuse_listed (d : BitVec 6) : Listed (.fuse d) :=
  .of_table [(7, 6)] [⟨7, _, d⟩] rfl rfl rowOf_floe (fun v h => by
    obtain ⟨rfl, -⟩ := h.operands
    rw [rowFloe, h.op5 (by decide)]
    rfl) (by decide)

theorem bra_listed (o : BitVec 19) :
    ∀ j ∈ [Instr.bra o, .callRel o], Listed j := by
  simp only [List.forall_mem_cons, List.not_mem_nil, false_implies, implies_true, and_true]
  and_intros
  all_goals
    exact .of_table [(13, 19)] [⟨13, _, o⟩] rfl rfl rowOf_bra (fun v h => by
      obtain ⟨rfl, -⟩ := h.operands
      rw [rowBra, h.link (by decide)]
      rfl) (by decide)

theorem brc_listed (o : BitVec 19) (h n : BitVec 1) (p : BitVec 3) : Listed (.brc o h n p) :=
  .of_table [(7, 3), (10, 1), (12, 1), (13, 19)] [⟨7, _, p⟩, ⟨10, _, n⟩, ⟨12, _, h⟩, ⟨13, _, o⟩] rfl rfl rowOf_brc (fun v h => by
    obtain ⟨rfl, rfl, rfl, rfl, -⟩ := h.operands
    rfl) (by decide)

theorem jump_listed (a : BitVec 6) :
    ∀ j ∈ [Instr.brx a, .callReg a], Listed j := by
  simp only [List.forall_mem_cons, List.not_mem_nil, false_implies, implies_true, and_true]
  and_intros
  all_goals
    exact .of_table [(13, 6)] [⟨13, _, a⟩] rfl rfl rowOf_jump (fun v h => by
      obtain ⟨rfl, -⟩ := h.operands
      rw [rowJump, h.op5 (by decide)]
      rfl) (by decide)

theorem jseg_listed (l : BitVec 1) (o : BitVec 11) (s : BitVec 6) : Listed (.jseg l o s) :=
  .of_table [(7, 6), (13, 11), (24, 1)] [⟨7, _, s⟩, ⟨13, _, o⟩, ⟨24, _, l⟩] rfl rfl rowOf_jseg (fun v h => by
    obtain ⟨rfl, rfl, rfl, -⟩ := h.operands
    rfl) (by decide)

theorem cfetch_listed (g : BitVec 4) (t c q : BitVec 6) : Listed (.cfetch g t c q) :=
  .of_table [(7, 6), (13, 6), (19, 6), (25, 4)] [⟨7, _, q⟩, ⟨13, _, c⟩, ⟨19, _, t⟩, ⟨25, _, g⟩] rfl rfl rowOf_cfetch (fun v h => by
    obtain ⟨rfl, rfl, rfl, rfl, -⟩ := h.operands
    rw [rowCfetch, h.op3 (by decide)]
    rfl) (by decide)

theorem ld_listed (z : BitVec 3) (u : BitVec 1) (i b d : BitVec 6) :
    ∀ j ∈ [Instr.ld z u i b d, .ldNa z u i b d, .ldAcqBlk z u i b d, .ldAcqDie z u i b d, .ldAcqPkg z u i b d, .ldAcqSys z u i b d], Listed j := by
  simp only [List.forall_mem_cons, List.not_mem_nil, false_implies, implies_true, and_true]
  and_intros
  all_goals
    exact .of_table [(7, 6), (13, 6), (19, 6), (25, 1), (26, 3)]
      [⟨7, _, d⟩, ⟨13, _, b⟩, ⟨19, _, i⟩, ⟨25, _, u⟩, ⟨26, _, z⟩] rfl rfl rowOf_ld (fun v h => by
      obtain ⟨rfl, rfl, rfl, rfl, rfl, -⟩ := h.operands
      rw [rowLd, h.op3 (by decide)]
      rfl) (by decide +kernel)

theorem st_listed (z : BitVec 3) (u : BitVec 1) (i b d : BitVec 6) :
    ∀ j ∈ [Instr.st z u i b d, .stNa z u i b d, .stRelBlk z u i b d, .stRelDie z u i b d, .stRelPkg z u i b d, .stRelSys z u i b d], Listed j := by
  simp only [List.forall_mem_cons, List.not_mem_nil, false_implies, implies_true, and_true]
  and_intros
  all_goals
    exact .of_table [(7, 6), (13, 6), (19, 6), (25, 1), (26, 3)]
      [⟨7, _, d⟩, ⟨13, _, b⟩, ⟨19, _, i⟩, ⟨25, _, u⟩, ⟨26, _, z⟩] rfl rfl rowOf_st (fun v h => by
      obtain ⟨rfl, rfl, rfl, rfl, rfl, -⟩ := h.operands
      rw [rowSt, h.op3 (by decide)]
      rfl) (by decide +kernel)

theorem stn_listed (i b d : BitVec 6) : Listed (.stn i b d) :=
  .of_table [(7, 6), (13, 6), (19, 6)] [⟨7, _, d⟩, ⟨13, _, b⟩, ⟨19, _, i⟩] rfl rfl rowOf_st (fun v h => by
    obtain ⟨rfl, rfl, rfl, -⟩ := h.operands
    rw [rowSt, h.op3 (by decide)]
    rfl) (by decide)

theorem scratchpad_listed (z : BitVec 3) (u : BitVec 1) (i b d : BitVec 6) :
    ∀ j ∈ [Instr.lds z u i b d, .sts z u i b d], Listed j := by
  simp only [List.forall_mem_cons, List.not_mem_nil, false_implies, implies_true, and_true]
  and_intros
  all_goals
    exact .of_table [(7, 6), (13, 6), (19, 6), (25, 1), (26, 3)]
      [⟨7, _, d⟩, ⟨13, _, b⟩, ⟨19, _, i⟩, ⟨25, _, u⟩, ⟨26, _, z⟩] rfl rfl rowOf_local (fun v h => by
      obtain ⟨rfl, rfl, rfl, rfl, rfl, -⟩ := h.operands
      rw [rowLocal, h.op3 (by decide)]
      rfl) (by decide)

theorem fullEmpty_listed (z : BitVec 3) (i b d : BitVec 6) :
    ∀ j ∈ [Instr.ldfeKeep z i b d, .ldfeClr z i b d, .stfe z i b d, .stfeWe z i b d], Listed j := by
  simp only [List.forall_mem_cons, List.not_mem_nil, false_implies, implies_true, and_true]
  and_intros
  all_goals
    exact .of_table [(7, 6), (13, 6), (19, 6), (26, 3)] [⟨7, _, d⟩, ⟨13, _, b⟩, ⟨19, _, i⟩, ⟨26, _, z⟩] rfl rfl rowOf_local (fun v h => by
      obtain ⟨rfl, rfl, rfl, rfl, -⟩ := h.operands
      rw [rowLocal, h.op3 (by decide)]
      rfl) (by decide +kernel)

theorem atom_listed (s : BitVec 2) (w : BitVec 1) (i b d : BitVec 6) :
    ∀ j ∈ [Instr.atomAdd s w i b d, .atomMins s w i b d, .atomMaxs s w i b d, .atomMinu s w i b d, .atomMaxu s w i b d,
      .atomAnd s w i b d, .atomOr s w i b d, .atomXor s w i b d, .atomExch s w i b d, .atomCas s w i b d, .atomFadd s w i b d,
      .atomFmin s w i b d, .atomFmax s w i b d], Listed j := by
  simp only [List.forall_mem_cons, List.not_mem_nil, false_implies, implies_true, and_true]
  and_intros
  all_goals
    exact .of_packed [(7, 6), (13, 6), (19, 6), (25, 1), (26, 2)] [⟨7, _, d⟩, ⟨13, _, b⟩, ⟨19, _, i⟩, ⟨25, _, w⟩, ⟨26, _, s⟩] rfl rfl (fun v h => by
      have hm := h.major (by decide)
      have ho := h.op4 (by decide)
      obtain ⟨rfl, rfl, rfl, rfl, rfl, -⟩ := h.operands
      exact ⟨by rw [subReserved, hm, ho]; rfl, _, (rowOf_atom hm).trans (by rw [rowAtom, ho]; rfl), rfl, h.meets (by decide)⟩) (by decide +kernel)

theorem red_listed (s : BitVec 2) (w : BitVec 1) (i b d : BitVec 6) :
    ∀ j ∈ [Instr.redAdd s w i b d, .redMins s w i b d, .redMaxs s w i b d, .redMinu s w i b d, .redMaxu s w i b d,
      .redAnd s w i b d, .redOr s w i b d, .redXor s w i b d, .redFadd s w i b d, .redFmin s w i b d, .redFmax s w i b d], Listed j := by
  simp only [List.forall_mem_cons, List.not_mem_nil, false_implies, implies_true, and_true]
  and_intros
  all_goals
    exact .of_packed [(7, 6), (13, 6), (19, 6), (25, 1), (26, 2)] [⟨7, _, d⟩, ⟨13, _, b⟩, ⟨19, _, i⟩, ⟨25, _, w⟩, ⟨26, _, s⟩] rfl rfl (fun v h => by
      have hm := h.major (by decide)
      have ho := h.op4 (by decide)
      obtain ⟨rfl, rfl, rfl, rfl, rfl, -⟩ := h.operands
      exact ⟨by rw [subReserved, hm, ho]; rfl, _, (rowOf_red hm).trans (by rw [rowRed, ho]; rfl), rfl, h.meets (by decide)⟩) (by decide +kernel)

theorem fence_listed (s : BitVec 3) :
    ∀ j ∈ [Instr.fenceFull s, .fenceAcq s, .fenceRel s], Listed j := by
  simp only [List.forall_mem_cons, List.not_mem_nil, false_implies, implies_true, and_true]
  and_intros
  all_goals
    exact .of_table [(7, 3)] [⟨7, _, s⟩] rfl rfl rowOf_order (fun v h => by
      obtain ⟨rfl, -⟩ := h.operands
      rw [rowOrder, h.op3 (by decide)]
      rfl) (by decide)

theorem orderAddress_listed (i b : BitVec 6) :
    ∀ j ∈ [Instr.pref i b, .cacheWb i b, .cacheInv i b, .cacheWbinv i b], Listed j := by
  simp only [List.forall_mem_cons, List.not_mem_nil, false_implies, implies_true, and_true]
  and_intros
  all_goals
    exact .of_table [(13, 6), (19, 6)] [⟨13, _, b⟩, ⟨19, _, i⟩] rfl rfl rowOf_order (fun v h => by
      obtain ⟨rfl, rfl, -⟩ := h.operands
      rw [rowOrder, h.op3 (by decide)]
      rfl) (by decide +kernel)

theorem lattice_listed (z : BitVec 1) (i b d : BitVec 6) :
    ∀ j ∈ [Instr.ljoin z i b d, .ljoinStrict z i b d, .lldt z i b d, .lldtPoll z i b d], Listed j := by
  simp only [List.forall_mem_cons, List.not_mem_nil, false_implies, implies_true, and_true]
  and_intros
  all_goals
    exact .of_table [(7, 6), (13, 6), (19, 6), (26, 1)] [⟨7, _, d⟩, ⟨13, _, b⟩, ⟨19, _, i⟩, ⟨26, _, z⟩] rfl rfl rowOf_lattice (fun v h => by
      obtain ⟨rfl, rfl, rfl, rfl, -⟩ := h.operands
      rw [rowLattice, h.op3 (by decide)]
      rfl) (by decide +kernel)

theorem copy_listed (g : BitVec 4) (t c q : BitVec 6) :
    ∀ j ∈ [Instr.cpy g t c q, .gath g t c q, .scat g t c q, .cpyMx g t c q, .cpyUnmx g t c q], Listed j := by
  simp only [List.forall_mem_cons, List.not_mem_nil, false_implies, implies_true, and_true]
  and_intros
  all_goals
    exact .of_table [(7, 6), (13, 6), (19, 6), (25, 4)] [⟨7, _, q⟩, ⟨13, _, c⟩, ⟨19, _, t⟩, ⟨25, _, g⟩] rfl rfl rowOf_copy (fun v h => by
      obtain ⟨rfl, rfl, rfl, rfl, -⟩ := h.operands
      rw [rowCopy, h.op3 (by decide)]
      rfl) (by decide +kernel)

theorem apnd_listed (g : BitVec 4) (t c q : BitVec 6) :
    ∀ j ∈ [Instr.apnd g t c q, .apndDur g t c q, .apndSync g t c q], Listed j := by
  simp only [List.forall_mem_cons, List.not_mem_nil, false_implies, implies_true, and_true]
  and_intros
  all_goals
    exact .of_table [(7, 6), (13, 6), (19, 6), (25, 4)] [⟨7, _, q⟩, ⟨13, _, c⟩, ⟨19, _, t⟩, ⟨25, _, g⟩] rfl rfl rowOf_apnd (fun v h => by
      obtain ⟨rfl, rfl, rfl, rfl, -⟩ := h.operands
      rw [rowApnd, h.op3 (by decide)]
      rfl) (by decide)

theorem net_listed (g : BitVec 4) (t c q : BitVec 6) :
    ∀ j ∈ [Instr.send g t c q, .recv g t c q], Listed j := by
  simp only [List.forall_mem_cons, List.not_mem_nil, false_implies, implies_true, and_true]
  and_intros
  all_goals
    exact .of_table [(7, 6), (13, 6), (19, 6), (25, 4)] [⟨7, _, q⟩, ⟨13, _, c⟩, ⟨19, _, t⟩, ⟨25, _, g⟩] rfl rfl rowOf_net (fun v h => by
      obtain ⟨rfl, rfl, rfl, rfl, -⟩ := h.operands
      rw [rowNet, h.op3 (by decide)]
      rfl) (by decide)

theorem wait_listed (n t p : BitVec 4) (s l : BitVec 5) : Listed (.wait n t p s l) :=
  .of_table [(7, 5), (12, 5), (17, 4), (21, 4), (25, 4)] [⟨7, _, l⟩, ⟨12, _, s⟩, ⟨17, _, p⟩, ⟨21, _, t⟩, ⟨25, _, n⟩] rfl rfl rowOf_wait (fun v h => by
    obtain ⟨rfl, rfl, rfl, rfl, rfl, -⟩ := h.operands
    rfl) (by decide)

theorem waitm_listed (b a : BitVec 6) : Listed (.waitm b a) :=
  .of_table [(13, 6), (19, 6)] [⟨13, _, a⟩, ⟨19, _, b⟩] rfl rfl rowOf_waitmGset (fun v h => by
    obtain ⟨rfl, rfl, -⟩ := h.operands
    rw [rowWaitmGset, h.op5 (by decide)]
    rfl) (by decide)

theorem gset_listed (a : BitVec 6) (g : BitVec 3) : Listed (.gset a g) :=
  .of_table [(7, 3), (13, 6)] [⟨7, _, g⟩, ⟨13, _, a⟩] rfl rfl rowOf_waitmGset (fun v h => by
    obtain ⟨rfl, rfl, -⟩ := h.operands
    rw [rowWaitmGset, h.op5 (by decide)]
    rfl) (by decide)

theorem bar_listed (n : BitVec 4) :
    ∀ j ∈ [Instr.barArrive n, .barWait n, .barSync n], Listed j := by
  simp only [List.forall_mem_cons, List.not_mem_nil, false_implies, implies_true, and_true]
  and_intros
  all_goals
    exact .of_table [(7, 4)] [⟨7, _, n⟩] rfl rfl rowOf_sync (fun v h => by
      obtain ⟨rfl, -⟩ := h.operands
      rw [rowSync, h.op5 (by decide)]
      rfl) (by decide)

theorem cbar_listed (a : BitVec 6) : Listed (.cbar a) :=
  .of_table [(13, 6)] [⟨13, _, a⟩] rfl rfl rowOf_sync (fun v h => by
    obtain ⟨rfl, -⟩ := h.operands
    rw [rowSync, h.op5 (by decide)]
    rfl) (by decide)

theorem mfmt_listed (a : BitVec 6) (n : BitVec 4) : Listed (.mfmt a n) :=
  .of_table [(7, 4), (13, 6)] [⟨7, _, n⟩, ⟨13, _, a⟩] rfl rfl rowOf_sync (fun v h => by
    obtain ⟨rfl, rfl, -⟩ := h.operands
    rw [rowSync, h.op5 (by decide)]
    rfl) (by decide)

theorem mrun_listed (b a : BitVec 6) : Listed (.mrun b a) :=
  .of_table [(13, 6), (19, 6)] [⟨13, _, a⟩, ⟨19, _, b⟩] rfl rfl rowOf_sync (fun v h => by
    obtain ⟨rfl, rfl, -⟩ := h.operands
    rw [rowSync, h.op5 (by decide)]
    rfl) (by decide)

theorem sysc_listed (b a d : BitVec 6) : Listed (.sysc b a d) :=
  .of_table [(7, 6), (13, 6), (19, 6)] [⟨7, _, d⟩, ⟨13, _, a⟩, ⟨19, _, b⟩] rfl rfl rowOf_system (fun v h => by
    obtain ⟨rfl, rfl, rfl, -⟩ := h.operands
    rw [rowSystem, h.op5 (by decide)]
    rfl) (by decide)

theorem trap_listed (c : BitVec 18) : Listed (.trap c) :=
  .of_table [(7, 18)] [⟨7, _, c⟩] rfl rfl rowOf_system (fun v h => by
    obtain ⟨rfl, -⟩ := h.operands
    rw [rowSystem, h.op5 (by decide)]
    rfl) (by decide)

theorem uimask_listed (a d : BitVec 6) : Listed (.uimask a d) :=
  .of_table [(7, 6), (13, 6)] [⟨7, _, d⟩, ⟨13, _, a⟩] rfl rfl rowOf_system (fun v h => by
    obtain ⟨rfl, rfl, -⟩ := h.operands
    rw [rowSystem, h.op5 (by decide)]
    rfl) (by decide)

/-! ## 16-bit words (R81) -/

/-- A 16-bit word of a sub-op and two operands decodes to what its row names, unless it is one of the two words that mean something else (R81). -/
theorem decode16_packed {i : Instr} {k : Nat} {d : BitVec 6} {s : BitVec 5} (he : encodeWord i = packed k [⟨1, _, s⟩, ⟨6, _, d⟩])
    (hk : k < 2 ^ 16 ∧ k % 0x1000 = 0) (hne : k % 0x9000 = 0 → ¬ (d.toNat = 0 ∧ s.toNat = 0))
    (hr : ∀ w, w ≠ 0 → w ≠ 0x9000 → w / 0x1000 % 16 = k / 0x1000 → BitVec.ofNat 6 (w / 64) = d → BitVec.ofNat 5 (w / 2) = s → decode16 w = .ok i) :
    encodeWord i % 2 = 0 ∧ decode16 (encodeWord i) = .ok i := by
  simp only [packed, Nat.reducePow] at he
  refine ⟨by omega, hr _ (by omega) (by omega) (by omega) (BitVec.eq_of_toNat_eq ?_) (BitVec.eq_of_toNat_eq ?_)⟩ <;>
    (rw [BitVec.toNat_ofNat]; omega)

theorem Listed.decode32 {i : Instr} (h : Listed i) (hw : i.wf = true) : decode32 (encodeWord i) = .ok i := by
  obtain ⟨r, hr, hi, hm⟩ := h.row
  exact decode32_ok_iff.2 ⟨h.major.1, h.major.2, h.sub, r, hr, hi, hm, hw⟩

/-! ## Words of a matrix stream and of a host (R89, R299, R301) -/

/-- What holds of every word of a layout holds of the word that the encoder puts together. -/
theorem Reads.elim {k : Nat} {P : Nat → Prop} (ps : List (Nat × Nat)) (os : List Operand) (hps : os.map Operand.place = ps)
    (h : ∀ w, Reads k ps os w → P w) (hk : placed k 1 ps = true) : P (packed k os) := by
  subst hps
  exact h _ (reads_packed hk)

theorem Reads.low {k w : Nat} {ps : List (Nat × Nat)} {os : List Operand} (h : Reads k ps os w) (hm : free 0x7f ps = true) : w % 128 = k % 128 := by
  simpa using h.field 0 7 hm

theorem decodeMatrix_mma (c : BitVec 1) (k : BitVec 4) (b a : BitVec 6) (t : BitVec 5) (hf : (Instr.mma c k b a t).fieldsOk = true) :
    decodeMatrix (encodeWord (.mma c k b a t)) = some (.mma c k b a t) :=
  Reads.elim (P := fun v => decodeMatrix v = some _) [(7, 5), (12, 6), (18, 6), (24, 4), (28, 1)] [⟨7, _, t⟩, ⟨12, _, a⟩, ⟨18, _, b⟩, ⟨24, _, k⟩, ⟨28, _, c⟩] rfl (fun v h => by
    obtain ⟨rfl, rfl, rfl, rfl, rfl, -⟩ := h.operands
    rw [decodeMatrix, h.low (by decide), show Nat.land v 0xe000007f = _ from h.land 0xe000007f (by decide)]
    exact if_pos hf) (by decide)

theorem decodeMatrix_mdrain (r : BitVec 1) (e : BitVec 4) (s o : BitVec 6) (t : BitVec 5) (hf : (Instr.mdrain r e s o t).fieldsOk = true) :
    decodeMatrix (encodeWord (.mdrain r e s o t)) = some (.mdrain r e s o t) :=
  Reads.elim (P := fun v => decodeMatrix v = some _) [(7, 5), (12, 6), (18, 6), (24, 4), (28, 1)] [⟨7, _, t⟩, ⟨12, _, o⟩, ⟨18, _, s⟩, ⟨24, _, e⟩, ⟨28, _, r⟩] rfl (fun v h => by
    obtain ⟨rfl, rfl, rfl, rfl, rfl, -⟩ := h.operands
    rw [decodeMatrix, h.low (by decide), show Nat.land v 0xe000007f = _ from h.land 0xe000007f (by decide)]
    exact if_pos hf) (by decide)

theorem decodeMatrix_mzero (n t : BitVec 5) (hf : (Instr.mzero n t).fieldsOk = true) :
    decodeMatrix (encodeWord (.mzero n t)) = some (.mzero n t) :=
  Reads.elim (P := fun v => decodeMatrix v = some _) [(7, 5), (12, 5)] [⟨7, _, t⟩, ⟨12, _, n⟩] rfl (fun v h => by
    obtain ⟨rfl, rfl, -⟩ := h.operands
    rw [decodeMatrix, h.low (by decide), show Nat.land v 0xfffe007f = _ from h.land 0xfffe007f (by decide)]
    exact if_pos hf) (by decide)

theorem decodeMatrix_mloop (o : BitVec 20) (c : BitVec 2) (hf : (Instr.mloop o c).fieldsOk = true) :
    decodeMatrix (encodeWord (.mloop o c)) = some (.mloop o c) :=
  Reads.elim (P := fun v => decodeMatrix v = some _) [(7, 2), (12, 20)] [⟨7, _, c⟩, ⟨12, _, o⟩] rfl (fun v h => by
    obtain ⟨rfl, rfl, -⟩ := h.operands
    rw [decodeMatrix, h.low (by decide), show Nat.land v 0xe7f = _ from h.land 0xe7f (by decide)]
    exact if_pos hf) (by decide)

theorem decodeMatrix_mbar (n : BitVec 4) (hf : (Instr.mbar n).fieldsOk = true) :
    decodeMatrix (encodeWord (.mbar n)) = some (.mbar n) :=
  Reads.elim (P := fun v => decodeMatrix v = some _) [(7, 4)] [⟨7, _, n⟩] rfl (fun v h => by
    obtain ⟨rfl, -⟩ := h.operands
    rw [decodeMatrix, h.low (by decide), show Nat.land v 0xfffff87f = _ from h.land 0xfffff87f (by decide)]
    exact if_pos hf) (by decide)

theorem decodeMatrix_mbarArrive (n : BitVec 4) (hf : (Instr.mbarArrive n).fieldsOk = true) :
    decodeMatrix (encodeWord (.mbarArrive n)) = some (.mbarArrive n) :=
  Reads.elim (P := fun v => decodeMatrix v = some _) [(7, 4)] [⟨7, _, n⟩] rfl (fun v h => by
    obtain ⟨rfl, -⟩ := h.operands
    rw [decodeMatrix, h.low (by decide), show Nat.land v 0xfffff87f = _ from h.land 0xfffff87f (by decide)]
    exact if_pos hf) (by decide)

theorem decodeMatrix_mend (n : BitVec 4) (hf : (Instr.mend n).fieldsOk = true) :
    decodeMatrix (encodeWord (.mend n)) = some (.mend n) :=
  Reads.elim (P := fun v => decodeMatrix v = some _) [(7, 4)] [⟨7, _, n⟩] rfl (fun v h => by
    obtain ⟨rfl, -⟩ := h.operands
    rw [decodeMatrix, h.low (by decide), show Nat.land v 0xfffff87f = _ from h.land 0xfffff87f (by decide)]
    exact if_pos hf) (by decide)

/-- The one word of `kuiret` has bit 12, which stands free in none of `ksubmit`. -/
theorem decodeHost_ksubmit (b a d : BitVec 5) : decodeHost (encodeWord (.ksubmit b a d)) = some (.ksubmit b a d) :=
  Reads.elim (P := fun v => decodeHost v = some _) [(7, 5), (15, 5), (20, 5)] [⟨7, _, d⟩, ⟨15, _, a⟩, ⟨20, _, b⟩] rfl (fun v h => by
    obtain ⟨rfl, rfl, rfl, -⟩ := h.operands
    have hne : v ≠ 0x100B := fun he => by
      have hbit := h.field 12 1 (by decide)
      rw [he] at hbit
      exact absurd hbit (by decide)
    rw [decodeHost, if_neg hne]
    exact if_pos (h.land 0xFE00707F (by decide))) (by decide)

/-! ## Every instruction -/

/-- The decoder of an instruction's kind reads its word back as that instruction. -/
inductive ReadBack (i : Instr) : Prop
  | word (kind : i.halfwords = 2 ∧ ofMatrix i = false ∧ ofHost i = false) (listed : i.wf = true → Listed i)
  | halfword (kind : i.halfwords = 1 ∧ ofMatrix i = false ∧ ofHost i = false)
      (read : i.wf = true → encodeWord i % 2 = 0 ∧ decode16 (encodeWord i) = .ok i)
  | matrix (kind : ofMatrix i = true ∧ ofHost i = false) (read : i.fieldsOk = true → decodeMatrix (encodeWord i) = some i)
  | host (kind : ofMatrix i = false ∧ ofHost i = true) (read : decodeHost (encodeWord i) = some i)
  | wordless (kind : i.halfwords = 0 ∧ ofMatrix i = false ∧ ofHost i = false)

/-- By the layout of the instruction's operands (R82, R86). -/
theorem readBack (i : Instr) : ReadBack i := by
  cases i with
  | iaddR c b a d | isubR c b a d | imulR c b a d | imulhS c b a d | imulhU c b a d | imad c b a d | iminSR c b a d
  | iminUR c b a d | imaxSR c b a d | imaxUR c b a d | iaddc c b a d | isubb c b a d =>
    exact .word ⟨rfl, rfl, rfl⟩ (fun _ => ialuR_listed c b a d _ (by repeat constructor))
  | iabs c a d => exact .word ⟨rfl, rfl, rfl⟩ (fun _ => iabs_listed c a d)
  | iaddI i u a d | imulI i u a d | iminSI i u a d | imaxSI i u a d | iminUI i u a d | imaxUI i u a d =>
    exact .word ⟨rfl, rfl, rfl⟩ (fun _ => ialuI_listed i u a d _ (by repeat constructor))
  | andR c b a d | orR c b a d | xorR c b a d | andn c b a d | shlR c b a d | shrR c b a d | sarR c b a d | fshl c b a d
  | fshr c b a d | prmt c b a d =>
    exact .word ⟨rfl, rfl, rfl⟩ (fun _ => logicR_listed c b a d _ (by repeat constructor))
  | popc c a d | clz c a d | ctz c a d | brev c a d =>
    exact .word ⟨rfl, rfl, rfl⟩ (fun _ => logicUnary_listed c a d _ (by repeat constructor))
  | andI i u a d | orI i u a d | xorI i u a d | shlI i u a d | shrI i u a d | sarI i u a d =>
    exact .word ⟨rfl, rfl, rfl⟩ (fun _ => logicI_listed i u a d _ (by repeat constructor))
  | bfx s l p a d => exact .word ⟨rfl, rfl, rfl⟩ (fun _ => bfx_listed s l p a d)
  | bfi l p a d => exact .word ⟨rfl, rfl, rfl⟩ (fun _ => bfi_listed l p a d)
  | icmpS c b a n p | icmpU c b a n p | fcmpF32 c b a n p | fcmpF64 c b a n p | fcmpF16 c b a n p | fcmpBf16 c b a n p =>
    exact .word ⟨rfl, rfl, rfl⟩ (fun _ => compare_listed c b a n p _ (by repeat constructor))
  | plog b a o d => exact .word ⟨rfl, rfl, rfl⟩ (fun _ => plog_listed b a o d)
  | movR c a d | unpk c a d =>
    exact .word ⟨rfl, rfl, rfl⟩ (fun _ => move_listed c a d _ (by repeat constructor))
  | rdsr c n d => exact .word ⟨rfl, rfl, rfl⟩ (fun _ => rdsr_listed c n d)
  | pack2 c b a d => exact .word ⟨rfl, rfl, rfl⟩ (fun _ => pack2_listed c b a d)
  | movi i u d => exact .word ⟨rfl, rfl, rfl⟩ (fun _ => movi_listed i u d)
  | movh i u d => exact .word ⟨rfl, rfl, rfl⟩ (fun _ => movh_listed i u d)
  | fadd t c b a d | fsub t c b a d | fmul t c b a d | ffma t c b a d | fmin t c b a d | fmax t c b a d =>
    exact .word ⟨rfl, rfl, rfl⟩ (fun _ => fpR_listed t c b a d _ (by repeat constructor))
  | frcp t c a d | frsq t c a d | fsqrt t c a d | fex2 t c a d | flg2 t c a d | fsin t c a d | fcos t c a d | fcls t c a d =>
    exact .word ⟨rfl, rfl, rfl⟩ (fun _ => fpS_listed t c a d _ (by repeat constructor))
  | cvt s r f m a d => exact .word ⟨rfl, rfl, rfl⟩ (fun _ => cvt_listed s r f m a d)
  | qnt s r f b a d => exact .word ⟨rfl, rfl, rfl⟩ (fun _ => qnt_listed s r f b a d)
  | deq f b a d => exact .word ⟨rfl, rfl, rfl⟩ (fun _ => deq_listed f b a d)
  | lbc b a d => exact .word ⟨rfl, rfl, rfl⟩ (fun _ => lbc_listed b a d)
  | rfa a d | redxAdd a d | redxMin a d | redxMax a d | redxFadd a d | scanAdd a d | scanAddx a d | matchLanes a d =>
    exact .word ⟨rfl, rfl, rfl⟩ (fun _ => lane_listed a d _ (by repeat constructor))
  | voteAll k d | voteAny k d | voteBallot k d =>
    exact .word ⟨rfl, rfl, rfl⟩ (fun _ => vote_listed k d _ (by repeat constructor))
  | split w => exact .word ⟨rfl, rfl, rfl⟩ (fun _ => split_listed w)
  | fuse d => exact .word ⟨rfl, rfl, rfl⟩ (fun _ => fuse_listed d)
  | bra o | callRel o =>
    exact .word ⟨rfl, rfl, rfl⟩ (fun _ => bra_listed o _ (by repeat constructor))
  | brc o h n p => exact .word ⟨rfl, rfl, rfl⟩ (fun _ => brc_listed o h n p)
  | brx a | callReg a =>
    exact .word ⟨rfl, rfl, rfl⟩ (fun _ => jump_listed a _ (by repeat constructor))
  | jseg l o s => exact .word ⟨rfl, rfl, rfl⟩ (fun _ => jseg_listed l o s)
  | cfetch g t c q => exact .word ⟨rfl, rfl, rfl⟩ (fun _ => cfetch_listed g t c q)
  | ld z u i b d | ldNa z u i b d | ldAcqBlk z u i b d | ldAcqDie z u i b d | ldAcqPkg z u i b d | ldAcqSys z u i b d =>
    exact .word ⟨rfl, rfl, rfl⟩ (fun _ => ld_listed z u i b d _ (by repeat constructor))
  | st z u i b d | stNa z u i b d | stRelBlk z u i b d | stRelDie z u i b d | stRelPkg z u i b d | stRelSys z u i b d =>
    exact .word ⟨rfl, rfl, rfl⟩ (fun _ => st_listed z u i b d _ (by repeat constructor))
  | stn i b d => exact .word ⟨rfl, rfl, rfl⟩ (fun _ => stn_listed i b d)
  | lds z u i b d | sts z u i b d =>
    exact .word ⟨rfl, rfl, rfl⟩ (fun _ => scratchpad_listed z u i b d _ (by repeat constructor))
  | ldfeKeep z i b d | ldfeClr z i b d | stfe z i b d | stfeWe z i b d =>
    exact .word ⟨rfl, rfl, rfl⟩ (fun _ => fullEmpty_listed z i b d _ (by repeat constructor))
  | atomAdd s w i b d | atomMins s w i b d | atomMaxs s w i b d | atomMinu s w i b d | atomMaxu s w i b d | atomAnd s w i b d
  | atomOr s w i b d | atomXor s w i b d | atomExch s w i b d | atomCas s w i b d | atomFadd s w i b d | atomFmin s w i b d
  | atomFmax s w i b d =>
    exact .word ⟨rfl, rfl, rfl⟩ (fun _ => atom_listed s w i b d _ (by repeat constructor))
  | redAdd s w i b d | redMins s w i b d | redMaxs s w i b d | redMinu s w i b d | redMaxu s w i b d | redAnd s w i b d
  | redOr s w i b d | redXor s w i b d | redFadd s w i b d | redFmin s w i b d | redFmax s w i b d =>
    exact .word ⟨rfl, rfl, rfl⟩ (fun _ => red_listed s w i b d _ (by repeat constructor))
  | fenceFull s | fenceAcq s | fenceRel s =>
    exact .word ⟨rfl, rfl, rfl⟩ (fun _ => fence_listed s _ (by repeat constructor))
  | pref i b | cacheWb i b | cacheInv i b | cacheWbinv i b =>
    exact .word ⟨rfl, rfl, rfl⟩ (fun _ => orderAddress_listed i b _ (by repeat constructor))
  | ljoin z i b d | ljoinStrict z i b d | lldt z i b d | lldtPoll z i b d =>
    exact .word ⟨rfl, rfl, rfl⟩ (fun _ => lattice_listed z i b d _ (by repeat constructor))
  | cpy g t c q | gath g t c q | scat g t c q | cpyMx g t c q | cpyUnmx g t c q =>
    exact .word ⟨rfl, rfl, rfl⟩ (fun _ => copy_listed g t c q _ (by repeat constructor))
  | apnd g t c q | apndDur g t c q | apndSync g t c q =>
    exact .word ⟨rfl, rfl, rfl⟩ (fun _ => apnd_listed g t c q _ (by repeat constructor))
  | send g t c q | recv g t c q =>
    exact .word ⟨rfl, rfl, rfl⟩ (fun _ => net_listed g t c q _ (by repeat constructor))
  | wait n t p s l => exact .word ⟨rfl, rfl, rfl⟩ (fun _ => wait_listed n t p s l)
  | waitm b a => exact .word ⟨rfl, rfl, rfl⟩ (fun _ => waitm_listed b a)
  | gset a g => exact .word ⟨rfl, rfl, rfl⟩ (fun _ => gset_listed a g)
  | barArrive n | barWait n | barSync n =>
    exact .word ⟨rfl, rfl, rfl⟩ (fun _ => bar_listed n _ (by repeat constructor))
  | cbar a => exact .word ⟨rfl, rfl, rfl⟩ (fun _ => cbar_listed a)
  | mfmt a n => exact .word ⟨rfl, rfl, rfl⟩ (fun _ => mfmt_listed a n)
  | mrun b a => exact .word ⟨rfl, rfl, rfl⟩ (fun _ => mrun_listed b a)
  | sysc b a d => exact .word ⟨rfl, rfl, rfl⟩ (fun _ => sysc_listed b a d)
  | trap c => exact .word ⟨rfl, rfl, rfl⟩ (fun _ => trap_listed c)
  | uimask a d => exact .word ⟨rfl, rfl, rfl⟩ (fun _ => uimask_listed a d)
  | lea k c b a d => exact .word ⟨rfl, rfl, rfl⟩ (fun _ => lea_listed k c b a d)
  | sel k c b a d => exact .word ⟨rfl, rfl, rfl⟩ (fun _ => sel_listed k c b a d)
  | wrsr a n => exact .word ⟨rfl, rfl, rfl⟩ (wrsr_listed a n)
  | wrsrRbase a => exact .word ⟨rfl, rfl, rfl⟩ (fun _ => wrsrRbase_listed a)
  | wrsrUivec a => exact .word ⟨rfl, rfl, rfl⟩ (fun _ => wrsrUivec_listed a)
  | wrsrUipend a => exact .word ⟨rfl, rfl, rfl⟩ (fun _ => wrsrUipend_listed a)
  | shflGet c b a d | shflSlide c b a d | shflRot c b a d | shflXor c b a d => exact .word ⟨rfl, rfl, rfl⟩ (fun _ => shfl_listed c b a d _ (by repeat constructor))
  | strm g t c q => exact .word ⟨rfl, rfl, rfl⟩ (fun _ => strm_listed g t c q)
  | qcfgLoop i a q => exact .word ⟨rfl, rfl, rfl⟩ (fun _ => qcfgLoop_listed i a q)
  | qcfgStrm a q => exact .word ⟨rfl, rfl, rfl⟩ (fun _ => qcfgStrm_listed a q)
  | qcfgOff q => exact .word ⟨rfl, rfl, rfl⟩ (fun _ => qcfgOff_listed q)
  | yield | ret | exit | nop | uiret | emret =>
    exact .word ⟨rfl, rfl, rfl⟩ (fun _ => ⟨by decide, by decide, by decide, _, rfl, rfl, by decide, by decide, by decide⟩)
  | mma c k b a t => exact .matrix ⟨rfl, rfl⟩ (decodeMatrix_mma c k b a t)
  | mzero n t => exact .matrix ⟨rfl, rfl⟩ (decodeMatrix_mzero n t)
  | mdrain r e s o t => exact .matrix ⟨rfl, rfl⟩ (decodeMatrix_mdrain r e s o t)
  | mloop o c => exact .matrix ⟨rfl, rfl⟩ (decodeMatrix_mloop o c)
  | mbar n => exact .matrix ⟨rfl, rfl⟩ (decodeMatrix_mbar n)
  | mbarArrive n => exact .matrix ⟨rfl, rfl⟩ (decodeMatrix_mbarArrive n)
  | mend n => exact .matrix ⟨rfl, rfl⟩ (decodeMatrix_mend n)
  | ksubmit b a d => exact .host ⟨rfl, rfl⟩ (decodeHost_ksubmit b a d)
  | kuiret => exact .host ⟨rfl, rfl⟩ rfl
  | nop16 => exact .halfword ⟨rfl, rfl, rfl⟩ (fun _ => by decide)
  | iadd16 d s | mov16 d s =>
    refine .halfword ⟨rfl, rfl, rfl⟩ (fun hw => decode16_packed (d := d) (s := s) rfl (by decide) (fun _ h => ?_)
      (fun w h0 h9 hop hd hs => by simp [decode16, h0, h9, hop, hd, hs]))
    rw [BitVec.eq_of_toNat_eq (y := 0#6) h.1, BitVec.eq_of_toNat_eq (y := 0#5) h.2] at hw
    exact absurd hw (by decide)
  | iadd16Imm d s | isub16 d s | imul16 d s | and16 d s | or16 d s | xor16 d s | shl16 d s | shr16 d s | sar16 d s | fadd16 d s | fsub16 d s
  | fmul16 d s | fmin16 d s | fmax16 d s =>
    exact .halfword ⟨rfl, rfl, rfl⟩ (fun _ => decode16_packed (d := d) (s := s) rfl (by decide) (fun h => absurd h (by decide))
      (fun w h0 h9 hop hd hs => by simp [decode16, h0, h9, hop, hd, hs]))
  | _ => exact .wordless ⟨rfl, rfl, rfl⟩

/-- Settles O4: the tables read back every word of the encoder, by its layout. -/
theorem floeWordsRoundTrip : Obligations.FloeWordsRoundTrip := by
  intro i hw hpos hm hh
  cases readBack i with
  | word kind listed =>
    have hl := listed hw
    obtain ⟨hodd, hlt⟩ := hl.long
    have hlow : encodeWord i % 0x10000 % 2 = 1 := by omega
    have hword : encodeWord i % 0x10000 % 0x10000 + 0x10000 * (encodeWord i / 0x10000 % 0x10000) = encodeWord i := by omega
    simp only [encode, kind.1, decode, hlow, hword, hl.decode32 hw, Except.map]
    rfl
  | halfword kind read =>
    obtain ⟨heven, hd⟩ := read hw
    simp [encode, decode, kind.1, heven, hd, Except.map]
  | matrix kind => rw [hm] at kind; exact absurd kind.1 Bool.false_ne_true
  | host kind => rw [hh] at kind; exact absurd kind.2 Bool.false_ne_true
  | wordless kind => rw [kind.1] at hpos; exact absurd hpos (Nat.lt_irrefl 0)

/-- Settles O5: the masks leave the operands' places free, and these read back. -/
theorem otherWordsRoundTrip : Obligations.OtherWordsRoundTrip := by
  refine ⟨fun i hw hm => ?_, fun i hh => ?_⟩
  · cases readBack i with
    | matrix _ read => exact read (Bool.and_eq_true_iff.1 hw).2
    | word kind | halfword kind | wordless kind => rw [hm] at kind; exact absurd kind.2.1.symm Bool.false_ne_true
    | host kind => rw [hm] at kind; exact absurd kind.1.symm Bool.false_ne_true
  · cases readBack i with
    | host _ read => exact read
    | word kind | halfword kind | wordless kind => rw [hh] at kind; exact absurd kind.2.2.symm Bool.false_ne_true
    | matrix kind => rw [hh] at kind; exact absurd kind.2.symm Bool.false_ne_true

end Sys2Proof

/-!
# Words and what they decode to (R79, R81, R85, R86, R89, R90)
-/
namespace Sys2Proof
open Sys2Proof.Claims


/-- The operand that a word holds in a place: its lowest bit and its width. -/
def readAt (w : Nat) (p : Nat × Nat) : Operand := ⟨p.1, p.2, BitVec.ofNat p.2 (w / 2 ^ p.1)⟩

/-- The bits of places. -/
def placesMask (ps : List (Nat × Nat)) : Nat := ps.foldr (fun p m => 2 ^ p.1 * (2 ^ p.2 - 1) ||| m) 0

theorem places_readAt (w : Nat) (ps : List (Nat × Nat)) : (ps.map (readAt w)).map Operand.place = ps := by
  rw [List.map_map]
  exact List.map_id ps

theorem testBit_placesMask {ps : List (Nat × Nat)} {j : Nat} (h : (placesMask ps).testBit j = true) : ∃ p ∈ ps, p.1 ≤ j ∧ j < p.1 + p.2 := by
  induction ps with
  | nil => simp [placesMask] at h
  | cons p ps ih =>
    rw [placesMask, List.foldr_cons, Nat.testBit_or, Nat.testBit_two_pow_mul, Nat.testBit_two_pow_sub_one, Bool.or_eq_true] at h
    rcases h with h | h
    · simp only [Bool.and_eq_true, decide_eq_true_eq] at h
      exact ⟨p, List.mem_cons_self .., h.1, by omega⟩
    · obtain ⟨q, hq, hj⟩ := ih h
      exact ⟨q, List.mem_cons_of_mem _ hq, hj⟩

/-- A word is made up of its fixed bits and of what its places hold, where these are all its bits. -/
theorem packed_readAt {k w m : Nat} {ps : List (Nat × Nat)} (hp : placed k 1 ps = true) (hw : w < 2 ^ 32) (hk : k < 2 ^ 32)
    (hm : m ||| placesMask ps = 2 ^ 32 - 1) (h : w &&& m = k &&& m) : packed k (ps.map (readAt w)) = w := by
  have hl : placed k 1 ((ps.map (readAt w)).map Operand.place) = true := by rw [places_readAt, hp]
  refine Nat.eq_of_testBit_eq (fun j => ?_)
  by_cases hj : ∃ p ∈ ps, p.1 ≤ j ∧ j < p.1 + p.2
  · obtain ⟨p, hp, hlo, hhi⟩ := hj
    rw [(testBit_packed hl j).1 _ (List.mem_map_of_mem hp) ⟨hlo, hhi⟩]
    show (BitVec.ofNat p.2 (w / 2 ^ p.1)).getLsbD (j - p.1) = _
    rw [BitVec.getLsbD_ofNat, decide_eq_true (by omega), Bool.true_and, Nat.testBit_div_two_pow, Nat.sub_add_cancel hlo]
  · rw [(testBit_packed hl j).2 (fun o ho ht => ?_)]
    · by_cases h32 : j < 32
      · have hb := congrArg (fun x => x.testBit j) hm
        have hmj : m.testBit j = true := by
          simp only [Nat.testBit_or, Nat.testBit_two_pow_sub_one, h32, decide_true, Bool.or_eq_true] at hb
          exact hb.resolve_right (fun hc => hj (testBit_placesMask hc))
        simpa [Nat.testBit_and, hmj] using (congrArg (fun x => x.testBit j) h).symm
      · have h2 : (2 : Nat) ^ 32 ≤ 2 ^ j := Nat.pow_le_pow_right (by decide) (by omega)
        rw [Nat.testBit_lt_two_pow (lt_of_lt_of_le hk h2), Nat.testBit_lt_two_pow (lt_of_lt_of_le hw h2)]
    · obtain ⟨p, hp, rfl⟩ := List.mem_map.1 ho
      exact hj ⟨p, hp, ht⟩

/-- A field of a word as bits in their place. -/
theorem land_run (w p n : Nat) : w &&& 2 ^ p * (2 ^ n - 1) = w / 2 ^ p % 2 ^ n * 2 ^ p := by
  refine Nat.eq_of_testBit_eq (fun j => ?_)
  rw [Nat.mul_comm (w / 2 ^ p % 2 ^ n)]
  simp only [Nat.testBit_and, Nat.testBit_two_pow_mul, Nat.testBit_two_pow_sub_one, Nat.testBit_mod_two_pow, Nat.testBit_div_two_pow]
  by_cases hj : p ≤ j
  · simp [hj, Bool.and_comm]
  · simp [hj]

/-- Words alike in a field are alike in its bits. -/
theorem land_of_field {w k : Nat} (p n : Nat) (h : w / 2 ^ p % 2 ^ n = k / 2 ^ p % 2 ^ n) : w &&& 2 ^ p * (2 ^ n - 1) = k &&& 2 ^ p * (2 ^ n - 1) := by
  rw [land_run, land_run, h]

theorem land_or {w k m n : Nat} (hm : w &&& m = k &&& m) (hn : w &&& n = k &&& n) : w &&& (m ||| n) = k &&& (m ||| n) := by
  rw [Nat.and_or_distrib_left, Nat.and_or_distrib_left, hm, hn]

/-- A word that passes its row's checks is the encoding of the row's instruction. -/
def Covers (r : Row) (w : Nat) : Prop := r.Meets w → r.instr.halfwords = 2 ∧ encodeWord r.instr = w

/-- The row's operand classes leave a word alike with k in the bits c. -/
def ClassBits (r : Row) (w k c : Nat) : Prop := r.accepts w = true → w &&& c = k &&& c

/-- The bits m, c, z and f and the places are all the bits of a word, and the fixed bits k meet the zero bits z and the fixed ones f. -/
def wholeWord (k : Nat) (ps : List (Nat × Nat)) (m c z f t : Nat) : Bool :=
  decide (k < 2 ^ 32) && k &&& z == 0 && k &&& f == t && placed k 1 ps && (0x7f ||| m ||| c ||| z ||| f) ||| placesMask ps == 2 ^ 32 - 1

/-- Major, sub-op (in the bits m), class (in the bits c), zero and fixed bits of a row, and its operands, are all the bits of a word. -/
theorem Covers.of_places {i : Instr} {cl : Option (List Nat)} {z f t w k : Nat} (ps : List (Nat × Nat)) (m c : Nat) (hw : w < 2 ^ 32)
    (h2 : i.halfwords = 2) (he : encodeWord i = packed k (ps.map (readAt w))) (hlow : w % 128 = k % 128) (hm : w &&& m = k &&& m)
    (hc : ClassBits ⟨i, cl, z, f, t⟩ w k c)
    (hfix : wholeWord k ps m c z f t = true) : Covers ⟨i, cl, z, f, t⟩ w := fun ⟨hacc, hz, hf⟩ => by
  simp only [wholeWord, Bool.and_eq_true, decide_eq_true_eq, beq_iff_eq] at hfix
  obtain ⟨⟨⟨⟨hk, hkz⟩, hkf⟩, hp⟩, hall⟩ := hfix
  have h7 : w &&& 0x7f = k &&& 0x7f := land_of_field 0 7 (by simpa using hlow)
  exact ⟨h2, he.trans (packed_readAt hp hw hk hall
    (land_or (land_or (land_or (land_or h7 hm) (hc hacc)) (hz.trans hkz.symm)) (hf.trans hkf.symm)))⟩

theorem ClassBits.none {r : Row} {w k : Nat} : ClassBits r w k 0 := fun _ => by rw [Nat.and_zero, Nat.and_zero]
theorem ClassBits.one {r : Row} {w k n : Nat} (hr : r.classes = some [n]) (hk : k / 2 ^ 25 % 2 ^ 2 = n) : ClassBits r w k 0x6000000 := fun h => by
  refine land_of_field 25 2 ?_
  rw [hk]
  simpa [Row.accepts, hr] using h
theorem ClassBits.low {r : Row} {w k : Nat} (hr : r.classes = some [0, 1]) (hk : k / 2 ^ 26 % 2 ^ 1 = 0) : ClassBits r w k 0x4000000 := fun h => by
  refine land_of_field 26 1 ?_
  simp only [Row.accepts, hr, List.contains_eq_mem, List.mem_cons, List.not_mem_nil, or_false, decide_eq_true_eq] at h
  omega

/-! The high bits of a sub-op of five bits. -/

theorem high3_of_op5 {w n : Nat} (h : w / 0x8000000 % 32 = n) : w / 2 ^ 29 % 2 ^ 3 = n / 4 := by omega
theorem high2_of_op5 {w n : Nat} (h : w / 0x8000000 % 32 = n) : w / 2 ^ 30 % 2 ^ 2 = n / 8 := by omega

/-- The four encodings of `WRSR` (R423). -/
theorem wrsrOf_covers {w : Nat} (hw : w < 2 ^ 32) (hl : w % 128 = 0x11) (hop : w / 0x8000000 % 32 = 3) :
    Covers ⟨wrsrOf (w / 0x80 % 64) (BitVec.ofNat 6 (w / 0x2000)), some [2], 0x1f80000, 0x0, 0x0⟩ w := by
  have hn : BitVec.ofNat 6 (w / 0x80 % 64) = BitVec.ofNat 6 (w / 0x80) := BitVec.eq_of_toNat_eq (by simp)
  unfold wrsrOf
  split_ifs with hfield hfield hfield
  case neg =>
    rw [hn]
    exact Covers.of_places [(7, 6), (13, 6)] 0xf8000000 0x6000000 hw rfl rfl hl (land_of_field 27 5 hop) (.one rfl rfl) (by decide)
  all_goals
    exact Covers.of_places [(13,
      6)] 0xf8001f80 0x6000000 hw rfl rfl hl (land_or (land_of_field 27 5 hop) (land_of_field 7 6 hfield)) (.one rfl rfl) (by decide)

theorem rowIaluR_covers {w : Nat} {r : Row} (hw : w < 2 ^ 32) (hl : w % 128 = 0x3) (h : rowIaluR w = some r) : Covers r w := by
  unfold rowIaluR at h
  split at h
  case h_18 => cases h
  case h_11 hop =>
    obtain rfl := Option.some.inj h
    exact Covers.of_places [(7, 6), (13, 6), (25, 2)] 0xf8000000 0 hw rfl rfl hl (land_of_field 27 5 hop) .none (by decide)
  case h_14 hop | h_15 hop | h_16 hop | h_17 hop =>
    obtain rfl := Option.some.inj h
    exact Covers.of_places [(7, 6), (13, 6), (19, 6), (25, 2), (27, 2)] 0xe0000000 0 hw rfl rfl hl (land_of_field 29 3 (high3_of_op5 hop)) .none (by decide)
  all_goals
    rename_i hop
    obtain rfl := Option.some.inj h
    exact Covers.of_places [(7, 6), (13, 6), (19, 6), (25, 2)] 0xf8000000 0 hw rfl rfl hl (land_of_field 27 5 hop) .none (by decide)

theorem rowIaluI_covers {w : Nat} {r : Row} (hw : w < 2 ^ 32) (hl : w % 128 = 0x5) (h : rowIaluI w = some r) : Covers r w := by
  unfold rowIaluI at h
  split at h
  case h_7 => cases h
  all_goals
    rename_i hop
    obtain rfl := Option.some.inj h
    exact Covers.of_places [(7, 6), (13, 6), (22, 1), (23, 9)] 0x380000 0 hw rfl rfl hl (land_of_field 19 3 hop) .none (by decide)

theorem rowLogicR_covers {w : Nat} {r : Row} (hw : w < 2 ^ 32) (hl : w % 128 = 0x7) (h : rowLogicR w = some r) : Covers r w := by
  unfold rowLogicR at h
  split at h
  case h_15 => cases h
  case h_10 hop | h_11 hop | h_12 hop | h_13 hop =>
    obtain rfl := Option.some.inj h
    exact Covers.of_places [(7, 6), (13, 6), (25, 2)] 0xf8000000 0 hw rfl rfl hl (land_of_field 27 5 hop) .none (by decide)
  all_goals
    rename_i hop
    obtain rfl := Option.some.inj h
    exact Covers.of_places [(7, 6), (13, 6), (19, 6), (25, 2)] 0xf8000000 0 hw rfl rfl hl (land_of_field 27 5 hop) .none (by decide)

theorem rowLogicI_covers {w : Nat} {r : Row} (hw : w < 2 ^ 32) (hl : w % 128 = 0x9) (h : rowLogicI w = some r) : Covers r w := by
  unfold rowLogicI at h
  split at h
  case h_7 => cases h
  all_goals
    rename_i hop
    obtain rfl := Option.some.inj h
    exact Covers.of_places [(7, 6), (13, 6), (22, 1), (23, 9)] 0x380000 0 hw rfl rfl hl (land_of_field 19 3 hop) .none (by decide)

theorem rowBfx_covers {w : Nat} {r : Row} (hw : w < 2 ^ 32) (hl : w % 128 = 0xb) (h : rowBfx w = some r) : Covers r w := by
  obtain rfl := Option.some.inj h
  exact Covers.of_places [(7, 6), (13, 6), (19, 6), (25, 6), (31,
    1)] 0 0x0 hw rfl rfl hl (land_of_field 0 0 (Nat.mod_one _ |>.trans (Nat.mod_one _).symm)) .none (by decide)

theorem rowBfi_covers {w : Nat} {r : Row} (hw : w < 2 ^ 32) (hl : w % 128 = 0xd) (h : rowBfi w = some r) : Covers r w := by
  obtain rfl := Option.some.inj h
  exact Covers.of_places [(7, 6), (13, 6), (19, 6), (25,
    6)] 0 0x0 hw rfl rfl hl (land_of_field 0 0 (Nat.mod_one _ |>.trans (Nat.mod_one _).symm)) .none (by decide)

theorem rowCmp_covers {w : Nat} {r : Row} (hw : w < 2 ^ 32) (hl : w % 128 = 0xf) (h : rowCmp w = some r) : Covers r w := by
  unfold rowCmp at h
  split at h
  case h_8 => cases h
  case h_7 hop =>
    obtain rfl := Option.some.inj h
    exact Covers.of_places [(7, 3), (10, 3), (13, 3), (19,
      3)] 0xf8000000 0x6000000 hw rfl rfl hl (land_of_field 27 5 hop) (.one rfl rfl) (by decide)
  all_goals
    rename_i hop
    obtain rfl := Option.some.inj h
    exact Covers.of_places [(7, 3), (10, 3), (13, 6), (19, 6), (25, 2)] 0xf8000000 0 hw rfl rfl hl (land_of_field 27 5 hop) .none (by decide)

theorem rowMove_covers {w : Nat} {r : Row} (hw : w < 2 ^ 32) (hl : w % 128 = 0x11) (h : rowMove w = some r) : Covers r w := by
  unfold rowMove at h
  split at h
  case h_14 => cases h
  case h_3 hop =>
    obtain rfl := Option.some.inj h
    exact wrsrOf_covers hw hl hop
  case h_4 hop =>
    obtain rfl := Option.some.inj h
    exact Covers.of_places [(7, 6), (13, 6), (19, 6), (25, 2)] 0xf8000000 0 hw rfl rfl hl (land_of_field 27 5 hop) .none (by decide)
  case h_1 hop | h_2 hop | h_5 hop =>
    obtain rfl := Option.some.inj h
    exact Covers.of_places [(7, 6), (13, 6), (25, 2)] 0xf8000000 0 hw rfl rfl hl (land_of_field 27 5 hop) .none (by decide)
  all_goals
    rename_i hop
    obtain rfl := Option.some.inj h
    exact Covers.of_places [(7, 6), (13, 6), (19, 6), (25, 2), (27, 3)] 0xc0000000 0 hw rfl rfl hl (land_of_field 30 2 (high2_of_op5 hop)) .none (by decide)

theorem rowMovi_covers {w : Nat} {r : Row} (hw : w < 2 ^ 32) (hl : w % 128 = 0x13) (h : rowMovi w = some r) : Covers r w := by
  obtain rfl := Option.some.inj h
  exact Covers.of_places [(7, 6), (13, 1), (14,
    18)] 0 0x0 hw rfl rfl hl (land_of_field 0 0 (Nat.mod_one _ |>.trans (Nat.mod_one _).symm)) .none (by decide)

theorem rowMovh_covers {w : Nat} {r : Row} (hw : w < 2 ^ 32) (hl : w % 128 = 0x15) (h : rowMovh w = some r) : Covers r w := by
  obtain rfl := Option.some.inj h
  exact Covers.of_places [(7, 6), (13, 1), (14,
    18)] 0 0x0 hw rfl rfl hl (land_of_field 0 0 (Nat.mod_one _ |>.trans (Nat.mod_one _).symm)) .none (by decide)

theorem rowFpR_covers {w : Nat} {r : Row} (hw : w < 2 ^ 32) (hl : w % 128 = 0x17) (h : rowFpR w = some r) : Covers r w := by
  unfold rowFpR at h
  split at h
  case h_7 => cases h
  all_goals
    rename_i hop
    obtain rfl := Option.some.inj h
    exact Covers.of_places [(7, 6), (13, 6), (19, 6), (25, 2), (27, 2)] 0xe0000000 0 hw rfl rfl hl (land_of_field 29 3 hop) .none (by decide)

theorem rowFpS_covers {w : Nat} {r : Row} (hw : w < 2 ^ 32) (hl : w % 128 = 0x19) (h : rowFpS w = some r) : Covers r w := by
  unfold rowFpS at h
  split at h
  case h_9 => cases h
  all_goals
    rename_i hop
    obtain rfl := Option.some.inj h
    exact Covers.of_places [(7, 6), (13, 6), (25, 2), (30, 2)] 0x38000000 0 hw rfl rfl hl (land_of_field 27 3 hop) .none (by decide)

theorem rowCvt_covers {w : Nat} {r : Row} (hw : w < 2 ^ 32) (hl : w % 128 = 0x1b) (h : rowCvt w = some r) : Covers r w := by
  obtain rfl := Option.some.inj h
  exact Covers.of_places [(7, 6), (13, 6), (19, 4), (25, 4), (29, 2), (31,
    1)] 0 0x0 hw rfl rfl hl (land_of_field 0 0 (Nat.mod_one _ |>.trans (Nat.mod_one _).symm)) .none (by decide)

theorem rowQnt_covers {w : Nat} {r : Row} (hw : w < 2 ^ 32) (hl : w % 128 = 0x1d) (h : rowQnt w = some r) : Covers r w := by
  obtain rfl := Option.some.inj h
  exact Covers.of_places [(7, 6), (13, 6), (19, 6), (25, 4), (29, 2), (31,
    1)] 0 0x0 hw rfl rfl hl (land_of_field 0 0 (Nat.mod_one _ |>.trans (Nat.mod_one _).symm)) .none (by decide)

theorem rowDeq_covers {w : Nat} {r : Row} (hw : w < 2 ^ 32) (hl : w % 128 = 0x1f) (h : rowDeq w = some r) : Covers r w := by
  obtain rfl := Option.some.inj h
  exact Covers.of_places [(7, 6), (13, 6), (19, 6), (25,
    4)] 0 0x0 hw rfl rfl hl (land_of_field 0 0 (Nat.mod_one _ |>.trans (Nat.mod_one _).symm)) .none (by decide)

theorem rowLane_covers {w : Nat} {r : Row} (hw : w < 2 ^ 32) (hl : w % 128 = 0x21) (h : rowLane w = some r) : Covers r w := by
  unfold rowLane at h
  split at h
  case h_17 => cases h
  case h_5 hop =>
    obtain rfl := Option.some.inj h
    exact Covers.of_places [(7, 6), (13, 6), (19, 6)] 0xf8000000 0x6000000 hw rfl rfl hl (land_of_field 27 5 hop) (.one rfl rfl) (by decide)
  case h_7 hop | h_8 hop | h_9 hop =>
    obtain rfl := Option.some.inj h
    exact Covers.of_places [(7, 6), (13, 3)] 0xf8000000 0x6000000 hw rfl rfl hl (land_of_field 27 5 hop) (.one rfl rfl) (by decide)
  case h_1 hop | h_2 hop | h_3 hop | h_4 hop =>
    obtain rfl := Option.some.inj h
    exact Covers.of_places [(7, 6), (13, 6), (19, 6), (25,
      1)] 0xf8000000 0x4000000 hw rfl rfl hl (land_of_field 27 5 hop) (.low rfl rfl) (by decide)
  all_goals
    rename_i hop
    obtain rfl := Option.some.inj h
    exact Covers.of_places [(7, 6), (13, 6)] 0xf8000000 0x6000000 hw rfl rfl hl (land_of_field 27 5 hop) (.one rfl rfl) (by decide)

theorem rowFloe_covers {w : Nat} {r : Row} (hw : w < 2 ^ 32) (hl : w % 128 = 0x23) (h : rowFloe w = some r) : Covers r w := by
  unfold rowFloe at h
  split at h
  case h_4 => cases h
  case h_1 hop =>
    obtain rfl := Option.some.inj h
    exact Covers.of_places [(19, 2)] 0xf8000000 0x6000000 hw rfl rfl hl (land_of_field 27 5 hop) (.one rfl rfl) (by decide)
  case h_2 hop =>
    obtain rfl := Option.some.inj h
    exact Covers.of_places [(7, 6)] 0xf8000000 0x6000000 hw rfl rfl hl (land_of_field 27 5 hop) (.one rfl rfl) (by decide)
  case h_3 hop =>
    obtain rfl := Option.some.inj h
    exact Covers.of_places [] 0xf8000000 0x6000000 hw rfl rfl hl (land_of_field 27 5 hop) (.one rfl rfl) (by decide)

theorem rowBra_covers {w : Nat} {r : Row} (hw : w < 2 ^ 32) (hl : w % 128 = 0x25) (h : rowBra w = some r) : Covers r w := by
  unfold rowBra at h
  split at h
  case h_3 => cases h
  case h_1 hop | h_2 hop =>
    obtain rfl := Option.some.inj h
    exact Covers.of_places [(13, 19)] 0x800 0 hw rfl rfl hl (land_of_field 11 1 hop) .none (by decide)

theorem rowBrc_covers {w : Nat} {r : Row} (hw : w < 2 ^ 32) (hl : w % 128 = 0x27) (h : rowBrc w = some r) : Covers r w := by
  obtain rfl := Option.some.inj h
  exact Covers.of_places [(7, 3), (10, 1), (12, 1), (13,
    19)] 0 0x0 hw rfl rfl hl (land_of_field 0 0 (Nat.mod_one _ |>.trans (Nat.mod_one _).symm)) .none (by decide)

theorem rowJump_covers {w : Nat} {r : Row} (hw : w < 2 ^ 32) (hl : w % 128 = 0x29) (h : rowJump w = some r) : Covers r w := by
  unfold rowJump at h
  split at h
  case h_5 => cases h
  case h_1 hop | h_2 hop =>
    obtain rfl := Option.some.inj h
    exact Covers.of_places [(13, 6)] 0xf8000000 0x6000000 hw rfl rfl hl (land_of_field 27 5 hop) (.one rfl rfl) (by decide)
  case h_3 hop | h_4 hop =>
    obtain rfl := Option.some.inj h
    exact Covers.of_places [] 0xf8000000 0x6000000 hw rfl rfl hl (land_of_field 27 5 hop) (.one rfl rfl) (by decide)

theorem rowJseg_covers {w : Nat} {r : Row} (hw : w < 2 ^ 32) (hl : w % 128 = 0x2b) (h : rowJseg w = some r) : Covers r w := by
  obtain rfl := Option.some.inj h
  exact Covers.of_places [(7, 6), (13, 11), (24,
    1)] 0 0x0 hw rfl rfl hl (land_of_field 0 0 (Nat.mod_one _ |>.trans (Nat.mod_one _).symm)) .none (by decide)

theorem rowCfetch_covers {w : Nat} {r : Row} (hw : w < 2 ^ 32) (hl : w % 128 = 0x2d) (h : rowCfetch w = some r) : Covers r w := by
  unfold rowCfetch at h
  split at h
  case h_2 => cases h
  case h_1 hop =>
    obtain rfl := Option.some.inj h
    exact Covers.of_places [(7, 6), (13, 6), (19, 6), (25, 4)] 0xe0000000 0 hw rfl rfl hl (land_of_field 29 3 hop) .none (by decide)

theorem rowLd_covers {w : Nat} {r : Row} (hw : w < 2 ^ 32) (hl : w % 128 = 0x2f) (h : rowLd w = some r) : Covers r w := by
  unfold rowLd at h
  split at h
  case h_7 => cases h
  all_goals
    rename_i hop
    obtain rfl := Option.some.inj h
    exact Covers.of_places [(7, 6), (13, 6), (19, 6), (25, 1), (26, 3)] 0xe0000000 0 hw rfl rfl hl (land_of_field 29 3 hop) .none (by decide)

theorem rowSt_covers {w : Nat} {r : Row} (hw : w < 2 ^ 32) (hl : w % 128 = 0x31) (h : rowSt w = some r) : Covers r w := by
  unfold rowSt at h
  split at h
  case h_8 => cases h
  case h_7 hop =>
    obtain rfl := Option.some.inj h
    exact Covers.of_places [(7, 6), (13, 6), (19, 6)] 0xe0000000 0 hw rfl rfl hl (land_of_field 29 3 hop) .none (by decide)
  all_goals
    rename_i hop
    obtain rfl := Option.some.inj h
    exact Covers.of_places [(7, 6), (13, 6), (19, 6), (25, 1), (26, 3)] 0xe0000000 0 hw rfl rfl hl (land_of_field 29 3 hop) .none (by decide)

theorem rowLocal_covers {w : Nat} {r : Row} (hw : w < 2 ^ 32) (hl : w % 128 = 0x33) (h : rowLocal w = some r) : Covers r w := by
  unfold rowLocal at h
  split at h
  case h_7 => cases h
  case h_1 hop | h_2 hop =>
    obtain rfl := Option.some.inj h
    exact Covers.of_places [(7, 6), (13, 6), (19, 6), (25, 1), (26, 3)] 0xe0000000 0 hw rfl rfl hl (land_of_field 29 3 hop) .none (by decide)
  case h_3 hop | h_4 hop | h_5 hop | h_6 hop =>
    obtain rfl := Option.some.inj h
    exact Covers.of_places [(7, 6), (13, 6), (19, 6), (26, 3)] 0xe0000000 0 hw rfl rfl hl (land_of_field 29 3 hop) .none (by decide)

theorem rowAtom_covers {w : Nat} {r : Row} (hw : w < 2 ^ 32) (hl : w % 128 = 0x35) (h : rowAtom w = some r) : Covers r w := by
  unfold rowAtom at h
  split at h
  case h_14 => cases h
  all_goals
    rename_i hop
    obtain rfl := Option.some.inj h
    exact Covers.of_places [(7, 6), (13, 6), (19, 6), (25, 1), (26, 2)] 0xf0000000 0 hw rfl rfl hl (land_of_field 28 4 hop) .none (by decide)

theorem rowRed_covers {w : Nat} {r : Row} (hw : w < 2 ^ 32) (hl : w % 128 = 0x37) (h : rowRed w = some r) : Covers r w := by
  unfold rowRed at h
  split at h
  case h_12 => cases h
  all_goals
    rename_i hop
    obtain rfl := Option.some.inj h
    exact Covers.of_places [(7, 6), (13, 6), (19, 6), (25, 1), (26, 2)] 0xf0000000 0 hw rfl rfl hl (land_of_field 28 4 hop) .none (by decide)

theorem rowOrder_covers {w : Nat} {r : Row} (hw : w < 2 ^ 32) (hl : w % 128 = 0x39) (h : rowOrder w = some r) : Covers r w := by
  unfold rowOrder at h
  split at h
  case h_8 => cases h
  case h_1 hop | h_2 hop | h_3 hop =>
    obtain rfl := Option.some.inj h
    exact Covers.of_places [(7, 3)] 0xe0000000 0 hw rfl rfl hl (land_of_field 29 3 hop) .none (by decide)
  case h_4 hop | h_5 hop | h_6 hop | h_7 hop =>
    obtain rfl := Option.some.inj h
    exact Covers.of_places [(13, 6), (19, 6)] 0xe0000000 0 hw rfl rfl hl (land_of_field 29 3 hop) .none (by decide)

theorem rowLattice_covers {w : Nat} {r : Row} (hw : w < 2 ^ 32) (hl : w % 128 = 0x3b) (h : rowLattice w = some r) : Covers r w := by
  unfold rowLattice at h
  split at h
  case h_5 => cases h
  case h_1 hop | h_2 hop | h_3 hop | h_4 hop =>
    obtain rfl := Option.some.inj h
    exact Covers.of_places [(7, 6), (13, 6), (19, 6), (26, 1)] 0xe0000000 0 hw rfl rfl hl (land_of_field 29 3 hop) .none (by decide)

theorem rowQueue_covers {w : Nat} {r : Row} (hw : w < 2 ^ 32) (hl : w % 128 = 0x3d) (ho : w / 0x20000000 % 8 = 0) (h : rowQueue w = some r) :
    Covers r w := by
  unfold rowQueue at h
  split at h
  case h_4 => cases h
  case h_1 hop =>
    obtain rfl := Option.some.inj h
    exact Covers.of_places [(7, 4), (13, 6), (23,
      6)] 0xe0380000 0 hw rfl rfl hl (land_or (land_of_field 19 3 hop) (land_of_field 29 3 ho)) .none (by decide)
  case h_2 hop =>
    obtain rfl := Option.some.inj h
    exact Covers.of_places [(7, 4), (13, 6)] 0xe0380000 0 hw rfl rfl hl (land_or (land_of_field 19 3 hop) (land_of_field 29 3 ho)) .none (by decide)
  case h_3 hop =>
    obtain rfl := Option.some.inj h
    exact Covers.of_places [(7, 4)] 0xe0380000 0 hw rfl rfl hl (land_or (land_of_field 19 3 hop) (land_of_field 29 3 ho)) .none (by decide)

theorem rowStrm_covers {w : Nat} {r : Row} (hw : w < 2 ^ 32) (hl : w % 128 = 0x3d) (ho : w / 0x20000000 % 8 = 1) (h : rowStrm w = some r) :
    Covers r w := by
  obtain rfl := Option.some.inj h
  exact Covers.of_places [(7, 6), (13, 6), (19, 6), (25, 4)] 0xe0000000 0 hw rfl rfl hl (land_of_field 29 3 ho) .none (by decide)

theorem rowCopy_covers {w : Nat} {r : Row} (hw : w < 2 ^ 32) (hl : w % 128 = 0x3f) (h : rowCopy w = some r) : Covers r w := by
  unfold rowCopy at h
  split at h
  case h_6 => cases h
  all_goals
    rename_i hop
    obtain rfl := Option.some.inj h
    exact Covers.of_places [(7, 6), (13, 6), (19, 6), (25, 4)] 0xe0000000 0 hw rfl rfl hl (land_of_field 29 3 hop) .none (by decide)

theorem rowApnd_covers {w : Nat} {r : Row} (hw : w < 2 ^ 32) (hl : w % 128 = 0x41) (h : rowApnd w = some r) : Covers r w := by
  unfold rowApnd at h
  split at h
  case h_4 => cases h
  case h_1 hop | h_2 hop | h_3 hop =>
    obtain rfl := Option.some.inj h
    exact Covers.of_places [(7, 6), (13, 6), (19, 6), (25, 4)] 0xe0000000 0 hw rfl rfl hl (land_of_field 29 3 hop) .none (by decide)

theorem rowNet_covers {w : Nat} {r : Row} (hw : w < 2 ^ 32) (hl : w % 128 = 0x43) (h : rowNet w = some r) : Covers r w := by
  unfold rowNet at h
  split at h
  case h_3 => cases h
  case h_1 hop | h_2 hop =>
    obtain rfl := Option.some.inj h
    exact Covers.of_places [(7, 6), (13, 6), (19, 6), (25, 4)] 0xe0000000 0 hw rfl rfl hl (land_of_field 29 3 hop) .none (by decide)

theorem rowWait_covers {w : Nat} {r : Row} (hw : w < 2 ^ 32) (hl : w % 128 = 0x45) (h : rowWait w = some r) : Covers r w := by
  obtain rfl := Option.some.inj h
  exact Covers.of_places [(7, 5), (12, 5), (17, 4), (21, 4), (25,
    4)] 0 0x0 hw rfl rfl hl (land_of_field 0 0 (Nat.mod_one _ |>.trans (Nat.mod_one _).symm)) .none (by decide)

theorem rowWaitmGset_covers {w : Nat} {r : Row} (hw : w < 2 ^ 32) (hl : w % 128 = 0x47) (h : rowWaitmGset w = some r) : Covers r w := by
  unfold rowWaitmGset at h
  split at h
  case h_3 => cases h
  case h_1 hop =>
    obtain rfl := Option.some.inj h
    exact Covers.of_places [(13, 6), (19, 6)] 0xf8000000 0x6000000 hw rfl rfl hl (land_of_field 27 5 hop) (.one rfl rfl) (by decide)
  case h_2 hop =>
    obtain rfl := Option.some.inj h
    exact Covers.of_places [(7, 3), (13, 6)] 0xf8000000 0x6000000 hw rfl rfl hl (land_of_field 27 5 hop) (.one rfl rfl) (by decide)

theorem rowSync_covers {w : Nat} {r : Row} (hw : w < 2 ^ 32) (hl : w % 128 = 0x49) (h : rowSync w = some r) : Covers r w := by
  unfold rowSync at h
  split at h
  case h_7 => cases h
  case h_4 hop =>
    obtain rfl := Option.some.inj h
    exact Covers.of_places [(13, 6)] 0xf8000000 0x6000000 hw rfl rfl hl (land_of_field 27 5 hop) (.one rfl rfl) (by decide)
  case h_5 hop =>
    obtain rfl := Option.some.inj h
    exact Covers.of_places [(7, 4), (13, 6)] 0xf8000000 0x6000000 hw rfl rfl hl (land_of_field 27 5 hop) (.one rfl rfl) (by decide)
  case h_6 hop =>
    obtain rfl := Option.some.inj h
    exact Covers.of_places [(13, 6), (19, 6)] 0xf8000000 0x6000000 hw rfl rfl hl (land_of_field 27 5 hop) (.one rfl rfl) (by decide)
  case h_1 hop | h_2 hop | h_3 hop =>
    obtain rfl := Option.some.inj h
    exact Covers.of_places [(7, 4)] 0xf8000000 0x6000000 hw rfl rfl hl (land_of_field 27 5 hop) (.one rfl rfl) (by decide)

theorem rowSystem_covers {w : Nat} {r : Row} (hw : w < 2 ^ 32) (hl : w % 128 = 0x4b) (h : rowSystem w = some r) : Covers r w := by
  unfold rowSystem at h
  split at h
  case h_7 => cases h
  case h_2 hop =>
    obtain rfl := Option.some.inj h
    exact Covers.of_places [(7, 6), (13, 6), (19, 6)] 0xf8000000 0x6000000 hw rfl rfl hl (land_of_field 27 5 hop) (.one rfl rfl) (by decide)
  case h_3 hop =>
    obtain rfl := Option.some.inj h
    exact Covers.of_places [(7, 18)] 0xf8000000 0x6000000 hw rfl rfl hl (land_of_field 27 5 hop) (.one rfl rfl) (by decide)
  case h_4 hop =>
    obtain rfl := Option.some.inj h
    exact Covers.of_places [(7, 6), (13, 6)] 0xf8000000 0x6000000 hw rfl rfl hl (land_of_field 27 5 hop) (.one rfl rfl) (by decide)
  case h_1 hop | h_5 hop | h_6 hop =>
    obtain rfl := Option.some.inj h
    exact Covers.of_places [] 0xf8000000 0x6000000 hw rfl rfl hl (land_of_field 27 5 hop) (.one rfl rfl) (by decide)

theorem low_of_major {w m : Nat} (hodd : w % 2 = 1) (hm : w / 2 % 64 = m) : w % 128 = 2 * m + 1 := by omega

/-- A word that passes the checks of its row is the encoding of the row's instruction. -/
theorem rowOf_covers {w : Nat} {r : Row} (hw : w < 2 ^ 32) (hodd : w % 2 = 1) (hs : subReserved w = false) (h : rowOf w = some r) : Covers r w := by
  unfold rowOf at h
  split at h
  case h_1 hm => exact rowIaluR_covers hw (low_of_major hodd hm) h
  case h_2 hm => exact rowIaluI_covers hw (low_of_major hodd hm) h
  case h_3 hm => exact rowLogicR_covers hw (low_of_major hodd hm) h
  case h_4 hm => exact rowLogicI_covers hw (low_of_major hodd hm) h
  case h_5 hm => exact rowBfx_covers hw (low_of_major hodd hm) h
  case h_6 hm => exact rowBfi_covers hw (low_of_major hodd hm) h
  case h_7 hm => exact rowCmp_covers hw (low_of_major hodd hm) h
  case h_8 hm => exact rowMove_covers hw (low_of_major hodd hm) h
  case h_9 hm => exact rowMovi_covers hw (low_of_major hodd hm) h
  case h_10 hm => exact rowMovh_covers hw (low_of_major hodd hm) h
  case h_11 hm => exact rowFpR_covers hw (low_of_major hodd hm) h
  case h_12 hm => exact rowFpS_covers hw (low_of_major hodd hm) h
  case h_13 hm => exact rowCvt_covers hw (low_of_major hodd hm) h
  case h_14 hm => exact rowQnt_covers hw (low_of_major hodd hm) h
  case h_15 hm => exact rowDeq_covers hw (low_of_major hodd hm) h
  case h_16 hm => exact rowLane_covers hw (low_of_major hodd hm) h
  case h_17 hm => exact rowFloe_covers hw (low_of_major hodd hm) h
  case h_18 hm => exact rowBra_covers hw (low_of_major hodd hm) h
  case h_19 hm => exact rowBrc_covers hw (low_of_major hodd hm) h
  case h_20 hm => exact rowJump_covers hw (low_of_major hodd hm) h
  case h_21 hm => exact rowJseg_covers hw (low_of_major hodd hm) h
  case h_22 hm => exact rowCfetch_covers hw (low_of_major hodd hm) h
  case h_23 hm => exact rowLd_covers hw (low_of_major hodd hm) h
  case h_24 hm => exact rowSt_covers hw (low_of_major hodd hm) h
  case h_25 hm => exact rowLocal_covers hw (low_of_major hodd hm) h
  case h_26 hm => exact rowAtom_covers hw (low_of_major hodd hm) h
  case h_27 hm => exact rowRed_covers hw (low_of_major hodd hm) h
  case h_28 hm => exact rowOrder_covers hw (low_of_major hodd hm) h
  case h_29 hm => exact rowLattice_covers hw (low_of_major hodd hm) h
  case h_30 hm =>
    split at h
    case isTrue ho => exact rowStrm_covers hw (low_of_major hodd hm) ho h
    case isFalse ho =>
      have hs' : w / 0x20000000 % 8 < 2 := by simpa [subReserved, hm] using hs
      exact rowQueue_covers hw (low_of_major hodd hm) (by omega) h
  case h_31 hm => exact rowCopy_covers hw (low_of_major hodd hm) h
  case h_32 hm => exact rowApnd_covers hw (low_of_major hodd hm) h
  case h_33 hm => exact rowNet_covers hw (low_of_major hodd hm) h
  case h_34 hm => exact rowWait_covers hw (low_of_major hodd hm) h
  case h_35 hm => exact rowWaitmGset_covers hw (low_of_major hodd hm) h
  case h_36 hm => exact rowSync_covers hw (low_of_major hodd hm) h
  case h_37 hm => exact rowSystem_covers hw (low_of_major hodd hm) h
  case h_38 => cases h

theorem encodeWord_of_places {i : Instr} {w k m : Nat} (ps : List (Nat × Nat)) (hw : w < 2 ^ 32) (he : encodeWord i = packed k (ps.map (readAt w)))
    (h : Nat.land w m = k) (hfix : placed k 1 ps = true ∧ k < 2 ^ 32 ∧ k &&& m = k ∧ m ||| placesMask ps = 2 ^ 32 - 1) : encodeWord i = w := by
  obtain ⟨hp, hk, hkm, hall⟩ := hfix
  exact he.trans (packed_readAt hp hw hk hall (h.trans hkm.symm))

theorem decode32_encodes {w : Nat} {i : Instr} (hw : w < 2 ^ 32) (hodd : w % 2 = 1) (h : decode32 w = .ok i) :
    i.wf = true ∧ i.halfwords = 2 ∧ encodeWord i = w := by
  obtain ⟨-, -, hs, r, hr, rfl, hm, hwf⟩ := decode32_ok_iff.1 h
  exact ⟨hwf, rowOf_covers hw hodd hs hr hm⟩

/-- The encoding of the two operands of a halfword gives it back. -/
theorem halfword_eq {h : Nat} (op : Nat) (hh : h < 2 ^ 16) (heven : h % 2 = 0) (hop : h / 0x1000 % 16 = op) :
    op * 0x1000 + (BitVec.ofNat 6 (h / 64)).toNat * 0x40 + (BitVec.ofNat 5 (h / 2)).toNat * 0x2 = h := by
  simp only [BitVec.toNat_ofNat]
  omega

theorem operands16_zero {h : Nat} (hd : BitVec.ofNat 6 (h / 64) = 0) (hs : BitVec.ofNat 5 (h / 2) = 0) (heven : h % 2 = 0) : h % 0x1000 = 0 := by
  have h1 := congrArg BitVec.toNat hd
  have h2 := congrArg BitVec.toNat hs
  simp at h1 h2
  omega

theorem decode16_encodes {h : Nat} {i : Instr} (hh : h < 2 ^ 16) (heven : h % 2 = 0) (hd : decode16 h = .ok i) :
    i.wf = true ∧ i.halfwords = 1 ∧ encodeWord i = h := by
  simp only [decode16] at hd
  split_ifs at hd with h0 h9
  · obtain rfl := Except.ok.inj hd
    exact ⟨rfl, rfl, h9.symm⟩
  · split at hd
    case h_17 => cases hd
    case h_1 hop | h_10 hop =>
      obtain rfl := Except.ok.inj hd
      refine ⟨?_, rfl, halfword_eq _ hh heven hop⟩
      have hne : ¬ (BitVec.ofNat 6 (h / 64) = 0 ∧ BitVec.ofNat 5 (h / 2) = 0) := fun hz => by
        have := operands16_zero hz.1 hz.2 heven
        omega
      show (true && !(decide (BitVec.ofNat 6 (h / 64) = 0) && decide (BitVec.ofNat 5 (h / 2) = 0))) = true
      simpa using not_and_or.1 hne
    all_goals
      rename_i hop
      obtain rfl := Except.ok.inj hd
      exact ⟨rfl, rfl, halfword_eq _ hh heven hop⟩

theorem decodeMatrix_encodes {w : Nat} {i : Instr} (hw : w < 2 ^ 32) (h : decodeMatrix w = some i) :
    i.wf = true ∧ i.halfwords = 2 ∧ encodeWord i = w := by
  simp only [decodeMatrix] at h
  split at h
  · cases h
  · next j hj =>
    obtain ⟨hf, rfl⟩ := Option.ite_none_right_eq_some.1 h |>.imp id Option.some.inj
    split at hj
    case h_7 => cases hj
    case h_1 | h_3 =>
      obtain ⟨hm, hi⟩ := Option.ite_none_right_eq_some.1 hj
      obtain rfl := Option.some.inj hi
      exact ⟨hf, rfl, encodeWord_of_places [(7, 5), (12, 6), (18, 6), (24, 4), (28, 1)] hw rfl hm (by decide)⟩
    case h_2 =>
      obtain ⟨hm, hi⟩ := Option.ite_none_right_eq_some.1 hj
      obtain rfl := Option.some.inj hi
      exact ⟨hf, rfl, encodeWord_of_places [(7, 5), (12, 5)] hw rfl hm (by decide)⟩
    case h_4 =>
      obtain ⟨hm, hi⟩ := Option.ite_none_right_eq_some.1 hj
      obtain rfl := Option.some.inj hi
      exact ⟨hf, rfl, encodeWord_of_places [(7, 2), (12, 20)] hw rfl hm (by decide)⟩
    case h_5 =>
      split_ifs at hj with h0 h1
      · obtain rfl := Option.some.inj hj
        exact ⟨hf, rfl, encodeWord_of_places [(7, 4)] hw rfl h0 (by decide)⟩
      · obtain rfl := Option.some.inj hj
        exact ⟨hf, rfl, encodeWord_of_places [(7, 4)] hw rfl h1 (by decide)⟩
    case h_6 =>
      obtain ⟨hm, hi⟩ := Option.ite_none_right_eq_some.1 hj
      obtain rfl := Option.some.inj hi
      exact ⟨hf, rfl, encodeWord_of_places [(7, 4)] hw rfl hm (by decide)⟩

theorem decodeHost_encodes {w : Nat} {i : Instr} (hw : w < 2 ^ 32) (h : decodeHost w = some i) : i.halfwords = 2 ∧ encodeWord i = w := by
  simp only [decodeHost] at h
  split_ifs at h with hk hs
  · obtain rfl := Option.some.inj h
    exact ⟨rfl, hk.symm⟩
  · obtain rfl := Option.some.inj h
    exact ⟨rfl, encodeWord_of_places [(7, 5), (15, 5), (20, 5)] hw rfl hs (by decide)⟩

/-- Settles O6: every bit of a word is fixed by its row, or stands in one of the places of the row's instruction. -/
theorem everyWordHasOneMeaning : Obligations.EveryWordHasOneMeaning :=
  ⟨fun _ _ hw hodd h => decode32_encodes hw hodd h, fun _ _ hh heven h => decode16_encodes hh heven h,
    fun _ _ hw h => decodeMatrix_encodes hw h, fun _ _ hw h => decodeHost_encodes hw h⟩

end Sys2Proof

/-!
# Words that no rule lets decode (R85, R90, R91, R92, R93)
-/
namespace Sys2Proof.Claims
open Sys2Proof.Machine

theorem decode32_reserved {w : Nat} (h : w / 2 % 64 = 0 ∨ (0x26 ≤ w / 2 % 64 ∧ w / 2 % 64 ≤ 0x2F) ∨ 0x36 ≤ w / 2 % 64) : decode32 w = .error 2 := by
  have hm : majReserved (w / 2 % 64) = true := by
    simpa [majReserved, or_assoc] using h
  simp [decode32, hm]

theorem decode32_matrix {w : Nat} (hlo : 0x30 ≤ w / 2 % 64) (hhi : w / 2 % 64 ≤ 0x35) : decode32 w = .error 3 := by
  have hm : majReserved (w / 2 % 64) = false := by
    simp only [majReserved, Bool.or_eq_false_iff, Bool.and_eq_false_iff, decide_eq_false_iff_not]
    omega
  simp [decode32, hm, hlo]

/-- The reasons of R90 that a word's bits give. -/
theorem decode32_error_lt {w r : Nat} (h : decode32 w = .error r) : r < 8 := by
  dsimp only [decode32] at h
  split_ifs at h
  iterate 3 · obtain rfl := Except.error.inj h; decide
  cases hrow : rowOf w with
  | none =>
    rw [hrow] at h
    obtain rfl := Except.error.inj h
    decide
  | some row =>
    rw [hrow] at h
    dsimp only at h
    split_ifs at h
    all_goals obtain rfl := Except.error.inj h; decide

/-- A landed 32-bit word is fetched. -/
theorem fetch_of_landed_odd {k : Core} {pc : Nat} (h : Landed k pc 2) (hodd : k.halfword pc % 2 = 1) :
    k.fetch pc false = .word (wordAt32 k pc) 4 := by
  obtain ⟨hland, hclean, hslot⟩ := h
  unfold Core.fetch wordAt32
  simp [show k.landed pc = true from hland 0 (by decide), show k.badHalf pc = false from hclean 0 (by decide), hodd,
    show k.landed (pc + 2) = true from hland 1 (by decide), show k.badHalf (pc + 2) = false from hclean 1 (by decide), hslot rfl]

theorem decodeWord_odd {k : Core} {pc : Nat} (hodd : k.halfword pc % 2 = 1) : decodeWord (wordAt32 k pc) 4 = decode32 (wordAt32 k pc) := by
  have h0 := Core.halfword_lt k pc
  have h1 := Core.halfword_lt k (pc + 2)
  have hlow : wordAt32 k pc % 0x10000 = k.halfword pc := by unfold wordAt32; omega
  have hhigh : wordAt32 k pc / 0x10000 = k.halfword (pc + 2) := by unfold wordAt32; omega
  rw [decodeWord, if_neg (by decide), hlow, hhigh]
  have hd : decode [k.halfword pc, k.halfword (pc + 2)] = (decode32 (wordAt32 k pc)).map (fun i => (i, 2)) := by
    rw [decode, if_neg (by omega), Nat.mod_eq_of_lt h0, Nat.mod_eq_of_lt h1]
    rfl
  rw [hd]
  cases decode32 (wordAt32 k pc) <;> rfl

/-- The turn of a fragment that may issue tries the instruction at its program counter. -/
theorem issueTurn_eq_attempt {u : State} {f id : Nat} (h : MayIssue u f id) :
    u.issueTurn f id = u.afterIssue f id ((u.issuing f id).attempt f id) := by
  obtain ⟨hst, hpick, hwait⟩ := h.active
  have hwait' : ((u.floe f).frag id).wait = .none := hwait
  have htrap : u.dueTrap f id = false := by simp [State.dueTrap, hwait']
  have htry : u.mayTry f id = true := by simp [State.mayTry, h.boundary.atBoundary, hwait', State.next, hst, hpick]
  unfold State.issueTurn
  simp only [htrap, h.first.1, h.first.2, hwait, htry, h.oldest, h.window]
  rfl

section
variable {u : State} {f id : Nat}

/-- A fetched word that does not decode is tried as an emulation trap (R90). -/
theorem attempt_of_rejected {w len r : Nat} (hfence : (u.floe f).fence = none) (hf : u.fetched f id = .word w len)
    (hd : decodeWord w len = .error r) : u.attempt f id = .next (u.emulTrap f id w len r) := by
  unfold State.attempt
  simp only [hfence, hf, hd]

theorem TrapTaken.notHeld {s t : State} {x : Xlat} {word r : Nat} (h : TrapTaken s word r x t) : t.heldAt s.cur.floe s.cur.frag = false := by
  simp [State.heldAt, h.entered.frag, WaitFor.unissued]

/-- The emulation trap of a word, its entry not held back, is taken (R92). -/
theorem emulTrap_taken {s : State} {x : Xlat} {line : StackLine} (h : MayTrap s x line) (word len : Nat) {r : Nat} (hr : r < 256) :
    TrapTaken s word r x (s.emulTrap s.cur.floe s.cur.frag word len r) := by
  rw [emulTrap_eq h]
  exact Entered.trapTaken rfl (illfOf_reason _ _ _ hr)
    (entered h.2.2 (trapped s _ _ _ _ _) (fun _ _ _ => rfl) (thandlerOf s.fl.uivec) false (decide (r ≤ 11)) s.now)

/-- The turn of a fragment that may issue and stands at a word that does not decode. -/
theorem issueTurn_of_rejected {r : Nat} (h : MayIssue u f id) (hl : Landed (u.core (floeCore f)) (u.frag f id).pc.toNat 2)
    (hodd : (u.core (floeCore f)).halfword (u.frag f id).pc.toNat % 2 = 1)
    (hd : decode32 (wordAt32 (u.core (floeCore f)) (u.frag f id).pc.toNat) = .error r) :
    u.issueTurn f id = u.afterIssue f id
      (.next ((u.issuing f id).emulTrap f id (wordAt32 (u.core (floeCore f)) (u.frag f id).pc.toNat) 4 r)) := by
  have hv := issuing_issuing h.active.2.2
  have hcore : (u.issuing f id).core (floeCore f) = u.core (floeCore f) := by rw [hv.rest]; rfl
  obtain ⟨hpc, -, -, hwait, -⟩ := hv.frags id
  have hfetched : (u.issuing f id).fetched f id = .word (wordAt32 (u.core (floeCore f)) (u.frag f id).pc.toNat) 4 := by
    unfold State.fetched
    rw [hcore, hpc, hwait, h.active.2.2]
    exact fetch_of_landed_odd hl hodd
  rw [issueTurn_eq_attempt h, attempt_of_rejected (by rw [hv.floe]; exact h.window) hfetched ((decodeWord_odd hodd).trans hd)]

end

/-- Settles O9: what the fetch hands on does not decode, and its trap, not held back, enters the handler before the turn ends. -/
theorem rejectedWordsTrap : Obligations.RejectedWordsTrap := by
  refine ⟨fun w h => decode32_reserved h, fun w hlo hhi => decode32_matrix hlo hhi, rfl, fun s ts f id r hn hm hl hodd hd => ?_⟩
  have hv := issuing_issuing hm.active.2.2
  refine ⟨_, hv, fun x line hmay => ?_⟩
  have htaken := emulTrap_taken hmay (wordAt32 ((awake s ts).core (floeCore f)) ((awake s ts).frag f id).pc.toNat) 4
    (lt_trans (decode32_error_lt hd) (by decide))
  have hheld := htaken.notHeld
  obtain ⟨hf, hid, -⟩ := hv.cur
  rw [hf, hid] at htaken hheld
  refine ⟨_, ?_, htaken⟩
  rw [step_of_nextTurn hn, runTurn, issueTurn_of_rejected hm hl hodd hd, State.afterIssue, if_neg (by rw [hheld]; exact Bool.false_ne_true)]

end Sys2Proof.Claims

/-!
# Targets of jumps (R87, R256, R346, R349, R352, R388, R432)
-/
namespace Sys2Proof.Claims
open Sys2Proof.Machine

section
variable {s : State}

/-! ## Relative targets (R87, R346) -/

theorem relTarget_inSlot {o : BitVec 19} (h : inSlot s o) : relTarget s.fg.pc o = some (BitVec.ofInt 18 (relative s o)) := by
  have hn : 0 ≤ relative s o := by unfold inSlot at h; omega
  rw [relTarget, if_pos ⟨hn, h⟩]
  refine congrArg some ?_
  conv_rhs => rw [← Int.toNat_of_nonneg hn, BitVec.ofInt_natCast]
  rfl

theorem relTarget_outside {o : BitVec 19} (h : ¬ inSlot s o) : relTarget s.fg.pc o = none := if_neg (fun hx => h hx.2)

theorem relJump_inSlot {o : BitVec 19} (h : inSlot s o) (k : State → State) : relJump o k s = .jump (BitVec.ofInt 18 (relative s o)) (k s) := by
  rw [relJump, relTarget_inSlot h]
theorem relJump_outside {o : BitVec 19} (h : ¬ inSlot s o) (k : State → State) : relJump o k s = .trap 8 := by
  rw [relJump, relTarget_outside h]

/-! ## Segments (R388) -/

theorem segTarget_lt (k : BitVec 6) (o : BitVec 11) : segTarget k o < 2 ^ 18 := by unfold segTarget; omega

/-- An address of the code space is landed as its slot is (R188). -/
theorem landed_iff {t : Nat} (h : t < 2 ^ 18) : s.cr.landed t = true ↔ landedAt s t := by
  simp [Core.landed, landedAt, Nat.mod_eq_of_lt (show t / 4096 < 64 by omega)]

/-! ## One arm of the dispatch each -/

theorem exec_bra (o : BitVec 19) : exec (.bra o) s = execBra o s := rfl
theorem exec_callRel (o : BitVec 19) : exec (.callRel o) s = execCallRel o s := rfl
theorem exec_brc (o : BitVec 19) (h n : BitVec 1) (p : BitVec 3) : exec (.brc o h n p) s = execBrc o h n p s := rfl
theorem exec_brx (a : BitVec 6) : exec (.brx a) s = execBrx a s := rfl
theorem exec_callReg (a : BitVec 6) : exec (.callReg a) s = execCallReg a s := rfl
theorem exec_jseg (l : BitVec 1) (o : BitVec 11) (k : BitVec 6) : exec (.jseg l o k) s = execJseg l o k s := rfl

theorem completes_jseg {l : BitVec 1} {o : BitVec 11} {k : BitVec 6} (h : landedAt s (segTarget k o)) :
    Completes (.jseg l o k) s (Moved s
      { target := BitVec.ofNat 18 (segTarget k o), set := if l = 1 then linked s else fun fl => fl, also := landedAt s (segTarget k o) }) := by
  have hland : s.cr.landed (k.toNat * 4096 + o.toNat * 2) = true := (landed_iff (segTarget_lt k o)).2 h
  by_cases hl : l = 1
  · rw [if_pos hl]
    refine completes_jump (exec_jseg l o k) (g := linked s) ?_ rfl rfl rfl
    dsimp only
    rw [if_neg (by simp [hland]), if_pos hl]
    rfl
  · rw [if_neg hl]
    refine completes_jump_id (exec_jseg l o k) ?_ rfl
    dsimp only
    rw [if_neg (by simp [hland]), if_neg hl]
    rfl

/-! ## Bad targets (R349, R388) -/

theorem regJump_bad {t : W64} {c : BitVec 8} (h : BadTarget s t c) (k : State → State) : regJump t k s = .fault c.toNat t false := by
  cases h with
  | odd hodd => rw [regJump, if_pos hodd]; rfl
  | far heven hfar => rw [regJump, if_neg (by omega), if_pos hfar]; rfl
  | absent heven hlt habs =>
    rw [regJump, if_neg (by omega), if_neg (by omega), if_pos (by simpa using mt (landed_iff hlt).1 habs)]
    rfl

variable {x : Xlat} {line : StackLine}

/-- A precise fault of an instruction, its entry not held back, is taken (R256). -/
theorem preciseFault_taken (h : MayTrap s x line) (c : BitVec 8) (hc : c ≠ 9) (a : W64) :
    FaultTaken s c a x (s.preciseFault s.cur.floe s.cur.frag c.toNat a false) := by
  obtain ⟨⟨hreq, hhalt, hrecs⟩, hten, he⟩ := h
  have hne : c.toNat ≠ 9 := fun h9 => hc (BitVec.eq_of_toNat_eq h9)
  have hent := entered he (faulted s c a) (fun _ _ _ => rfl) (thandlerOf s.fl.uivec) false false s.now
  have heq : s.preciseFault s.cur.floe s.cur.frag c.toNat a false = s.enterTrap s.cur.floe s.cur.frag c.toNat a s.fg.pc false := by
    unfold State.preciseFault
    simp only [Bool.false_and, if_neg hne]
    rfl
  rw [heq, enterTrap_eq he (trapHeld_eq_false hreq hhalt hrecs he) hten, BitVec.ofNat_toNat, BitVec.setWidth_eq]
  exact hent

/-- An instruction whose body answers a fault that nothing holds back takes it. -/
theorem completes_fault {i : Instr} {body : State → Res} {c : BitVec 8} {a : W64} (h : MayTrap s x line) (hx : exec i s = floeOp i s body)
    (hb : body s = .fault c.toNat a false) (hc : c ≠ 9) : Completes i s (FaultTaken s c a x) := by
  refine ⟨_, hx, ?_⟩
  rw [hb]
  exact preciseFault_taken h c hc a

theorem BadTarget.ne_nine {t : W64} {c : BitVec 8} (h : BadTarget s t c) : c ≠ 9 := by
  cases h <;> decide

end

/-- The jumps with a rule of R87, each by its kind of target; no other instruction has one. -/
inductive JumpView : Instr → Prop
  | bra (o : BitVec 19) : JumpView (.bra o)
  | callRel (o : BitVec 19) : JumpView (.callRel o)
  | brc (o : BitVec 19) (h n : BitVec 1) (p : BitVec 3) : JumpView (.brc o h n p)
  | brx (a : BitVec 6) : JumpView (.brx a)
  | callReg (a : BitVec 6) : JumpView (.callReg a)
  | jseg (l : BitVec 1) (o : BitVec 11) (k : BitVec 6) : JumpView (.jseg l o k)
  | ret : JumpView .ret
  | other {i : Instr} (h : relOffset i = none ∧ ∀ s, regTarget s i = none ∧ branchRule s i = none) : JumpView i

theorem jumpView (i : Instr) : JumpView i := by
  cases i with
  | bra o => exact .bra o
  | callRel o => exact .callRel o
  | brc o h n p => exact .brc o h n p
  | brx a => exact .brx a
  | callReg a => exact .callReg a
  | jseg l o k => exact .jseg l o k
  | ret => exact .ret
  | _ => exact .other ⟨rfl, fun _ => ⟨rfl, rfl⟩⟩

/-- Settles O20: each body jumps where its rule says, by the lemma on its kind of target. -/
theorem jumpsGoToTheirTargets : Obligations.JumpsGoToTheirTargets := by
  refine ⟨fun s i m _ hr ha => ?_, fun s h => completes_jump_id exec_ret (regJump_good h _) rfl⟩
  cases jumpView i with
  | bra o => cases hr; exact completes_jump_id (exec_bra o) (relJump_inSlot ha _) rfl
  | callRel o => cases hr; exact completes_jump (exec_callRel o) (relJump_inSlot ha _) rfl rfl rfl
  | brx a => cases hr; exact completes_jump_id (exec_brx a) (regJump_good ha _) rfl
  | callReg a => cases hr; exact completes_jump (exec_callReg a) (regJump_good ha _) rfl rfl rfl
  | jseg l o k => cases hr; exact completes_jseg ha
  | brc | ret => cases hr
  | other h => rw [(h.2 s).2] at hr; cases hr

/-- Settles O23: the first check that fails answers before the body jumps or links. -/
theorem badTargetsTrap : Obligations.BadTargetsTrap := by
  refine ⟨fun s i o x line hi ho hmay => ?_, fun s i a c x line hi hbad hmay => ?_, fun s l o k x line hland hmay => ?_⟩
  · cases jumpView i with
    | bra o' => cases hi; exact completes_trap hmay (exec_bra _) (relJump_outside ho _) (by decide)
    | callRel o' => cases hi; exact completes_trap hmay (exec_callRel _) (relJump_outside ho _) (by decide)
    | brc o' h n p => cases hi; exact completes_trap hmay (exec_brc _ h n p) (by dsimp only; rw [relTarget_outside ho]) (by decide)
    | brx | callReg | jseg | ret => cases hi
    | other h => rw [h.1] at hi; cases hi
  · cases jumpView i with
    | brx r => cases hi; exact completes_fault hmay (exec_brx r) (regJump_bad hbad _) hbad.ne_nine
    | callReg r => cases hi; exact completes_fault hmay (exec_callReg r) (regJump_bad hbad _) hbad.ne_nine
    | ret => cases hi; exact completes_fault hmay exec_ret (regJump_bad hbad _) hbad.ne_nine
    | bra | callRel | brc | jseg => cases hi
    | other h => rw [(h.2 s).1] at hi; cases hi
  · refine completes_fault hmay (exec_jseg l o k) ?_ (by decide)
    have hout : s.cr.landed (k.toNat * 4096 + o.toNat * 2) = false := Bool.eq_false_iff.2 (mt (landed_iff (segTarget_lt k o)).1 hland)
    exact if_pos (by rw [hout]; rfl)

end Sys2Proof.Claims

/-!
# Conversions (R95, R114, R123, R124, R360, R361, R421)
-/
namespace Sys2Proof.Claims
open Sys2Proof.Machine

/-- One result per active lane, of sources that a conversion reads, and n issues of stochastic rounding counted (R124). -/
def conversion (srcs : List VGroup) (n : W32) (d : BitVec 6) (v : Nat → W32) : Effect :=
  { srcs := srcs, dsts := [VGroup.one d], vec := perLane d v, stoch := n }

section
variable {s : State} {i : Instr} {srcs : List VGroup} {r : BitVec 2} {d : BitVec 6}

/-- What the registers of a conversion must meet does not depend on its count. -/
theorem CanRun.uncounted {n : W32} {v : Nat → W32} (h : CanRun s (conversion srcs n d v)) : CanRun s (conversion srcs 0 d v) :=
  ⟨h.inRange, h.noBacking, h.hasEntry, h.hasRoom, h.clean, h.also⟩

/-- The vector body of a conversion, before `STOCHCTR` is counted. -/
theorem vecOp_conversion {v : State → Nat → W32} (h : CanRun s (conversion srcs 0 d (v s))) :
    ∃ u, vecOp srcs [VGroup.one d] (fun s l => [⟨d.toNat, l, v s l⟩]) s = .go u ∧ BodyAfter s (conversion srcs 0 d (v s)) u := by
  refine ⟨_, ?_, vec_body h (perLane_ok _ _ d _ rfl rfl) rfl (show 7 < 8 by decide) List.nodup_nil rfl (BlkOnly.refl _) rfl⟩
  have hgate : s.gate srcs [VGroup.one d] false false = none := h.gate rfl rfl
  have hwrites : (s.lanes.map (fun l => [⟨d.toNat, l, v s l⟩])).flatten = (conversion srcs 0 d (v s)).writes s := writes_of (fun _ => rfl)
  unfold vecOp
  rw [hgate]
  exact congrArg (fun ws => Res.go ((s.popPorts srcs).setVs ws)) hwrites

theorem completes_conversion {v : State → Nat → Nat} (hx : exec i s = floeOp i s (convOp srcs r d v)) (hl : i.halfwords = 2)
    (h : CanRun s (conversion srcs (if r = 3 then 1 else 0) d (fun l => BitVec.ofNat 32 (v s l)))) :
    Completes i s (After s (conversion srcs (if r = 3 then 1 else 0) d (fun l => BitVec.ofNat 32 (v s l)))) := by
  obtain ⟨u, hu, hbody⟩ := vecOp_conversion (v := fun s l => BitVec.ofNat 32 (v s l)) h.uncounted
  have hlen : i.halfwords * 2 = 4 := by rw [hl]
  by_cases hr : r = 3
  · refine completes_of_body (u := u.updFl (fun fl => { fl with stoch := fl.stoch + 1 })) hx ?_ ?_ hlen
    · rw [convOp, hu]
      exact congrArg Res.go (if_pos hr)
    · rw [if_pos hr]
      exact hbody.count rfl 1
  · refine completes_of_body (u := u) hx ?_ ?_ hlen
    · rw [convOp, hu]
      exact congrArg Res.go (if_neg hr)
    · rwa [if_neg hr]

end

theorem fieldN_zero_eight (x : W32) : fieldN x 0 8 = x.toNat % 2 ^ 8 := by simp [fieldN, bitsOf]

/-- Settles O17: `CVT` and `QNT` are the vector body of one effect with its count, `DEQ` is that body alone. -/
theorem conversionResults : Obligations.ConversionResults := by
  intro s i e _ hr h
  cases i with
  | cvt st r f m a d =>
    cases hr
    exact completes_conversion (v := fun s l => cvtOne f.toNat m.toNat r.toNat (st = 1) (s.laneHash l) (lowCode m.toNat (s.V a.toNat l))) rfl rfl h
  | qnt st r f b a d =>
    cases hr
    simp only [← fieldN_zero_eight] at h ⊢
    exact completes_conversion
      (v := fun s l => qntOne f.toNat r.toNat (st = 1) (s.laneHash l) (s.V a.toNat l).toNat (fieldN (s.V b.toNat l) 0 8)) rfl rfl h
  | deq f b a d =>
    cases hr
    simp only [← fieldN_zero_eight] at h ⊢
    exact completes_vec (f := fun s l => [⟨d.toNat, l, BitVec.ofNat 32 (deqOne f.toNat (lowCode f.toNat (s.V a.toNat l)) (fieldN (s.V b.toNat l) 0 8))⟩])
      (show exec (.deq f b a d) s = execDeq f b a d s from rfl) rfl h (perLane_ok _ _ d _ rfl rfl) (fun _ => rfl) rfl rfl
      (show 7 < 8 by decide) rfl rfl
  | _ => exact absurd hr.symm (Option.some_ne_none _)

end Sys2Proof.Claims

/-!
# Loads, stores, line operations and joins issue (R83, R171, R196, R246, R391, R441)
-/
namespace Sys2Proof.Claims
open Sys2Proof.Machine

section
variable {s : State}

theorem nibble_eq (x : W32) : BitVec.ofNat 128 (fieldN x 0 4) = (x &&& 0xF).setWidth 128 := by
  refine BitVec.eq_of_toNat_eq ?_
  have h : x.toNat &&& 15 = x.toNat % 2 ^ 4 := Nat.and_two_pow_sub_one_eq_mod _ 4
  simp only [fieldN, bitsOf, BitVec.toNat_ofNat, BitVec.toNat_setWidth, BitVec.toNat_and, Nat.pow_zero, Nat.div_one]
  exact congrArg (fun n => n % 2 ^ 128) h.symm

/-- `STN` (R441). -/
theorem completes_stn {m b d : BitVec 6} {a : Access} {place : LaneAcc → Place} (ha : loadRule s (.stn m b d) = some a)
    (h : CanIssue s a place) : Completes (.stn m b d) s (Issues s a place) := by
  cases ha
  refine completes_access (nine := false) (conflict := false)
    (lanes := accLanes 5 0 m b (fun s l => BitVec.ofNat 128 (fieldN (s.V d.toNat l) 0 4)))
    (show exec (.stn m b d) s = execStn m b d s from rfl) rfl rfl rfl rfl ?_ rfl (by simp) (.inr rfl) h
  unfold accLanes
  rw [if_neg (by decide)]
  refine List.map_congr_left (fun l _ => ?_)
  dsimp only
  rw [addrM_eq s 5 m b l (by decide), if_pos rfl, nibble_eq]
  rfl

/-! ### The size of a lattice access (R245) -/

theorem sizeBytes_sizeL (z : BitVec 1) : sizeBytes (sizeL z) = if z = 1 then 8 else 4 := by revert z; decide
theorem sizeRegs_sizeL (z : BitVec 1) : sizeRegs (sizeL z) = if z = 1 then 2 else 1 := by revert z; decide
theorem sizeL_cases (z : BitVec 1) : (sizeL z).toNat ≤ 5 ∧ sizeL z ≠ 5 ∧ (sizeL z).toNat = if z = 1 then 3 else 2 := by revert z; decide

/-- `LJOIN` (R350). -/
theorem completes_ljoin {z : BitVec 1} {m b d : BitVec 6} {a : Access} {place : LaneAcc → Place} (ha : loadRule s (.ljoin z m b d) = some a)
    (h : CanIssue s a place) : Completes (.ljoin z m b d) s (Issues s a place) := by
  cases ha
  obtain ⟨hle, hne, hnat⟩ := sizeL_cases z
  refine completes_access (nine := false) (conflict := false) (lanes := lanesL z m b d)
    (show exec (.ljoin z m b d) s = execLjoin z m b d s from rfl) ?_ rfl rfl rfl ?_ rfl (by simp) (.inr rfl) h
  · unfold joinBody
    rw [sizeBytes_sizeL, sizeRegs_sizeL]
    rfl
  · unfold lanesL accLanes
    rw [if_neg (by decide)]
    refine List.map_congr_left (fun l _ => ?_)
    dsimp only
    rw [addrM_eq s _ m b l hle, if_neg hne, dataM_eq, hnat]
    rfl

end

/-- Settles O24, one lemma per form of the operands. -/
theorem loadsAndStoresIssue : Obligations.LoadsAndStoresIssue := by
  intro s i a place hwf hr h
  have hf : i.fieldsOk = true := (Bool.and_eq_true_iff.1 hwf).2
  cases i with
  | ld z u m b d | ldNa z u m b d | ldAcqBlk z u m b d | ldAcqDie z u m b d | ldAcqPkg z u m b d | ldAcqSys z u m b d =>
    cases hr
    obtain ⟨hz, -⟩ := Bool.and_eq_true_iff.1 hf
    exact completes_load rfl rfl (of_decide_eq_true hz) h
  | st z u m b d | stNa z u m b d | stRelBlk z u m b d | stRelDie z u m b d | stRelPkg z u m b d | stRelSys z u m b d =>
    cases hr
    obtain ⟨hz, -⟩ := Bool.and_eq_true_iff.1 hf
    exact completes_store rfl rfl (of_decide_eq_true hz) h
  | stn m b d => exact completes_stn hr h
  | cacheWb m b | cacheInv m b | cacheWbinv m b => cases hr; exact completes_lineOp rfl rfl h
  | ljoin z m b d => exact completes_ljoin hr h
  | _ => exact absurd hr.symm (Option.some_ne_none _)

end Sys2Proof.Claims

/-!
# Stores at their bank (R97, R218, R222, R323, R441)
-/
namespace Sys2Proof.Tab
variable {α : Type}

theorem get?_cons_filter_ne (p : Nat × α → Bool) (t : Tab α) {k j : Nat} (v : α) (h : j ≠ k) :
    get? (((k, v) :: t).filter p) j = get? (t.filter p) j := by
  by_cases hp : p (k, v) = true
  · rw [List.filter_cons_of_pos hp]; exact if_neg h.symm
  · rw [List.filter_cons_of_neg hp]

theorem get?_filter_cons_congr (p : Nat × α → Bool) (e : Nat × α) {t t' : Tab α} {j : Nat} (h : get? (t.filter p) j = get? (t'.filter p) j) :
    get? ((e :: t).filter p) j = get? ((e :: t').filter p) j := by
  by_cases hp : p e = true
  · rw [List.filter_cons_of_pos hp, List.filter_cons_of_pos hp]
    simp only [get?, h]
  · rw [List.filter_cons_of_neg hp, List.filter_cons_of_neg hp, h]

/-- What a filter leaves of the other keys does not depend on what is written at one. -/
theorem get?_filter_put_ne (p : Nat × α → Bool) (t : Tab α) {k j : Nat} (v : α) (h : j ≠ k) :
    get? ((t.put k v).filter p) j = get? (t.filter p) j := by
  induction t with
  | nil => exact get?_cons_filter_ne p [] v h
  | cons e t ih =>
    obtain ⟨a, x⟩ := e
    simp only [put]
    split_ifs with hlt heq
    · exact get?_cons_filter_ne p _ v h
    · subst heq
      rw [get?_cons_filter_ne p t v h, get?_cons_filter_ne p t x h]
    · exact get?_filter_cons_congr p _ ih

theorem get?_filter_del_ne (p : Nat × α → Bool) (t : Tab α) {k j : Nat} (h : j ≠ k) :
    get? ((t.del k).filter p) j = get? (t.filter p) j := by
  induction t with
  | nil => rfl
  | cons e t ih =>
    obtain ⟨a, x⟩ := e
    simp only [del]
    split_ifs with heq
    · subst heq
      rw [ih, get?_cons_filter_ne p t x h]
    · exact get?_filter_cons_congr p _ ih

theorem get?_filter_none (p : Nat × α → Bool) {t : Tab α} {k : Nat} (h : t.get? k = none) : get? (t.filter p) k = none := by
  induction t with
  | nil => rfl
  | cons e t ih =>
    obtain ⟨a, x⟩ := e
    simp only [get?] at h
    split_ifs at h with heq
    by_cases hp : p (a, x) = true
    · rw [List.filter_cons_of_pos hp]; simp only [get?, if_neg heq, ih h]
    · rw [List.filter_cons_of_neg hp]; exact ih h

theorem get?_filter_some {p : Nat × α → Bool} {t : Tab α} {k : Nat} {v : α} (h : t.get? k = some v) (hp : p (k, v) = true) :
    get? (t.filter p) k = some v := by
  induction t with
  | nil => cases h
  | cons e t ih =>
    obtain ⟨a, x⟩ := e
    simp only [get?] at h
    split_ifs at h with heq
    · obtain rfl := Option.some.inj h
      subst heq
      rw [List.filter_cons_of_pos hp]; exact if_pos rfl
    · by_cases hq : p (a, x) = true
      · rw [List.filter_cons_of_pos hq]; simp only [get?, if_neg heq, ih h]
      · rw [List.filter_cons_of_neg hq]; exact ih h

theorem mem_of_get? {t : Tab α} {k : Nat} {x : α} (h : t.get? k = some x) : (k, x) ∈ t := by
  induction t with
  | nil => cases h
  | cons e t ih =>
    obtain ⟨a, y⟩ := e
    simp only [get?] at h
    split_ifs at h with heq
    · obtain rfl := Option.some.inj h
      subst heq
      exact List.mem_cons_self
    · exact List.mem_cons_of_mem _ (ih h)

/-- A question that the new entry answers as the old one, and an absent one with no, is answered alike after a write. -/
theorem any_put (p : Nat × α → Bool) (t : Tab α) (k : Nat) (v : α) (h : p (k, v) = ((t.get? k).map (fun x => p (k, x))).getD false) :
    (t.put k v).any p = t.any p := by
  induction t with
  | nil => simpa [put, get?] using h
  | cons e t ih =>
    obtain ⟨a, x⟩ := e
    simp only [put]
    split_ifs with hlt heq
    · rw [List.any_cons]
      cases hg : get? ((a, x) :: t) k with
      | none => rw [hg] at h; rw [h]; rfl
      | some y =>
        rw [hg, Option.map_some, Option.getD_some] at h
        rw [h]
        cases hy : p (k, y) with
        | false => rfl
        | true => exact (List.any_eq_true.2 ⟨(k, y), mem_of_get? hg, hy⟩).symm
    · subst heq
      simp only [get?, if_true, Option.map_some, Option.getD_some] at h
      rw [List.any_cons, List.any_cons, h]
    · rw [List.any_cons, List.any_cons, ih (by simpa [get?, Ne.symm heq] using h)]

end Sys2Proof.Tab

namespace Sys2Proof.Claims
open Sys2Proof.Machine

/-! ## A core's time -/

theorem laterOf_cases (a b : BitVec 16) : laterOf a b = a ∨ laterOf a b = b := by
  unfold laterOf
  split
  · exact .inr rfl
  · exact .inl rfl

theorem laterOf_laterOf (a b : BitVec 16) : laterOf (laterOf a b) b = laterOf a b := by
  rcases laterOf_cases a b with h | h
  · rw [h, h]
  · rw [h]; exact (laterOf_cases b b).elim id id

/-- A core whose time is not raised stays as it is. -/
theorem raisedCore_of_later {k : Core} {t : BitVec 16} (h : laterOf k.ctime t = k.ctime) : raisedCore k t = k := if_pos h

/-- Raising a core's time moves no more than its time and its copies. -/
theorem raisedCore_frame (k : Core) (t : BitVec 16) : raisedCore k t = { k with ctime := laterOf k.ctime t, l1 := (raisedCore k t).l1 } := by
  unfold raisedCore
  split
  · rename_i h; rw [h]
  · rfl

/-- Which copies stay depends on the core's time and its copies alone. -/
theorem raisedCore_l1 (k : Core) (L : Tab L1Line) (t : BitVec 16) : raisedCore { k with l1 := L } t = { raisedCore k t with l1 :=
    (if laterOf k.ctime t = k.ctime then L else L.filter (fun e => !(earlier e.2.rts (laterOf k.ctime t - 0x4000)))) } := by
  unfold raisedCore
  dsimp only
  split
  · rfl
  · rfl

/-- A copy granted at the time to which its core rises stays. -/
theorem not_earlier_lease (w : BitVec 16) : earlier w (w - 0x4000) = false := by
  unfold earlier
  rw [show w - 0x4000 - w = (0xC000 : BitVec 16) by bv_omega]
  decide

/-! ## A line written again -/

/-- A core's write of an owned line (R222), whether its instruction has written the line before or not (R323). -/
theorem coreWrite_line {s : State} {c ln key : Nat} {x : StackLine} (h : Owned s (dieOfCore c) ln key x) (q : BankReq) {again : Bool}
    (hq : q.written.any (fun n => n = ln) = again) (off : Nat) (bs : List Byte) (na : Bool) (hn : off + bs.length ≤ 128) :
    s.coreWrite q c ln key off bs na =
      let w := if again then clamped s (dieOfCore c) x.wts else laterOf (clamped s (dieOfCore c) x.rts) q.time + 1
      let y : StackLine := { x with
        data := Line.setBytes x.data off bs, wts := w, rts := if again then clamped s (dieOfCore c) x.rts else w, dirty := true
        poison := (x.poison &&& ~~~(q.covers ln off bs.length)) ||| 0 }
      { s with
        cores := s.cores.put c (raisedCore { s.core c with
          l1 := match (s.core c).l1.get? ln with
            | none => (s.core c).l1
            | some _ => if na then (s.core c).l1.del ln else (s.core c).l1.put ln ⟨y.data, y.wts, y.rts, y.wts, y.poison, key⟩ } w)
        dies := s.dies.put (dieOfCore c) { s.die (dieOfCore c) with
          stack := (s.die (dieOfCore c)).stack.put ln y, stime := laterOf (s.die (dieOfCore c)).stime w }
        dir := s.dir.set DirEntry.reset (regionOf ln) { s.dirEntry (regionOf ln) with owner := some (dieOfCore c) } } := by
  unfold State.coreWrite
  dsimp only
  rw [hq, stackWrite_owned h _ _ _ _ _ _ hn]
  simp only [raiseCtime_raised, State.stackLine, State.updCore, State.setCore, State.core, State.die, Tab.getD_put_self,
    Tab.get?_put_self, Tab.put_put, Option.getD_some] <;> rfl

/-! ## The horizon of a die (R218) -/

theorem horizon_congr {s t : State} {d : Nat} (hswept : (t.die d).swept = (s.die d).swept) (hmap : (t.die d).map = (s.die d).map)
    (hcores : ∀ k, (t.core k).ctime = (s.core k).ctime) : t.horizon d = s.horizon d := by
  unfold State.horizon State.coresOfDie
  simp only [hswept, hmap, hcores]

theorem raisedTo_core_ctime (s : State) (c k : Nat) (w : BitVec 16) :
    ((raisedTo s c w).core k).ctime = if k = c then laterOf (s.core c).ctime w else (s.core k).ctime := by
  by_cases hk : k = c
  · subst hk
    rw [if_pos rfl, raisedTo, State.updCore_core_self]
  · rw [if_neg hk]
    exact congrArg Core.ctime (Tab.getD_put_ne _ _ _ hk)

/-! ## One lane's bytes -/

/-- A byte that one lane leaves in its line. -/
theorem byte_of_lane {x : Line} {a : LaneAcc} {size pa key i : Nat} {nc : Bool} (hp : a.place = .phys pa key nc) (hi : i < 128) :
    Line.byte (Line.setBytes x (pa % 128) (toBytes size a.data.toNat)) i = (covers a size i).getD (Line.byte x i) := by
  rw [Line.byte_setBytes _ _ _ _ hi, covers, hp]
  dsimp only
  by_cases hlo : pa % 128 ≤ i
  · rw [if_pos hlo, toBytes_get?]
    by_cases hhi : i < pa % 128 + size
    · rw [if_pos (by omega), if_pos ⟨hlo, hhi⟩]
      refine BitVec.eq_of_getLsbD_eq (fun j hj => ?_)
      rw [Option.getD_some, Option.getD_some, BitVec.getLsbD_ofNat, BitVec.getLsbD_extractLsb', testBit_div_256]
      rfl
    · rw [if_neg (by omega), if_neg (by omega)]
  · rw [if_neg hlo, if_neg (by omega)]
    rfl

/-- What an operation without a destination leaves of a window's saved registers is what the window had saved. -/
theorem bindSaved_updFloe {s : State} {f : Nat} {o : MemOp} (hd : o.dest = .none) (lane : Nat) (g : Floe → Floe) :
    (s.bindSaved f o lane).updFloe f g = s.updFloe f g := by
  unfold State.bindSaved
  split
  · rfl
  · simp only [State.boundWords, MemOp.boundS, hd]
    unfold State.keepWrites
    cases hf : (s.floe f).fence with
    | none => rfl
    | some w =>
      dsimp only
      rw [State.updFloe_updFloe]
      refine congrArg (fun fl => ({ s with floes := s.floes.put f (g fl) } : State)) ?_
      show { s.floe f with fence := some w } = s.floe f
      rw [← hf]

/-! ## Lanes that write one line -/

/-- From u, lanes of an operation have written their bytes into line ln of floe f's die, which held y and holds z with the stamps w. -/
structure WritesLine (u : State) (f : Nat) (o : MemOp) (ln : Nat) (w : BitVec 16) (y : StackLine) (as : List LaneAcc) (t : State)
    (z : StackLine) : Prop where
  frame  : OnlyLine { u with floes := t.floes } (floeCore f) (dieOfCore (floeCore f)) ln t
  floes  : ∀ g, g ≠ f → t.floes.get? g = u.floes.get? g
  floe   : t.floe f = as.foldl (fun fl a => fl.markDone o.seq a.lane) (u.floe f)
  line   : (t.die (dieOfCore (floeCore f))).stack.get? ln = some z
  bits   : z.owned = true ∧ z.dirty = true ∧ z.key = y.key ∧ z.wts = w ∧ z.rts = w
  bytes  : ∀ i < 128, Line.byte z.data i = storedByte o.size as i (Line.byte y.data i)
  core   : t.core (floeCore f) = { raisedCore (u.core (floeCore f)) w with l1 := (t.core (floeCore f)).l1 }
  copy   : (t.core (floeCore f)).l1.get? ln = if o.noAlloc ∨ (u.core (floeCore f)).l1.get? ln = none then none
    else some ⟨z.data, w, w, w, z.poison, z.key⟩
  copies : ∀ n, n ≠ ln → (t.core (floeCore f)).l1.get? n = (raisedCore (u.core (floeCore f)) w).l1.get? n
  region : ∀ a b, t.oneRegion a b = u.oneRegion a b

/-- A request of floe f may write line ln, which holds y, with the stamps w. -/
structure MayWriteLine (u : State) (f ln : Nat) (q : BankReq) (w : BitVec 16) (y : StackLine) : Prop where
  owned : Owned u (dieOfCore (floeCore f)) ln y.key y
  wts   : (if q.written.any (fun n => n = ln) then clamped u (dieOfCore (floeCore f)) y.wts
    else laterOf (clamped u (dieOfCore (floeCore f)) y.rts) q.time + 1) = w
  rts   : q.written.any (fun n => n = ln) = true → clamped u (dieOfCore (floeCore f)) y.rts = w
  holds : clamped (raisedTo u (floeCore f) w) (dieOfCore (floeCore f)) w = w

section
variable {u t : State} {f ln : Nat} {o : MemOp} {q : BankReq} {w : BitVec 16} {y z : StackLine} {a : LaneAcc} {as : List LaneAcc}

/-- A lane of a store that goes to line ln under a key. -/
def LaneIn (size ln key : Nat) (a : LaneAcc) : Prop := ∃ pa nc, a.place = .phys pa key nc ∧ pa / 128 = ln ∧ pa % 128 + size ≤ 128

/-- A floe's core after its store has reached its bank: its own copy of the line follows the line z, and an `.NA` store drops it (R441). -/
def copied (k : Core) (na : Bool) (ln : Nat) (z : StackLine) : Core :=
  { k with l1 := match k.l1.get? ln with
      | none => k.l1
      | some _ => if na then k.l1.del ln else k.l1.put ln ⟨z.data, z.wts, z.rts, z.wts, z.poison, z.key⟩ }

theorem copied_get?_self (k : Core) (na : Bool) (ln : Nat) (z : StackLine) : (copied k na ln z).l1.get? ln =
    if na ∨ k.l1.get? ln = none then none else some ⟨z.data, z.wts, z.rts, z.wts, z.poison, z.key⟩ := by
  unfold copied
  cases h : k.l1.get? ln with
  | none => simp [h]
  | some v => cases na <;> simp

theorem raised_copied_get?_self (k : Core) (na : Bool) (ln : Nat) {z : StackLine} (hz : z.rts = w) : (raisedCore (copied k na ln z) w).l1.get? ln =
    if na ∨ k.l1.get? ln = none then none else some ⟨z.data, z.wts, z.rts, z.wts, z.poison, z.key⟩ := by
  have hself := copied_get?_self k na ln z
  unfold raisedCore
  split
  · exact hself
  next hne =>
    have hlater : laterOf k.ctime w = w := (laterOf_cases k.ctime w).resolve_left hne
    show Tab.get? (((copied k na ln z).l1.filter _)) ln = _
    split
    next hnone =>
      rw [if_pos hnone] at hself
      exact Tab.get?_filter_none _ hself
    next hsome =>
      rw [if_neg hsome] at hself
      refine Tab.get?_filter_some hself ?_
      show (!(earlier z.rts (laterOf k.ctime w - 0x4000))) = true
      rw [hz, hlater, not_earlier_lease]
      rfl

theorem raised_copied_get?_ne (k : Core) (na : Bool) {ln n : Nat} (z : StackLine) (w : BitVec 16) (h : n ≠ ln) :
    (raisedCore (copied k na ln z) w).l1.get? n = (raisedCore k w).l1.get? n := by
  rw [copied, raisedCore_l1]
  unfold raisedCore
  dsimp only
  cases k.l1.get? ln with
  | none => split <;> rfl
  | some v =>
    cases na
    · split
      · exact Tab.get?_put_ne _ _ h
      · exact Tab.get?_filter_put_ne _ _ _ h
    · split
      · exact Tab.get?_del_ne _ h
      · exact Tab.get?_filter_del_ne _ _ h

theorem raised_copied_frame (k : Core) (na : Bool) (ln : Nat) (z : StackLine) (w : BitVec 16) :
    raisedCore (copied k na ln z) w = { raisedCore k w with l1 := (raisedCore (copied k na ln z) w).l1 } := by
  rw [copied, raisedCore_l1]

/-- A core that keeps its translations keeps the regions that they show. -/
theorem oneRegion_put {s : State} {c : Nat} {k : Core} (hr : k.ranges = (s.core c).ranges) (hp : k.pages = (s.core c).pages)
    (hcores : t.cores = s.cores.put c k) (a b : Nat) : t.oneRegion a b = s.oneRegion a b := by
  unfold State.oneRegion
  rw [hcores, Tab.any_put]
  dsimp only
  rw [hr, hp, State.core, Tab.getD]
  cases s.cores.get? c <;> rfl

/-- The state once one lane's write has left line z, with the stamps w, in line ln of floe f's die. -/
def lineLeft (u : State) (f ln : Nat) (o : MemOp) (w : BitVec 16) (a : LaneAcc) (z : StackLine) : State :=
  ({ u with
    cores := u.cores.put (floeCore f) (raisedCore (copied (u.core (floeCore f)) o.noAlloc ln z) w)
    dies := u.dies.put (dieOfCore (floeCore f)) { u.die (dieOfCore (floeCore f)) with
      stack := (u.die (dieOfCore (floeCore f))).stack.put ln z, stime := laterOf (u.die (dieOfCore (floeCore f))).stime w }
    dir := u.dir.set DirEntry.reset (regionOf ln) { u.dirEntry (regionOf ln) with owner := some (dieOfCore (floeCore f)) } } : State).updFloe f
      (fun fl => fl.markDone o.seq a.lane)

theorem lineLeft_core : (lineLeft u f ln o w a z).core (floeCore f) = raisedCore (copied (u.core (floeCore f)) o.noAlloc ln z) w :=
  Tab.getD_put_self _ _ _ _
theorem lineLeft_die : (lineLeft u f ln o w a z).die (dieOfCore (floeCore f)) = { u.die (dieOfCore (floeCore f)) with
    stack := (u.die (dieOfCore (floeCore f))).stack.put ln z, stime := laterOf (u.die (dieOfCore (floeCore f))).stime w } :=
  Tab.getD_put_self _ _ _ _

theorem writesLine_lineLeft (hbits : z.owned = true ∧ z.dirty = true ∧ z.key = y.key ∧ z.wts = w ∧ z.rts = w)
    (hbytes : ∀ i < 128, Line.byte z.data i = (covers a o.size i).getD (Line.byte y.data i)) :
    WritesLine u f o ln w y [a] (lineLeft u f ln o w a z) z where
  frame := ⟨rfl, fun k hk => Tab.get?_put_ne _ _ hk, fun k hk => Tab.get?_put_ne _ _ hk, by rw [lineLeft_die]; rfl,
    fun n hn => by rw [lineLeft_die]; exact Tab.get?_put_ne _ _ hn⟩
  floes g hg := Tab.get?_put_ne _ _ hg
  floe := State.updFloe_floe_self ..
  line := by rw [lineLeft_die]; exact Tab.get?_put_self _ _ _
  bits := hbits
  bytes := hbytes
  core := by rw [lineLeft_core]; exact raised_copied_frame ..
  copy := by
    obtain ⟨-, -, -, hwts, hrts⟩ := hbits
    rw [lineLeft_core, raised_copied_get?_self _ _ _ hrts, hwts, hrts]
  copies n hn := by rw [lineLeft_core]; exact raised_copied_get?_ne _ _ _ _ hn
  region a b := oneRegion_put (k := raisedCore (copied (u.core (floeCore f)) o.noAlloc ln z) w)
    (by rw [raisedCore_frame]; rfl) (by rw [raisedCore_frame]; rfl) rfl a b

/-- A store's lane at its bank. -/
theorem writesLine_lane (h : MayWriteLine u f ln q w y) (hk : o.kind = .store) (hd : o.dest = .none) (ha : LaneIn o.size ln y.key a) :
    ∃ z, WritesLine u f o ln w y [a]
      ((u.bindPerformed f o a (u.performLane q f o a)).updFloe f (fun fl => fl.markDone o.seq a.lane)) z := by
  obtain ⟨pa, nc, hpa, hln, hfit⟩ := ha
  obtain ⟨hown, hw, hrts, -⟩ := h
  have hlen : (toBytes o.size a.data.toNat).length = o.size := toBytes_length ..
  have hperf : u.bindPerformed f o a (u.performLane q f o a) =
      (u.coreWrite q (floeCore f) ln y.key (pa % 128) (toBytes o.size a.data.toNat) o.noAlloc).bindSaved f o a.lane := by
    unfold State.bindPerformed State.performLane
    simp only [hk, hpa, State.writePlace, State.bindLane, hd, hln]
    rfl
  rw [hperf, bindSaved_updFloe hd, coreWrite_line hown q rfl _ _ _ (by rw [hlen]; exact hfit)]
  dsimp only
  rw [hw]
  have hr : (if q.written.any (fun n => n = ln) = true then clamped u (dieOfCore (floeCore f)) y.rts else w) = w := by
    split
    · rename_i hq; exact hrts hq
    · rfl
  rw [hr]
  set z : StackLine := { y with
    data := Line.setBytes y.data (pa % 128) (toBytes o.size a.data.toNat), wts := w, rts := w, dirty := true
    poison := (y.poison &&& ~~~(q.covers ln (pa % 128) (toBytes o.size a.data.toNat).length)) ||| 0 } with hz
  exact ⟨z, writesLine_lineLeft (z := z) ⟨hown.owned, rfl, rfl, rfl, rfl⟩ (fun i hi => byte_of_lane hpa hi)⟩

/-- Writing a line twice with the same stamps. -/
theorem WritesLine.trans {v : State} {x : StackLine} {bs : List LaneAcc} (h : WritesLine u f o ln w y as t z)
    (k : WritesLine t f o ln w z bs v x) : WritesLine u f o ln w y (as ++ bs) v x := by
  have hctime : (t.core (floeCore f)).ctime = laterOf (u.core (floeCore f)).ctime w := by rw [h.core]; exact raisedCore_ctime _ _
  have hstays : raisedCore (t.core (floeCore f)) w = t.core (floeCore f) :=
    raisedCore_of_later (by rw [hctime, laterOf_laterOf])
  obtain ⟨-, -, hkey, -, -⟩ := h.bits
  obtain ⟨howned, hdirty, hkey', hwts, hrts⟩ := k.bits
  refine
    { frame := ⟨?_, fun n hn => (k.frame.cores n hn).trans (h.frame.cores n hn), fun n hn => (k.frame.dies n hn).trans (h.frame.dies n hn), ?_,
        fun n hn => (k.frame.lines n hn).trans (h.frame.lines n hn)⟩
      floes := fun g hg => (k.floes g hg).trans (h.floes g hg)
      floe := by rw [k.floe, h.floe, List.foldl_append]
      line := k.line
      bits := ⟨howned, hdirty, hkey'.trans hkey, hwts, hrts⟩
      bytes := fun i hi => by rw [k.bytes i hi, h.bytes i hi, storedByte, storedByte, storedByte, List.foldl_append]
      core := ?_
      copy := ?_
      copies := fun n hn => by rw [k.copies n hn, hstays, h.copies n hn]
      region := fun a b => (k.region a b).trans (h.region a b) }
  · rw [k.frame.rest, h.frame.rest]
  · have hv : v.die (dieOfCore (floeCore f)) = { t.die (dieOfCore (floeCore f)) with
        stack := (v.die (dieOfCore (floeCore f))).stack, stime := (v.die (dieOfCore (floeCore f))).stime } := k.frame.die
    have ht : t.die (dieOfCore (floeCore f)) = { u.die (dieOfCore (floeCore f)) with
        stack := (t.die (dieOfCore (floeCore f))).stack, stime := (t.die (dieOfCore (floeCore f))).stime } := h.frame.die
    exact hv.trans (by rw [ht]; rfl)
  · conv_lhs => rw [k.core, hstays, h.core]
  · rw [k.copy, h.copy]
    by_cases hn : o.noAlloc = true ∨ (u.core (floeCore f)).l1.get? ln = none
    · rw [if_pos hn, if_pos hn, if_pos (.inr rfl)]
    · rw [if_neg hn, if_neg hn, if_neg (by simpa using fun h => hn (.inl h))]

/-- What a line written keeps of its owner. -/
theorem WritesLine.owned (h : WritesLine u f o ln w y as t z) (hm : Owned u (dieOfCore (floeCore f)) ln y.key y) :
    Owned t (dieOfCore (floeCore f)) ln z.key z := by
  have hlaunches : t.launches = u.launches := by rw [h.frame.rest]
  refine ⟨hm.die, h.line, h.bits.1, rfl, fun a ha hne => ?_, ?_, fun l => ?_, fun l hl => ?_⟩
  · rw [State.die, Tab.getD, h.frame.dies a hne]
    exact hm.alone a ha hne
  · rw [h.frame.rest]; exact hm.still
  · rw [State.launch, hlaunches]; exact hm.unarmed l
  · rw [hlaunches] at hl
    rw [State.accesses, funext (fun r => h.region (Prod.fst r % 2 ^ 46) ln)]
    exact hm.plain l hl

/-- The next lane of the same request may write the line. -/
theorem WritesLine.mayWrite {q' : BankReq} (h : WritesLine u f o ln w y as t z) (hm : MayWriteLine u f ln q w y)
    (hq : q'.written.any (fun n => n = ln) = true) : MayWriteLine t f ln q' w z := by
  obtain ⟨-, -, -, hwts, hrts⟩ := h.bits
  have hdie : t.die (dieOfCore (floeCore f)) = { u.die (dieOfCore (floeCore f)) with
    stack := (t.die (dieOfCore (floeCore f))).stack, stime := (t.die (dieOfCore (floeCore f))).stime } := h.frame.die
  have hcore : (t.core (floeCore f)).ctime = laterOf (u.core (floeCore f)).ctime w := by rw [h.core]; exact raisedCore_ctime _ _
  have hother (k : Nat) (hk : k ≠ floeCore f) : (t.core k).ctime = (u.core k).ctime := by
    rw [State.core, Tab.getD, h.frame.cores k hk]; rfl
  have hholds (v : State) (hv : v.die (dieOfCore (floeCore f)) = t.die (dieOfCore (floeCore f)))
      (hc : ∀ k, (v.core k).ctime = (t.core k).ctime) : clamped v (dieOfCore (floeCore f)) w = w := by
    have hhor : v.horizon (dieOfCore (floeCore f)) = (raisedTo u (floeCore f) w).horizon (dieOfCore (floeCore f)) := by
      refine horizon_congr (by rw [hv, hdie]; rfl) (by rw [hv, hdie]; rfl) (fun k => ?_)
      rw [hc, raisedTo_core_ctime]
      split
      · rename_i hk; rw [hk, hcore]
      · rename_i hk; exact hother k hk
    exact (congrArg (fun x => clampTs x w) hhor).trans hm.holds
  have hnow := hholds t rfl (fun _ => rfl)
  refine ⟨h.owned hm.owned, by rw [if_pos hq, hwts, hnow], fun _ => by rw [hrts, hnow], hholds _ rfl (fun k => ?_)⟩
  rw [raisedTo_core_ctime]
  split
  · rename_i hk; rw [hk, hcore, laterOf_laterOf]
  · rfl

/-- The lanes of a store in one line, one request. -/
theorem writesLine_performLanes (hk : o.kind = .store) (hd : o.dest = .none) : ∀ (as : List LaneAcc) (a : LaneAcc) (u : State) (q : BankReq)
    (y : StackLine), MayWriteLine u f ln q w y → (∀ b ∈ a :: as, LaneIn o.size ln y.key b) →
    ∃ z, WritesLine u f o ln w y (a :: as) (u.performLanes q f o (a :: as)) z := by
  intro as
  induction as with
  | nil =>
    intro a u q y hm hin
    exact writesLine_lane hm hk hd (hin a List.mem_cons_self)
  | cons b as ih =>
    intro a u q y hm hin
    obtain ⟨pa, nc, hpa, hln, -⟩ := hin a List.mem_cons_self
    obtain ⟨z, hz⟩ := writesLine_lane hm hk hd (hin a List.mem_cons_self)
    obtain ⟨-, -, hkey, -, -⟩ := hz.bits
    have hnext : (if (u.performLane q f o a).poison = true then q else { q with written := a.writes o.kind ++ q.written }) =
        { q with written := ln :: q.written } := by
      unfold State.performLane LaneAcc.writes
      simp only [hk, hpa, hln, OpKind.isWrite]
      rfl
    obtain ⟨x, hx⟩ := ih b _ { q with written := ln :: q.written } z (hz.mayWrite hm (by simp))
      (fun c hc => by rw [hkey]; exact hin c (List.mem_cons_of_mem _ hc))
    refine ⟨x, ?_⟩
    rw [State.performLanes, hnext]
    exact hz.trans hx

end

/-! ## The operation -/

/-- Lanes of one line are one request. -/
theorem byLine_of_same {ls : List LaneAcc} {l : Option Nat} (h : ∀ a ∈ ls, a.line = l) : byLine ls = ls := by
  cases ls with
  | nil => rfl
  | cons a as =>
    have hline : a.line = l := h a List.mem_cons_self
    have hrest : (as.map (fun a => a.line)).filter (fun b => !b == a.line) = [] := by
      rw [List.filter_eq_nil_iff]
      intro b hb
      obtain ⟨c, hc, rfl⟩ := List.mem_map.1 hb
      simp [hline, h c (List.mem_cons_of_mem _ hc)]
    have hall : (a :: as).filter (fun b => b.line = a.line) = a :: as := by
      rw [List.filter_eq_self]
      intro b hb
      simp [hline, h b hb]
    rw [byLine, List.map_cons, List.eraseDups_cons, hrest, List.eraseDups_nil, List.map_singleton, List.flatten_singleton, hall]

theorem here_eq_reached (p : Place) : p.here = reached p := by cases p <;> rfl
theorem todo_eq (o : MemOp) : o.todo = toDo o := by
  unfold MemOp.todo toDo
  simp only [here_eq_reached]
theorem isWrite_eq_true {k : OpKind} : k.isWrite = true ↔ k ≠ .load := by cases k <;> simp [OpKind.isWrite]

/-- The lanes of one operation of a floe marked as performed, one after the other. -/
theorem foldl_markDone (seq : Nat) (as : List LaneAcc) : ∀ fl : Floe, as.foldl (fun fl a => fl.markDone seq a.lane) fl =
    { fl with ops := fl.ops.map (fun p => if p.seq = seq then
      { p with lanes := p.lanes.map (fun a => if a.lane ∈ as.map (fun b => b.lane) then { a with done := true } else a) } else p) } := by
  induction as with
  | nil =>
    intro fl
    simp
  | cons b as ih =>
    intro fl
    rw [List.foldl_cons, ih, Floe.markDone]
    simp only [List.map_map]
    refine congrArg (fun ops => { fl with ops := ops }) (List.map_congr_left (fun p _ => ?_))
    by_cases hp : p.seq = seq
    · simp only [Function.comp, hp, if_true, List.map_map, List.map_cons, List.mem_cons]
      refine congrArg (fun ls => ({ p with seq := seq, lanes := ls } : MemOp)) (List.map_congr_left (fun a _ => ?_))
      by_cases hb : a.lane = b.lane <;> by_cases ha : b.lane ∈ as.map (fun b => b.lane) <;> simp [hb, ha]
    · simp [hp]

/-- Where operations and lanes bear numbers of their own, marking by number marks the lanes that were to do. -/
theorem markDone_toDo {s : State} {f : Nat} {o : MemOp} (ho : o ∈ (s.floe f).ops) (hseq : ((s.floe f).ops.map (fun p => p.seq)).Nodup)
    (hlanes : (o.lanes.map (fun a => a.lane)).Nodup) :
    (toDo o).foldl (fun fl a => fl.markDone o.seq a.lane) (s.floe f) = { s.floe f with ops := marked s f o } := by
  rw [foldl_markDone, marked]
  refine congrArg (fun ops => { s.floe f with ops := ops }) (List.map_congr_left (fun p hp => ?_))
  split
  next hps =>
    obtain rfl : p = o := List.inj_on_of_nodup_map hseq hp ho hps
    refine congrArg (fun ls => { p with lanes := ls }) (List.map_congr_left (fun a ha => ?_))
    have hiff : a.lane ∈ (toDo p).map (fun b => b.lane) ↔ a ∈ toDo p := by
      refine ⟨fun h => ?_, List.mem_map_of_mem⟩
      obtain ⟨b, hb, hba⟩ := List.mem_map.1 h
      rwa [← List.inj_on_of_nodup_map hlanes (List.mem_filter.1 hb).1 ha hba]
    simp only [hiff]
  next => rfl

section
variable {s : State} {f ln : Nat} {o : MemOp} {x : StackLine}

theorem OldestWrite.mem (h : OldestWrite s f o) : o ∈ (s.floe f).ops := by
  obtain ⟨before, after, hops, -⟩ := h.split
  rw [hops]
  exact List.mem_append_right _ List.mem_cons_self

/-- The oldest write with lanes to do is the one that `STACK_WRITE` takes. -/
theorem OldestWrite.find (h : OldestWrite s f o) : (s.floe f).ops.find? (fun o => o.kind.isWrite && !o.todo.isEmpty) = some o := by
  obtain ⟨before, after, hops, hbefore⟩ := h.split
  have hpos : (o.kind.isWrite && !o.todo.isEmpty) = true := by
    rw [isWrite_eq_true.2 h.write, todo_eq]
    simpa using h.toDo
  rw [hops, List.find?_append, List.find?_eq_none.2 (fun p hp => ?_), Option.none_or]
  · exact List.find?_cons_of_pos hpos
  rcases hbefore p hp with hk | hd
  · simp [hk, OpKind.isWrite]
  · simp [todo_eq, hd]

theorem InLine.lanes {key : Nat} (h : InLine o ln key) : ∀ a ∈ toDo o, LaneIn o.size ln key a := h

/-- What a store performs, its lines all answered. -/
theorem performAll_eq (h : OldestWrite s f o) {key : Nat} (hin : InLine o ln key) : s.performAll f o =
    s.performLanes ⟨o.time, (s.core (floeCore f)).ctime, [], o.wholeMem, o.wholeRegs⟩ f o (toDo o) := by
  have hby : byLine (toDo o) = toDo o := by
    refine byLine_of_same (l := some ln) (fun a ha => ?_)
    obtain ⟨pa, nc, hpa, hln, -⟩ := hin a ha
    rw [LaneAcc.line, hpa, ← hln]
  have hall : o.lanes.all (fun a => a.done || a.place.here) = true := by
    simp only [List.all_eq_true, Bool.or_eq_true, here_eq_reached]
    exact h.whole.2
  rw [State.performAll, if_neg (by rw [todo_eq]; simpa using h.toDo), todo_eq, hby, State.riseTime, if_pos hall, h.whole.1]

theorem completes_stackWrite (h : OldestWrite s f o) (hk : o.kind = .store) (hc : o.cls = .stores) (hd : o.dest = .none)
    (hin : InLine o ln x.key) (hown : Owned s (dieOfCore (floeCore f)) ln x.key x)
    (hm : mayStamp s (floeCore f) (stampOf s (dieOfCore (floeCore f)) x o)) : Completes (.stackWrite f) s (Stored s f o ln x) := by
  obtain ⟨hrise, hclamp⟩ := hm
  set w := stampOf s (dieOfCore (floeCore f)) x o with hw
  set q : BankReq := ⟨o.time, (s.core (floeCore f)).ctime, [], o.wholeMem, o.wholeRegs⟩ with hq
  have hmay : MayWriteLine s f ln q w x := ⟨hown, if_neg (by simp [hq]), fun h => absurd h (by simp [hq]), hclamp⟩
  obtain ⟨z, hz⟩ : ∃ z, WritesLine s f o ln w x (toDo o) (s.performLanes q f o (toDo o)) z := by
    have hin' := hin.lanes
    cases has : toDo o with
    | nil => exact absurd has h.toDo
    | cons a as =>
      rw [has] at hin'
      exact writesLine_performLanes hk hd as a s q x hmay hin'
  have hheld : s.heldBack (floeCore f) (s.performLanes q f o (toDo o)) = false :=
    heldBack_eq_false hrise (by rw [hz.core]; exact raisedCore_ctime _ _)
  have hgives : s.performWrite f = s.performLanes q f o (toDo o) := by
    have hop : s.performOp f o = s.performLanes q f o (toDo o) := by
      rw [State.performOp, if_neg (by rw [hc]; decide), performAll_eq h hin]
    unfold State.performWrite State.tryPerform
    simp only [h.find, hk, hc, hop, hheld]
    rfl
  refine ⟨_, congrArg Host.Outcome.next hgives, ?_⟩
  obtain ⟨howned, hdirty, hkey, hwts, hrts⟩ := hz.bits
  exact
    { frame := hz.frame
      floes := hz.floes
      line := ⟨z, hz.line, howned, hdirty, hkey, hwts, hrts.trans hwts.symm, hz.bytes, by rw [hwts]; exact hz.core,
        by rw [hwts, hrts]; exact hz.copy⟩
      copies := hz.copies
      floe := hz.floe.trans (markDone_toDo h.mem h.seqs h.lanes) }

end

/-- Settles O26: the lanes of the one line are written one after the other with the stamps of the first. -/
theorem storesReachTheirBank : Obligations.StoresReachTheirBank :=
  fun _ _ _ _ _ h hk hc hd hin hown hm => completes_stackWrite h hk hc hd hin hown hm

end Sys2Proof.Claims

/-!
# `TRAP` (R92, R93, R259, R268, R449)
-/
namespace Sys2Proof.Claims
open Sys2Proof.Machine

/-! ## The fields of a `TRAP` word (R93, R449) -/

section
variable (c : BitVec 18)

theorem trapWord_major : bitsOf (encodeWord (.trap c)) 1 6 = 0x25 := by simp only [bitsOf, encodeWord]; omega
theorem trapWord_op : bitsOf (encodeWord (.trap c)) 27 5 = 2 := by simp only [bitsOf, encodeWord]; omega
theorem trapWord_class : bitsOf (encodeWord (.trap c)) 25 2 = 0 := by simp only [bitsOf, encodeWord]; omega
theorem trapWord_code : bitsOf (encodeWord (.trap c)) 7 18 = c.toNat := by simp only [bitsOf, encodeWord]; omega
theorem trapWord_layout : layoutOf (encodeWord (.trap c)) = 1 := by
  rw [layoutOf, trapWord_major]
  rfl
theorem trapWord_sub : subOf (encodeWord (.trap c)) = 2 := by
  rw [subOf, trapWord_layout, trapWord_major, trapWord_op]
  rfl

/-- A field read as a two's-complement number is the field sign-extended. -/
theorem trapWord_sext : sextField (encodeWord (.trap c)) 7 18 = c.signExtend 64 := by
  have hlt : encodeWord (.trap c) < 2 ^ 32 := by simp only [encodeWord]; omega
  have hcode : fieldI (BitVec.ofNat 32 (encodeWord (.trap c))) 7 18 = c.toInt := by
    rw [fieldI, BitVec.toNat_ofNat, Nat.mod_eq_of_lt hlt, trapWord_code, BitVec.toInt_eq_toNat_cond]
    split <;> split
    all_goals omega
  rw [sextField, hcode, BitVec.signExtend]

theorem illfOf_trap (fl : Floe) : (illfOf fl (encodeWord (.trap c)) 4 11).f0 = 0x0328810B ∧
    (illfOf fl (encodeWord (.trap c)) 4 11).f2 = c.signExtend 64 := by
  rw [illfOf, if_neg (by decide), if_neg (by decide)]
  dsimp only
  rw [trapWord_layout, trapWord_major, trapWord_sub, trapWord_class, illf2Of, trapWord_layout, trapWord_major, trapWord_op, trapWord_sext]
  exact ⟨rfl, rfl⟩

end

theorem exec_trap (c : BitVec 18) (s : State) : exec (.trap c) s = .next (s.emulTrap s.cur.floe s.cur.frag (encodeWord (.trap c)) 4 11) := rfl

section
variable {s : State} {c : BitVec 18}

theorem completes_trap_entered {x : Xlat} {line : StackLine} (h : MayTrap s x line) : Completes (.trap c) s (Trapped s c x) := by
  refine ⟨_, exec_trap c s, ?_⟩
  obtain ⟨hf0, hf2⟩ := illfOf_trap c s.fl
  rw [emulTrap_eq h]
  have hent := entered h.2.2 (trapped s (encodeWord (.trap c)) (illfOf s.fl (encodeWord (.trap c)) 4 11).f0
    (illfOf s.fl (encodeWord (.trap c)) 4 11).f1 (illfOf s.fl (encodeWord (.trap c)) 4 11).f2 (illfOf s.fl (encodeWord (.trap c)) 4 11).f3)
    (fun _ _ _ => rfl) (thandlerOf s.fl.uivec) false true s.now
  have hreason := illfOf_reason s.fl (encodeWord (.trap c)) 4 (r := 11) (by decide)
  have htaken := by refine Entered.trapTaken (r := 11) ?_ hreason hent; rfl
  exact ⟨htaken.entered, (congrArg Floe.illf0 hent.floe).trans hf0, (congrArg Floe.illf2 hent.floe).trans hf2⟩

/-! ## Where the entry is disabled, or held back (R46, R259, R262) -/

/-- A halt of a running launch (R259). -/
theorem haltLaunch_running {l status cause : Nat} {blk : Option Nat} (h : (s.launch l).phase = .running) :
    (s.haltLaunch l status cause blk).launch l =
      { s.launch l with phase := .halting, status := status, cause := BitVec.ofNat 8 cause, causeBlk := blk } := by
  cases hx : s.launches.get? l with
  | none =>
    rw [State.launch, Tab.getD, hx] at h
    exact absurd h (by decide)
  | some y =>
    have hy : s.launch l = y := by rw [State.launch, Tab.getD, hx]; rfl
    rw [hy] at h
    rw [State.haltLaunch, State.updLaunch_launch_self s _ hx, if_pos (by simp [h]), hy]

theorem haltLaunch_rest (s : State) (l status cause : Nat) (blk : Option Nat) :
    (s.haltLaunch l status cause blk).mem = s.mem ∧ (s.haltLaunch l status cause blk).blocks = s.blocks := by
  unfold State.haltLaunch
  exact ⟨by simp, by simp⟩

/-- With trap entries disabled, nothing holds the cause back from ending its launch. -/
theorem trapHeld_disabled (h : TrapsNow s) (hten : tenOf s.fl.uivec = false) (skip : Bool) : s.trapHeld s.cur.floe s.cur.frag skip = false := by
  obtain ⟨hreq, hhalt, hrecs⟩ := h
  have hmay : (s.floe s.cur.floe).mayIssue ((s.floe s.cur.floe).frag s.cur.frag) = true := by
    unfold Floe.mayIssue
    rcases hrecs with hnil | hhandler
    · rw [show (s.floe s.cur.floe).recs = [] from hnil]; rfl
    · rw [show ((s.floe s.cur.floe).frag s.cur.frag).handler = true from hhandler, Bool.or_true]
  unfold State.trapHeld
  rw [show (s.core (floeCore s.cur.floe)).haltReq = false from hreq, hhalt, hmay, show tenOf (s.floe s.cur.floe).uivec = false from hten]
  rfl

/-- With trap entries disabled, an emulation trap ends its launch (R259). -/
theorem emulTrap_disabled (h : TrapsNow s) (hten : tenOf s.fl.uivec = false) (word len r : Nat) :
    ∃ g : Floe → Floe, s.emulTrap s.cur.floe s.cur.frag word len r = (s.updFloe s.cur.floe g).haltLaunch s.blk.launch 3 0x0B (some s.blk.id) := by
  set g := withIll (BitVec.ofNat 64 word) (illfOf s.fl word len r).f0 (illfOf s.fl word len r).f1 (illfOf s.fl word len r).f2
    (illfOf s.fl word len r).f3
  have hfl : (s.updFloe s.cur.floe g).fl = g s.fl := State.updFloe_floe_self ..
  have hu : TrapsNow (s.updFloe s.cur.floe g) := by
    obtain ⟨hreq, hhalt, hrecs⟩ := h
    refine ⟨hreq, hhalt, ?_⟩
    show (s.updFloe s.cur.floe g).fl.recs = [] ∨ ((s.updFloe s.cur.floe g).fl.frag s.cur.frag).handler = true
    rw [hfl]
    exact hrecs
  have hheld : (s.updFloe s.cur.floe g).trapHeld s.cur.floe s.cur.frag (decide (r ≤ 11)) = false :=
    trapHeld_disabled hu (by rw [hfl]; exact hten) _
  have hten' : tenOf ((s.updFloe s.cur.floe g).floe s.cur.floe).uivec = false := by rw [State.updFloe_floe_self]; exact hten
  refine ⟨g, ?_⟩
  unfold State.emulTrap
  dsimp only
  rw [trapHeld_disabled h hten, if_neg Bool.false_ne_true]
  show (s.updFloe s.cur.floe g).enterTrap s.cur.floe s.cur.frag 0x0B 0 _ (decide (r ≤ 11)) = _
  unfold State.enterTrap
  dsimp only
  rw [hheld, if_neg Bool.false_ne_true, hten']
  exact if_pos rfl

theorem completes_trap_disabled (h : TrapsNow s) (hten : s.fl.uivec.getLsbD 43 = false) (hrun : (s.launch s.blk.launch).phase = .running) :
    Completes (.trap c) s (fun t => (t.launch s.blk.launch).phase = .halting ∧ (t.launch s.blk.launch).status = 3 ∧
      (t.launch s.blk.launch).cause = 0x0B ∧ t.mem = s.mem ∧ t.blocks = s.blocks) := by
  obtain ⟨g, hg⟩ := emulTrap_disabled h hten (encodeWord (.trap c)) 4 11
  obtain ⟨hmem, hblocks⟩ := haltLaunch_rest (s.updFloe s.cur.floe g) s.blk.launch 3 0x0B (some s.blk.id)
  have hlaunch := haltLaunch_running (s := s.updFloe s.cur.floe g) (status := 3) (cause := 0x0B) (blk := some s.blk.id) hrun
  refine ⟨_, exec_trap c s, ?_⟩
  rw [hg]
  exact ⟨congrArg Launch.phase hlaunch, congrArg Launch.status hlaunch, congrArg Launch.cause hlaunch, hmem, hblocks⟩

/-- A cause that is held back is pending (R46, R262). -/
theorem trapHeld_of_waits (h : TrapWaits s) (skip : Bool) : s.trapHeld s.cur.floe s.cur.frag skip = true := by
  unfold State.trapHeld
  rcases h with hreq | ⟨hhalt, hcore⟩ | ⟨hrecs, hhandler⟩
  · rw [show (s.core (floeCore s.cur.floe)).haltReq = true from hreq]
    rfl
  · simp [hhalt, hcore]
  · have hmay : (s.floe s.cur.floe).mayIssue ((s.floe s.cur.floe).frag s.cur.frag) = false := by
      unfold Floe.mayIssue
      rw [show ((s.floe s.cur.floe).frag s.cur.frag).handler = false from hhandler, Bool.or_false]
      exact List.isEmpty_eq_false_iff.2 hrecs
    simp [hmay]

/-- A fragment whose cause is pending. -/
def pending (g : Fragment) : Fragment := { g with wait := .trap, rb := none, left := none }

theorem frag_updFrag_ne {fl : Floe} {id j : Nat} {g : Fragment → Fragment} (hg : ∀ x, (g x).id = x.id) (h : j ≠ id) :
    (fl.updFrag id g).frag j = fl.frag j := by
  have hF : ∀ x : Fragment, (if x.id = id then g x else x).id = x.id := fun x => by split; exacts [hg x, rfl]
  rw [Floe.frag, Floe.updFrag, find_map_id _ hF, Floe.frag]
  cases hf : fl.frags.find? (fun x => x.id = j) with
  | none => rfl
  | some y =>
    have hy : y.id = j := by simpa using List.find?_some hf
    rw [Option.map_some, if_neg (by rw [hy]; exact h)]

/-- The floe once a cause of one of its fragments is pending. -/
theorem trapPends_holdTrap (h : Here s) {d : Due} {cause : BitVec 8} (hd : d.frag = s.cur.frag) (hc : d.cause = cause.toNat) :
    TrapPends s cause (s.holdTrap s.cur.floe d) := by
  obtain ⟨id, dcause, faddr, skip, ill⟩ := d
  dsimp only at hd hc
  subst hd
  have hfl : (s.holdTrap s.cur.floe ⟨s.cur.frag, dcause, faddr, skip, ill⟩).floe s.cur.floe =
      (Floe.updFrag { s.fl with due := s.fl.due ++ [⟨s.cur.frag, dcause, faddr, skip, ill⟩] } s.cur.frag pending).settleState s.now :=
    State.updFloe_floe_self ..
  have hfrag (j : Nat) : (s.holdTrap s.cur.floe ⟨s.cur.frag, dcause, faddr, skip, ill⟩).frag s.cur.floe j =
      (s.fl.updFrag s.cur.frag pending).frag j := by
    rw [State.frag, hfl, Floe.frag, Floe.settleState_frags]
    rfl
  have hdue : (s.holdTrap s.cur.floe ⟨s.cur.frag, dcause, faddr, skip, ill⟩).fl.due = s.fl.due ++ [⟨s.cur.frag, dcause, faddr, skip, ill⟩] :=
    (congrArg Floe.due hfl).trans (congrArg Floe.due (settle_upd_frame ..))
  refine ⟨OnlyFloe.updFloe .., ?_, ⟨⟨s.cur.frag, dcause, faddr, skip, ill⟩, ?_, rfl, hc⟩, ?_, fun j hj => ?_⟩
  · refine (hfl.trans (settle_upd_frame ..)).trans ?_
    rw [← hfl, hdue]
    rfl
  · exact hdue
  · exact (hfrag s.cur.frag).trans (frag_updFrag_self (fun _ => rfl) h)
  · exact (hfrag j).trans (frag_updFrag_ne (fun _ => rfl) hj)

theorem completes_trap_pends (h : Here s) (hw : TrapWaits s) : Completes (.trap c) s (TrapPends s 0x0B) := by
  refine ⟨_, exec_trap c s, ?_⟩
  unfold State.emulTrap
  dsimp only
  rw [trapHeld_of_waits hw, if_pos rfl]
  exact trapPends_holdTrap h rfl rfl

end

/-- Settles O41: the trap enters, ends its launch, or stands pending, by what holds its entry back. -/
theorem trapEntersTheHandler : Obligations.TrapEntersTheHandler :=
  ⟨fun _ _ _ _ h => completes_trap_entered h, fun _ _ h hten hrun => completes_trap_disabled h hten hrun,
    fun _ _ h hw => completes_trap_pends h hw⟩

end Sys2Proof.Claims

/-!
# Reports and interrupts enter their handlers (R93, R257, R261, R266, R268)
-/
namespace Sys2Proof.Claims
open Sys2Proof.Machine

/-- The floe once its oldest reported cause has left the queue: the trap's own fields where the cause is an emulation trap (R93). -/
def withReport (r : Report) (rest : List Report) (fl : Floe) : Floe :=
  { fl with
    illop := if r.cause = 0x0B then r.illop else fl.illop, illf0 := if r.cause = 0x0B then r.illf0 else fl.illf0
    illf1 := if r.cause = 0x0B then 0 else fl.illf1, illf2 := if r.cause = 0x0B then 0 else fl.illf2
    illf3 := if r.cause = 0x0B then r.illf3 else fl.illf3, reports := rest }

section
variable {s : State} {f id : Nat} {x : Xlat} {line : StackLine} {r : Report} {rest : List Report}

/-! ## A reported cause (R257) -/

/-- An emulation trap's report leaves the word, the reason and the patch in the ILL fields. -/
theorem withReport_of_trap (h : r.cause = 0x0B) : withReport r rest = fun fl => { fl with
    illop := r.illop, illf0 := r.illf0, illf1 := 0, illf2 := 0, illf3 := r.illf3, reports := rest } := by
  funext fl
  simp only [withReport, if_pos h]

theorem withReport_of_other (h : r.cause ≠ 0x0B) : withReport r rest = fun fl => { fl with reports := rest } := by
  funext fl
  simp only [withReport, if_neg h]

theorem enterReport_eq : s.enterReport f id r rest =
    (s.updFloe f (withReport r rest)).enterTrap f id r.cause.toNat r.faddr (s.frag f id).pc false := by
  unfold State.enterReport
  by_cases h : r.cause = 0x0B
  · rw [withReport_of_trap h]
    simp only [if_pos h, State.updFloe_updFloe]
    rfl
  · rw [withReport_of_other h]
    simp only [if_neg h]
    rfl

theorem CanEnter.withReport (h : CanEnter s f id x line) : CanEnter (s.updFloe f (withReport r rest)) f id x line := by
  have hva : recordVa (s.updFloe f (Claims.withReport r rest)) f = recordVa s f := by
    unfold recordVa; rw [State.updFloe_floe_self]; rfl
  have hpa : recordPa (s.updFloe f (Claims.withReport r rest)) f x = recordPa s f x := by unfold recordPa; rw [hva]
  obtain ⟨hdie, hhere, howned, hkey, halone, hstill, hunarmed, hplain⟩ := h.own
  exact
    { frag := by rw [State.updFloe_floe_self]; exact h.frag
      aligned := by rw [State.updFloe_floe_self]; exact h.aligned
      depth := by rw [State.updFloe_floe_self]; exact h.depth
      space := by rw [hva]; exact h.space
      held := by rw [hva]; exact h.held
      page := h.page
      whole := by rw [hpa]; exact h.whole
      own := by rw [hpa]; exact ⟨hdie, hhere, howned, hkey, halone, hstill, hunarmed, hplain⟩
      rises := h.rises }

theorem recordState_withReport (kind skip : Bool) : recordState (s.updFloe f (withReport r rest)) f id x line kind skip =
    (recordState s f id x line kind skip).updFloe f (withReport r rest) := by
  unfold recordState recordLine recordPa recordVa State.frag
  rw [State.updFloe_floe_self]
  rfl

/-- The floe's registers as the entry sets them. -/
theorem trapEntry_withReport : trapEntry (s.updFloe f (withReport r rest)) f id x line
      (fun y => { y with epc := (s.frag f id).pc, fcause := r.cause, faddr := r.faddr }) false =
    trapEntry s f id x line (reported s f id r rest) false := by
  unfold trapEntry recordVa
  rw [recordState_withReport, State.updFloe_floe_self, State.updFloe_updFloe, State.updFloe_updFloe, State.updFloe_updFloe]
  by_cases h : r.cause = 0x0B
  · simp only [withReport, reported, if_pos h]
    rfl
  · simp only [withReport, reported, if_neg h]
    rfl

theorem enterReport_entered (h : CanEnter s f id x line) (hreq : (s.core (floeCore f)).haltReq = false) (hhalt : s.cur.halt = false)
    (hrecs : (s.floe f).recs = []) (hten : (s.floe f).uivec.getLsbD 43 = true) :
    Entered s f id x (reported s f id r rest) (thandlerOf (s.floe f).uivec) false false (s.enterReport f id r rest) := by
  have hfl : (s.updFloe f (withReport r rest)).floe f = withReport r rest (s.floe f) := State.updFloe_floe_self ..
  have hheld : (s.updFloe f (withReport r rest)).trapHeld f id false = false :=
    trapHeld_eq_false hreq hhalt (.inl (by rw [hfl]; exact hrecs)) h.withReport
  rw [enterReport_eq, enterTrap_eq h.withReport hheld (by rw [hfl]; exact hten), BitVec.ofNat_toNat, BitVec.setWidth_eq, trapEntry_withReport]
  refine entered h (reported s f id r rest) (fun y fr rc => ?_) _ false false s.now
  unfold reported
  split <;> rfl

theorem atIssue_of (h : AtIssue s f id) : s.atIssue f id = true ∧ s.dueTrap f id = false := by
  unfold State.atIssue State.dueTrap
  have hw : ((s.floe f).frag id).wait = (s.frag f id).wait := rfl
  rcases h with ⟨hwait, hleft, hst, hpick⟩ | hwait | hwait | hwait
  · have hl : ((s.floe f).frag id).left = none := hleft
    rw [hw, hwait]
    simp [State.next, hst, hpick, hl]
  all_goals
    rw [hw, hwait]
    simp

theorem takeTrap_report (ha : AtBoundary s f id) (hrep : (s.floe f).reports = r :: rest) (hrecs : (s.floe f).recs = [])
    (hfence : (s.floe f).fence = none) (hi : AtIssue s f id) : s.takeTrap f id = s.enterReport f id r rest := by
  obtain ⟨hissue, hdue⟩ := atIssue_of hi
  have hrd : s.dueReport f id = some (r, rest) := by
    simp [State.dueReport, atBoundary_of ha hrecs, hrecs, hfence, hissue, hrep]
  rw [State.takeTrap, hdue, if_neg Bool.false_ne_true, State.takeReport, hrd]

/-! ## An interrupt (R266) -/

theorem relWaits_eq_false (h : noneBehindRel s f) : (s.floe f).relWaits = false := by
  unfold Floe.relWaits
  rcases h with hdone | hnone
  · have hrel : (s.floe f).relHolds = false := by
      unfold Floe.relHolds
      rw [List.any_eq_false]
      intro n hn
      simp only [Floe.doneBefore, Bool.not_eq_true', Bool.not_eq_false, List.all_eq_true, Bool.or_eq_true, decide_eq_true_eq]
      intro o ho
      by_cases hlt : n ≤ o.seq
      · exact .inl hlt
      · exact .inr (hdone n hn o ho (by omega))
    rw [hrel, Bool.false_and]
  · have hany : (s.floe f).frags.any (fun g => g.wait = .rel) = false := by
      rw [List.any_eq_false]
      exact fun g hg => by simpa using hnone g hg
    rw [hany, Bool.and_false]

theorem abandoned_of {w : WaitFor} (h : abandonable w) : w.abandoned = true := by
  rcases h with rfl | ⟨va, limit, rfl⟩ | rfl | rfl <;> rfl

theorem interruptDue_of (ha : AtBoundary s f id) (hpend : (s.floe f).uipend &&& ~~~(s.floe f).umask ≠ 0) (hrecs : (s.floe f).recs = [])
    (hfence : (s.floe f).fence = none) (hrel : noneBehindRel s f) (hi : TakesNext s f id ∨ Abandons s f id) : s.interruptDue f id = true := by
  unfold State.interruptDue
  rcases hi with ⟨hwait, hleft, hst, hpick⟩ | ⟨hwait, hleft, hst⟩
  · have hw : ((s.floe f).frag id).wait = .none := hwait
    have hl : ((s.floe f).frag id).left = none := hleft
    simpa [atBoundary_of ha hrecs, hl, hrecs, hfence, relWaits_eq_false hrel, hw, State.next, hst, hpick] using hpend
  · have hw : ((s.floe f).frag id).wait.abandoned = true := abandoned_of hwait
    have hl : ((s.floe f).frag id).left = none := hleft
    simpa [atBoundary_of ha hrecs, hl, hrecs, hfence, relWaits_eq_false hrel, hw, hst] using hpend

theorem enterInterrupt_entered (h : CanEnter s f id x line) :
    Entered s f id x (interrupted s f id) (ihandlerOf (s.floe f).uivec) true false (s.enterInterrupt f id) := by
  unfold State.enterInterrupt
  simp only [pushRecord_eq h]
  exact entered h (interrupted s f id) (fun _ _ _ => rfl) _ true false s.now

end

/-- Settles O42: the checks of the entry pass, and the record's write is followed by one change of the floe. -/
theorem handlerEntries : Obligations.HandlerEntries := by
  refine ⟨fun s f id x line r rest h ha hrep hrecs hfence hi hhalt hten => ?_, fun s f id x line h ha hpend hrecs hfence hrep hrel hi => ?_⟩
  · refine ⟨_, congrArg Host.Outcome.next (takeTrap_report ha hrep hrecs hfence hi), ?_⟩
    exact enterReport_entered h ha.core.1 hhalt hrecs hten
  · have hgives : s.takeInterrupt f id = s.enterInterrupt f id := by
      rw [State.takeInterrupt, if_pos (interruptDue_of ha hpend hrecs hfence hrel hi), hrep]
      exact if_neg (by rw [h.recordHeld]; exact Bool.false_ne_true)
    exact ⟨_, congrArg Host.Outcome.next hgives, enterInterrupt_entered h⟩

end Sys2Proof.Claims
